-- ==== Sys2Proof/Word.lean ====
section
/-! DEFINITION. The word types of the KQ64 model (00_scope R5: fields are little-endian bit ranges). -/

namespace Sys2Proof

abbrev W8 := BitVec 8
abbrev W16 := BitVec 16
abbrev W32 := BitVec 32
abbrev W64 := BitVec 64
/-- One 64-byte line; byte i is bits [8i+7:8i] (R5). -/
abbrev Line := BitVec 512
/-- The number of a 64-byte line of SoC memory, address bits [63:6]. -/
abbrev LineNo := BitVec 58

end Sys2Proof
end

