-- ==== Sys2Proof/Syntax.lean ====
section
/-! DEFINITION. The commands of the block: one constructor per row of spec/opcode_table.json. A command is an access
of a host, a beat or event at a pin, or one indivisible step of a unit (95_what_each_step_holds). Units are named by
bounded numbers, so no command can name a unit that generation 1 lacks (R10, R11, R324). -/

namespace Sys2Proof

abbrev Queue := Fin 1024
abbrev EngineId := Fin 64
abbrev Seat := Fin 16
abbrev SeqId := Fin 4
abbrev Port := Fin 4
abbrev IkPort := Fin 8
/-- A coherent agent: 0 to 63 gather caches, 64 to 67 descriptor caches, 68 the window line buffer (R259). -/
abbrev AgentId := Fin 69

/-- What every host access carries beside its address and data: seat ID, privilege bit, byte lanes (R328). -/
structure Acc where
  seat : Seat
  priv : Bool
  be   : BitVec 4
  deriving DecidableEq, Repr

/-- The requester of a line at a home (R262, R30) and what the response is for. -/
inductive Rq where
  | agent (a : AgentId)                       -- gather or descriptor cache, window line buffer
  | slot (q : Queue) (n : W32)                -- a slot read of a sequencer (R361)
  | seq (s : SeqId) (place : Fin 32)          -- any other sequencer request, by its outstanding place (R366, R368)
  | window (seat : Seat)                      -- aperture access or near atomic (R257, R272)
  | draw (e : EngineId) (ch : Fin 4)          -- a row of a draw channel (R96)
  | tdesc (e : EngineId)                      -- the descriptor copy of R186
  | image (entry : Nat) (e : EngineId)        -- the image read of an IMEM_LOAD, for its first target (R197)
  | stream (entry : Nat) (e : EngineId)       -- a target's read of a WEIGHT_STREAM (R198)
  | intake (p : IkPort)                       -- a KIND 1 write (R295)
  | trace (ring : Fin 17)                     -- trace drain; ring 16 is the steward's (R447)
  | weave                                     -- the weave FETCH (R55)
  | tangle                                    -- the tangle graph, written by the warden core (R439)
  | membar (entry : Nat)                      -- a MEMBAR write-back (R219)
  | record (q : Queue)                        -- a status record (R169)
  | runRecord (e : EngineId)                  -- a run record (R190)
  | victim                                    -- a victim write-back (R255)
  deriving DecidableEq, Repr

/-- Operation of an atomic (R258). -/
inductive AtomOp where
  | add | swap | cas | umax | and | or
  deriving DecidableEq, Repr

/-- A near atomic as it travels to the home (R262, R258): seat, operation, size, byte offset in the line, operands. -/
structure AtomReq where
  seat  : Seat
  op    : AtomOp
  wide  : Bool
  off   : BitVec 6
  opnd  : W64
  cmp   : W64
  deriving DecidableEq, Repr

/-- A flit as it reaches a receiver (R279): on a Tether port with all its bits, on an internal link (R409) by whether
its CRC is good and its sequence number, since its layout is not given. -/
inductive FlitIn where
  | tether (p : Port) (bits : BitVec 608)
  | internal (link : BitVec 12) (crcGood : Bool) (seq : W8)
  deriving DecidableEq, Repr

/-- Which acknowledgement a STATUS_RECORD_ACK brings: of the queue's status ring or of a standing run's record. -/
inductive RecKind where
  | ring (q : Queue)
  | run (e : EngineId)
  deriving DecidableEq, Repr

/-- Who orders a reset: the warden core, naming the KIND of the causing event (R405), or a host access. -/
inductive OrderBy where
  | warden (cause : W8)
  | host (a : Acc)
  deriving DecidableEq, Repr

/-- What a break unit may match (R433): a slot read, or a TAG carried out. -/
inductive BrkEvent where
  | count (q : Queue) (n : W32)
  | tag (q : Queue) (n : W32) (v : W32)
  deriving DecidableEq, Repr

/-- A TAP access (R432, R356): TRST_N changes, one TCK cycle with TMS and TDI; or a whole scan: the instruction register is
loaded, or the belay or another instrument is shifted. -/
inductive TapOp where
  | trst (low : Bool)
  | clock (tms tdi : Bool)
  | ir (v : W8)
  | belay (enter release : Bool)
  | engine (e : EngineId)
  | sequencer (s : SeqId)
  | memory (what : BitVec 2) (unit : BitVec 6) (way : BitVec 4) (addr : W32)
  | port (n : Port)
  | intake (p : IkPort)
  deriving DecidableEq, Repr

/-- The rungs of the ladder that the warden core orders (R417). -/
inductive Rung where
  | engine (e : EngineId)
  | partition (p : Fin 16)
  | block
  | power
  deriving DecidableEq, Repr

/-- Wake causes (R396). -/
inductive WakeCause where
  | hrp | intake | belayIn | tap
  deriving DecidableEq, Repr

/-- Which caddy: an engine's or the block's. -/
inductive CaddyId where
  | engine (e : EngineId)
  | block
  deriving DecidableEq, Repr

inductive Instr where
  -- slot commands (07): the slot at HEAD of queue q, held by its sequencer, is checked and entered
  | nop (q : Queue)
  | launch (q : Queue)
  | stand (q : Queue)
  | unstand (q : Queue)
  | hitch (q : Queue)
  | tie (q : Queue)
  | copy (q : Queue)
  | fill (q : Queue)
  | imemLoad (q : Queue)
  | weightStream (q : Queue)
  | watch (q : Queue)
  | mark (q : Queue)
  | tag (q : Queue)
  | membar (q : Queue)
  | fencedComplete (q : Queue)
  -- queues (06)
  | queDoorbell (a : Acc) (q : Queue) (v : W32)
  | create (a : Acc) (q : Queue) (srEn irqEn : Bool)
  | drain (a : Acc) (q : Queue) (srEn irqEn : Bool)
  | abort (a : Acc) (q : Queue) (srEn irqEn : Bool)
  | queueFree (q : Queue)
  | engineAcknowledge (q : Queue) (e : EngineId)
  | queueWake (q : Queue)
  | slotReadReturn (q : Queue) (n : W32) (line : Option Line)
  | commandComplete (q : Queue) (n : Nat)
  | compAdvance (q : Queue)
  | statusRecordAck (k : RecKind) (resp : BitVec 2)
  -- sequencer strands (14)
  | next (s : SeqId)
  | jump (s : SeqId)
  | tret (s : SeqId)
  | branch (s : SeqId)
  | call (s : SeqId)
  | ret (s : SeqId)
  | loop (s : SeqId)
  | dispatch (s : SeqId)
  | wait (s : SeqId)
  | seqMemoryResponse (s : SeqId) (place : Fin 32) (data : Line) (resp : BitVec 2)
  | microTrap (s : SeqId)
  | storeEcc (s : SeqId) (strand : BitVec 12)
  -- knots (08)
  | kntTieGo (a : Acc) (w : W32)
  | tieApply
  | waiterWake
  | knotEccError (k : BitVec 16)
  | kntWinValLoRead (a : Acc) (k : BitVec 16)
  | kntPeakClr (a : Acc)
  -- scheduling (09)
  | tautSelection
  | slackSelection
  | quantumExpiry
  | preemptRequest (e : EngineId)
  | saveComplete (e : EngineId)
  | restoreComplete (e : EngineId)
  | stealRequest (e : EngineId)
  | stealComplete (e : EngineId)
  | standingRunSend (e : EngineId)
  -- engines (03, 04, 05)
  | descriptorCopyDone (e : EngineId)
  | tileStart (e : EngineId)
  | bundleIssue (e : EngineId)
  | pendingWriteLand (e : EngineId)
  | gatherFill (e : EngineId) (line : LineNo) (data : Line) (resp : BitVec 2)
  | indexFetchReturn (e : EngineId) (ag : Fin 4)
  | drawRowComplete (e : EngineId) (ch : Fin 4)
  | tileComplete (e : EngineId)
  | tileFault (e : EngineId)
  -- retirement and twins (02, 16)
  | launchRetire
  | twinCompare (twin : Fin 32)
  | thirdIssue (twin : Fin 32)
  -- weave (02)
  | fetch (a : Acc) (quiet : Bool)
  | check (a : Acc) (quiet : Bool)
  | pour (a : Acc) (quiet : Bool)
  | cancel (a : Acc) (quiet : Bool)
  | steepWrite (a : Acc) (word : BitVec 16) (data : W32)
  | fetchComplete
  | checkComplete
  | quietPourReady
  | pourEdge
  | slotAllocationSwitch
  | engineClearDone (e : EngineId)
  | pourDone
  -- coherence (10)
  | rds (a : AgentId) (line : LineNo)
  | rdonce (rq : Rq) (line : LineNo)
  | rdm (line : LineNo)
  | wr (rq : Rq) (line : LineNo) (data : Line) (mask : W64)
  | atom (line : LineNo) (at' : AtomReq)
  | evict (a : AgentId) (line : LineNo)
  | wb (line : LineNo) (data : Line)
  | fwd (a : AgentId) (line : LineNo) (rq : Rq)
  | fwdinv (a : AgentId) (line : LineNo)
  | inv (a : AgentId) (line : LineNo)
  | data (src : Option AgentId) (rq : Rq) (line : LineNo) (d : Line) (excl : Bool)
  | fwdmiss (a : AgentId) (line : LineNo) (rq : Rq)
  | invack (a : AgentId) (line : LineNo) (d : Option Line)
  | ack (a : AgentId) (line : LineNo)
  | cmpMessage (rq : Rq) (line : LineNo) (old : W64) (resp : BitVec 2)
  | holdEnd (a : AgentId) (line : LineNo)
  | apertureRead (a : Acc) (off : BitVec 13)
  | apertureWrite (a : Acc) (off : BitVec 13) (d : W32)
  | atomicAdd (a : Acc) (wide : Bool)
  | atomicSwap (a : Acc) (wide : Bool)
  | atomicCas (a : Acc) (wide : Bool)
  | atomicUmax (a : Acc) (wide : Bool)
  | atomicAnd (a : Acc) (wide : Bool)
  | atomicOr (a : Acc) (wide : Bool)
  | predReset (a : Acc)
  -- memory ports (10, 13)
  | memPeakClr (a : Acc) (p : Port)
  | rdata (p : Port) (tag : BitVec 9) (d : Line) (resp : BitVec 2)
  | rsp (p : Port) (tag : BitVec 9) (resp : BitVec 2)
  | creditReturn (p : Port) (req wd : Bool)
  | flitReceive (f : FlitIn)
  | nak (p : Port) (seq : W8)
  | replayTimeout (p : Port)
  | train (p : Port) (bits : BitVec 608)
  | trainingTimeout (p : Port)
  -- intake (11)
  | intakeBeat (p : IkPort) (d : BitVec 256) (last : Bool) (ts : W64)
  | damageEntry (p : IkPort) (w : W32)
  | destinationFree (p : IkPort)
  | itemWritesLanded (p : IkPort) (resp : BitVec 2)
  -- power (15)
  | keepCycle (budget : W8)
  | levelStep
  | capWindowBoundary
  | sleepEntry
  | wake (c : WakeCause)
  | clockAcknowledge (ctl : Bool) (level : Bool)
  | droopWarn
  | rampBackStart
  | rampBackStep
  -- starts (13, 18)
  | poresetN
  | sysResetN
  | coldStart (steward : Seat) (keyHash : BitVec 256)
  | warmStart
  | selfTestComplete (fail : Option (BitVec 4))
  | wardenBooted
  | startDone
  -- patch (14)
  | patchBeat (d : W64) (last : Bool)
  | patchDigestDone
  | signatureVerified
  | keyBeat (d : W32)
  | decryptDone
  | romLoadDone
  | patchApplied
  -- recovery (16)
  | hangDeclared (e : EngineId)
  | contextStepDone (e : EngineId)
  | rungOrder (r : Rung) (cause : W8)
  | rungTimeout (r : Rung)
  | engineReset (by' : OrderBy) (e : EngineId)
  | partitionReset (by' : OrderBy) (p : Fin 16)
  | blockReset (by' : OrderBy)
  | powerCycle (by' : OrderBy)
  | engineResetDone (e : EngineId)
  | pcycAckTimeout
  | eccCe (code : BitVec 4) (unit : BitVec 12) (addr : W64)
  | eccUe (code : BitVec 4) (unit : BitVec 12) (addr : W64)
  | wbRefused (p : Port) (line : LineNo) (resp : BitVec 2)
  | wardenStop
  -- debug and trace (17)
  | belayIn
  | belayStopped
  | release (a : Acc)
  | breakUnitFire (ev : BrkEvent)
  | unhold (a : Acc) (u : Fin 8)
  | resume (a : Acc) (which : BitVec 4)
  | step (a : Acc) (which : BitVec 4)
  | seatBelayRequest (a : Acc)
  | triggerFire (u : Fin 8)
  | capture (a : Acc)
  | go (a : Acc) (all : Bool)
  | tangleDone
  | counterSelect (a : Acc) (eng : Option EngineId) (idx : W8) (d : W32)
  | counterSample
  | caddyDrainWrite (c : CaddyId)
  | claim (a : Acc) (e : EngineId)
  | claimRelease (a : Acc) (e : EngineId)
  | tapAccess (op : TapOp)
  -- time (13, 17)
  | refEdge
  | timeLoad (v : W64)
  | timePps
  | holdover
  | set (a : Acc) (disc : Bool)
  | loadUpdate
  -- registers (12)
  | commit (a : Acc)
  | seatExpertEnable (a : Acc) (s : Seat) (d : W32)
  | clear (a : Acc)
  | registerWrite (a : Acc) (addr : BitVec 22) (d : W32)
  | belayEnter (a : Acc)
  | snapshotRead (a : Acc) (addr : BitVec 22)
  | membarScanDone (q : Queue) (n : Nat)
  | emulatedAccessDone
  | issueSlot (p : Port)
  deriving DecidableEq, Repr

end Sys2Proof
end

