-- ==== Sys2Proof/Config.lean ====
section
/-! DEFINITION. What the spec leaves open: constants without a body. No proof can see their values. -/

namespace Sys2Proof

/-- The ROM default of strand address `p` where R374 fixes no value (log 8). -/
opaque Config.romStrand : Nat → W32

/-- The ROM default of yarn `y`, 0x001 to 0x2BF (R374 names the range, not the words; log 8). -/
opaque Config.romYarn : Nat → BitVec 192

/-- A free value, drawn with the counter `State.freeCtr`: used where the spec says a value results but not which
(a steep-window read during FETCHING, R54; log 9). -/
opaque Config.freeWord : Nat → W32

/-- Slots 0 to 55 of a rotation are given to clusters (R48); which of them each cluster gets is log 10. -/
def Config.assignableSlots : Nat := 56

end Sys2Proof
end

