-- ==== Sys2Proof/Machine/BaseTypes.lean ====
section
/-! DEFINITION. Small types shared by the parts of State: keyed collections, ranges, statuses, jobs. -/

namespace Sys2Proof.Machine

/-- A finite map by number, keys strictly rising. In a map with a default (`SMap.get`, `SMap.set` of Ops) no entry
equals the default (log 6); used as a partial map (`PMap`) an entry is present or absent. -/
abbrev SMap (α : Type) := List (Nat × α)
abbrev PMap (α : Type) := List (Nat × α)
/-- Addressed bytes: addresses strictly rising, no entry 0; an unlisted address reads 0 (18 R453, R456; log 6). -/
abbrev Mem := List Host.Cell

/-- Tiles `lo` to `hi - 1` (R231). -/
structure Range where
  lo : Nat
  hi : Nat
  deriving DecidableEq, Repr

/-- The outcome of a command: the flags, CODE and DETAIL of its status record (R168). -/
structure Stat where
  aborted   : Bool := false
  stale     : Bool := false
  numeric   : Bool := false
  concealed : Bool := false
  stretched : Bool := false
  twinRec   : Bool := false
  fault     : Bool := false
  code      : W8 := 0
  detail    : W64 := 0
  deriving DecidableEq, Repr

/-- The work a tile belongs to: the LAUNCH, or the standing launch, of command `n` of queue `q`. -/
structure Job where
  run : Bool
  q   : Nat
  n   : Nat
  deriving DecidableEq, Repr

/-- Operation of a tie (R205); `flagOnly` is the flag in place of the value. -/
inductive TieOp where
  | set | add | max | flagOnly
  deriving DecidableEq, Repr

/-- Where a tie comes from (R31, R206, R443). -/
inductive TieSrc where
  | host (seat : Nat) | intake (port : Nat) | command | stale
  deriving DecidableEq, Repr

structure Tie where
  knot  : Nat
  op    : TieOp
  val   : W64
  flags : BitVec 4
  epoch : W32
  src   : TieSrc
  /-- the tie of a KIND 0 item whose record has CONCEALED = 1 (R298) -/
  concealed : Bool := false
  deriving DecidableEq, Repr

/-- VALID, CODE, COUNT of a queue or host-tie error register (R160, R224). -/
structure ErrReg where
  code  : W8 := 0
  count : W16 := 0
  irqEn : Bool := false
  valid : Bool := false
  deriving DecidableEq, Repr

end Sys2Proof.Machine
end

