-- ==== Sys2Proof/Machine/WeaveTypes.lean ====
section
/-! DEFINITION. The weave as the units hold it, and the weave unit (02_weave). -/

namespace Sys2Proof.Machine

/-- PARTITION record (R41). -/
structure WvPart where
  num          : Nat
  taut         : Bool
  dedicated    : Bool
  warm         : Bool
  twinOk       : Bool
  mask         : W64
  maxTileNs    : Nat
  maxInflight  : Nat
  sbReserve    : Nat
  waitReserve  : Nat
  residentKib  : Nat
  deriving DecidableEq, Repr

/-- SEAT record (R44). -/
structure WvSeat where
  seat      : Nat
  partMask  : W16
  knotBase  : Nat
  knotCount : Nat
  expert    : W32
  deriving DecidableEq, Repr

/-- QUEUE_MAP record (R45); `part` 31 is no partition. -/
structure WvQmap where
  first  : Nat
  count  : Nat
  owner  : Nat
  part   : Nat
  prio   : Nat
  subset : W64
  deriving DecidableEq, Repr

/-- CLUSTER record (R47). -/
structure WvCluster where
  cluster : Nat
  ways    : W16
  slots0  : Nat
  slots1  : Nat
  slots2  : Nat
  slots3  : Nat
  deriving DecidableEq, Repr

/-- REGION record (R49). -/
structure WvRegion where
  region   : Nat
  saveWays : W16
  deriving DecidableEq, Repr

/-- TWIN record (R50), in weave order. -/
structure WvTwin where
  a   : Nat
  b   : Nat
  arb : Nat
  deriving DecidableEq, Repr

/-- INTAKE record (R52). -/
structure WvIntake where
  port    : Nat
  kind1   : Bool
  conceal : Bool
  part    : Nat
  engine  : Nat
  knot    : Nat
  staleNs : Nat
  lmBase  : Nat
  lmSize  : Nat
  bufBase : Nat
  bufSize : Nat
  deriving DecidableEq, Repr

/-- A weave: its records by type in offset order, and the ramps in units of 0.25 W/us (R53; 24 by default). -/
structure Weave where
  parts    : List WvPart := []
  seats    : List WvSeat := []
  qmaps    : List WvQmap := []
  clusters : List WvCluster := []
  regions  : List WvRegion := []
  twins    : List WvTwin := []
  intakes  : List WvIntake := []
  rampUp   : Nat := 24
  rampDown : Nat := 24
  deriving DecidableEq, Repr

/-- WV_STATUS.STATE (R56). -/
inductive WvState where
  | empty | fetching | loaded | checking | checked | waiting | pouring | done | failed | abandoned
  deriving DecidableEq, Repr

/-- What CHECK_COMPLETE is to do when every check passes (R58). -/
inductive WvAction where
  | check | pour (quiet : Bool)
  deriving DecidableEq, Repr

/-- A FETCH under way (R55): source and length as they stood at it, lines read so far, responses still to come, an error
among them. -/
structure Fetch where
  src  : Nat
  len  : Nat
  got  : List (LineNo × BitVec 512) := []
  want : Nat
  bad  : Bool := false
  deriving DecidableEq, Repr

/-- The weave unit. -/
structure WeaveUnit where
  quiet     : Bool := false
  st        : WvState := .empty
  wrIgnored : Bool := false
  epoch     : W32 := 0
  errCode   : W8 := 0
  errOff    : BitVec 18 := 0
  src       : W64 := 0
  srcLen    : BitVec 19 := 0
  staleCnt  : W32 := 0
  pourTime  : W64 := 0
  fetch     : Option Fetch := none
  /-- loaded extent (R59) and whether bytes were written since the cold start (R456) -/
  extent    : Nat := 0
  wrote     : Bool := false
  /-- the action a check under way is for (R58) -/
  action    : Option WvAction := none
  cur       : Weave := {}
  /-- the checked weave on its way to P, and the engines whose role changes (R62) -/
  next      : Option Weave := none
  changing  : List Nat := []
  /-- role epochs (R66); a knot's is in its entry -/
  roleQ     : SMap W32 := []
  roleE     : SMap W32 := []
  roleI     : SMap W32 := []
  roleS     : SMap W32 := []
  /-- after P: launches still to retire, in entry order, and engines still to clear (R62) -/
  retire    : List Job := []
  /-- launches and runs whose retirement has begun and that have not completed -/
  retiring  : List Job := []
  clearing  : List Nat := []
  /-- CONFIG_CRC of the keep domain (R458) -/
  configCrc : W32 := 0
  deriving DecidableEq, Repr

end Sys2Proof.Machine
end

