-- ==== Sys2Proof/Machine/WorkTypes.lean ====
section
/-! DEFINITION. Queues, commands in the scoreboard, standing launches, knots, sequencers, dispatcher
(06_queues, 07_commands, 08_knots, 09_scheduling, 14_sequencers). -/

namespace Sys2Proof.Machine

/-- QUE_STATE.STATE (R160). -/
inductive QState where
  | free | opened | draining | closing
  deriving DecidableEq, Repr

/-- A fence in force (R215): the releasing flags and DETAIL of the releasing HITCH. -/
structure Fence where
  /-- index of the releasing HITCH -/
  hitch  : Nat
  flags  : BitVec 4
  detail : W64
  deriving DecidableEq, Repr

/-- Queue q (R156, R160). HEAD, TAIL and COMP are counts of commands; the registers hold their low bits. -/
structure Que where
  tail       : Nat := 0
  head       : Nat := 0
  comp       : Nat := 0
  /-- slots read ahead of HEAD whose read ended in an error response (R171) -/
  lost       : List Nat := []
  /-- the launch descriptor of each command of a slack queue that COMP has not passed, by its line (R361) -/
  descAt     : PMap Nat := []
  wake       : Bool := false
  idle       : Bool := false
  st         : QState := .free
  staleClose : Bool := false
  /-- the closing began in a belay: its steps wait for the release (R174, 17 R428) -/
  closeDue   : Bool := false
  lastRec    : BitVec 128 := 0
  statusAcc  : BitVec 7 := 0
  srEn       : Bool := false
  srOn       : Bool := false
  err        : ErrReg := {}
  ringBase   : W64 := 0
  ringSlots  : BitVec 17 := 0
  srBase     : W64 := 0
  srSlots    : BitVec 17 := 0
  /-- statuses of completed commands that COMP has not passed (done[n] of R166) -/
  done       : PMap (BitVec 128) := []
  /-- the record of command COMP has been written and waits for its acknowledgement; then it has come (R166) -/
  srWait     : Bool := false
  srAcked    : Bool := false
  fence      : Option Fence := none
  /-- engines that hold the queue's work and have not acknowledged its destruction (R174) -/
  owed       : List Nat := []
  /-- break units holding the queue (R434): steward units 0 to 7, seat s units 8 + 2s, 9 + 2s -/
  held       : List Nat := []
  /-- figures of R244, R245 -/
  ratio      : W16 := 0
  worst      : W16 := 0
  worstEng   : BitVec 12 := 0
  slowSeq    : W32 := 0
  stallSum   : W64 := 0
  busySum    : W64 := 0
  /-- commands below this index saw an edge of a stretch after their doorbell (R400) -/
  stretchTo  : Nat := 0
  deriving DecidableEq, Repr

/-- One twin engine's end of a launch or run (R414): its pair, or how it failed. -/
inductive TwinEnd where
  | pair (digest numeric : W64)
  | fault (code : W8) (bundle : Nat) (bank : Bool) (tile : Nat)
  | hang (bundle : Nat) (bank : Bool) (tile : Nat)
  deriving DecidableEq, Repr

/-- One engine's part in a twin-issue: what its tiles have summed to, tiles completed, tiles taken off it by a yield, and
its end. -/
structure TwinSide where
  digest  : W64 := 0
  numeric : W64 := 0
  posTile : Option Nat := none
  done    : Nat := 0
  rest    : List Range := []
  fin     : Option TwinEnd := none
  deriving DecidableEq, Repr

/-- The twin-issue of one launch or run: TWIN record index; ENGINE_A, ENGINE_B and the arbiter's third issue, with CAUSE
of R414 and whether the third issue is called for, and running (R413 to R415). -/
structure Twin where
  pairIx  : Nat
  a       : TwinSide := {}
  b       : TwinSide := {}
  c       : TwinSide := {}
  cause   : BitVec 2 := 0
  wants3  : Bool := false
  run3    : Bool := false
  deriving DecidableEq, Repr

/-- A launch, from its descriptor (R185), and how far it has come. -/
structure Launch where
  prog     : W16 := 0
  ndesc    : Nat := 0
  m        : Nat := 0
  n        : Nat := 0
  b        : Nat := 0
  rows     : Nat := 0
  cols     : Nat := 0
  seed     : W64 := 0
  winBase  : Nat := 0
  winSize  : Nat := 0
  descLm   : Nat := 0
  params   : BitVec 512 := 0
  addr     : W64 := 0
  unplaced : List Range := []
  /-- saved tiles: engine, tile (R236) -/
  saved    : List (Nat × Nat) := []
  /-- tiles completed, numeric report (R129), digest (R148), BUSY and STALL per engine (R244) -/
  doneTiles : Nat := 0
  numeric  : W64 := 0
  posTile  : Option Nat := none
  digest   : W64 := 0
  busy     : SMap Nat := []
  stall    : SMap Nat := []
  concealed : Bool := false
  /-- fabric times: eligible or last lost engines, first placed (R235) -/
  waitFrom : Option W64 := none
  startAt  : W64 := 0
  twin     : Option Twin := none
  deriving DecidableEq, Repr

/-- WATCH in progress (R150 to R153): the next element, the figures so far (the sum exact, in units of 2^-149), whether
its record has been sent. -/
structure WatchSt where
  next    : Nat := 0
  nan     : Nat := 0
  inf     : Nat := 0
  sum     : Int := 0
  least   : Option W32 := none
  most    : Option W32 := none
  digest  : W64 := 0
  written : Bool := false
  deriving DecidableEq, Repr

/-- IMEM_LOAD or WEIGHT_STREAM in progress: bytes delivered per target, requests outstanding per target, first
error offset. -/
structure LoadSt where
  targets : List Nat := []
  banks   : SMap Nat := []
  got     : SMap Nat := []
  outst   : SMap Nat := []
  data    : List (Nat × BitVec 512) := []
  deriving DecidableEq, Repr

/-- What a started or waiting command has beyond its slot. -/
inductive Prog where
  | none
  /-- a HITCH's deciding evaluation (R211): released flags (0: value test) with DETAIL -/
  | hitch (out : Option (BitVec 4 × W64))
  /-- COPY, FILL: bytes asked for, bytes acknowledged, requests outstanding, offset of the first error -/
  | xfer (asked done outst : Nat) (err : Option Nat)
  | watch (w : WatchSt) (outst : Nat) (err : Option Nat)
  | membar (scanned : Bool) (wbs : Nat)
  | launch (l : Launch)
  | load (l : LoadSt)
  | unstand (waiting : Bool)
  deriving DecidableEq, Repr

/-- A scoreboard entry (R158, R213); the list of entries is in entry order. -/
structure SbEntry where
  ord       : Nat
  q         : Nat
  n         : Nat
  slot      : Line
  desc      : BitVec 1024
  opcode    : W8
  code      : W8
  detail    : W64
  epoch     : W32
  /-- the seat whose JOBS_LAUNCHED counts the launch (R177) -/
  seat      : Nat := 0
  started   : Bool := false
  /-- TIE_A, TIE_B pass steps 3 and 4 of R181 (R182) -/
  okA       : Bool := false
  okB       : Bool := false
  /-- decided status, waiting for engines or requests to fall idle (R174, R412) -/
  ending    : Option Stat := none
  /-- engines that hold the aborted command and have not acknowledged (R174) -/
  owes      : List Nat := []
  prog      : Prog := .none
  deriving DecidableEq, Repr

/-- A standing launch (R188 to R191). -/
structure Standing where
  ord      : Nat
  q        : Nat
  n        : Nat
  eng      : Nat
  twinRec  : Option Nat
  l        : Launch
  epoch    : W32
  trigger  : Nat
  step     : W64
  thr      : W64
  never    : Bool := false
  seqn     : Nat := 0
  catchup  : Bool
  rrSlots  : Nat
  rrBase   : W64
  tieB     : W64
  tieA     : W64
  /-- bound: program pinned, descriptors copied, TIE_A applied (R188) -/
  bound    : Bool := false
  copied   : List Nat := []
  /-- sequence triggered and not yet sent; sequence running (R189, R240) -/
  waiting  : Option Nat := none
  running  : Option Nat := none
  /-- values a concealed item's tie has given the trigger knot, not yet passed by a threshold (R298) -/
  conceal  : List Nat := []
  /-- the seat whose JOBS_LAUNCHED counts the run (R177) -/
  seat     : Nat := 0
  /-- run index of R143 -/
  index    : Nat := 0
  stretched : Bool := false
  /-- a run that has ended, its status and sequence, while its record is written (R190): the write has gone out (17 R435), its
  acknowledgement has come (17 R428) -/
  recWait  : Option Stat := none
  recSeq   : Nat := 0
  recSent  : Bool := false
  recAcked : Bool := false
  /-- the next run tie carries FLAGS FAULT in place of its value (16 R408, R419) -/
  failTie  : Bool := false
  /-- unbind when the run ends (R173, R174, R191) -/
  unbind   : Bool := false
  /-- the run is being stopped with this status (R67, R412) -/
  ending   : Option Stat := none
  deriving DecidableEq, Repr

/-- Knot entry (R204); WAITERS is counted from the waiter list. -/
structure Knot where
  val   : W64 := 0
  flags : BitVec 4 := 0
  role  : W32 := 0
  deriving DecidableEq, Repr

/-- A parked waiter (R209): the HITCH, or the standing launch, of command n of queue q. -/
structure Waiter where
  knot  : Nat
  stand : Bool
  q     : Nat
  n     : Nat
  deriving DecidableEq, Repr

structure KnotTable where
  tab     : SMap Knot := []
  waiters : List Waiter := []
  /-- released HITCHes and triggered standing launches on their way to the dispatcher, in order (R212) -/
  wakes   : List Waiter := []
  peak    : Nat := 0
  pauses  : W32 := 0
  /-- ties that have reached the table and wait their turn (R206) -/
  tieQ    : List Tie := []
  deriving DecidableEq, Repr

/-- SEQ_STATUS.STATE (R384). -/
inductive SeqState where
  | idle | running | trapped | broke | halted | loading
  deriving DecidableEq, Repr

/-- What a sequencer's outstanding request is for (R368). A descriptor line goes to the buffer of the microcode, or of
the command at HEAD. -/
inductive SeqReq where
  | slot (n : Nat)
  | desc (line : LineNo) (half : Bool)
  | head (n : Nat) (line : LineNo) (half : Bool)
  | line (half : Bool)
  | wrLine
  | wrRec
  /-- the next chunk of COPY, FILL or WATCH: command, byte offset, bytes, write? -/
  | chunk (n off len : Nat) (write : Bool)
  deriving DecidableEq, Repr

/-- An outstanding request with the queue whose command causes it (R274, R382). -/
structure SeqOut where
  q    : Nat
  what : SeqReq
  deriving DecidableEq, Repr

/-- The launch descriptor of the slot at HEAD as it is read (R185, R361): the command, its two lines, which have come, an
error among them. -/
structure HeadDesc where
  q    : Nat
  n    : Nat
  data : BitVec 1024 := 0
  have0 : Bool := false
  have1 : Bool := false
  bad  : Bool := false
  deriving DecidableEq, Repr

structure Shadow where
  sptr  : BitVec 12
  lc    : W16
  stack : List (BitVec 12)
  w     : SMap W64
  z     : Bool
  c     : Bool
  deriving DecidableEq, Repr

/-- Sequencer s (R359 to R373, R384). -/
structure Seq where
  st       : SeqState := .loading
  queue    : Nat := 0
  serving  : Bool := false
  sptr     : BitVec 12 := 0
  trapCause : BitVec 3 := 0
  trapCount : W16 := 0
  haltCode : W8 := 0
  haltSptr : BitVec 12 := 0
  guard    : W32 := 0
  ecc      : W32 := 0
  slots    : W32 := 0
  w        : SMap W64 := []
  lc       : W16 := 0
  stack    : List (BitVec 12) := []
  z        : Bool := false
  c        : Bool := false
  shadow   : Option Shadow := none
  /-- slot lines held: queue, index, line -/
  lines    : List (Nat × Nat × Line) := []
  descBuf  : BitVec 1024 := 0
  recBuf   : BitVec 128 := 0
  recBusy  : Bool := false
  copyBuf  : BitVec 1024 := 0
  /-- outstanding requests by their place, 0 to 31 (R366) -/
  outs     : PMap SeqOut := []
  headDesc : Option HeadDesc := none
  errRec   : Bool := false
  pend     : List Nat := []
  ptrs     : SMap Nat := []
  burst    : Nat := 0
  stepping : Bool := false
  /-- count breaks that have fired for a slot HEAD has not passed: queue, index, unit (R433) -/
  fired    : List (Nat × Nat × Nat) := []
  /-- the strand at SPTR has run and repeats the test of its WAIT (R364) -/
  inWait   : Bool := false
  deriving DecidableEq, Repr

/-- A steal on its way (R232): thief, victim, tiles by job. -/
structure Steal where
  thief  : Nat
  victim : Nat
  tiles  : List (Job × Range)
  epoch  : W32
  deriving DecidableEq, Repr

/-- DSP_PART_CTRL (R246). -/
structure PartCtl where
  quantum : W16 := 0x03E8
  noSteal : Bool := false
  deriving DecidableEq, Repr

/-- Counts of one 100-us window (R247): tile cycles of slack engines, slots 0 to 55 used by cluster traffic, and passed. -/
structure LoadCount where
  cycles : Nat := 0
  used   : Nat := 0
  passed : Nat := 0
  deriving DecidableEq, Repr

structure Dispatch where
  /-- round-robin pointers, key 8 * partition + priority (R230) -/
  rr      : SMap Nat := []
  ctl     : SMap PartCtl := []
  engLoad : BitVec 10 := 0
  portLoad : BitVec 10 := 0
  /-- the window under way, and those before it of the last 1,000 us, newest first (R247) -/
  loadNow  : LoadCount := {}
  loadPast : List LoadCount := []
  steals  : List Steal := []
  /-- preemption requests on their way to engines (R236), and saves by reason -/
  preempts : List Nat := []
  nextOrd : Nat := 0
  deriving DecidableEq, Repr

end Sys2Proof.Machine
end

