-- ==== Sys2Proof/Machine/EngineTypes.lean ====
section
/-! DEFINITION. An engine (03_engines), its caddy and counters (17). -/

namespace Sys2Proof.Machine

structure AccTag where
  row  : W16 := 0
  col0 : W16 := 0
  step : W16 := 0
  deriving DecidableEq, Repr

structure LoopFrame where
  start     : Nat
  endA      : Nat
  remaining : Nat
  deriving DecidableEq, Repr

/-- An address generator (R88, R89): unloaded, or its descriptor, effective base and indices. -/
structure AddrGen where
  loaded : Bool := false
  desc   : Line := 0
  base   : Int := 0
  i0     : Nat := 0
  i1     : Nat := 0
  i2     : Nat := 0
  i3     : Nat := 0
  i4     : Nat := 0
  deriving DecidableEq, Repr

/-- A draw channel (R95, R96): rows are numbered in issue order. -/
structure DrawChan where
  busy    : Bool := false
  desc    : Line := 0
  /-- bundle address of the DRAW that started it -/
  bundle  : Nat := 0
  issued  : Nat := 0
  done    : Nat := 0
  rows    : Nat := 0
  /-- the row outstanding: its addresses, lines read so far, responses still to come, an error among them -/
  soc     : Nat := 0
  lm      : Nat := 0
  got     : List (LineNo × Line) := []
  want    : Nat := 0
  bad     : Bool := false
  deriving DecidableEq, Repr

/-- Destination of a pending write (R85, R103): kind and index. -/
inductive Dest where
  | v (r : Nat) | wb (r : Nat) | acc (r : Nat) | lm (line : Nat) | ag (g : Nat) | agIdx (g : Nat) | tag (r : Nat)
  | loops
  deriving DecidableEq, Repr

/-- A write that has issued and not landed (R85): land step, issue step, slot (0 L0 to 5 A), destination, data. For
local memory, `mask` names the bytes written. -/
structure PendW where
  land  : Nat
  issue : Nat
  slot  : Nat
  dest  : Dest
  data  : BitVec 1024
  mask  : W64
  deriving DecidableEq, Repr

/-- The state of R71 that a save area holds ("Yes" rows). -/
structure EngArch where
  v     : SMap Line := []
  wb    : SMap Line := []
  acc   : SMap (BitVec 1024) := []
  tag   : SMap AccTag := []
  loops : List LoopFrame := []
  ag    : SMap AddrGen := []
  chan  : SMap DrawChan := []
  param : BitVec 512 := 0
  tileM : W16 := 0
  tileN : W16 := 0
  tileB : W16 := 0
  pend  : List PendW := []
  deriving DecidableEq, Repr

/-- A copy of tensor descriptors under way (R186, R188): its job, the first line read, lines read so far, responses still
to come, an error among them. -/
structure DescCopy where
  job   : Job
  first : Nat
  count : Nat
  got   : List (LineNo × Line) := []
  want  : Nat
  bad   : Bool := false
  deriving DecidableEq, Repr

/-- A save area (R102, R103): the saved state, the job and tile, where issue continues, the running figures. -/
structure SaveArea where
  arch    : EngArch
  epoch   : W32
  sbIndex : Nat
  job     : Job
  prog    : W16
  ptr     : Nat
  tile    : Nat
  step    : Nat
  numeric : W64
  digest  : W64
  apos    : Bool
  /-- step at which the matrix unit is free again (R78), so that a continued tile drops the same MMs (R122) -/
  mmFree  : Nat
  deriving DecidableEq, Repr

/-- ENG_STATUS.STATE (R107). -/
inductive EngState where
  | idle | running | frozen | saving | restoring | standing | resetting | clearing
  deriving DecidableEq, Repr

/-- Bank state (R97). -/
inductive BankSt where
  | empty | ready | waiting | loading
  deriving DecidableEq, Repr

structure Bank where
  st     : BankSt := .empty
  prog   : W16 := 0
  data   : Mem := []
  /-- when it was last active, and when its load completed, as counts of such events; 0 never (R98) -/
  lastActive : Nat := 0
  loadedAt   : Nat := 0
  /-- identifier the load under way gives it (R197) -/
  newProg : W16 := 0
  deriving DecidableEq, Repr

/-- Why an engine stops its tile: the queue's ABORT (R174); its launch ended elsewhere (R412, R67); the tile's own fault or
hang, with the context step (R412). -/
inductive StopKind where
  | abort | retire | ended
  deriving DecidableEq, Repr

/-- One trace record (R445): KIND, SEQ, TIME, body words. -/
structure TraceRec where
  kind : W8
  seq  : W32
  time : W64
  body : List W32
  deriving DecidableEq, Repr

/-- A caddy (R445, R446): records held, oldest first; SEQ of the next offered; LOST; dropped since the last LOST
record. -/
structure Caddy where
  recs    : List TraceRec := []
  seq     : W32 := 0
  lost    : W32 := 0
  dropped : W32 := 0
  deriving DecidableEq, Repr

/-- Engine trace registers (R448). -/
structure EngTrace where
  ctl   : BitVec 3 := 0
  owner : BitVec 5 := 0x1F
  /-- a claim that starts once the caddy has drained -/
  claim : Option Nat := none
  caddy : Caddy := {}
  sel   : SMap W8 := []
  base  : SMap Nat := []
  deriving DecidableEq, Repr

structure Eng where
  arch     : EngArch := {}
  lm       : Mem := []
  /-- lines marked bad until a full-line write (R408 code 0), and the save area's own mark (code 6) -/
  badLm    : List Nat := []
  save     : Option SaveArea := none
  bank0    : Bank := {}
  bank1    : Bank := {}
  bankClk  : Nat := 0
  active   : Bool := false
  progress : W64 := 0
  st       : EngState := .idle
  sentinel : Bool := false
  hazAct   : Bool := false
  hazAddr  : W32 := 0
  hazCount : W32 := 0
  mmDrop   : W32 := 0
  idxClip  : W32 := 0
  faultReg : BitVec 19 := 0
  -- tile in progress
  job      : Option Job := none
  tile     : Nat := 0
  started  : Bool := false
  ptr      : Nat := 0
  step     : Nat := 0
  ended    : Bool := false
  mmFree   : Nat := 0
  bubble   : Bool := false
  numeric  : W64 := 0
  digest   : W64 := 0
  apos     : Bool := false
  busy     : Nat := 0
  stall    : Nat := 0
  /-- the fault waiting for TILE_FAULT: code, bundle (R106) -/
  pendFault : Option (W8 × Nat) := none
  stop     : Option StopKind := none
  /-- lines the frozen gather still needs (R94); freeze cycles counted for the bundle -/
  needs    : List LineNo := []
  /-- lines of the frozen gather that came and that no invalidation took since -/
  got      : List (LineNo × Line) := []
  idxBuf   : SMap (List (Nat × W32)) := []
  /-- local-memory lines that index fetches read since the last bundle (R92) -/
  idxLm    : List Nat := []
  -- work
  deque    : List (Job × Range) := []
  lastJob  : Option Job := none
  /-- fabric time at which the engine took up `lastJob` (R235) -/
  runFrom  : W64 := 0
  descFor  : Option Job := none
  descWait : Bool := false
  /-- the launch or run the engine is marked to yield to; kept at the boundary until that takes it (R239) -/
  yieldTo  : Option Job := none
  preempt  : Bool := false
  restore  : Bool := false
  /-- it has completed a tile since it last began work or fell idle, and may ask for more (R232) -/
  ran      : Bool := false
  copies   : List DescCopy := []
  /-- rows of draws whose responses an engine reset discards: channel and line (R418) -/
  orphans  : List (Nat × LineNo) := []
  /-- the latest intake item delivered here was CONCEALED (R298) -/
  concealed : Bool := false
  last     : W64 := 0
  hungOnce : Option W64 := none
  level    : Nat := 0
  target   : Nat := 0
  /-- place of the next arithmetic edge among the 16 of its pattern (R387) -/
  phase    : Nat := 0
  trace    : EngTrace := {}
  deriving DecidableEq, Repr

end Sys2Proof.Machine
end

