-- ==== Sys2Proof/Machine/MemTypes.lean ====
section
/-! DEFINITION. Region caches, directories, agents, ring, memory ports (10_memory), link layers (13 R332 to R335). -/

namespace Sys2Proof.Machine

/-- A region-cache line (R251, R255): its way, data, dirty and poison marks, and when it was last used. -/
structure RcLine where
  way    : Nat
  data   : Line
  dirty  : Bool
  poison : Bool := false
  used   : Nat
  deriving DecidableEq, Repr

/-- A directory entry (R260): state X or SH, presence bits, when last used. -/
structure DirEnt where
  isX  : Bool
  pres : BitVec 69
  used : Nat
  deriving DecidableEq, Repr

/-- A coherent agent's copy (R259): state, data, hold of R266 with the invalidation it defers (none: Inv); for a
descriptor cache its way (R361); for the window, the last seat. -/
inductive CopySt where
  | s | e | o | m
  deriving DecidableEq, Repr

structure Copy where
  st    : CopySt
  data  : Line
  hold  : Bool
  defer : Option (Option Rq) := none
  used  : Nat
  who   : Nat := 0
  way   : Nat := 0
  deriving DecidableEq, Repr

/-- A request as its home queues it (R264). -/
inductive HomeReq where
  | rds (a : AgentId)
  | rdonce (rq : Rq)
  | rdm
  | wr (rq : Rq) (data : Line) (mask : W64)
  | atom (at' : AtomReq)
  deriving DecidableEq, Repr

/-- What the home waits for on a BUSY line beside messages (R264, R268, R255, R261). -/
inductive BusyWait where
  | none
  /-- Data that the home sends once every InvAck has come: the window, in O, becomes M -/
  | grant
  /-- a line read from SoC memory -/
  | fill
  /-- a line written to SoC memory without allocation; the old word of an atomic -/
  | drain (old : W64)
  /-- recall of another line's entry: its InvAcks still to come (R261) -/
  | recall (line : Nat) (n : Nat)
  /-- every entry of the directory set is of a BUSY line -/
  | room
  /-- the answer of the agent that is to supply a reader that keeps no copy (R270; log 145) -/
  | forward
  deriving DecidableEq, Repr

/-- A BUSY line: its request; InvAck and FwdMiss messages still to come, and whether the requester's Ack is; what else it
waits for; the window's data that came with an InvAck; whether an agent other than the window was sent Inv or FwdInv
(R272). -/
structure Busy where
  req    : HomeReq
  invs   : Nat := 0
  ack    : Bool := false
  wait   : BusyWait := .none
  wdata  : Option Line := none
  agents : Bool := false
  deriving DecidableEq, Repr

/-- Why a port request was made: a home's read or write, or the write-back of a dirty line, which the MEMBARs named wait
for (R219, R253, R274). -/
inductive PortUse where
  | home (line : Nat)
  | writeback (fors : List (Nat × Nat))
  deriving DecidableEq, Repr

/-- A request on a memory port (R273, R274). `holder`: cluster c, or 16 + rank for the block agents, and `unit` the
requester within the rank (R253). -/
structure PortReq where
  write  : Bool
  line   : LineNo
  data   : Line := 0
  mask   : W64 := 0
  seat   : BitVec 4
  src    : BitVec 3
  taut   : Bool
  holder : Nat
  unit   : Nat := 0
  use    : PortUse
  deriving DecidableEq, Repr

/-- MEM_PORT_STATUS.LINK (R282). -/
inductive LinkSt where
  | down | training | up
  deriving DecidableEq, Repr

/-- One direction pair of a link (R279, R334, R409): next number to send and to expect, oldest not acknowledged, flits
kept for replay (number, flit), consecutive replays. -/
structure Link where
  txSeq   : W8 := 0
  rxSeq   : W8 := 0
  acked   : W8 := 0
  store   : List (W8 × BitVec 736) := []
  replays : Nat := 0
  nakDue  : Bool := false
  discard : Bool := false
  /-- flits discarded since the NAK, which will come again; consecutive NAKs of the same flit -/
  redo    : Nat := 0
  rxBad   : Nat := 0
  deriving DecidableEq, Repr

structure MPort where
  link     : LinkSt := .down
  reqCred  : W8 := 0
  wdCred   : W8 := 0
  reqGrant : W8 := 0
  wdGrant  : W8 := 0
  errResp  : BitVec 2 := 0
  errSrc   : BitVec 3 := 0
  errSeat  : BitVec 4 := 0
  errLink  : Bool := false
  errIrqEn : Bool := false
  errCount : BitVec 15 := 0
  errValid : Bool := false
  errAddr  : W64 := 0
  crcErr   : W32 := 0
  replay   : W32 := 0
  peak     : Nat := 0
  tags     : PMap PortReq := []
  /-- tags of transactions issued before a reset, whose responses are discarded (R343), with their lines (R277) -/
  stale    : PMap LineNo := []
  queue    : List PortReq := []
  /-- WDATA beats waiting for a credit: tag, data, mask (R274) -/
  wdQueue  : List (Nat × Line × W64) := []
  slot     : Nat := 0
  slots    : SMap Nat := []
  /-- round-robin pointers: of the engines of cluster c (09 R243), of rank holder - 16 of the block agents (R253) -/
  rr       : SMap Nat := []
  lnk      : Link := {}
  /-- the flits that have left on MPn_TX in the last control cycle that sent any, in order: a replay's one after the other
  (R328, R332, R334) -/
  tx       : List (BitVec 736) := []
  /-- consecutive good training flits received; data flits with SEQ 0 sent and received (R335) -/
  training : Nat := 0
  sent0    : Bool := false
  got0     : Bool := false
  deriving DecidableEq, Repr

/-- A line an agent has asked for and not received: the queue whose command caused the request, and the seat (R274). -/
structure Miss where
  agent : Nat
  line  : Nat
  queue : Option Nat
  seat  : Nat
  /-- a MEMBAR has scanned the line since: the copy that comes is not kept (R219) -/
  void  : Bool := false
  deriving DecidableEq, Repr

structure MemState where
  rc     : PMap RcLine := []
  /-- poisoned lines that no way holds (16 R408 code 5) -/
  bad    : List Nat := []
  dir    : PMap DirEnt := []
  busy   : PMap Busy := []
  /-- requests waiting at their homes, in acceptance order: line, request (R264) -/
  waitQ  : List (Nat × HomeReq) := []
  /-- copies of agent a: key (line number) in `agents a` -/
  agents : SMap (PMap Copy) := []
  misses : List Miss := []
  pred   : SMap (BitVec 2) := []
  ring   : List Instr := []
  ports  : SMap MPort := []
  atomMode : BitVec 2 := 0
  cohFwd   : W32 := 0
  cohHold  : W32 := 0
  cohRecall : W32 := 0
  cohNear  : W32 := 0
  cohFar   : W32 := 0
  /-- use stamps (least recently used) -/
  clock  : Nat := 0
  /-- bytes of the save areas (R103), by 32 KiB: (region, way, place) -/
  saves  : Mem := []
  /-- far atomics waiting for their RdM: seat, request -/
  far    : List AtomReq := []
  deriving DecidableEq, Repr

end Sys2Proof.Machine
end

