-- ==== Sys2Proof/Machine/UnitTypes.lean ====
section
/-! DEFINITION. The remaining units: seats and the host register port (12, 13), intake ports (11), power (15), starts and
patch unit (18, 14), faults and recovery (16), debug and trace (17). -/

namespace Sys2Proof.Machine

/-! ### Host register port -/

/-- An access as the block holds it behind a seat's unfinished one (R305, R318): a write's data, or a read. -/
structure HostOp where
  acc   : Acc
  addr  : BitVec 22
  wdata : Option W32
  deriving DecidableEq, Repr

/-- What a seat's unfinished access is (R305). -/
inductive Unfinished where
  | emulated (op : HostOp)
  | aperRead (off : BitVec 13)
  | aperWrite (off : BitVec 13)
  | atomic (at' : AtomReq) (addr : W64)
  /-- a knot-window read behind the seat's own tie (R225) -/
  | knotRead (op : HostOp)
  /-- an aperture access or atomic taken during a belay (R428) -/
  | belayed (op : HostOp)
  deriving DecidableEq, Repr

/-- A response on the host register port (R329). -/
structure HrpResp where
  seat  : BitVec 4
  write : Bool
  rdata : W32
  deriving DecidableEq, Repr

/-- KNT_TIE_VAL and KNT_TIE_ERR (R224). -/
structure TieRegs where
  val : W64 := 0
  err : ErrReg := {}
  deriving DecidableEq, Repr

/-- Registers of one seat (R256, R311, R315, R177, R245). -/
structure SeatRegs where
  expert   : W32 := 0
  winBase  : W64 := 0
  winCode  : W8 := 0
  winResp  : BitVec 2 := 0
  winIrqEn : Bool := false
  winValid : Bool := false
  atomAddr : W64 := 0
  atomOpnd : W64 := 0
  atomCmp  : W64 := 0
  atomRes  : W64 := 0
  launched : W64 := 0
  done     : W64 := 0
  /-- captures of R161: register address, value -/
  snaps    : PMap (BitVec 128) := []
  /-- capture of R223: knot, entry, waiters -/
  knotCap  : Option (Nat × Knot × Nat) := none
  unfin    : Option Unfinished := none
  held     : List HostOp := []
  trcEng   : W32 := 0
  snapSel  : Nat := 0
  deriving DecidableEq, Repr

/-- BLK_ACCESS_ERR and BLK_ACCESS_ADDR (R312). -/
structure AccessErr where
  seat  : BitVec 4 := 0
  priv  : Bool := false
  write : Bool := false
  kind  : BitVec 2 := 0
  count : W16 := 0
  irqEn : Bool := false
  valid : Bool := false
  addr  : BitVec 22 := 0
  deriving DecidableEq, Repr

structure HostPort where
  seats   : SMap SeatRegs := []
  /-- tie registers and slowdown selector: seat s, or 16 for the steward window -/
  ties    : SMap TieRegs := []
  slowSel : SMap Nat := []
  acc     : AccessErr := {}
  /-- responses presented by the last command that can present any -/
  resp    : List HrpResp := []
  /-- warden-emulated accesses in the order of R318 -/
  warden  : List HostOp := []
  deriving DecidableEq, Repr

/-- Feature negotiation (R320 to R323). -/
structure Features where
  accept    : BitVec 256 := 1
  committed : Bool := false
  retained  : Bool := false
  confirmed : BitVec 256 := 1
  /-- the set retained in the keep domain -/
  keep      : BitVec 256 := 0
  deriving DecidableEq, Repr

/-! ### Intake ports -/

/-- Where an item stands (R288). -/
inductive ItemPhase where
  | header | bitmap
  /-- checks passed, destination busy -/
  | waiting
  | body
  /-- the rest of the item is accepted and discarded -/
  | discard
  deriving DecidableEq, Repr

/-- An item of a port: the one being handled, or one whose beats wait in the staging buffer behind it. -/
structure Item where
  phase     : ItemPhase := .header
  capture   : W64
  /-- IK_SEQ at its arrival, and IK_CFG as it then stood -/
  seq       : W32
  dmgMax    : Nat
  slotsLog2 : Nat
  /-- bytes received, header included -/
  got       : Nat := 0
  /-- header, and for packed items the bitmap -/
  staged    : List W8 := []
  /-- bytes received and not yet taken -/
  buffered  : List W8 := []
  /-- bytes of the extent written -/
  written   : Nat := 0
  /-- the end marker has come -/
  last      : Bool := false
  /-- damage entries kept, and how many came -/
  dmg       : List W32 := []
  dmgCount  : Nat := 0
  overclaim : Bool := false
  /-- its destination turned busy while it was being written (R293, R296) -/
  held      : Bool := false
  /-- fabric time of its last data write that landed -/
  wrote     : Option W64 := none
  /-- its number, fixed when its destination is written -/
  num       : W32 := 0
  /-- KIND 1: lines written and not acknowledged; an error response came -/
  sent      : List LineNo := []
  err       : Bool := false
  deriving DecidableEq, Repr

/-- An item that has not landed whole: a delivered one still to tie its knot (R298), or what is on its way of one that was
dropped. -/
structure Landing where
  /-- it ties nothing -/
  dropped   : Bool := false
  capture   : W64
  /-- IK_SEQ at its arrival -/
  seq       : W32
  knot      : Nat
  concealed : Bool
  /-- KIND 1: lines written and not acknowledged; the first data line; when the last data write landed; the record still to be
  written, with its address; an error came -/
  outst     : List LineNo
  first     : Nat := 0
  wrote     : Option W64 := none
  record    : Option (Nat × Line)
  err       : Bool := false
  engines   : List Nat
  deriving DecidableEq, Repr

structure Intake where
  slotsLog2 : BitVec 4 := 0
  dmgMax    : BitVec 11 := 0
  seq       : W32 := 0
  dropStale : W32 := 0
  dropUnb   : W32 := 0
  reject    : W32 := 0
  conceal   : W32 := 0
  discPour  : W32 := 0
  errCode   : W8 := 0
  errOff    : W16 := 0
  errCount  : BitVec 6 := 0
  errIrqEn  : Bool := false
  errValid  : Bool := false
  errSeq    : W32 := 0
  lastAge   : W32 := 0
  /-- oldest first; only the last may still be receiving beats -/
  items     : List Item := []
  landing   : List Landing := []
  /-- stopped between K + 1 and P because its binding changes (R62) -/
  stopped   : Bool := false
  deriving DecidableEq, Repr

/-! ### Power -/

/-- PWR_STATUS.CLOCK (R402). -/
inductive ClockSt where
  | full | stretch | rampBack
  deriving DecidableEq, Repr

structure Power where
  sleepDelay : BitVec 10 := 0x064
  clock      : ClockSt := .full
  under      : Bool := false
  budget     : Nat := 40
  evDroop    : Bool := false
  evUnder    : Bool := false
  droopCount : W32 := 0
  droopTime  : W64 := 0
  droopNs    : W32 := 0
  sleepCount : W32 := 0
  wakeNs     : W32 := 0
  paced      : W32 := 0
  engSel     : BitVec 12 := 0
  actEst     : BitVec 10 := 0
  /-- control cycles of this keep cycle and the sum of their estimates, in 1/64 mW (R389); a slack engine at work was below level 16 in
  one of them (R402); the conditions of SLEEP failed in one (R395) -/
  estCnt     : Nat := 0
  estSum     : Nat := 0
  pacedIn    : Bool := false
  busyIn     : Bool := false
  /-- keep cycles since the last window boundary (R391) -/
  window     : Nat := 0
  /-- last sample and adopted budget of R348 -/
  sample     : Nat := 40
  adopted    : Nat := 40
  up         : Nat := 0
  down       : Nat := 0
  divider    : Nat := 32
  ariReq     : Bool := false
  ctlReq     : Bool := false
  ariAck     : Bool := false
  ctlAck     : Bool := false
  asleep     : Bool := false
  wakeFrom   : Option W64 := none
  /-- DROOP_WARN as last seen (R401) -/
  droopPin   : Bool := false
  /-- keep cycles for which the conditions of R395 have held -/
  idleKeep   : Nat := 0
  deriving DecidableEq, Repr

/-! ### Starts and the patch unit -/

structure Start where
  /-- reset pins low (R342, R343) -/
  poresetLow : Bool := true
  sysLow     : Bool := false
  kind       : BitVec 2 := 1
  began      : Bool := false
  /-- PORESET_N has been released, and the cold start waits for SYS_RESET_N (R344) -/
  waits      : Bool := false
  /-- REF edges since the start began (R461) -/
  edges      : Nat := 0
  done       : Bool := false
  failed     : Bool := false
  failCode   : W8 := 0
  warmCount  : W16 := 0
  us         : W32 := 0
  /-- steps of R453, R454 that have completed -/
  hrpUp      : Bool := false
  arrays     : Bool := false
  config     : Bool := false
  warden     : Bool := false
  failStep   : BitVec 4 := 0
  /-- a belay cause held until DONE (R430): bit of CAUSE -/
  heldBelay  : BitVec 5 := 0
  /-- cause of the block reset that led to this start, for its log entry (R405) -/
  cause      : W8 := 0
  deriving DecidableEq, Repr

/-- SEQ_PATCH_STATUS.STATE (R385). -/
inductive PatchSt where
  | waiting | receiving | verifying | decrypting | loaded | none | failed
  deriving DecidableEq, Repr

structure Patch where
  st        : PatchSt := .waiting
  ready     : Bool := false
  warmMatch : Bool := false
  code      : W8 := 0
  len       : Nat := 0
  version   : W32 := 0
  strands   : Nat := 0
  yarns     : Nat := 0
  digest    : BitVec 256 := 0
  /-- container bytes in the patch unit (R353) -/
  bytes     : List W8 := []
  /-- the beat that reaches the largest patch came without PATCH_LAST (R353); the digest is complete -/
  cut       : Bool := false
  hashed    : Bool := false
  keyReq    : Bool := false
  key       : List W32 := []
  plain     : List W8 := []
  checked   : Bool := false
  romDone   : Bool := false
  /-- digest and VALID of the keep domain (R378) -/
  keepDigest : BitVec 256 := 0
  keepValid : Bool := false
  /-- words the patch wrote, over the ROM defaults (R374, R377) -/
  patStrand : PMap W32 := []
  patYarn   : PMap (BitVec 192) := []
  deriving DecidableEq, Repr

/-! ### Faults and recovery -/

/-- BLK_WARDEN.STATE (R312). -/
inductive WardenSt where
  | booting | running | stopped
  deriving DecidableEq, Repr

/-- A log entry (R404) but for its SEQ. -/
structure LogEntry where
  kind   : W8
  code   : W8 := 0
  seat   : Option (BitVec 4) := none
  time   : W64
  unit   : BitVec 12 := 0xFFF
  part   : BitVec 4 := 0
  queue  : Option (BitVec 14) := none
  count  : W32 := 1
  detail : W64 := 0
  deriving DecidableEq, Repr

structure SeatLog where
  entries : List (W32 × LogEntry) := []
  next    : W32 := 0
  sel     : W32 := 0
  irqLog  : Bool := false
  irqEn   : Bool := false
  deriving DecidableEq, Repr

/-- FLT_TWIN_LAST and the digests of one pair (R425). -/
structure TwinLast where
  last : BitVec 7 := 0
  digA : W64 := 0
  digB : W64 := 0
  digC : W64 := 0
  deriving DecidableEq, Repr

/-- A rung carried out, for the limits of R417: 1 engine (with its partition), 3 block, and a hang of an engine. -/
structure History where
  step   : Nat
  target : Nat
  time   : W64
  deriving DecidableEq, Repr

/-- A rung ordered and held, or in progress: step (R425), target, cause. -/
structure RungReq where
  step   : Nat
  target : Nat
  cause  : W8
  deriving DecidableEq, Repr

structure Faults where
  auto       : BitVec 4 := 0b0111
  engLimit   : BitVec 4 := 4
  blkLimit   : BitVec 4 := 3
  warden     : WardenSt := .booting
  /-- rungs called for and not yet ordered; rungs in progress; rungs waiting for the steward, the oldest first, which FLT_STATUS
  shows (log 149); rungs ordered and not yet carried out (R417, R424) -/
  called     : List RungReq := []
  active     : List RungReq := []
  pending    : List RungReq := []
  deferred   : List RungReq := []
  irqLog     : Bool := false
  irqWait    : Bool := false
  irqNoack   : Bool := false
  irqEn      : Bool := false
  log        : List (W32 × LogEntry) := []
  logNext    : W32 := 0
  logSel     : W32 := 0
  dropped    : W32 := 0
  seatLogs   : SMap SeatLog := []
  /-- millisecond of the entries counted against the budget of R406, and how many -/
  logMs      : Nat := 0
  logCnt     : Nat := 0
  stallWin   : SMap Nat := []
  eccCe      : SMap W32 := []
  eccUe      : SMap W32 := []
  linkReplay : W32 := 0
  linkCrc    : W32 := 0
  twinSel    : BitVec 5 := 0
  twins      : SMap TwinLast := []
  twinRec    : W32 := 0
  twinUnres  : W32 := 0
  history    : List History := []
  pcycReq    : Bool := false
  /-- internal links: link number, link layer; DOWN links (R409) -/
  links      : SMap Link := []
  linksDown  : List Nat := []
  /-- steep buffer word with an uncorrectable error (R408 code 11) -/
  steepBad   : Option Nat := none
  deriving DecidableEq, Repr

/-! ### Debug, trace, counters -/

/-- DBG_BELAY.STATE (R431). -/
inductive BelaySt where
  | running | stopping | stopped
  deriving DecidableEq, Repr

/-- A break unit (R433, R436). -/
structure BreakUnit where
  arm    : Bool := false
  kind   : Bool := false
  action : BitVec 3 := 0
  hit    : Bool := false
  once   : Bool := false
  queue  : BitVec 14 := 0
  value  : W32 := 0
  mask   : W32 := 0
  deriving DecidableEq, Repr

/-- A counter trigger (R437). -/
structure Trigger where
  arm    : Bool := false
  src    : Bool := false
  action : Bool := false
  hit    : Bool := false
  engine : BitVec 12 := 0
  index  : W8 := 0
  thr    : W64 := 0
  deriving DecidableEq, Repr

/-- An injection unit (R451). -/
structure Injector where
  arm     : Bool := false
  mode    : Bool := false
  action  : BitVec 2 := 0
  replays : Bool := false
  dir     : Bool := false
  link    : BitVec 12 := 0
  rate    : W16 := 0
  bit     : BitVec 10 := 0
  seed    : W32 := 0
  count   : W32 := 0
  flits   : Nat := 0
  /-- the flit that REORDER holds back, as a number -/
  held    : Option Nat := none
  deriving DecidableEq, Repr

/-- One queue of a snapshot (R438): words Q0 to Q5 and its owner at the capture. -/
structure SnapQ where
  words : List W32
  owner : Option Nat
  deriving DecidableEq, Repr

structure Snapshot where
  valid : Bool := false
  time  : W64 := 0
  sel   : BitVec 14 := 0
  /-- queues that were not in their reset state; every other reads 0 -/
  qs    : PMap SnapQ := []
  pool  : W32 := 0
  deriving DecidableEq, Repr

/-- DBG_TANGLE_CTRL.STATE (R439). -/
inductive TangleSt where
  | idle | building | done | failed
  deriving DecidableEq, Repr

structure Tangle where
  base  : W64 := 0
  size  : W32 := 0
  all   : Bool := false
  st    : TangleSt := .idle
  /-- the graph taken at GO, as the bytes written to BASE (R440) -/
  graph : List W32 := []
  /-- writes of it that have no acknowledgement yet; an error among them -/
  want  : Nat := 0
  bad   : Bool := false
  deriving DecidableEq, Repr

/-- States of the TAP controller (R356: IEEE 1149.1). -/
inductive TapState where
  | testLogicReset | runTestIdle
  | selectDr | captureDr | shiftDr | exit1Dr | pauseDr | exit2Dr | updateDr
  | selectIr | captureIr | shiftIr | exit1Ir | pauseIr | exit2Ir | updateIr
  deriving DecidableEq, Repr

structure Debug where
  belayInEn : Bool := false
  injEn     : Bool := false
  belay     : BelaySt := .running
  cause     : BitVec 5 := 0
  relHeld   : Bool := false
  belayTime : W64 := 0
  event     : BitVec 4 := 0
  irqEn     : Bool := false
  seatReq   : W16 := 0
  /-- the steward's units 0 to 7; seat s's are 8 + 2s and 9 + 2s -/
  units     : SMap BreakUnit := []
  /-- TAGs carried out that a unit matches and has not yet fired for: queue, index, value -/
  tags      : List (Nat × Nat × W32) := []
  trigs     : SMap Trigger := []
  injs      : SMap Injector := []
  snap      : Snapshot := {}
  tangle    : Tangle := {}
  tapIr     : W8 := 0x01
  /-- what the TAP shifted out last -/
  tapOut    : List W8 := []
  /-- TRST_N as last seen; the controller, its shift register, TDO (R328, R356) -/
  trstLow   : Bool := false
  tapSt     : TapState := .testLogicReset
  tapShift  : W32 := 0
  tdo       : Bool := false
  deriving DecidableEq, Repr

/-- A record whose writes to a ring are under way (R447): the caddy it is of (an engine's, or the block's), whether it is a MARK
copy, its bytes, writes without acknowledgement, an error among them. -/
structure Drain where
  src  : Option Nat
  copy : Bool
  item : TraceRec
  len  : Nat
  want : Nat
  bad  : Bool := false
  deriving DecidableEq, Repr

/-- A trace ring (R447). -/
structure TraceRing where
  base   : W64 := 0
  size   : W32 := 0
  wr     : W32 := 0
  rd     : W32 := 0
  en     : Bool := false
  wrap   : Bool := false
  markEn : Bool := false
  err    : Bool := false
  lost   : W32 := 0
  out    : Option Drain := none
  /-- copies of MARK records that wait to be written to it -/
  marks  : List TraceRec := []
  deriving DecidableEq, Repr

structure Trace where
  sel      : SMap (BitVec 14) := []
  base     : SMap Nat := []
  ctl      : BitVec 4 := 0
  interval : W32 := 0
  cntSel   : BitVec 21 := 0
  caddy    : Caddy := {}
  /-- rings of seats 0 to 15; 16 the steward's -/
  rings    : SMap TraceRing := []
  /-- occurrences of countable events, by event key (log 7) -/
  tally    : SMap Nat := []
  deriving DecidableEq, Repr

/-- TIM_STATUS.STATE (R450). -/
inductive TimSt where
  | free | acquiring | locked | holdover
  deriving DecidableEq, Repr

/-- Fabric time and its discipline (R345, R450). -/
structure Time where
  now     : W64 := 0
  disc    : Bool := false
  setPend : Bool := false
  st      : TimSt := .free
  stepped : Bool := false
  setVal  : W64 := 0
  pps     : W64 := 0
  err     : W32 := 0
  trim    : W32 := 0
  stepNs  : BitVec 30 := 0x0F4240
  ariPs   : BitVec 14 := 0x029B
  ep      : Int := 0
  cp      : Int := 0
  /-- correction in force and the position j in it -/
  corr    : Int := 0
  corrPos : Nat := 0
  /-- e of a step that the next REF edge makes -/
  stepBy  : Option Int := none
  /-- divided arithmetic edges since the last REF edge (R449) -/
  divEdges : Nat := 0
  deriving DecidableEq, Repr

end Sys2Proof.Machine
end

