-- ==== Sys2Proof/Machine/State.lean ====
section
/-! DEFINITION. The state of the block, the reasons a step can stop, and the state after reset. -/

namespace Sys2Proof.Machine

/-- Straps sampled at the internal release of PORESET_N (R27, R342). -/
structure Strap where
  steward : Nat := 0
  keyHash : BitVec 256 := 0
  deriving DecidableEq, Repr

/-- What few commands change: the straps, fabric time, the steep buffer (R54). Every unit reads it. -/
structure Env where
  strap : Strap := {}
  time  : Time := {}
  steep : Mem := []
  deriving DecidableEq, Repr

/-- The rest of the block. -/
structure Blk where
  /-- draws of free values (log 9) -/
  freeCtr  : Nat := 0
  /-- control cycles passed (log 2) -/
  ctlCycle : Nat := 0
  host  : HostPort := {}
  feat  : Features := {}
  start : Start := {}
  patch : Patch := {}
  wv    : WeaveUnit := {}
  qs    : SMap Que := []
  kn    : KnotTable := {}
  sb    : List SbEntry := []
  stand : List Standing := []
  dsp   : Dispatch := {}
  sq    : SMap Seq := []
  eng   : SMap Eng := []
  mem   : MemState := {}
  ik    : SMap Intake := []
  pwr   : Power := {}
  flt   : Faults := {}
  dbg   : Debug := {}
  trc   : Trace := {}
  deriving DecidableEq, Repr

/-- The machine: the commands waiting, first in first out, and the block. -/
structure State where
  pending : List Instr
  env     : Env
  blk     : Blk
  deriving DecidableEq, Repr

/-- No command of this block faults the machine: the block records every error in its own state and goes on (R403).
The type has no constructor, so that no step can stop with a fault. -/
inductive Fault where
  deriving DecidableEq, Repr

/-- Reasons a step refuses. -/
inductive Refusal where
  /-- raised by Dispatch for a command without a meaning yet; safe -/
  | notModelled (mnemonic : String)
  deriving DecidableEq, Repr

/-- The block while PORESET_N is low: every register at its reset value, no start begun (R328, R342; log 5). -/
def State.reset : State := { pending := [], env := {}, blk := {} }

end Sys2Proof.Machine
end

