-- ==== Sys2Proof/Machine/Ops.lean ====
section
/-! DEFINITION. Shared operations: keyed maps, memory, field access, weave lookups, counts, trace records, log entries,
register errors. -/

namespace Sys2Proof.Machine

/-! ### Keyed maps and addressed bytes (log 6) -/

def PMap.find {α : Type} (k : Nat) : PMap α → Option α
  | [] => none
  | (i, v) :: r => if i = k then some v else PMap.find k r

def PMap.put {α : Type} (k : Nat) (v : α) : PMap α → PMap α
  | [] => [(k, v)]
  | (i, w) :: r => if k < i then (k, v) :: (i, w) :: r else if k = i then (k, v) :: r else (i, w) :: PMap.put k v r

def PMap.del {α : Type} (k : Nat) : PMap α → PMap α
  | [] => []
  | (i, w) :: r => if i = k then PMap.del k r else (i, w) :: PMap.del k r

def SMap.get {α : Type} (d : α) (m : SMap α) (k : Nat) : α := (PMap.find k m).getD d

/-- Writing the default removes the entry. -/
def SMap.set {α : Type} [DecidableEq α] (d : α) (m : SMap α) (k : Nat) (v : α) : SMap α :=
  if v = d then PMap.del k m else PMap.put k v m

/-- Keys strictly rising. -/
def PMap.sorted {α : Type} : PMap α → Bool
  | [] => true
  | [_] => true
  | (i, _) :: (j, w) :: r => decide (i < j) && PMap.sorted ((j, w) :: r)

abbrev PMap.Sorted {α : Type} (m : PMap α) : Prop := PMap.sorted m = true

/-- The canonical form of addressed bytes: addresses strictly rising, no entry 0. -/
abbrev Memory.wf (m : Mem) : Prop := PMap.Sorted m ∧ ∀ c ∈ m, c.2 ≠ 0

/-- A byte; an unlisted address reads 0. -/
def Mem.read (m : Mem) (a : Nat) : W8 := SMap.get 0 m a
def Mem.write (m : Mem) (a : Nat) (v : W8) : Mem := SMap.set 0 m a v

/-- Bytes a to a + n - 1, little-endian (R5). -/
def Mem.readN (m : Mem) (a : Nat) : Nat → Nat
  | 0 => 0
  | n + 1 => (Mem.read m a).toNat + 256 * Mem.readN m (a + 1) n

/-- Byte a + i takes byte i of v where bit i of the mask is set. -/
def Mem.writeMask (m : Mem) (a : Nat) (v mask : Nat) : Nat → Mem
  | 0 => m
  | n + 1 =>
    let m := if mask % 2 = 1 then Mem.write m a (BitVec.ofNat 8 v) else m
    Mem.writeMask m (a + 1) (v / 256) (mask / 2) n

def Mem.readLine (m : Mem) (a : Nat) : Line := BitVec.ofNat 512 (Mem.readN m a 64)
def Mem.writeLine (m : Mem) (a : Nat) (v : Line) : Mem := Mem.writeMask m a v.toNat (2 ^ 64 - 1) 64
def Mem.word (m : Mem) (a : Nat) : W32 := BitVec.ofNat 32 (Mem.readN m a 4)
/-- Bytes of a list from address a on. -/
def Mem.writeBytes (m : Mem) (a : Nat) : List W8 → Mem
  | [] => m
  | v :: r => Mem.writeBytes (Mem.write m a v) (a + 1) r
/-- Without the bytes of addresses lo to hi - 1. -/
def Mem.zero (m : Mem) (lo hi : Nat) : Mem := m.filter fun c => !(decide (lo ≤ c.1) && decide (c.1 < hi))

/-! ### Fields -/

/-- Bits lo to lo + n - 1 as a number. -/
def fld {w : Nat} (v : BitVec w) (lo n : Nat) : Nat := (v.toNat >>> lo) % 2 ^ n
def bit {w : Nat} (v : BitVec w) (i : Nat) : Bool := v.getLsbD i
/-- v with bits lo to lo + n - 1 replaced. -/
def putFld {w : Nat} (v : BitVec w) (lo n : Nat) (x : Nat) : BitVec w :=
  let m : BitVec w := BitVec.ofNat w ((2 ^ n - 1) * 2 ^ lo)
  (v &&& ~~~ m) ||| BitVec.ofNat w ((x % 2 ^ n) * 2 ^ lo)
def b2n (b : Bool) : Nat := if b then 1 else 0
/-- Two's complement of an n-bit field. -/
def sgn (n v : Nat) : Int := if v < 2 ^ (n - 1) then (v : Int) else (v : Int) - 2 ^ n
/-- Bytes of a little-endian number. -/
def toBytes : Nat → Nat → List W8
  | 0, _ => []
  | n + 1, v => BitVec.ofNat 8 v :: toBytes n (v / 256)
def ofBytes : List W8 → Nat
  | [] => 0
  | b :: r => b.toNat + 256 * ofBytes r
/-- Add 1, staying at the largest value. -/
def satInc {w : Nat} (v : BitVec w) : BitVec w := if v.toNat + 1 < 2 ^ w then v + 1 else v
def satAdd {w : Nat} (v : BitVec w) (n : Nat) : BitVec w :=
  if v.toNat + n < 2 ^ w then v + BitVec.ofNat w n else BitVec.allOnes w
def isPow2 (n : Nat) : Bool := n != 0 && 2 ^ Nat.log2 n == n
def addNew (l : List Nat) (e : Nat) : List Nat := if l.contains e then l else l ++ [e]
def range (n : Nat) : List Nat := List.range n

/-- One step of the reflected CRC-32C (R38). -/
def crcBits : Nat → Nat → Nat
  | 0, c => c
  | n + 1, c => crcBits n (if c % 2 = 1 then (c / 2) ^^^ 0x82F63B78 else c / 2)
def crcByte (c : Nat) (b : W8) : Nat := crcBits 8 (c ^^^ b.toNat)
/-- CRC-32C of bytes (R38). -/
def crc32c (l : List W8) : W32 := BitVec.ofNat 32 ((l.foldl crcByte 0xFFFFFFFF) ^^^ 0xFFFFFFFF)

/-- The mixing function of R125. -/
def mix (x : W64) : W64 :=
  let x := x ^^^ (x >>> 30)
  let x := x * 0xbf58476d1ce4e5b9
  let x := x ^^^ (x >>> 27)
  let x := x * 0x94d049bb133111eb
  x ^^^ (x >>> 31)

/-! ### Outcomes -/

/-- A meaning that acts on the block alone. -/
def State.onBlk (s : State) (f : Env → Blk → Blk) : Host.Outcome State Fault Refusal :=
  .next { s with blk := f s.env s.blk }

def Env.now (x : Env) : W64 := x.time.now
def Env.steward (x : Env) : Nat := x.strap.steward

/-! ### Parts of the block by number -/

def Blk.que (b : Blk) (q : Nat) : Que := SMap.get {} b.qs q
def Blk.setQue (b : Blk) (q : Nat) (v : Que) : Blk := { b with qs := SMap.set {} b.qs q v }
def Blk.knot (b : Blk) (k : Nat) : Knot := SMap.get {} b.kn.tab k
def Blk.setKnot (b : Blk) (k : Nat) (v : Knot) : Blk :=
  { b with kn := { b.kn with tab := SMap.set {} b.kn.tab k v } }
def Blk.engine (b : Blk) (e : Nat) : Eng := SMap.get {} b.eng e
def Blk.setEng (b : Blk) (e : Nat) (v : Eng) : Blk := { b with eng := SMap.set {} b.eng e v }
def Blk.modEng (e : Nat) (f : Eng → Eng) (b : Blk) : Blk := b.setEng e (f (b.engine e))
def Blk.seq (b : Blk) (s : Nat) : Seq := SMap.get {} b.sq s
def Blk.setSeq (b : Blk) (s : Nat) (v : Seq) : Blk := { b with sq := SMap.set {} b.sq s v }
def Blk.port (b : Blk) (p : Nat) : MPort := SMap.get {} b.mem.ports p
def Blk.setPort (b : Blk) (p : Nat) (v : MPort) : Blk :=
  { b with mem := { b.mem with ports := SMap.set {} b.mem.ports p v } }
def Blk.intake (b : Blk) (p : Nat) : Intake := SMap.get {} b.ik p
def Blk.setIntake (b : Blk) (p : Nat) (v : Intake) : Blk := { b with ik := SMap.set {} b.ik p v }
def Blk.seat (b : Blk) (s : Nat) : SeatRegs := SMap.get {} b.host.seats s
def Blk.setSeat (b : Blk) (s : Nat) (v : SeatRegs) : Blk :=
  { b with host := { b.host with seats := SMap.set {} b.host.seats s v } }
def Blk.tieRegs (b : Blk) (s : Nat) : TieRegs := SMap.get {} b.host.ties s
def Blk.setTieRegs (b : Blk) (s : Nat) (v : TieRegs) : Blk :=
  { b with host := { b.host with ties := SMap.set {} b.host.ties s v } }
def Blk.partCtl (b : Blk) (p : Nat) : PartCtl := SMap.get {} b.dsp.ctl p
def Blk.ring (b : Blk) (r : Nat) : TraceRing := SMap.get {} b.trc.rings r
def Blk.setRing (b : Blk) (r : Nat) (v : TraceRing) : Blk :=
  { b with trc := { b.trc with rings := SMap.set {} b.trc.rings r v } }

/-- Units that hold work act only after a start, with clocks, and outside a belay (R386, R428, R460). -/
def Blk.up (b : Blk) : Bool := b.start.done && !b.start.poresetLow && !b.start.sysLow && !b.pwr.asleep
def Blk.running (b : Blk) : Bool := b.up && b.dbg.belay == .running

/-- A free 64-bit value (log 9). -/
def Blk.drawFree (b : Blk) : W64 × Blk :=
  (BitVec.ofNat 64 ((Config.freeWord b.freeCtr).toNat + 2 ^ 32 * (Config.freeWord (b.freeCtr + 1)).toNat), { b with freeCtr := b.freeCtr + 2 })

/-! ### The current weave -/

def Weave.part (w : Weave) (p : Nat) : Option WvPart := w.parts.find? fun r => r.num == p
def Weave.partOf (w : Weave) (e : Nat) : Option WvPart := w.parts.find? fun r => r.mask.getLsbD e
def Weave.qmap (w : Weave) (q : Nat) : Option WvQmap :=
  w.qmaps.find? fun r => decide (r.first ≤ q) && decide (q < r.first + r.count)
def Weave.owner (w : Weave) (q : Nat) : Option Nat := (w.qmap q).map (·.owner)
def Weave.seat (w : Weave) (s : Nat) : Option WvSeat := w.seats.find? fun r => r.seat == s
def Weave.knotOwner (w : Weave) (k : Nat) : Option Nat :=
  (w.seats.find? fun r => decide (64 * r.knotBase ≤ k) && decide (k < 64 * (r.knotBase + r.knotCount))).map (·.seat)
def Weave.partMask (w : Weave) (s : Nat) : W16 := ((w.seat s).map (·.partMask)).getD 0
def Weave.ownsPart (w : Weave) (s p : Nat) : Bool := (w.partMask s).getLsbD p
def Weave.partOwners (w : Weave) (p : Nat) : List Nat :=
  ((range 16).filter fun s => w.ownsPart s p)
def Weave.engOwners (w : Weave) (e : Nat) : List Nat :=
  match w.partOf e with
  | none => []
  | some p => w.partOwners p.num
def Weave.cluster (w : Weave) (c : Nat) : Option WvCluster := w.clusters.find? fun r => r.cluster == c
def Weave.region (w : Weave) (r : Nat) : Option WvRegion := w.regions.find? fun v => v.region == r
def Weave.intake (w : Weave) (p : Nat) : Option WvIntake := w.intakes.find? fun r => r.port == p
def Weave.isArb (w : Weave) (e : Nat) : Bool := w.twins.any fun t => t.arb == e
def Weave.pairOf (w : Weave) (e : Nat) : Option (Nat × WvTwin) :=
  (w.twins.zipIdx.find? fun t => t.1.a == e || t.1.b == e).map fun t => (t.2, t.1)
def Weave.twin (w : Weave) (i : Nat) : Option WvTwin := w.twins[i]?
def Weave.isTaut (w : Weave) (e : Nat) : Bool := ((w.partOf e).map (·.taut)).getD false
/-- The partition a queue's work runs on. -/
def Weave.queuePart (w : Weave) (q : Nat) : Option WvPart := (w.qmap q).bind fun m => w.part m.part
def Weave.queueTaut (w : Weave) (q : Nat) : Bool := ((w.queuePart q).map (·.taut)).getD false
/-- Engines a queue's work may use: the partition, or in a dedicated one the queue's subset (R43, R184). -/
def Weave.queueEngines (w : Weave) (q : Nat) : List Nat :=
  match w.qmap q, w.queuePart q with
  | some m, some p => (range 64).filter fun e => p.mask.getLsbD e && (!p.dedicated || m.subset.getLsbD e)
  | _, _ => []
def WvCluster.slots (c : WvCluster) (n : Nat) : Nat :=
  match n with
  | 0 => c.slots0
  | 1 => c.slots1
  | 2 => c.slots2
  | _ => c.slots3
/-- Destination engines of a KIND 0 binding (R294). -/
def Weave.intakeEngines (w : Weave) (r : WvIntake) : List Nat :=
  if r.kind1 then [] else
  match w.pairOf r.engine with
  | some (_, t) => [t.a, t.b, t.arb]
  | none => [r.engine]
def tautEngines (w : Weave) : List Nat := (range 64).filter w.isTaut

/-! ### Counts (log 7) -/

/-- Keys of countable events: block EVENT and ARG (R443), engine EVENT (R442). -/
def evBlk (ev arg : Nat) : Nat := 64 * ev + arg
def evEng (e ev : Nat) : Nat := 65536 + 256 * e + ev
def Blk.bump (b : Blk) (key n : Nat) : Blk :=
  { b with trc := { b.trc with tally := SMap.set 0 b.trc.tally key (SMap.get 0 b.trc.tally key + n) } }
/-- An event counted under its argument and under 63, all. -/
def Blk.bumpAll (b : Blk) (ev arg : Nat) : Blk := (b.bump (evBlk ev arg) 1).bump (evBlk ev 63) 1
/-- A message discarded under the epoch rules (R68). -/
def Blk.staleMsg (b : Blk) : Blk := { b with wv := { b.wv with staleCnt := satInc b.wv.staleCnt } }

/-! ### Trace records (R445, R446) -/

def TraceRec.units (r : TraceRec) : Nat := 1 + (r.body.length + 3) / 4
def Caddy.units (c : Caddy) : Nat := (c.recs.map TraceRec.units).sum
def Caddy.room (c : Caddy) (cap : Nat) (body : List W32) : Bool :=
  decide (c.units + 1 + (body.length + 3) / 4 + (if c.dropped = 0 then 0 else 2) ≤ cap)
/-- A caddy of `cap` 16-byte units that has dropped records and has room again takes a LOST record. -/
def Caddy.noteLost (c : Caddy) (cap : Nat) (time : W64) : Caddy :=
  if c.dropped ≠ 0 && decide (c.units + 2 ≤ cap) then
    { c with recs := c.recs ++ [{ kind := 0x20, seq := c.seq, time := time, body := [c.dropped] }],
             seq := c.seq + 1, dropped := 0 }
  else c
/-- A record offered to a caddy: a LOST record goes first when room returns after a drop. -/
def Caddy.offer (c : Caddy) (cap : Nat) (kind : W8) (time : W64) (body : List W32) : Caddy :=
  let c := c.noteLost cap time
  let r : TraceRec := { kind := kind, seq := c.seq, time := time, body := body }
  if decide (c.units + r.units ≤ cap) && c.dropped == 0 then { c with recs := c.recs ++ [r], seq := c.seq + 1 }
  else { c with seq := c.seq + 1, lost := satInc c.lost, dropped := satInc c.dropped }

def blkCap : Nat := 4096
def engCap : Nat := 1024
/-- A record for the block caddy. -/
def Blk.traceBlk (x : Env) (kind : W8) (body : List W32) (b : Blk) : Blk :=
  { b with trc := { b.trc with caddy := b.trc.caddy.offer blkCap kind x.now body } }
/-- BELAY, BREAK and TIME_STEP records need EVENT_EN. -/
def Blk.traceEvent (x : Env) (kind : W8) (body : List W32) (b : Blk) : Blk :=
  if b.trc.ctl.getLsbD 2 then b.traceBlk x kind body else b
/-- An engine's stamp: the distributed count, extended by the divided arithmetic edges since it took effect (R449). -/
def engTime (x : Env) : W64 := x.now + BitVec.ofNat 64 (min 19 (x.time.divEdges * x.time.ariPs.toNat / 1000))
/-- A seat's claim of an engine caddy ends (R448). -/
def Eng.endClaim (v : Eng) : Eng := { v with trace := { v.trace with owner := 0x1F, ctl := 0, claim := none } }
/-- A record for an engine's caddy. -/
def Eng.traceRec (x : Env) (kind : W8) (body : List W32) (e : Eng) : Eng :=
  { e with trace := { e.trace with caddy := e.trace.caddy.offer engCap kind (engTime x) body } }

/-! ### The logs (R404 to R406) -/

def Blk.seatLog (b : Blk) (s : Nat) : SeatLog := SMap.get {} b.flt.seatLogs s
def Blk.setSeatLog (b : Blk) (s : Nat) (v : SeatLog) : Blk :=
  { b with flt := { b.flt with seatLogs := SMap.set {} b.flt.seatLogs s v } }
def millis (t : W64) : Nat := t.toNat / 1000000
def LogEntry.merges (a c : LogEntry) : Bool :=
  (a.kind == 1 || a.kind == 3 || a.kind == 5) && a.kind == c.kind && a.code == c.code && a.unit == c.unit
    && millis a.time == millis c.time
/-- Entries that set FLT_IRQ.LOG (R425). -/
def LogEntry.irq (a : LogEntry) : Bool :=
  a.kind == 2 || a.kind == 4 || (decide (6 ≤ a.kind.toNat) && decide (a.kind.toNat ≤ 14)) || a.kind == 0x11
def lastN {α : Type} (n : Nat) (l : List α) : List α := l.drop (l.length - n)
def mergeInto (e : LogEntry) (l : List (W32 × LogEntry)) : List (W32 × LogEntry) :=
  l.map fun p => if p.2.merges e then (p.1, { p.2 with count := satInc p.2.count }) else p
def Blk.logSeat (e : LogEntry) (s : Nat) (b : Blk) : Blk :=
  let l := b.seatLog s
  b.setSeatLog s { l with entries := lastN 64 (l.entries ++ [(l.next, e)]), next := l.next + 1, irqLog := true }
/-- One event for the logs; the warden core writes it, or merges it, or finds no room in the millisecond. -/
def Blk.log (x : Env) (e : LogEntry) (b : Blk) : Blk :=
  if b.flt.warden ≠ .running then b else
  if b.flt.log.any fun p => p.2.merges e then
    { b with flt := { b.flt with
        log := mergeInto e b.flt.log
        seatLogs := b.flt.seatLogs.map fun p => (p.1, { p.2 with entries := mergeInto e p.2.entries }) } }
  else
  let ms := millis x.now
  let cnt := if b.flt.logMs = ms then b.flt.logCnt else 0
  if cnt ≥ 64 then { b with flt := { b.flt with dropped := satInc b.flt.dropped } } else
  let b := { b with flt := { b.flt with
      log := lastN 256 (b.flt.log ++ [(b.flt.logNext, e)]), logNext := b.flt.logNext + 1,
      irqLog := b.flt.irqLog || e.irq, logMs := ms, logCnt := cnt + 1 } }
  if e.kind = 0x0B then (range 16).foldl (fun b s => b.logSeat e s) b else
  match e.seat with
  | some s => b.logSeat e s.toNat
  | none => b
/-- Partition of an engine, for the PART field. -/
def Blk.partField (b : Blk) (e : Nat) : BitVec 4 := BitVec.ofNat 4 (((b.wv.cur.partOf e).map (·.num)).getD 0)

/-! ### Rungs called for (R417, R422) -/

/-- An event calls for a rung; the same rung already called for, ordered or in progress takes it in. -/
def Blk.callRung (step target : Nat) (cause : W8) (b : Blk) : Blk :=
  let same := fun (r : RungReq) => r.step == step && r.target == target
  if (b.flt.called ++ b.flt.deferred ++ b.flt.active).any same then b else
  { b with flt := { b.flt with called := b.flt.called ++ [{ step := step, target := target, cause := cause }] } }

/-! ### Register errors -/

def ErrReg.record (r : ErrReg) (code : W8) : ErrReg := { r with code := code, count := satInc r.count, valid := true }
def ErrReg.clear (r : ErrReg) : ErrReg := { r with code := 0, count := 0, valid := false }
/-- A queue error (R170). -/
def Blk.queErr (b : Blk) (q : Nat) (code : W8) : Blk := b.setQue q { b.que q with err := (b.que q).err.record code }
/-- A refused access (R303, R312). -/
def Blk.refuse (a : Acc) (addr : BitVec 22) (write : Bool) (kind : BitVec 2) (b : Blk) : Blk :=
  let r := b.host.acc
  let r := if r.valid then { r with count := satInc r.count } else
    { r with seat := BitVec.ofNat 4 a.seat.val, priv := a.priv, write := write, kind := kind, count := 1, valid := true,
             addr := addr }
  { b with host := { b.host with acc := r } }

/-! ### Homes and messages on the ring (R252, R262, R263) -/

/-- Home region of a line. -/
def homeOf (n : Nat) : Nat :=
  let f := fun (i : Nat) => (n >>> i) % 4
  f 6 ^^^ f 14 ^^^ f 22 ^^^ f 30 ^^^ f 38 ^^^ f 46 ^^^ f 54
/-- Stops: 0 the block's, 1 + r region r's. -/
def agentStop (a : Nat) : Nat := if a < 64 then 1 + a / 16 else 0
/-- The engine a request is made for, if it is a cluster's. -/
def rqEngine : Rq → Option Nat
  | .agent a => if a.val < 64 then some a.val else none
  | .draw e _ | .tdesc e | .stream _ e | .image _ e => some e.val
  | _ => none
def rqStop (r : Rq) : Nat :=
  match rqEngine r with
  | some e => agentStop e
  | none => 0
def homeStop (l : LineNo) : Nat := 1 + homeOf l.toNat
/-- The stops between which a message travels; none for a hand-over within a unit. -/
def msgPath : Instr → Option (Nat × Nat)
  | .rds a l | .evict a l | .ack a l => some (agentStop a, homeStop l)
  | .fwdmiss a l _ | .invack a l _ => some (agentStop a, homeStop l)
  | .rdonce r l | .wr r l _ _ => some (rqStop r, homeStop l)
  | .rdm l | .wb l _ | .atom l _ => some (0, homeStop l)
  | .fwd a l _ | .fwdinv a l | .inv a l => some (homeStop l, agentStop a)
  | .data (some a) r _ _ _ => some (agentStop a, rqStop r)
  | .data none r l _ _ => some (homeStop l, rqStop r)
  | .cmpMessage r l _ _ => some (homeStop l, rqStop r)
  | _ => none
/-- Stops that a message leaves on its way: the shorter one (R263). -/
def leftStops (m : Instr) : List Nat :=
  match msgPath m with
  | none => []
  | some (s, t) =>
    let d := (t + 5 - s) % 5
    if d ≤ 2 then (range d).map fun i => (s + i) % 5 else (range (5 - d)).map fun i => (s + 5 - i) % 5
/-- A message sent, as one flit that each of those stops counts (17 R443; log 153); its arrival is a command of its own. -/
def Blk.send (m : Instr) (b : Blk) : Blk :=
  { b with mem := { b.mem with ring := b.mem.ring ++ [m] }
           trc := { b.trc with tally := (leftStops m).foldl (fun t s => SMap.set 0 t (evBlk 0x13 s) (SMap.get 0 t (evBlk 0x13 s) + 1)) b.trc.tally } }
/-- The message is under way, and it is the first of those sent between its stops (R263). -/
def Blk.mayArrive (m : Instr) (b : Blk) : Bool :=
  match msgPath m with
  | none => b.mem.ring.contains m
  | some p => b.mem.ring.find? (fun k => msgPath k == some p) == some m
/-- A message that has arrived is no longer on the ring (log 16). -/
def Blk.arrived (m : Instr) (b : Blk) : Blk := { b with mem := { b.mem with ring := b.mem.ring.erase m } }
/-- The row of a message: its effect when it may arrive. -/
def State.onMessage (s : State) (ready : Blk → Bool) (m : Instr) (f : Env → Blk → Blk) : Host.Outcome State Fault Refusal :=
  s.onBlk fun x b => if ready b && b.mayArrive m then f x (b.arrived m) else b
def lineOf (a : Nat) : LineNo := BitVec.ofNat 58 (a / 64)
def maskOf (lo n : Nat) : W64 := BitVec.ofNat 64 ((2 ^ n - 1) * 2 ^ lo)

end Sys2Proof.Machine
end

