-- ==== Sys2Proof/Machine/Access.lean ====
section
/-! DEFINITION. Host accesses (12 R302 to R305, 13 R329, R330, 18 R460): which seat may reach what, partial writes,
responses, accesses held behind an unfinished one. -/

namespace Sys2Proof.Machine

def fromSteward (x : Env) (a : Acc) : Bool := a.seat.val == x.steward
/-- The steward window's refusal: KIND 0. -/
def judgeSteward (x : Env) (a : Acc) : Option (BitVec 2) := if fromSteward x a && a.priv then none else some 0
/-- A seat window's refusal: KIND 1. -/
def judgeSeat (s : Nat) (a : Acc) : Option (BitVec 2) := if a.seat.val = s then none else some 1
/-- A doorbell page's refusal, of a write: KIND 2 (R159). -/
def judgePage (x : Env) (b : Blk) (q : Nat) (a : Acc) : Option (BitVec 2) :=
  if fromSteward x a || b.wv.cur.owner q == some a.seat.val then none else some 2

/-- Accepted accesses of a seat that have no response yet. -/
def SeatRegs.outstanding (r : SeatRegs) : Nat := b2n r.unfin.isSome + r.held.length
/-- The block takes an access of the seat (R330, R331, R460). -/
def Blk.hrpReady (b : Blk) (s : Nat) : Bool :=
  b.start.hrpUp && !b.start.poresetLow && !b.start.sysLow && !b.pwr.asleep && decide ((b.seat s).outstanding < 8)
def Blk.respond (s : Seat) (write : Bool) (rdata : W32) (b : Blk) : Blk :=
  { b with host := { b.host with resp := b.host.resp ++ [{ seat := BitVec.ofNat 4 s.val, write := write, rdata := rdata }] } }
/-- The responses presented by the step under way are the only ones shown. -/
def Blk.freshResp (b : Blk) : Blk := { b with host := { b.host with resp := [] } }

/-- Registers served before DONE (R460), steward window and seat mirrors. -/
def startReg (addr : Nat) : Bool :=
  let o := if addr < 0x100000 then some addr else if addr < 0x200000 then some (addr % 0x10000 + 0x10000000) else none
  match o with
  | none => false
  | some o =>
    let o := o / 4 * 4
    if o < 0x10000000 then
      o ≤ 0x14 || o == 0x20 || o == 0x28 || (decide (0x40 ≤ o) && decide (o ≤ 0x84)) || (decide (0x8400 ≤ o) && decide (o < 0x8430))
    else
      let o := o - 0x10000000
      o == 0 || (decide (8 ≤ o) && decide (o ≤ 0x14)) || o == 0x18

/-- Warden-emulated registers (R318), whose accesses go to the warden core at every time (R319, R460). -/
def emulated (addr : Nat) : Bool :=
  (decide (0x7000 ≤ addr) && decide (addr < 0x8000))
    || (decide (0x100000 ≤ addr) && decide (addr < 0x200000) && decide (0x700 ≤ addr % 0x10000) && decide (addr % 0x10000 < 0x800))
/-- An access that the seat may make waits for the warden core, in the order of presentation. -/
def Blk.toWarden (op : HostOp) (b : Blk) : Blk :=
  let s := op.acc.seat.val
  let b := b.setSeat s { b.seat s with unfin := some (.emulated op) }
  { b with host := { b.host with warden := b.host.warden ++ [op] } }
/-- A write that is judged, whole or partial, has its effect or none, and its response (R303, R304). -/
def Blk.hostWrite (a : Acc) (addr : BitVec 22) (judge : Option (BitVec 2)) (eff : Blk → Blk) (b : Blk) : Blk :=
  (match judge with
   | some k => b.refuse a addr true k
   | none => if a.be = 15 then eff b else b.refuse a addr true 3).respond a.seat true 0

/-- An access of a seat: not taken, held behind its unfinished one, answered 0 before DONE, or performed. -/
def State.access (s : State) (a : Acc) (addr : BitVec 22) (wdata : Option W32) (go : State → State) : State :=
  let b := s.blk
  if !b.hrpReady a.seat.val then s else
  let s := { s with blk := b.freshResp }
  let r := b.seat a.seat.val
  if r.unfin.isSome then
    { s with blk := s.blk.setSeat a.seat.val { r with held := r.held ++ [{ acc := a, addr := addr, wdata := wdata }] } }
  else if !b.start.done && !startReg addr.toNat && !emulated addr.toNat then { s with blk := s.blk.respond a.seat wdata.isSome 0 }
  else go s
/-- A write of one register with a row of its own that acts on the block alone. -/
def State.writeRow (s : State) (a : Acc) (addr : Nat) (d : W32) (judge : Env → Blk → Option (BitVec 2))
    (eff : Env → Blk → Blk) : Host.Outcome State Fault Refusal :=
  let ad := BitVec.ofNat 22 addr
  .next (s.access a ad (some d) fun s =>
    { s with blk := s.blk.hostWrite a ad (judge s.env s.blk) (eff s.env) })

/-- The same for a register whose write reaches beyond the block. -/
def State.writeRowS (s : State) (a : Acc) (addr : Nat) (d : W32) (judge : Env → Blk → Option (BitVec 2)) (eff : State → State) :
    Host.Outcome State Fault Refusal :=
  let ad := BitVec.ofNat 22 addr
  .next (s.access a ad (some d) fun s =>
    match judge s.env s.blk with
    | some k => { s with blk := (s.blk.refuse a ad true k).respond a.seat true 0 }
    | none =>
      if a.be ≠ 15 then { s with blk := (s.blk.refuse a ad true 3).respond a.seat true 0 } else
      let s := eff s
      { s with blk := s.blk.respond a.seat true 0 })

def pageAddr (q off : Nat) : Nat := 0x200000 + 0x400 * q + off
def seatAddr (s off : Nat) : Nat := 0x100000 + 0x10000 * s + off
def onSteward (x : Env) (a : Acc) (_ : Blk) : Option (BitVec 2) := judgeSteward x a

end Sys2Proof.Machine
end

