-- ==== Sys2Proof/Machine/Operands.lean ====
section
/-! DEFINITION. Operand forms of commands: fields of a slot, a completion tie, a launch descriptor (07 R178 to R199). -/

namespace Sys2Proof.Machine

/-- Bits lo to lo + n - 1 of the word at byte offset off of a slot, a descriptor or another buffer. -/
def fAt {w : Nat} (v : BitVec w) (off lo n : Nat) : Nat := fld v (8 * off + lo) n

namespace Slot
def opcode (s : Line) : W8 := BitVec.ofNat 8 (fAt s 0 0 8)
def serial (s : Line) : Bool := bit s 8
def tieA (s : Line) : W64 := BitVec.ofNat 64 (fAt s 0x30 0 64)
def tieB (s : Line) : W64 := BitVec.ofNat 64 (fAt s 0x38 0 64)
def flag16 (s : Line) : Bool := bit s 16
def flag17 (s : Line) : Bool := bit s 17
/-- 64-bit field at a byte offset -/
def q64 (s : Line) (off : Nat) : Nat := fAt s off 0 64
def d32 (s : Line) (off : Nat) : Nat := fAt s off 0 32
def engine (s : Line) : Nat := fAt s 4 0 12
def knot4 (s : Line) : Nat := fAt s 4 0 20
end Slot

/-- A completion tie (R179). -/
def tieKnot (t : W64) : Nat := fld t 0 20
def tieOpc (t : W64) : Nat := fld t 20 2
def tieRsv (t : W64) : Nat := fld t 22 10
def tieVal (t : W64) : W64 := BitVec.ofNat 64 (fld t 32 32)
def tieOpOf (n : Nat) : TieOp :=
  match n with
  | 1 => .set
  | 2 => .add
  | 3 => .max
  | _ => .flagOnly

def opNOP : W8 := 0x00
def opLAUNCH : W8 := 0x01
def opSTAND : W8 := 0x02
def opUNSTAND : W8 := 0x03
def opHITCH : W8 := 0x08
def opTIE : W8 := 0x09
def opCOPY : W8 := 0x10
def opFILL : W8 := 0x11
def opIMEM : W8 := 0x12
def opWS : W8 := 0x13
def opWATCH : W8 := 0x18
def opMARK : W8 := 0x19
def opTAG : W8 := 0x1A
def opMEMBAR : W8 := 0x1F

/-- Bits of a slot that its opcode defines, as (offset, low bit, width); the others are reserved (R178 to R200);
`none` for an opcode that is not defined (R183). -/
def slotDefined (op : W8) : Option (List (Nat × Nat × Nat)) :=
  let common : List (Nat × Nat × Nat) := [(0, 0, 9), (0x30, 0, 22), (0x34, 0, 32), (0x38, 0, 22), (0x3C, 0, 32)]
  let body : Option (List (Nat × Nat × Nat)) :=
    if op = opNOP then some []
    else if op = opLAUNCH then some [(0, 16, 2), (8, 0, 64)]
    else if op = opSTAND then
      some [(0, 16, 2), (4, 0, 12), (8, 0, 64), (0x10, 0, 20), (0x14, 0, 17), (0x18, 0, 64), (0x20, 0, 64), (0x28, 0, 64)]
    else if op = opUNSTAND then some [(4, 0, 12)]
    else if op = opHITCH then some [(0, 16, 1), (4, 0, 20), (4, 24, 4), (8, 0, 64)]
    else if op = opTIE then some [(0, 16, 2), (0, 20, 4), (4, 0, 20), (8, 0, 64)]
    else if op = opCOPY then some [(8, 0, 64), (0x10, 0, 64), (0x18, 0, 64)]
    else if op = opFILL then some [(8, 0, 64), (0x10, 0, 64), (0x18, 0, 64)]
    else if op = opIMEM then some [(0, 16, 2), (4, 0, 12), (8, 0, 64), (0x10, 0, 32)]
    else if op = opWS then some [(0, 16, 1), (4, 0, 12), (8, 0, 64), (0x10, 0, 20), (0x14, 0, 32)]
    else if op = opWATCH then
      some [(0, 16, 3), (8, 0, 64), (0x10, 0, 64), (0x18, 0, 32), (0x1C, 0, 32), (0x20, 0, 32), (0x24, 0, 32), (0x28, 0, 32)]
    else if op = opMARK then some [(4, 0, 32), (8, 0, 64)]
    else if op = opTAG then some [(4, 0, 32)]
    else if op = opMEMBAR then some []
    else none
  body.map (common ++ ·)

def definedMask (l : List (Nat × Nat × Nat)) : Nat :=
  l.foldl (fun m f => m ||| ((2 ^ f.2.2 - 1) * 2 ^ (8 * f.1 + f.2.1))) 0

/-- The bits of v outside a mask. -/
def outside (v mask : Nat) : Nat := v ^^^ (v &&& mask)

/-- The lowest set bit. -/
def lowBit : Nat → Nat → Nat
  | 0, _ => 0
  | n + 1, v => if v % 2 = 0 then 1 + lowBit n (v / 2) else 0
/-- Where the undefined bits of bit i's word that reach down from i begin, at most n bits down; the FLAGS field of a slot
begins at bit 16. -/
def runStart (mask i : Nat) : Nat → Nat
  | 0 => i
  | n + 1 => if i % 32 = 0 || i = 16 || mask.testBit (i - 1) then i else runStart mask (i - 1) n
/-- Whole undefined words before word w, but the first word of the slot or descriptor. -/
def wordStart (mask : Nat) : Nat → Nat
  | 0 => 0
  | w + 1 => if w ≠ 0 && (mask / 2 ^ (32 * w)) % 2 ^ 32 = 0 then wordStart mask w else w + 1
/-- Byte at which the reserved field begins that holds the lowest set bit of v, all of whose bits are undefined: the rows of
the layout tables are runs of undefined bits within a word, or of whole words (log 17). -/
def reservedByte (mask n v : Nat) : Nat :=
  let i := runStart mask (lowBit n v) 32
  (if i % 32 = 0 then 32 * wordStart mask (i / 32) else i) / 8

/-- Reserved fields of the descriptor header (R185), to be 0. -/
def descDefined : List (Nat × Nat × Nat) :=
  [(0, 0, 32), (4, 0, 20), (8, 0, 64), (0x10, 0, 64), (0x18, 0, 64), (0x20, 0, 20), (0x24, 0, 20), (0x28, 0, 20),
   (0x2C, 0, 16), (0x40, 0, 512)]

abbrev Desc := BitVec 1024
namespace Desc
def magic (d : Desc) : Nat := fAt d 0 0 32
def prog (d : Desc) : W16 := BitVec.ofNat 16 (fAt d 4 0 16)
def ndesc (d : Desc) : Nat := fAt d 4 16 4
def m (d : Desc) : Nat := fAt d 8 0 32
def n (d : Desc) : Nat := fAt d 0xC 0 32
def b (d : Desc) : Nat := fAt d 0x10 0 32
def rows (d : Desc) : Nat := fAt d 0x14 0 16
def cols (d : Desc) : Nat := fAt d 0x14 16 16
def seed (d : Desc) : W64 := BitVec.ofNat 64 (fAt d 0x18 0 64)
def winBase (d : Desc) : Nat := fAt d 0x20 0 20
def winSize (d : Desc) : Nat := fAt d 0x24 0 20
def descLm (d : Desc) : Nat := fAt d 0x28 0 20
def declNs (d : Desc) : Nat := fAt d 0x2C 0 16
def params (d : Desc) : BitVec 512 := BitVec.ofNat 512 (fAt d 0x40 0 512)
end Desc

/-- Tiles along a dimension (R130); a zero count or size gives none (R201). -/
def gridOf (count size : Nat) : Nat := if size = 0 then 0 else (count + size - 1) / size

/-- The launch a descriptor describes, no tile placed. -/
def launchOf (d : Desc) (addr : W64) : Launch :=
  { prog := d.prog, ndesc := d.ndesc, m := d.m, n := d.n, b := d.b, rows := d.rows, cols := d.cols, seed := d.seed
    winBase := d.winBase, winSize := d.winSize, descLm := d.descLm, params := d.params, addr := addr }

def Launch.tm (l : Launch) : Nat := gridOf l.m l.rows
def Launch.tn (l : Launch) : Nat := gridOf l.n l.cols
def Launch.tiles (l : Launch) : Nat := l.tm * l.tn * l.b
/-- Tile coordinates of tile index t (R132). -/
def Launch.coords (l : Launch) (t : Nat) : Nat × Nat × Nat :=
  ((t / l.tn) % l.tm, t % l.tn, t / l.tn / l.tm)
/-- Rows and columns of the extent of tile (tm, tn) (R131). -/
def Launch.extent (l : Launch) (tm tn : Nat) : Nat × Nat :=
  (min l.rows (l.m - tm * l.rows), min l.cols (l.n - tn * l.cols))
/-- Two windows intersect (R104, R201): an empty one intersects none. -/
def winMeet (b1 s1 b2 s2 : Nat) : Bool :=
  decide (0 < s1) && decide (0 < s2) && decide (b1 < b2 + s2) && decide (b2 < b1 + s1)

end Sys2Proof.Machine
end

