-- ==== Sys2Proof/Machine/Flags.lean ====
section
/-! DEFINITION. Flags: of a status record (R168), of a completion tie (R180), of a numeric report (R129), and the status
codes of R202 with their details (R203). -/

namespace Sys2Proof.Machine

def fSTALE : BitVec 4 := 1
def fABORT : BitVec 4 := 2
def fNUMERIC : BitVec 4 := 4
def fFAULT : BitVec 4 := 8

namespace Code
def engIllegal : W8 := 0x01
def engAlign : W8 := 0x02
def engLmRange : W8 := 0x03
def engHazard : W8 := 0x04
def engLoop : W8 := 0x05
def engDraw : W8 := 0x06
def engEcc : W8 := 0x07
def engGather : W8 := 0x08
def illegalOpcode : W8 := 0x10
def cmdReserved : W8 := 0x11
def knotRange : W8 := 0x12
def knotOwner : W8 := 0x13
def cmdRange : W8 := 0x14
def launchRange : W8 := 0x15
def launchDesc : W8 := 0x16
def launchClass : W8 := 0x17
def twinRefused : W8 := 0x18
def progAbsent : W8 := 0x19
def tautTileLong : W8 := 0x1A
def standStep : W8 := 0x1B
def standBusy : W8 := 0x1C
def standNone : W8 := 0x1D
def reloadBusy : W8 := 0x1E
def imemLength : W8 := 0x1F
def queFetch : W8 := 0x20
def memAlign : W8 := 0x21
def memFault : W8 := 0x22
def copyOverlap : W8 := 0x23
def watchFormat : W8 := 0x24
def hitchFlagged : W8 := 0x25
def expertDenied : W8 := 0x26
def engHang : W8 := 0x27
def engReset : W8 := 0x28
def twinUnresolved : W8 := 0x29
def wsBusy : W8 := 0x2A
end Code

def Stat.ok : Stat := {}
def Stat.err (code : W8) (detail : Nat) : Stat := { fault := true, code := code, detail := BitVec.ofNat 64 detail }
/-- Bits [6:0] of the flag byte of a status record. -/
def Stat.flags (s : Stat) : BitVec 7 :=
  BitVec.ofNat 7 (b2n s.aborted + 2 * b2n s.stale + 4 * b2n s.numeric + 8 * b2n s.concealed + 16 * b2n s.stretched
    + 32 * b2n s.twinRec + 64 * b2n s.fault)
/-- The 16-byte status record (R168): CODE only with FAULT; DETAIL the fault's, or the numeric report. -/
def Stat.record (s : Stat) (n : Nat) (opcode : W8) : BitVec 128 :=
  BitVec.ofNat 128 (n % 2 ^ 32 + 2 ^ 32 * (s.flags.toNat + 2 ^ 8 * (if s.fault then s.code.toNat else 0)
    + 2 ^ 16 * opcode.toNat) + 2 ^ 64 * (if s.fault || s.numeric then s.detail.toNat else 0))
/-- Flag bits of a record. -/
def recFlags (r : BitVec 128) : BitVec 7 := BitVec.ofNat 7 (fld r 32 7)

/-- How a completion tie goes out (R180): the value with flags, or flags in place of the value. `rel` are the flags that
released a HITCH. -/
def Stat.tieForm (s : Stat) (rel : BitVec 4) : Option (BitVec 4) × BitVec 4 :=
  if s.stale then (some fSTALE, 0)
  else if s.aborted then (some fABORT, 0)
  else if s.fault then (some (if s.code = Code.hitchFlagged then rel else fFAULT), 0)
  else (none, if s.numeric then fNUMERIC else 0)

/-- Numeric report (R129): cause bits and, with POS_VALID, a position. -/
def numCauses (r : W64) : Nat := fld r 0 4
def numPos (r : W64) : Bool := bit r 4
def numReport (causes : Nat) (pos : Option (Nat × Nat × Nat)) : W64 :=
  match pos with
  | none => BitVec.ofNat 64 (causes % 16)
  | some (tile, row, col) =>
    BitVec.ofNat 64 (causes % 16 + 16 + 2 ^ 8 * (min tile 0xFFFFFF) + 2 ^ 32 * (row % 2 ^ 16) + 2 ^ 48 * (col % 2 ^ 16))
/-- OR of the causes; the position of the tile with the lower index (R129). -/
def Launch.addReport (l : Launch) (tile : Nat) (r : W64) : Launch :=
  let c := BitVec.ofNat 64 (numCauses l.numeric ||| numCauses r)
  let keep := match l.posTile with
    | none => false
    | some p => !numPos r || decide (p ≤ tile)
  if keep then { l with numeric := (l.numeric &&& ~~~(15 : W64)) ||| c }
  else { l with numeric := (r &&& ~~~(15 : W64)) ||| c, posTile := if numPos r then some tile else none }

/-- DETAIL of an engine code (R203). -/
def engDetail (e bundle : Nat) (bank : Bool) (tile : Nat) : Nat :=
  e + 2 ^ 12 * (bundle % 1024) + 2 ^ 22 * b2n bank + 2 ^ 32 * (tile % 2 ^ 32)

end Sys2Proof.Machine
end

