-- ==== Sys2Proof/Machine/Fp.lean ====
section
/-! DEFINITION. Numbers of the engine (04_arithmetic): FP16 and FP32 as exact dyadic numbers, the rounding modes of R123 to
R125, the basic operations, and the activation functions (05 R137 to R140). -/

namespace Sys2Proof.Machine

/-- A decoded FP16 or FP32 value: NaN, an infinity, or (-1)^s * m * 2^e (R109). -/
inductive Num where
  | nan
  | inf (s : Bool)
  | fin (s : Bool) (m : Nat) (e : Int)
  deriving DecidableEq, Repr

/-- A format: bits of significand, exponent of the last place of a subnormal, and the power of two that overflows. -/
structure Fmt where
  p    : Nat
  emin : Int
  emax : Int
  deriving DecidableEq, Repr

def fp16 : Fmt := { p := 11, emin := -24, emax := 16 }
def fp32 : Fmt := { p := 24, emin := -149, emax := 128 }

/-- A rounding: the mode of R123 and, for mode 2, the drawn bits r of R124. -/
structure Rm where
  mode : Nat
  r    : Nat
  deriving DecidableEq, Repr
def rmNE : Rm := { mode := 0, r := 0 }

def bitlen (n : Nat) : Nat := if n = 0 then 0 else Nat.log2 n + 1
/-- n * 2^k for k of either sign (floor). -/
def shl (n : Nat) (k : Int) : Nat := if 0 ≤ k then n * 2 ^ k.toNat else n / 2 ^ (-k).toNat

/-! ### Encodings (R109, R110) -/

/-- Decode with exponent field width w. -/
def decNum (f : Fmt) (w : Nat) (v : Nat) : Num :=
  let fb := f.p - 1
  let s := (v / 2 ^ (fb + w)) % 2 == 1
  let e := (v / 2 ^ fb) % 2 ^ w
  let m := v % 2 ^ fb
  if e = 2 ^ w - 1 then (if m = 0 then .inf s else .nan)
  else if e = 0 then .fin s m f.emin
  else .fin s (2 ^ fb + m) ((e : Int) - 1 + f.emin)
/-- Encode a value of the format; a NaN is the canonical quiet NaN. -/
def encNum (f : Fmt) (w : Nat) (n : Num) : Nat :=
  let fb := f.p - 1
  let sg := fun (s : Bool) => if s then 2 ^ (fb + w) else 0
  match n with
  | .nan => (2 ^ w - 1) * 2 ^ fb + 2 ^ (fb - 1)
  | .inf s => sg s + (2 ^ w - 1) * 2 ^ fb
  | .fin s m e =>
    if m = 0 then sg s else
    let top := e + bitlen m - 1
    if top < f.emin + fb then sg s + shl m (e - f.emin)
    else sg s + (top - f.emin - fb + 1).toNat * 2 ^ fb + (shl m (f.p - bitlen m) - 2 ^ fb)

def dec16 (v : W16) : Num := decNum fp16 5 v.toNat
def dec32 (v : W32) : Num := decNum fp32 8 v.toNat
def enc16 (n : Num) : W16 := BitVec.ofNat 16 (encNum fp16 5 n)
def enc32 (n : Num) : W32 := BitVec.ofNat 32 (encNum fp32 8 n)

def Num.isNan : Num → Bool
  | .nan => true
  | _ => false
def Num.isInf : Num → Bool
  | .inf _ => true
  | _ => false
def Num.sign : Num → Bool
  | .nan => false
  | .inf s => s
  | .fin s _ _ => s
def Num.isZero : Num → Bool
  | .fin _ 0 _ => true
  | _ => false
def Num.neg : Num → Num
  | .nan => .nan
  | .inf s => .inf !s
  | .fin s m e => .fin (!s) m e
def Num.abs : Num → Num
  | .nan => .nan
  | .inf _ => .inf false
  | .fin _ m e => .fin false m e
def Num.withSign (s : Bool) : Num → Num
  | .nan => .nan
  | .inf _ => .inf s
  | .fin _ m e => .fin s m e
def Num.zero (s : Bool) : Num := .fin s 0 0
def Num.one : Num := .fin false 1 0
def Num.ofInt (n : Int) (e : Int) : Num := .fin (decide (n < 0)) n.natAbs e

/-! ### Rounding (R117, R123, R124) -/

/-- Rounds m * 2^e, with something more above it when `rest`, to p bits with last place at or above emin. `tie` is the
sticky bit of R118: it decides a tie only. -/
def roundCore (p : Nat) (emin : Option Int) (rm : Rm) (tie rest : Bool) (m : Nat) (e : Int) : Nat × Int :=
  let l0 := e + bitlen m - p
  let l := match emin with
    | some x => max l0 x
    | none => l0
  if l ≤ e then (m * 2 ^ (e - l).toNat, l) else
  let sh := (l - e).toNat
  let lo := m / 2 ^ sh
  let rem := m % 2 ^ sh
  if rem = 0 && !rest then (lo, l) else
  let up :=
    match rm.mode with
    | 0 => if 2 * rem = 2 ^ sh then (rest || tie || lo % 2 == 1) else decide (2 ^ sh < 2 * rem)
    | 1 => false
    | _ => decide (65536 ≤ rm.r + rem * 65536 / 2 ^ sh)
  (if up then lo + 1 else lo, l)

/-- Rounding to a format; with `flush`, the exponent is unbounded below and results under 2^-126 become zero (R117,
R119, R123). -/
def roundTo (f : Fmt) (flush : Bool) (rm : Rm) (tie rest : Bool) (s : Bool) (m : Nat) (e : Int) : Num :=
  let x := roundCore f.p (if flush then none else some f.emin) rm tie rest m e
  if x.1 = 0 then .zero s
  else if f.emax < x.2 + bitlen x.1 then
    (if rm.mode = 1 then .fin s (2 ^ f.p - 1) (f.emax - f.p) else .inf s)
  else if flush && decide (x.2 + bitlen x.1 ≤ -126) then .zero s
  else .fin s x.1 x.2
def Num.round (f : Fmt) (flush : Bool) (rm : Rm) : Num → Num
  | .fin s m e => roundTo f flush rm false false s m e
  | n => n

/-! ### Exact operations; the flag is an invalid operation: a NaN from operands that are not NaN (R128) -/

abbrev Res := Num × Bool

def mulX (a b : Num) : Res :=
  match a, b with
  | .nan, _ => (.nan, false)
  | _, .nan => (.nan, false)
  | .inf s, .inf t => (.inf (s != t), false)
  | .inf s, .fin t m _ => if m = 0 then (.nan, true) else (.inf (s != t), false)
  | .fin s m _, .inf t => if m = 0 then (.nan, true) else (.inf (s != t), false)
  | .fin s m e, .fin t n g => (.fin (s != t) (m * n) (e + g), false)

def addFin (s : Bool) (m : Nat) (e : Int) (t : Bool) (n : Nat) (g : Int) : Num :=
  if m = 0 && n == 0 then .zero (s && t) else
  let l := min e g
  let sg := fun (s : Bool) (m : Nat) => if s then -(m : Int) else (m : Int)
  let x := sg s (m * 2 ^ (e - l).toNat) + sg t (n * 2 ^ (g - l).toNat)
  if x = 0 then .zero false else .ofInt x l
def addX (a b : Num) : Res :=
  match a, b with
  | .nan, _ => (.nan, false)
  | _, .nan => (.nan, false)
  | .inf s, .inf t => if s = t then (.inf s, false) else (.nan, true)
  | .inf s, .fin _ _ _ => (.inf s, false)
  | .fin _ _ _, .inf t => (.inf t, false)
  | .fin s m e, .fin t n g => (addFin s m e t n g, false)
def fmaX (a b c : Num) : Res :=
  if a.isNan || b.isNan || c.isNan then (.nan, false) else
  let p := mulX a b
  if p.2 then p else addX p.1 c

/-- Order of two values that are not NaN; -0 equals +0. -/
def cmpX (a b : Num) : Ordering :=
  match a, b with
  | .inf s, .inf t => compare (if s then 0 else 1 : Nat) (if t then 0 else 1)
  | .inf s, _ => if s then .lt else .gt
  | _, .inf t => if t then .gt else .lt
  | .fin s m e, .fin t n g =>
    let l := min e g
    let sg := fun (s : Bool) (m : Nat) => if s then -(m : Int) else (m : Int)
    compare (sg s (m * 2 ^ (e - l).toNat)) (sg t (n * 2 ^ (g - l).toNat))
  | _, _ => .eq
/-- IEEE 754-2019 minimum and maximum, -0 below +0 (R126). -/
def minX (a b : Num) : Num :=
  if a.isNan || b.isNan then .nan else
  match cmpX a b with
  | .lt => a
  | .gt => b
  | .eq => if a.sign then a else b
def maxX (a b : Num) : Num :=
  if a.isNan || b.isNan then .nan else
  match cmpX a b with
  | .lt => b
  | .gt => a
  | .eq => if a.sign then b else a

/-! ### Keys of stochastic rounding (R125) -/

/-- Launch seed, tile coordinates and extent of the tile in progress. -/
structure TileKey where
  seed : W64
  tm : Nat
  tn : Nat
  tb : Nat
  rows : Nat
  cols : Nat
  deriving DecidableEq, Repr
def TileKey.bits (k : TileKey) (row col step phase : Nat) : Nat :=
  let c := BitVec.ofNat 64 (k.tm % 65536 * 2 ^ 48 + k.tn % 65536 * 2 ^ 32 + k.tb % 65536 * 2 ^ 16 + row % 65536)
  let d := BitVec.ofNat 64 (col % 65536 * 2 ^ 48 + step % 65536 * 2 ^ 32 + phase * 2 ^ 28)
  (mix (k.seed ^^^ mix (c ^^^ mix d))).toNat / 2 ^ 48

/-! ### LF8 (R111 to R113) -/

def decLf8 (c : W8) : Num :=
  let e := fld c 3 4
  let f := fld c 0 3
  if e = 0 then .fin (bit c 7) f (-9) else .fin (bit c 7) (8 + f) ((e : Int) - 10)
/-- A decoded element, with whether it saturated and whether it was invalid. -/
def lf8Scaled (c : W8) (scale : Num) : W16 × Bool × Bool :=
  let x := mulX (decLf8 c) scale
  match x.1.round fp16 false rmNE with
  | .inf s => if scale.isInf then (enc16 (.inf s), false, x.2) else ((if s then 0xFBFF else 0x7BFF), true, x.2)
  | n => (enc16 n, false, x.2)

/-! ### Integer roots and quotients, as a truncated value with whether something is left -/

/-- floor of the square root, bit by bit from bit k - 1. -/
def isqrtGo : Nat → Nat → Nat → Nat
  | 0, _, r => r
  | k + 1, n, r => isqrtGo k n (if (r + 2 ^ k) * (r + 2 ^ k) ≤ n then r + 2 ^ k else r)
def isqrt (n : Nat) : Nat := isqrtGo (bitlen n / 2 + 1) n 0

/-- 1 / (m * 2^e), rounded. -/
def recipNum (f : Fmt) (rm : Rm) (s : Bool) (m : Nat) (e : Int) : Num :=
  let k := bitlen m + 80
  roundTo f false rm false (2 ^ k % m != 0) s (2 ^ k / m) (-(k : Int) - e)
/-- A quotient of positive finite values, rounded. -/
def divNum (f : Fmt) (rm : Rm) (m : Nat) (e : Int) (n : Nat) (g : Int) : Num :=
  let k := bitlen n + 80
  roundTo f false rm false (m * 2 ^ k % n != 0) false (m * 2 ^ k / n) (e - k - g)
/-- The square root of m * 2^e, e made even first. -/
def sqrtNum (f : Fmt) (rm : Rm) (m : Nat) (e : Int) : Num :=
  let (m, e) := if e % 2 = 0 then (m, e) else (2 * m, e - 1)
  let n := m * 2 ^ 160
  let q := isqrt n
  roundTo f false rm false (q * q != n) false q (e / 2 - 80)
def rsqrtNum (f : Fmt) (rm : Rm) (m : Nat) (e : Int) : Num :=
  let (m, e) := if e % 2 = 0 then (m, e) else (2 * m, e - 1)
  let k := bitlen m / 2 + 80
  let n := 2 ^ (2 * k) / m
  let q := isqrt n
  roundTo f false rm false (q * q * m != 2 ^ (2 * k)) false q (-(k : Int) - e / 2)

/-! ### Exact functions to FP16 (R138): 320-bit fixed point, truncated to 256 bits with something left (log 19) -/

/-- floor (2^320 ln 2) -/
def ln2fix : Nat := 1480553391661173448385607439722553250922680800745876974795605978609098082859138712941075737848984
/-- floor (2^320 sqrt (2 / pi)) -/
def g0fix : Nat := 1704271078036369527640793026491347494927463643304879350637741155034799905963359738391626168040302
def expTaylor (r : Nat) : Nat → Nat → Nat → Nat → Nat
  | 0, _, _, acc => acc
  | n + 1, k, t, acc =>
    let t := t * r / 2 ^ 320 / k
    expTaylor r n (k + 1) t (acc + t)
/-- 2^320 e^r for 0 ≤ r < 1, r in units of 2^-320. -/
def expFrac (r : Nat) : Nat := expTaylor r 80 1 (2 ^ 320) (2 ^ 320)
/-- 2^320 e^x for x = n / 2^320, x from -250 to 300 (beyond: 0, or 2^752, where every result is at a bound). -/
def expFix (n : Int) : Nat :=
  if n < -(250 * 2 ^ 320 : Int) then 0 else if (300 * 2 ^ 320 : Int) < n then 2 ^ 752 else
  let k := n / (ln2fix : Int)
  shl (expFrac (n % (ln2fix : Int)).toNat) k
/-- x = (-1)^s m 2^e in units of 2^-320 (exact for FP16). -/
def fixOf (s : Bool) (m : Nat) (e : Int) : Int :=
  let v : Int := (shl m (e + 320) : Nat)
  if s then -v else v
/-- tanh of v / 2^320 for v ≥ 0, in the same units: 1 - 2 / (e^2v + 1), always below 1. -/
def tanhFix (v : Nat) : Nat :=
  let d := expFix (2 * v) + 2 ^ 320
  let q := 2 ^ 641 / d + 1
  if q < 2 ^ 320 then 2 ^ 320 - q else 0
def sigFix (n : Int) : Nat := 2 ^ 640 / (expFix (-n) + 2 ^ 320)
/-- A positive inexact value v / 2^320 rounded to FP16. -/
def fixRound (rm : Rm) (s : Bool) (v : Nat) : Num := roundTo fp16 false rm false true s (v / 2 ^ 64) (-256)

/-- The function of R137 on a finite nonzero FP16 value. -/
def act16 (fn : Nat) (rm : Rm) (s : Bool) (m : Nat) (e : Int) : Num :=
  let x := fixOf s m e
  match fn with
  | 3 =>
    -- 2^x: exact at integers
    if 24 < x / 2 ^ 320 then fixRound rm false (2 ^ 350) else
    if x < -(250 * 2 ^ 320 : Int) then fixRound rm false 0 else
    let n := x / 2 ^ 320
    let f := (x % 2 ^ 320).toNat
    if f = 0 then roundTo fp16 false rm false false false 1 n
    else fixRound rm false (shl (expFrac (f * ln2fix / 2 ^ 320)) n)
  | 4 => fixRound rm false (expFix x)
  | 5 => recipNum fp16 rm s m e
  | 6 => sqrtNum fp16 rm m e
  | 7 => rsqrtNum fp16 rm m e
  | 8 =>
    let y := sigFix x
    fixRound rm false (if 2 ^ 320 ≤ y + 1 then 2 ^ 320 - 1 else y)
  | 9 => fixRound rm s (tanhFix x.natAbs)
  | 10 =>
    let y := min (sigFix x) (2 ^ 320 - 1)
    fixRound rm s (x.natAbs * y / 2 ^ 320)
  | _ =>
    -- 0.5 a (1 + tanh (sqrt (2/pi) (a + 0.044715 a^3)))
    let a : Nat := x.natAbs
    let a3 : Nat := a * a / 2 ^ 320 * a / 2 ^ 320
    let v : Nat := (a + a3 * 44715 / 1000000) * g0fix / 2 ^ 320
    if s then
      -- 1 - tanh v = 2 / (e^2v + 1)
      fixRound rm true (a * (2 ^ 641 / (expFix (2 * v) + 2 ^ 320)) / 2 ^ 321)
    else fixRound rm false (a * (2 ^ 320 + tanhFix v) / 2 ^ 321)

/-! ### FP32 functions of R139 -/

def r32 (v : W32) : Num := dec32 v
def add32 (rm : Rm) (a b : Num) : Num := (addX a b).1.round fp32 false rm
def mul32 (rm : Rm) (a b : Num) : Num := (mulX a b).1.round fp32 false rm
def fma32 (rm : Rm) (a b c : Num) : Num := (fmaX a b c).1.round fp32 false rm
def div32 (rm : Rm) (a b : Num) : Num :=
  match a, b with
  | .fin s m e, .fin t n g => if n = 0 then .inf (s != t) else (divNum fp32 rm m e n g).withSign (s != t)
  | .fin s _ _, .inf t => .zero (s != t)
  | _, _ => .nan

/-- t[j] = 2^(j/64) in FP32. -/
def exp2Table : List W32 :=
  [0x3F800000,0x3F8164D2,0x3F82CD87,0x3F843A29,0x3F85AAC3,0x3F871F62,0x3F88980F,0x3F8A14D5,
   0x3F8B95C2,0x3F8D1ADF,0x3F8EA43A,0x3F9031DC,0x3F91C3D3,0x3F935A2B,0x3F94F4F0,0x3F96942D]
  ++ [0x3F9837F0,0x3F99E046,0x3F9B8D3A,0x3F9D3EDA,0x3F9EF532,0x3FA0B051,0x3FA27043,0x3FA43516,
   0x3FA5FED7,0x3FA7CD94,0x3FA9A15B,0x3FAB7A3A,0x3FAD583F,0x3FAF3B79,0x3FB123F6,0x3FB311C4]
  ++ [0x3FB504F3,0x3FB6FD92,0x3FB8FBAF,0x3FBAFF5B,0x3FBD08A4,0x3FBF179A,0x3FC12C4D,0x3FC346CD,
   0x3FC5672A,0x3FC78D75,0x3FC9B9BE,0x3FCBEC15,0x3FCE248C,0x3FD06334,0x3FD2A81E,0x3FD4F35B]
  ++ [0x3FD744FD,0x3FD99D16,0x3FDBFBB8,0x3FDE60F5,0x3FE0CCDF,0x3FE33F89,0x3FE5B907,0x3FE8396A,
   0x3FEAC0C7,0x3FED4F30,0x3FEFE4BA,0x3FF28177,0x3FF5257D,0x3FF7D0DF,0x3FFA83B3,0x3FFD3E0C]

def overflow32 (rm : Rm) : Num := if rm.mode = 1 then .fin false (2 ^ 24 - 1) 104 else .inf false
/-- 2^(h + e), last rounding in `fin`. -/
def exp2core (fin : Rm) (h e : Num) : Num :=
  if cmpX h (.fin false 128 0) != .lt then overflow32 fin
  else if cmpX h (.fin true 151 0) == .lt then .zero false
  else match h with
  | .fin s m x =>
    let l := min x 0
    let num : Int := (m * 2 ^ (x - l).toNat : Nat)
    let num := if s then -num else num
    let one : Int := (2 ^ (-l).toNat : Nat)
    let n := num / one
    let f := num % one
    let j := (64 * f / one).toNat
    let r := Num.ofInt (64 * f - j * one) (l - 6)
    let r := add32 rmNE r e
    let p := fma32 rmNE r (r32 0x3D635847) (r32 0x3E75FDF0)
    let p := fma32 rmNE r p (r32 0x3F317218)
    let p := mul32 rmNE r p
    let t := r32 (exp2Table.getD j 0)
    match fma32 rmNE t p t with
    | .fin s m e => roundTo fp32 false fin false false s m (e + n)
    | y => y
  | _ => .nan
def exp32 (fin : Rm) (x : Num) : Num :=
  let lh := r32 0x3FB8AA3B
  let h := mul32 rmNE x lh
  if h.isInf then (if h.sign then .zero false else overflow32 fin) else
  let e := fma32 rmNE x lh h.neg
  let e := fma32 rmNE x (r32 0x32A57060) e
  exp2core fin h e
def sigmoid32 (fin : Rm) (x : Num) : Num := div32 fin .one (add32 rmNE .one (exp32 rmNE x.neg))
def tanh32 (fin : Rm) (x : Num) : Num :=
  let a := x.abs
  let y :=
    if cmpX a (.fin false 1 (-2)) == .lt then
      let s := mul32 rmNE a a
      let p := fma32 rmNE s (r32 0x3CB327A4) (r32 0xBD5D0DD1)
      let p := fma32 rmNE s p (r32 0x3E088889)
      let p := fma32 rmNE s p (r32 0xBEAAAAAB)
      let p := mul32 rmNE s p
      fma32 fin a p a
    else
      let u := exp32 rmNE (mul32 rmNE (.fin false 1 1) a)
      let d := add32 rmNE u .one
      let q := div32 rmNE (.fin false 1 1) d
      add32 fin .one q.neg
  y.withSign x.sign
def silu32 (fin : Rm) (x : Num) : Num := mul32 fin x (sigmoid32 rmNE x)
def gelu32 (fin : Rm) (x : Num) : Num :=
  let s := mul32 rmNE x x
  let t := fma32 rmNE s (r32 0x3D122279) (r32 0x3F4C422A)
  let v := mul32 rmNE x t
  let h := add32 rmNE .one (tanh32 rmNE v)
  (mulX (mulX x h).1 (.fin false 1 (-1))).1.round fp32 false fin
def act32 (fn : Nat) (rm : Rm) (s : Bool) (m : Nat) (e : Int) : Num :=
  let x := Num.fin s m e
  match fn with
  | 3 => exp2core rm x (.zero false)
  | 4 => exp32 rm x
  | 5 => recipNum fp32 rm s m e
  | 6 => sqrtNum fp32 rm m e
  | 7 => rsqrtNum fp32 rm m e
  | 8 => sigmoid32 rm x
  | 9 => tanh32 rm x
  | 10 => silu32 rm x
  | _ => gelu32 rm x

/-- ACT of one element (R137, R140): `half` for FP16. -/
def actNum (half : Bool) (fn : Nat) (rm : Rm) (a b c : Num) : Res :=
  let f := if half then fp16 else fp32
  if fn = 2 then
    -- CLAMP
    (minX (maxX a b) c, false)
  else
  match a with
  | .nan => (.nan, false)
  | .inf s =>
    match fn with
    | 0 => if s then (.zero false, false) else (.inf false, false)
    | 1 => if s then
        let x := mulX a b
        (x.1.round f false rm, x.2) else (.inf false, false)
    | 3 | 4 => if s then (.zero false, false) else (.inf false, false)
    | 5 => (.zero s, false)
    | 6 => if s then (.nan, true) else (.inf false, false)
    | 7 => if s then (.nan, true) else (.zero false, false)
    | 8 => if s then (.zero false, false) else (.one, false)
    | 9 => (Num.one.withSign s, false)
    | _ => if s then (.zero true, false) else (.inf false, false)
  | .fin s 0 _ =>
    match fn with
    | 0 => (.zero false, false)
    | 3 | 4 => (.one, false)
    | 5 | 7 => (.inf s, false)
    | 8 => (.fin false 1 (-1), false)
    | _ => (.zero s, false)
  | .fin s m e =>
    match fn with
    | 0 => if s then (.zero false, false) else (a, false)
    | 1 => if s then
        let x := mulX a b
        (x.1.round f false rm, x.2) else (a, false)
    | _ =>
      if (fn == 6 || fn == 7) && s then (.nan, true)
      else ((if half then act16 fn rm s m e else act32 fn rm s m e), false)

end Sys2Proof.Machine
end

