-- ==== Sys2Proof/Machine/Agents.lean ====
section
/-! DEFINITION. Copies of coherent agents (10 R259, R266, R267; 03 R94; 14 R361): their lines, ways, holds, the lines asked
for, what leaves to make room, and Data that arrives. -/

namespace Sys2Proof.Machine

/-! ### Copies and lines asked for -/

def lineNo (n : Nat) : LineNo := BitVec.ofNat 58 n
def MemState.copies (m : MemState) (a : Nat) : PMap Copy := SMap.get [] m.agents a
def Blk.copy (b : Blk) (a line : Nat) : Option Copy := PMap.find line (b.mem.copies a)
def Blk.setCopies (a : Nat) (c : PMap Copy) (b : Blk) : Blk :=
  { b with mem := { b.mem with agents := SMap.set [] b.mem.agents a c } }
def Blk.putCopy (a line : Nat) (c : Copy) (b : Blk) : Blk := b.setCopies a (PMap.put line c (b.mem.copies a))
/-- A use is numbered, for least recently used. -/
def Blk.stamp (b : Blk) : Blk := { b with mem := { b.mem with clock := b.mem.clock + 1 } }
def Blk.missOf (b : Blk) (a line : Nat) : Option Miss := b.mem.misses.find? fun m => m.agent == a && m.line == line
def Blk.missing (b : Blk) (a line : Nat) : Bool := (b.missOf a line).isSome
def Blk.addMiss (m : Miss) (b : Blk) : Blk := { b with mem := { b.mem with misses := b.mem.misses ++ [m] } }
def Blk.delMiss (a line : Nat) (b : Blk) : Blk :=
  { b with mem := { b.mem with misses := b.mem.misses.filter fun m => !(m.agent == a && m.line == line) } }
/-- An agent asks for a line, unless it has it or has asked: RdS, for a command of queue q (R262, R274). -/
def Blk.askLine (a : AgentId) (line : Nat) (q : Option Nat) (b : Blk) : Blk :=
  if (b.copy a line).isSome || b.missing a line then b else
  (b.addMiss { agent := a.val, line := line, queue := q, seat := 0 }).send (.rds a (lineNo line))

/-! ### Room, replacement, arrival -/

/-- The copy goes. -/
def Blk.dropCopy (a line : Nat) (b : Blk) : Blk := b.setCopies a (PMap.del line (b.mem.copies a))
/-- A line that an invalidation has taken is no longer at hand for a frozen gather, which must fetch it again; one that is only
replaced stays at hand (R94; log 54). -/
def Blk.forget (a line : Nat) (b : Blk) : Blk :=
  if a < 64 then b.modEng a fun v => { v with got := v.got.filter fun g => g.1.toNat != line } else b
/-- The line was used. -/
def Blk.touch (a line : Nat) (b : Blk) : Blk :=
  match b.copy a line with
  | some c => (b.putCopy a line { c with used := b.mem.clock }).stamp
  | none => b

/-- The line with the oldest use among entries of a list. -/
def oldest {α : Type} (used : α → Nat) : List (Nat × α) → Option (Nat × α)
  | [] => none
  | x :: r =>
    match oldest used r with
    | none => some x
    | some y => if used y.2 < used x.2 then some y else some x
/-- Copies of the set that a line of agent a falls in: 64 sets in a gather and in a descriptor cache (R94, R361). -/
def Blk.copySet (b : Blk) (a line : Nat) : PMap Copy := (b.mem.copies a).filter fun c => c.1 % 64 == line % 64
/-- Ways a line may take in a cache: 8 in a gather cache; in a descriptor cache 16, the first 4 for taut queues only. -/
def cacheWays (a : Nat) (taut : Bool) : List Nat :=
  if a < 64 then range 8 else (range 16).filter fun i => taut || decide (4 ≤ i)
/-- The way a new line takes, and the line that leaves it: a free way, else the least recently used line within the
ways the read may use; one whose won-line hold has ended before one that is held (log 117). -/
def Blk.wayFor (b : Blk) (a line : Nat) (taut : Bool) : Nat × Option (Nat × Copy) :=
  let set := b.copySet a line
  let ways := cacheWays a taut
  match ways.find? fun i => !set.any fun c => c.2.way == i with
  | some i => (i, none)
  | none =>
    let mine := set.filter fun c => ways.contains c.2.way
    match (oldest Copy.used (mine.filter fun c => !c.2.hold)).orElse fun _ => oldest Copy.used mine with
    | some c => (c.2.way, some c)
    | none => (0, none)
def Copy.dirtyData (c : Copy) : Option Line := if c.st = .m ∨ c.st = .o then some c.data else none
def Blk.answerInv (a : AgentId) (line : LineNo) (c : Copy) (b : Blk) : Blk :=
  ((b.dropCopy a line.toNat).forget a line.toNat).send (.invack a line c.dirtyData)
def Blk.answerFwdInv (a : AgentId) (line : LineNo) (c : Copy) (b : Blk) : Blk :=
  let b : Blk := { b with mem := { b.mem with cohFwd := satInc b.mem.cohFwd } }
  (((b.send (.data (some a) (.agent 68) line c.data true)).dropCopy a line.toNat).forget a line.toNat).send (.invack a line none)
/-- A clean copy leaves: a deferred invalidation is answered, else the home is told (R267). -/
def Blk.evictLine (a : AgentId) (line : Nat) (c : Copy) (b : Blk) : Blk :=
  match c.defer with
  | some none => b.answerInv a (lineNo line) c
  | some (some _) => b.answerFwdInv a (lineNo line) c
  | none => (b.dropCopy a line).send (.evict a (lineNo line))
/-- A line is invalidated by something other than its home: it leaves as a replaced one does, and is forgotten (log 152). -/
def Blk.invalidate (a line : Nat) (b : Blk) : Blk :=
  match b.copy a line with
  | some c => if h : a < 69 then (b.evictLine ⟨a, h⟩ line c).forget a line else b
  | none => b
/-- Every line of a cache is invalidated. -/
def Blk.emptyCache (a : Nat) (b : Blk) : Blk := ((b.mem.copies a).map (·.1)).foldl (fun b l => b.invalidate a l) b
/-- The line takes its way in a cache, or its place in the window's buffer, and its 32 cycles begin (R266). -/
def Blk.install (a : AgentId) (line : Nat) (d : Line) (st : CopySt) (who : Nat) (taut : Bool) (b : Blk) : Blk :=
  let y := match b.copy a line with
    | some c => (c.way, b)
    | none => if a.val = 68 then (0, b) else
      match b.wayFor a line taut with
      | (i, some v) => (i, b.evictLine a v.1 v.2)
      | (i, none) => (i, b)
  (y.2.putCopy a line { st := st, data := d, hold := true, used := y.2.mem.clock, who := who, way := y.1 }).stamp
/-- Data reaches a caching agent, which installs the line and sends Ack (R267). A line that was invalidated meanwhile leaves at
once (log 152). -/
def Blk.receive (a : AgentId) (line : Nat) (d : Line) (st : CopySt) (who : Nat) (taut : Bool) (b : Blk) : Blk :=
  let void := b.mem.misses.any fun m => m.agent == a.val && m.line == line && m.void
  let b := b.delMiss a line
  if void then (b.send (.ack a (lineNo line))).send (.evict a (lineNo line))
  else (b.install a line d st who taut).send (.ack a (lineNo line))

end Sys2Proof.Machine
end

