-- ==== Sys2Proof/Machine/Checks.lean ====
section
/-! DEFINITION. The checks of a parsed slot, steps 1 to 8 of R181, in order; the first that fails decides CODE and DETAIL
(R467, R203). The byte offset reported is where the offending field begins (log 17). -/

namespace Sys2Proof.Machine

/-- A failed check. -/
abbrev Bad := W8 × Nat

/-- Of several failures within a step, the one at the lowest offset (earlier in the list on equal offsets). -/
def firstBad : List (Nat × Bad) → Option Bad
  | [] => none
  | (o, x) :: r =>
    let rec go (o : Nat) (x : Bad) : List (Nat × Bad) → Bad
      | [] => x
      | (p, y) :: r => if p < o then go p y r else go o x r
    some (go o x r)

def orBad (a b : Option Bad) : Option Bad := a.orElse fun _ => b
def badIf (c : Bool) (o : Nat) (x : Bad) : List (Nat × Bad) := if c then [(o, x)] else []

/-- Step 2. -/
def checkReserved (s : Line) (l : List (Nat × Nat × Nat)) : Option Bad :=
  let mask := definedMask l
  let rsv := outside s.toNat mask
  let at' := reservedByte mask 512 rsv
  if Slot.opcode s = opTIE && decide (fAt s 0 16 2 = 0) then some (Code.cmdReserved, if rsv = 0 then 2 else min 2 at')
  else if rsv = 0 then none else some (Code.cmdReserved, at')

/-- Knot fields in use: offset and knot (steps 3 and 4). -/
def knotFields (s : Line) : List (Nat × Nat) :=
  let op := Slot.opcode s
  (if op = opHITCH || op = opTIE then [(4, Slot.knot4 s)] else if op = opSTAND then [(0x10, fAt s 0x10 0 20)] else [])
  ++ (if tieOpc (Slot.tieA s) = 0 then [] else [(0x30, tieKnot (Slot.tieA s))])
  ++ (if tieOpc (Slot.tieB s) = 0 then [] else [(0x38, tieKnot (Slot.tieB s))])

def checkKnots (w : Weave) (owner : Option Nat) (s : Line) : Option Bad :=
  let fs := knotFields s
  orBad ((fs.find? fun f => decide (f.2 > 0xFFFF)).map fun f => (Code.knotRange, f.2 + 2 ^ 24 * f.1))
    ((fs.find? fun f => w.knotOwner f.2 != owner || owner == none).map fun f => (Code.knotOwner, f.2 + 2 ^ 24 * f.1))

/-- A completion tie that passes steps 3 and 4, its own reserved bits 0 (R182). -/
def tieGood (w : Weave) (owner : Option Nat) (t : W64) : Bool :=
  tieOpc t != 0 && tieRsv t == 0 && decide (tieKnot t ≤ 0xFFFF) && owner != none && w.knotOwner (tieKnot t) == owner

def esizeOf (s : Line) : Nat := 2 ^ fAt s 0 17 2

/-- Step 6. An ENGINE of UNSTAND beyond the engines of the block is out of range (log 164). -/
def checkRange (w : Weave) (q : Nat) (s : Line) : Option Bad :=
  let op := Slot.opcode s
  let tieBad := fun (off : Nat) (t : W64) =>
    badIf (tieOpc t == 0 && tieKnot t != 0) off (Code.cmdRange, off)
      ++ badIf (tieOpc t == 0 && fld t 32 32 != 0) (off + 4) (Code.cmdRange, off + 4)
  let ties := tieBad 0x30 (Slot.tieA s) ++ tieBad 0x38 (Slot.tieB s)
  let allowed := w.queueEngines q
  let inPart := allowed.contains (Slot.engine s)
  let body :=
    if op = opLAUNCH then badIf (Slot.q64 s 8 % 64 != 0) 8 (Code.memAlign, 8)
    else if op = opSTAND then
      let rs := fAt s 0x14 0 17
      badIf (!inPart || w.isArb (Slot.engine s)) 4 (Code.cmdRange, 4)
      ++ badIf (Slot.q64 s 8 % 64 != 0) 8 (Code.memAlign, 8)
      ++ badIf (rs != 0 && (decide (rs < 64) || decide (rs > 65536) || !isPow2 rs)) 0x14 (Code.cmdRange, 0x14)
      ++ badIf (Slot.q64 s 0x18 == 0) 0x18 (Code.standStep, 0)
      ++ badIf (rs != 0 && Slot.q64 s 0x28 % 64 != 0) 0x28 (Code.memAlign, 0x28)
      ++ badIf (rs == 0 && Slot.q64 s 0x28 != 0) 0x28 (Code.cmdRange, 0x28)
    else if op = opUNSTAND then badIf (decide (Slot.engine s > 0x3F)) 4 (Code.cmdRange, 4)
    else if op = opCOPY then
      let src := Slot.q64 s 8
      let dst := Slot.q64 s 0x10
      let n := Slot.q64 s 0x18
      badIf (decide (src + n > 2 ^ 64) || decide (dst + n > 2 ^ 64)) 0x18 (Code.cmdRange, 0x18)
      ++ badIf (decide (0 < n) && decide (src < dst + n) && decide (dst < src + n)) 0x18 (Code.copyOverlap, 0)
    else if op = opFILL then
      badIf (decide (Slot.q64 s 8 + Slot.q64 s 0x10 > 2 ^ 64)) 0x10 (Code.cmdRange, 0x10)
    else if op = opIMEM || op = opWS then
      let all := Slot.flag16 s
      let len := fAt s 0x10 0 16
      let ln := Slot.d32 s 0x14
      let dst := fAt s 0x10 0 20
      badIf (if all then Slot.engine s != 0 else !inPart) 4 (Code.cmdRange, 4)
      ++ badIf (Slot.q64 s 8 % 64 != 0) 8 (Code.memAlign, 8)
      ++ (if op = opIMEM then
            badIf (len == 0 || decide (len > 32768) || len % 32 != 0) 0x10 (Code.imemLength, len)
          else badIf (dst % 64 != 0) 0x10 (Code.memAlign, 0x10)
            ++ badIf (ln % 64 != 0 || decide (dst + ln > 786432)) 0x14 (Code.cmdRange, 0x14))
    else if op = opWATCH then
      let es := esizeOf s
      let stats := !Slot.flag16 s
      badIf (stats && (es == 1 || es == 8)) 0 (Code.watchFormat, 2 * fAt s 0 17 2)
      ++ badIf (Slot.q64 s 8 % es != 0) 8 (Code.memAlign, 8)
      ++ badIf (Slot.q64 s 0x10 % 32 != 0) 0x10 (Code.memAlign, 0x10)
      ++ badIf (Slot.d32 s 0x20 % es != 0) 0x20 (Code.memAlign, 0x20)
      ++ badIf (Slot.d32 s 0x24 % es != 0) 0x24 (Code.memAlign, 0x24)
      ++ badIf (Slot.d32 s 0x28 % es != 0) 0x28 (Code.memAlign, 0x28)
    else []
  firstBad (body ++ ties)

/-- Step 7; no descriptor is a Tether error response. A grid beyond 65,536 tiles in a dimension is reported at that dimension, M,
N or B, also beside a dimension of 0 (the model's choice, log 142). -/
def checkDesc (taut stand : Bool) (d : Option Desc) : Option Bad :=
  match d with
  | none => some (Code.launchDesc, 1)
  | some d =>
    let at' := fun (off : Nat) => off + 2 ^ 16
    let mask := definedMask descDefined
    let rsv := outside d.toNat mask
    let rsvAt := reservedByte mask 1024 rsv
    let l := launchOf d 0
    let grid := fun (c : Nat) => if stand then c != 1 else decide (c > 65536)
    firstBad (badIf (d.magic != 0x4B4C4E43) 0 (Code.launchDesc, 0)
      ++ badIf (rsv != 0) rsvAt (Code.cmdReserved, at' rsvAt)
      ++ badIf (decide (d.ndesc > 8)) 6 (Code.cmdRange, at' 6)
      ++ badIf (grid l.tm) 8 (Code.launchRange, at' 8)
      ++ badIf (grid l.tn) 0xC (Code.launchRange, at' 0xC)
      ++ badIf (grid l.b) 0x10 (Code.launchRange, at' 0x10)
      ++ badIf (d.winBase % 64 != 0) 0x20 (Code.cmdRange, at' 0x20)
      ++ badIf (d.winSize % 64 != 0 || decide (d.winBase + d.winSize > 786432)) 0x24 (Code.cmdRange, at' 0x24)
      ++ badIf (d.ndesc != 0 && (d.descLm % 64 != 0 || decide (d.descLm < d.winBase)
          || decide (d.descLm + 64 * d.ndesc > d.winBase + d.winSize))) 0x28 (Code.cmdRange, at' 0x28)
      ++ badIf (!taut && d.declNs != 0) 0x2C (Code.cmdRange, at' 0x2C))

/-- Step 8 (R187, R188). -/
def checkClass (w : Weave) (q : Nat) (s : Line) (d : Desc) : Option Bad :=
  let p := w.queuePart q
  let taut := (p.map (·.taut)).getD false
  let num := ((w.qmap q).map (·.part)).getD 0 % 16
  let stand := Slot.opcode s = opSTAND
  let classBad := if stand then !taut else Slot.flag17 s != taut
  let twinBad := Slot.flag16 s && (if stand then (w.pairOf (Slot.engine s)).isNone else
    !(taut && (p.map (·.twinOk)).getD false && (w.twins.any fun t => ((p.map WvPart.mask).getD 0).getLsbD t.a)))
  let maxNs := (p.map (·.maxTileNs)).getD 0
  if classBad then some (Code.launchClass, b2n taut)
  else if twinBad then some (Code.twinRefused, num)
  else if taut && decide (d.declNs > maxNs) then some (Code.tautTileLong, d.declNs + 2 ^ 16 * maxNs)
  else none

/-- Steps 1, 3, 4 and 5: those the scoreboard repeats in hardware (R369), with their step numbers. -/
def hwCheck (w : Weave) (grants : W32) (q : Nat) (s : Line) : Option (Nat × Bad) :=
  let op := Slot.opcode s
  if (slotDefined op).isNone then some (1, (Code.illegalOpcode, op.toNat)) else
  match checkKnots w (w.owner q) s with
  | some x => some ((if x.1 = Code.knotRange then 3 else 4), x)
  | none => if op = opIMEM && Slot.flag17 s && !grants.getLsbD 1 then some (5, (Code.expertDenied, 2)) else none

/-- Steps 1 to 6: those that need no descriptor. -/
def checkEarly (w : Weave) (grants : W32) (q : Nat) (s : Line) : Option Bad :=
  match slotDefined (Slot.opcode s) with
  | none => some (Code.illegalOpcode, (Slot.opcode s).toNat)
  | some l => orBad (checkReserved s l) <| orBad ((hwCheck w grants q s).map (·.2)) (checkRange w q s)
/-- LAUNCH and STAND have a descriptor. -/
def hasDesc (op : W8) : Bool := op == opLAUNCH || op == opSTAND
/-- Steps 1 to 8. -/
def checkSlot (w : Weave) (grants : W32) (q : Nat) (s : Line) (d : Option Desc) : Option Bad :=
  orBad (checkEarly w grants q s) <|
    if hasDesc (Slot.opcode s) then
      orBad (checkDesc (w.queueTaut q) (Slot.opcode s = opSTAND) d) (d.bind fun d => checkClass w q s d)
    else none

end Sys2Proof.Machine
end

