-- ==== Sys2Proof/Machine/Work.lean ====
section
/-! DEFINITION. Commands at work: ties and waiters (08), completion (06 R166), entry into the scoreboard, the order of a
queue (R213), slot reading (06 R165, 14 R360). Shared by the meanings of the command, queue, knot and sequencer families. -/

namespace Sys2Proof.Machine

/-! ### Scoreboard and waiter entries -/

def Blk.entry (b : Blk) (q n : Nat) : Option SbEntry := b.sb.find? fun e => e.q == q && e.n == n
def Blk.modEntry (b : Blk) (q n : Nat) (f : SbEntry → SbEntry) : Blk :=
  { b with sb := b.sb.map fun e => if e.q == q && e.n == n then f e else e }
def Blk.lower (b : Blk) (q n : Nat) : List SbEntry := b.sb.filter fun e => e.q == q && decide (e.n < n)
def SbEntry.serial (e : SbEntry) : Bool := Slot.serial e.slot

/-- Entries of a pool of `total` with per-partition reserves that `use` draws on: is one available to partition p of
the weave (none: the pool)? (R209; the scoreboard counts the same way, R158.) -/
def poolAvail (w : Weave) (total : Nat) (reserve : WvPart → Nat) (use : List (Option Nat)) (p : Option WvPart) : Bool :=
  let tauts := w.parts.filter (·.taut)
  let used := fun (n : Nat) => use.countP fun u => u == some n
  let poolSize := total - (tauts.map reserve).sum
  let tautUsed := (tauts.map fun t => used t.num).sum
  let excess := (tauts.map fun t => used t.num - reserve t).sum
  let poolUsed := (use.length - tautUsed) + excess
  (match p with
   | some t => t.taut && decide (used t.num < reserve t)
   | none => false) || decide (poolUsed < poolSize)
/-- Free entries of the shared pool (R438). -/
def poolFree (w : Weave) (total : Nat) (reserve : WvPart → Nat) (use : List (Option Nat)) : Nat :=
  let tauts := w.parts.filter (·.taut)
  let used := fun (n : Nat) => use.countP fun u => u == some n
  total - (tauts.map reserve).sum - ((use.length - (tauts.map fun t => used t.num).sum)
    + (tauts.map fun t => used t.num - reserve t).sum)

def Blk.partNo (b : Blk) (q : Nat) : Option Nat := (b.wv.cur.queuePart q).map (·.num)
def Blk.sbUse (b : Blk) : List (Option Nat) := b.sb.map fun e => b.partNo e.q
/-- A STAND that will park when it binds (log 18). -/
def SbEntry.willPark (e : SbEntry) : Bool := e.opcode == opSTAND && e.code == 0 && e.ending.isNone
/-- Waiter entries that are in use, or promised to a STAND that has entered (R210). -/
def Blk.waitUse (b : Blk) : List (Option Nat) :=
  (b.kn.waiters.map fun w => b.partNo w.q) ++ (b.sb.filter SbEntry.willPark).map fun e => b.partNo e.q
def Blk.sbAvail (b : Blk) (q : Nat) : Bool :=
  poolAvail b.wv.cur 2048 (·.sbReserve) b.sbUse (b.wv.cur.queuePart q)
def Blk.waitAvail (b : Blk) (q : Nat) : Bool :=
  poolAvail b.wv.cur 8192 (·.waitReserve) b.waitUse (b.wv.cur.queuePart q)
def Blk.waitersOn (b : Blk) (k : Nat) : Nat := b.kn.waiters.countP fun w => w.knot == k

def Blk.park (w : Waiter) (b : Blk) : Blk :=
  let ws := b.kn.waiters ++ [w]
  { b with kn := { b.kn with waiters := ws, peak := max b.kn.peak ws.length } }
def Waiter.is (w : Waiter) (stand : Bool) (q n : Nat) : Bool := w.stand == stand && w.q == q && w.n == n
def Blk.unpark (stand : Bool) (q n : Nat) (b : Blk) : Blk :=
  { b with kn := { b.kn with waiters := b.kn.waiters.filter fun w => !w.is stand q n } }
def Blk.unwake (stand : Bool) (q n : Nat) (b : Blk) : Blk :=
  { b with kn := { b.kn with wakes := b.kn.wakes.filter fun w => !w.is stand q n } }

/-! ### Knots -/

/-- The change a tie makes (R205). -/
def Knot.tied (k : Knot) (t : Tie) : Knot :=
  match t.op with
  | .set => { k with val := t.val, flags := t.flags }
  | .add => { k with val := k.val + t.val, flags := k.flags ||| t.flags }
  | .max => { k with val := if k.val.toNat < t.val.toNat then t.val else k.val, flags := k.flags ||| t.flags }
  | .flagOnly => { k with flags := k.flags ||| t.flags }

/-- A HITCH against a knot (R192): the releasing flags with DETAIL of R203, or flags 0 when the value test holds. -/
def evalHitch (s : Line) (knot : Nat) (k : Knot) : Option (BitVec 4 × W64) :=
  let v := Slot.q64 s 8
  if v = 0 then some (0, 0) else
  let rel := k.flags &&& BitVec.ofNat 4 (fAt s 4 24 4)
  if rel ≠ 0 then some (rel, BitVec.ofNat 64 (knot + 2 ^ 20 * k.flags.toNat + 2 ^ 32 * (k.val.toNat % 2 ^ 32)))
  else if (if Slot.flag16 s then k.val.toNat == v else decide (v ≤ k.val.toNat)) then some (0, 0) else none

/-- A HITCH may be evaluated: with SERIAL, once every earlier command of its queue has completed (R211). -/
def Blk.hitchOpen (b : Blk) (e : SbEntry) : Bool := !e.serial || (b.lower e.q e.n).isEmpty

def Blk.findStand (b : Blk) (q n : Nat) : Option Standing := b.stand.find? fun s => s.q == q && s.n == n
def Blk.modStand (b : Blk) (q n : Nat) (f : Standing → Standing) : Blk :=
  { b with stand := b.stand.map fun s => if s.q == q && s.n == n then f s else s }

/-- The trigger evaluation of R189. -/
def Standing.trigger' (s : Standing) (v : W64) : Option Standing :=
  if !s.bound || s.never || s.unbind || s.running.isSome || s.waiting.isSome || s.recWait.isSome || decide (v.toNat < s.thr.toNat)
  then none else
  let k := if s.catchup then (v.toNat - s.thr.toNat) / s.step.toNat + 1 else 1
  let t := s.thr.toNat + k * s.step.toNat
  let hit : Nat → Bool := fun u => decide (s.thr.toNat ≤ u) && decide (u < t) && (u - s.thr.toNat) % s.step.toNat == 0
  let s := { s with waiting := some s.seqn, seqn := s.seqn + k, l := { s.l with concealed := s.conceal.any hit }
                    conceal := s.conceal.filter fun u => decide (t ≤ u) }
  some (if t ≥ 2 ^ 64 then { s with never := true } else { s with thr := BitVec.ofNat 64 t })

def Blk.evalTrigger (q n : Nat) (b : Blk) : Blk :=
  match b.findStand q n with
  | none => b
  | some s =>
    match s.trigger' (b.knot s.trigger).val with
    | none => b
    | some s' =>
      let b := b.modStand q n fun _ => s'
      let b := { b with kn := { b.kn with wakes := b.kn.wakes ++ [Waiter.mk s.trigger true q n] } }
      b.bump (evBlk 0x0B 0) 1

/-- Evaluate one HITCH now; a decided one frees its waiter entry and goes to the dispatcher (R211). -/
def Blk.evalWaiting (q n : Nat) (b : Blk) : Blk :=
  match b.entry q n with
  | none => b
  | some e =>
    if e.prog ≠ .hitch none || !b.hitchOpen e then b else
    let k := Slot.knot4 e.slot
    match evalHitch e.slot k (b.knot k) with
    | none => b
    | some r =>
      let b := b.modEntry q n fun e => { e with prog := .hitch (some r) }
      let b := b.unpark false q n
      let b := { b with kn := { b.kn with wakes := b.kn.wakes ++ [Waiter.mk k false q n] } }
      b.bump (evBlk 0x0B 0) 1

/-- Every waiter parked on knot k is evaluated, those of taut partitions first, else in park order (R207, R212). -/
def Blk.evalWaiters (k : Nat) (b : Blk) : Blk :=
  let ws := b.kn.waiters.filter fun w => w.knot == k
  let tautW := fun (w : Waiter) => b.wv.cur.queueTaut w.q
  (ws.filter tautW ++ ws.filter fun w => !tautW w).foldl
    (fun b w => if w.stand then b.evalTrigger w.q w.n else b.evalWaiting w.q w.n) b

def TieSrc.arg : TieSrc → Nat
  | .host _ => 0
  | .intake _ => 1
  | .command => 2
  | .stale => 3

/-- The value that a concealed item's tie has given knot k, for the standing launches on it: the run whose threshold it reaches is
concealed, be it triggered at once or after the run before (R298, log 137). -/
def Blk.markConcealed (k : Nat) (b : Blk) : Blk :=
  let v := (b.knot k).val.toNat
  { b with stand := b.stand.map fun s =>
      if s.bound && s.trigger == k && decide (s.thr.toNat ≤ v) then { s with conceal := addNew s.conceal v } else s }
/-- One tie at the knot table (R206 to R208): discarded when older than the knot's role, else applied. -/
def Blk.tieNow (t : Tie) (b : Blk) : Blk :=
  if t.epoch.toNat < (b.knot t.knot).role.toNat then b.staleMsg else
  let b := b.setKnot t.knot ((b.knot t.knot).tied t)
  let b := if t.concealed then b.markConcealed t.knot else b
  (b.bumpAll 0x0A t.src.arg).evalWaiters t.knot
/-- The same after the ties that reached this knot before it (R206). -/
def Blk.applyTie (t : Tie) (b : Blk) : Blk :=
  let ahead := b.kn.tieQ.filter fun u => u.knot == t.knot
  let b : Blk := { b with kn := { b.kn with tieQ := b.kn.tieQ.filter fun u => u.knot != t.knot } }
  (ahead.foldl (fun b u => b.tieNow u) b).tieNow t

/-- A completion tie (R180). -/
def Blk.completionTie (t : W64) (form : Option (BitVec 4) × BitVec 4) (epoch : W32) (b : Blk) : Blk :=
  match form with
  | (some f, _) =>
    b.applyTie { knot := tieKnot t, op := .flagOnly, val := 0, flags := f, epoch := epoch,
                 src := if f = fSTALE || f = fABORT then .stale else .command }
  | (none, f) =>
    b.applyTie { knot := tieKnot t, op := tieOpOf (tieOpc t), val := tieVal t, flags := f, epoch := epoch, src := .command }

/-! ### Reading slots -/

def seqOf (q : Nat) : Nat := q % 4
def seqId (s : Nat) : SeqId := ⟨s % 4, Nat.mod_lt _ (by decide)⟩
/-- The sequencer of queue q is stopped: in BREAK (R435), or halted (R373). -/
def Blk.seqStopped (b : Blk) (q : Nat) : Bool := (b.seq (seqOf q)).st == .broke || (b.seq (seqOf q)).st == .halted
/-- The first of the 32 places for outstanding requests that is free (R366). -/
def Seq.freePlace (v : Seq) : Option (Fin 32) := (List.finRange 32).find? fun i => !v.outs.any fun o => o.1 == i.val
/-- A request of sequencer s for a command of queue q takes a place and goes out; with none free it is not made (R366). -/
def Blk.seqAsk (s q : Nat) (what : SeqReq) (m : Fin 32 → Instr) (b : Blk) : Option Blk :=
  (b.seq s).freePlace.map fun i => (b.setSeq s { b.seq s with outs := PMap.put i.val { q := q, what := what } (b.seq s).outs }).send (m i)
/-- A place is free again. -/
def Blk.freeOut (s i : Nat) (b : Blk) : Blk := b.setSeq s { b.seq s with outs := PMap.del i (b.seq s).outs }
def Blk.heldLine (b : Blk) (q n : Nat) : Option Line :=
  ((b.seq (seqOf q)).lines.find? fun l => l.1 == q && l.2.1 == n).map (·.2.2)
def slotAddr (u : Que) (n : Nat) : Nat := (u.ringBase.toNat + 64 * (n % u.ringSlots.toNat)) % 2 ^ 64
def Blk.slotAsked (b : Blk) (q n : Nat) : Bool := (b.seq (seqOf q)).outs.any fun o => o.2.q == q && o.2.what == .slot n
/-- The slot of index n is asked for (R361, R368). -/
def Blk.askSlot (q n : Nat) (b : Blk) : Option Blk :=
  if b.slotAsked q n then some b else
  if h : q < 1024 then
    b.seqAsk (seqOf q) q (.slot n) fun _ => .rdonce (.slot ⟨q, h⟩ (BitVec.ofNat 32 n)) (lineOf (slotAddr (b.que q) n))
  else some b
/-- The same, once for each slot (R157): one that is held, or whose read failed, is not asked for again. -/
def Blk.readSlot (q n : Nat) (b : Blk) : Blk :=
  if (b.heldLine q n).isSome || (b.que q).lost.contains n then b else (b.askSlot q n).getD b
/-- Slots read in one service of a queue (R360). -/
def Blk.burstMax (b : Blk) (q : Nat) : Nat := if b.wv.cur.queueTaut q then 4 else 8
/-- The next slots of the served queue, up to 4, in index order (R361). -/
def Blk.readOn (q : Nat) (b : Blk) : Blk :=
  let u := b.que q
  let n := min (min 4 (u.tail - u.head)) (b.burstMax q - (b.seq (seqOf q)).burst)
  (range n).foldl (fun b i => b.readSlot q (u.head + i)) b

/-- The slot at HEAD is held, is a HITCH or STAND, and no waiter entry is free (R210). -/
def Blk.waitPaused (b : Blk) (q : Nat) : Bool :=
  match b.heldLine q (b.que q).head with
  | none => false
  | some l => (Slot.opcode l == opHITCH || Slot.opcode l == opSTAND) && !b.waitAvail q

/-! ### Break units (R433, R436) -/

def Blk.breakUnit (b : Blk) (u : Nat) : BreakUnit := SMap.get {} b.dbg.units u
def Blk.setBreakUnit (u : Nat) (v : BreakUnit) (b : Blk) : Blk :=
  { b with dbg := { b.dbg with units := SMap.set {} b.dbg.units u v } }
/-- Unit u may fire for queue q: a seat's only with function 3, and for a queue it owns. -/
def Blk.unitFor (b : Blk) (u q : Nat) : Bool :=
  let v := b.breakUnit u
  let any := v.kind && v.queue == 0x3FFF
  v.arm &&
    (if u < 8 then any || v.queue.toNat == q
     else v.queue.toNat == q && (b.seat ((u - 8) / 2)).expert.getLsbD 3 && b.wv.cur.owner q == some ((u - 8) / 2))
def Blk.countUnits (b : Blk) (q n : Nat) : List Nat :=
  (range 40).filter fun u =>
    let v := b.breakUnit u
    b.unitFor u q && !v.kind && v.value == BitVec.ofNat 32 n && !(b.seq (seqOf q)).fired.contains (q, n, u)
/-- A written unit may fire again for the slot it has fired for (log 90). -/
def Blk.unfire (u : Nat) (b : Blk) : Blk :=
  (range 4).foldl (fun b s =>
    let v := b.seq s
    if v.fired.any fun y => y.2.2 == u then b.setSeq s { v with fired := v.fired.filter fun y => y.2.2 != u } else b) b
def Blk.tagUnits (b : Blk) (q : Nat) (tag : W32) : List Nat :=
  (range 40).filter fun u =>
    let v := b.breakUnit u
    b.unitFor u q && v.kind && (tag &&& v.mask) == (v.value &&& v.mask)
/-- A count break comes before the command enters. -/
def Blk.breakDue (b : Blk) (q n : Nat) : Bool := !(b.countUnits q n).isEmpty
/-- A TAG carried out is presented to the break units. -/
def Blk.noteTag (q n : Nat) (tag : W32) (b : Blk) : Blk :=
  if (b.tagUnits q tag).isEmpty then b else { b with dbg := { b.dbg with tags := b.dbg.tags ++ [(q, n, tag)] } }

def Blk.wantsService (b : Blk) (q : Nat) : Bool :=
  let u := b.que q
  u.st != .free && (u.head != u.tail || u.wake) && u.held.isEmpty
    && (u.st == .closing || b.flt.pcycReq || (b.sbAvail q && !b.waitPaused q))

/-- Selection of R360: taut before slack, priority, round robin. -/
def Blk.selectKey (b : Blk) (s q : Nat) : Nat :=
  let taut := b.wv.cur.queueTaut q
  let prio := ((b.wv.cur.qmap q).map (·.prio)).getD 0
  let ptr := SMap.get 0 (b.seq s).ptrs (8 * b2n taut + prio)
  (if taut then 0 else 65536) + (7 - prio) * 4096 + ((q + 1024 - ptr % 1024) % 1024) / 4
def Blk.selectQueue (b : Blk) (s : Nat) : Option Nat :=
  let cand := (b.qs.map (·.1)).filter fun q => seqOf q == s && b.wantsService q
  cand.foldl (fun best q =>
    match best with
    | none => some q
    | some p => if b.selectKey s q < b.selectKey s p then some q else best) none

def Seq.free (s : Seq) : Bool := (s.st == .idle || s.st == .running) && !s.serving

/-- Sequencer s takes up queue q: WAKE and IDLE are cleared and slot HEAD is asked for (R165 step 5, R360). -/
def Blk.takeUp (s q : Nat) (b : Blk) : Blk :=
  let taut := b.wv.cur.queueTaut q
  let prio := ((b.wv.cur.qmap q).map (·.prio)).getD 0
  let v := b.seq s
  let b := b.setSeq s { v with st := .running, queue := q, serving := true, burst := 0,
                               ptrs := SMap.set 0 v.ptrs (8 * b2n taut + prio) ((q + 4) % 1024) }
  let u := b.que q
  let b := b.setQue q { u with wake := false, idle := false }
  if u.head = u.tail then
    -- a wake that finds nothing further is discarded
    (b.setQue q { b.que q with idle := true }).setSeq s { b.seq s with serving := false, st := .idle }
  else b.readOn q
/-- A sequencer that serves no queue selects one, if any has work. -/
def Blk.kick (s : Nat) (b : Blk) : Blk :=
  if !b.running || !(b.seq s).free then b else
  match b.selectQueue s with
  | none => b
  | some q => b.takeUp s q
def Blk.kickAll (b : Blk) : Blk := (range 4).foldl (fun b s => b.kick s) b

/-- HEAD passes the slot; the sequencer reads on, leaves the queue idle, or selects again (R157, R165, R360). A queue that
pauses at the next slot is left by `Blk.leavePaused` (R210). -/
def Blk.advanceHead (q : Nat) (b : Blk) : Blk :=
  let s := seqOf q
  let u := b.que q
  let v := b.seq s
  let b := b.setSeq s { v with lines := v.lines.filter fun l => !(l.1 == q && l.2.1 == u.head), burst := v.burst + 1,
                               slots := satInc v.slots, fired := v.fired.filter fun y => !(y.1 == q && y.2.1 == u.head) }
  let u := { u with head := u.head + 1 }
  let b := b.setQue q u
  let mine := (b.seq s).serving && (b.seq s).queue == q
  if !mine then b else
  let taut := b.wv.cur.queueTaut q
  let tautWork := b.qs.any fun p => seqOf p.1 == s && b.wv.cur.queueTaut p.1 && b.wantsService p.1
  let leave := (b.setSeq s { b.seq s with serving := false, st := .idle })
  if u.head = u.tail then (leave.setQue q { u with idle := true }).kick s
  else if decide (b.burstMax q ≤ (b.seq s).burst) || (!taut && tautWork) || !(b.wantsService q || b.waitPaused q) then leave.kick s
  else b.readOn q

/-! ### Completion (R166, R179, R180) -/

/-- The record of command COMP is written to the status ring when it is on (R166, R169). -/
def Blk.pumpSr (q : Nat) (b : Blk) : Blk :=
  let u := b.que q
  if b.seqStopped q then b else
  match PMap.find u.comp u.done with
  | none => b
  | some r =>
    if !u.srOn || u.srWait || u.srAcked then b else
    let a := (u.srBase.toNat + 16 * (u.comp % u.srSlots.toNat)) % 2 ^ 64
    let b := b.setQue q { u with srWait := true }
    if h : q < 1024 then
      b.send (.wr (.record ⟨q, h⟩) (lineOf a) (BitVec.ofNat 512 (r.toNat * 2 ^ (8 * (a % 64)))) (maskOf (a % 64) 16))
    else b

/-- A status for command n joins the completed ones; COMP passes it later (R166). -/
def Blk.noteDone (q n : Nat) (st : Stat) (opcode : W8) (b : Blk) : Blk :=
  let u := b.que q
  (b.setQue q { u with done := PMap.put n (st.record n opcode) u.done }).pumpSr q

def Blk.jobsDone (s : Nat) (b : Blk) : Blk := b.setSeat s { b.seat s with done := (b.seat s).done + 1 }
def Blk.jobsLaunched (s : Nat) (b : Blk) : Blk := b.setSeat s { b.seat s with launched := (b.seat s).launched + 1 }

/-- A SERIAL HITCH that has become the oldest of its queue is evaluated for the first time (R211). -/
def Blk.settle (q : Nat) (b : Blk) : Blk :=
  match b.sb.find? fun e => e.q == q with
  | some e => if e.serial && e.opcode == opHITCH then b.evalWaiting q e.n else b
  | none => b

/-- An edge of a stretch fell since the doorbell of command n (R400). -/
def Blk.stretchSeen (b : Blk) (q n : Nat) : Bool := b.pwr.clock != .full || decide (n < (b.que q).stretchTo)

/-- A command completes once: its ties are applied, TIE_A then TIE_B, its entry and waiter are freed, its status joins
done[n]. `rel` are releasing flags for a flagged or fenced command. What this lets start, `Blk.pump` starts. -/
def Blk.complete (e : SbEntry) (st : Stat) (rel : BitVec 4) (b : Blk) : Blk :=
  let st := if e.opcode = opLAUNCH then { st with stretched := b.stretchSeen e.q e.n } else st
  let form := st.tieForm rel
  let b := { b with sb := b.sb.filter fun f => f.ord != e.ord }
  let b := (b.unpark false e.q e.n).unwake false e.q e.n
  let b := if e.okA then b.completionTie (Slot.tieA e.slot) form e.epoch else b
  -- a STAND that has bound keeps TIE_B for its runs (R188)
  let bound := e.opcode == opSTAND && !st.fault && !st.aborted && !st.stale
  let b := if e.okB && !bound then b.completionTie (Slot.tieB e.slot) form e.epoch else b
  let b := if e.opcode = opLAUNCH then b.jobsDone e.seat else b
  ((b.bumpAll 0x04 ((b.wv.cur.owner e.q).getD 0)).noteDone e.q e.n st e.opcode).settle e.q

/-! ### Order within a queue (R213) -/

def Blk.canStart (b : Blk) (e : SbEntry) : Bool :=
  let low := b.lower e.q e.n
  (!low.any fun f => f.opcode == opHITCH || f.opcode == opMEMBAR)
    && (!(e.serial || e.opcode == opMEMBAR) || low.isEmpty)
/-- A HITCH completes when no HITCH and no MEMBAR of lower index is incomplete (R211). -/
def Blk.hitchMayComplete (b : Blk) (e : SbEntry) : Bool :=
  !(b.lower e.q e.n).any fun f => f.opcode == opHITCH || f.opcode == opMEMBAR
/-- Behind the fence of R215, and not UNSTAND. -/
def Blk.fenced (b : Blk) (e : SbEntry) : Option Fence :=
  match (b.que e.q).fence with
  | none => none
  | some f => if decide (f.hitch < e.n) && e.opcode != opUNSTAND then some f else none

/-! ### Standing launches -/

def Standing.engines (w : Weave) (s : Standing) : List Nat :=
  match s.twinRec with
  | none => [s.eng]
  | some i => match w.twin i with
    | none => [s.eng]
    | some t => [t.a, t.b]
/-- An engine that rested for a standing launch is idle again (R107). -/
def Blk.restIdle (e : Nat) (b : Blk) : Blk := if (b.engine e).st == .standing then b.setEng e { b.engine e with st := .idle } else b
/-- The launch is unbound: its waiter and pending trigger go, its pins and the queue's STANDING count with it. -/
def Blk.unbind (q n : Nat) (b : Blk) : Blk :=
  let es := ((b.stand.filter fun s => s.q == q && s.n == n).map fun s => s.engines b.wv.cur).flatten
  let b : Blk := { b with stand := b.stand.filter fun s => !(s.q == q && s.n == n) }
  (es.foldl (fun b e => b.restIdle e) b).unpark true q n |>.unwake true q n
def Blk.standOn (b : Blk) (e : Nat) : Option Standing := b.stand.find? fun s => (s.engines b.wv.cur).contains e
/-- Standing launches bound from the queue (R160). -/
def Blk.standingCount (b : Blk) (q : Nat) : Nat := b.stand.countP fun s => s.q == q && s.bound
/-- Unbind now, or when the run in progress ends (R173, R191). -/
def Blk.unbindSoon (q n : Nat) (b : Blk) : Blk :=
  match b.findStand q n with
  | none => b
  | some s => if s.running.isSome || s.recWait.isSome then
      ((b.modStand q n fun s => { s with unbind := true, waiting := none }).unwake true q n)
    else b.unbind q n
/-- The run tie goes out once, with a flag in place of its value (R67, R419). -/
def Blk.runTieFlag (s : Standing) (f : BitVec 4) (b : Blk) : Blk :=
  if tieOpc s.tieB = 0 then b else b.completionTie s.tieB (some f, 0) s.epoch

/-- A bank is PINNED while a standing launch bound to the engine names its program (R97). -/
def Blk.pinned (b : Blk) (e : Nat) (k : Bank) : Bool :=
  k.st == .ready && (b.stand.any fun s => (s.engines b.wv.cur).contains e && s.l.prog == k.prog)
def Eng.bank (v : Eng) (i : Bool) : Bank := if i then v.bank1 else v.bank0
def Eng.setBank (v : Eng) (i : Bool) (k : Bank) : Eng := if i then { v with bank1 := k } else { v with bank0 := k }
/-- The bank READY with a program, bank 0 first (R97). -/
def Eng.bankFor (v : Eng) (p : W16) : Option Bool :=
  if v.bank0.st == .ready && v.bank0.prog == p then some false
  else if v.bank1.st == .ready && v.bank1.prog == p then some true else none
/-- A bank WAITING or LOADING under a program. -/
def Eng.bankComing (v : Eng) (p : W16) : Bool :=
  ((v.bank0.st == .waiting || v.bank0.st == .loading) && v.bank0.newProg == p)
    || ((v.bank1.st == .waiting || v.bank1.st == .loading) && v.bank1.newProg == p)

/-! ### Engine clocks (R387, R390) -/

/-- The engine's pacer passes edges. -/
def Blk.clocked (b : Blk) (e : Nat) : Bool := decide (0 < (b.engine e).level)
/-- Work may start on it: a taut engine below level 16 counts as not idle. -/
def Blk.powered (b : Blk) (e : Nat) : Bool := !b.wv.cur.isTaut e || decide (16 ≤ (b.engine e).level)

end Sys2Proof.Machine
end

