-- ==== Sys2Proof/Machine/Jobs.lean ====
section
/-! DEFINITION. Launches and runs on engines: tiles and ranges (05 R132, 09 R231), banks at launch boundaries (03 R97 to
R99), stopping a tile, ending a launch on every engine (16 R412), the end of a standing run (07 R190), slowdown figures
(09 R244). -/

namespace Sys2Proof.Machine

/-! ### Ranges of tiles -/

def Range.len (r : Range) : Nat := r.hi - r.lo
def rangesLen (l : List Range) : Nat := (l.map Range.len).sum
/-- A range joins a rising list of disjoint ranges. -/
def insRange (r : Range) : List Range → List Range
  | [] => [r]
  | a :: t =>
    if r.hi < a.lo then r :: a :: t
    else if r.hi = a.lo then { lo := r.lo, hi := a.hi } :: t
    else if a.hi = r.lo then insRange { lo := a.lo, hi := r.hi } t
    else a :: insRange r t
/-- The first n tiles of a list of ranges, and the rest. -/
def takeTiles (n : Nat) : List Range → List Range × List Range
  | [] => ([], [])
  | r :: t =>
    if n = 0 then ([], r :: t)
    else if n < r.len then ([{ lo := r.lo, hi := r.lo + n }], { lo := r.lo + n, hi := r.hi } :: t)
    else
      let x := takeTiles (n - r.len) t
      (r :: x.1, x.2)
/-- The share of engine i of k when t tiles are split (R231). -/
def share (t k i : Nat) : Nat := t / k + (if i < t % k then 1 else 0)

/-! ### Launches by job -/

/-- Every tile unplaced. -/
def Launch.whole (l : Launch) : Launch := { l with unplaced := if l.tiles = 0 then [] else [{ lo := 0, hi := l.tiles }] }

def SbEntry.launch? (e : SbEntry) : Option Launch :=
  match e.prog with
  | .launch l => some l
  | _ => none
def SbEntry.job (e : SbEntry) : Job := { run := false, q := e.q, n := e.n }
def Standing.job (s : Standing) : Job := { run := true, q := s.q, n := s.n }
def Blk.launch? (b : Blk) (j : Job) : Option Launch :=
  if j.run then (b.findStand j.q j.n).map (·.l) else (b.entry j.q j.n).bind SbEntry.launch?
def Blk.modLaunch (j : Job) (f : Launch → Launch) (b : Blk) : Blk :=
  if j.run then b.modStand j.q j.n fun s => { s with l := f s.l }
  else b.modEntry j.q j.n fun e =>
    match e.prog with
    | .launch l => { e with prog := .launch (f l) }
    | _ => e
/-- Engines whose state is not that after reset, by number. -/
def Blk.engIds (b : Blk) (p : Nat → Eng → Bool) : List Nat := (b.eng.map (·.1)).filter fun e => p e (b.engine e)

def Eng.queued (v : Eng) : Nat := rangesLen (v.deque.map (·.2))
def Eng.queuedOf (v : Eng) (j : Job) : Bool := v.deque.any fun r => r.1 == j
def Eng.savedOf (v : Eng) (j : Job) : Bool := (v.save.map (·.job)) == some j
/-- The engine runs or queues work of the job. -/
def Eng.holds (v : Eng) (j : Job) : Bool := v.job == some j || v.queuedOf j || (v.restore && v.savedOf j)
def Blk.holders (b : Blk) (j : Job) : List Nat := b.engIds fun _ v => v.holds j

/-! ### Launch boundaries and banks (R97 to R99) -/

def LoadSt.image (l : LoadSt) (len : Nat) : Mem :=
  (l.data.foldl (fun m x => Mem.writeLine m (64 * x.1) x.2) []).zero len (len + 64)
/-- The image read so far goes into a bank in LOADING; with every line it is READY under its new identifier. -/
def Bank.fill (k : Bank) (clk len : Nat) (l : LoadSt) : Bank :=
  if 64 * SMap.get 0 l.got 0 < len then { k with st := .loading }
  else { k with st := .ready, prog := k.newProg, data := l.image len, loadedAt := clk }
/-- The IMEM_LOAD that writes a bank of engine e. -/
def Blk.loadOn (b : Blk) (e : Nat) : Option (SbEntry × LoadSt) :=
  b.sb.findSome? fun x =>
    match x.prog with
    | .load l => if x.opcode == opIMEM && x.ending.isNone && l.targets.contains e then some (x, l) else none
    | _ => none
def imemLen (s : Line) : Nat := fAt s 0x10 0 16
/-- Banks of engine e that are WAITING and not selected begin LOADING. -/
def Blk.unwait (e : Nat) (selected : Option Bool) (b : Blk) : Blk :=
  match b.loadOn e with
  | none => b
  | some (x, l) =>
    let go := fun (i : Bool) (v : Eng) =>
      if (v.bank i).st == .waiting && selected != some i then
        let v := { v with bankClk := v.bankClk + 1 }
        v.setBank i ((v.bank i).fill v.bankClk (imemLen x.slot) l)
      else v
    b.modEng e fun v => go true (go false v)
/-- A launch boundary at which the bank READY with p is selected. -/
def Blk.selectBank (e : Nat) (p : W16) (b : Blk) : Blk :=
  match (b.engine e).bankFor p with
  | none => b
  | some i =>
    let b := b.modEng e fun v =>
      let v := { v with bankClk := v.bankClk + 1, active := i }
      v.setBank i { v.bank i with lastActive := v.bankClk }
    b.unwait e (some i)
/-- The engine falls idle: a launch boundary with no bank selected, but between runs of one standing launch (R99). -/
def Blk.engIdle (e : Nat) (b : Blk) : Blk :=
  let v := b.engine e
  let b := b.setEng e { v with ran := false }
  match v.lastJob with
  | some j => if j.run && (b.findStand j.q j.n).isSome then b else (b.modEng e fun v => { v with lastJob := none }).unwait e none
  | none => b

/-- The draw unit begins to copy the tensor descriptors of job j (R186). -/
def Blk.readTdesc (e : Nat) (j : Job) (l : Launch) (b : Blk) : Blk :=
  if h : e < 64 then
    let a := l.addr.toNat + 128
    let b := b.modEng e fun v => { v with copies := v.copies ++ [{ job := j, first := (lineOf a).toNat, count := l.ndesc, want := l.ndesc }] }
    (range l.ndesc).foldl (fun b i => b.send (.rdonce (.tdesc ⟨e, h⟩) (lineOf (a + 64 * i)))) b
  else b
/-- Engine e begins, resumes or restarts work of job j: after a launch boundary its bank is selected and its descriptor
copy begins (R97, R99, R186). -/
def Blk.begin (e : Nat) (j : Job) (b : Blk) : Blk :=
  match b.launch? j with
  | none => b
  | some l =>
    if (b.engine e).lastJob = some j then b else
    let b := b.selectBank e l.prog
    let b := b.modEng e fun v => { v with lastJob := some j, descWait := l.ndesc != 0, descFor := some j }
    if l.ndesc = 0 then b else b.readTdesc e j l

/-! ### Stopping tiles -/

def Eng.channelsIdle (v : Eng) : Bool := v.arch.chan.all fun c => !c.2.busy || c.2.issued == c.2.done
/-- The state of the tile is discarded: nothing of it lands any more. -/
def Eng.dropTile (v : Eng) : Eng :=
  { v with arch := { v.arch with pend := [], loops := [], chan := [], ag := [], tag := [] }, job := none, started := false,
           ended := false, stop := none, pendFault := none, needs := [], idxBuf := [], idxLm := [], restore := false,
           preempt := false, ran := false }
/-- The state an engine rests in. -/
def Blk.restState (b : Blk) (e : Nat) : EngState :=
  if b.wv.clearing.contains e then .clearing else if (b.standOn e).any (·.bound) then .standing else .idle
/-- A freeze is no known wait: neither it nor its end moves LAST (R410, R411). -/
def EngState.known (s : EngState) : Bool := s != .running && s != .frozen
def Eng.enter (v : Eng) (x : Env) (s : EngState) : Eng :=
  if v.st = s then v else { v with st := s, last := if v.st.known || s.known then x.now else v.last }
/-- A trace record of KIND TILE (R445), with TILE_EV. -/
def Blk.tileEv (x : Env) (e : Nat) (what : Nat) (j : Job) (tile : Nat) (b : Blk) : Blk :=
  let v := b.engine e
  if v.trace.ctl.getLsbD 1 then
    let prog := ((b.launch? j).map (·.prog)).getD 0
    b.setEng e (v.traceRec x 0x02 [BitVec.ofNat 32 (what + 2 ^ 16 * prog.toNat), BitVec.ofNat 32 j.q, BitVec.ofNat 32 j.n,
      BitVec.ofNat 32 tile])
  else b
/-- Engine e leaves its tile without completing it. -/
def Blk.leaveTile (x : Env) (e : Nat) (b : Blk) : Blk :=
  let v := b.engine e
  match v.job with
  | none => b
  | some j =>
    let b := b.tileEv x e 5 j v.tile
    let b := b.modLaunch j fun l => { l with
      busy := SMap.set 0 l.busy e (SMap.get 0 l.busy e + v.busy)
      stall := SMap.set 0 l.stall e (SMap.get 0 l.stall e + v.stall) }
    let b := b.modEng e fun v => ({ v.dropTile with busy := 0, stall := 0 }).enter x (b.restState e)
    let b : Blk := { b with dsp := { b.dsp with preempts := b.dsp.preempts.erase e } }
    if (b.engine e).deque.isEmpty then b.engIdle e else b
/-- An engine that has nothing more to do falls idle. -/
def Blk.idleIfDone (e : Nat) (b : Blk) : Blk :=
  let v := b.engine e
  if v.job.isNone && v.deque.isEmpty && !v.restore then b.engIdle e else b
/-- Issue stops; the tile is dropped when its draws are idle (R174 step 4, R412). -/
def Blk.stopTile (k : StopKind) (e : Nat) (b : Blk) : Blk :=
  b.modEng e fun v => if v.job.isSome then { v with stop := some k } else v
/-- The engine's queued tiles of a job go. -/
def Blk.dropQueued (j : Job) (e : Nat) (b : Blk) : Blk :=
  b.modEng e fun v => { v with deque := v.deque.filter fun r => r.1 != j }
/-- The engine's queued tiles of a job return to it as unplaced. -/
def Blk.returnQueued (j : Job) (e : Nat) (b : Blk) : Blk :=
  let rs := ((b.engine e).deque.filter fun r => r.1 == j).map (·.2)
  (b.dropQueued j e).modLaunch j fun l => { l with unplaced := rs.foldl (fun u r => insRange r u) l.unplaced }
/-- The job is retired, or about to be, and has not completed (R67, R68). -/
def Blk.retired (b : Blk) (j : Job) : Bool := b.wv.retire.contains j || b.wv.retiring.contains j
/-- Queued, saved and unplaced tiles of a job are discarded (R412, R67). Tiles of a retired launch that a steal has on its way are
discarded, and counted, on their arrival (R68). -/
def Blk.dropTiles (j : Job) (b : Blk) : Blk :=
  let on := b.engIds fun _ v => v.queuedOf j || v.savedOf j
  let b := on.foldl (fun b e =>
    let b := b.dropQueued j e
    let rest := b.restState e
    (b.modEng e fun v => if !v.savedOf j then v else
      { v with save := none, restore := false, st := if v.restore then rest else v.st }).idleIfDone e) b
  let drop : Steal → Steal := fun s => { s with tiles := s.tiles.filter fun t => t.1 != j }
  let b : Blk := if b.retired j then b else { b with dsp := { b.dsp with steals := b.dsp.steals.map drop } }
  b.modLaunch j fun l => { l with unplaced := [], saved := [] }

/-! ### Slowdown figures (R244) -/

def ratioOf (stall busy : Nat) : Nat := if busy = 0 then 0 else 65536 * stall / busy
def totalOf (m : SMap Nat) : Nat := (m.map fun x => x.2).sum
def Launch.worst (l : Launch) : Nat × Nat :=
  l.busy.foldl (fun (w : Nat × Nat) (x : Nat × Nat) =>
    let r := ratioOf (SMap.get 0 l.stall x.1) x.2
    if w.1 < r then (r, x.1) else w) (0, (l.busy.head?.map (·.1)).getD 0)
/-- The figures of a launch that held an engine; `seqn` is its command index, or a run's sequence. -/
def Blk.figures (q : Nat) (seqn : Nat) (l : Launch) (b : Blk) : Blk :=
  let stall := totalOf l.stall
  let busy := totalOf l.busy
  let w := if busy = 0 then (0, 0) else l.worst
  let u := b.que q
  b.setQue q { u with ratio := BitVec.ofNat 16 (ratioOf stall busy), worst := BitVec.ofNat 16 w.1,
                      worstEng := BitVec.ofNat 12 w.2, slowSeq := BitVec.ofNat 32 seqn,
                      stallSum := u.stallSum + BitVec.ofNat 64 stall, busySum := u.busySum + BitVec.ofNat 64 busy }

/-! ### The end of a launch -/

/-- Status of a launch whose tiles all completed (R129, R168). -/
def Launch.stat (l : Launch) : Stat :=
  { numeric := l.numeric != 0, concealed := l.concealed, detail := l.numeric }
/-- What the tiles that completed reported, when no comparison decides it: of a twin issue, the first of ENGINE_A, ENGINE_B and
the arbiter that reports anything (R129; log 147). -/
def Launch.reported (l : Launch) : W64 :=
  match l.twin with
  | none => l.numeric
  | some t => if t.a.numeric ≠ 0 then t.a.numeric else if t.b.numeric ≠ 0 then t.b.numeric else t.c.numeric
/-- A decided status with what the tiles that completed reported (R129, R168); a comparison has decided a twin issue's. -/
def Stat.withReport (st : Stat) (l : Launch) : Stat :=
  let n := if st.fault || st.aborted || st.stale || l.twin.isNone then l.reported else 0
  { st with numeric := st.numeric || n != 0, concealed := st.concealed || l.concealed
            detail := if st.fault || st.numeric then st.detail else n }
/-- Which status an ended job keeps: the first decided, but a retirement overrides ABORTED (R175, R412). -/
def endingOf (old : Option Stat) (st : Stat) : Option Stat :=
  match old with
  | none => some st
  | some o => if st.stale && o.aborted && !o.fault then some st else some o
/-- The job has completed: a retirement of it is over. -/
def Blk.jobOver (j : Job) (b : Blk) : Blk := { b with wv := { b.wv with retiring := b.wv.retiring.erase j } }
/-- A LAUNCH completes with its decided status once no engine runs a tile of it. -/
def Blk.finishLaunch (q n : Nat) (b : Blk) : Blk :=
  match b.entry q n with
  | none => b
  | some e =>
    match e.ending, e.launch? with
    | some st, some l =>
      if !(b.holders e.job).isEmpty || !e.owes.isEmpty then b else
      let b := if e.started then b.figures q n l else b
      (b.complete e (st.withReport l) 0).jobOver e.job
    | _, _ => b

/-- The run tie and the next evaluation, once the run's record (if any) has its acknowledgement (R189, R190). -/
def Blk.runOver (q n : Nat) (st : Stat) (b : Blk) : Blk :=
  match b.findStand q n with
  | none => b
  | some s =>
    let b := b.modStand q n fun s => { s with running := none, recWait := none, recSent := false, recAcked := false,
                                              failTie := false, ending := none, stretched := false,
                                              index := if st.fault then s.index else s.index + 1 }
    let b := (b.jobsDone s.seat).jobOver s.job
    let form := if s.failTie && !st.stale then (some fFAULT, 0) else st.tieForm 0
    let b := if tieOpc s.tieB = 0 then b else b.completionTie s.tieB form s.epoch
    if s.unbind || st.stale then b.unbind q n else b.evalTrigger q n
/-- The record of a run that has ended is written, unless the queue's sequencer is stopped or a belay holds it (R190, 17 R428, R435). -/
def Blk.sendRunRec (q n : Nat) (b : Blk) : Blk :=
  match b.findStand q n with
  | none => b
  | some s =>
    match s.recWait with
    | none => b
    | some st =>
      if s.recSent || !b.running || b.seqStopped q then b else
      let a := (s.rrBase.toNat + 16 * (s.recSeq % s.rrSlots)) % 2 ^ 64
      let b := b.modStand q n fun s => { s with recSent := true }
      if h : s.eng < 64 then
        b.send (.wr (.runRecord ⟨s.eng, h⟩) (lineOf a) (BitVec.ofNat 512 ((st.record s.recSeq opSTAND).toNat * 2 ^ (8 * (a % 64))))
          (maskOf (a % 64) 16))
      else b
/-- The acknowledgement of a run's record lets its tie follow. -/
def Blk.runAcked (q n : Nat) (b : Blk) : Blk :=
  match b.findStand q n with
  | none => b
  | some s => if s.recAcked then b.runOver q n (s.recWait.getD {}) else b
/-- A standing run ends, with the status decided for it before (R174, R412) or this one: its record is written, then its
tie follows. -/
def Blk.endRun (q n : Nat) (st : Stat) (b : Blk) : Blk :=
  match b.findStand q n with
  | none => b
  | some s =>
    let seqn := s.running.getD 0
    let st := { (s.ending.getD st).withReport s.l with stretched := s.stretched || b.pwr.clock != .full }
    let b := b.figures q seqn s.l
    let b := b.modStand q n fun s => { s with ending := none, l := { s.l with busy := [], stall := [], numeric := 0, posTile := none,
                                                                               digest := 0, doneTiles := 0, twin := none,
                                                                               concealed := false } }
    if s.rrSlots = 0 then b.runOver q n st else
    (b.modStand q n fun s => { s with recWait := some st, recSeq := seqn, running := none }).sendRunRec q n
/-- A standing run that was being stopped ends once no engine runs it. -/
def Blk.finishRun (q n : Nat) (b : Blk) : Blk :=
  match b.findStand q n with
  | none => b
  | some s =>
    match s.ending with
    | some st => if (b.holders s.job).isEmpty then b.endRun q n st else b
    | none => b
def Blk.finishJob (j : Job) (b : Blk) : Blk := if j.run then b.finishRun j.q j.n else b.finishLaunch j.q j.n

/-- A job ends on every engine with a status, the first decided one (R412); `k` says how its running tiles stop. -/
def Blk.endJob (j : Job) (st : Stat) (k : StopKind) (b : Blk) : Blk :=
  let b := if j.run then b.modStand j.q j.n fun s => { s with ending := endingOf s.ending st }
    else b.modEntry j.q j.n fun e => { e with ending := endingOf e.ending st }
  let b := b.dropTiles j
  let b := (b.engIds fun _ v => v.job == some j && v.stop.isNone).foldl (fun b e => b.stopTile k e) b
  b.finishJob j
/-- Work of the job was placed. -/
def Blk.markStarted (j : Job) (b : Blk) : Blk :=
  if j.run then b else b.modEntry j.q j.n fun e => { e with started := true }

end Sys2Proof.Machine
end

