-- ==== Sys2Proof/Machine/Watch.lean ====
section
/-! DEFINITION. WATCH (05 R150 to R154, 07 R199): its extent, its figures, its record, its requests. -/

namespace Sys2Proof.Machine

def watchSize (s : Line) (d : Nat) : Nat := fAt s (0x18 + 2 * d) 0 16
def watchTotal (s : Line) : Nat := watchSize s 0 * watchSize s 1 * watchSize s 2 * watchSize s 3
def watchEsize (s : Line) : Nat := 2 ^ fAt s 0 17 2
/-- SoC address of element i (R150): dimension 0 is contiguous. It wraps modulo 2^64 (log 163). -/
def watchAddr (s : Line) (i : Nat) : Nat :=
  let n0 := watchSize s 0
  let n1 := watchSize s 1
  let n2 := watchSize s 2
  let st := fun (d : Nat) => sgn 32 (Slot.d32 s (0x1C + 4 * d))
  let a : Int := Slot.q64 s 8 + (i % n0 * watchEsize s : Nat) + (i / n0 % n1 : Nat) * st 1 + (i / n0 / n1 % n2 : Nat) * st 2
    + (i / n0 / n1 / n2 : Nat) * st 3
  (a % 2 ^ 64).toNat

/-- One element examined (R151, R152). -/
def WatchSt.add (w : WatchSt) (s : Line) (v : Nat) : WatchSt :=
  let i := w.next
  let w := { w with next := i + 1 }
  if Slot.flag16 s then { w with digest := w.digest + mix (mix (BitVec.ofNat 64 i) ^^^ BitVec.ofNat 64 v) } else
  let n := if watchEsize s = 2 then dec16 (BitVec.ofNat 16 v) else dec32 (BitVec.ofNat 32 v)
  let best := fun (pick : Num → Num → Num) (o : Option W32) =>
    match o with
    | none => some (enc32 n)
    | some b => some (enc32 (pick (dec32 b) n))
  match n with
  | .nan => { w with nan := w.nan + 1 }
  | .inf _ => { w with inf := w.inf + 1, least := best minX w.least, most := best maxX w.most }
  | .fin sg m e =>
    let x : Int := (m * 2 ^ (e + 149).toNat : Nat)
    { w with sum := w.sum + (if sg then -x else x), least := best minX w.least, most := best maxX w.most }

/-- The result record (R153). A SUM of elements that are all −0 is +0, as the exact sum 0 is (the model's choice, log 37). -/
def WatchSt.record (w : WatchSt) (s : Line) : BitVec 256 :=
  let n := watchTotal s
  if Slot.flag16 s then
    BitVec.ofNat 256 (w.digest.toNat + 2 ^ 64 * (n % 2 ^ 64) + 2 ^ 224)
  else
    let sum := (Num.ofInt w.sum (-149)).round fp32 false rmNE
    let none' : W32 := 0x7FC00000
    BitVec.ofNat 256 (n % 2 ^ 64 + 2 ^ 64 * min w.nan 0xFFFFFFFF + 2 ^ 96 * min w.inf 0xFFFFFFFF
      + 2 ^ 128 * (w.least.getD none').toNat + 2 ^ 160 * (w.most.getD none').toNat + 2 ^ 192 * (enc32 sum).toNat
      + (if sum.isInf then 2 ^ 225 else 0))

/-- Elements taken from one line, from element w.next on while they lie in it; at most n. -/
def WatchSt.take (s : Line) (line : Nat) (d : Line) : Nat → WatchSt → WatchSt
  | 0, w => w
  | n + 1, w =>
    let a := watchAddr s w.next
    if watchTotal s ≤ w.next || a / 64 != line then w
    else WatchSt.take s line d n (w.add s (fAt d (a % 64) 0 (8 * watchEsize s)))

/-- The next request of a WATCH, when a place is free: a line of its extent, or its record at the end. -/
def Blk.nextWatch (e : SbEntry) (b : Blk) : Blk :=
  match e.prog with
  | .watch w 0 none =>
    if w.written || !b.running || b.seqStopped e.q then b else
    let s := seqOf e.q
    let asked :=
      if w.next < watchTotal e.slot then
        b.seqAsk s e.q (.chunk e.n w.next 64 false) fun i => .rdonce (.seq (seqId s) i) (lineOf (watchAddr e.slot w.next))
      else
        let a := Slot.q64 e.slot 0x10
        b.seqAsk s e.q (.chunk e.n w.next 32 true) fun i =>
          .wr (.seq (seqId s) i) (lineOf a) (BitVec.ofNat 512 ((w.record e.slot).toNat * 2 ^ (8 * (a % 64)))) (maskOf (a % 64) 32)
    match asked with
    | none => b
    | some b => b.modEntry e.q e.n fun e => { e with prog := .watch { w with written := decide (watchTotal e.slot ≤ w.next) } 1 none }
  | _ => b
def Blk.startWatch (e : SbEntry) (b : Blk) : Blk :=
  let e := { e with started := true, prog := .watch {} 0 none }
  (b.modEntry e.q e.n fun _ => e).nextWatch e

/-- A response to a WATCH's request: a line read, or its record's acknowledgement (R154, R199). -/
def Blk.watchResp (x : Env) (q n : Nat) (write : Bool) (d : Line) (resp : BitVec 2) (b : Blk) : Blk :=
  match b.entry q n with
  | none => b
  | some e =>
    match e.prog with
    | .watch w _ err =>
      let put := fun (w : WatchSt) (st : Option Stat) =>
        b.modEntry q n fun e => { e with prog := .watch w 0 err, ending := e.ending.orElse fun _ => st }
      if e.ending.isSome then put w none
      else if resp ≠ 0 then put w (some (Stat.err Code.memFault (w.next * watchEsize e.slot)))
      else if write then
        let b := put w (some .ok)
        if b.trc.ctl.getLsbD 3 then
          let r := w.record e.slot
          b.traceBlk x 0x15 ([BitVec.ofNat 32 q, BitVec.ofNat 32 n, 0, 0]
            ++ (range 8).map fun i => BitVec.ofNat 32 (fld r (32 * i) 32))
        else b
      else
        let w := WatchSt.take e.slot (watchAddr e.slot w.next / 64) d 64 w
        let b := put w none
        match b.entry q n with
        | some e => b.nextWatch e
        | none => b
    | _ => b

end Sys2Proof.Machine
end

