-- ==== Sys2Proof/Machine/Commands.lean ====
section
/-! DEFINITION. The slot commands (07_commands): how a checked slot enters the scoreboard, how a command starts when the
order of its queue lets it (08 R213), and how it completes. -/

namespace Sys2Proof.Machine

/-! ### Requests of COPY, FILL and the loads -/

def fillLine (pattern : Nat) : Line :=
  BitVec.ofNat 512 ((range 8).foldl (fun a i => a + pattern * 2 ^ (64 * i)) 0)
/-- The next request of a COPY or FILL, when a place is free; no request crosses a line at either end. -/
def Blk.nextChunk (e : SbEntry) (b : Blk) : Blk :=
  match e.prog with
  | .xfer asked done 0 none =>
    let s := e.slot
    let sq := seqOf e.q
    if !b.running || b.seqStopped e.q then b else
    let went := fun (k : Nat) (r : Option Blk) =>
      match r with
      | none => b
      | some b => b.modEntry e.q e.n fun e => { e with prog := .xfer (max asked (done + k)) done 1 none }
    if e.opcode = opCOPY then
      let src := Slot.q64 s 8
      let dst := Slot.q64 s 0x10
      let n := Slot.q64 s 0x18
      if n ≤ done then b else
      let k := min (min (64 - (src + done) % 64) (64 - (dst + done) % 64)) (n - done)
      went k (b.seqAsk sq e.q (.chunk e.n done k false) fun i => .rdonce (.seq (seqId sq) i) (lineOf (src + done)))
    else
      let dst := Slot.q64 s 8
      let n := Slot.q64 s 0x10
      if n ≤ done then b else
      let k := min (64 - (dst + done) % 64) (n - done)
      went k (b.seqAsk sq e.q (.chunk e.n done k true) fun i =>
        .wr (.seq (seqId sq) i) (lineOf (dst + done)) (fillLine (Slot.q64 s 0x18)) (maskOf ((dst + done) % 64) k))
  | _ => b

def loadTargets (b : Blk) (q : Nat) (s : Line) : List Nat :=
  if Slot.flag16 s then b.wv.cur.queueEngines q else [Slot.engine s]
/-- Further line reads of an IMEM_LOAD (once for all targets) or a WEIGHT_STREAM (R197, R198). -/
def Blk.loadNext (ord : Nat) (b : Blk) : Blk :=
  match b.sb.find? fun e => e.ord == ord with
  | none => b
  | some e =>
    match e.prog with
    | .load l =>
      if e.ending.isSome || !b.running then b else
      let src := Slot.q64 e.slot 8
      let put := fun (l : LoadSt) (b : Blk) => b.modEntry e.q e.n fun e => { e with prog := .load l }
      if e.opcode = opIMEM then
        if SMap.get 0 l.outst 0 = 0 && decide (64 * SMap.get 0 l.got 0 < imemLen e.slot) then
          match l.targets with
          | [] => b
          | t :: _ => if h : t < 64 then
            (put { l with outst := SMap.set 0 l.outst 0 1 } b).send (.rdonce (.image ord ⟨t, h⟩) (lineOf (src + 64 * SMap.get 0 l.got 0)))
            else b
        else b
      else
        let len := Slot.d32 e.slot 0x14
        let need := l.targets.filter fun t => SMap.get 0 l.outst t == 0 && decide (64 * SMap.get 0 l.got t < len)
        if need.isEmpty then b else
        let l := { l with outst := need.foldl (fun m t => SMap.set 0 m t 1) l.outst }
        need.foldl (fun b t => if h : t < 64 then
          b.send (.rdonce (.stream ord ⟨t, h⟩) (lineOf (src + 64 * SMap.get 0 l.got t))) else b) (put l b)
    | _ => b
/-- A load ends early: banks in LOADING become EMPTY, banks in WAITING return to READY (R197, R466). -/
def Blk.endLoad (e : SbEntry) (l : LoadSt) (st : Stat) (b : Blk) : Blk :=
  let undo := fun (k : Bank) =>
    match k.st with
    | .loading => ({} : Bank)
    | .waiting => { k with st := .ready }
    | _ => k
  let b := if e.opcode = opIMEM then
      l.banks.foldl (fun b x => b.modEng x.1 fun v => v.setBank (x.2 == 2) (undo (v.bank (x.2 == 2)))) b
    else b
  b.modEntry e.q e.n fun e => { e with ending := e.ending.orElse fun _ => some st }
/-- A line read for an IMEM_LOAD or a WEIGHT_STREAM arrives. -/
def Blk.loadData (ord : Nat) (tgt : Nat) (d : Line) (resp : BitVec 2) (b : Blk) : Blk :=
  match b.sb.find? fun e => e.ord == ord with
  | none => b
  | some e =>
    match e.prog with
    | .load l =>
      let l := { l with outst := SMap.set 0 l.outst tgt (SMap.get 0 l.outst tgt - 1) }
      let got := SMap.get 0 l.got tgt
      let b := b.modEntry e.q e.n fun e => { e with prog := .load l }
      if e.ending.isSome then b
      else if resp ≠ 0 then b.endLoad e l (Stat.err Code.memFault (64 * got))
      else if e.opcode = opIMEM then
        let l := { l with data := l.data ++ [(got, d)], got := SMap.set 0 l.got 0 (got + 1) }
        let b := b.modEntry e.q e.n fun e => { e with prog := .load l }
        let b := l.banks.foldl (fun b x => b.modEng x.1 fun v =>
          if (v.bank (x.2 == 2)).st == .loading then
            let v := { v with bankClk := v.bankClk + 1 }
            v.setBank (x.2 == 2) ((v.bank (x.2 == 2)).fill v.bankClk (imemLen e.slot) l)
          else v) b
        b.loadNext ord
      else
        let a := fAt e.slot 0x10 0 20 + 64 * got
        let l := { l with got := SMap.set 0 l.got tgt (got + 1) }
        let b := b.modEntry e.q e.n fun e => { e with prog := .load l }
        let b := b.modEng tgt fun v => { v with lm := Mem.writeLine v.lm a d, badLm := v.badLm.erase (a / 64) }
        b.loadNext ord
    | _ => b

/-- Jobs whose work is on engine e: running, queued, saved. -/
def Blk.jobsOn (b : Blk) (e : Nat) : List Job :=
  let v := b.engine e
  v.job.toList ++ v.deque.map (·.1) ++ (v.save.map (·.job)).toList
/-- Launches on engine e meet a window; tiles that a steal brings there do not count yet (R198; log 165). -/
def Blk.winOn (b : Blk) (e base size : Nat) : Bool :=
  (b.jobsOn e).any (fun j => (b.launch? j).any fun l => winMeet l.winBase l.winSize base size)
    || (b.standOn e).any fun s => winMeet s.l.winBase s.l.winSize base size
/-- A started WEIGHT_STREAM into engine e meets a window (R198). -/
def Blk.streamMeets (b : Blk) (e base size : Nat) : Bool :=
  b.sb.any fun x => x.opcode == opWS && x.started &&
    (match x.prog with
     | .load l => l.targets.contains e && winMeet (fAt x.slot 0x10 0 20) (Slot.d32 x.slot 0x14) base size
     | _ => false)

/-! ### IMEM_LOAD, WEIGHT_STREAM, STAND and UNSTAND at start -/

/-- A launch runs on the engine, be it between two of its tiles, at a restore, or while the engine asks for more tiles. -/
def Blk.launchOn (b : Blk) (e : Nat) : Bool :=
  let v := b.engine e
  v.job.isSome || v.restore || (v.ran && v.lastJob.isSome) || (v.deque.any fun r => some r.1 == v.lastJob)
    || b.dsp.steals.any fun s => s.thief == e
/-- The bank an IMEM_LOAD targets (R98); `on`: a launch runs on the engine. -/
def Eng.loadTarget (v : Eng) (on active : Bool) : Bool :=
  if active then v.active
  else if on then !v.active
  else if v.bank0.st == .empty then false
  else if v.bank1.st == .empty then true
  else if decide (v.bank0.loadedAt < v.bank0.lastActive) || decide (v.bank1.loadedAt < v.bank1.lastActive) then
    decide (v.bank1.lastActive < v.bank0.lastActive)
  else decide (v.bank1.loadedAt < v.bank0.loadedAt)
def Eng.loadPending (v : Eng) : Bool :=
  v.bank0.st == .waiting || v.bank0.st == .loading || v.bank1.st == .waiting || v.bank1.st == .loading

def Blk.startImem (e : SbEntry) (b : Blk) : Blk :=
  let act := Slot.flag17 e.slot
  let ts := loadTargets b e.q e.slot
  let bad := ts.findSome? fun t =>
    let v := b.engine t
    if v.loadPending then some t
    else if b.pinned t (v.bank (v.loadTarget (b.launchOn t) act)) then some (t + 2 ^ 12) else none
  match bad with
  | some d => b.complete e (Stat.err Code.reloadBusy d) 0
  | none =>
    let banks : SMap Nat := ts.foldl (fun m t => SMap.set 0 m t (1 + b2n ((b.engine t).loadTarget (b.launchOn t) act))) []
    let id := BitVec.ofNat 16 (fAt e.slot 0x10 16 16)
    let b := ts.foldl (fun b t =>
      let on := b.launchOn t
      b.modEng t fun v =>
        let i := v.loadTarget on act
        v.setBank i { v.bank i with st := if act && on then .waiting else .loading, newProg := id }) b
    (b.modEntry e.q e.n fun e => { e with started := true, prog := .load { targets := ts, banks := banks } }).loadNext e.ord

def Blk.startStream (e : SbEntry) (b : Blk) : Blk :=
  let base := fAt e.slot 0x10 0 20
  let len := Slot.d32 e.slot 0x14
  if len = 0 then b.complete e .ok 0 else
  let ts := loadTargets b e.q e.slot
  match ts.find? fun t => b.winOn t base len with
  | some t => if b.wv.cur.queueTaut e.q then b.complete e (Stat.err Code.wsBusy t) 0 else b
  | none => (b.modEntry e.q e.n fun e => { e with started := true, prog := .load { targets := ts } }).loadNext e.ord

/-- Engines a STAND binds (R188). -/
def standEngines (w : Weave) (s : Line) : Option Nat × List Nat :=
  let e := Slot.engine s
  if Slot.flag16 s then
    match w.pairOf e with
    | some (i, t) => (some i, [t.a, t.b])
    | none => (none, [e])
  else (none, [e])
/-- A STAND starts to bind, on an engine that a pour is to change too (R188; log 161). -/
def Blk.startStand (e : SbEntry) (b : Blk) : Blk :=
  let s := e.slot
  let te := standEngines b.wv.cur s
  let l := launchOf e.desc (BitVec.ofNat 64 (Slot.q64 s 8))
  match te.2.find? fun t => (b.standOn t).isSome with
  | some t => b.complete e (Stat.err Code.standBusy t) 0
  | none =>
    if te.2.any fun t => ((b.engine t).bankFor l.prog).isNone && !(b.engine t).bankComing l.prog then
      b.complete e (Stat.err Code.progAbsent l.prog.toNat) 0
    else
      let st : Standing :=
        { ord := e.ord, q := e.q, n := e.n, eng := Slot.engine s, twinRec := te.1, l := l, epoch := e.epoch
          trigger := fAt s 0x10 0 20, step := BitVec.ofNat 64 (Slot.q64 s 0x18), thr := BitVec.ofNat 64 (Slot.q64 s 0x20)
          catchup := Slot.flag17 s, rrSlots := fAt s 0x14 0 17, rrBase := BitVec.ofNat 64 (Slot.q64 s 0x28)
          tieB := if e.okB then Slot.tieB s else 0, tieA := if e.okA then Slot.tieA s else 0
          copied := if l.ndesc = 0 then te.2 else [] }
      let b : Blk := { b with stand := b.stand ++ [st] }
      let b := b.modEntry e.q e.n fun e => { e with started := true }
      if l.ndesc = 0 then b else te.2.foldl (fun b t => b.readTdesc t st.job l) b
/-- STAND completes when each engine holds the program READY, and its descriptors are copied; the launch parks on its
trigger (R209) and has its first evaluation. -/
def Blk.bindStand (e : SbEntry) (b : Blk) : Blk :=
  match b.findStand e.q e.n with
  | none => b
  | some s =>
    let es := s.engines b.wv.cur
    if es.any fun t => ((b.engine t).bankFor s.l.prog).isNone && !(b.engine t).bankComing s.l.prog then
      ((b.unbind e.q e.n).complete e (Stat.err Code.progAbsent s.l.prog.toNat) 0)
    else if es.all fun t => ((b.engine t).bankFor s.l.prog).isSome && s.copied.contains t then
      let b := b.modStand e.q e.n fun s => { s with bound := true }
      let b := es.foldl (fun b t => b.modEng t fun v => if v.st == .idle then { v with st := .standing } else v) b
      let b := b.park { knot := s.trigger, stand := true, q := e.q, n := e.n }
      (b.complete e .ok 0).evalTrigger e.q e.n
    else b
/-- A Tether error on the copy at binding: the descriptor could not be read (log 120). -/
def Blk.standLost (q n : Nat) (b : Blk) : Blk :=
  match b.entry q n with
  | none => b
  | some e => (b.unbind q n).complete e (Stat.err Code.launchDesc 1) 0

def Blk.startUnstand (e : SbEntry) (b : Blk) : Blk :=
  let t := Slot.engine e.slot
  let mine := b.stand.find? fun s => (s.engines b.wv.cur).contains t && s.bound && !s.unbind
    && b.wv.cur.owner s.q == b.wv.cur.owner e.q
  match mine with
  | none => b.complete e (Stat.err Code.standNone t) 0
  | some s =>
    if s.running.isSome || s.recWait.isSome then
      (b.unbindSoon s.q s.n).modEntry e.q e.n fun e => { e with started := true, prog := .unstand true }
    else (b.unbind s.q s.n).complete e .ok 0

/-! ### Start and completion -/

/-- A decided HITCH completes (R193); a release by flag fences its queue (R215). -/
def Blk.completeHitch (e : SbEntry) (b : Blk) : Blk :=
  match e.prog with
  | .hitch (some (rel, det)) =>
    if !b.hitchMayComplete e || (b.fenced e).isSome then b
    else if rel = 0 then b.complete e .ok 0
    else
      let b := b.setQue e.q { b.que e.q with fence := some { hitch := e.n, flags := rel, detail := det } }
      b.complete e (Stat.err Code.hitchFlagged det.toNat) rel
  | _ => b

def tieOf (e : SbEntry) : Tie :=
  { knot := Slot.knot4 e.slot, op := tieOpOf (fAt e.slot 0 16 2), val := BitVec.ofNat 64 (Slot.q64 e.slot 8)
    flags := BitVec.ofNat 4 (fAt e.slot 0 20 4), epoch := e.epoch, src := .command }
/-- Body of a MARK record (R445). -/
def markBody (e : SbEntry) : List W32 :=
  let p := Slot.q64 e.slot 8
  [BitVec.ofNat 32 (fAt e.slot 4 0 32), BitVec.ofNat 32 e.q, BitVec.ofNat 32 e.n, 0, BitVec.ofNat 32 p,
   BitVec.ofNat 32 (p / 2 ^ 32), 0, 0]
/-- A MARK completes when its record is in the caddy, or at once with block trace off (R200, R446). -/
def Blk.startMark (x : Env) (e : SbEntry) (b : Blk) : Blk :=
  if !b.trc.ctl.getLsbD 0 then b.complete e .ok 0
  else if b.trc.caddy.room blkCap (markBody e) then (b.traceBlk x 0x10 (markBody e)).complete e .ok 0
  else b

/-- COPY and FILL begin with their first request. -/
def Blk.startXfer (e : SbEntry) (len : Nat) (b : Blk) : Blk :=
  if len = 0 then b.complete e .ok 0 else
  let e := { e with started := true, prog := .xfer 0 0 0 none }
  (b.modEntry e.q e.n fun _ => e).nextChunk e

/-- A command that its queue's order lets start is carried out, or begins. LAUNCH waits for the dispatcher (R228) unless
it has no tile (R201). -/
def Blk.startCmd (x : Env) (e : SbEntry) (b : Blk) : Blk :=
  let op := e.opcode
  if e.code ≠ 0 then b.complete e { fault := true, code := e.code, detail := e.detail } 0
  else if op = opNOP then b.complete e .ok 0
  else if op = opTAG then (b.noteTag e.q e.n (BitVec.ofNat 32 (Slot.d32 e.slot 4))).complete e .ok 0
  else if op = opMARK then b.startMark x e
  else if op = opTIE then (b.applyTie (tieOf e)).complete e .ok 0
  else if op = opMEMBAR then b.modEntry e.q e.n fun e => { e with started := true, prog := .membar false 0 }
  else if op = opUNSTAND then b.startUnstand e
  else if op = opCOPY then b.startXfer e (Slot.q64 e.slot 0x18)
  else if op = opFILL then b.startXfer e (Slot.q64 e.slot 0x10)
  else if op = opWATCH then b.startWatch e
  else if op = opIMEM then b.startImem e
  else if op = opWS then b.startStream e
  else if op = opSTAND then b.startStand e
  else if op = opLAUNCH then
    match e.launch? with
    | some l => if l.tiles = 0 then b.complete e .ok 0 else b
    | none => b
  else b

/-- Commands that R359 gives a sequencer to carry out. -/
def seqCarries (op : W8) : Bool :=
  op == opCOPY || op == opFILL || op == opWATCH || op == opMARK || op == opTAG || op == opNOP
/-- A command may start: nothing of R213 and no fence holds it, its queue is not closing, and a sequencer that is to carry
it out is not stopped (R373). A HITCH starts only to fail a check (R467). -/
def Blk.mayStart (b : Blk) (e : SbEntry) : Bool :=
  !e.started && e.ending.isNone && b.canStart e && (b.fenced e).isNone && (e.opcode != opHITCH || e.code != 0)
    && (b.que e.q).st != .closing && !(seqCarries e.opcode && e.code == 0 && b.seqStopped e.q)

/-- A decided HITCH that is no longer on its way to the dispatcher and that no lower command holds back (R211). -/
def Blk.hitchFree (b : Blk) (e : SbEntry) : Bool :=
  (match e.prog with
   | .hitch (some _) => true
   | _ => false) && !b.kn.wakes.any fun w => w.is false e.q e.n
/-- What a started command still waits for has come. -/
def Blk.finishCmd (e : SbEntry) (b : Blk) : Blk :=
  match e.prog with
  | .launch l =>
    if e.ending.isSome then b.finishLaunch e.q e.n
    else if l.twin.isNone && decide (l.doneTiles = l.tiles) && (b.holders e.job).isEmpty then
      (b.modEntry e.q e.n fun e => { e with ending := some l.stat }).finishLaunch e.q e.n
    else b
  | .xfer _ _ outst _ =>
    match e.ending with
    | some st => if outst = 0 then b.complete e st 0 else b
    | none => b
  | .watch _ outst _ =>
    match e.ending with
    | some st => if outst = 0 then b.complete e st 0 else b
    | none => b
  | .membar scanned wbs =>
    match e.ending with
    | some st => if wbs = 0 then b.complete e st 0 else b
    | none => if scanned && wbs == 0 then b.complete e .ok 0 else b
  | .load l =>
    let idle := l.outst.isEmpty
    match e.ending with
    | some st => if idle && e.owes.isEmpty then b.complete e st 0 else b
    | none =>
      let done := if e.opcode = opIMEM then
          decide (imemLen e.slot ≤ 64 * SMap.get 0 l.got 0) && l.banks.all fun x =>
            let k := ((b.engine x.1).bank (x.2 == 2)).st
            k != .waiting && k != .loading
        else l.targets.all fun t => decide (Slot.d32 e.slot 0x14 ≤ 64 * SMap.get 0 l.got t)
      if idle && done then b.complete e .ok 0 else b
  | .unstand true =>
    let t := Slot.engine e.slot
    if b.stand.any fun s => (s.engines b.wv.cur).contains t && s.unbind && b.wv.cur.owner s.q == b.wv.cur.owner e.q then b
    else b.complete e .ok 0
  | .hitch (some _) => if b.hitchFree e then b.completeHitch e else b
  | .none => if e.opcode = opSTAND && e.started then b.bindStand e else b
  | _ => b

/-- The command itself, once it is found (R166, R227). -/
def Blk.attempt (x : Env) (q n : Nat) (b : Blk) : Blk :=
  match b.entry q n with
  | none => b
  | some e => if b.mayStart e then b.startCmd x e else if (b.fenced e).isSome && e.ending.isNone then b else b.finishCmd e

/-! ### Commands that become eligible (R227) -/

/-- A started WEIGHT_STREAM into an engine that queue q's launches may use meets a window: a launch dispatched now would wait
(R198). -/
def Blk.streamHolds (b : Blk) (q : Nat) (l : Launch) : Bool :=
  (b.wv.cur.queueEngines q).any fun t => b.streamMeets t l.winBase l.winSize
/-- A LAUNCH is eligible (R228). -/
def Blk.eligible (b : Blk) (e : SbEntry) (l : Launch) : Bool :=
  e.code == 0 && e.ending.isNone && (b.fenced e).isNone
    && (e.started || (b.canStart e && (b.que e.q).st != .closing && !b.streamHolds e.q l))
/-- A launch that has become eligible begins to wait for engines (R235). -/
def Blk.noteWait (x : Env) (e : SbEntry) (l : Launch) (b : Blk) : Blk :=
  if e.started then b else
  let w := if b.eligible e l then l.waitFrom.orElse fun _ => some x.now else none
  if w = l.waitFrom then b else b.modLaunch e.job fun l => { l with waitFrom := w }
/-- The command, if it may start now, does so; a decided HITCH that may complete does; a transfer that had no place for
its request, or that a belay held, asks again. -/
def Blk.pumpOne (x : Env) (ord : Nat) (b : Blk) : Blk :=
  match b.sb.find? fun e => e.ord == ord with
  | none => b
  | some e =>
    let b := match e.launch? with
      | some l => b.noteWait x e l
      | none => b
    if b.mayStart e then b.startCmd x e
    else if b.hitchFree e then b.completeHitch e
    else if !e.started || e.ending.isSome then b
    else ((b.nextChunk e).nextWatch e).loadNext ord
/-- Commands that have become eligible are carried out, or begin, in scoreboard entry order. -/
def Blk.startEligible (x : Env) (b : Blk) : Blk := (b.sb.map (·.ord)).foldl (fun b o => b.pumpOne x o) b

/-! ### Launch descriptors at HEAD (R181 step 7, R361) -/

/-- The two descriptor lines of a slot: their numbers. -/
def descLine (l : Line) (half : Bool) : LineNo := lineOf (Slot.q64 l 8) + BitVec.ofNat 58 (b2n half)
def HeadDesc.has (d : HeadDesc) (half : Bool) : Bool := if half then d.have1 else d.have0
def halfPut {w : Nat} (buf : BitVec w) (half : Bool) (d : Line) : BitVec w := putFld buf (if half then 512 else 0) 512 d.toNat
/-- A line of the descriptor has come; or it could not be read. -/
def HeadDesc.take (d : HeadDesc) (half : Bool) (line : Line) (bad : Bool) : HeadDesc :=
  { d with data := if bad then d.data else halfPut d.data half line, bad := d.bad || bad
           have0 := d.have0 || !half, have1 := d.have1 || half }
def Blk.headFor (b : Blk) (q n : Nat) : Option HeadDesc :=
  (b.seq (seqOf q)).headDesc.bind fun d => if d.q = q ∧ d.n = n then some d else none
def Blk.setHead (s : Nat) (d : HeadDesc) (b : Blk) : Blk := b.setSeq s { b.seq s with headDesc := some d }
/-- A read of a line for a sequencer through its descriptor cache takes a place (R361, R368). -/
def Blk.askDesc (s q : Nat) (what : SeqReq) (line : LineNo) (b : Blk) : Blk :=
  match (b.seq s).freePlace with
  | none => b
  | some i => (b.setSeq s { b.seq s with outs := PMap.put i.val { q := q, what := what } (b.seq s).outs }).askLine
      ⟨64 + s % 4, by omega⟩ line.toNat (some q)
/-- A line the descriptor cache holds is used; for a taut queue it counts as read for one. -/
def Blk.useDesc (s q line : Nat) (b : Blk) : Blk :=
  match b.copy (64 + s % 4) line with
  | some c => (b.putCopy (64 + s % 4) line { c with who := if b.wv.cur.queueTaut q then 1 else c.who }).touch (64 + s % 4) line
  | none => b
/-- One half of the descriptor of the command at HEAD is taken from the cache, or asked for once. -/
def Blk.readHalf (q n : Nat) (l : Line) (half : Bool) (b : Blk) : Blk :=
  let s := seqOf q
  let line := descLine l half
  let d := (b.headFor q n).getD { q := q, n := n }
  if d.has half then b else
  match b.copy (64 + s % 4) line.toNat with
  | some c => (b.useDesc s q line.toNat).setHead s (d.take half c.data false)
  | none =>
    let asked := (b.seq s).outs.any fun o => o.2.q == q && o.2.what == .head n line half
    (if asked then b else b.askDesc s q (.head n line half) line).setHead s d
/-- The descriptor of a LAUNCH or STAND at HEAD is read once steps 1 to 6 of R181 pass. -/
def Blk.readHead (q : Nat) (b : Blk) : Blk :=
  let u := b.que q
  match b.heldLine q u.head with
  | none => b
  | some l =>
    if hasDesc (Slot.opcode l) && (checkEarly b.wv.cur (b.seat ((b.wv.cur.owner q).getD 0)).expert q l).isNone then
      (b.readHalf q u.head l false).readHalf q u.head l true
    else b
/-- The command at HEAD, slot `l`, has entered or been parsed: its descriptor is no longer awaited, and a slack queue's
lines are noted until COMP passes it (R361). -/
def Blk.takeDesc (q n : Nat) (l : Line) (b : Blk) : Blk :=
  let s := seqOf q
  let b := if (b.headFor q n).isSome then b.setSeq s { b.seq s with headDesc := none } else b
  if b.wv.cur.queueTaut q then b else
  b.setQue q { b.que q with descAt := PMap.put n (descLine l false).toNat (b.que q).descAt }

/-! ### Entry -/

/-- Command n of queue q is in the scoreboard, or has completed. -/
def Blk.entered (b : Blk) (q n : Nat) : Bool := (b.entry q n).isSome || (PMap.find n (b.que q).done).isSome
/-- The slot at HEAD of queue q, read and held by the sequencer that serves it, with the opcode of a command. -/
def Blk.slotReady (b : Blk) (q : Nat) (op : W8) : Option Line :=
  let u := b.que q
  let s := b.seq (seqOf q)
  if b.running && !b.flt.pcycReq && (u.st == .opened || u.st == .draining) && s.st == .running && s.serving && s.queue == q
      && decide (u.head < u.tail) && b.sbAvail q && !b.breakDue q u.head && !s.pend.contains 5
      && !b.entered q u.head then
    match b.heldLine q u.head with
    | some l => if Slot.opcode l = op then some l else none
    | none => none
  else none

/-- The entry of a slot whose checks gave `bad`. -/
def Blk.mkEntry (b : Blk) (q : Nat) (l : Line) (d : Option Desc) (bad : Option Bad) : SbEntry :=
  let owner := b.wv.cur.owner q
  let op := Slot.opcode l
  let prog := if bad.isSome then .none
    else if op = opHITCH then .hitch none
    else if op = opLAUNCH then .launch (launchOf (d.getD 0) (BitVec.ofNat 64 (Slot.q64 l 8))).whole
    else .none
  { ord := b.dsp.nextOrd, q := q, n := (b.que q).head, slot := l, desc := d.getD 0, opcode := op
    code := (bad.map (·.1)).getD 0, detail := BitVec.ofNat 64 ((bad.map (·.2)).getD 0), epoch := b.wv.epoch
    seat := owner.getD 0, okA := tieGood b.wv.cur owner (Slot.tieA l), okB := tieGood b.wv.cur owner (Slot.tieB l), prog := prog }
/-- The entry a checked slot makes. -/
def Blk.newEntry (b : Blk) (q : Nat) (l : Line) (d : Option Desc) : SbEntry :=
  b.mkEntry q l d (checkSlot b.wv.cur (b.seat ((b.wv.cur.owner q).getD 0)).expert q l d)
/-- The entry joins the scoreboard (R177). -/
def Blk.joinSb (e : SbEntry) (b : Blk) : Blk :=
  let owner := (b.wv.cur.owner e.q).getD 0
  let b : Blk := { b with sb := b.sb ++ [e], dsp := { b.dsp with nextOrd := b.dsp.nextOrd + 1 } }
  let b := b.bumpAll 0x03 owner
  let b := if hasDesc e.opcode then b.takeDesc e.q e.n e.slot else b
  if e.opcode = opLAUNCH then b.jobsLaunched e.seat else b
/-- The entry joins the scoreboard and HEAD passes its slot (R157). -/
def Blk.addEntry (e : SbEntry) (b : Blk) : Blk := (b.joinSb e).advanceHead e.q
/-- What a command that has just joined does at once: a HITCH is evaluated, and parks when it is unsatisfied or, with
SERIAL, behind earlier commands (R192, R209, R211); any other command starts where it may (R227). -/
def Blk.letIn (x : Env) (e : SbEntry) (b : Blk) : Blk :=
  if e.opcode = opHITCH && e.code == 0 then
    let k := Slot.knot4 e.slot
    match (if b.hitchOpen e then evalHitch e.slot k (b.knot k) else none) with
    | none => b.park { knot := k, stand := false, q := e.q, n := e.n }
    | some r =>
      let e := { e with prog := .hitch (some r) }
      (b.modEntry e.q e.n fun _ => e).completeHitch e
  else b.attempt x e.q e.n
/-- A slot with opcode `op` enters, and starts at once where it may (R227). -/
def Blk.enterSlot (x : Env) (q : Nat) (op : W8) (d : Option Desc) (b : Blk) : Blk :=
  match b.slotReady q op with
  | none => b
  | some l =>
    let e := b.newEntry q l d
    (b.addEntry e).letIn x e
/-- No waiter entry is free: the sequencer pauses fetching at the slot (R210). -/
def Blk.pauseAt (q : Nat) (b : Blk) : Blk :=
  let v := b.seq (seqOf q)
  let b : Blk := { b with kn := { b.kn with pauses := satInc b.kn.pauses } }
  (b.setSeq (seqOf q) { v with serving := false, st := .idle }).kick (seqOf q)

/-! ### Slots that enter by no row of their own -/

def closeStat (stale : Bool) : Stat := { aborted := !stale, stale := stale }
/-- Slots of queue q are only parsed: it closes (R174), or a power cycle has been ordered (R421; log 146). -/
def Blk.parsesOnly (b : Blk) (q : Nat) : Bool := (b.que q).st == .closing || b.flt.pcycReq
/-- Status and ties of a slot that is only parsed (R174 steps 8, 9; R421). A LAUNCH shows a stretch (R400). -/
def Blk.parseSlot (q : Nat) (l : Line) (b : Blk) : Blk :=
  let u := b.que q
  let owner := b.wv.cur.owner q
  let st := if u.st = .closing then closeStat u.staleClose else Stat.err Code.engReset 0
  let st := { st with stretched := Slot.opcode l == opLAUNCH && b.stretchSeen q u.head }
  let b := if hasDesc (Slot.opcode l) then b.takeDesc q u.head l else b
  let tie := fun (t : W64) (b : Blk) =>
    if tieGood b.wv.cur owner t then b.completionTie t (st.tieForm 0) b.wv.epoch else b
  let b := tie (Slot.tieB l) (tie (Slot.tieA l) b)
  (b.bumpAll 0x04 (owner.getD 0)).noteDone q u.head st (Slot.opcode l)
def Blk.parseOnly (q : Nat) (l : Line) (b : Blk) : Blk := (b.parseSlot q l).advanceHead q
/-- A slot that could not be read completes with QUE_FETCH and ties nothing (R171). -/
def Blk.slotLost (q : Nat) (b : Blk) : Blk :=
  let u := b.que q
  let b := b.setQue q { u with lost := u.lost.filter fun n => n != u.head }
  let b := (b.queErr q 8).bumpAll 0x04 ((b.wv.cur.owner q).getD 0)
  (b.noteDone q u.head (Stat.err Code.queFetch 0) 0xFF).advanceHead q
/-- The slots at HEAD of the served queue that were lost, that are only parsed, or whose opcode is not defined. One that
microcode has entered waits for its HEAD operation (14 R369). -/
def Blk.passHead (x : Env) (s : Nat) : Nat → Blk → Blk
  | 0, b => b
  | n + 1, b =>
    let v := b.seq s
    let q := v.queue
    let u := b.que q
    if !v.serving || v.st != .running || decide (u.tail ≤ u.head) then b
    else if u.lost.contains u.head then Blk.passHead x s n (b.slotLost q)
    else if b.entered q u.head then b
    else match b.heldLine q u.head with
      | none => b
      | some l =>
        if b.parsesOnly q then Blk.passHead x s n (b.parseOnly q l)
        else if (slotDefined (Slot.opcode l)).isNone && (b.slotReady q (Slot.opcode l)).isSome then
          Blk.passHead x s n (b.enterSlot x q (Slot.opcode l) none)
        else b

/-- A slot that names a descriptor enters when it fails an earlier check, or when both lines have come. -/
def Blk.enterDesc (x : Env) (q : Nat) (op : W8) (b : Blk) : Blk :=
  match b.slotReady q op with
  | none => b
  | some l =>
    if !hasDesc op || (checkEarly b.wv.cur (b.seat ((b.wv.cur.owner q).getD 0)).expert q l).isSome then b.enterSlot x q op none else
    match b.headFor q (b.que q).head with
    | some d => if d.have0 && d.have1 then b.enterSlot x q op (if d.bad then none else some d.data) else b.readHead q
    | none => b.readHead q

/-! ### What follows a completion, an entry or a free place (R158, R165, R210, R227) -/

/-- The served queue is paused: the sequencer leaves it and selects another (R158, R360); a pause for want of a waiter entry
is counted (R210). -/
def Blk.leavePaused (s : Nat) (b : Blk) : Blk :=
  let v := b.seq s
  if b.running && v.st == .running && v.serving && !b.wantsService v.queue && decide ((b.que v.queue).head < (b.que v.queue).tail)
  then
    let b := if b.waitPaused v.queue then { b with kn := { b.kn with pauses := satInc b.kn.pauses } } else b
    (b.setSeq s { v with serving := false, st := .idle }).kick s
  else b
/-- What a sequencer does by itself with its served queue: slots are read on, those that failed or are not to be entered
are passed, a descriptor is read; then a sequencer without a queue selects one. -/
def Blk.serve (x : Env) (s : Nat) (b : Blk) : Blk :=
  let b := (b.leavePaused s).kick s
  let v := b.seq s
  if b.running && v.st == .running && v.serving then
    let b := (b.passHead x s (1 + (b.qs.map fun u => u.2.tail - u.2.head).sum)).leavePaused s
    let v := b.seq s
    if v.serving && v.st == .running then (b.readOn v.queue).readHead v.queue else b
  else b
/-- After any step that completes a command, frees an entry or a place, or brings a slot. -/
def Blk.pump (x : Env) (b : Blk) : Blk :=
  if b.running then (range 4).foldl (fun b s => b.serve x s) (b.startEligible x) else b
/-- A meaning after which commands may become eligible. -/
def State.onWork (s : State) (f : Env → Blk → Blk) : Host.Outcome State Fault Refusal := s.onBlk fun x b => (f x b).pump x
/-- The same for the arrival of a response that a unit waits for. -/
def State.onArrival (s : State) (m : Instr) (f : Env → Blk → Blk) : Host.Outcome State Fault Refusal :=
  s.onBlk fun x b => if b.up && b.mayArrive m then (f x (b.arrived m)).pump x else b

def execNop (q : Queue) (s : State) : Host.Outcome State Fault Refusal :=
  s.onWork fun x b => b.enterSlot x q opNOP none
def execLaunch (q : Queue) (s : State) : Host.Outcome State Fault Refusal :=
  s.onWork fun x b => b.enterDesc x q opLAUNCH
def execUnstand (q : Queue) (s : State) : Host.Outcome State Fault Refusal :=
  s.onWork fun x b => b.enterSlot x q opUNSTAND none
def execTie (q : Queue) (s : State) : Host.Outcome State Fault Refusal :=
  s.onWork fun x b => b.enterSlot x q opTIE none
def execCopy (q : Queue) (s : State) : Host.Outcome State Fault Refusal :=
  s.onWork fun x b => b.enterSlot x q opCOPY none
def execFill (q : Queue) (s : State) : Host.Outcome State Fault Refusal :=
  s.onWork fun x b => b.enterSlot x q opFILL none
def execImemLoad (q : Queue) (s : State) : Host.Outcome State Fault Refusal :=
  s.onWork fun x b => b.enterSlot x q opIMEM none
def execWeightStream (q : Queue) (s : State) : Host.Outcome State Fault Refusal :=
  s.onWork fun x b => b.enterSlot x q opWS none
def execWatch (q : Queue) (s : State) : Host.Outcome State Fault Refusal :=
  s.onWork fun x b => b.enterSlot x q opWATCH none
def execMark (q : Queue) (s : State) : Host.Outcome State Fault Refusal :=
  s.onWork fun x b => b.enterSlot x q opMARK none
def execTag (q : Queue) (s : State) : Host.Outcome State Fault Refusal :=
  s.onWork fun x b => b.enterSlot x q opTAG none
def execMembar (q : Queue) (s : State) : Host.Outcome State Fault Refusal :=
  s.onWork fun x b => b.enterSlot x q opMEMBAR none

/-- A HITCH or STAND enters when a waiter entry is free; else fetching pauses (R210). -/
def Blk.enterWaiter (x : Env) (q : Nat) (op : W8) (b : Blk) : Blk :=
  if (b.slotReady q op).isSome && !b.waitAvail q then b.pauseAt q else b.enterDesc x q op
def execStand (q : Queue) (s : State) : Host.Outcome State Fault Refusal :=
  s.onWork fun x b => b.enterWaiter x q opSTAND
def execHitch (q : Queue) (s : State) : Host.Outcome State Fault Refusal :=
  s.onWork fun x b => b.enterWaiter x q opHITCH

/-- A command behind the fence completes without running, in index order; a MEMBAR ends the fence (R215). -/
def execFencedComplete (q : Queue) (s : State) : Host.Outcome State Fault Refusal :=
  s.onWork fun _ b =>
    if !b.running then b else
    match (b.que q).fence with
    | none => b
    | some f =>
      let mine := b.sb.filter fun e => e.q == q.val && decide (f.hitch < e.n) && e.opcode != opUNSTAND && e.ending.isNone
      match mine with
      | [] => b
      | e :: _ =>
        let b := if e.opcode = opMEMBAR then b.setQue q { b.que q with fence := none } else b
        b.complete e (Stat.err Code.hitchFlagged f.detail.toNat) f.flags

end Sys2Proof.Machine
end

