-- ==== Sys2Proof/Machine/Queues.lean ====
section
/-! DEFINITION. Queues (06_queues_and_submission): doorbells, creation, draining and aborting, slot reads, the completion
count, status records. -/

namespace Sys2Proof.Machine

/-! ### Doorbells (R163, R165) -/

def Blk.doorbell (q : Nat) (v : W32) (b : Blk) : Blk :=
  let u := b.que q
  let t := BitVec.ofNat 32 u.tail
  if u.st ≠ .opened then b.queErr q 5
  else if 2 ^ 31 ≤ (v - t).toNat then b.queErr q 6
  else if u.ringSlots.toNat < (v - BitVec.ofNat 32 u.comp).toNat then b.queErr q 7
  else if v = t then b
  else (b.setQue q { u with tail := u.tail + (v - t).toNat, wake := u.wake || u.idle }).bumpAll 0x02 ((b.wv.cur.owner q).getD 0)

/-! ### Creating (R162) -/

def ringSizeBad (n : Nat) : Bool := decide (n < 64) || decide (65536 < n) || !isPow2 n
/-- The first creation check that fails. -/
def Blk.createCheck (b : Blk) (q : Nat) : Option W8 :=
  let u := b.que q
  if b.wv.epoch = 0 || (b.wv.cur.queuePart q).isNone then some 2
  else if ringSizeBad u.ringSlots.toNat || (u.srEn && ringSizeBad u.srSlots.toNat) then some 3
  else if u.ringBase.toNat % 64 ≠ 0 || (u.srEn && u.srBase.toNat % 64 != 0) then some 4
  else none
def Que.opened' (u : Que) : Que :=
  { u with tail := 0, head := 0, comp := 0, lost := [], descAt := [], wake := false, idle := true, st := .opened, staleClose := false, closeDue := false, lastRec := 0,
           statusAcc := 0, srOn := u.srEn, done := [], srWait := false, srAcked := false, fence := none, owed := [],
           stretchTo := 0 }
def Blk.createQueue (q : Nat) (b : Blk) : Blk :=
  if (b.que q).st ≠ .free then b.queErr q 1 else
  match b.createCheck q with
  | some c => b.queErr q c
  | none => b.setQue q (b.que q).opened'

/-! ### Draining and aborting (R172 to R176, R466) -/

/-- Standing launches of a drained queue are unbound once COMP has reached TAIL (R173). -/
def Blk.drainStands (q : Nat) (b : Blk) : Blk :=
  let u := b.que q
  if u.st = .draining && u.comp == u.tail then
    ((b.stand.filter fun s => s.q == q && !s.unbind).map (·.n)).foldl (fun b n => b.unbindSoon q n) b
  else b
def Blk.drainQueue (q : Nat) (b : Blk) : Blk :=
  let u := b.que q
  if u.st ≠ .opened then b.queErr q 1 else (b.setQue q { u with st := .draining }).drainStands q

/-- Engines that hold the queue's work. -/
def Blk.owedBy (q : Nat) (es : List Nat) (b : Blk) : Blk :=
  b.setQue q { b.que q with owed := es.foldl addNew (b.que q).owed }
def Blk.oweEntry (e : SbEntry) (es : List Nat) (st : Stat) (b : Blk) : Blk :=
  (b.modEntry e.q e.n fun e => { e with owes := es, ending := e.ending.orElse fun _ => some st }).owedBy e.q es

/-- One command of a queue that closes (R174 steps 3 to 5, R466). -/
def Blk.closeEntry (st : Stat) (n q : Nat) (b : Blk) : Blk :=
  match b.entry q n with
  | none => b
  | some e =>
    match e.prog with
    | .launch _ =>
      let es := b.holders e.job
      let b := b.oweEntry e es st
      let b := b.dropTiles e.job
      let b := if b.wv.cur.queueTaut q then b else
        es.foldl (fun b t => if (b.engine t).job == some e.job then b.stopTile .abort t else b) b
      b.finishLaunch q n
    | .xfer _ _ outst _ =>
      if outst = 0 then b.complete e st 0 else b.modEntry q n fun e => { e with ending := e.ending.orElse fun _ => some st }
    | .watch _ outst _ =>
      if outst = 0 then b.complete e st 0 else b.modEntry q n fun e => { e with ending := e.ending.orElse fun _ => some st }
    | .membar _ wbs =>
      if wbs = 0 then b.complete e st 0 else b.modEntry q n fun e => { e with ending := e.ending.orElse fun _ => some st }
    | .load l =>
      if e.ending.isSome then b else
      let b := b.endLoad e l st
      let b := b.oweEntry e l.targets st
      match b.entry q n with
      | some e => b.finishCmd e
      | none => b
    | _ =>
      let b := if e.opcode = opSTAND then (b.unbind q n) else b
      b.complete e st 0
/-- A standing launch of a queue that closes: a run in progress is finished, and ends with the status (R174 steps 6, 7). -/
def Blk.closeStand (st : Stat) (q n : Nat) (b : Blk) : Blk :=
  match b.findStand q n with
  | none => b
  | some s =>
    let b := if s.running.isSome then
        (b.owedBy q (b.holders s.job)).modStand q n fun s => { s with ending := endingOf s.ending st }
      else b
    b.unbindSoon q n

/-- A trap cause of the sequencer that serves queue q (R370). -/
def Blk.trapServed (q cause : Nat) (b : Blk) : Blk :=
  let v := b.seq (seqOf q)
  if v.serving && v.queue == q && !v.pend.contains cause then b.setSeq (seqOf q) { v with pend := v.pend ++ [cause] } else b

/-- What a closing does to the queue's commands and standing launches (R174 steps 3 to 7). A pour that changes the owner retires
the standing launches (R67); the engines that run them hold the queue's work all the same (R176). -/
def Blk.closeSteps (q : Nat) (b : Blk) : Blk :=
  let stale := (b.que q).staleClose
  let b := b.setQue q { b.que q with closeDue := false }
  let st := closeStat stale
  let b := ((b.sb.filter fun e => e.q == q).map (·.n)).foldl (fun b n => b.closeEntry st n q) b
  if stale then b.owedBy q ((b.stand.filter fun s => s.q == q && s.running.isSome).flatMap fun s => b.holders s.job)
  else ((b.stand.filter fun s => s.q == q).map (·.n)).foldl (fun b n => b.closeStand st q n) b
/-- An OPEN or DRAINING queue enters CLOSING: by ABORT, or by a pour that changes its owner (R172, R176). In a belay its commands
wait for the release (17 R428). -/
def Blk.closeQueue (q : Nat) (stale : Bool) (b : Blk) : Blk :=
  let b := b.setQue q { b.que q with st := .closing, staleClose := stale, owed := [], closeDue := true }
  (if b.running then b.closeSteps q else b).trapServed q 4
def Blk.abortQueue (q : Nat) (b : Blk) : Blk :=
  match (b.que q).st with
  | .opened | .draining => b.closeQueue q false
  | _ => b

/-- A write of QUE_CTRL (R468). -/
def Blk.queCtrl (q : Nat) (create drain abort srEn irqEn : Bool) (b : Blk) : Blk :=
  let u := b.que q
  let b := b.setQue q { u with srEn := srEn, err := { u.err with irqEn := irqEn } }
  let b := if create then b.createQueue q else b
  let b := if drain then b.drainQueue q else b
  if abort then b.abortQueue q else b
def ctrlWord (c d a sr irq : Bool) : W32 :=
  BitVec.ofNat 32 (b2n c + 2 * b2n d + 4 * b2n a + 8 * b2n sr + 16 * b2n irq)

def execQueDoorbell (a : Acc) (q : Queue) (v : W32) (s : State) : Host.Outcome State Fault Refusal :=
  s.writeRow a (pageAddr q 0) v (fun x b => judgePage x b q a) fun _ b => b.doorbell q v
def execCreate (a : Acc) (q : Queue) (srEn irqEn : Bool) (s : State) : Host.Outcome State Fault Refusal :=
  s.writeRow a (pageAddr q 0x40) (ctrlWord true false false srEn irqEn) (fun x b => judgePage x b q a)
    fun _ b => b.queCtrl q true false false srEn irqEn
def execDrain (a : Acc) (q : Queue) (srEn irqEn : Bool) (s : State) : Host.Outcome State Fault Refusal :=
  s.writeRow a (pageAddr q 0x40) (ctrlWord false true false srEn irqEn) (fun x b => judgePage x b q a)
    fun x b => (b.queCtrl q false true false srEn irqEn).pump x
def execAbort (a : Acc) (q : Queue) (srEn irqEn : Bool) (s : State) : Host.Outcome State Fault Refusal :=
  s.writeRow a (pageAddr q 0x40) (ctrlWord false false true srEn irqEn) (fun x b => judgePage x b q a)
    fun x b => (b.queCtrl q false false true srEn irqEn).pump x

/-! ### The queue reaches FREE (R172) -/

def Blk.mayFree (b : Blk) (q : Nat) : Bool :=
  let u := b.que q
  u.comp == u.tail && b.standingCount q == 0 && !u.closeDue &&
    (match u.st with
     | .draining => true
     | .closing => u.owed.isEmpty
     | _ => false)
def execQueueFree (q : Queue) (s : State) : Host.Outcome State Fault Refusal :=
  s.onBlk fun _ b =>
    if b.running && b.mayFree q then
      let sq := b.seq (seqOf q)
      (b.setQue q { b.que q with st := .free, fence := none, lost := [] }).setSeq (seqOf q)
        { sq with lines := sq.lines.filter fun l => l.1 != q.val }
    else b

/-- The engine has stopped the queue's work: its tile with idle draws, its load with no request outstanding (R174, R175,
R466). -/
def Blk.hasStopped (b : Blk) (q e : Nat) : Bool :=
  let v := b.engine e
  let tile := match v.job with
    | some j => j.q != q || (v.stop == some .abort && v.channelsIdle)
    | none => true
  tile && !(v.deque.any fun r => r.1.q == q) && !b.sb.any fun x => x.q == q && (match x.prog with
    | .load l => x.ending.isSome && l.targets.contains e
        && !l.outst.isEmpty
    | _ => false)
def Blk.acknowledge (x : Env) (q e : Nat) (b : Blk) : Blk :=
  let v := b.engine e
  let b : Blk := match v.job with
    | some j => if j.q = q && v.stop == some StopKind.abort then b.leaveTile x e else b
    | none => b
  let b := b.setQue q { b.que q with owed := (b.que q).owed.erase e }
  let ns := (b.sb.filter fun f => f.q == q && f.owes.contains e).map (·.n)
  ns.foldl (fun b n =>
    let b := b.modEntry q n fun f => { f with owes := f.owes.erase e }
    match b.entry q n with
    | some f => b.finishCmd f
    | none => b) b
def execEngineAcknowledge (q : Queue) (e : EngineId) (s : State) : Host.Outcome State Fault Refusal :=
  s.onWork fun x b =>
    if b.running && (b.que q).owed.contains e.val && b.hasStopped q e then b.acknowledge x q e else b

/-! ### Reading slots (R157, R165, R171) -/

def execQueueWake (q : Queue) (s : State) : Host.Outcome State Fault Refusal :=
  s.onWork fun _ b =>
    let u := b.que q
    if b.running && u.wake && u.idle && b.wantsService q && (b.seq (seqOf q)).free then b.takeUp (seqOf q) q else b

/-- The place of a slot read of command n. -/
def Blk.slotPlace (b : Blk) (q n : Nat) : Option Nat :=
  ((b.seq (seqOf q)).outs.find? fun o => o.2.q == q && o.2.what == .slot n).map (·.1)
/-- A request of a sequencer came back with an error response: condition 5 and the RESP_ERR cause (R370, R371). -/
def Seq.respError (v : Seq) : Seq :=
  { v with errRec := true, pend := if v.shadow.isNone && !v.pend.contains 2 then v.pend ++ [2] else v.pend }
/-- A slot read returns: its place is free, and the slot is held; one that could not be read is noted until HEAD reaches it
(R157, R171). -/
def Blk.slotBack (q n : Nat) (line : Option Line) (b : Blk) : Blk :=
  let sq := seqOf q
  match b.slotPlace q n with
  | none => b
  | some i =>
    let b := b.freeOut sq i
    let b := if line.isNone then b.setSeq sq (b.seq sq).respError else b
    let u := b.que q
    if u.st = .free || decide (n < u.head) then b else
    match line with
    | none => b.setQue q { u with lost := if u.lost.contains n then u.lost else u.lost ++ [n] }
    | some l =>
      let v := b.seq sq
      b.setSeq sq { v with lines := (v.lines.filter fun l => !(l.1 == q && l.2.1 == n)) ++ [(q, n, l)] }
/-- An index as a count: the first from HEAD on whose low 32 bits it is. -/
def Blk.fullIndex (b : Blk) (q : Nat) (n : W32) : Nat := (b.que q).head + (n - BitVec.ofNat 32 (b.que q).head).toNat
def execSlotReadReturn (q : Queue) (n : W32) (line : Option Line) (s : State) : Host.Outcome State Fault Refusal :=
  s.onArrival (.slotReadReturn q n line) fun _ b => b.slotBack q (b.fullIndex q n) line

/-! ### Completion (R166 to R169) -/

def execCommandComplete (q : Queue) (n : Nat) (s : State) : Host.Outcome State Fault Refusal :=
  s.onWork fun x b => if b.running then b.attempt x q n else b

/-- Descriptor lines of a slack queue's command leave the descriptor cache, unless a taut queue reads them too (R361). -/
def Blk.dropDesc (q n : Nat) (b : Blk) : Blk :=
  let u := b.que q
  match PMap.find n u.descAt with
  | none => b
  | some line =>
    let a : AgentId := ⟨64 + seqOf q % 4, by omega⟩
    let drop := fun (b : Blk) (l : Nat) =>
      match b.copy a l with
      | some c => if c.who = 0 then b.evictLine a l c else b
      | none => b
    let b := b.setQue q { u with descAt := PMap.del n u.descAt }
    drop (drop b line) ((line + 1) % 2 ^ 58)
/-- COMP passes a command that HEAD has passed, whose status is known and whose record, if any, is acknowledged (R156, R166). -/
def Blk.compPass (q : Nat) (b : Blk) : Blk :=
  let u := b.que q
  match PMap.find u.comp u.done with
  | none => b
  | some r =>
    if (u.srOn && !u.srAcked) || decide (u.head ≤ u.comp) then b else
    let b := b.dropDesc q u.comp
    let u := b.que q
    let b := b.setQue q { u with lastRec := r, statusAcc := u.statusAcc ||| recFlags r, comp := u.comp + 1,
                                 done := PMap.del u.comp u.done, srWait := false, srAcked := false }
    (b.pumpSr q).drainStands q
def execCompAdvance (q : Queue) (s : State) : Host.Outcome State Fault Refusal :=
  s.onWork fun _ b => if b.running && (b.seq (seqOf q)).st != .broke then b.compPass q else b

/-- A record's write ended in an error response: the queue's error, and the sequencer's (R169, 14 R370). -/
def Blk.recFailed (q : Nat) (b : Blk) : Blk :=
  (b.queErr q 9).setSeq (seqOf q) ((b.queErr q 9).seq (seqOf q)).respError
def execStatusRecordAck (k : RecKind) (resp : BitVec 2) (s : State) : Host.Outcome State Fault Refusal :=
  s.onArrival (.statusRecordAck k resp) fun _ b =>
    match k with
    | .ring q =>
      let u := b.que q
      if u.srWait && !u.srAcked then
        let b := b.setQue q { u with srAcked := true }
        if resp = 0 then b else b.recFailed q
      else b
    | .run e =>
      match b.stand.find? fun s => s.eng == e.val && s.recWait.isSome && s.recSent && !s.recAcked with
      | none => b
      | some s =>
        let b := if resp = 0 then b else b.recFailed s.q
        let b := b.modStand s.q s.n fun s => { s with recAcked := true }
        if b.running then b.runAcked s.q s.n else b

end Sys2Proof.Machine
end

