-- ==== Sys2Proof/Machine/Knots.lean ====
section
/-! DEFINITION. Knots from the host's side (08 R222 to R226), and an uncorrectable error in a knot entry (R204). -/

namespace Sys2Proof.Machine

/-! ### Host ties (R224, R225) -/

/-- The code a host tie fails with; `stew` is the steward window. -/
def tieCheck (b : Blk) (seat : Nat) (stew : Bool) (w : W32) : Option W8 :=
  if 0xFFFF < fld w 0 20 then some 1
  else if !stew && (b.wv.epoch == 0 || b.wv.cur.knotOwner (fld w 0 20) != some seat) then some 2
  else if fld w 20 2 = 0 || fld w 26 6 != 0 then some 3
  else none
/-- A write of KNT_TIE_GO of window `win` (a seat, or 16 for the steward window): the tie takes its place in order, or a
refusal is recorded. -/
def Blk.hostTie (seat win : Nat) (w : W32) (b : Blk) : Blk :=
  let r := b.tieRegs win
  match tieCheck b seat (win == 16) w with
  | some c => b.setTieRegs win { r with err := r.err.record c }
  | none =>
    let t : Tie := { knot := fld w 0 20, op := tieOpOf (fld w 20 2), val := r.val, flags := BitVec.ofNat 4 (fld w 22 4)
                     epoch := b.wv.epoch, src := .host seat }
    { b with kn := { b.kn with tieQ := b.kn.tieQ ++ [t] } }

/-- The window a seat's access goes to when the row does not name it: the steward's with privilege, else its own. -/
def ownWindow (x : Env) (a : Acc) : Nat := if (judgeSteward x a).isNone then 16 else a.seat.val

def execKntTieGo (a : Acc) (w : W32) (s : State) : Host.Outcome State Fault Refusal :=
  let win := ownWindow s.env a
  s.writeRow a (if win = 16 then 0x2008 else seatAddr a.seat.val 0x108) w (fun _ _ => none)
    fun _ b => b.hostTie a.seat.val win w

/-! ### The knot window (R222, R223) -/

def knotReadable (x : Env) (b : Blk) (a : Acc) (k : Nat) : Bool :=
  b.wv.epoch != 0 && (fromSteward x a || b.wv.cur.knotOwner k == some a.seat.val)
/-- A tie of the seat to the knot is still on its way (R225). -/
def Blk.tieAhead (b : Blk) (seat k : Nat) : Bool := b.kn.tieQ.any fun t => t.knot == k && t.src == .host seat
/-- A read of KNT_WIN_VAL_LO ends the seat's capture, and captures the whole entry where the seat may read it. -/
def Blk.knotCapture (x : Env) (a : Acc) (k : Nat) (b : Blk) : Blk :=
  if knotReadable x b a k then
    let v := b.knot k
    (b.setSeat a.seat.val { b.seat a.seat.val with knotCap := some (k, v, b.waitersOn k) }).respond a.seat false
      (BitVec.ofNat 32 v.val.toNat)
  else (b.setSeat a.seat.val { b.seat a.seat.val with knotCap := none }).respond a.seat false 0
/-- The read is held while a tie of the seat's own is ahead of it. -/
def Blk.knotLoRead (x : Env) (a : Acc) (k : Nat) (b : Blk) : Blk :=
  if b.tieAhead a.seat.val k then
    b.setSeat a.seat.val { b.seat a.seat.val with
      unfin := some (.knotRead { acc := a, addr := BitVec.ofNat 22 (0x300000 + 16 * k), wdata := none }) }
  else b.knotCapture x a k
def execKntWinValLoRead (a : Acc) (k : BitVec 16) (s : State) : Host.Outcome State Fault Refusal :=
  .next (s.access a (BitVec.ofNat 22 (0x300000 + 16 * k.toNat)) none fun s =>
    { s with blk := s.blk.knotLoRead s.env a k.toNat })

/-! ### Waiter list (R226) and errors in an entry (R204) -/

def Blk.peakClr (b : Blk) : Blk := { b with kn := { b.kn with peak := b.kn.waiters.length } }
def execKntPeakClr (a : Acc) (s : State) : Host.Outcome State Fault Refusal :=
  s.writeRow a 0x2010 0x80000000 (onSteward · a) fun _ b => b.peakClr

/-- VALUE := 0, FLAGS := FAULT, and the parked waiters are evaluated as after a tie. -/
def Blk.knotEcc (k : Nat) (b : Blk) : Blk :=
  (b.setKnot k { b.knot k with val := 0, flags := fFAULT }).evalWaiters k
def execKnotEccError (k : BitVec 16) (s : State) : Host.Outcome State Fault Refusal :=
  s.onBlk fun _ b => if b.up then b.knotEcc k.toNat else b

end Sys2Proof.Machine
end

