-- ==== Sys2Proof/Machine/Draws.lean ====
section
/-! DEFINITION. Draw channels (03 R95, R96; 05 R145; 16 R413). A channel has one row outstanding (log 34). -/

namespace Sys2Proof.Machine

/-- Fields of a draw descriptor (R95). -/
structure DrawF where
  soc   : Nat
  lm    : Nat
  out   : Bool
  indexed : Bool
  idx   : Nat
  bytes : Nat
  c1 : Nat
  c2 : Nat
  c3 : Nat
  c4 : Nat
  s1 : Int
  s2 : Int
  s3 : Int
  s4 : Int
  l1 : Int
  l2 : Int
  l3 : Int
  l4 : Int
  deriving DecidableEq, Repr
def drawFields (d : Line) : DrawF :=
  let s := fun (i : Nat) => sgn 32 (fAt d (0x20 + 4 * i) 0 32)
  let l := fun (i : Nat) => sgn 21 (fAt d (0x30 + 4 * i) 0 21)
  { soc := fAt d 0 0 64, lm := fAt d 8 0 20, out := bit d (64 + 20), indexed := bit d (64 + 21), idx := fAt d 0xC 0 20
    bytes := fAt d 0x10 0 16, c1 := fAt d 0x10 16 16, c2 := fAt d 0x14 0 16, c3 := fAt d 0x14 16 16, c4 := fAt d 0x18 0 16
    s1 := s 0, s2 := s 1, s3 := s 2, s4 := s 3, l1 := l 0, l2 := l 1, l3 := l 2, l4 := l 3 }
def DrawF.rows (f : DrawF) : Nat := if f.bytes = 0 then 0 else f.c1 * f.c2 * f.c3 * f.c4
def lmSize : Nat := 786432
/-- ENG_ALIGN conditions of a descriptor. -/
def DrawF.misaligned (f : DrawF) : Bool :=
  f.soc % 64 != 0 || f.lm % 64 != 0 || f.bytes % 64 != 0 || (f.indexed && f.idx % 4 != 0)
    || ([f.s1, f.s2, f.s3, f.s4, f.l1, f.l2, f.l3, f.l4].any fun x => x % 64 != 0)
/-- A row outside local memory, or index entries outside it. -/
def DrawF.outOfRange (f : DrawF) : Bool :=
  let ends := [(f.c1, f.l1), (f.c2, f.l2), (f.c3, f.l3), (f.c4, f.l4)].map fun (p : Nat × Int) => ((p.1 : Int) - 1) * p.2
  let lo := (f.lm : Int) + (ends.map fun x => min 0 x).sum
  let hi := (f.lm : Int) + (ends.map fun x => max 0 x).sum + f.bytes
  decide (lo < 0) || decide ((lmSize : Int) < hi) || (f.indexed && decide (lmSize < f.idx + 4 * f.c1))
/-- SoC and local-memory address of row r. -/
def DrawF.rowAt (f : DrawF) (lm : Mem) (r : Nat) : Nat × Nat :=
  let j1 := r % f.c1
  let j2 := r / f.c1 % f.c2
  let j3 := r / f.c1 / f.c2 % f.c3
  let j4 := r / f.c1 / f.c2 / f.c3
  let k1 := if f.indexed then (lm.word (f.idx + 4 * j1)).toNat else j1
  let soc := (f.soc : Int) + k1 * f.s1 + j2 * f.s2 + j3 * f.s3 + j4 * f.s4
  let l := (f.lm : Int) + j1 * f.l1 + j2 * f.l2 + j3 * f.l3 + j4 * f.l4
  ((soc % 2 ^ 64).toNat, l.toNat)

def Eng.chan (v : Eng) (c : Nat) : DrawChan := SMap.get {} v.arch.chan c
def Eng.setChan (v : Eng) (c : Nat) (d : DrawChan) : Eng := { v with arch := { v.arch with chan := SMap.set {} v.arch.chan c d } }
/-! ### Cycles of an engine (R17, R92, R244) -/

/-- An engine that may issue: its tile has started and has not ended, faulted or been stopped. -/
def Eng.mayIssue (v : Eng) : Bool :=
  v.job.isSome && v.started && !v.ended && v.stop.isNone && v.pendFault.isNone && (v.st == .running || v.st == .frozen)
/-- Cycles of the tile in progress, from its first bundle to its completion: busy ones, and those among them that R17 counts
as shared-resource stalls. Those of slack engines enter ENGINE_LOAD (R247). -/
def Blk.cycles (e busy stall : Nat) (b : Blk) : Blk :=
  let b := b.bump (evEng e 0x01) busy
  let b : Blk := if b.wv.cur.isTaut e then b else
    { b with dsp := { b.dsp with loadNow := { b.dsp.loadNow with cycles := b.dsp.loadNow.cycles + busy } } }
  let v := b.engine e
  if v.step = 0 then b else
  ((b.setEng e { v with busy := v.busy + busy, stall := v.stall + stall }).bump (evEng e 0x03) busy).bump (evEng e 0x04) stall
/-- Of n accesses of the draw unit or an intake port, some wait 4 cycles for their bank and freeze the engine for one cycle
each (R92). How many do is a free value up to n (log 124). -/
def Blk.bankWait (e n : Nat) (b : Blk) : Blk :=
  if n = 0 || !(b.engine e).mayIssue then b else
  let y := b.drawFree
  let k := y.1.toNat % (n + 1)
  (y.2.cycles e k 0).bump (evEng e 0x05) k

/-! ### Rows -/

/-- The next row of a channel goes out: a read, or a write with the bytes local memory holds now, per line. -/
def Blk.issueRow (e ch : Nat) (b : Blk) : Blk :=
  let v := b.engine e
  let c := v.chan ch
  if !c.busy || c.issued != c.done || decide (c.rows ≤ c.issued) then b else
  let f := drawFields c.desc
  let a := f.rowAt v.lm c.issued
  -- a draw that reads a bad line faults the tile (R408 code 0)
  if (f.out && (range (f.bytes / 64)).any fun i => v.badLm.contains (a.2 / 64 + i))
      || (f.indexed && v.badLm.contains ((f.idx + 4 * (c.issued % f.c1)) / 64)) then
    b.setEng e { v with pendFault := v.pendFault.orElse fun _ => some (Code.engEcc, c.bundle) } else
  let n := f.bytes / 64
  let b := b.setEng e (v.setChan ch { c with issued := c.issued + 1, soc := a.1, lm := a.2, got := [], want := n, bad := false })
  let b := if f.out then b.bankWait e n else b
  if h : e < 64 then
    let id : Rq := .draw ⟨e, h⟩ ⟨ch % 4, Nat.mod_lt _ (by decide)⟩
    (range n).foldl (fun b i =>
      if f.out then b.send (.wr id (lineOf (a.1 + 64 * i)) (v.lm.readLine (a.2 + 64 * i)) (BitVec.allOnes 64))
      else b.send (.rdonce id (lineOf (a.1 + 64 * i)))) b
  else b
/-- A response to the row outstanding on a channel: a line read, an acknowledgement, or an error (R96). -/
def DrawChan.take (c : DrawChan) (line : LineNo) (d : Option Line) (bad : Bool) : DrawChan :=
  if c.want = 0 || c.got.any fun g => g.1 == line then c else
  { c with want := c.want - 1, bad := c.bad || bad, got := c.got ++ [(line, d.getD 0)] }
/-- Lines of the row outstanding that have had no response. -/
def DrawChan.open' (c : DrawChan) : List LineNo :=
  if c.want = 0 then [] else
  ((range ((drawFields c.desc).bytes / 64)).map fun i => lineOf (c.soc + 64 * i)).filter fun l => !c.got.any fun g => g.1 == l
def Blk.drawResp (e ch : Nat) (line : LineNo) (d : Option Line) (bad : Bool) (b : Blk) : Blk :=
  b.modEng e fun v =>
    if v.orphans.contains (ch, line) then { v with orphans := v.orphans.erase (ch, line) }
    else v.setChan ch ((v.chan ch).take line d bad)
/-- The same for a copy of tensor descriptors: the first that still wants the line (R186). -/
def DescCopy.wants (c : DescCopy) (line : Nat) : Bool :=
  decide (0 < c.want) && decide (c.first ≤ line) && decide (line < c.first + c.count) && !c.got.any fun g => g.1.toNat == line
def takeCopy (line : LineNo) (d : Line) (bad : Bool) : List DescCopy → List DescCopy
  | [] => []
  | c :: r => if c.wants line.toNat then { c with want := c.want - 1, bad := c.bad || bad, got := c.got ++ [(line, d)] } :: r
    else c :: takeCopy line d bad r
def Blk.copyResp (e : Nat) (line : LineNo) (d : Line) (bad : Bool) (b : Blk) : Blk :=
  b.modEng e fun v => { v with copies := takeCopy line d bad v.copies }
/-- Channels of a continued tile go on from their next rows (R104). -/
def Blk.resumeDraws (e : Nat) (b : Blk) : Blk := (range 4).foldl (fun b c => b.issueRow e c) b
/-- Lines read from SoC address `soc` on land in local memory from `lm` on, each whole (R93). -/
def Mem.landLines (m : Mem) (soc lm : Nat) (got : List (LineNo × Line)) : Mem :=
  got.foldl (fun m g => Mem.writeLine m (lm + 64 * (g.1 - lineOf soc).toNat) g.2) m
/-- The same into an engine's local memory; lines written whole are no longer bad (R408 code 0). -/
def Eng.landRow (v : Eng) (soc lm : Nat) (got : List (LineNo × Line)) : Eng :=
  let at' := got.map fun g => lm / 64 + (g.1 - lineOf soc).toNat
  { v with lm := v.lm.landLines soc lm got, badLm := v.badLm.filter fun l => !at'.contains l }

end Sys2Proof.Machine
end

