-- ==== Sys2Proof/Machine/Save.lean ====
section
/-! DEFINITION. Save areas (03 R102, R103; 01 R23): where an engine's lies, and its bytes. -/

namespace Sys2Proof.Machine

/-! ### Place (R103) -/

def clusterWays (w : Weave) (c : Nat) : W16 := ((w.cluster c).map (·.ways)).getD 0
def saveWays (w : Weave) (r : Nat) : W16 := ((w.region r).map (·.saveWays)).getD 0
/-- The n-th set bit of a way mask, from 0. -/
def nthWay (m : W16) (n : Nat) : Option Nat := ((range 16).filter fun i => m.getLsbD i)[n]?
/-- Where the bytes of a way of a region cache begin: 4,096 lines. -/
def saveWayBase (region way : Nat) : Nat := (16 * region + way) * 262144
/-- Way of the save area of engine e. -/
def saveWay (w : Weave) (e : Nat) : Option Nat := nthWay (saveWays w (e / 16)) (e % 16 / 8)

/-! ### Bytes (R103) -/

/-- A list of bytes brought to n with zeros. -/
def padTo (n : Nat) (l : List W8) : List W8 := (l ++ List.replicate (n - l.length) 0).take n
def agImage (a : AddrGen) : List W8 :=
  padTo 128 (toBytes 64 a.desc.toNat ++ toBytes 8 (a.base % 2 ^ 64).toNat ++ [a.i0, a.i1, a.i2, a.i3, a.i4].flatMap (toBytes 2))
def chanImage (c : DrawChan) : List W8 :=
  let f := drawFields c.desc
  let r := c.issued
  padTo 96 (toBytes 64 c.desc.toNat
    ++ [r % f.c1, r / f.c1 % f.c2, r / f.c1 / f.c2 % f.c3, r / f.c1 / f.c2 / f.c3].flatMap (toBytes 2) ++ [BitVec.ofNat 8 (b2n c.busy)])
def loopImage (l : LoopFrame) : List W8 :=
  padTo 16 (toBytes 4 (l.start + 2 ^ 16 * l.endA + 2 ^ 31) ++ toBytes 4 l.remaining)
/-- A pending write: the numbers of destination kinds, the index of a destination wider than its field and the order byte are not
given, and are free values (log 9). -/
def pendImage (step : Nat) (w : PendW) (b : Blk) : Blk × List W8 :=
  let y := b.drawFree
  let free := y.1.toNat
  let ix := match w.dest with
    | .v r | .wb r | .acc r | .ag r | .agIdx r | .tag r => r
    | _ => free / 256
  (y.2, toBytes 4 (free % 256 + 256 * (ix % 256) + 2 ^ 16 * ((w.land - step) % 16) + 2 ^ 20 * w.slot + 2 ^ 24 * (free / 65536 % 256))
    ++ toBytes 12 0 ++ toBytes 128 w.data.toNat)
def pendImages (step : Nat) (l : List PendW) (b : Blk) : Blk × List W8 :=
  l.foldl (fun y w =>
    let z := pendImage step w y.1
    (z.1, y.2 ++ z.2)) (b, [])
def tagImage (t : AccTag) : List W8 := padTo 8 (toBytes 2 t.row.toNat ++ toBytes 2 t.col0.toNat ++ toBytes 2 t.step.toNat)
/-- The bytes 0x0000 to 0x67FF of a save area. -/
def Blk.saveImage (s : SaveArea) (b : Blk) : Blk × List W8 :=
  let ar := s.arch
  let head := toBytes 4 0x4B534156 ++ toBytes 4 s.epoch.toNat ++ toBytes 4 (s.sbIndex + 2 ^ 16 * s.job.q)
    ++ toBytes 4 (s.prog.toNat + 2 ^ 16 * (s.ptr % 1024))
    ++ toBytes 2 ar.tileM.toNat ++ toBytes 2 ar.tileN.toNat ++ toBytes 4 (ar.tileB.toNat + 2 ^ 16 * ar.pend.length)
  let p := pendImages s.step ar.pend b
  (p.1,
   padTo 0x40 head ++ padTo 0x40 (ar.loops.flatMap loopImage) ++ (range 4).flatMap (fun g => agImage (SMap.get {} ar.ag g))
    ++ (range 4).flatMap (fun c => chanImage (SMap.get {} ar.chan c)) ++ (range 64).flatMap (fun r => tagImage (SMap.get {} ar.tag r))
    ++ padTo 0x200 (toBytes 64 ar.param.toNat)
    ++ (range 32).flatMap (fun r => toBytes 64 (SMap.get 0 ar.v r).toNat) ++ (range 128).flatMap (fun r => toBytes 64 (SMap.get 0 ar.wb r).toNat)
    ++ (range 64).flatMap (fun r => toBytes 128 (SMap.get 0 ar.acc r).toNat) ++ padTo 0x1800 p.2)
/-- The bytes of an area take the place of what lay there. -/
def Mem.putArea (m : Mem) (base size : Nat) (l : List W8) : Mem :=
  (m.filter fun c => decide (c.1 < base)) ++ ((l.take size).zipIdx.filterMap fun x => if x.1 = 0 then none else some (base + x.2, x.1))
    ++ m.filter fun c => decide (base + size ≤ c.1)
/-- The save of engine e is written to its area. -/
def Blk.writeSave (e : Nat) (s : SaveArea) (b : Blk) : Blk :=
  match saveWay b.wv.cur e with
  | none => b
  | some w =>
    let y := b.saveImage s
    { y.1 with mem := { y.1.mem with saves := y.1.mem.saves.putArea (saveWayBase (e / 16) w + 32768 * (e % 8)) 32768 y.2 } }
/-- What a save of engine v's tile of job j holds. -/
def Eng.saveOf (v : Eng) (b : Blk) (j : Job) : SaveArea :=
  { arch := v.arch, epoch := b.wv.epoch, sbIndex := ((b.entry j.q j.n).map (·.ord)).getD 0 % 2048, job := j
    prog := ((b.launch? j).map (·.prog)).getD 0, ptr := v.ptr, tile := v.tile
    step := v.step, numeric := v.numeric, digest := v.digest, apos := v.apos, mmFree := v.mmFree }

end Sys2Proof.Machine
end

