-- ==== Sys2Proof/Machine/Scheduling.lean ====
section
/-! DEFINITION. The dispatcher (09_scheduling_and_sharing): selection, placement, preemption, yields, stealing, standing
runs, wakes. -/

namespace Sys2Proof.Machine

/-! ### Order -/

/-- a before b, lexicographically. -/
def keyLt (a b : Nat × Nat × Nat) : Bool :=
  decide (a.1 < b.1) || (a.1 == b.1 && (decide (a.2.1 < b.2.1) || (a.2.1 == b.2.1 && decide (a.2.2 < b.2.2))))
def insertKey {α : Type} (key : α → Nat × Nat × Nat) (v : α) : List α → List α
  | [] => [v]
  | a :: t => if keyLt (key v) (key a) then v :: a :: t else a :: insertKey key v t
/-- Stable order by key. -/
def orderBy {α : Type} (key : α → Nat × Nat × Nat) (l : List α) : List α := l.foldl (fun s v => insertKey key v s) []

/-- Level or priority of a queue's work. -/
def Blk.levelOf (b : Blk) (q : Nat) : Nat := ((b.wv.cur.qmap q).map (·.prio)).getD 0
def Blk.partNum (b : Blk) (q : Nat) : Nat := (b.partNo q).getD 31

/-! ### Candidates (R228, R230) -/

/-- Tiles of a launch not yet placed: unplaced, and saved ones that lie on no deque (R235). -/
def Launch.toPlace (l : Launch) : Nat := rangesLen l.unplaced + l.saved.length
def twinLaunch (e : SbEntry) : Bool := e.opcode == opLAUNCH && Slot.flag16 e.slot
def Twin.restWaits (t : Twin) : Bool := !t.a.rest.isEmpty || !t.b.rest.isEmpty
/-- Eligible, and with something to place. -/
def Blk.candidate (b : Blk) (taut : Bool) (e : SbEntry) : Bool :=
  match e.launch? with
  | none => false
  | some l =>
    b.wv.cur.queueTaut e.q == taut && b.eligible e l
      && (match l.twin with
          | none => decide (0 < l.toPlace)
          | some t => t.restWaits && (b.holders e.job).isEmpty)
def Blk.candKey (b : Blk) (taut : Bool) (e : SbEntry) : Nat × Nat × Nat :=
  let prio := b.levelOf e.q
  let ptr := SMap.get 0 b.dsp.rr (8 * b.partNum e.q + prio)
  (7 - prio, if taut then 0 else (e.q + 1024 - ptr % 1024) % 1024, e.ord)
def Blk.candidates (b : Blk) (taut : Bool) : List SbEntry := orderBy (b.candKey taut) (b.sb.filter (b.candidate taut))

/-- Engines of a launch but arbiters. -/
def Blk.launchEngines (b : Blk) (q : Nat) : List Nat := (b.wv.cur.queueEngines q).filter fun t => !b.wv.cur.isArb t
/-- The engine runs no tile, holds none and waits for none, and is not changing, resetting or clearing. -/
def Blk.restsNow (b : Blk) (t : Nat) : Bool :=
  let v := b.engine t
  v.job.isNone && v.deque.isEmpty && !v.restore && (v.st == .idle || v.st == .standing)
    && !b.wv.changing.contains t && !(b.dsp.steals.any fun s => s.thief == t) && b.powered t
/-- The engine runs no tile, and holds none but of job j (R230). -/
def Blk.freeFor (b : Blk) (t : Nat) (j : Job) : Bool :=
  let v := b.engine t
  v.job.isNone && v.deque.all (·.1 == j) && (!v.restore || v.savedOf j) && (v.st == .idle || v.st == .standing || v.st == .restoring)
    && !b.wv.changing.contains t && !(b.dsp.steals.any fun s => s.thief == t) && b.powered t
/-- A standing launch bound to the engine lets another launch use it (R240). -/
def Blk.standLets (b : Blk) (l : Launch) (t : Nat) : Bool :=
  match b.standOn t with
  | none => true
  | some s => s.waiting.isNone && s.running.isNone && !winMeet s.l.winBase s.l.winSize l.winBase l.winSize
/-- The engine may begin the launch now: a bank is READY with its program, and no stream meets its window (R97, R198). -/
def Blk.readyFor (b : Blk) (l : Launch) (t : Nat) : Bool :=
  ((b.engine t).bankFor l.prog).isSome && !b.streamMeets t l.winBase l.winSize

/-- Engines a taut launch may hold (R230). -/
def tautCap (w : Weave) (p : WvPart) : Nat :=
  let n := ((range 64).filter fun t => p.mask.getLsbD t && !w.isArb t).length
  max 1 (n / max 1 p.maxInflight)
/-- Engines of a job: those that run or queue its tiles, and those that tiles taken by a steal are on their way to. -/
def Blk.holding (b : Blk) (j : Job) : List Nat :=
  ((b.dsp.steals.filter fun s => s.tiles.any (·.1 == j)).map (·.thief)).foldl addNew (b.holders j)
def Blk.runningOn (b : Blk) (p : Nat) : Nat :=
  b.sb.countP fun e => b.partNo e.q == some p && e.launch?.isSome && !(b.holding e.job).isEmpty

/-! ### Victims (R232, R233) -/

def Blk.isTwinJob (b : Blk) (j : Job) : Bool := ((b.launch? j).bind (·.twin)).isSome
/-- The job still waits for engines that yield to it: a launch with something to place, a run that has been triggered. -/
def Blk.wantsYield (b : Blk) (j : Job) : Bool :=
  if j.run then (b.findStand j.q j.n).any fun s => s.waiting.isSome && !s.unbind
  else match b.entry j.q j.n, b.launch? j with
    | some e, some l => e.ending.isNone && (match l.twin with
        | none => decide (0 < l.toPlace)
        | some t => t.restWaits)
    | _, _ => false
/-- The launch or run that engine t is marked for; the mark of one that waits no more, or that an engine which has let go cannot
run, has no effect (R239; log 148). -/
def Blk.markOf (b : Blk) (t : Nat) : Option Job :=
  let v := b.engine t
  v.yieldTo.filter fun j => b.wantsYield j && (v.job.isSome || !v.deque.isEmpty
    || (b.launch? j).any fun l => (v.bankFor l.prog).isSome || v.bankComing l.prog)
/-- Tiles of victim t that the thief may take: none when the victim does not qualify (R233). -/
def Blk.stealable (b : Blk) (thief t : Nat) : Nat :=
  let v := b.engine t
  match v.deque.head? with
  | none => 0
  | some (j, _) =>
    let ok := !j.run && !b.isTwinJob j && !v.preempt && (b.markOf t).isNone && v.stop.isNone && !b.wv.cur.isArb t && t != thief
      && (b.wv.cur.queueEngines j.q).contains thief && !b.wv.changing.contains t && !b.retired j
      && (match b.entry j.q j.n with
          | some e => e.ending.isNone
          | none => false)
      && !((b.holders j).any fun h => (b.engine h).preempt)
      && (match b.launch? j with
          | some l => b.readyFor l thief && b.standLets l thief
          | none => false)
    if ok then v.queued else 0
/-- The victim of R232: the cluster first, then the region. -/
def Blk.victim (b : Blk) (thief : Nat) : Option Nat :=
  let pick := fun (es : List Nat) (least : Nat) =>
    (orderBy (fun t => (1000000000 - b.stealable thief t, (if t % 4 = thief % 4 then 0 else 1), t))
      (es.filter fun t => decide (least ≤ b.stealable thief t))).head?
  let cl := (range 64).filter fun t => t / 4 == thief / 4 && t != thief
  let rg := (range 64).filter fun t => t / 16 == thief / 16 && t / 4 != thief / 4
  (pick cl 1).orElse fun _ => pick rg 2
/-- The engine is one of a pair that runs a twin launch or run (R242). -/
def Blk.twinRuns (b : Blk) (t : Nat) : Bool :=
  let on := fun (l : Launch) => l.twin.any fun tw => (b.wv.cur.twin tw.pairIx).any fun p => p.a == t || p.b == t
  (b.sb.any fun e => e.launch?.any on) || b.stand.any fun s => s.running.isSome && on s.l
/-- The engine has completed a tile, has none left, and asks for more (R231, R232). -/
def Blk.maySteal (b : Blk) (t : Nat) : Bool :=
  b.restsNow t && (b.engine t).ran && (b.markOf t).isNone && !(b.engine t).preempt && !b.wv.cur.isArb t && !b.twinRuns t
    && (match b.wv.cur.partOf t with
        | some p => !(b.partCtl p.num).noSteal
        | none => false)
/-- An engine out of tiles that can steal none is idle (R231). -/
def Blk.wantsSteal (b : Blk) (t : Nat) : Bool := b.maySteal t && (b.victim t).isSome

/-! ### Allowed idle engines (R230) -/

/-- The engine runs no tile, holds none of another launch, and is marked neither for a preemption nor for a yield to another. -/
def Blk.idleEng (b : Blk) (t : Nat) (j : Job) : Bool :=
  b.freeFor t j && (b.markOf t).all (· == j) && !(b.engine t).preempt && !b.wantsSteal t
/-- Allowed and idle for a launch; one with a standing binding counts when no other is, and its windows let it (R240). -/
def Blk.allowedIdle (b : Blk) (e : SbEntry) (l : Launch) : List Nat :=
  let es := (b.launchEngines e.q).filter fun t => b.idleEng t e.job && b.standLets l t
  let free := es.filter fun t => (b.standOn t).isNone
  if free.isEmpty then es else free
/-- Both allowed and idle, with the program READY (R242). -/
def Blk.idleFor (b : Blk) (j : Job) (l : Launch) (t : Nat) : Bool := b.idleEng t j && b.readyFor l t && b.standLets l t

/-! ### Assignment (R231, R238) -/

/-- A save on engine t whose launch's window meets that of the launch given to it restarts its tile (R104). A launch that is
given the engine of its own save takes the saved tile up first (R238), so that save is kept where `own` says so; tiles that a steal
brings spoil it. -/
def Blk.spoil (t : Nat) (j : Job) (l : Launch) (own : Bool) (b : Blk) : Blk :=
  match (b.engine t).save with
  | none => b
  | some s =>
    if s.job = j && own then b else
    let meets := match b.launch? s.job with
      | none => true
      | some o => winMeet o.winBase o.winSize l.winBase l.winSize
    if meets then
      (b.modEng t fun v => { v with save := none }).modLaunch s.job fun o =>
        { o with saved := o.saved.filter fun x => x.1 != t, unplaced := insRange { lo := s.tile, hi := s.tile + 1 } o.unplaced }
    else b
/-- Engine t takes tiles of job j, and serves the lowest range first (R231). A launch placed while the latest item delivered there is CONCEALED is so too (R298). -/
def Blk.give (x : Env) (t : Nat) (j : Job) (l : Launch) (rs : List Range) (own : Bool) (b : Blk) : Blk :=
  let b := b.spoil t j l own
  let b := b.modEng t fun v => { v with deque := orderBy (fun r => (r.2.lo, 0, 0)) (v.deque ++ rs.map fun r => (j, r)), yieldTo := none,
                                        runFrom := if v.lastJob = some j then v.runFrom else x.now }
  let b := if !j.run && (b.engine t).concealed then b.modLaunch j fun l => { l with concealed := true } else b
  b.begin t j
/-- The engine that holds a save of the launch takes its tile up again. -/
def Blk.resumeSave (x : Env) (t : Nat) (j : Job) (b : Blk) : Blk :=
  if (b.engine t).savedOf j then
    (b.modEng t fun v => ({ v with restore := true } : Eng).enter x .restoring).modLaunch j fun l =>
      { l with saved := l.saved.filter fun s => s.1 != t }
  else b
def Blk.assign (x : Env) (e : SbEntry) (taut : Bool) (chosen : List Nat) (b : Blk) : Blk :=
  let j := e.job
  match b.launch? j with
  | none => b
  | some l =>
    let u := rangesLen l.unplaced
    let k := chosen.length
    let r := chosen.zipIdx.foldl (fun (acc : Blk × List Range) (ti : Nat × Nat) =>
      let sp := takeTiles (share u k ti.2) acc.2
      let room := 8 - (acc.1.engine ti.1).deque.length
      let mine := sp.1.take room
      let rest := (sp.1.drop room) ++ sp.2
      if mine.isEmpty && !((acc.1.engine ti.1).savedOf j) then (acc.1, rest)
      else (((acc.1.give x ti.1 j l mine true).resumeSave x ti.1 j), rest)) (b, l.unplaced)
    let b := r.1.modLaunch j fun l => { l with unplaced := r.2
                                               startAt := if e.started then l.startAt else x.now }
    let b := b.markStarted j
    let b := b.bump (evBlk 0x05 (if taut then 0 else 1)) 1
    if taut then b else
    { b with dsp := { b.dsp with rr := SMap.set 0 b.dsp.rr (8 * b.partNum e.q + b.levelOf e.q) ((e.q + 1) % 1024) } }
/-- Engines a launch may still take: as many as it has tiles to place; a taut launch, up to its cap (R230). -/
def Blk.placeCap (b : Blk) (e : SbEntry) (l : Launch) (taut : Bool) : Nat :=
  if taut then
    match b.wv.cur.queuePart e.q with
    | some p => min l.toPlace (tautCap b.wv.cur p - (b.holding e.job).length)
    | none => l.toPlace
  else l.toPlace
/-- The engines of choose that hold the program READY, by engine ID (R97, R230). An engine that holds a save of the launch
is among them, since its tile is placed there first (R238; log 121). -/
def Blk.choose (b : Blk) (e : SbEntry) (l : Launch) (taut : Bool) (es : List Nat) : List Nat :=
  let ready := es.filter (b.readyFor l)
  let cap := b.placeCap e l taut
  let saves := (ready.filter fun t => (b.engine t).savedOf e.job).take cap
  let others := (ready.filter fun t => !(b.engine t).savedOf e.job).take (min (rangesLen l.unplaced) (cap - saves.length))
  ready.filter fun t => saves.contains t || others.contains t
/-- Saved tiles of a launch that is selected, with allowed idle engines `es`: one whose engine is not among them, or no longer holds
the program, restarts as an unplaced tile (R104, R238). -/
def Blk.freeSaves (e : SbEntry) (es : List Nat) (b : Blk) : Blk :=
  match e.launch? with
  | none => b
  | some l => l.saved.foldl (fun b s =>
      let v := b.engine s.1
      if es.contains s.1 && ((v.bankFor l.prog).isSome || v.bankComing l.prog) then b else
      (b.modEng s.1 fun v => { v with save := none }).modLaunch e.job fun l =>
        { l with saved := l.saved.filter fun y => y != s, unplaced := insRange { lo := s.2, hi := s.2 + 1 } l.unplaced }) b

/-! ### Twin assignment (R242, R465) -/

/-- TWIN records whose engines the queue may use, in weave order, with their index. -/
def Blk.pairsFor (b : Blk) (q : Nat) : List (WvTwin × Nat) :=
  let es := b.wv.cur.queueEngines q
  b.wv.cur.twins.zipIdx.filter fun p => es.contains p.1.a && es.contains p.1.b
def Blk.assignTwin (x : Env) (e : SbEntry) (l : Launch) (b : Blk) : Option Blk :=
  let fits := fun (p : WvTwin × Nat) => b.idleFor e.job l p.1.a && b.idleFor e.job l p.1.b
    && (match l.twin with
        | some t => t.pairIx == p.2
        | none => true)
  match (b.pairsFor e.q).find? fits with
  | none => none
  | some p =>
    let all : List Range := [{ lo := 0, hi := l.tiles }]
    let ra := match l.twin with
      | some t => t.a.rest
      | none => all
    let rb := match l.twin with
      | some t => t.b.rest
      | none => all
    let give := fun (t : Nat) (rs : List Range) (b : Blk) => if rs.isEmpty then b else b.give x t e.job l rs true
    let b := give p.1.b rb (give p.1.a ra b)
    let b := b.modLaunch e.job fun l =>
      let t := l.twin.getD { pairIx := p.2 }
      { l with unplaced := [], startAt := if e.started then l.startAt else x.now,
               twin := some { t with a := { t.a with rest := [] }, b := { t.b with rest := [] } } }
    some ((b.markStarted e.job).bump (evBlk 0x05 0) 1)

/-! ### Yields (R239) and preemption (R235) -/

/-- The launch or run an engine is at work on: its tile's, the one it restores, else its first queued tile's. -/
def Eng.jobOn (v : Eng) : Option Job :=
  v.job.orElse fun _ => (if v.restore then v.save.map (·.job) else none).orElse fun _ => v.deque.head?.map (·.1)
/-- Level or priority of the launch or run on an engine. -/
def Blk.levelOn (b : Blk) (t : Nat) : Option Nat := (b.engine t).jobOn.map fun j => b.levelOf j.q
/-- A launch's tiles on engine t go back to it as unplaced. A twin launch keeps each engine's own; an arbiter's third issue, of which
no tile has begun, is called for again. -/
def Blk.returnWork (j : Job) (t : Nat) (b : Blk) : Blk :=
  if !b.isTwinJob j then b.returnQueued j t else
  let rs := ((b.engine t).deque.filter fun r => r.1 == j).map (·.2)
  let back : Twin → Twin := fun tw =>
    match b.wv.cur.twin tw.pairIx with
    | some p =>
      if p.arb = t then { tw with c := {}, run3 := false }
      else if p.a = t then { tw with a := { tw.a with rest := rs } } else { tw with b := { tw.b with rest := rs } }
    | none => tw
  (b.dropQueued j t).modLaunch j fun l => { l with twin := l.twin.map back }
/-- A yielding engine's queued tiles go back; a run that has been sent stays (R240). -/
def Blk.yieldQueued (t : Nat) (b : Blk) : Blk :=
  match (b.engine t).deque.head? with
  | none => b
  | some (j, _) => if j.run then b else b.returnWork j t
/-- At a tile boundary a marked engine lets go of its launch, for the one it is marked for (R239). Until then its queued tiles stay
with it, and no thief takes them (log 148). -/
def Blk.yieldNow (t : Nat) (b : Blk) : Blk :=
  ((b.yieldQueued t).bump (evBlk 0x07 (b.partField t).toNat) 1).idleIfDone t
/-- Engine t is marked for job j. One between tiles lets go at once; one with a run that has been sent ends it first (R240). -/
def Blk.markYield (j : Job) (t : Nat) (b : Blk) : Blk :=
  if (b.markOf t).isSome then b else
  let b := b.modEng t fun v => { v with yieldTo := some j }
  let v := b.engine t
  if v.job.isNone && !v.deque.any (·.1.run) then b.yieldNow t else b
/-- Engines of a list that run launches of a level below v, lowest level first, then higher engine ID. -/
def Blk.lowerEngines (b : Blk) (es : List Nat) (v : Nat) : List Nat :=
  let cs := es.filter fun t => (b.levelOn t).any (fun l => decide (l < v)) && (b.engine t).stop.isNone
  orderBy (fun t => ((b.levelOn t).getD 0, 63 - t, 0)) cs
/-- A launch without an allowed idle engine may make engines of lower launches yield (R239); a twin launch, the two of one
pair: the first whose engines both run launches of lower level, and no other until it has been taken (R242). -/
def Blk.considerYield (e : SbEntry) (l : Launch) (b : Blk) : Blk :=
  let v := b.levelOf e.q
  if twinLaunch e then
    if (range 64).any fun t => b.markOf t == some e.job then b else
    match (b.pairsFor e.q).find? fun p => (b.lowerEngines [p.1.a, p.1.b] v).length == 2 with
    | some p => (b.markYield e.job p.1.a).markYield e.job p.1.b
    | none => b
  else
    let marked := ((b.launchEngines e.q).filter fun t => b.markOf t == some e.job).length
    let free := (b.lowerEngines (b.launchEngines e.q) v).filter fun t => (b.markOf t).isNone
    (free.take (b.placeCap e l true - marked)).foldl (fun b t => b.markYield e.job t) b

/-- A preemption request is on its way to the engine. -/
def Blk.preempt (t : Nat) (b : Blk) : Blk :=
  let b := b.modEng t fun v => { v with preempt := true }
  ({ b with dsp := { b.dsp with preempts := b.dsp.preempts ++ [t] } } : Blk).bump (evBlk 0x06 (b.partField t).toNat) 1
/-- Slack engines that may be preempted, with those of the launch that started last, then the higher ID, first. -/
def Blk.preemptees (b : Blk) (q : Nat) (ok : Nat → Nat → Bool) : List Nat :=
  let es := (b.launchEngines q).filter fun t =>
    let v := b.engine t
    !v.preempt && v.stop.isNone && v.st != .saving && v.st != .resetting && v.st != .clearing &&
      (match b.levelOn t with
       | some l => ok t l
       | none => false)
  let started := fun (t : Nat) =>
    let v := b.engine t
    match v.jobOn with
    | some j => ((b.launch? j).map (·.startAt.toNat)).getD 0
    | none => 0
  orderBy (fun t => ((b.levelOn t).getD 0, 2 ^ 64 - started t, 63 - t)) es
def Blk.considerPreempt (e : SbEntry) (l : Launch) (b : Blk) : Blk :=
  let v := b.levelOf e.q
  let marked := ((b.launchEngines e.q).filter fun t => (b.engine t).preempt).length
  ((b.preemptees e.q fun _ p => decide (p < v)).take (l.toPlace - marked)).foldl (fun b t => b.preempt t) b

/-! ### Selection (R230) -/

/-- Engines whose banks a launch may use: a twin launch, those of its queue's pairs (07 R187, 16 R465). -/
def Blk.targetsOf (b : Blk) (e : SbEntry) : List Nat :=
  if twinLaunch e then (b.pairsFor e.q).flatMap fun p => [p.1.a, p.1.b] else b.launchEngines e.q
def Blk.progSomewhere (b : Blk) (e : SbEntry) (p : W16) : Bool :=
  (b.targetsOf e).any fun t => ((b.engine t).bankFor p).isSome || (b.engine t).bankComing p
/-- One candidate: the block after, and whether the selection is over. -/
def Blk.tryCandidate (x : Env) (taut : Bool) (e : SbEntry) (b : Blk) : Blk × Bool :=
  match e.launch? with
  | none => (b, false)
  | some l =>
    let holds := !(b.holding e.job).isEmpty
    let full := match b.wv.cur.queuePart e.q with
      | some p => taut && !holds && decide (p.maxInflight ≤ b.runningOn p.num)
      | none => true
    if full then (b, false) else
    if !e.started && !b.progSomewhere e l.prog then (b.complete e (Stat.err Code.progAbsent l.prog.toNat) 0, false) else
    if twinLaunch e then
      match b.assignTwin x e l with
      | some b => (b, true)
      | none => (b.considerYield e l, false)
    else
      let es := b.allowedIdle e l
      if es.isEmpty then ((if taut then b.considerYield e l else b.considerPreempt e l), false)
      else if !es.any (b.readyFor l) then (b, false) else
      let b := b.freeSaves e es
      let l := (b.launch? e.job).getD l
      let ch := b.choose e l taut es
      if ch.isEmpty then (b, false) else (b.assign x e taut ch, true)
def Blk.selectFrom (x : Env) (taut : Bool) : List SbEntry → Blk → Blk
  | [], b => b
  | e :: r, b =>
    let y := b.tryCandidate x taut e
    if y.2 then y.1 else Blk.selectFrom x taut r y.1
def Blk.select (x : Env) (taut : Bool) (b : Blk) : Blk :=
  if b.running then Blk.selectFrom x taut (b.candidates taut) b else b

def execTautSelection (s : State) : Host.Outcome State Fault Refusal := s.onWork fun x b => b.select x true
def execSlackSelection (s : State) : Host.Outcome State Fault Refusal := s.onWork fun x b => b.select x false

/-- Engines that a launch whose quantum has passed may take: those that have run another launch of its priority for a full
quantum (R235). -/
def Blk.quantumVictims (x : Env) (b : Blk) (e : SbEntry) : List Nat :=
  let q := 1000 * (b.partCtl (b.partNum e.q)).quantum.toNat
  match e.launch? with
  | none => []
  | some l =>
    let marked := ((b.launchEngines e.q).filter fun t => (b.engine t).preempt).length
    if q ≠ 0 && l.waitFrom.any (fun w => decide (q ≤ (x.now - w).toNat)) && decide (marked < l.toPlace)
    then b.preemptees e.q fun t p => p == b.levelOf e.q && decide (q ≤ (x.now - (b.engine t).runFrom).toNat)
      && !((b.engine t).holds e.job)
    else []
/-- A full quantum has been waited, and run: one engine per control cycle. -/
def Blk.quantum (x : Env) (b : Blk) : Blk :=
  match (b.candidates false).findSome? fun e => (b.quantumVictims x e).head? with
  | some t => b.preempt t
  | none => b
def execQuantumExpiry (s : State) : Host.Outcome State Fault Refusal :=
  s.onBlk fun x b => if b.running then b.quantum x else b

/-! ### Preemption at the engine (R102, R236, R237) -/

/-- A launch has lost an engine (R235). -/
def Blk.lostEngine (x : Env) (j : Job) (b : Blk) : Blk := b.modLaunch j fun l => { l with waitFrom := some x.now }
/-- The engine's queued tiles return to their launch. -/
def Blk.jobQueued (x : Env) (t : Nat) (b : Blk) : Blk :=
  match (b.engine t).deque.head? with
  | some (j, _) => (b.returnQueued j t).lostEngine x j
  | none => b
/-- An abandoned restore leaves the save area valid. -/
def Blk.abandonRestore (x : Env) (t : Nat) (b : Blk) : Blk :=
  match (b.engine t).save with
  | some s =>
    (b.modEng t fun v => ({ v with restore := false, descWait := false } : Eng).enter x (b.restState t)).modLaunch s.job fun l =>
      { l with saved := l.saved ++ [(t, s.tile)], waitFrom := some x.now }
  | none => b.modEng t fun v => { v with restore := false }
def Blk.preemptAt (x : Env) (t : Nat) (b : Blk) : Blk :=
  let b : Blk := { b with dsp := { b.dsp with preempts := b.dsp.preempts.erase t } }
  let v := b.engine t
  if v.stop.isSome then b.modEng t fun v => { v with preempt := false }
  else if v.job.isSome then
    let b := b.jobQueued x t
    if v.ended || v.st == .saving then b else b.modEng t fun v => v.enter x .saving
  else
    let b := if v.restore then b.abandonRestore x t else b
    ((b.jobQueued x t).modEng t fun v => { v with preempt := false, descWait := false }).engIdle t
def execPreemptRequest (e : EngineId) (s : State) : Host.Outcome State Fault Refusal :=
  s.onBlk fun x b => if b.running && b.dsp.preempts.contains e.val then b.preemptAt x e else b

/-- The save area is written (R103): everything R71 marks, the tile and where issue continues. A save of a retired launch is
discarded (R68). -/
def Blk.saveDone (x : Env) (t : Nat) (b : Blk) : Blk :=
  let v := b.engine t
  match v.job with
  | none => b
  | some j =>
    if b.retired j then b.staleMsg.leaveTile x t else
    let b := b.tileEv x t 2 j v.tile
    let sv := v.saveOf b j
    let b := (b.modEng t fun v => { v with save := some sv }).writeSave t sv
    let b := b.modLaunch j fun l => { l with
      saved := l.saved ++ [(t, v.tile)]
      waitFrom := some x.now
      busy := SMap.set 0 l.busy t (SMap.get 0 l.busy t + v.busy)
      stall := SMap.set 0 l.stall t (SMap.get 0 l.stall t + v.stall) }
    let b := b.modEng t fun v =>
      ({ v.dropTile with preempt := false, busy := 0, stall := 0, lastJob := none } : Eng).enter x (b.restState t)
    (b.bump (evEng t 0x18) 1).unwait t none
def execSaveComplete (e : EngineId) (s : State) : Host.Outcome State Fault Refusal :=
  s.onBlk fun x b =>
    let v := b.engine e
    if b.running && b.clocked e && v.st == .saving && v.stop.isNone && v.pendFault.isNone && v.channelsIdle then b.saveDone x e else b

/-- A save that cannot be continued is discarded: its tile is placed again, as an unplaced tile (R104, R238). -/
def Blk.restartSaved (x : Env) (t : Nat) (s : SaveArea) (b : Blk) : Blk :=
  let b := b.modEng t fun v => ({ v with save := none, restore := false, descWait := false } : Eng).enter x (b.restState t)
  (b.modLaunch s.job fun l => { l with unplaced := insRange { lo := s.tile, hi := s.tile + 1 } l.unplaced
                                       saved := l.saved.filter fun y => y.1 != t }).idleIfDone t
/-- The saved tile goes on from BUNDLE_PTR, its pending writes re-armed; a save older than the engine's role restarts its
tile (R104). -/
def Blk.restoreDone (x : Env) (t : Nat) (b : Blk) : Blk :=
  match (b.engine t).save with
  | none => b.modEng t fun v => { v with restore := false }
  | some s =>
    if s.epoch.toNat < (SMap.get 0 b.wv.roleE t).toNat || b.retired s.job then b.staleMsg.restartSaved x t s
    else
      let b := b.modEng t fun v => ({ v with
        arch := s.arch, ptr := s.ptr, step := s.step, numeric := s.numeric, digest := s.digest, apos := s.apos, mmFree := s.mmFree
        job := some s.job, tile := s.tile, started := true, ended := false, save := none, restore := false } : Eng).enter x .running
      ((b.tileEv x t 3 s.job s.tile).bump (evEng t 0x19) 1).resumeDraws t
def execRestoreComplete (e : EngineId) (s : State) : Host.Outcome State Fault Refusal :=
  s.onBlk fun x b =>
    let v := b.engine e
    if b.running && b.clocked e && v.restore && !v.descWait && v.job.isNone then b.restoreDone x e else b

/-! ### Stealing (R232 to R234) -/

/-- The last n tiles of a list of ranges and what stays. -/
def takeHigh (n : Nat) (rs : List Range) : List Range × List Range :=
  let x := takeTiles (rangesLen rs - n) rs
  (x.2, x.1)
def Blk.steal (t : Nat) (b : Blk) : Blk :=
  match b.victim t with
  | none => b
  | some v =>
    let d := (b.engine v).deque
    match d.head? with
    | none => b
    | some (j, _) =>
      let rs := (d.filter fun r => r.1 == j).map (·.2)
      let y := takeHigh ((rangesLen rs + 1) / 2) rs
      let b := b.modEng v fun e => { e with deque := (y.2.map fun r => (j, r)) ++ d.filter fun r => r.1 != j }
      let st : Steal := { thief := t, victim := v, tiles := y.1.map fun r => (j, r), epoch := b.wv.epoch }
      ({ b with dsp := { b.dsp with steals := b.dsp.steals ++ [st] } } : Blk).bump (evEng v 0x17) 1
/-- An engine out of tiles asks; one that can steal nothing becomes idle (R231). -/
def execStealRequest (e : EngineId) (s : State) : Host.Outcome State Fault Refusal :=
  s.onWork fun _ b =>
    if b.running && b.maySteal e then (if (b.victim e).isSome then b.steal e else b.engIdle e) else b

/-- The tiles of a grant reach the thief. A grant of an older epoch, or of a retired launch, is discarded; the launch, which
loses tiles so, completes stale (R68, R69). -/
def Blk.stolen (x : Env) (s : Steal) (b : Blk) : Blk :=
  let b : Blk := { b with dsp := { b.dsp with steals := b.dsp.steals.erase s } }
  match s.tiles with
  | [] => b.idleIfDone s.thief
  | (j, r) :: _ =>
    let rs := s.tiles.map (·.2)
    let old := decide (s.epoch.toNat < (SMap.get 0 b.wv.roleE s.thief).toNat)
      || decide (s.epoch.toNat < (SMap.get 0 b.wv.roleE s.victim).toNat)
    match b.launch? j with
    | none => b.staleMsg.idleIfDone s.thief
    | some l =>
      if b.retired j then b.staleMsg.idleIfDone s.thief
      else if old then (b.staleMsg.endJob j { stale := true } .retire).idleIfDone s.thief
      else
      let b := b.give x s.thief j l rs false
      (b.tileEv x s.thief 4 j r.lo).bump (evEng s.thief 0x16) 1
def execStealComplete (e : EngineId) (s : State) : Host.Outcome State Fault Refusal :=
  s.onWork fun x b =>
    match b.dsp.steals.find? fun t => t.thief == e.val with
    | some t => if b.running then b.stolen x t else b
    | none => b

/-! ### Standing runs and wakes (R189, R212, R240) -/

/-- The engine can take the run now. -/
def Blk.runReady (b : Blk) (t : Nat) : Bool :=
  let v := b.engine t
  v.job.isNone && v.deque.isEmpty && !v.restore && (v.st == .idle || v.st == .standing) && !b.wv.changing.contains t
    && !(b.dsp.steals.any fun s => s.thief == t) && b.powered t
/-- The triggered run of a standing launch is sent, or its engines are asked to yield (R240). The trigger of a retired one is
discarded (R68). -/
def Blk.sendRun (x : Env) (q n : Nat) (b : Blk) : Blk :=
  match b.findStand q n with
  | none => b
  | some s =>
    match s.waiting with
    | none => b
    | some k =>
      if b.retired s.job then
        ((b.modStand q n fun s => { s with waiting := none }).unwake true q n).staleMsg
      else if s.running.isSome || s.unbind then b else
      let es := s.engines b.wv.cur
      if es.all b.runReady then
        let tw : Option Twin := s.twinRec.map fun i => { pairIx := i }
        let b := b.modStand q n fun s => { s with waiting := none, running := some k, stretched := s.stretched || b.pwr.clock != .full,
                                                  epoch := b.wv.epoch, l := { s.l with twin := tw } }
        let seat := (b.wv.cur.owner q).getD 0
        let b := ((b.unwake true q n).jobsLaunched seat).modStand q n fun s => { s with seat := seat }
        es.foldl (fun b t => b.give x t s.job s.l [{ lo := 0, hi := 1 }] true) b
      else (b.lowerEngines es (b.levelOf q)).foldl (fun b t => b.markYield s.job t) b
/-- The next waiter on its way to the dispatcher: taut partitions first, else in order (R212). -/
def Blk.nextWake (b : Blk) : Option Waiter :=
  (b.kn.wakes.find? fun w => b.wv.cur.queueTaut w.q).orElse fun _ => b.kn.wakes.head?
/-- A run whose trigger is still on its way goes in its turn (R212). -/
def execStandingRunSend (e : EngineId) (s : State) : Host.Outcome State Fault Refusal :=
  s.onWork fun x b =>
    if !b.running then b else
    match b.standOn e with
    | some st =>
      if (b.kn.wakes.any fun w => w.is true st.q st.n) && !b.nextWake.any fun w => w.is true st.q st.n then b
      else b.sendRun x st.q st.n
    | none => b

def Blk.wakeOne (x : Env) (w : Waiter) (b : Blk) : Blk :=
  let b : Blk := { b with kn := { b.kn with wakes := b.kn.wakes.erase w } }
  if w.stand then b.sendRun x w.q w.n else
  match b.entry w.q w.n with
  | some e => b.completeHitch e
  | none => b
def execWaiterWake (s : State) : Host.Outcome State Fault Refusal :=
  s.onWork fun x b =>
    match b.nextWake with
    | some w => if b.running then b.wakeOne x w else b
    | none => b

/-! ### Load (R247) -/

/-- Thousandths of b that a is. -/
def thousandths (a b : Nat) : BitVec 10 := BitVec.ofNat 10 (min 1000 (1000 * a / max 1 b))
/-- Arithmetic cycles of one engine in 1,000 us, at the period of the arithmetic clock (log 39). -/
def cyclesPerMs (x : Env) : Nat := 1000000000 / max 1 x.time.ariPs.toNat
/-- A window of 100 us ends: the loads of the last 1,000 us, in thousandths (R247; log 39). -/
def Blk.loadUpdate (x : Env) (b : Blk) : Blk :=
  let past := (b.dsp.loadNow :: b.dsp.loadPast).take 10
  let slack := (range 64).countP fun t => (b.wv.cur.partOf t).any fun p => !p.taut
  { b with dsp := { b.dsp with
      loadNow := {}, loadPast := past.take 9
      engLoad := thousandths (past.map (·.cycles)).sum (slack * cyclesPerMs x)
      portLoad := thousandths (past.map (·.used)).sum (past.map (·.passed)).sum } }
def execLoadUpdate (s : State) : Host.Outcome State Fault Refusal :=
  s.onBlk fun x b => if b.up then b.loadUpdate x else b

end Sys2Proof.Machine
end

