-- ==== Sys2Proof/Machine/Sequencer.lean ====
section
/-! DEFINITION. Sequencer strands, yarns, memory responses and micro-traps (14 R362 to R373). -/

namespace Sys2Proof.Machine

/-! ### The control store (R362, R374) -/

/-- TRET with yarn 0 (R364, R372). -/
def tretWord : W32 := BitVec.ofNat 32 (2 ^ 13 + 0xFFF * 2 ^ 16)
/-- A jump into the service loop, which discards the shadow set: its yarn, its length and its target there are those of `w` (log 8). -/
def serviceWord (w : W32) : W32 := BitVec.ofNat 32 (fld w 0 13 + 2 ^ 13 + 2 ^ 16 * fld w 16 6)
/-- ROM default of a strand: the ranges R374 gives as zero; TRET at 0xFF5 (R435) and 0xFF2 (RESP_ERR); at 0xFF3 and 0xFF4 (POUR, ABORT) a
jump to the service loop (R374); else the ROM's own contents (log 8). -/
def romStrandAt (p : Nat) : W32 :=
  if (0xA00 ≤ p && p ≤ 0xEFF) || (0xFF6 ≤ p && p ≤ 0xFFF) then 0
  else if p = 0xFF5 ∨ p = 0xFF2 then tretWord
  else if p = 0xFF3 ∨ p = 0xFF4 then serviceWord (Config.romStrand p)
  else Config.romStrand p
def romYarnAt (y : Nat) : BitVec 192 := if y = 0 || 0x2C0 ≤ y then 0 else Config.romYarn y
def Blk.strand (b : Blk) (p : Nat) : W32 := (PMap.find p b.patch.patStrand).getD (romStrandAt p)
def Blk.yarn (b : Blk) (y : Nat) : BitVec 192 := if y = 0 then 0 else (PMap.find y b.patch.patYarn).getD (romYarnAt y)

namespace Strand
def yarn (w : W32) : Nat := fld w 0 10
def clen (w : W32) : Nat := fld w 10 3
def seq (w : W32) : Nat := fld w 13 3
def target (w : W32) : Nat := fld w 16 12
def cond (w : W32) : Nat := fld w 28 4
/-- A reserved condition, or a field its sequence operation does not use that is not 0 (R363, R365). -/
def bad (w : W32) : Bool :=
  let t := target w
  let c := cond w
  match seq w with
  | 0 | 4 => t != 0 || c != 0
  | 1 | 3 | 5 | 6 => c != 0
  | 2 => decide (13 ≤ c)
  | _ => t != 0 || decide (13 ≤ c)
end Strand

/-- Yarn fields (R367). -/
structure YarnF where
  alu : Nat
  dst : Nat
  srcA : Nat
  srcB : Nat
  bimm : Bool
  lcld : Bool
  flags : Bool
  imm : Nat
  fbit : Nat
  flen : Nat
  buf : Nat
  mem : Nat
  maddr : Nat
  maux : Nat
  mmask : Nat
  sbi : Nat
  sbsrc : Nat
  deriving DecidableEq, Repr
def yarnFields (y : BitVec 192) : YarnF :=
  { alu := fld y 0 4, dst := fld y 4 4, srcA := fld y 8 4, srcB := fld y 12 4, bimm := bit y 16, lcld := bit y 17
    flags := bit y 18, imm := fld y 32 32, fbit := fld y 64 10, flen := if fld y 74 6 = 0 then 64 else fld y 74 6
    buf := fld y 80 2, mem := fld y 96 4, maddr := fld y 100 4, maux := fld y 104 4, mmask := fld y 108 4
    sbi := fld y 112 4, sbsrc := fld y 116 4 }
def bufBits (n : Nat) : Nat :=
  match n with
  | 0 => 512
  | 1 => 1024
  | _ => 128
/-- A reserved encoding or a misplaced field of a yarn (R367 to R369); `addr` is W(MADDR) and `clen` the strand's. -/
def YarnF.bad (f : YarnF) (y : BitVec 192) (addr : Nat) (clen : Nat) : Bool :=
  fld y 19 13 != 0 || fld y 82 14 != 0 || fld y 120 72 != 0 || decide (13 ≤ f.alu)
    || f.buf == 3 || decide (6 ≤ f.mem) || decide (11 ≤ f.sbi)
    || (f.alu == 11 && decide (bufBits f.buf < f.fbit + f.flen))
    || (f.alu == 12 && (f.buf != 2 || decide (bufBits f.buf < f.fbit + f.flen)))
    || (f.mem == 5 && addr % 16 != 0) || (f.sbi == 3 && decide (clen < 2))

def Seq.wreg (v : Seq) (i : Nat) : W64 := SMap.get 0 v.w i
def Seq.setW (v : Seq) (i : Nat) (x : W64) : Seq := { v with w := SMap.set 0 v.w i x }
/-- The slot line of index W2 of the served queue, when it is held. -/
def Seq.w2Line (v : Seq) : Option (Nat × Line) :=
  let i := (v.wreg 2).toNat % 2 ^ 32
  (v.lines.find? fun (l : Nat × Nat × Line) => l.1 == v.queue && l.2.1 % 2 ^ 32 == i).map (·.2)
def Seq.slotLine (v : Seq) : Line :=
  match v.w2Line with
  | some l => l.2
  | none => 0
def Seq.bufOf (v : Seq) (n : Nat) : Nat :=
  match n with
  | 0 => v.slotLine.toNat
  | 1 => v.descBuf.toNat
  | _ => v.recBuf.toNat

/-! ### Memory requests (R368) -/

/-- The 64 copy-buffer bytes from r on, circularly. -/
def rotLine (buf : BitVec 1024) (r : Nat) : Line :=
  let v := buf.toNat
  BitVec.ofNat 512 ((v + 2 ^ 1024 * v) / 2 ^ (8 * (r % 128)))
/-- The queue whose command a request of the microcode is for: W0's, when it is one of the sequencer's, else the served one
(R274, R382; log 122). -/
def Seq.workQueue (v : Seq) (s : Nat) : Nat :=
  let q := (v.wreg 0).toNat % 1024
  if seqOf q = s then q else v.queue
def Blk.yarnMem (s : Nat) (f : YarnF) (b : Blk) : Blk :=
  let v := b.seq s
  let a := (v.wreg f.maddr).toNat
  let half := bit (v.wreg f.maux) 0
  let line := lineOf a
  let ask := fun (r : SeqReq) (m : Rq → Instr) => (b.seqAsk s (v.workQueue s) r fun i => m (.seq (seqId s) i)).getD b
  match f.mem with
  | 1 => if v.serving then (b.askSlot v.queue (b.fullIndex v.queue (BitVec.ofNat 32 a))).getD b else b
  | 2 => match b.copy (64 + s % 4) line.toNat with
    | some c => let b := b.useDesc s v.queue line.toNat
      b.setSeq s { b.seq s with descBuf := halfPut v.descBuf half c.data }
    | none => b.askDesc s v.queue (.desc line half) line
  | 3 => ask (.line half) fun r => .rdonce r line
  | 4 => ask .wrLine fun r => .wr r line (rotLine v.copyBuf ((v.wreg f.maux).toNat % 128)) (v.wreg f.mmask)
  | 5 =>
    let b := ask .wrRec fun r => .wr r line (BitVec.ofNat 512 (v.recBuf.toNat * 2 ^ (8 * (a % 64)))) (maskOf (a % 64) 16)
    b.setSeq s { b.seq s with recBusy := true }
  | _ => b

/-! ### Interface operations (R369) -/

/-- Step of R181 that a code belongs to; `desc` when its field is in the descriptor. -/
def stepOf (code : W8) (desc : Bool) : Nat :=
  if code = Code.illegalOpcode then 1
  else if code = Code.cmdReserved then (if desc then 7 else 2)
  else if code = Code.knotRange then 3
  else if code = Code.knotOwner then 4
  else if code = Code.expertDenied then 5
  else if code = Code.launchRange || code = Code.launchDesc || desc then 7
  else if code = Code.launchClass || code = Code.twinRefused || code = Code.tautTileLong then 8
  else 6
/-- DETAIL of a code that the microcode reports (R203). -/
def microDetail (b : Blk) (q : Nat) (l : Line) (d : Desc) (code : W8) (off : Nat) (desc : Bool) : Nat :=
  let p := b.wv.cur.queuePart q
  if code = Code.illegalOpcode then (Slot.opcode l).toNat
  else if code = Code.cmdReserved || code = Code.cmdRange || code = Code.launchRange || code = Code.memAlign
      || code = Code.expertDenied then off + 2 ^ 16 * b2n desc
  else if code = Code.knotRange || code = Code.knotOwner then fAt l off 0 20 + 2 ^ 24 * off
  else if code = Code.launchDesc then off % 2
  else if code = Code.launchClass then b2n ((p.map (·.taut)).getD false)
  else if code = Code.twinRefused then ((b.wv.cur.qmap q).map (·.part)).getD 0 % 16
  else if code = Code.progAbsent then d.prog.toNat
  else if code = Code.tautTileLong then d.declNs + 2 ^ 16 * (p.map (·.maxTileNs)).getD 0
  else if code = Code.imemLength then fAt l 0x10 0 16
  else if code = Code.watchFormat then fAt l 0 16 3
  else if code = Code.standBusy || code = Code.standNone || code = Code.wsBusy then Slot.engine l
  else 0
/-- The check outcome of ENTER: the code whose step comes first, and whether hardware overrode a passed outcome. -/
def enterOutcome (b : Blk) (q : Nat) (l : Line) (d : Desc) (r : W64) : Option Bad × Bool :=
  let code : W8 := BitVec.ofNat 8 (fld r 0 8)
  let off := fld r 8 16
  let desc := bit r 24
  let micro : Option (Nat × Bad) := if code = 0 then none else some (stepOf code desc, (code, microDetail b q l d code off desc))
  let hw := hwCheck b.wv.cur (b.seat ((b.wv.cur.owner q).getD 0)).expert q l
  match hw, micro with
  | none, none => (none, false)
  | none, some m => (some m.2, false)
  | some h, none => (some h.2, true)
  | some h, some m => (some (if h.1 ≤ m.1 then h.2 else m.2), false)
def Blk.guard (s : Nat) (b : Blk) : Blk := b.setSeq s { b.seq s with guard := satInc (b.seq s).guard }
/-- The status a record names (R168). -/
def statOfRecord (r : BitVec 128) : Stat :=
  { aborted := bit r 32, stale := bit r 33, numeric := bit r 34, concealed := bit r 35, stretched := bit r 36, twinRec := bit r 37
    fault := bit r 38, code := BitVec.ofNat 8 (fld r 40 8), detail := BitVec.ofNat 64 (fld r 64 64) }
def Blk.sbiEnter (x : Env) (s : Nat) (r : W64) (b : Blk) : Blk :=
  let v := b.seq s
  let q := v.queue
  let u := b.que q
  match v.w2Line with
  | none => b
  | some (n, l) =>
    if !v.serving || n != u.head || decide (u.tail ≤ u.head) || b.entered q n then b
    else if b.parsesOnly q then b.parseSlot q l
    else if !(u.st == .opened || u.st == .draining) || !b.sbAvail q then b
    else if (Slot.opcode l == opHITCH || Slot.opcode l == opSTAND) && !b.waitAvail q then b
    else
      let o := enterOutcome b q l v.descBuf r
      let e := b.mkEntry q l (some v.descBuf) o.1
      let b := if o.2 then b.guard s else b
      (b.joinSb e).letIn x e
/-- No command but a LAUNCH carries STRETCHED (R400). -/
def Blk.sbiComplete (s : Nat) (b : Blk) : Blk :=
  let v := b.seq s
  let q := (v.wreg 0).toNat % 1024
  let i := (v.wreg 2).toNat % 2 ^ 32
  match b.sb.find? fun e => e.q == q && e.n % 2 ^ 32 == i with
  | none => b
  | some e =>
    if seqOf q = s && seqCarries e.opcode && e.started then
      b.complete e { statOfRecord v.recBuf with stretched := false } 0
    else b
/-- HEAD never passes TAIL (R156). -/
def Blk.sbiHead (s : Nat) (b : Blk) : Blk :=
  let v := b.seq s
  let u := b.que v.queue
  if v.serving && decide (u.head < u.tail) && v.lines.any fun l => l.1 == v.queue && l.2.1 == u.head then
    (b.setSeq s { v with lines := v.lines.filter fun l => !(l.1 == v.queue && l.2.1 == u.head), burst := v.burst + 1,
                         slots := satInc v.slots, fired := v.fired.filter fun y => !(y.1 == v.queue && y.2.1 == u.head) }).setQue v.queue { u with head := u.head + 1 }
  else b.guard s
def Blk.setZ (s : Nat) (z : Bool) (b : Blk) : Blk := b.setSeq s { b.seq s with z := z }
def Blk.sbiTake (s : Nat) (b : Blk) : Blk :=
  match b.sb.find? fun e => seqOf e.q == s && seqCarries e.opcode && e.code == 0 && b.mayStart e with
  | none => b.setZ s true
  | some e =>
    let b := b.modEntry e.q e.n fun e => { e with started := true }
    b.setSeq s { ((b.seq s).setW 0 (BitVec.ofNat 64 e.q)).setW 2 (BitVec.ofNat 64 (e.n % 2 ^ 32)) with z := false }
def Blk.leaveQueue (s : Nat) (b : Blk) : Blk :=
  let v := b.seq s
  b.setSeq s { v with serving := false, st := if v.shadow.isSome then v.st else .idle }
def Blk.sbiSelect (s : Nat) (b : Blk) : Blk :=
  match b.selectQueue s with
  | none => b.setZ s true
  | some q =>
    let taut := b.wv.cur.queueTaut q
    let prio := ((b.wv.cur.qmap q).map (·.prio)).getD 0
    let v := b.seq s
    let v := { v with queue := q, serving := true, burst := 0, z := false, st := if v.shadow.isSome then v.st else .running
                      ptrs := SMap.set 0 v.ptrs (8 * b2n taut + prio) ((q + 4) % 1024) }
    (b.setSeq s (v.setW 0 (BitVec.ofNat 64 q))).setQue q { b.que q with wake := false, idle := false }
/-- Steps 1 to 3 of R165, against the copy of TAIL in W1. -/
def Blk.sbiIdle (s : Nat) (b : Blk) : Blk :=
  let v := b.seq s
  if !v.serving then b.setZ s true else
  let u := b.que v.queue
  if u.tail % 2 ^ 32 = (v.wreg 1).toNat % 2 ^ 32 then ((b.setQue v.queue { u with idle := true }).leaveQueue s).setZ s true
  else (b.setQue v.queue { u with idle := false }).setZ s false
/-- The entry that W0 and W2 name, of one of the sequencer's queues. -/
def Blk.named (b : Blk) (s : Nat) (op : W8) : Option SbEntry :=
  let v := b.seq s
  b.sb.find? fun e => e.q == (v.wreg 0).toNat % 1024 && e.n % 2 ^ 32 == (v.wreg 2).toNat % 2 ^ 32 && seqOf e.q == s && e.opcode == op
def Blk.yarnSbi (x : Env) (s : Nat) (f : YarnF) (b : Blk) : Blk :=
  match f.sbi with
  | 1 => b.sbiSelect s
  | 2 => b.setSeq s ((b.seq s).setW 1 (BitVec.ofNat 64 ((b.que (b.seq s).queue).tail % 2 ^ 32)))
  | 3 => b.sbiIdle s
  | 4 => (b.sbiEnter x s ((b.seq s).wreg f.sbsrc)).startEligible x
  | 5 => (b.sbiComplete s).startEligible x
  | 6 => b.sbiHead s
  | 7 => b.leaveQueue s
  | 8 => b.sbiTake s
  | 9 => match b.named s opMARK with
    | some e => if b.trc.ctl.getLsbD 0 then b.traceBlk x 0x10 (markBody e) else b
    | none => b
  | 10 => match b.named s opTAG with
    | some e => b.noteTag e.q e.n (BitVec.ofNat 32 (Slot.d32 e.slot 4))
    | none => b
  | _ => b
/-- The strand holds at its first edge: no place for its request (R366), or no room for its MARK (R200). -/
def Blk.yarnHolds (b : Blk) (s : Nat) (f : YarnF) : Bool :=
  (f.mem != 0 && (b.seq s).freePlace.isNone)
    || (f.sbi == 4 && b.breakDue (b.seq s).queue (b.que (b.seq s).queue).head)
    || (f.sbi == 9 && b.trc.ctl.getLsbD 0 && (match b.named s opMARK with
        | some e => !b.trc.caddy.room blkCap (markBody e)
        | none => false))

/-! ### The ALU (R367) -/

/-- Result, if the operation has one, and carry or borrow. -/
def aluOp (f : YarnF) (v : Seq) : Option W64 × Bool :=
  let a := v.wreg f.srcA
  let c := if f.bimm then BitVec.ofNat 64 f.imm else v.wreg f.srcB
  let sh := c.toNat % 64
  match f.alu with
  | 1 => (some a, false)
  | 2 => (some (a + c), decide (2 ^ 64 ≤ a.toNat + c.toNat))
  | 3 => (some (a - c), decide (a.toNat < c.toNat))
  | 4 => (some (a &&& c), false)
  | 5 => (some (a ||| c), false)
  | 6 => (some (a ^^^ c), false)
  | 7 => (some (a <<< sh), false)
  | 8 => (some (a >>> sh), false)
  | 9 => (some (if a.toNat < c.toNat then a else c), false)
  | 10 => (some (if a.toNat < c.toNat then c else a), false)
  | 11 => (some (BitVec.ofNat 64 ((v.bufOf f.buf / 2 ^ f.fbit) % 2 ^ f.flen)), false)
  | _ => (none, false)
/-- What the strand's last edge writes; operands are those of `v`. LC and the flags of an operation without a result are
free values (log 9). -/
def Blk.yarnAlu (s : Nat) (f : YarnF) (v : Seq) (b : Blk) : Blk :=
  let r := aluOp f v
  let fr : W64 × Blk := match r.1 with
    | some y => (y, b)
    | none => if f.lcld || f.flags then b.drawFree else (0, b)
  let b := fr.2
  let w := b.seq s
  let w := if r.1.isSome then w.setW f.dst fr.1 else w
  let w := if f.alu = 12 then { w with recBuf := putFld w.recBuf f.fbit f.flen (v.wreg f.srcA).toNat } else w
  let w := if f.lcld then { w with lc := BitVec.ofNat 16 fr.1.toNat } else w
  let w := if f.flags then { w with z := fr.1 == 0, c := r.2 } else w
  b.setSeq s w

/-! ### Conditions (R365) -/

def Blk.cond (b : Blk) (s : Nat) (v : Seq) (n : Nat) : Bool :=
  let u := b.que v.queue
  match n with
  | 0 => true
  | 1 => v.z
  | 2 => !v.z
  | 3 => v.c
  | 4 => v.outs.isEmpty
  | 5 => v.errRec
  | 6 => b.sbAvail v.queue
  | 7 => b.waitAvail v.queue
  | 8 => u.tail % 2 ^ 32 != (v.wreg 1).toNat % 2 ^ 32
  | 9 => v.w2Line.isSome
  | 10 => u.st == .closing
  | 11 => b.qs.any fun p => seqOf p.1 == s && b.wv.cur.queueTaut p.1 && b.wantsService p.1
  | _ => !v.recBusy
/-- Testing condition 5 clears its record. -/
def Blk.condTested (s n : Nat) (b : Blk) : Blk :=
  if n = 5 then b.setSeq s { b.seq s with errRec := false } else b

/-! ### Strands (R364 to R366) -/

/-- The lowest cause that may be taken (R370, R371). -/
def Seq.trapDue (v : Seq) : Option Nat :=
  if v.shadow.isSome then none else (range 6).find? fun c => v.pend.contains c
/-- The sequencer runs strands: in or out of a trap routine, and no trap is due first. -/
def Blk.runsStrand (b : Blk) (s : Nat) : Bool :=
  let v := b.seq s
  b.running && (v.st == .idle || v.st == .running || v.st == .trapped) && v.trapDue.isNone
def Blk.haltSeq (x : Env) (s : Nat) (code : W8) (strand : BitVec 12) (b : Blk) : Blk :=
  let v := b.seq s
  let b := b.setSeq s { v with st := .halted, haltCode := code, haltSptr := strand, serving := false, inWait := false }
  b.log x { kind := 0x0D, code := code, time := x.now, unit := BitVec.ofNat 12 (0x100 + s), detail := BitVec.ofNat 64 strand.toNat }
/-- A fault cause of a strand: pending, or, with the shadow set occupied, DOUBLE_FAULT (R372). -/
def Blk.strandFault (x : Env) (s cause : Nat) (b : Blk) : Blk :=
  let v := b.seq s
  if v.shadow.isSome then b.haltSeq x s 1 v.sptr
  else b.setSeq s { v with pend := if v.pend.contains cause then v.pend else v.pend ++ [cause], sptr := v.sptr + 1, inWait := false }
/-- Addresses of the trap vectors and handlers (R374). -/
def inHandlers (p : Nat) : Bool := decide (0xF00 ≤ p) && decide (p ≤ 0xFF5)
/-- The next strand; a jump out of the trap vectors and handlers discards the shadow set (R372): a JUMP, RET, DISPATCH, or taken
BRANCH or LOOP from one of their strands to one elsewhere, but no CALL, which comes back, and no fall through (log 123). -/
def Blk.goTo (s : Nat) (p : BitVec 12) (jump : Bool) (b : Blk) : Blk :=
  let v := b.seq s
  let out := jump && inHandlers v.sptr.toNat && !inHandlers p.toNat
  let v := { v with sptr := p, inWait := false }
  let v := if out && v.shadow.isSome then
      { v with shadow := none, st := if v.serving then .running else .idle } else v
  let v := if v.stepping && v.shadow.isNone then { v with stepping := false, pend := if v.pend.contains 5 then v.pend else v.pend ++ [5] } else v
  b.setSeq s v
/-- TRET: the shadow set comes back in one edge. -/
def Blk.tret (s : Nat) (b : Blk) : Blk :=
  let v := b.seq s
  match v.shadow with
  | none => b
  | some h => b.setSeq s { v with sptr := h.sptr, lc := h.lc, stack := h.stack, w := h.w, z := h.z, c := h.c, shadow := none, inWait := false
                                  st := if v.serving then .running else .idle }
/-- The strand's choice of the next one; `v` is what its last edge sees. -/
def Blk.choosesNext (x : Env) (s : Nat) (w : W32) (lcld : Bool) (v : Seq) (b : Blk) : Blk :=
  let p := v.sptr
  let t : BitVec 12 := BitVec.ofNat 12 (Strand.target w)
  let c := Strand.cond w
  match Strand.seq w with
  | 0 => b.goTo s (p + 1) false
  | 1 => if t = 0xFFF then (if v.shadow.isSome then b.tret s else b.strandFault x s 0) else b.goTo s t true
  | 2 => if b.cond s v c then (b.condTested s c).goTo s t true else (b.condTested s c).goTo s (p + 1) false
  | 3 => if 4 ≤ v.stack.length then b.strandFault x s 1
    else (b.setSeq s { b.seq s with stack := (p + 1) :: v.stack }).goTo s t false
  | 4 => match v.stack with
    | [] => b.strandFault x s 1
    | r :: st => (b.setSeq s { b.seq s with stack := st }).goTo s r true
  | 5 => if v.lc = 0 then b.goTo s (p + 1) false
    else
      let lc := v.lc - 1
      (b.setSeq s (if lcld then b.seq s else { b.seq s with lc := lc })).goTo s (if lc = 0 then p + 1 else t) (lc != 0)
  | 6 => b.goTo s (t + BitVec.ofNat 12 (min (Slot.opcode v.slotLine).toNat 0x20)) true
  | _ =>
    let ok := b.cond s v c
    let b := b.condTested s c
    if ok then b.goTo s (p + 1) false else b.setSeq s { b.seq s with inWait := true }
/-- The strand at SPTR runs if its sequence operation is the one named. -/
def Blk.runStrand (x : Env) (s kind : Nat) (b : Blk) : Blk :=
  let v := b.seq s
  let w := b.strand v.sptr.toNat
  let tret := Strand.seq w = 1 && Strand.target w = 0xFFF
  let mine := if kind = 8 then tret else Strand.seq w = kind && !tret
  if !b.runsStrand s || !mine then b else
  if v.inWait then b.choosesNext x s w false v else
  let y := b.yarn (Strand.yarn w)
  let f := yarnFields y
  if b.yarnHolds s f then b else
  let b := b.bump (evBlk 0x19 s) 1
  if v.sptr = 0xFFF || Strand.bad w || f.bad y (v.wreg f.maddr).toNat (Strand.clen w) then b.strandFault x s 0 else
  let b := (b.yarnMem s f).yarnSbi x s f
  let first := if f.sbi = 3 then 3 else 1
  let seen := if first ≤ Strand.clen w then b.seq s else { b.seq s with w := v.w, z := v.z, c := v.c }
  (b.yarnAlu s f seen).choosesNext x s w f.lcld seen

def execNext (s : SeqId) (st : State) : Host.Outcome State Fault Refusal := st.onBlk fun x b => b.runStrand x s 0
def execJump (s : SeqId) (st : State) : Host.Outcome State Fault Refusal := st.onBlk fun x b => b.runStrand x s 1
def execTret (s : SeqId) (st : State) : Host.Outcome State Fault Refusal := st.onBlk fun x b => b.runStrand x s 8
def execBranch (s : SeqId) (st : State) : Host.Outcome State Fault Refusal := st.onBlk fun x b => b.runStrand x s 2
def execCall (s : SeqId) (st : State) : Host.Outcome State Fault Refusal := st.onBlk fun x b => b.runStrand x s 3
def execRet (s : SeqId) (st : State) : Host.Outcome State Fault Refusal := st.onBlk fun x b => b.runStrand x s 4
def execLoop (s : SeqId) (st : State) : Host.Outcome State Fault Refusal := st.onBlk fun x b => b.runStrand x s 5
def execDispatch (s : SeqId) (st : State) : Host.Outcome State Fault Refusal := st.onBlk fun x b => b.runStrand x s 6
def execWait (s : SeqId) (st : State) : Host.Outcome State Fault Refusal := st.onBlk fun x b => b.runStrand x s 7

/-! ### Memory responses (R366, R195, R196) -/

/-- A COPY's line read comes back and its write goes out, or a write is acknowledged and the next request goes out. -/
def Blk.xferResp (q n off len : Nat) (write : Bool) (d : Line) (resp : BitVec 2) (b : Blk) : Blk :=
  match b.entry q n with
  | none => b
  | some e =>
    match e.prog with
    | .xfer asked done outst err =>
      let put := fun (p : Prog) (st : Option Stat) (b : Blk) =>
        b.modEntry q n fun e => { e with prog := p, ending := e.ending.orElse fun _ => st }
      if e.ending.isSome then put (.xfer asked done (outst - 1) err) none b
      else if resp ≠ 0 then put (.xfer asked done (outst - 1) (some off)) (some (Stat.err Code.memFault off)) b
      else if write then
        let done := done + len
        let total := if e.opcode = opCOPY then Slot.q64 e.slot 0x18 else Slot.q64 e.slot 0x10
        if total ≤ done then put (.xfer asked done 0 err) (some .ok) b
        else
          let e' := { e with prog := .xfer asked done 0 err }
          (b.modEntry q n fun _ => e').nextChunk e'
      else
        let src := Slot.q64 e.slot 8 + off
        let dst := Slot.q64 e.slot 0x10 + off
        let v := (d.toNat / 2 ^ (8 * (src % 64))) * 2 ^ (8 * (dst % 64))
        -- the place its read had is free
        (b.seqAsk (seqOf q) q (.chunk n off len true) fun i =>
          .wr (.seq (seqId (seqOf q)) i) (lineOf dst) (BitVec.ofNat 512 v) (maskOf (dst % 64) len)).getD b
    | _ => b
def SeqReq.isSlot : SeqReq → Bool
  | .slot _ => true
  | _ => false
/-- A response to the request of a place: the place is free again, and what the request was for goes on (R366). -/
def Blk.seqResponse (x : Env) (s place : Nat) (d : Line) (resp : BitVec 2) (b : Blk) : Blk :=
  match PMap.find place (b.seq s).outs with
  | none => b
  | some o =>
    if o.what.isSlot then b else
    let bad := resp != 0
    let b := b.freeOut s place
    let b := if bad then b.setSeq s (b.seq s).respError else b
    let v := b.seq s
    match o.what with
    | .slot _ => b
    | .desc _ half => if bad then b else b.setSeq s { v with descBuf := halfPut v.descBuf half d }
    | .head n _ half =>
      match b.headFor o.q n with
      | some h => b.setHead s (h.take half d bad)
      | none => b
    | .line half => if bad then b else b.setSeq s { v with copyBuf := halfPut v.copyBuf half d }
    | .wrLine => b
    | .wrRec => b.setSeq s { v with recBusy := false }
    | .chunk n off len write =>
      match b.entry o.q n with
      | some e => if e.opcode = opWATCH then b.watchResp x o.q n write d resp else b.xferResp o.q n off len write d resp
      | none => b
def execSeqMemoryResponse (s : SeqId) (place : Fin 32) (data : Line) (resp : BitVec 2) (st : State) : Host.Outcome State Fault Refusal :=
  st.onArrival (.seqMemoryResponse s place data resp) fun x b => b.seqResponse x s place.val data resp

/-! ### Micro-traps and halts (R371 to R373, R435) -/

def Seq.shadowOf (v : Seq) : Shadow := { sptr := v.sptr, lc := v.lc, stack := v.stack, w := v.w, z := v.z, c := v.c }
/-- The lowest pending cause is taken; a BREAK fetches no vector. -/
def Blk.microTrap (s : Nat) (b : Blk) : Blk :=
  let v := b.seq s
  if !b.running || !(v.st == .idle || v.st == .running) then b else
  match v.trapDue with
  | none => b
  | some c =>
    let v := { v with shadow := some v.shadowOf, pend := v.pend.erase c, trapCause := BitVec.ofNat 3 c, trapCount := satInc v.trapCount
                      inWait := false }
    b.setSeq s (if c = 5 then { v with st := .broke } else { v with st := .trapped, sptr := BitVec.ofNat 12 (0xFF0 + c) })
def execMicroTrap (s : SeqId) (st : State) : Host.Outcome State Fault Refusal := st.onBlk fun _ b => b.microTrap s

/-- An uncorrectable error in a store word halts the sequencer; its queues stop fetching. -/
def execStoreEcc (s : SeqId) (strand : BitVec 12) (st : State) : Host.Outcome State Fault Refusal :=
  st.onBlk fun x b => if b.up && (b.seq s).st != .halted then (b.haltSeq x s 2 strand).callRung 3 0 0x0D else b

end Sys2Proof.Machine
end

