-- ==== Sys2Proof/Machine/Coherence.lean ====
section
/-! DEFINITION. Coherence (10 R251 to R272): homes and sets, directories, region caches, agents and their holds, what a home
does with each request. -/

namespace Sys2Proof.Machine

/-! ### Sets and stops (R252, R263) -/

def setOf (n : Nat) : Nat := ((n >>> 8) % 64) * 64 + n % 64
/-- Hops between two stops. -/
def hops (s t : Nat) : Nat :=
  let d := (s + 5 - t) % 5
  min d (5 - d)
def HomeReq.rq : HomeReq → Rq
  | .rds a => .agent a
  | .rdonce r => r
  | .rdm => .agent 68
  | .wr r _ _ => r
  | .atom t => .window t.seat

/-! ### What an agent does with Fwd, FwdInv and Inv (R267, R269) -/

/-- Fwd at an agent (R267): M becomes O for a reader that keeps a copy; a clean copy becomes S. -/
def Blk.fwdAt (a : AgentId) (line : LineNo) (rq : Rq) (b : Blk) : Blk :=
  match b.copy a line.toNat with
  | none => b.send (.fwdmiss a line rq)
  | some c =>
    let keeps : Bool := match rq with
      | .agent _ => true
      | _ => false
    let st : CopySt := match c.st with
      | .e => .s
      | .m => if keeps then .o else .m
      | x => x
    let b := b.putCopy a line.toNat { c with st := st }
    let b : Blk := { b with mem := { b.mem with cohFwd := satInc b.mem.cohFwd } }
    b.send (.data (some a) rq line c.data false)
def Blk.deferInv (a : AgentId) (line : LineNo) (c : Copy) (what : Option Rq) (b : Blk) : Blk :=
  let b := b.putCopy a line.toNat { c with defer := some what }
  { b with mem := { b.mem with cohHold := satInc b.mem.cohHold } }
def Blk.invAt (a : AgentId) (line : LineNo) (b : Blk) : Blk :=
  match b.copy a line.toNat with
  | none => b.send (.invack a line none)
  | some c => if c.hold then b.deferInv a line c none else b.answerInv a line c
def Blk.fwdInvAt (a : AgentId) (line : LineNo) (b : Blk) : Blk :=
  match b.copy a line.toNat with
  | none => b.send (.fwdmiss a line (.agent 68))
  | some c => if c.hold then b.deferInv a line c (some (.agent 68)) else b.answerFwdInv a line c

/-! ### Region caches (R254, R255) -/

def commonWays (w : Weave) (r : Nat) : W16 :=
  let used := (range 4).foldl (fun m c => m ||| clusterWays w (4 * r + c)) (saveWays w r)
  ~~~used
/-- Ways a fill for the requester may allocate into at home h. -/
def allocWays (b : Blk) (h : Nat) (r : Rq) : W16 :=
  let w := b.wv.cur
  match r with
  | .slot _ _ | .stream _ _ | .image _ _ | .victim | .membar _ => 0
  | _ =>
    match rqEngine r with
    | some e => if e / 16 = h then clusterWays w (e / 4) else commonWays w h
    | none => commonWays w h
def Blk.rcLine (b : Blk) (line : Nat) : Option RcLine := PMap.find line b.mem.rc
def Blk.setRc (rc : PMap RcLine) (b : Blk) : Blk := { b with mem := { b.mem with rc := rc } }
def Blk.putRc (line : Nat) (l : RcLine) (b : Blk) : Blk := (b.setRc (PMap.put line { l with used := b.mem.clock } b.mem.rc)).stamp

/-- The cluster whose mask a way lies in. -/
def wayCluster (w : Weave) (h way : Nat) : Option Nat :=
  ((range 4).map fun c => 4 * h + c).find? fun c => (clusterWays w c).getLsbD way
def clusterSlots (w : Weave) (c p : Nat) : Nat := ((w.cluster c).map fun r => r.slots p).getD 0
def clusterTaut (w : Weave) (c : Nat) : Bool := (range 4).any fun i => w.isTaut (4 * c + i)
def Blk.queuePort (r : PortReq) (b : Blk) : Blk :=
  let p := homeOf r.line.toNat
  let v := b.port p
  b.setPort p { v with queue := v.queue ++ [r] }
/-- A dirty line leaves a region cache (SRC 5). -/
def Blk.writeVictim (line : Nat) (l : RcLine) (b : Blk) : Blk :=
  let h := homeOf line
  let b := b.bump (evBlk 0x0E h) 1
  let c := wayCluster b.wv.cur h l.way
  b.queuePort { write := true, line := lineNo line, data := l.data, mask := BitVec.allOnes 64, seat := 0, src := 5
                taut := (c.map (clusterTaut b.wv.cur)).getD false
                holder := c.getD 20, unit := if c.isSome then 4 else 16, use := .writeback [] }
/-- A line that no way holds is poisoned (16 R408). -/
def Blk.notePoison (line : Nat) (b : Blk) : Blk := { b with mem := { b.mem with bad := addNew b.mem.bad line } }
def Blk.clearPoison (line : Nat) (b : Blk) : Blk := { b with mem := { b.mem with bad := b.mem.bad.filter (· != line) } }
/-- Room for a line in the ways given: a free way, else the least recently used line leaves. A poisoned line is never written back, and
stays poisoned (16 R408). -/
def Blk.makeRoom (line : Nat) (ways : W16) (b : Blk) : Option (Nat × Blk) :=
  let mine := b.mem.rc.filter fun l => homeOf l.1 == homeOf line && setOf l.1 == setOf line
  let free := (range 16).find? fun i => ways.getLsbD i && !mine.any fun l => l.2.way == i
  match free with
  | some i => some (i, b)
  | none =>
    match oldest RcLine.used (mine.filter fun l => ways.getLsbD l.2.way) with
    | none => none
    | some v =>
      let b := b.setRc (PMap.del v.1 b.mem.rc)
      let b := if v.2.poison then b.notePoison v.1 else if v.2.dirty then b.writeVictim v.1 v.2 else b
      some (v.2.way, b)

/-! ### Port requests of a home (R253, R274) -/

def ownerBits (b : Blk) (q : Nat) : BitVec 4 := BitVec.ofNat 4 ((b.wv.cur.owner q).getD 0)
/-- The queue whose command a request for a line is made for. -/
def rqQueue (b : Blk) (line : Nat) : Rq → Option Nat
  | .slot q _ | .record q => some q.val
  | .runRecord e => (b.stand.find? fun s => s.eng == e.val).map (·.q)
  | .seq s k => (PMap.find k.val (b.seq s).outs).map (·.q)
  | .agent a => (b.missOf a line).bind (·.queue)
  | .draw e _ => (b.engine e.val).job.map (·.q)
  | .tdesc e => ((b.engine e.val).copies.find? fun c => decide (c.first ≤ line) && decide (line < c.first + c.count)).map (·.job.q)
  | .stream ord _ | .image ord _ => (b.sb.find? fun e => e.ord == ord).map (·.q)
  | _ => none
/-- SRC of R274. No SRC is named for the tangle graph: that of a trace drain (DESIGN CHOICE, log 134). -/
def rqSrc : Rq → BitVec 3
  | .agent a => if a.val < 64 then 1 else if a.val < 68 then 2 else 4
  | .draw _ _ | .tdesc _ | .stream _ _ | .image _ _ => 0
  | .slot _ _ | .seq _ _ | .record _ | .runRecord _ | .weave => 2
  | .window _ => 4
  | .intake _ => 3
  | .trace _ | .tangle => 6
  | .victim => 5
  | .membar _ => 7
/-- Rank among block agents, as a holder number, and the requester within the rank (R253). -/
def rqRank : Rq → Nat × Nat
  | .membar _ => (17, 0)
  | .slot q _ | .record q => (18, q.val % 4)
  | .seq s _ => (18, s.val)
  | .runRecord e => (18, e.val % 4)
  | .weave => (18, 4)
  | .agent a => if a.val < 68 then (18, a.val % 4) else (20, 17)
  | .intake p => (19, p.val)
  | .trace r => (21, r.val)
  | .tangle => (21, 17)
  | .window s => (20, s.val)
  | _ => (20, 18)
def lowestOwner (w : Weave) (p : Nat) : BitVec 4 := BitVec.ofNat 4 ((w.partOwners p).head?.getD 0)
def rqSeat (x : Env) (b : Blk) (line : Nat) (r : Rq) : BitVec 4 :=
  match r with
  | .window s => BitVec.ofNat 4 s.val
  | .weave => BitVec.ofNat 4 x.steward
  | .intake p => match b.wv.cur.intake p.val with
    | some i => lowestOwner b.wv.cur i.part
    | none => 0
  | .agent a => if a.val = 68 then BitVec.ofNat 4 (((b.missOf a line).map (·.seat)).getD 0) else
    match rqQueue b line r with
    | some q => ownerBits b q
    | none => 0
  | _ => match rqQueue b line r with
    | some q => ownerBits b q
    | none => 0
/-- A home's read or write of SoC memory for a request. -/
def homePortReq (x : Env) (b : Blk) (line : Nat) (r : Rq) (write : Bool) (data : Line) (mask : W64) : PortReq :=
  let e := rqEngine r
  { write := write, line := lineNo line, data := data, mask := mask, seat := rqSeat x b line r, src := rqSrc r
    taut := match e with
      | some e => clusterTaut b.wv.cur (e / 4)
      | none => ((rqQueue b line r).map b.wv.cur.queueTaut).getD false
    holder := match e with
      | some e => e / 4
      | none => (rqRank r).1
    unit := match e with
      | some e => e % 4
      | none => (rqRank r).2
    use := .home line }

/-! ### Directory (R260, R261) -/

def Blk.dirEnt (b : Blk) (line : Nat) : Option DirEnt := PMap.find line b.mem.dir
def Blk.setDir (line : Nat) (e : Option DirEnt) (b : Blk) : Blk :=
  let d := match e with
    | some e => PMap.put line { e with used := b.mem.clock } b.mem.dir
    | none => PMap.del line b.mem.dir
  ({ b with mem := { b.mem with dir := d } } : Blk).stamp
def DirEnt.holders (e : DirEnt) : List AgentId := (List.finRange 69).filter fun a => e.pres.getLsbD a.val
def setBit (v : BitVec 69) (a : Nat) (x : Bool) : BitVec 69 :=
  if x then v ||| BitVec.twoPow 69 a else v &&& ~~~(BitVec.twoPow 69 a)
/-- Presence of agent a is added; `own` makes the state X. -/
def Blk.addPresence (line : Nat) (a : Nat) (own : Bool) (b : Blk) : Blk :=
  let e := (b.dirEnt line).getD { isX := false, pres := 0, used := 0 }
  b.setDir line (some { e with isX := e.isX || own, pres := setBit e.pres a true })
/-- A read that keeps a copy is under way: the line's entry stays until its end (R261). -/
def Blk.reading (b : Blk) (line : Nat) : Bool :=
  (PMap.find line b.mem.busy).any fun v => match v.req with
    | .rds _ | .rdm => true
    | _ => false
def Blk.delPresence (line : Nat) (a : Nat) (b : Blk) : Blk :=
  match b.dirEnt line with
  | none => b
  | some e =>
    let e := { e with pres := setBit e.pres a false, isX := e.isX && a != 68 }
    b.setDir line (if e.pres = 0 && !b.reading line then none else some e)
/-- An agent holds the line. -/
def Blk.isHeld (b : Blk) (line : Nat) : Bool := (b.dirEnt line).any fun e => e.pres != 0
/-- At the end of a read an entry in which no agent is marked is free again. -/
def Blk.freeEntry (line : Nat) (b : Blk) : Blk := if b.isHeld line then b else b.setDir line none
/-- A read that found no data: its requester holds nothing. -/
def Blk.failRead (line : Nat) (req : HomeReq) (b : Blk) : Blk :=
  (match req with
   | .rds a => b.delPresence line a
   | .rdm => b.delPresence line 68
   | _ => b).freeEntry line
/-- The holder that is to supply a requester (R265): the window in M or O, else the nearest, lower number first. -/
def supplier (e : DirEnt) (a : Option Nat) (stop : Nat) : Option AgentId :=
  if e.isX then some 68 else
  (e.holders.filter fun h => a != some h.val).foldl (fun best h =>
    match best with
    | none => some h
    | some k => if hops stop (agentStop h.val) < hops stop (agentStop k.val) then some h else some k) none

/-! ### Requests at a home (R264, R268) -/

def Blk.setBusy (line : Nat) (v : Option Busy) (b : Blk) : Blk :=
  { b with mem := { b.mem with busy := match v with
      | some v => PMap.put line v b.mem.busy
      | none => PMap.del line b.mem.busy } }
def Busy.recalls (v : Busy) (line : Nat) : Bool :=
  match v.wait with
  | .recall l _ => l == line
  | _ => false
def Blk.isBusy (b : Blk) (line : Nat) : Bool :=
  (PMap.find line b.mem.busy).isSome || b.mem.busy.any fun v => v.2.recalls line
/-- Entries of the directory set of a line. -/
def sameDirSet (a c : Nat) : Bool := homeOf a == homeOf c && setOf a % 1024 == setOf c % 1024
/-- What stands in the way of a new directory entry. -/
inductive DirRoom where
  | free
  | recall (line : Nat) (e : DirEnt)
  | wait
  deriving DecidableEq, Repr
/-- Room for a new entry in a set of 16: the least recently used entry of a line that is not BUSY is recalled (R261; log 118). -/
def Blk.dirRoom (b : Blk) (line : Nat) : DirRoom :=
  let set := b.mem.dir.filter fun d => sameDirSet d.1 line
  if set.length < 16 then .free else
  match oldest DirEnt.used (set.filter fun d => !b.isBusy d.1) with
  | some v => .recall v.1 v.2
  | none => .wait
def mergeMask (old new : Line) (mask : W64) : Line :=
  let m : Line := BitVec.ofNat 512 ((range 64).foldl (fun a i => if mask.getLsbD i then a + 255 * 2 ^ (8 * i) else a) 0)
  (old &&& ~~~m) ||| (new &&& m)
def fullMask : W64 := BitVec.allOnes 64

/-- The word an atomic acts on and the line after it (R258). -/
def atomApply (t : AtomReq) (d : Line) : W64 × Line :=
  let n := if t.wide then 64 else 32
  let lo := 8 * t.off.toNat
  let old := fld d lo n
  let v := t.opnd.toNat % 2 ^ n
  let c := t.cmp.toNat % 2 ^ n
  let new := match t.op with
    | .add => (old + v) % 2 ^ n
    | .swap => v
    | .cas => if old = c then v else old
    | .umax => max old v
    | .and => old &&& v
    | .or => old ||| v
  (BitVec.ofNat 64 old, putFld d lo n new)
def pidx (line : Nat) : Nat := (line % 1024) ^^^ ((line >>> 10) % 1024) ^^^ ((line >>> 20) % 1024)
/-- The contention predictor (R272). -/
def Blk.predict (line : Nat) (inv : Bool) (b : Blk) : Blk :=
  let i := pidx line
  let v := SMap.get 2 b.mem.pred i
  let v' := if inv then (if v = 3 then 3 else v + 1) else if v = 0 then 0 else v - 1
  { b with mem := { b.mem with pred := SMap.set 2 b.mem.pred i v' } }

/-- Data of the line from the home to its requester. -/
def Blk.supply (line : Nat) (req : HomeReq) (d : Line) (excl : Bool) (b : Blk) : Blk :=
  b.send (.data none req.rq (lineNo line) d excl)

/-- What a home's step leaves: the line BUSY with what it waits for. -/
abbrev HomeStep := Blk × Busy

/-- A write or an atomic on a line the home holds, or has just read: the change, Cmp, and no directory entry. -/
def Blk.performAt (line : Nat) (v : Busy) (l : RcLine) (b : Blk) : Blk :=
  let b := b.setDir line none
  match v.req with
  | .wr rq data mask =>
    let b := b.putRc line { l with data := mergeMask l.data data mask, dirty := true, poison := l.poison && mask != fullMask }
    b.send (.cmpMessage rq (lineNo line) 0 0)
  | .atom t =>
    let y := atomApply t l.data
    let b := (b.putRc line { l with data := y.2, dirty := true }).predict line v.agents
    let b : Blk := { b with mem := { b.mem with cohNear := satInc b.mem.cohNear } }
    b.send (.cmpMessage (.window t.seat) (lineNo line) y.1 0)
  | _ => b
/-- A write or atomic once no agent holds the line (R255, R268). A write without a byte changes nothing (R274). -/
def Blk.performWrite (x : Env) (line : Nat) (v : Busy) (b : Blk) : HomeStep :=
  let h := homeOf line
  let rq := v.req.rq
  let mask : Option W64 := match v.req with
    | .wr _ _ m => some m
    | _ => none
  match b.rcLine line with
  | some l =>
    let b := b.bump (evBlk 0x0C h) 1
    let l := match v.wdata with
      | some d => { l with data := d, poison := false, dirty := true }
      | none => l
    if mask = some 0 then (((b.putRc line l).setDir line none).send (.cmpMessage rq (lineNo line) 0 0), v)
    else if l.poison && mask != some fullMask then
      (((b.putRc line l).setDir line none).send (.cmpMessage rq (lineNo line) 0 1), v)
    else (b.performAt line v l, v)
  | none =>
    let known : Option Line := match v.req, v.wdata with
      | .wr _ d m, none => if m = fullMask then some d else none
      | _, w => w
    if mask = some 0 && known.isNone then ((b.setDir line none).send (.cmpMessage rq (lineNo line) 0 0), v) else
    let b := b.bump (evBlk 0x0D h) 1
    if known.isNone && b.mem.bad.contains line then ((b.setDir line none).send (.cmpMessage rq (lineNo line) 0 1), v) else
    let b := b.clearPoison line
    match known with
    | some d =>
      match b.makeRoom line (allocWays b h rq) with
      | some (way, b) => (b.performAt line v { way := way, data := d, dirty := true, used := 0 }, v)
      | none =>
        let y := match v.req with
          | .wr _ new m => ((0 : W64), mergeMask d new m)
          | .atom t => atomApply t d
          | _ => (0, d)
        ((b.setDir line none).queuePort (homePortReq x b line rq true y.2 fullMask), { v with wait := .drain y.1 })
    | none =>
      if mask.isNone || allocWays b h rq ≠ 0 then
        (b.queuePort (homePortReq x b line rq false 0 0), { v with wait := .fill })
      else match v.req with
        | .wr _ d m => ((b.setDir line none).queuePort (homePortReq x b line rq true d m), { v with wait := .drain 0 })
        | _ => (b, v)

/-- A read served with data that the home has; poisoned, with an error response (R408). -/
def Blk.supplyData (line : Nat) (v : Busy) (d : Line) (poison : Bool) (b : Blk) : HomeStep :=
  let v := { v with wait := .none }
  if poison then ((b.failRead line v.req).send (.cmpMessage v.req.rq (lineNo line) 0 1), { v with ack := false }) else
  match v.req with
  | .rds a => ((b.supply line v.req d (!b.isHeld line)).addPresence line a false, { v with ack := true })
  | .rdm => ((b.supply line v.req d true).addPresence line 68 true, { v with ack := true })
  | _ => (b.supply line v.req d false, v)
/-- A read that the home supplies itself. -/
def Blk.homeRead (x : Env) (line : Nat) (v : Busy) (b : Blk) : HomeStep :=
  let h := homeOf line
  match b.rcLine line with
  | none =>
    let b := b.bump (evBlk 0x0D h) 1
    if b.mem.bad.contains line then b.supplyData line v 0 true else
    (b.queuePort (homePortReq x b line v.req.rq false 0 0), { v with wait := .fill })
  | some l => ((b.bump (evBlk 0x0C h) 1).putRc line l).supplyData line v l.data l.poison
/-- Inv to each holder. -/
def Blk.sendInvs (line : Nat) (hs : List AgentId) (b : Blk) : Blk := hs.foldl (fun b a => b.send (.inv a (lineNo line))) b
/-- A read that needs a directory entry takes one, recalls one, or waits for one (R261). -/
def Blk.readNew (x : Env) (line : Nat) (v : Busy) (b : Blk) : HomeStep :=
  match b.dirRoom line with
  | .free => (b.setDir line (some { isX := false, pres := 0, used := 0 })).homeRead x line v
  | .wait => (b, { v with wait := .room })
  | .recall l e =>
    let b : Blk := { b with mem := { b.mem with cohRecall := satInc b.mem.cohRecall } }
    (b.sendInvs l e.holders, { v with wait := .recall l e.holders.length })
/-- The home takes up a request for a line that is not BUSY. -/
def Blk.startReq (x : Env) (line : Nat) (req : HomeReq) (b : Blk) : HomeStep :=
  let v : Busy := { req := req }
  let stop := rqStop req.rq
  match b.dirEnt line with
  | none =>
    match req with
    | .rds _ | .rdm => b.readNew x line v
    | .rdonce _ => b.homeRead x line v
    | .wr _ _ _ | .atom _ => b.performWrite x line v
  | some e =>
    let b := b.setDir line (some e)
    match req with
    | .rds a =>
      match supplier e (some a.val) stop with
      | some h => ((b.send (.fwd h (lineNo line) (.agent a))).addPresence line a false, { v with ack := true })
      | none => b.homeRead x line v
    | .rdonce rq =>
      match supplier e none stop with
      | some h => (b.send (.fwd h (lineNo line) rq), { v with wait := .forward })
      | none => b.homeRead x line v
    | .rdm =>
      if e.isX then
        let hs := e.holders.filter fun h => h.val != 68
        (b.sendInvs line hs, { v with invs := hs.length, wait := .grant, agents := !hs.isEmpty })
      else
        match supplier e none stop with
        | none => b.homeRead x line v
        | some h =>
          let hs := e.holders.filter fun k => k != h
          let b := (b.send (.fwdinv h (lineNo line))).sendInvs line hs
          (b.setDir line (some { e with isX := true, pres := setBit 0 68 true }),
            { v with invs := hs.length + 1, ack := true, agents := true })
    | .wr _ _ _ | .atom _ =>
      let hs := e.holders
      if hs.isEmpty then b.performWrite x line v
      else (b.sendInvs line hs, { v with invs := hs.length, wait := .grant, agents := hs.any fun h => h.val != 68 })
/-- Every InvAck has come: the write is performed, or the window, in O, gets its Data. -/
def Blk.goOn (x : Env) (line : Nat) (y : HomeStep) : HomeStep :=
  let v := y.2
  if v.invs ≠ 0 || v.wait ≠ .grant then y else
  let v := { v with wait := .none }
  match v.req with
  | .wr _ _ _ | .atom _ => y.1.performWrite x line v
  | .rdm => (((y.1.setDir line (some { isX := true, pres := setBit 0 68 true, used := 0 })).supply line v.req 0 true), { v with ack := true })
  | _ => (y.1, v)
/-- The last message of a request has come. -/
def Busy.over (v : Busy) : Bool := v.invs == 0 && !v.ack && v.wait == .none
/-- The line's BUSY mark as the step leaves it; when it clears, the next waiting request is taken up. -/
def Blk.settleLine (x : Env) (line : Nat) : Nat → HomeStep → Blk
  | 0, y => y.1.setBusy line (some y.2)
  | n + 1, y =>
    let y := Blk.goOn x line y
    if !y.2.over then y.1.setBusy line (some y.2) else
    let b := y.1.setBusy line none
    if b.isBusy line then b else
    match b.mem.waitQ.find? fun w => w.1 == line with
    | none => b
    | some w =>
      let b : Blk := { b with mem := { b.mem with waitQ := b.mem.waitQ.erase w } }
      Blk.settleLine x line n (b.startReq x line w.2)
/-- More requests of one line than a home can queue (R264). -/
def settleMax : Nat := 512
def takeUpNext (x : Env) (line : Nat) (b : Blk) : Blk :=
  if b.isBusy line then b else
  match b.mem.waitQ.find? fun w => w.1 == line with
  | none => b
  | some w =>
    let b : Blk := { b with mem := { b.mem with waitQ := b.mem.waitQ.erase w } }
    Blk.settleLine x line settleMax (b.startReq x line w.2)
/-- A request that waits for room in the directory set of a line tries again. -/
def Blk.dirRetry (x : Env) (line : Nat) (b : Blk) : Blk :=
  match b.mem.busy.find? fun v => v.2.wait == .room && sameDirSet v.1 line with
  | none => b
  | some (m, v) => Blk.settleLine x m settleMax (b.readNew x m { v with wait := .none })
def afterLine (x : Env) (line : Nat) (y : HomeStep) : Blk := (Blk.settleLine x line settleMax y).dirRetry x line
/-- The queue of a home has no place for a request (R264). -/
def Blk.homeFull (b : Blk) (line : Nat) (rq : Rq) : Bool :=
  let n := b.mem.waitQ.countP fun w => homeOf w.1 == homeOf line
  let taut := ((rqEngine rq).map fun e => clusterTaut b.wv.cur (e / 4)).getD false
  decide ((if taut then 256 else 192) ≤ n)
/-- A request arrives at its home. -/
def Blk.accept (x : Env) (line : LineNo) (req : HomeReq) (again : Instr) (b : Blk) : Blk :=
  let n := line.toNat
  if b.isBusy n then
    if b.homeFull n req.rq then b.send again
    else { b with mem := { b.mem with waitQ := b.mem.waitQ ++ [(n, req)] } }
  else afterLine x n (b.startReq x n req)

/-! ### Answers at a home (R261, R264, R269) -/

/-- Window data that came back joins the home (R268, Wb). -/
def Blk.writeBackHome (x : Env) (line : Nat) (d : Line) (b : Blk) : Blk :=
  let b := b.clearPoison line
  match b.rcLine line with
  | some l => b.putRc line { l with data := d, dirty := true, poison := false }
  | none =>
    match b.makeRoom line (allocWays b (homeOf line) (.agent 68)) with
    | some (way, b) => b.putRc line { way := way, data := d, dirty := true, used := 0 }
    | none => b.queuePort { homePortReq x b line (.agent 68) true d fullMask with src := 5, seat := 0, use := .writeback [] }
/-- An InvAck of a recalled entry: after the last the entry is free and the request that needed it goes on (R261). -/
def Blk.recallAck (x : Env) (n m : Nat) (v : Busy) (d : Option Line) (b : Blk) : Blk :=
  let b := match d with
    | some d => b.writeBackHome x n d
    | none => b
  match v.wait with
  | .recall l (k + 1) =>
    if k = 0 then
      let b := b.setDir n none
      takeUpNext x n (afterLine x m (b.readNew x m { v with wait := .none }))
    else b.setBusy m (some { v with wait := .recall l k })
  | _ => b
def Blk.invAck (x : Env) (a : AgentId) (line : LineNo) (d : Option Line) (b : Blk) : Blk :=
  let n := line.toNat
  let b := b.delPresence n a
  match PMap.find n b.mem.busy with
  | some v => if v.invs = 0 then b else
    afterLine x n (b, { v with invs := v.invs - 1, wdata := d.orElse fun _ => v.wdata })
  | none =>
    match b.mem.busy.find? fun v => v.2.recalls n with
    | none => b
    | some (m, v) => b.recallAck x n m v d
def Blk.ackAt (x : Env) (a : AgentId) (line : LineNo) (b : Blk) : Blk :=
  let n := line.toNat
  match PMap.find n b.mem.busy with
  | some v =>
    if v.req.rq ≠ .agent a || !v.ack then b else
    let b := if v.req = .rdm then b.predict n v.agents else b
    afterLine x n (b.freeEntry n, { v with ack := false })
  | none => b
/-- An agent has sent its data to a reader that keeps no copy: with this answer the line's BUSY mark ends (log 145). -/
def Blk.readServed (x : Env) (n : Nat) (rq : Rq) (b : Blk) : Blk :=
  match PMap.find n b.mem.busy with
  | some v => if v.wait = .forward ∧ v.req = .rdonce rq then afterLine x n (b, { v with wait := .none }) else b
  | none => b
/-- FwdMiss: the home supplies the data from its array or memory. -/
def Blk.fwdMissAt (x : Env) (a : AgentId) (line : LineNo) (rq : Rq) (b : Blk) : Blk :=
  let n := line.toNat
  let b := if a.val = 68 then b.delPresence n 68 else b
  match PMap.find n b.mem.busy with
  | some v => if v.req.rq = rq then
      afterLine x n (b.homeRead x n { v with invs := if v.req = .rdm then v.invs - 1 else v.invs, wait := .none }) else b
  | none => b
/-- The line a home read from SoC memory has come (R254, R255). -/
def Blk.fillDone (x : Env) (line : Nat) (d : Line) (resp : BitVec 2) (b : Blk) : Blk :=
  match PMap.find line b.mem.busy with
  | none => b
  | some v =>
    if v.wait ≠ .fill then b else
    if resp ≠ 0 then
      afterLine x line ((b.failRead line v.req).send (.cmpMessage v.req.rq (lineNo line) 0 resp), { v with wait := .none, ack := false }) else
    match b.makeRoom line (allocWays b (homeOf line) v.req.rq) with
    | some (way, b) =>
      let l : RcLine := { way := way, data := d, dirty := false, used := 0 }
      match v.req with
      | .wr _ _ _ | .atom _ => afterLine x line (b.performAt line v l, { v with wait := .none })
      | _ => afterLine x line ((b.putRc line l).supplyData line v d false)
    | none =>
      let write := fun (y : W64 × Line) =>
        (b.queuePort (homePortReq x b line v.req.rq true y.2 fullMask)).setBusy line (some { v with wait := .drain y.1 })
      match v.req with
      | .atom t => write (atomApply t d)
      | .wr _ new m => write (0, mergeMask d new m)
      | _ => afterLine x line (b.supplyData line v d false)
/-- A write to SoC memory without allocation was acknowledged. -/
def Blk.drainDone (x : Env) (line : Nat) (resp : BitVec 2) (b : Blk) : Blk :=
  match PMap.find line b.mem.busy with
  | none => b
  | some v =>
    match v.wait with
    | .drain old =>
      let b := match v.req with
        | .atom _ => if resp = 0 then
            let b := (b.setDir line none).predict line v.agents
            { b with mem := { b.mem with cohNear := satInc b.mem.cohNear } } else b
        | _ => b
      afterLine x line (b.send (.cmpMessage v.req.rq (lineNo line) old resp), { v with wait := .none })
    | _ => b

/-! ### Rows. A home accepts no new request during a belay (R428). -/

def execRds (a : AgentId) (line : LineNo) (s : State) : Host.Outcome State Fault Refusal :=
  s.onMessage Blk.running (.rds a line) fun x b => b.accept x line (.rds a) (.rds a line)
def execRdonce (rq : Rq) (line : LineNo) (s : State) : Host.Outcome State Fault Refusal :=
  s.onMessage Blk.running (.rdonce rq line) fun x b => b.accept x line (.rdonce rq) (.rdonce rq line)
def execRdm (line : LineNo) (s : State) : Host.Outcome State Fault Refusal :=
  s.onMessage Blk.running (.rdm line) fun x b => b.accept x line .rdm (.rdm line)
def execWr (rq : Rq) (line : LineNo) (data : Line) (mask : W64) (s : State) : Host.Outcome State Fault Refusal :=
  s.onMessage Blk.running (.wr rq line data mask) fun x b => b.accept x line (.wr rq data mask) (.wr rq line data mask)
def execAtom (line : LineNo) (t : AtomReq) (s : State) : Host.Outcome State Fault Refusal :=
  s.onMessage Blk.running (.atom line t) fun x b => b.accept x line (.atom t) (.atom line t)
def execEvict (a : AgentId) (line : LineNo) (s : State) : Host.Outcome State Fault Refusal :=
  s.onMessage Blk.up (.evict a line) fun x b => (b.delPresence line.toNat a).dirRetry x line.toNat
/-- The window's line comes home: ignored unless the home's state is X. -/
def execWb (line : LineNo) (data : Line) (s : State) : Host.Outcome State Fault Refusal :=
  s.onMessage Blk.up (.wb line data) fun x b =>
    if (b.dirEnt line.toNat).any (·.isX) then
      ((b.writeBackHome x line.toNat data).delPresence line.toNat 68).dirRetry x line.toNat else b
def execFwd (a : AgentId) (line : LineNo) (rq : Rq) (s : State) : Host.Outcome State Fault Refusal :=
  s.onMessage Blk.up (.fwd a line rq) fun x b =>
    if (b.copy a line.toNat).isSome then (b.fwdAt a line rq).readServed x line.toNat rq else b.fwdAt a line rq
def execFwdinv (a : AgentId) (line : LineNo) (s : State) : Host.Outcome State Fault Refusal :=
  s.onMessage Blk.up (.fwdinv a line) fun _ b => b.fwdInvAt a line
def execInv (a : AgentId) (line : LineNo) (s : State) : Host.Outcome State Fault Refusal :=
  s.onMessage Blk.up (.inv a line) fun _ b => b.invAt a line
def execFwdmiss (a : AgentId) (line : LineNo) (rq : Rq) (s : State) : Host.Outcome State Fault Refusal :=
  s.onMessage Blk.up (.fwdmiss a line rq) fun x b => b.fwdMissAt x a line rq
def execInvack (a : AgentId) (line : LineNo) (d : Option Line) (s : State) : Host.Outcome State Fault Refusal :=
  s.onMessage Blk.up (.invack a line d) fun x b => b.invAck x a line d
def execAck (a : AgentId) (line : LineNo) (s : State) : Host.Outcome State Fault Refusal :=
  s.onMessage Blk.up (.ack a line) fun x b => b.ackAt x a line

/-! ### Far atomics and the end of a hold (R266, R271, R272) -/

def Blk.winRoom (b : Blk) : Bool :=
  decide ((b.mem.copies 68).length + (b.mem.misses.countP fun m => m.agent == 68 && (b.copy 68 m.line).isNone) < 16)
/-- The line a seat's unfinished atomic acts on. -/
def Blk.atomLine (b : Blk) (seat : Nat) : Option Nat :=
  match (b.seat seat).unfin with
  | some (.atomic _ a) => some (a.toNat / 64)
  | _ => none
/-- Far atomics that wait ask for their lines while the buffer has room. -/
def Blk.farPump (b : Blk) : Blk :=
  b.mem.far.foldl (fun b t =>
    match b.atomLine t.seat with
    | none => b
    | some n =>
      let holdsM := (b.copy 68 n).any fun c => c.st == .m
      if holdsM || b.missing 68 n || !((b.copy 68 n).isSome || b.winRoom) then b
      else (b.addMiss { agent := 68, line := n, queue := none, seat := t.seat.val }).send (.rdm (lineNo n))) b
/-- The 32 cycles end: a deferred invalidation is answered, or the window sends its line home, unless its RdM for the line
is under way (log 119). -/
def Blk.holdOver (a : AgentId) (line : LineNo) (b : Blk) : Blk :=
  match b.copy a line.toNat with
  | none => b
  | some c =>
    if !c.hold then b else
    match c.defer with
    | some none => (b.answerInv a line c).farPump
    | some (some _) => b.answerFwdInv a line c
    | none =>
      if a.val ≠ 68 then b.putCopy a line.toNat { c with hold := false }
      else if b.missing 68 line.toNat then b
      else ((b.dropCopy 68 line.toNat).send (.wb line c.data)).farPump
def execHoldEnd (a : AgentId) (line : LineNo) (s : State) : Host.Outcome State Fault Refusal :=
  s.onBlk fun _ b => if b.up then b.holdOver a line else b

/-! ### MEMBAR (R219, R220) -/

/-- Ways that a MEMBAR of partition p scans: not save ways, nor ways of clusters with taut engines of another partition. -/
def scanned (w : Weave) (p : Option Nat) (line way : Nat) : Bool :=
  !(saveWays w (homeOf line)).getLsbD way &&
  (match wayCluster w (homeOf line) way with
   | none => true
   | some c => !((range 4).any fun i => match w.partOf (4 * c + i) with
     | some r => r.taut && some r.num != p
     | none => false))
/-- Copies of the line in gather and descriptor caches go, and one whose Data is under way is not kept. -/
def Blk.dropCaches (line : Nat) (b : Blk) : Blk :=
  let b : Blk := { b with mem := { b.mem with
    misses := b.mem.misses.map fun m => if m.agent < 68 && m.line == line && b.isBusy line then { m with void := true } else m } }
  match b.dirEnt line with
  | none => b
  | some e => (e.holders.filter fun a => a.val < 68).foldl (fun b (a : AgentId) => b.invalidate a.val line) b
/-- Write-backs that have not been acknowledged are waited for too, since a write acknowledged at a home may be among
them (R219). -/
def Blk.joinWritebacks (q n : Nat) (b : Blk) : Blk × Nat :=
  let join := fun (r : PortReq) =>
    match r.use with
    | .writeback fs => { r with use := .writeback (fs ++ [(q, n)]) }
    | .home _ => r
  let isWb := fun (r : PortReq) =>
    match r.use with
    | .writeback _ => true
    | .home _ => false
  (range 4).foldl (fun (y : Blk × Nat) p =>
    let v := y.1.port p
    (y.1.setPort p { v with queue := v.queue.map join, tags := v.tags.map fun t => (t.1, join t.2) },
     y.2 + v.queue.countP isWb + v.tags.countP fun t => isWb t.2)) (b, 0)
def Blk.scan (q n : Nat) (b : Blk) : Blk :=
  let p := b.partNo q
  let ls := b.mem.rc.filter fun l => scanned b.wv.cur p l.1 l.2.way
  let dirty := ls.filter fun l => l.2.dirty && !l.2.poison
  let y := b.joinWritebacks q n
  let b := dirty.foldl (fun b l =>
    (b.bump (evBlk 0x0E (homeOf l.1)) 1).queuePort
      { write := true, line := lineNo l.1, data := l.2.data, mask := fullMask, seat := 0, src := 7, taut := false, holder := 17
        use := .writeback [(q, n)] }) y.1
  let b := ls.foldl (fun b l => ((if l.2.poison then b.notePoison l.1 else b).setRc (PMap.del l.1 b.mem.rc)).dropCaches l.1) b
  b.modEntry q n fun e => { e with prog := .membar true (y.2 + dirty.length) }
def execMembarScanDone (q : Queue) (n : Nat) (s : State) : Host.Outcome State Fault Refusal :=
  s.onWork fun x b =>
    match b.entry q n with
    | some e => if b.running && e.started && e.prog == .membar false 0 && e.ending.isNone then
        let b := b.scan q n
        match b.entry q n with
        | some e => b.finishCmd e
        | none => b
      else b
    | none => b

end Sys2Proof.Machine
end

