-- ==== Sys2Proof/Machine/Levels.lean ====
section
/-! DEFINITION. The governor (15 R388 to R394): power figures and the estimate, engine levels, targets, credits, the cap. -/

namespace Sys2Proof.Machine

/-! ### Figures (R388, R389, R391), in units of 1/64 mW -/

def engUnits : Nat := 2250
def uncoreUnits : Nat := 220000
def Blk.levels (b : Blk) : Nat := (b.eng.map fun p => p.2.level).sum
/-- The estimate of a control cycle. -/
def Blk.estimate (b : Blk) : Nat :=
  if b.pwr.asleep then 1280 else 156000 + (64000 + engUnits * b.levels) * b.pwr.divider / 32
/-- k control cycles pass at the estimate of now, which ACT_EST averages (R389). -/
def Blk.addEst (k : Nat) (b : Blk) : Blk :=
  { b with pwr := { b.pwr with estCnt := b.pwr.estCnt + k, estSum := b.pwr.estSum + k * b.estimate } }
/-- The worst-case power of the block: every figure at full rate (R391). -/
def Blk.worstUnits (b : Blk) : Nat := uncoreUnits + engUnits * b.levels
def Blk.tauts (b : Blk) : Nat := (tautEngines b.wv.cur).length
/-- F, and F in units of 62.5 mW. -/
def Blk.floorUnits (b : Blk) : Nat := uncoreUnits + 36000 * b.tauts
def Blk.floorSteps (b : Blk) : Nat := (b.floorUnits + 3999) / 4000
/-- UNDER follows B and F; its rise is an event and is logged. -/
def Blk.noteUnder (x : Env) (b : Blk) : Blk :=
  let u := decide (64000 * b.pwr.budget < b.floorUnits)
  let rise := u && !b.pwr.under
  let b : Blk := { b with pwr := { b.pwr with under := u, evUnder := b.pwr.evUnder || rise } }
  if rise then b.log x { kind := 0x10, time := x.now, detail := BitVec.ofNat 64 (b.pwr.budget + 256 * b.floorSteps) } else b

/-! ### Levels (R390 to R393) -/

def Blk.working (b : Blk) (e : Nat) : Bool :=
  let v := b.engine e
  v.job.isSome || !v.deque.isEmpty || v.st == .saving || v.restore
    || b.sb.any fun x => match x.prog with
      | .load l => l.targets.contains e
      | _ => false
def Blk.slackEngine (b : Blk) (e : Nat) : Bool := ((b.wv.cur.partOf e).map fun p => !p.taut).getD false
/-- Targets that share n steps, at most 16 each, among engines: first equally, then one more by engine ID. -/
def shareLevels (n : Nat) (es : List Nat) : List (Nat × Nat) :=
  let k := es.length
  let each := min 16 (n / k)
  let more := min n (16 * k) - each * k
  es.zipIdx.map fun y => (y.1, if each < 16 ∧ y.2 < more then each + 1 else each)
def Blk.setTarget (e t : Nat) (b : Blk) : Blk := if (b.engine e).target = t then b else b.modEng e fun v => { v with target := t }
/-- The targets of R392; a budget that has fallen counts from its adoption (R394). -/
def Blk.setTargets (b : Blk) : Blk :=
  if !b.start.done then b else
  let budget := min b.pwr.budget b.pwr.adopted
  let n := (64000 * budget - b.floorUnits) / engUnits
  let ts := shareLevels n ((range 64).filter fun e => b.slackEngine e && b.working e)
  (range 64).foldl (fun b e =>
    b.setTarget e (if b.wv.cur.isTaut e then 16 else ((ts.find? fun y => y.1 == e).map (·.2)).getD 0)) b
def rate (r : Nat) : Nat := 16 * (if r = 0 then 24 else r)
/-- Control cycles until a credit that gains r units in each is full. -/
def fillCycles (credit r : Nat) : Nat := max 1 ((engUnits - credit + r - 1) / r)
/-- Units by which levels fall in a control cycle: RAMP_DOWN, or, while a lower budget has been adopted, the rate that brings the worst-case
power within it by the next window boundary, whichever is more (R393, R394; log 135). A keep cycle has 1,000 control cycles. -/
def Blk.downRate (b : Blk) : Nat :=
  let excess := if b.pwr.adopted < b.pwr.budget then b.worstUnits - max (64000 * b.pwr.adopted) b.floorUnits else 0
  let left := max 1 (1000 * (1000 - b.pwr.window))
  max (rate b.wv.cur.rampDown) ((excess + left - 1) / left)
/-- k control cycles pass: the credits after them. None is gained for a raise outside full rate (R393, R398). -/
def Blk.passCredits (k : Nat) (b : Blk) : Blk :=
  let p := b.pwr
  let w := b.wv.cur
  { b with pwr := { p with up := if p.clock = .full then min engUnits (p.up + k * rate w.rampUp) else p.up
                           down := min engUnits (p.down + k * b.downRate) } }
/-- The engine to raise: a ramping taut one before any slack one, then the lowest level, then the lowest ID. None is raised
above the cap (R391). -/
def Blk.toRaise (b : Blk) : Option Nat :=
  if max (64000 * b.pwr.budget) b.floorUnits < b.worstUnits + engUnits then none else
  let es := (range 64).filter fun e => decide ((b.engine e).level < (b.engine e).target)
  (orderBy (fun e => (b2n (!b.wv.cur.isTaut e), (b.engine e).level, e)) es).head?
def Blk.toLower (b : Blk) : Option Nat :=
  let es := (range 64).filter fun e => decide ((b.engine e).target < (b.engine e).level)
  (orderBy (fun e => (16 - (b.engine e).level, 63 - e, 0)) es).head?
/-- An engine that leaves level 0 was on a known wait until now (R411). -/
def Blk.setLevel (x : Env) (e k : Nat) (b : Blk) : Blk :=
  b.modEng e fun v => { v with level := k, last := if v.level = 0 then x.now else v.last }
/-- The control cycles up to the next one at which a level moves (R393). No level rises during a stretch (R398). -/
def Blk.levelStep (x : Env) (b : Blk) : Blk :=
  let b := b.setTargets
  let w := b.wv.cur
  let up := if b.pwr.clock = .full then b.toRaise else none
  let down := b.toLower
  let cu := fillCycles b.pwr.up (rate w.rampUp)
  let cd := fillCycles b.pwr.down b.downRate
  let k := match up, down with
    | some _, some _ => min cu cd
    | some _, none => cu
    | none, some _ => cd
    | none, none => 0
  let b := (b.addEst k).passCredits k
  let full := (b.pwr.up == engUnits, b.pwr.down == engUnits)
  let b := match up with
    | some e => if full.1 then
        ({ b with pwr := { b.pwr with up := 0 } } : Blk).setLevel x e ((b.engine e).level + 1) else b
    | none => b
  match down with
  | some e => if full.2 then
      ({ b with pwr := { b.pwr with down := 0 } } : Blk).setLevel x e ((b.engine e).level - 1) else b
  | none => b
/-- Levels fall, as they would one by one, until the worst-case power is within the cap: at the window boundary what is still missing of
the faster lowering (R394; log 135). -/
def Blk.lowerToCap (x : Env) : Nat → Blk → Blk
  | 0, b => b
  | n + 1, b =>
    if b.worstUnits ≤ max (64000 * b.pwr.budget) b.floorUnits then b else
    match b.toLower with
    | some e => Blk.lowerToCap x n (b.setLevel x e ((b.engine e).level - 1))
    | none => b
/-- What a pour does to levels at P: an engine that is in no partition stops, and the floor is judged anew (R390, R391). -/
def Blk.pourLevels (x : Env) (b : Blk) : Blk :=
  let out := b.engIds fun e v => v.level != 0 && (b.wv.cur.partOf e).isNone
  (out.foldl (fun b e => b.setLevel x e 0) b).setTargets.noteUnder x

end Sys2Proof.Machine
end

