-- ==== Sys2Proof/Machine/Lanes.lean ====
section
/-! DEFINITION. What the matrix, vector and decoding slots of a bundle compute (03 R76 to R80, 04 R112 to R126, 05 R142):
values from values, with the rounding keys of R125 and the causes of the numeric report (R128). -/

namespace Sys2Proof.Machine

/-! ### Lanes of a 64-byte register -/

/-- Element i of width w bits. -/
def lane {n : Nat} (v : BitVec n) (w i : Nat) : Nat := fld v (w * i) w
def packLanes (w : Nat) : List Nat → Nat
  | [] => 0
  | x :: r => x % 2 ^ w + 2 ^ w * packLanes w r
def packLine (w : Nat) (l : List Nat) : Line := BitVec.ofNat 512 (packLanes w l)
/-- Element width and count of a FMT. -/
def fmtBits (fmt : Nat) : Nat := if fmt = 0 then 16 else 32
def fmtCount (fmt : Nat) : Nat := if fmt = 0 then 32 else 16
def decW (w v : Nat) : Num := if w = 16 then dec16 (BitVec.ofNat 16 v) else dec32 (BitVec.ofNat 32 v)
def encW (w : Nat) (n : Num) : Nat := if w = 16 then (enc16 n).toNat else (enc32 n).toNat
def fmtOf (w : Nat) : Fmt := if w = 16 then fp16 else fp32

/-- The rounding of a step: mode, and in stochastic mode the bits drawn for it. -/
def Rm.of (k : TileKey) (mode row col step phase : Nat) : Rm :=
  { mode := mode, r := if mode = 2 then k.bits row col step phase else 0 }
/-- A position inside the tile extent (R131). -/
def TileKey.inside (k : TileKey) (row col : Nat) : Bool := decide (row < k.rows) && decide (col < k.cols)

/-! ### Decoding loads (R112 to R114) -/

/-- Thirty-two FP16 elements of LF8 bytes; the causes it sets. -/
def decodeLf8 (raw : Nat) (scale : W16) : Line × Nat :=
  let xs := (range 32).map fun i => lf8Scaled (BitVec.ofNat 8 (raw / 2 ^ (8 * i))) (dec16 scale)
  (packLine 16 (xs.map fun x => x.1.toNat),
    (if xs.any fun x => x.2.1 then 8 else 0) + (if xs.any fun x => x.2.2 then 1 else 0))
/-- Thirty-two FP16 elements of LF4 codes through a codebook of 16 entries. -/
def decodeLf4 (raw : Nat) (book : Nat) : Line :=
  packLine 16 ((range 32).map fun i =>
    let x := (book / 2 ^ (16 * ((raw / 2 ^ (4 * i)) % 16))) % 65536
    if (dec16 (BitVec.ofNat 16 x)).isNan then 0x7E00 else x)

/-! ### The dot product (R117 to R119) -/

def Num.msb : Num → Int
  | .fin _ m e => e + bitlen m - 1
  | _ => 0
def maxInt : Int → List Int → Int
  | a, [] => a
  | a, b :: r => maxInt (max a b) r
/-- The window sum of nonzero finite products, and the sticky bit. -/
def windowSum (lsb : Int) : List Num → Int × Bool
  | [] => (0, false)
  | p :: r =>
    let y := windowSum lsb r
    match p with
    | .fin s m e =>
      let t := if lsb ≤ e then m * 2 ^ (e - lsb).toNat else m / 2 ^ (lsb - e).toNat
      let exact := decide (lsb ≤ e) || m % 2 ^ (lsb - e).toNat == 0
      (y.1 + (if s then -(t : Int) else t), y.2 || !exact)
    | _ => y
def groupSum (ps : List Res) (wide : Bool) (rm : Rm) : Res :=
  let vs := ps.map (·.1)
  if ps.any (fun p => p.2) || (vs.contains (.inf true) && vs.contains (.inf false)) then (.nan, true)
  else if vs.any Num.isNan then (.nan, false)
  else match vs.find? Num.isInf with
    | some v => (v, false)
    | none =>
      let nz := vs.filter fun v => !v.isZero
      match nz with
      | [] => (.zero (vs.all Num.sign), false)
      | p :: r =>
        let a := maxInt p.msb (r.map Num.msb)
        let lsb := a + 7 - (if wide then 112 else 80)
        let y := windowSum lsb nz
        if y.1 = 0 then (.zero false, false)
        else (roundTo fp32 true rm y.2 false (decide (y.1 < 0)) y.1.natAbs lsb, false)
def accAdd (acc g : Num) (rm : Rm) : Res :=
  let x := addX acc g
  (x.1.round fp32 true rm, x.2)

/-- M slot fields (R77). -/
structure MmF where
  asrc : Nat
  afmt : Bool
  wb : Nat
  wfmt : Bool
  whalf : Nat
  acc : Nat
  ahalf : Nat
  zero : Bool
  rnd : Nat
  deriving DecidableEq, Repr
def MmF.wide (f : MmF) : Bool := f.afmt || f.wfmt
/-- The row after an MM, and whether INVALID arose inside the extent. `a` holds the 32 k-values, `w` row r of the weight
block, `tag` the row's tag with STEP updated. -/
def mmRow (k : TileKey) (f : MmF) (a : Nat → Num) (w : Nat → Nat → Num) (tag : AccTag) (old : BitVec 1024) : BitVec 1024 × Bool :=
  let cols := if f.wide then 16 else 32
  let one := fun (e : Nat) =>
    let j := if f.wide then 16 * f.ahalf + e else e
    let c := if f.afmt && !f.wfmt then 16 * f.whalf + e else e
    let ps := (range 32).map fun i => mulX (a i) (w i c)
    let col := tag.col0.toNat + j
    let rm := fun (ph : Nat) => Rm.of k f.rnd tag.row.toNat col tag.step.toNat ph
    let g := groupSum ps f.wide (rm 0)
    let y := if f.zero then g else
      let z := accAdd (dec32 (BitVec.ofNat 32 (lane old 32 j))) g.1 (rm 1)
      (z.1, g.2 || z.2)
    (j, y.1, y.2 && k.inside tag.row.toNat col)
  let ys := (range cols).map one
  (ys.foldl (fun o y => putFld o (32 * y.1) 32 (enc32 y.2.1).toNat) old, ys.any fun y => y.2.2)

/-! ### The vector slot (R80, R126, R137, R142) -/

/-- V slot fields. -/
structure VecF where
  op : Nat
  dst : Nat
  a : Nat
  b : Nat
  c : Nat
  rnd : Nat
  fmt : Nat
  acc : Nat
  half : Nat
  func : Nat
  deriving DecidableEq, Repr

def cmpHolds (rel : Nat) (a b : Num) : Bool :=
  if a.isNan || b.isNan then rel == 3 else
  match rel with
  | 0 => cmpX a b == .lt
  | 1 => cmpX a b != .gt
  | 2 => cmpX a b == .eq
  | _ => cmpX a b != .eq
/-- One element of an elementwise operation on encodings: the result, and INVALID. -/
def vecElem (op func w : Nat) (rm : Rm) (a b c : Nat) : Nat × Bool :=
  let x := decW w a
  let y := decW w b
  let z := decW w c
  let rounded := fun (r : Res) => (encW w (r.1.round (fmtOf w) false rm), r.2)
  match op with
  | 1 => rounded (addX x y)
  | 2 => rounded (addX x y.neg)
  | 3 => rounded (mulX x y)
  | 4 => rounded (fmaX x y z)
  | 5 => (encW w (minX x y), false)
  | 6 => (encW w (maxX x y), false)
  | 7 => (encW w x.abs, false)
  | 8 => (encW w x.neg, false)
  | 9 => (encW w (if cmpHolds (func % 4) x y then .one else .zero false), false)
  | 10 => (if z.isZero then b else a, false)
  | 12 => let r := actNum (w == 16) (func % 16) rm x y z
    (encW w r.1, r.2)
  | _ => (a, false)
/-- RSUM: a running sum in element order. -/
def rsumGo (w : Nat) (rm : Nat → Rm) : Nat → List Nat → Num → Bool → Num × Bool
  | _, [], s, i => (s, i)
  | e, x :: r, s, i =>
    let y := addX s (decW w x)
    rsumGo w rm (e + 1) r (y.1.round (fmtOf w) false (rm e)) (i || y.2)
/-- Any vector operation but RDACC; `tag` is that of the row named in ACC. -/
def vecOp (k : TileKey) (f : VecF) (tag : AccTag) (a b c : Line) : Line × Bool :=
  let rm := fun (e : Nat) => Rm.of k f.rnd tag.row.toNat (tag.col0.toNat + e) tag.step.toNat 5
  let w := fmtBits f.fmt
  let n := fmtCount f.fmt
  if f.op = 11 then
    if f.fmt = 1 then
      (packLine 16 ((range 32).map fun e =>
        (enc16 ((dec32 (BitVec.ofNat 32 (if e < 16 then lane a 32 e else lane b 32 (e - 16)))).round fp16 false (rm e))).toNat), false)
    else (packLine 32 ((range 16).map fun e => (enc32 (dec16 (BitVec.ofNat 16 (lane a 16 (16 * f.half + e))))).toNat), false)
  else if f.op = 14 then
    let xs := (range n).map fun e => lane a w e
    match xs with
    | [] => (0, false)
    | x :: r =>
      let y := rsumGo w rm 1 r (decW w x) false
      (packLine w [encW w y.1], y.2)
  else
    let ys := (range n).map fun e => vecElem f.op f.func w (rm e) (lane a w e) (lane b w e) (lane c w e)
    (packLine w (ys.map (·.1)), ys.any fun y => y.2)

/-- RDACC: elements of the register; per element the column offset j, INVALID, and the causes NAN_OUT, INF_OUT. -/
def rdacc (k : TileKey) (f : VecF) (tag : AccTag) (row : BitVec 1024) (a b : Line) : Line × List (Nat × Bool × Nat) :=
  let scaled := f.func / 16 % 2 == 1
  let i := f.func % 16
  let sigma := dec32 (BitVec.ofNat 32 (lane a 32 i))
  let beta := dec32 (BitVec.ofNat 32 (lane b 32 i))
  let one := fun (e : Nat) =>
    let j := if f.fmt = 1 then 16 * f.half + e else e
    let rm := fun (ph : Nat) => Rm.of k f.rnd tag.row.toNat (tag.col0.toNat + j) tag.step.toNat ph
    let v := dec32 (BitVec.ofNat 32 (lane row 32 j))
    let y := if scaled then
        let p := mulX v sigma
        let p1 := p.1.round fp32 true (rm 2)
        let q := addX p1 beta
        (q.1.round fp32 true (rm 3), p.2 || q.2)
      else (v, false)
    let o := if f.fmt = 0 then y.1.round fp16 false (rm 4) else y.1
    (j, encW (fmtBits f.fmt) o, y.2, if o.isNan then 2 else if o.isInf then 4 else 0)
  let ys := (range (fmtCount f.fmt)).map one
  (packLine (fmtBits f.fmt) (ys.map fun y => y.2.1), ys.map fun y => (y.1, y.2.2.1, y.2.2.2))

end Sys2Proof.Machine
end

