-- ==== Sys2Proof/Machine/Engine.lean ====
section
/-! DEFINITION. Engines (03_engines): bundles and their checks, address generators, issue under the old-value rule, gathers,
draws, tiles from start to completion or fault. -/

namespace Sys2Proof.Machine

/-! ### Bundles (R72 to R82) -/

abbrev Bundle := BitVec 256
/-- L slot fields (R76). -/
structure LoadF where
  op : Nat
  dst : Nat
  ag : Nat
  step : Bool
  fmt : Nat
  src2 : Nat
  sidx : Nat
  rsv : Nat
  deriving DecidableEq, Repr
structure StoreF where
  op : Nat
  src : Nat
  ag : Nat
  step : Bool
  wide : Bool
  rsv : Nat
  deriving DecidableEq, Repr

def lSlot (b : Bundle) (i : Nat) : LoadF :=
  let o := 8 + 40 * i
  { op := fld b o 4, dst := fld b (o + 4) 7, ag := fld b (o + 11) 2, step := bit b (o + 13), fmt := fld b (o + 14) 2
    src2 := fld b (o + 16) 5, sidx := fld b (o + 21) 5, rsv := fld b (o + 26) 14 }
def mSlot (b : Bundle) : BitVec 48 := BitVec.ofNat 48 (fld b 88 48)
def mmFields (m : BitVec 48) : MmF :=
  { asrc := fld m 4 5, afmt := bit m 9, wb := fld m 10 2, wfmt := bit m 12, whalf := fld m 13 1, acc := fld m 14 6
    ahalf := fld m 20 1, zero := bit m 21, rnd := fld m 22 2 }
def vSlot (b : Bundle) : VecF :=
  { op := fld b 136 6, dst := fld b 142 5, a := fld b 147 5, b := fld b 152 5, c := fld b 157 5, rnd := fld b 162 2
    fmt := fld b 164 2, acc := fld b 166 6, half := fld b 172 1, func := fld b 173 11 }
def sSlot (b : Bundle) : StoreF :=
  { op := fld b 184 4, src := fld b 188 5, ag := fld b 193 2, step := bit b 195, wide := bit b 196, rsv := fld b 197 27 }
def aSlot (b : Bundle) : W32 := BitVec.ofNat 32 (fld b 224 32)
def headEnd (b : Bundle) : Bool := bit b 0
def headMark (b : Bundle) : Bool := bit b 1

/-! ### Address generators (R88, R89) -/

def Eng.ag (v : Eng) (g : Nat) : AddrGen := SMap.get {} v.arch.ag g
def Eng.setAg (v : Eng) (g : Nat) (a : AddrGen) : Eng := { v with arch := { v.arch with ag := SMap.set {} v.arch.ag g a } }
def AddrGen.space (a : AddrGen) : Bool := bit a.desc (8 * 0x10 + 16)
def AddrGen.indexed (a : AddrGen) : Bool := bit a.desc (8 * 0x10 + 17)
def AddrGen.idxSpace (a : AddrGen) : Bool := bit a.desc (8 * 0x10 + 18)
def AddrGen.idxWide (a : AddrGen) : Bool := bit a.desc (8 * 0x10 + 19)
def AddrGen.size (a : AddrGen) (d : Nat) : Nat := if d < 4 then fAt a.desc (8 + 2 * d) 0 16 else fAt a.desc 0x10 0 16
def AddrGen.stride (a : AddrGen) (d : Nat) : Int := sgn 32 (fAt a.desc (0x14 + 4 * d) 0 32)
def AddrGen.tstride (a : AddrGen) (d : Nat) : Int := sgn 32 (fAt a.desc (0x28 + 4 * d) 0 32)
def AddrGen.limit (a : AddrGen) : Nat := fAt a.desc 0x34 0 32
def AddrGen.idxBase (a : AddrGen) : Nat := fAt a.desc 0x38 0 64
/-- The generator AGLD makes of a descriptor at given tile coordinates. -/
def agLoad (d : Line) (tm tn tb : Nat) : AddrGen :=
  let a : AddrGen := { loaded := true, desc := d }
  let base : Int := (if a.space then fAt d 0 0 64 else fAt d 0 0 20 : Nat)
  { a with base := base + tm * a.tstride 0 + tn * a.tstride 1 + tb * a.tstride 2 }
/-- The carry of a step, from i_0 up to i_4. -/
def AddrGen.carry (a : AddrGen) : AddrGen :=
  let a1 := { a with i0 := a.i0 + 1 }
  if a1.i0 < a.size 0 then a1 else
  let a2 := { a1 with i0 := 0, i1 := a.i1 + 1 }
  if a2.i1 < a.size 1 then a2 else
  let a3 := { a2 with i1 := 0, i2 := a.i2 + 1 }
  if a3.i2 < a.size 2 then a3 else
  let a4 := { a3 with i2 := 0, i3 := a.i3 + 1 }
  if a4.i3 < a.size 3 then a4 else { a4 with i3 := 0, i4 := a.i4 + 1 }
/-- One step of the indices; the last test is made at every step. -/
def AddrGen.adv (a : AddrGen) : AddrGen :=
  if a.carry.i4 = a.size 4 then { a with i0 := 0, i1 := 0, i2 := 0, i3 := 0, i4 := 0 } else a.carry

def AddrGen.empty (a : AddrGen) : Bool := (range 5).any fun d => a.size d == 0

/-! ### Index entries (R88 to R90)

An IDX_BASE that is not aligned to its entry width is used as it stands: R88 asks for the alignment and names no fault
(DESIGN CHOICE, log 125). -/

/-- The entry that the position uses. -/
def AddrGen.pos (a : AddrGen) : Nat := a.i1 * a.size 0 + a.i0
def AddrGen.idxBytes (a : AddrGen) : Nat := if a.idxWide then 4 else 2
def AddrGen.idxAddr (a : AddrGen) (p : Nat) : Nat := a.idxBase + a.idxBytes * p
def addLines (l : List Nat) (ls : List Nat) : List Nat := ls.foldl (fun l x => if l.contains x then l else l ++ [x]) l
/-- Lines an entry lies in. -/
def AddrGen.idxLines (a : AddrGen) (p : Nat) : List Nat :=
  let x := a.idxAddr p
  addLines [] (([x, x + a.idxBytes - 1]).map fun y => if a.idxSpace then y % 2 ^ 64 / 64 else y / 64)
/-- Entries of the next positions, in order of use. -/
def AddrGen.ahead : Nat → AddrGen → List Nat
  | 0, _ => []
  | n + 1, a => a.pos :: AddrGen.ahead n a.adv
/-- Entries that may be in the buffer: the next 64; while a bundle waits, also those its earlier slots have taken (log 125). -/
def Eng.idxWindow (v : Eng) (a : AddrGen) : List Nat := addLines [] (a.ahead (if v.st = .frozen then 96 else 64))
/-- The next entry to fetch for generator g. -/
def Eng.idxWant (v : Eng) (g : Nat) : Option Nat :=
  let a := v.ag g
  if !a.loaded || !a.indexed || a.empty then none else
  (v.idxWindow a).find? fun p => !(SMap.get [] v.idxBuf g).any fun x => x.1 == p
/-- An entry that local memory cannot give: outside it, or in a bad line (R89, R408). -/
def Eng.idxFault (v : Eng) (a : AddrGen) (p : Nat) : Option W8 :=
  if a.idxSpace then none
  else if 786432 < a.idxAddr p + a.idxBytes then some Code.engLmRange
  else if (a.idxLines p).any v.badLm.contains then some Code.engEcc
  else none
/-- An entry out of the lines it lies in. -/
def AddrGen.idxEntry (a : AddrGen) (line : Nat → Line) (p : Nat) : W32 :=
  BitVec.ofNat 32 (ofBytes ((range a.idxBytes).map fun i =>
    let y := (a.idxAddr p + i) % 2 ^ 64
    BitVec.ofNat 8 (fAt (line (y / 64)) (y % 64) 0 8)))
/-- Further cycles of a gather of more than 4 lines (R94). -/
def gatherFreeze (n : Nat) : Nat := if n ≤ 4 then 0 else (n + 3) / 4 - 1

/-! ### Issue -/

/-- Why a bundle does not issue. -/
inductive Halt where
  | fault (code : W8)
  | gather (lines : List Nat)
  | index (g : Nat)
  | draw
  deriving DecidableEq, Repr

/-- An early read or a dropped MM (R87): slot, kind and index of the resource. -/
structure Hazard where
  slot : Nat
  kind : Nat
  idx  : Nat
  deriving DecidableEq, Repr

/-- A bundle as it issues: the engine, whose generators advance slot by slot; writes to come; local-memory lines touched;
gather lines used, and further cycles of its gathers; early reads; events by number. -/
structure Issue where
  v     : Eng
  new   : List PendW := []
  lm    : List Nat := []
  soc   : List Nat := []
  more  : Nat := 0
  haz   : List Hazard := []
  evs   : List (Nat × Nat) := []
  deriving DecidableEq, Repr

/-- What a tile brings to its bundles: key and extent, tile index, lines of SoC memory at hand. -/
structure TileCtx where
  key  : TileKey
  tile : Nat
  at'  : Nat → Option Line

abbrev Iss (α : Type) := Except Halt (Issue × α)

def Issue.ev (s : Issue) (e n : Nat) : Issue := { s with evs := s.evs ++ [(e, n)] }
def Issue.write (s : Issue) (slot lat : Nat) (d : Dest) (data : BitVec 1024) (mask : W64) : Issue :=
  { s with new := s.new ++ [{ land := s.v.step + lat, issue := s.v.step, slot := slot, dest := d, data := data, mask := mask }] }
/-- A read for the hazard sentinel: a write of an earlier step to the destination that lands later. -/
def Issue.read (s : Issue) (slot kind idx : Nat) (d : Dest) : Issue :=
  if s.v.sentinel && s.v.arch.pend.any (fun w => w.dest == d && decide (s.v.step < w.land)) then
    { s with haz := s.haz ++ [{ slot := slot, kind := kind, idx := idx }] }
  else s
def Issue.readV (s : Issue) (slot r : Nat) : Issue × Line := (s.read slot 0 r (.v r), SMap.get 0 s.v.arch.v r)
/-- Local memory read, all of it in range and good (R89, R408). -/
def Issue.lmRead (s : Issue) (slot a n : Nat) : Iss Nat :=
  let lines := (range ((a + n - 1) / 64 + 1 - a / 64)).map fun i => a / 64 + i
  if lines.any fun l => s.v.badLm.contains l then .error (.fault Code.engEcc) else
  let s := lines.foldl (fun s l => s.read slot 4 l (.lm l)) { s with lm := s.lm ++ lines }
  .ok (s, Mem.readN s.v.lm a n)
/-- A line of SoC memory through the gather cache. -/
def Issue.socRead (s : Issue) (c : TileCtx) (line : Nat) : Except Halt (Issue × Option Line) :=
  .ok ({ s with soc := if s.soc.contains line then s.soc else s.soc ++ [line] }, c.at' line)

/-- The address at a generator's position: none for a null access (R89); clips are counted. -/
def Issue.agAddr (s : Issue) (g : Nat) (a : AddrGen) : Iss (Option Int) :=
  if !a.loaded || a.empty then .ok (s, none) else
  let rest : Int := a.i1 * a.stride 1 + a.i2 * a.stride 2 + a.i3 * a.stride 3 + a.i4 * a.stride 4
  if !a.indexed then .ok (s, some (a.base + a.i0 * a.stride 0 + rest)) else
  match (SMap.get [] s.v.idxBuf g).find? fun e => e.1 == a.pos with
  | none => match s.v.idxFault a a.pos with
    | some f => .error (.fault f)
    | none => .error (.index g)
  | some e =>
    if a.limit ≤ e.2.toNat then
      .ok ({ s with v := { s.v with idxClip := satInc s.v.idxClip } }.ev 0x1B 1, none)
    else .ok (s, some (a.base + e.2.toNat * a.stride 0 + rest))
/-- Alignment (R76) and range (R89) of an address. An element of a scatter is held to its width as one of a load is, which R81
does not say (DESIGN CHOICE, log 127). -/
def agCheck (a : AddrGen) (x : Int) (n : Nat) : Except Halt Nat :=
  let x := if a.space then x % 2 ^ 64 else x
  if x % n ≠ 0 then .error (.fault Code.engAlign)
  else if !a.space && (decide (x < 0) || decide ((lmSize : Int) < x + n)) then .error (.fault Code.engLmRange)
  else .ok x.toNat
/-- The position a line operation uses; with STEP the generator advances once. -/
def Issue.one (s : Issue) (slot g n : Nat) (step : Bool) : Iss (Option Nat) :=
  let a := s.v.ag g
  let s := s.read slot 3 g (.ag g)
  match s.agAddr g a with
  | .error h => .error h
  | .ok (s, x) =>
    let s := if step && a.loaded then { s with v := s.v.setAg g a.adv } else s
    match x with
    | none => .ok (s, none)
    | some x =>
      match agCheck a x n with
      | .error h => .error h
      | .ok y => .ok (s, some y)
/-- Successive positions of an element operation: address and (i_1, i_0) of each. -/
def Issue.walkGo (g n : Nat) (a0 : AddrGen) : Nat → Issue → AddrGen → List (Option Nat × Nat × Nat) →
    Iss (AddrGen × List (Option Nat × Nat × Nat))
  | 0, s, a, l => .ok (s, a, l)
  | k + 1, s, a, l =>
    match s.agAddr g a with
    | .error h => .error h
    | .ok (s, x) =>
      match (match x with
        | none => Except.ok (ε := Halt) none
        | some x => (agCheck a0 x n).map some) with
      | .error h => .error h
      | .ok y => Issue.walkGo g n a0 k s a.adv (l ++ [(y, a.i1, a.i0)])
def Issue.walk (s : Issue) (slot g cnt n : Nat) (step : Bool) : Iss (List (Option Nat × Nat × Nat)) :=
  let a := s.v.ag g
  let s := s.read slot 3 g (.ag g)
  match Issue.walkGo g n a cnt s a [] with
  | .error h => .error h
  | .ok (s, a', l) => .ok ((if step && a.loaded then { s with v := s.v.setAg g a' } else s), l)

/-- Elements of local memory at the addresses given; null ones read 0. -/
def Issue.lmElems (slot n : Nat) : List (Option Nat × Nat × Nat) → Issue → List Nat → Iss (List Nat)
  | [], s, l => .ok (s, l)
  | (none, _) :: r, s, l => Issue.lmElems slot n r s (l ++ [0])
  | (some a, _) :: r, s, l =>
    match s.lmRead slot a n with
    | .error h => .error h
    | .ok (s, x) => Issue.lmElems slot n r s (l ++ [x])

/-- An L slot (R76, R112, R114). -/
def Issue.load (s : Issue) (c : TileCtx) (slot : Nat) (f : LoadF) : Except Halt Issue :=
  let dest : Dest := if f.op = 3 ∨ f.op = 4 then .wb f.dst else .v f.dst
  let out := fun (s : Issue) (lat : Nat) (d : Line) => Except.ok (ε := Halt) (s.write slot lat dest (BitVec.ofNat 1024 d.toNat) 0)
  let s := s.ev (if f.op = 6 ∨ f.op = 7 then 0x0F else 0x0E) 1
  match f.op with
  | 1 | 3 =>
    match s.one slot f.ag 64 f.step with
    | .error h => .error h
    | .ok (s, none) => out s 6 0
    | .ok (s, some a) =>
      match s.lmRead slot a 64 with
      | .error h => .error h
      | .ok (s, x) => out s 6 (BitVec.ofNat 512 x)
  | 2 | 4 =>
    let n := if f.fmt = 0 then 32 else 16
    let r := s.readV slot f.src2
    match r.1.one slot f.ag n f.step with
    | .error h => .error h
    | .ok (s, none) => out s 6 0
    | .ok (s, some a) =>
      match s.lmRead slot a n with
      | .error h => .error h
      | .ok (s, x) =>
        if f.fmt = 0 then
          let y := decodeLf8 x (BitVec.ofNat 16 (lane r.2 16 f.sidx))
          out { s with v := { s.v with numeric := s.v.numeric ||| BitVec.ofNat 64 y.2 } } 6 y.1
        else out s 6 (decodeLf4 x (lane r.2 256 (f.sidx % 2)))
  | 5 | 6 =>
    let w := fmtBits f.fmt
    match s.walk slot f.ag (fmtCount f.fmt) (w / 8) f.step with
    | .error h => .error h
    | .ok (s, ps) =>
      if f.op = 5 then
        match Issue.lmElems slot (w / 8) ps s [] with
        | .error h => .error h
        | .ok (s, xs) => out s 6 (packLine w xs)
      else
        let ls := addLines [] (ps.filterMap fun p => p.1.map (· / 64))
        let s := { s with soc := addLines s.soc ls, more := s.more + gatherFreeze ls.length }
        out s 9 (packLine w (ps.map fun p => match p.1 with
          | none => 0
          | some a => fAt ((c.at' (a / 64)).getD 0) (a % 64) 0 w))
  | _ =>
    match s.one slot f.ag 64 f.step with
    | .error h => .error h
    | .ok (s, none) => out s 9 0
    | .ok (s, some a) => out { s with soc := addLines s.soc [a / 64] } 9 ((c.at' (a / 64)).getD 0)

/-- The accumulator row after every MM issued so far (R78). -/
def Eng.accLatest (v : Eng) (r : Nat) : BitVec 1024 :=
  (v.arch.pend.foldl (fun o w => if w.dest = .acc r then some w.data else o) (none : Option (BitVec 1024))).getD
    (SMap.get 0 v.arch.acc r)
def Eng.tag (v : Eng) (r : Nat) : AccTag := SMap.get {} v.arch.tag r
def Eng.setTag (v : Eng) (r : Nat) (t : AccTag) : Eng := { v with arch := { v.arch with tag := SMap.set {} v.arch.tag r t } }
/-- The M slot (R77 to R79); STEP is seen at once (log 11). -/
def Issue.matrix (s : Issue) (c : TileCtx) (f : MmF) : Issue :=
  if s.v.step < s.v.mmFree then
    let s := if s.v.sentinel then { s with haz := s.haz ++ [{ slot := 2, kind := 2, idx := f.acc }] } else s
    { s with v := { s.v with mmDrop := satInc s.v.mmDrop } }.ev 0x0C 1
  else
    let r0 := s.readV 2 f.asrc
    let s := r0.1
    let r1 := if f.afmt then s.readV 2 (f.asrc + 1) else (s, 0)
    let s := r1.1
    let s := (range 32).foldl (fun s i => s.read 2 1 (32 * f.wb + i) (.wb (32 * f.wb + i))) s
    let a := fun (i : Nat) =>
      if f.afmt then decW 32 (if i < 16 then lane r0.2 32 i else lane r1.2 32 (i - 16)) else decW 16 (lane r0.2 16 i)
    let w := fun (i col : Nat) =>
      let row : Line := SMap.get 0 s.v.arch.wb (32 * f.wb + i)
      if f.wfmt then decW 32 (lane row 32 col) else decW 16 (lane row 16 col)
    let t := s.v.tag f.acc
    let t := { t with step := if f.zero then 0 else t.step + 1 }
    let y := mmRow c.key f a w t (s.v.accLatest f.acc)
    let v := s.v.setTag f.acc t
    let v := { v with mmFree := v.step + (if f.wide then 4 else 2), numeric := if y.2 then v.numeric ||| 1 else v.numeric }
    ({ s with v := v }.ev (if f.wide then 0x0B else 0x0A) 1).write 2 12 (.acc f.acc) y.1 0

/-- A position enters the numeric report: the lowest row, then column (R128, R129). -/
def notePos (rep : W64) (tile row col : Nat) : W64 :=
  let old := (fld rep 32 16, fld rep 48 16)
  if numPos rep && (decide (old.1 < row) || (old.1 == row && decide (old.2 ≤ col))) then rep
  else numReport (numCauses rep) (some (tile, row, col))
/-- Registers a vector operation reads. -/
def VecF.reads (f : VecF) : List Nat :=
  match f.op with
  | 1 | 2 | 3 | 5 | 6 | 9 => [f.a, f.b]
  | 4 | 10 => [f.a, f.b, f.c]
  | 7 | 8 | 14 | 15 => [f.a]
  | 11 => if f.fmt = 1 then [f.a, f.b] else [f.a]
  | 12 => if f.func = 1 then [f.a, f.b] else if f.func = 2 then [f.a, f.b, f.c] else [f.a]
  | 13 => if f.func / 16 % 2 = 1 then [f.a, f.b] else []
  | _ => []
/-- The V slot. -/
def Issue.vector (s : Issue) (c : TileCtx) (f : VecF) : Issue :=
  let s := f.reads.foldl (fun s r => s.read 3 0 r (.v r)) (s.ev 0x0D 1)
  let reg := fun (r : Nat) => SMap.get (0 : Line) s.v.arch.v r
  let tag := s.v.tag f.acc
  if f.op = 13 then
    let s := s.read 3 2 f.acc (.acc f.acc)
    let y := rdacc c.key f tag (SMap.get 0 s.v.arch.acc f.acc) (reg f.a) (reg f.b)
    let rep := y.2.foldl (fun r e =>
      let row := tag.row.toNat
      let col := tag.col0.toNat + e.1
      if !c.key.inside row col then r else
      let r := if e.2.1 then r ||| 1 else r
      if e.2.2 = 0 then r else notePos (r ||| BitVec.ofNat 64 e.2.2) c.tile row col) s.v.numeric
    { s with v := { s.v with numeric := rep } }.write 3 4 (.v f.dst) (BitVec.ofNat 1024 y.1.toNat) 0
  else
    let y := vecOp c.key f tag (reg f.a) (reg f.b) (reg f.c)
    { s with v := { s.v with numeric := if y.2 then s.v.numeric ||| 1 else s.v.numeric } }.write 3 4 (.v f.dst)
      (BitVec.ofNat 1024 y.1.toNat) 0

/-- Term of the output digest (R148). -/
def digestTerm (tile a : Nat) (w : W64) : W64 := mix (mix (BitVec.ofNat 64 (tile * 2 ^ 20 ||| a)) ^^^ w)
/-- A store is counted: before the first APOS has landed, in full; then by the position of its generator. -/
def Issue.counted (s : Issue) (c : TileCtx) (i1 i0 : Nat) : Bool := !s.v.apos || c.key.inside i1 i0
def Issue.digest (s : Issue) (t : W64) : Issue := { s with v := { s.v with digest := s.v.digest + t } }
/-- One scattered element joins the writes of its line; the later one wins. -/
def joinElem (step : Nat) (a n x : Nat) : List PendW → List PendW
  | [] => [{ land := step + 2, issue := step, slot := 4, dest := .lm (a / 64)
             data := BitVec.ofNat 1024 (x * 2 ^ (8 * (a % 64))), mask := maskOf (a % 64) n }]
  | w :: r =>
    if w.dest = .lm (a / 64) then
      { w with data := putFld w.data (8 * (a % 64)) (8 * n) x, mask := w.mask ||| maskOf (a % 64) n } :: r
    else w :: joinElem step a n x r
/-- The S slot (R81). -/
def Issue.store (s : Issue) (c : TileCtx) (f : StoreF) : Except Halt Issue :=
  let r := s.readV 4 f.src
  let s := r.1.ev 0x11 1
  let a0 := s.v.ag f.ag
  if f.op = 1 then
    match s.one 4 f.ag 64 f.step with
    | .error h => .error h
    | .ok (s, none) => .ok s
    | .ok (s, some a) =>
      let s := { s with lm := s.lm ++ [a / 64] }.write 4 2 (.lm (a / 64)) (BitVec.ofNat 1024 r.2.toNat) (BitVec.allOnes 64)
      .ok (if s.counted c a0.i1 a0.i0 then
        (range 8).foldl (fun s k => s.digest (digestTerm c.tile (a + 8 * k) (BitVec.ofNat 64 (lane r.2 64 k)))) s else s)
  else
    let w := if f.wide then 32 else 16
    match s.walk 4 f.ag (512 / w) (w / 8) f.step with
    | .error h => .error h
    | .ok (s, ps) =>
      let go := ps.zipIdx.foldl (fun (y : Issue × List PendW) p =>
        match p.1.1 with
        | none => y
        | some a =>
          let x := lane r.2 w p.2
          let s := { y.1 with lm := y.1.lm ++ [a / 64] }
          let s := if s.counted c p.1.2.1 p.1.2.2 then s.digest (digestTerm c.tile a (BitVec.ofNat 64 x)) else s
          (s, joinElem s.v.step a (w / 8) x y.2)) (s, [])
      .ok { go.1 with new := go.1.new ++ go.2 }

/-- The A slot but for LSET and PSEL (R82, R95): AGLD, AGRST, APOS, DRAW. -/
def Issue.descRead (s : Issue) (a : W32) : Iss Line :=
  let x := fld a 6 20
  if x % 64 ≠ 0 then .error (.fault Code.engAlign)
  else if lmSize < x + 64 then .error (.fault Code.engLmRange)
  else match s.lmRead 5 x 64 with
    | .error h => .error h
    | .ok (s, d) => .ok (s, BitVec.ofNat 512 d)
/-- The base of a generator as the pending write carries it. -/
def packAg (a : AddrGen) : BitVec 1024 := BitVec.ofNat 1024 (a.desc.toNat + 2 ^ 512 * (a.base % 2 ^ 128).toNat)
def unpackAg (d : BitVec 1024) : AddrGen :=
  { loaded := true, desc := BitVec.ofNat 512 (fld d 0 512), base := sgn 128 (fld d 512 128) }
def Issue.addr (s : Issue) (a : W32) : Except Halt Issue :=
  let g := fld a 4 2
  match fld a 0 4 with
  | 3 =>
    match s.descRead a with
    | .error h => .error h
    | .ok (s, d) =>
      let t := agLoad d s.v.arch.tileM.toNat s.v.arch.tileN.toNat s.v.arch.tileB.toNat
      .ok (s.write 5 6 (.ag g) (packAg t) 0)
  | 4 => .ok (s.write 5 1 (.agIdx g) 0 0)
  | 5 =>
    let s := s.read 5 3 g (.ag g)
    let t := s.v.ag g
    .ok (s.write 5 1 (.tag (fld a 6 6)) (BitVec.ofNat 1024 (t.i1 % 65536 + 65536 * (t.i0 % 65536))) 0)
  | 6 =>
    match s.descRead a with
    | .error h => .error h
    | .ok (s, d) =>
      let f := drawFields d
      if f.misaligned then .error (.fault Code.engAlign)
      else if f.rows = 0 then .ok s
      else if f.outOfRange then .error (.fault Code.engLmRange)
      else .ok { s with v := s.v.setChan g { busy := true, desc := d, bundle := s.v.ptr, rows := f.rows } }
  | _ => .ok s

/-! ### Legality (R73 to R82) -/

def Eng.spaceBad (v : Eng) (g : Nat) (want : Bool) : Bool := (v.ag g).loaded && (v.ag g).space != want
/-- An L slot that R73 to R76 refuse. Here and in the M and V slots, fields of a slot whose OP is NOP are not checked, since
the spec gives them no meaning there (DESIGN CHOICE, log 126). -/
def LoadF.bad (f : LoadF) (v : Eng) : Bool :=
  f.rsv != 0 || decide (7 < f.op) || (f.op != 0 && (decide (1 < f.fmt)
    || (f.op != 3 && f.op != 4 && decide (31 < f.dst))
    || ((f.op == 2 || f.op == 4) && f.fmt == 1 && decide (1 < f.sidx))
    || v.spaceBad f.ag (f.op == 6 || f.op == 7)))
/-- An M slot that R77 refuses; of a NOP only the reserved bits count (log 126). -/
def mmBad (m : BitVec 48) : Bool :=
  let op := fld m 0 4
  let f := mmFields m
  decide (1 < op) || fld m 24 24 != 0 || (op == 1 && (f.rnd == 3 || (f.afmt && f.asrc % 2 == 1)
    || (f.whalf == 1 && !(f.afmt && !f.wfmt)) || (f.ahalf == 1 && !f.wide)))
/-- A V slot that R79 refuses; of a NOP only FUNC counts (log 126). -/
def VecF.bad (f : VecF) : Bool :=
  decide (15 < f.op) || (if f.op = 0 then f.func != 0 else
    decide (1 < f.fmt) || f.rnd == 3 ||
    (match f.op with
     | 9 => decide (3 < f.func)
     | 12 => decide (11 < f.func)
     | 13 => decide (31 < f.func) || (decide (f.func < 16) && f.func != 0)
     | _ => f.func != 0))
def StoreF.bad (f : StoreF) (v : Eng) : Bool := f.rsv != 0 || decide (2 < f.op) || (f.op != 0 && v.spaceBad f.ag false)
/-- Bits of the A slot that an operation does not use, LSET's count source included. -/
def aBad (a : W32) : Bool :=
  let hi := fun (n : Nat) => a.toNat / 2 ^ n != 0
  match fld a 0 4 with
  | 0 => hi 4
  | 1 => bit a 14 && hi 19
  | 2 => hi 24
  | 3 => hi 26
  | 4 => hi 6
  | 5 => hi 12
  | 6 => hi 26
  | 7 => hi 8
  | _ => true
def bundleBad (b : Bundle) (v : Eng) : Bool :=
  fld b 2 6 != 0 || (lSlot b 0).bad v || (lSlot b 1).bad v || mmBad (mSlot b) || (vSlot b).bad || (sSlot b).bad v || aBad (aSlot b)

/-! ### Loops and the next bundle (R83, R84) -/

def endLoops (a : Nat) : List LoopFrame → Nat → List LoopFrame × Nat
  | [], nx => ([], nx)
  | t :: r, nx =>
    if t.endA ≠ a then (t :: r, nx)
    else if 1 < t.remaining then ({ t with remaining := t.remaining - 1 } :: r, t.start)
    else endLoops a r nx
/-- The loop stack and the next bundle address. -/
def nextBundle (v : Eng) (b : Bundle) : Except Halt (List LoopFrame × Nat) :=
  let a := v.ptr
  let w := aSlot b
  let op := fld w 0 4
  let loops := v.arch.loops
  let fin := fld w 4 10
  if (op = 1 ∨ op = 2) ∧ loops.any (fun l => l.endA == a) then .error (.fault Code.engIllegal)
  else if op = 1 ∧ (fin ≤ a ∨ loops.head?.any (fun l => decide (l.endA < fin))) then .error (.fault Code.engLoop)
  else if headEnd b then .ok ([], a + 1)
  else
    let param := fun (i : Nat) => fld v.arch.param (32 * i) 32
    if op = 1 then
      let cnt := fld w 15 17
      let n := if bit w 14 then param (cnt % 16) else cnt
      if n = 0 then .ok (loops, fin + 1)
      else if 4 ≤ loops.length then .error (.fault Code.engLoop)
      else .ok ({ start := a + 1, endA := fin, remaining := n } :: loops, a + 1)
    else
      let nx := if op = 2 ∧ (param (fld w 4 4)).testBit (fld w 8 5) = bit w 13 then fld w 14 10 else a + 1
      .ok (endLoops a loops nx)

/-! ### Landing (R86) -/

def Eng.landOne (w : PendW) (v : Eng) : Eng :=
  let ar := v.arch
  match w.dest with
  | .v r => { v with arch := { ar with v := SMap.set 0 ar.v r (BitVec.ofNat 512 w.data.toNat) } }
  | .wb r => { v with arch := { ar with wb := SMap.set 0 ar.wb r (BitVec.ofNat 512 w.data.toNat) } }
  | .acc r => { v with arch := { ar with acc := SMap.set 0 ar.acc r w.data } }
  | .lm l => { v with lm := Mem.writeMask v.lm (64 * l) w.data.toNat w.mask.toNat 64
                      badLm := if w.mask = fullMask then v.badLm.erase l else v.badLm }
  | .ag g => { v.setAg g (unpackAg w.data) with idxBuf := SMap.set [] v.idxBuf g [] }
  | .agIdx g => { v.setAg g { v.ag g with i0 := 0, i1 := 0, i2 := 0, i3 := 0, i4 := 0 } with idxBuf := SMap.set [] v.idxBuf g [] }
  | .tag r =>
    let t := v.tag r
    { v.setTag r { t with row := BitVec.ofNat 16 (fld w.data 0 16), col0 := BitVec.ofNat 16 (fld w.data 16 16) } with apos := true }
  | .loops => v
def landKey (w : PendW) : Nat × Nat × Nat := (w.land, w.issue, w.slot)
/-- Writes whose land step has come, in order. -/
def Eng.landUpTo (v : Eng) (t : Nat) : Eng :=
  let due := orderBy landKey (v.arch.pend.filter fun w => decide (w.land ≤ t))
  let v := { v with arch := { v.arch with pend := v.arch.pend.filter fun w => decide (t < w.land) } }
  due.foldl (fun v w => v.landOne w) v

/-! ### One bundle -/

def Eng.fetch (v : Eng) : Bundle := BitVec.ofNat 256 (Mem.readN (v.bank v.active).data (32 * v.ptr) 32)
/-- Channels the A slot waits for before the bundle issues (R96, R82). -/
def waitsDraw (v : Eng) (a : W32) : Bool :=
  match fld a 0 4 with
  | 6 => (v.chan (fld a 4 2)).busy
  | 7 => (range 4).any fun c => a.getLsbD (4 + c) && (v.chan c).busy
  | _ => false
/-- The slots of a bundle in order L0, L1, M, V, S, A. -/
def runSlots (v : Eng) (c : TileCtx) (b : Bundle) : Except Halt Issue := do
  let l0 := lSlot b 0
  let l1 := lSlot b 1
  let s : Issue := { v := v }
  let s ← if l0.op = 0 then pure s else s.load c 0 l0
  let s ← if l1.op = 0 then pure s else s.load c 1 l1
  let s := if fld (mSlot b) 0 4 = 0 then s else s.matrix c (mmFields (mSlot b))
  let s := if (vSlot b).op = 0 then s else s.vector c (vSlot b)
  let s ← if (sSlot b).op = 0 then pure s else s.store c (sSlot b)
  s.addr (aSlot b)
/-- Freeze cycles of bank conflicts: n lines of one bank take n - 1 (R92). -/
def bankFreeze (lines : List Nat) : Nat :=
  let ls := addLines [] lines
  ((range 16).map fun k => (ls.countP fun l => l % 16 == k) - 1).foldl max 0

def Blk.bumpEng (e : Nat) (evs : List (Nat × Nat)) (b : Blk) : Blk := evs.foldl (fun b p => b.bump (evEng e p.1) p.2) b
/-- The engine freezes for a cycle. -/
def Blk.frozen (x : Env) (e ev : Nat) (shared : Bool) (b : Blk) : Blk :=
  ((b.modEng e fun v => ({ v with idxLm := [] } : Eng).enter x .frozen).cycles e 1 (b2n shared)).bump (evEng e ev) 1
/-- A tile faults: issue stops until TILE_FAULT reports it (R106). -/
def Blk.faultTile (e : Nat) (code : W8) (bundle : Nat) (b : Blk) : Blk :=
  b.modEng e fun v => { v with pendFault := v.pendFault.orElse fun _ => some (code, bundle) }

/-- The tile on an engine, as its bundles see it. -/
def Blk.tileCtx (b : Blk) (e : Nat) : TileCtx :=
  let v := b.engine e
  let l := (v.job.bind b.launch?).getD {}
  let co := l.coords v.tile
  let ex := l.extent co.1 co.2.1
  { key := { seed := l.seed, tm := v.arch.tileM.toNat, tn := v.arch.tileN.toNat, tb := v.arch.tileB.toNat
             rows := ex.1, cols := ex.2 }
    tile := v.tile
    at' := fun n =>
      match b.copy e n with
      | some c => some c.data
      | none => (v.got.find? fun g => g.1.toNat == n).map (·.2) }
/-- ENGINE_B of a twin-issue (R413): its outward draws complete at once. -/
def Blk.isEngineB (b : Blk) (e : Nat) : Bool :=
  let v := b.engine e
  match (v.job.bind b.launch?).bind (·.twin) with
  | some t => (b.wv.cur.twin t.pairIx).any fun p => p.b == e
  | none => false
/-- A TMARK record (R445). -/
def Blk.tmark (x : Env) (e : Nat) (b : Blk) : Blk :=
  let v := b.engine e
  match v.job with
  | none => b
  | some j =>
    if !v.trace.ctl.getLsbD 0 then b else
    let prog := ((b.launch? j).map (·.prog)).getD 0
    b.setEng e (v.traceRec x 0x01 [BitVec.ofNat 32 (v.ptr + 1024 * b2n v.active + 65536 * prog.toNat), BitVec.ofNat 32 j.q,
      BitVec.ofNat 32 j.n, BitVec.ofNat 32 v.tile])
/-- The first report of the sentinel is held until cleared. -/
def Eng.noteHaz (v : Eng) (hs : List Hazard) : Eng :=
  match hs with
  | [] => v
  | h :: _ =>
    let v := { v with hazCount := satAdd v.hazCount hs.length }
    if bit v.hazAddr 31 then v else
    { v with hazAddr := BitVec.ofNat 32 (v.ptr + 2 ^ 10 * b2n v.active + 2 ^ 11 * h.slot + 2 ^ 14 * h.kind + 2 ^ 17 * h.idx + 2 ^ 31) }

/-- Reports that HAZARDS counts: the early reads, not a dropped MM (R87, 17 R442). -/
def earlyReads (hs : List Hazard) : Nat := hs.countP fun h => !(h.slot == 2 && h.kind == 2)

/-- The bundle has issued: its writes are pending, the step and the progress counter advance. -/
def Blk.issued (x : Env) (e : Nat) (bd : Bundle) (s : Issue) (nx : List LoopFrame × Nat) (b : Blk) : Blk :=
  let w := aSlot bd
  let fb := bankFreeze (s.lm ++ s.v.idxLm)
  let b := b.setEng e s.v
  let b := if headMark bd then b.tmark x e else b
  let b := b.modEng e fun v => (({ v.noteHaz s.haz with
    arch := { v.arch with pend := v.arch.pend ++ s.new, loops := nx.1 }
    ptr := nx.2, step := v.step + 1, progress := v.progress + 1, ended := headEnd bd, bubble := v.sentinel
    needs := [], got := [], idxLm := [] } : Eng).enter x .running)
  let b := b.modEng e fun v => { v with last := x.now }
  let b := (b.bumpEng e s.evs).bump (evEng e 0x02) 1
  let b := (b.bump (evEng e 0x05) fb).bump (evEng e 0x06) s.more
  let b := if s.haz.isEmpty then b else b.bump (evEng e 0x1A) (earlyReads s.haz)
  let b := s.soc.foldl (fun b n => b.touch e n) b
  let b := b.cycles e (1 + fb + s.more) 0
  if fld w 0 4 = 6 then
    let ch := fld w 4 2
    let c := (b.engine e).chan ch
    if c.busy && (drawFields c.desc).out && b.isEngineB e then b.modEng e fun v => v.setChan ch {}
    else b.issueRow e ch
  else b
/-- The gather cache asks for a line it lacks (R94). -/
def Blk.askGather (e : EngineId) (n : Nat) (b : Blk) : Blk :=
  if (b.copy e n).isSome || b.missing e n then b else
  (b.askLine ⟨e.val, by omega⟩ n ((b.engine e).job.map (·.q))).bump (evEng e 0x10) 1
/-- A line of an index tensor as it stands: in local memory, or in the gather cache. -/
def Blk.idxLine (b : Blk) (e : Nat) (a : AddrGen) (n : Nat) : Option Line :=
  if a.idxSpace then (b.copy e n).map (·.data) else some ((b.engine e).lm.readLine (64 * n))
/-- Entries that lie in the lines read join the buffer; those no longer ahead of the generator leave it. -/
def Eng.putIdx (v : Eng) (g : Nat) (ls : List Nat) (line : Nat → Line) : Eng :=
  let a := v.ag g
  let win := v.idxWindow a
  let new := (win.filter fun p => (a.idxLines p).all ls.contains).map fun p => (p, a.idxEntry line p)
  let old := (SMap.get [] v.idxBuf g).filter fun x => win.contains x.1 && !new.any fun y => y.1 == x.1
  { v with idxBuf := SMap.set [] v.idxBuf g (old ++ new)
           idxLm := if a.idxSpace || v.st == .frozen then v.idxLm else addLines v.idxLm ls }
/-- The next lines of the index tensor of generator g are read: those of SoC memory through the gather cache, which asks for
what it lacks (R90). -/
def Blk.indexFetch (e : EngineId) (g : Nat) (b : Blk) : Blk :=
  let v := b.engine e
  let a := v.ag g
  match v.idxWant g with
  | none => b
  | some p =>
    let ls := a.idxLines p
    if (v.idxFault a p).isSome then b
    else if ls.any fun n => (b.idxLine e a n).isNone then ls.foldl (fun b n => b.askGather e n) b
    else
      let b' := b.modEng e fun v => v.putIdx g ls fun n => (b.idxLine e a n).getD 0
      if a.idxSpace then ls.foldl (fun b n => b.touch e n) b' else b'
/-- A line that a generator's next index entries lie in. -/
def Eng.idxNeeds (v : Eng) (n : Nat) : Bool :=
  (range 4).any fun g => (v.ag g).idxSpace && (v.idxWant g).any fun p => ((v.ag g).idxLines p).contains n
/-- Lines a gather lacks: they are asked for, those at hand are kept for it. -/
def Blk.gatherMiss (x : Env) (e : Nat) (lines : List Nat) (b : Blk) : Blk :=
  let at' := (b.tileCtx e).at'
  let miss := lines.filter fun n => (at' n).isNone
  let have' := (lines.filterMap fun n => (at' n).map fun d => (lineNo n, d))
  let b := b.modEng e fun v => { v with needs := miss.map lineNo, got := have' }
  let b := if h : e < 64 then
      miss.foldl (fun b n => b.askGather ⟨e, h⟩ n) b else b
  b.frozen x e 0x06 true
/-- A bundle is checked and issues, or the engine freezes or faults (R74, R75). -/
def Blk.bundle (x : Env) (e : Nat) (b : Blk) : Blk :=
  let v := (b.engine e).landUpTo (b.engine e).step
  let b := b.setEng e v
  if v.bubble then (b.modEng e fun v => { v with bubble := false }).frozen x e 0x09 false else
  if 1023 < v.ptr then b.faultTile e Code.engIllegal 1023 else
  let bd := v.fetch
  let c := b.tileCtx e
  if bundleBad bd v then b.faultTile e Code.engIllegal v.ptr else
  match nextBundle v bd with
  | .error (.fault f) => b.faultTile e f v.ptr
  | .error _ => b
  | .ok nx =>
    if waitsDraw v (aSlot bd) then b.frozen x e 0x08 true else
    match runSlots v c bd with
    | .error (.fault f) => b.faultTile e f v.ptr
    | .error (.gather _) => b
    | .error (.index g) =>
      let b := if h : e < 64 then if (v.ag g).idxSpace then b.indexFetch ⟨e, h⟩ g else b else b
      b.frozen x e 0x07 (v.ag g).idxSpace
    | .error .draw => b.frozen x e 0x08 true
    | .ok s =>
      if s.soc.any fun n => (c.at' n).isNone then b.gatherMiss x e s.soc
      else if v.sentinel && !v.hazAct && !s.haz.isEmpty then
        ((b.modEng e fun v => v.noteHaz s.haz).bump (evEng e 0x1A) (earlyReads s.haz)).faultTile e Code.engHazard v.ptr
      else b.issued x e bd s nx
/-- An edge of the divided arithmetic clock comes to the engine's pacer: does it pass? At level k it passes k of every 16, spread
evenly; at level 16 every one (R387; log 154). -/
def Eng.paced (v : Eng) : Bool := decide (16 ≤ v.level ∨ 16 ≤ v.phase + v.level)
/-- The pacer after the edge. -/
def Eng.edge (v : Eng) : Eng :=
  if 16 ≤ v.level then v else { v with phase := if 16 ≤ v.phase + v.level then v.phase + v.level - 16 else v.phase + v.level }
/-- One edge of the divided arithmetic clock: an engine whose pacer passes it issues a bundle, or freezes. At level 0 none passes. -/
def execBundleIssue (e : EngineId) (s : State) : Host.Outcome State Fault Refusal :=
  s.onBlk fun x b =>
    let v := b.engine e
    if !b.running || !b.clocked e || !v.mayIssue then b else
    let b := if v.level < 16 then b.setEng e v.edge else b
    if v.paced then b.bundle x e else b

/-! ### Events of a tile -/

/-- The earliest write lands, if its step has come or the tile has issued END; the cycles up to it are busy ones. -/
def Blk.landNext (e : Nat) (b : Blk) : Blk :=
  let v := b.engine e
  match orderBy landKey v.arch.pend with
  | [] => b
  | w :: _ =>
    if !(decide (w.land ≤ v.step) || v.ended) then b else
    let b := b.cycles e (w.land - v.step) 0
    b.modEng e fun v => ({ v with arch := { v.arch with pend := v.arch.pend.erase w }, step := max v.step w.land } : Eng).landOne w
def execPendingWriteLand (e : EngineId) (s : State) : Host.Outcome State Fault Refusal :=
  s.onBlk fun _ b =>
    let v := b.engine e
    if b.running && b.clocked e && v.job.isSome && v.stop.isNone && v.pendFault.isNone && (v.st == .running || v.st == .frozen) then b.landNext e else b

/-- A gather line arrives at the engine, or the error response to its fill. -/
def Blk.gatherFill (e : EngineId) (line : LineNo) (d : Line) (resp : BitVec 2) (b : Blk) : Blk :=
  let n := line.toNat
  let v := b.engine e
  if resp ≠ 0 then
    let b := b.delMiss e n
    if (v.needs.contains line || v.idxNeeds n) && v.mayIssue then b.faultTile e Code.engGather v.ptr else b
  else
    b.modEng e fun v => if v.needs.contains line then
      { v with needs := v.needs.erase line, got := v.got.filter (fun g => g.1 != line) ++ [(line, d)] } else v
def execGatherFill (e : EngineId) (line : LineNo) (data : Line) (resp : BitVec 2) (s : State) : Host.Outcome State Fault Refusal :=
  s.onMessage Blk.up (.gatherFill e line data resp) fun _ b => b.gatherFill e line data resp

def execIndexFetchReturn (e : EngineId) (g : Fin 4) (s : State) : Host.Outcome State Fault Refusal :=
  s.onBlk fun _ b => if b.running && b.clocked e && (b.engine e).mayIssue then b.indexFetch e g else b

/-- The row outstanding on a channel has every response; inward lines land, each whole (R93, R96). An error faults the tile,
also while it is being saved. After END, cycles spent waiting for draws are busy ones and stalls: how many is a free value (R244). -/
def Blk.rowDone (e ch : Nat) (b : Blk) : Blk :=
  let v := b.engine e
  let c := v.chan ch
  let f := drawFields c.desc
  let n := f.bytes / 64
  let b := if v.ended && v.job.isSome && v.stop.isNone then
      let y := b.drawFree
      (y.2.cycles e y.1.toNat y.1.toNat).bump (evEng e 0x08) y.1.toNat
    else b
  let b := if c.bad then (if v.job.isSome && v.stop.isNone then b.faultTile e Code.engDraw c.bundle else b)
    else if f.out then b.bump (evEng e 0x13) f.bytes
    else
      (b.modEng e fun v => v.landRow c.soc c.lm c.got).bump (evEng e 0x12) f.bytes
  let b := if f.out then b else b.bankWait e n
  let b := b.modEng e fun v => v.setChan ch (if c.done + 1 = c.rows then {} else { c with done := c.done + 1, got := [], bad := false })
  let v := b.engine e
  if b.running && v.job.isSome && v.stop.isNone && v.st != .saving && v.pendFault.isNone then b.issueRow e ch else b
def DrawChan.rowOver (c : DrawChan) : Bool := c.busy && c.issued != c.done && c.want == 0
def execDrawRowComplete (e : EngineId) (ch : Fin 4) (s : State) : Host.Outcome State Fault Refusal :=
  s.onBlk fun _ b => if b.up && ((b.engine e).chan ch).rowOver then b.rowDone e ch else b

/-- The last copy of a job's descriptors that the draw unit began. -/
def lastCopy (j : Job) (l : List DescCopy) : Option DescCopy := (l.filter fun c => c.job == j).getLast?
/-- A descriptor copy is complete: that of a launch boundary, whose tile it faults on an error (R186), or that of a binding
(R188; log 120). One that was begun anew since has no further effect. -/
def Blk.copyDone (e : Nat) (c : DescCopy) (b : Blk) : Blk :=
  let v := b.engine e
  let b := b.setEng e { v with copies := v.copies.erase c }
  if lastCopy c.job v.copies ≠ some c then b else
  match b.launch? c.job with
  | none => b
  | some l =>
    let land := fun (b : Blk) => b.modEng e fun v => v.landRow (l.addr.toNat + 128) l.descLm c.got
    if v.descWait && v.descFor == some c.job then
      let b := b.modEng e fun v => { v with descWait := false }
      if c.bad then b.faultTile e Code.engDraw 0 else land b
    else
      match b.findStand c.job.q c.job.n with
      | some s =>
        if !c.job.run || s.bound || s.copied.contains e then b
        else if c.bad then b.standLost s.q s.n
        else land (b.modStand s.q s.n fun s => { s with copied := s.copied ++ [e] })
      | none => b
def execDescriptorCopyDone (e : EngineId) (s : State) : Host.Outcome State Fault Refusal :=
  s.onWork fun _ b =>
    match (b.engine e).copies.find? fun c => c.want == 0 with
    | some c => if b.running then b.copyDone e c else b
    | none => b

/-! ### Tiles (R71, R100, R133, R143) -/

/-- The state of R71 at tile start. -/
def tileArch (l : Launch) (t : Nat) (index : Option Nat) : EngArch :=
  let co := l.coords t
  let p := match index with
    | some i => putFld l.params 480 32 i
    | none => l.params
  { param := p, tileM := BitVec.ofNat 16 co.1, tileN := BitVec.ofNat 16 co.2.1, tileB := BitVec.ofNat 16 co.2.2 }
def Eng.beginTile (v : Eng) (x : Env) (j : Job) (t : Nat) (ar : EngArch) : Eng :=
  ({ v with arch := ar, job := some j, tile := t, started := true, ptr := 0, step := 0, ended := false, mmFree := 0, bubble := false
            numeric := 0, digest := 0, apos := false, busy := 0, stall := 0, needs := [], got := [], idxBuf := [], idxLm := []
            ran := false } : Eng).enter x .running
/-- The first tile of the deque. -/
def popTile : List (Job × Range) → Option (Job × Nat × List (Job × Range))
  | [] => none
  | (j, r) :: rest => some (j, r.lo, if r.lo + 1 < r.hi then (j, { r with lo := r.lo + 1 }) :: rest else rest)
def Blk.startTile (x : Env) (e : Nat) (b : Blk) : Blk :=
  let v := b.engine e
  match popTile v.deque with
  | none => b
  | some (j, t, rest) =>
    match b.launch? j with
    | none => b.modEng e fun v => { v with deque := rest }
    | some l =>
      let k := v.bank v.active
      let ready := (k.st == .ready || k.st == .waiting) && k.prog == l.prog
      if !ready && !b.isTwinJob j && !j.run then (b.returnQueued j e).engIdle e else
      let idx := if j.run then (b.findStand j.q j.n).map (·.index) else none
      let b := b.modEng e fun v => ({ v with deque := rest } : Eng).beginTile x j t (tileArch l t idx)
      let b := b.tileEv x e 0 j t
      if ready then b else b.faultTile e Code.engEcc 0
/-- A marked engine starts no further tile (R239); a run that has been sent goes on (R240). -/
def Blk.mayStartTile (b : Blk) (e : Nat) : Bool :=
  let v := b.engine e
  v.job.isNone && !v.descWait && !v.restore && (v.st == .idle || v.st == .standing) && !v.preempt
    && v.deque.head?.any fun r => r.1.run || (b.markOf e).isNone
def execTileStart (e : EngineId) (s : State) : Host.Outcome State Fault Refusal :=
  s.onBlk fun x b => if b.running && b.clocked e && b.mayStartTile e then b.startTile x e else b

/-- A twin engine's tile joins its side (R414). -/
def TwinSide.addTile (t : TwinSide) (tiles tile : Nat) (numeric digest : W64) : TwinSide :=
  let l : Launch := { numeric := t.numeric, posTile := t.posTile }
  let l := l.addReport tile numeric
  let t := { t with numeric := l.numeric, posTile := l.posTile, digest := t.digest + digest, done := t.done + 1 }
  if t.done = tiles then { t with fin := some (.pair t.digest t.numeric) } else t
/-- Which side of a twin-issue engine e runs. -/
inductive Side where
  | a | b | c
  deriving DecidableEq, Repr
def Blk.sideOf (b : Blk) (e : Nat) (t : Twin) : Side :=
  match b.wv.cur.twin t.pairIx with
  | some p => if p.arb = e then .c else if p.b = e then .b else .a
  | none => .a
def Twin.onSide (t : Twin) (s : Side) (f : TwinSide → TwinSide) : Twin :=
  match s with
  | .a => { t with a := f t.a }
  | .b => { t with b := f t.b }
  | .c => { t with c := f t.c }
/-- The tile's figures join its launch (R129, R149, R244); a tile of a retired launch is discarded (R68). -/
def Blk.tileDone (e : Nat) (j : Job) (b : Blk) : Blk :=
  let v := b.engine e
  if b.retired j then b.staleMsg else
  b.modLaunch j fun l =>
    let l := { l with busy := SMap.set 0 l.busy e (SMap.get 0 l.busy e + v.busy)
                      stall := SMap.set 0 l.stall e (SMap.get 0 l.stall e + v.stall) }
    match l.twin with
    | some t => { l with twin := some (t.onSide (b.sideOf e t) fun s => s.addTile (max l.tiles 1) v.tile v.numeric v.digest) }
    | none => { (l.addReport v.tile v.numeric) with digest := l.digest + v.digest, doneTiles := l.doneTiles + 1 }
/-- The engine after a tile: a marked one yields; one that another launch preempts keeps nothing; one with no more tiles asks
for some where it may steal, and else falls idle (R231, R232, R236, R239). -/
def Blk.afterTile (x : Env) (e : Nat) (b : Blk) : Blk :=
  let v := b.engine e
  let none' := v.deque.isEmpty
  let b := b.modEng e fun v => ({ v.dropTile with busy := 0, stall := 0, preempt := v.preempt && !none' } : Eng).enter x (b.restState e)
  let b : Blk := if none' then { b with dsp := { b.dsp with preempts := b.dsp.preempts.erase e } } else b
  let marked := (b.markOf e).isSome
  let b := if marked then b.yieldNow e else b
  if !(b.engine e).deque.isEmpty then b else
  let y := b.modEng e fun v => { v with ran := true }
  if !marked && !v.preempt && y.wantsSteal e then y else b.engIdle e
def Blk.completeTile (x : Env) (e : Nat) (b : Blk) : Blk :=
  let v0 := b.engine e
  let last := (v0.arch.pend.map PendW.land).foldl max v0.step
  let b := (b.cycles e (last - v0.step) 0).modEng e fun v => { (v.landUpTo last) with step := last }
  match v0.job with
  | none => b
  | some j =>
    let b := (b.tileEv x e 1 j v0.tile).bump (evEng e 0x15) 1
    let b := (b.tileDone e j).afterTile x e
    match b.findStand j.q j.n with
    | some s => if j.run && s.l.twin.isNone then b.endRun j.q j.n s.l.stat else b
    | none => b
def execTileComplete (e : EngineId) (s : State) : Host.Outcome State Fault Refusal :=
  s.onWork fun x b =>
    let v := b.engine e
    if b.running && b.clocked e && v.job.isSome && v.ended && v.stop.isNone && v.pendFault.isNone && v.st != .saving && v.channelsIdle
    then b.completeTile x e else b

/-- The owner seat of a job's queue, as a log entry names it. -/
def Blk.jobSeat (b : Blk) (j : Job) : Option (BitVec 4) := (b.wv.cur.owner j.q).map (BitVec.ofNat 4)
def Blk.engLog (x : Env) (kind code : W8) (e : Nat) (j : Option Job) (detail : Nat) (b : Blk) : Blk :=
  b.log x { kind := kind, code := code, seat := j.bind b.jobSeat, time := x.now, unit := BitVec.ofNat 12 e, part := b.partField e
            queue := j.map fun j => BitVec.ofNat 14 j.q, detail := BitVec.ofNat 64 detail }
/-- A tile that fails, by a fault or a hang: its launch ends on every engine, but of a twin only this engine's part
(R412, R414). -/
def Blk.failTile (e : Nat) (j : Job) (code : W8) (detail : Nat) (fin : TwinEnd) (b : Blk) : Blk :=
  match (b.launch? j).bind (·.twin) with
  | none => (b.stopTile .ended e).endJob j (Stat.err code detail) .retire
  | some t =>
    let side := b.sideOf e t
    let b := b.modLaunch j fun l => { l with twin := l.twin.map fun t => t.onSide side fun s => { s with fin := s.fin.orElse fun _ => some fin } }
    (b.stopTile .ended e).dropQueued j e
def Blk.reportFault (x : Env) (e : Nat) (b : Blk) : Blk :=
  let v := b.engine e
  match v.job, v.pendFault with
  | some j, some (code, bundle) =>
    let tile := if j.run then 0 else v.tile
    let det := engDetail e bundle v.active tile
    let b := b.setEng e { v with faultReg := BitVec.ofNat 19 (code.toNat + 2 ^ 8 * (bundle % 1024) + 2 ^ 18 * b2n v.active), pendFault := none
                                 stop := some .ended }
    let b := b.engLog x 5 code e (some j) det
    b.failTile e j code det (.fault code bundle v.active tile)
  | _, _ => b
/-- A fault found before the first tile (R186) belongs to the tile that was to start: on a resume, the saved one. -/
def Blk.faultStart (x : Env) (e : Nat) (b : Blk) : Blk :=
  let v := b.engine e
  if v.job.isSome || v.pendFault.isNone then b else
  match (if v.restore then v.save else none), popTile v.deque with
  | some s, _ => b.modEng e fun v =>
      ({ v with job := some s.job, tile := s.tile, started := true, save := none, restore := false } : Eng).enter x .running
  | none, some (j, t, rest) =>
    match b.launch? j with
    | some l => b.modEng e fun v => (({ v with deque := rest } : Eng).beginTile x j t (tileArch l t none))
    | none => b
  | none, none => b.modEng e fun v => { v with pendFault := none }
def execTileFault (e : EngineId) (s : State) : Host.Outcome State Fault Refusal :=
  s.onWork fun x b => if b.up && (b.engine e).pendFault.isSome then (b.faultStart x e).reportFault x e else b

end Sys2Proof.Machine
end

