-- ==== Sys2Proof/Machine/Twins.lean ====
section
/-! DEFINITION. Twin-issue: comparison, third issue, release (16 R414, R415, R465), and the retirement of launches after a
pour (02 R67). -/

namespace Sys2Proof.Machine

/-! ### Comparison (R414) -/

/-- What the comparison of two ends gives: a match, the same fault, or a third issue with its CAUSE. -/
inductive Verdict where
  | same (digest numeric : W64)
  | sameFault (code : W8) (bundle : Nat) (bank : Bool) (tile : Nat)
  | third (cause : BitVec 2)
  deriving DecidableEq, Repr
def twinVerdict : TwinEnd → TwinEnd → Verdict
  | .pair d n, .pair d' n' => if d = d' ∧ n = n' then .same d n else .third 1
  | .fault c bu bk t, .fault c' bu' _ _ => if c = c' ∧ bu = bu' then .sameFault c bu bk t else .third 3
  | .hang _ _ _, _ => .third 2
  | _, .hang _ _ _ => .third 2
  | _, _ => .third 3
def TwinEnd.digest : TwinEnd → W64
  | .pair d _ => d
  | _ => 0
def TwinSide.digestShown (t : TwinSide) : W64 :=
  match t.fin with
  | some e => e.digest
  | none => 0

/-- Jobs run as twin-issues of TWIN record i, launches in entry order, then standing runs, one that its queue's ABORT lets finish
among them (R174 step 7); none that is retired (R68). -/
def Blk.twinJobs (b : Blk) (i : Nat) : List (Job × Twin) :=
  let of := fun (j : Job) (l : Option Launch) =>
    if b.retired j then [] else ((l.bind (·.twin)).filter fun t => t.pairIx == i).toList.map fun t => (j, t)
  (b.sb.flatMap fun e => if e.ending.isNone then of e.job e.launch? else [])
    ++ b.stand.flatMap fun s => if s.running.isSome then of s.job (some s.l) else []
def Blk.setTwin (j : Job) (t : Twin) (b : Blk) : Blk := b.modLaunch j fun l => { l with twin := some t }

/-- The twin-issue is decided: FLT_TWIN_LAST and the digests of the pair, and the job ends with its status. -/
def Blk.decideTwin (j : Job) (t : Twin) (outcome : Nat) (a b' : Bool) (st : Stat) (b : Blk) : Blk :=
  let r : TwinLast :=
    { last := BitVec.ofNat 7 (outcome + 4 * t.cause.toNat + 16 * b2n a + 32 * b2n b' + 64 * b2n t.c.fin.isSome)
      digA := t.a.digestShown, digB := t.b.digestShown, digC := t.c.digestShown }
  let b : Blk := { b with flt := { b.flt with twins := SMap.set {} b.flt.twins t.pairIx r } }
  b.endJob j st .retire
/-- Status of a released pair (R168). -/
def twinStat (l : Launch) (n : W64) (recovered : Bool) : Stat :=
  { numeric := n != 0, concealed := l.concealed, twinRec := recovered, detail := n }
def Blk.logTwin (x : Env) (code : W8) (j : Job) (t : Twin) (b : Blk) : Blk :=
  b.log x { kind := 7, code := code, seat := b.jobSeat j, time := x.now, queue := some (BitVec.ofNat 14 j.q)
            detail := BitVec.ofNat 64 (t.pairIx % 32 + 32 * t.cause.toNat) }
def Blk.unresolved (x : Env) (j : Job) (t : Twin) (b : Blk) : Blk :=
  let det := match b.wv.cur.twin t.pairIx with
    | some p => p.a + 2 ^ 12 * p.b + 2 ^ 24 * p.arb
    | none => 0
  let b : Blk := { b with flt := { b.flt with twinUnres := satInc b.flt.twinUnres } }
  (b.logTwin x 3 j t).decideTwin j t 3 false false (Stat.err Code.twinUnresolved det)
/-- Does the arbiter's pair equal the end of a side? -/
def agrees (e : Option TwinEnd) (d n : W64) : Bool := e == some (.pair d n)

/-- The comparison of the first two ends, or of the third issue with them. -/
def Blk.compareTwin (x : Env) (j : Job) (t : Twin) (b : Blk) : Blk :=
  let l := (b.launch? j).getD {}
  if t.run3 then
    match t.c.fin with
    | none => b
    | some (.pair d n) =>
      let a := agrees t.a.fin d n
      let b' := agrees t.b.fin d n
      if a || b' then
        let b : Blk := { b with flt := { b.flt with twinRec := satInc b.flt.twinRec } }
        (b.logTwin x 2 j t).decideTwin j t 2 a b' (twinStat l n true)
      else b.unresolved x j t
    | some _ => b.unresolved x j t
  else if t.wants3 then b else
  match t.a.fin, t.b.fin with
  | some ea, some eb =>
    match twinVerdict ea eb with
    | .same _ n => b.decideTwin j t 1 true true (twinStat l n false)
    | .sameFault c bu bk tile =>
      let ea := ((b.wv.cur.twin t.pairIx).map (·.a)).getD 0
      b.decideTwin j { t with cause := 3 } 0 false false (Stat.err c (engDetail ea bu bk tile))
    | .third c => b.setTwin j { t with cause := c, wants3 := true }
  | _, _ => b
def execTwinCompare (twin : Fin 32) (s : State) : Host.Outcome State Fault Refusal :=
  s.onWork fun x b => if !b.running then b else (b.twinJobs twin).foldl (fun b y => b.compareTwin x y.1 y.2) b

/-! ### The third issue (R51, R415) -/

def Blk.wantsThird (b : Blk) (i : Nat) : Option (Job × Twin) := (b.twinJobs i).find? fun y => y.2.wants3 && !y.2.run3
/-- The pair is the first, in weave order, of those its arbiter is to serve. -/
def Blk.firstOfArb (b : Blk) (arb i : Nat) : Bool :=
  !(range i).any fun k => (b.wv.cur.twin k).any (fun p => p.arb == arb) && (b.wantsThird k).isSome
/-- The arbiter runs the whole launch, or lacks its program. -/
def Blk.thirdIssue (x : Env) (arb : Nat) (j : Job) (t : Twin) (b : Blk) : Blk :=
  match b.launch? j with
  | none => b
  | some l =>
    if ((b.engine arb).bankFor l.prog).isNone then b.unresolved x j t else
    let b := b.setTwin j { t with run3 := true }
    b.give x arb j l [{ lo := 0, hi := if j.run then 1 else l.tiles }] true
def execThirdIssue (twin : Fin 32) (s : State) : Host.Outcome State Fault Refusal :=
  s.onWork fun x b =>
    match b.wv.cur.twin twin, b.wantsThird twin with
    | some p, some (j, t) => if b.running && b.idleEng p.arb j && b.firstOfArb p.arb twin then b.thirdIssue x p.arb j t else b
    | _, _ => b

/-! ### Retirement (R67) -/

def staleStat : Stat := { stale := true }
/-- Stopped tiles whose draws are idle go at once. -/
def Blk.dropStopped (x : Env) (j : Job) (b : Blk) : Blk :=
  (b.engIds fun _ v => v.job == some j && v.stop == some .retire && v.channelsIdle).foldl (fun b e => b.leaveTile x e) b
def Blk.retireLaunch (x : Env) (j : Job) (b : Blk) : Blk :=
  if (b.entry j.q j.n).isNone then b.jobOver j else
  ((b.endJob j staleStat .retire).dropStopped x j).finishJob j
/-- A standing launch is unbound; its run tie carries STALE once. A STAND that has not bound completes with STALE. -/
def Blk.retireStand (x : Env) (j : Job) (b : Blk) : Blk :=
  match b.findStand j.q j.n with
  | none => b.jobOver j
  | some s =>
    -- a trigger on its way is discarded (R68)
    let b := if s.waiting.isSome then b.staleMsg else b
    if !s.bound then
      let b := (b.unbind j.q j.n).jobOver j
      match b.entry j.q j.n with
      | some e => b.complete e staleStat 0
      | none => b
    else if s.running.isSome then
      let b := (b.modStand j.q j.n fun s => { s with unbind := true, waiting := none }).unwake true j.q j.n
      ((b.endJob j staleStat .retire).dropStopped x j).finishJob j
    else if s.recWait.isSome then
      -- the run's record is on its way; the tie that follows it carries STALE
      b.modStand j.q j.n fun s => { s with waiting := none, recWait := s.recWait.map fun st => { st with stale := true } }
    else ((b.unbind j.q j.n).runTieFlag s fSTALE).jobOver j
/-- One affected launch is retired, in entry order. It counts as retiring until it has completed. -/
def Blk.retireNext (x : Env) (b : Blk) : Blk :=
  match b.wv.retire with
  | [] => b
  | j :: r =>
    let b : Blk := { b with wv := { b.wv with retire := r, retiring := b.wv.retiring.erase j ++ [j] } }
    if j.run then b.retireStand x j else b.retireLaunch x j
def execLaunchRetire (s : State) : Host.Outcome State Fault Refusal :=
  s.onWork fun x b => if b.running then b.retireNext x else b

end Sys2Proof.Machine
end

