-- ==== Sys2Proof/Machine/WeaveCheck.lean ====
section
/-! DEFINITION. The weave bitstream: its records (02 R37 to R53) and the consistency checks in table order (R59, R464). -/

namespace Sys2Proof.Machine

/-- A record: its offset, type and length. -/
structure WvRec where
  off : Nat
  typ : Nat
  len : Nat
  deriving DecidableEq, Repr
/-- Bits lo to lo + n - 1 of the record's bytes from offset o on. -/
def WvRec.f (m : Mem) (r : WvRec) (o lo n : Nat) : Nat := (Mem.readN m (r.off + o) 8 >>> lo) % 2 ^ n

def tPART : Nat := 1
def tSEAT : Nat := 2
def tQMAP : Nat := 3
def tCLUSTER : Nat := 4
def tREGION : Nat := 5
def tTWIN : Nat := 6
def tINTAKE : Nat := 7
def tPOWER : Nat := 8
def tNOTE : Nat := 0x0E
def tEND : Nat := 0x0F

/-- Fixed length of a record type and how often it may occur (R40); none for a reserved type and for NOTE. -/
def recLen : Nat → Option (Nat × Nat)
  | 1 => some (32, 16)
  | 2 => some (24, 16)
  | 3 => some (24, 1024)
  | 4 => some (16, 16)
  | 5 => some (16, 4)
  | 6 => some (16, 32)
  | 7 => some (48, 8)
  | 8 => some (16, 1)
  | 15 => some (8, 1)
  | _ => none
def recOk (r : WvRec) (sofar : List WvRec) : Bool :=
  if r.typ = tNOTE then decide (8 ≤ r.len) && r.len % 8 == 0 else
  match recLen r.typ with
  | some (n, most) => r.len == n && decide ((sofar.filter fun x => x.typ == r.typ).length < most)
  | none => false

/-- The records in offset order, or the offset at which WEAVE_RECORD fails (R39, R464). -/
def walkRecs (m : Mem) (length : Nat) : Nat → Nat → List WvRec → List WvRec × Option Nat
  | 0, _, acc => (acc.reverse, (acc.head?).map (·.off))
  | fuel + 1, off, acc =>
    if length ≤ off then (acc.reverse, some ((acc.head?.map (·.off)).getD 0x40)) else
    let r : WvRec := { off := off, typ := (Mem.read m off).toNat, len := Mem.readN m (off + 2) 2 }
    if !recOk r acc || decide (length < off + r.len) then (acc.reverse, some off)
    else if r.typ = tEND then (if off + r.len = length then ((r :: acc).reverse, none) else (acc.reverse, some off))
    else walkRecs m length fuel (off + r.len) (r :: acc)
/-- The records, or where WEAVE_RECORD fails. A bad record is reported before a wrong RECORD_COUNT, since the count is only known
once every record has been walked; R59 does not order the two (DESIGN CHOICE, log 130). -/
def wvRecords (m : Mem) (length : Nat) : List WvRec × Option Nat :=
  let w := walkRecs m length (length / 8 + 1) 0x40 []
  match w.2 with
  | some o => (w.1, some o)
  | none => if Mem.readN m 0x0C 2 = w.1.length then (w.1, none) else (w.1, some 0x0C)

/-- The first record that fails a test. -/
def firstRec (rs : List WvRec) (p : WvRec → Bool) : Option Nat := (rs.find? p).map (·.off)
/-- The first record that, with those before it, fails a test. -/
def firstWith (p : List WvRec → WvRec → Bool) : List WvRec → List WvRec → Option Nat
  | _, [] => none
  | before, r :: rest => if p before r then some r.off else firstWith p (before ++ [r]) rest
def ofType (t : Nat) (rs : List WvRec) : List WvRec := rs.filter fun r => r.typ == t
def minOpt (l : List (Option Nat)) : Option Nat :=
  l.foldl (fun (a b : Option Nat) => match a, b with
    | some x, some y => some (min x y)
    | none, y => y
    | x, none => x) none

/-! ### Reserved fields and ranges -/

/-- Fields that a record type defines, as (offset, low bit, width); INTAKE by KIND (R41 to R53). -/
def recDefined (kind1 : Bool) : Nat → List (Nat × Nat × Nat)
  | 1 => [(8, 0, 64), (0x10, 0, 8), (0x12, 0, 16), (0x14, 0, 8), (0x16, 0, 16), (0x18, 0, 32)]
  | 2 => [(8, 0, 4), (0xA, 0, 16), (0xC, 0, 32), (0x10, 0, 32)]
  | 3 => [(8, 0, 14), (0xA, 0, 15), (0xC, 0, 12), (0x10, 0, 64)]
  | 4 => [(8, 0, 4), (0xA, 0, 16), (0xC, 0, 32)]
  | 5 => [(8, 0, 2), (0xA, 0, 16)]
  | 6 => [(8, 0, 24), (0xC, 0, 12)]
  | 7 => [(8, 0, 5), (9, 0, 4), (0xC, 0, 20), (0x10, 0, 32)] ++
      (if kind1 then [(0x20, 0, 64), (0x28, 0, 32)] else [(0xA, 0, 12), (0x14, 0, 20), (0x18, 0, 20)])
  | 8 => [(8, 0, 16)]
  | _ => []
def recReserved (m : Mem) (r : WvRec) : Bool :=
  let hd := (0, 0, 8) :: [(2, 0, 16)]
  if r.typ = tNOTE then outside (Mem.readN m r.off 8) (definedMask hd) != 0
  else outside (Mem.readN m r.off r.len) (definedMask (hd ++ recDefined (r.f m 8 3 1 == 1) r.typ)) != 0

def taut (m : Mem) (r : WvRec) : Bool := r.f m 0x10 4 1 == 1
def recRange (m : Mem) (r : WvRec) : Bool :=
  match r.typ with
  | 1 =>
    if taut m r then r.f m 0x14 0 8 == 0 || decide (64 < r.f m 0x14 0 8)
    else r.f m 0x10 6 2 != 0 || r.f m 0x10 16 16 != 0 || r.f m 0x14 0 8 != 0 || r.f m 0x14 16 16 != 0 || r.f m 0x18 0 32 != 0
  | 2 => r.f m 0xC 16 16 != 0 && decide (0x3FF < r.f m 0xC 0 16)
  | 3 =>
    let part := r.f m 0xC 4 5
    decide (1023 < r.f m 8 0 14) || r.f m 8 16 15 == 0 || decide (1024 < r.f m 8 16 15) || (decide (0x10 ≤ part) && part != 0x1F)
  | 4 => (range 4).any fun n => decide (56 < r.f m 0xC (8 * n) 8)
  | 6 => decide (0x3F < r.f m 8 0 12) || decide (0x3F < r.f m 8 12 12) || decide (0x3F < r.f m 0xC 0 12)
  | 7 =>
    decide (0xFFFF < r.f m 0xC 0 20) ||
      (if r.f m 8 3 1 = 0 then
        decide (0x3F < r.f m 8 16 12) || r.f m 0x14 0 20 % 64 != 0 || r.f m 0x18 0 20 % 64 != 0 || decide (r.f m 0x18 0 20 < 64)
      else r.f m 0x20 0 64 % 64 != 0 || r.f m 0x28 0 32 % 64 != 0 || decide (r.f m 0x28 0 32 < 64))
  | 8 => decide (48 < r.f m 8 0 8) || decide (48 < r.f m 8 8 8)
  | _ => false
/-- What a record of its type names: the number that may occur once. -/
def recKey (m : Mem) (r : WvRec) : Option Nat :=
  match r.typ with
  | 1 => some (r.f m 0x10 0 4)
  | 2 => some (r.f m 8 0 4)
  | 4 => some (r.f m 8 0 4)
  | 5 => some (r.f m 8 0 2)
  | 7 => some (r.f m 8 0 3)
  | _ => none

/-! ### Records as the units hold them -/

def partOf (m : Mem) (r : WvRec) : WvPart :=
  { num := r.f m 0x10 0 4, taut := taut m r, dedicated := r.f m 0x10 5 1 == 1, warm := r.f m 0x10 6 1 == 1
    twinOk := r.f m 0x10 7 1 == 1, mask := BitVec.ofNat 64 (r.f m 8 0 64), maxTileNs := r.f m 0x10 16 16
    maxInflight := r.f m 0x14 0 8, sbReserve := r.f m 0x14 16 16, waitReserve := r.f m 0x18 0 16, residentKib := r.f m 0x18 16 16 }
def seatOf (m : Mem) (r : WvRec) : WvSeat :=
  { seat := r.f m 8 0 4, partMask := BitVec.ofNat 16 (r.f m 8 16 16), knotBase := r.f m 0xC 0 16, knotCount := r.f m 0xC 16 16
    expert := BitVec.ofNat 32 (r.f m 0x10 0 32) }
def qmapOf (m : Mem) (r : WvRec) : WvQmap :=
  { first := r.f m 8 0 14, count := r.f m 8 16 15, owner := r.f m 0xC 0 4, part := r.f m 0xC 4 5, prio := r.f m 0xC 9 3
    subset := BitVec.ofNat 64 (r.f m 0x10 0 64) }
def clusterOf (m : Mem) (r : WvRec) : WvCluster :=
  { cluster := r.f m 8 0 4, ways := BitVec.ofNat 16 (r.f m 8 16 16), slots0 := r.f m 0xC 0 8, slots1 := r.f m 0xC 8 8
    slots2 := r.f m 0xC 16 8, slots3 := r.f m 0xC 24 8 }
def regionOf (m : Mem) (r : WvRec) : WvRegion := { region := r.f m 8 0 2, saveWays := BitVec.ofNat 16 (r.f m 8 16 16) }
def twinOf (m : Mem) (r : WvRec) : WvTwin := { a := r.f m 8 0 12, b := r.f m 8 12 12, arb := r.f m 0xC 0 12 }
def intakeOf (m : Mem) (r : WvRec) : WvIntake :=
  { port := r.f m 8 0 3, kind1 := r.f m 8 3 1 == 1, conceal := r.f m 8 4 1 == 1, part := r.f m 8 8 4, engine := r.f m 8 16 12
    knot := r.f m 0xC 0 20, staleNs := r.f m 0x10 0 32, lmBase := r.f m 0x14 0 20, lmSize := r.f m 0x18 0 20
    bufBase := r.f m 0x20 0 64, bufSize := r.f m 0x28 0 32 }
def rampOf (v : Nat) : Nat := if v = 0 then 24 else v
def weaveOf (m : Mem) (rs : List WvRec) : Weave :=
  let p := (ofType tPOWER rs).head?
  { parts := (ofType tPART rs).map (partOf m), seats := (ofType tSEAT rs).map (seatOf m), qmaps := (ofType tQMAP rs).map (qmapOf m)
    clusters := (ofType tCLUSTER rs).map (clusterOf m), regions := (ofType tREGION rs).map (regionOf m)
    twins := (ofType tTWIN rs).map (twinOf m), intakes := (ofType tINTAKE rs).map (intakeOf m)
    rampUp := rampOf ((p.map fun r => r.f m 8 0 8).getD 0), rampDown := rampOf ((p.map fun r => r.f m 8 8 8).getD 0) }

/-! ### The checks across records -/

def engsOf (mask : W64) : List Nat := (range 64).filter fun e => mask.getLsbD e
def popCount (v : W16) : Nat := (range 16).countP fun i => v.getLsbD i
/-- Queues first to first + count - 1 of two ranges meet. -/
def rangesMeet (a n b k : Nat) : Bool := decide (a < b + k) && decide (b < a + n)

/-- TAUT_CLUSTER_SHARED. -/
def sharedCluster (m : Mem) (before : List WvRec) (r : WvRec) : Bool :=
  let p := partOf m r
  let cl := (engsOf p.mask).map (· / 4)
  before.any fun x =>
    let y := partOf m x
    (p.taut || y.taut) && ((engsOf y.mask).any fun e => cl.contains (e / 4))
/-- QUEUE_UNMAPPED: a queue ID that no range covers is reported at 0. -/
def queueUnmapped (m : Mem) (qs : List WvRec) : Option Nat :=
  let ms := qs.map (qmapOf m)
  if (range 1024).all fun q => ms.any fun r => decide (r.first ≤ q) && decide (q < r.first + r.count) then
    firstRec qs fun r => decide (1024 < (qmapOf m r).first + (qmapOf m r).count)
  else some 0
def queueOverlap (m : Mem) (before : List WvRec) (r : WvRec) : Bool :=
  let a := qmapOf m r
  before.any fun x => rangesMeet a.first a.count (qmapOf m x).first (qmapOf m x).count
/-- QUEUE_OWNER. A partition that no PARTITION record describes has no owner, even where a seat's PART_MASK names it; R59 does not
speak of that (DESIGN CHOICE, log 132). -/
def queueOwner (w : Weave) (m : Mem) (r : WvRec) : Bool :=
  let a := qmapOf m r
  a.part != 0x1F && !((w.part a.part).isSome && w.ownsPart a.owner a.part)
/-- DEDICATED_SUBSET. A queue of no partition is held to the rule of a time-shared one: its subset is zero; R45 and R59 do not speak
of that (DESIGN CHOICE, log 131). -/
def dedicatedSubset (w : Weave) (m : Mem) (before : List WvRec) (r : WvRec) : Bool :=
  let a := qmapOf m r
  match w.part a.part with
  | some p =>
    if p.dedicated then
      a.count != 1 || a.subset == 0 || a.subset &&& ~~~p.mask != 0
        || before.any fun x => (qmapOf m x).part == a.part && (qmapOf m x).subset &&& a.subset != 0
    else a.subset != 0
  | none => a.subset != 0
def knotOverlap (m : Mem) (before : List WvRec) (r : WvRec) : Bool :=
  let a := seatOf m r
  a.knotCount != 0 && (decide (1024 < a.knotBase + a.knotCount)
    || before.any fun x => (seatOf m x).knotCount != 0 && rangesMeet a.knotBase a.knotCount (seatOf m x).knotBase (seatOf m x).knotCount)
/-- The lowest PARTITION record that holds an engine of those given. -/
def partHolding (m : Mem) (rs : List WvRec) (p : WvPart → Bool) (es : Nat → Bool) : Option Nat :=
  firstRec (ofType tPART rs) fun r => p (partOf m r) && (engsOf (partOf m r).mask).any es
def wayEmpty (m : Mem) (rs : List WvRec) : Option Nat :=
  minOpt ((range 16).map fun c =>
    match partHolding m rs (fun _ => true) fun e => e / 4 == c with
    | none => none
    | some o =>
      match (ofType tCLUSTER rs).find? fun r => (clusterOf m r).cluster == c with
      | none => some o
      | some r => if (clusterOf m r).ways = 0 then some r.off else none)
/-- Region and way mask a CLUSTER or REGION record takes; save ways of a region are taken once. -/
def wayTaken (m : Mem) (r : WvRec) : Option (Nat × W16) :=
  if r.typ = tCLUSTER then some ((clusterOf m r).cluster / 4, (clusterOf m r).ways)
  else if r.typ = tREGION then some ((regionOf m r).region, (regionOf m r).saveWays) else none
def wayOverlap (m : Mem) (before : List WvRec) (r : WvRec) : Bool :=
  match wayTaken m r with
  | none => false
  | some (g, w) => before.any fun x => (wayTaken m x).any fun y => y.1 == g && y.2 &&& w != 0
def saveWaysShort (m : Mem) (rs : List WvRec) : Option Nat :=
  minOpt ((range 4).map fun g =>
    match partHolding m rs (fun p => !p.taut) fun e => e / 16 == g with
    | none => none
    | some o =>
      match (ofType tREGION rs).find? fun r => (regionOf m r).region == g with
      | none => some o
      | some r => if popCount (regionOf m r).saveWays < 2 then some r.off else none)
def slotOvercommit (m : Mem) (before : List WvRec) (r : WvRec) : Bool :=
  (range 4).any fun n => decide (56 < ((before ++ [r]).map fun x => (clusterOf m x).slots n).sum)
def tautSlots (w : Weave) (m : Mem) (r : WvRec) : Bool :=
  let c := clusterOf m r
  ((range 4).any fun i => w.isTaut (4 * c.cluster + i)) && (range 4).any fun n => c.slots n == 0
def tautReserve (w : Weave) (m : Mem) (before : List WvRec) (r : WvRec) : Bool :=
  let p := partOf m r
  let na := ((engsOf p.mask).filter fun e => !w.isArb e).length
  let ts := (before ++ [r]).map (partOf m) |>.filter (·.taut)
  p.taut && (decide (p.sbReserve < p.maxInflight) || decide (p.waitReserve < p.maxInflight)
    || decide ((if p.twinOk then na / 2 else na) < p.maxInflight) || decide (768 < p.residentKib)
    || decide (512 < (ts.map (·.sbReserve)).sum) || decide (2048 < (ts.map (·.waitReserve)).sum))
/-- A TWIN record that breaks R51. -/
def twinPairing (w : Weave) (m : Mem) (before : List WvRec) (r : WvRec) : Bool :=
  let t := twinOf m r
  let bs := before.map (twinOf m)
  let member := fun (e : Nat) => bs.any fun y => y.a == e || y.b == e
  let arb := fun (e : Nat) => bs.any fun y => y.arb == e
  let samePart := match w.partOf t.a with
    | some p => p.twinOk && p.mask.getLsbD t.b && p.mask.getLsbD t.arb
    | none => false
  !(samePart && t.a / 4 != t.b / 4 && t.a / 4 != t.arb / 4 && t.b / 4 != t.arb / 4
    && !member t.a && !member t.b && !arb t.a && !arb t.b && !member t.arb && decide ((bs.filter fun y => y.arb == t.arb).length < 4))
def intakeBinding (w : Weave) (m : Mem) (r : WvRec) : Bool :=
  let i := intakeOf m r
  match w.part i.part with
  | none => true
  | some p =>
    (!i.kind1 && (!p.taut || !p.mask.getLsbD i.engine || decide (786432 < i.lmBase + i.lmSize)))
      || !((w.knotOwner i.knot).any fun s => w.ownsPart s i.part)
/-- Functions 0 to 3 stand behind features 1 to 4 (R314). -/
def unnegotiated (confirmed : BitVec 256) (v : W32) : Bool :=
  (range 32).any fun f => v.getLsbD f && !(decide (f < 4) && confirmed.getLsbD (f + 1))

/-- Outcome of the check: the weave, or CODE and WV_ERR_OFFSET. -/
inductive WvOutcome where
  | good (w : Weave)
  | bad (code : W8) (off : Nat)
  deriving DecidableEq, Repr
/-- The first failing check in table order. -/
def firstCheck (w : Weave) : List (W8 × Option Nat) → WvOutcome
  | [] => .good w
  | (c, some o) :: _ => .bad c o
  | (_, none) :: r => firstCheck w r
def atIf (c : Bool) (o : Nat) : Option Nat := if c then some o else none

/-- Checks 0x06 onward, over the walked records. -/
def recordChecks (m : Mem) (rs : List WvRec) (confirmed : BitVec 256) (exhausted : Bool) : WvOutcome :=
  let w := weaveOf m rs
  let parts := ofType tPART rs
  let qs := ofType tQMAP rs
  firstCheck w
    [ (0x06, minOpt [atIf ((Mem.read m 7) != 0) 0x04, atIf (Mem.readN m 0x0E 2 != 0) 0x0C, atIf (Mem.readN m 0x10 44 != 0) 0x10]
        |>.orElse fun _ => firstRec rs (recReserved m)),
      (0x07, firstRec rs (recRange m)),
      (0x08, firstWith (fun before r => (recKey m r).isSome && before.any fun x => x.typ == r.typ && recKey m x == recKey m r) [] rs),
      (0x09, firstWith (fun before r => (partOf m r).mask == 0
        || before.any fun x => (partOf m x).mask &&& (partOf m r).mask != 0) [] parts),
      (0x0A, firstWith (sharedCluster m) [] parts),
      (0x0B, firstRec parts fun r => taut m r && (w.partOwners (partOf m r).num).length != 1),
      (0x0C, queueUnmapped m qs),
      (0x0D, firstWith (queueOverlap m) [] qs),
      (0x0E, firstRec qs (queueOwner w m)),
      (0x0F, firstWith (dedicatedSubset w m) [] qs),
      (0x10, firstWith (knotOverlap m) [] (ofType tSEAT rs)),
      (0x11, wayEmpty m rs),
      (0x12, firstWith (wayOverlap m) [] rs),
      (0x13, saveWaysShort m rs),
      (0x14, firstWith (slotOvercommit m) [] (ofType tCLUSTER rs)),
      (0x15, firstRec (ofType tCLUSTER rs) (tautSlots w m)),
      (0x16, firstRec parts fun r => taut m r && (decide ((partOf m r).maxTileNs < 1) || decide (5000 < (partOf m r).maxTileNs))),
      (0x17, firstWith (tautReserve w m) [] parts),
      (0x18, firstWith (twinPairing w m) [] (ofType tTWIN rs)),
      (0x19, firstRec (ofType tINTAKE rs) (intakeBinding w m)),
      (0x1A, firstRec (ofType tSEAT rs) fun r => unnegotiated confirmed (seatOf m r).expert),
      (0x1B, atIf exhausted 0) ]

/-- The whole check of the steep buffer (R59): `bad` is a word with an uncorrectable error (R408 code 11). -/
def weaveCheck (m : Mem) (empty : Bool) (extent : Nat) (bad : Option Nat) (confirmed : BitVec 256) (exhausted : Bool) : WvOutcome :=
  let length := Mem.readN m 8 4
  let crc := crc32c ((range length).map fun i => if 0x3C ≤ i ∧ i < 0x40 then 0 else Mem.read m i)
  if empty || Mem.readN m 0 4 != 0x4B575645 then .bad 0x01 0
  else if Mem.readN m 4 2 ≠ 1 || Mem.readN m 6 1 != 1 then .bad 0x02 4
  else if length % 8 ≠ 0 || decide (length < 72) || decide (262144 < length) || decide (extent < length) then .bad 0x03 8
  else match bad.filter fun a => decide (a < length) with
  | some a => .bad 0x04 a
  | none =>
    if crc.toNat ≠ Mem.readN m 0x3C 4 then .bad 0x04 0x3C else
    let rs := wvRecords m length
    match rs.2 with
    | some o => .bad 0x05 o
    | none => recordChecks m rs.1 confirmed exhausted

end Sys2Proof.Machine
end

