-- ==== Sys2Proof/Machine/Weave.lean ====
section
/-! DEFINITION. The weave unit (02 R54 to R70, R469): loading the steep buffer, the check, the pour and what it does to every
unit whose role changes. -/

namespace Sys2Proof.Machine

/-! ### Loading and requesting (R54 to R58, R469) -/

/-- States in which a steep-window write and a FETCH are ignored (R56). -/
def WvState.busy : WvState → Bool
  | .fetching | .checking | .waiting | .pouring => true
  | _ => false
def Blk.wvFail (code : W8) (off : Nat) (b : Blk) : Blk :=
  { b with wv := { b.wv with st := .failed, errCode := code, errOff := BitVec.ofNat 18 off, action := none } }
/-- The pour is given up before P: no role changes. -/
def Blk.wvAbandon (b : Blk) : Blk :=
  { b with wv := { b.wv with st := .abandoned, action := none, next := none, changing := b.wv.clearing }
           ik := b.ik.map fun p => (p.1, { p.2 with stopped := false }) }
def fetchBad (src : W64) (len : BitVec 19) : Bool :=
  src.toNat % 64 != 0 || len.toNat % 8 != 0 || decide (len.toNat < 72) || decide (262144 < len.toNat)
/-- A FETCH begins with the source and length as they stand now; a later write of WV_SRC changes the next one only (R55). -/
def Blk.wvFetch (b : Blk) : Blk :=
  if fetchBad b.wv.src b.wv.srcLen then b.wvFail 0x1C 0 else
  let n := (b.wv.srcLen.toNat + 63) / 64
  let b : Blk := { b with wv := { b.wv with
    st := .fetching, fetch := some { src := b.wv.src.toNat, len := b.wv.srcLen.toNat, want := n } } }
  (range n).foldl (fun b i => b.send (.rdonce .weave (lineOf (b.wv.src.toNat + 64 * i)))) b
def Blk.wvCheck (act : WvAction) (b : Blk) : Blk :=
  if b.wv.st = .empty then b.wvFail 0x01 0 else { b with wv := { b.wv with st := .checking, action := some act } }
/-- A write of WV_CTRL: QUIET first, then the first of CANCEL, FETCH, POUR, CHECK that the state accepts. A pour takes the QUIET of
its own write (log 158). -/
def Blk.wvCtrl (fetch check pour cancel quiet : Bool) (b : Blk) : Blk :=
  let st := b.wv.st
  let b : Blk := { b with wv := { b.wv with quiet := quiet, wrIgnored := b.wv.wrIgnored || (fetch && st.busy) } }
  if cancel && st == .waiting then b.wvAbandon
  else if st.busy then b
  else if fetch then b.wvFetch
  else if pour then b.wvCheck (.pour quiet)
  else if check then b.wvCheck .check else b
def wvCtrlWord (fetch check pour cancel quiet : Bool) : W32 :=
  BitVec.ofNat 32 (b2n fetch + 2 * b2n check + 4 * b2n pour + 8 * b2n cancel + 16 * b2n quiet)
def execFetch (a : Acc) (quiet : Bool) (s : State) : Host.Outcome State Fault Refusal :=
  s.writeRow a 0x1000 (wvCtrlWord true false false false quiet) (onSteward · a) fun _ b => b.wvCtrl true false false false quiet
def execCheck (a : Acc) (quiet : Bool) (s : State) : Host.Outcome State Fault Refusal :=
  s.writeRow a 0x1000 (wvCtrlWord false true false false quiet) (onSteward · a) fun _ b => b.wvCtrl false true false false quiet
def execPour (a : Acc) (quiet : Bool) (s : State) : Host.Outcome State Fault Refusal :=
  s.writeRow a 0x1000 (wvCtrlWord false false true false quiet) (onSteward · a) fun _ b => b.wvCtrl false false true false quiet
def execCancel (a : Acc) (quiet : Bool) (s : State) : Host.Outcome State Fault Refusal :=
  s.writeRow a 0x1000 (wvCtrlWord false false false true quiet) (onSteward · a) fun _ b => b.wvCtrl false false false true quiet

/-- A write to the steep window: the word is stored and raises the loaded extent, or is ignored. -/
def State.steepStore (word : Nat) (d : W32) (s : State) : State :=
  let v := s.blk.wv
  if v.st.busy then { s with blk := { s.blk with wv := { v with wrIgnored := true } } } else
  let extent := if v.st = .empty then 0 else v.extent
  { s with
    env := { s.env with steep := Mem.writeMask s.env.steep (4 * word) d.toNat 15 4 }
    blk := { s.blk with
      wv := { v with st := .loaded, extent := max extent (4 * word + 4), wrote := true }
      flt := { s.blk.flt with steepBad := s.blk.flt.steepBad.filter fun a => a != 4 * word } } }
def steepAddr (word : Nat) : Nat := 0xC0000 + 4 * word
def execSteepWrite (a : Acc) (word : BitVec 16) (data : W32) (s : State) : Host.Outcome State Fault Refusal :=
  s.writeRowS a (steepAddr word.toNat) data (onSteward · a) (·.steepStore word.toNat data)

/-- A response to the fetch: a line, or an error. -/
def Fetch.take (f : Fetch) (line : LineNo) (d : Option Line) : Fetch :=
  if f.want = 0 then f else
  match d with
  | some v => { f with want := f.want - 1, got := f.got ++ [(line, v)] }
  | none => { f with want := f.want - 1, bad := true }
/-- The bytes of the fetch, from its source on, within its length. -/
def Fetch.land (f : Fetch) (m : Mem) : Mem :=
  ((Mem.landLines [] f.src 0 f.got).filter fun c => decide (c.1 < f.len)) ++ m.filter fun c => decide (f.len ≤ c.1)
/-- Every response of the fetch has come: the bytes enter the steep buffer, or the fetch has failed. What a failed fetch leaves is
not given: here the buffer and the loaded extent stay as they were before it (DESIGN CHOICE, log 129). -/
def State.fetchDone (f : Fetch) (s : State) : State :=
  let v := s.blk.wv
  let b : Blk := { s.blk with wv := { v with fetch := none } }
  if v.st ≠ .fetching then { s with blk := b }
  else if f.bad then { s with blk := b.wvFail 0x1C 0 }
  else { s with
    env := { s.env with steep := f.land s.env.steep }
    blk := { b with wv := { b.wv with st := .loaded, extent := f.len, wrote := true }
                    flt := { b.flt with steepBad := b.flt.steepBad.filter fun a => decide (f.len ≤ a) } } }
def execFetchComplete (s : State) : Host.Outcome State Fault Refusal :=
  .next (match s.blk.wv.fetch with
    | some f => if s.blk.running && f.want == 0 then s.fetchDone f else s
    | none => s)

/-! ### Roles (R66) -/

/-- A queue's role; none while the epoch is 0 (R36). -/
def queueRole (w : Option Weave) (q : Nat) : Option (Nat × Nat × Nat × W64) :=
  (w.bind (·.qmap q)).map fun r => (r.owner, r.part, r.prio, r.subset)
def queueOwnerOf (w : Option Weave) (q : Nat) : Option Nat := w.bind (·.owner q)
/-- What of an engine's role its partition gives: number, class, SHARE, owner seats. -/
def engPart (w : Option Weave) (e : Nat) : Option (Nat × Bool × Bool) :=
  (w.bind (·.partOf e)).map fun p => (p.num, p.taut, p.dedicated)
def engOwnersOf (w : Option Weave) (e : Nat) : List Nat := (w.map (·.engOwners e)).getD []
def engTwins (w : Option Weave) (e : Nat) : List WvTwin :=
  (w.map fun w => w.twins.filter fun t => t.a == e || t.b == e || t.arb == e).getD []
def engIntakes (w : Option Weave) (e : Nat) : List WvIntake :=
  (w.map fun w => (range 8).filterMap fun p => (w.intake p).filter fun r => (w.intakeEngines r).contains e).getD []
def engRoleDiffers (o n : Option Weave) (e : Nat) : Bool :=
  engPart o e != engPart n e || engOwnersOf o e != engOwnersOf n e || engTwins o e != engTwins n e || engIntakes o e != engIntakes n e
def knotOwnerOf (w : Option Weave) (k : Nat) : Option Nat := w.bind (·.knotOwner k)
/-- The way that holds the save area of engine e (R103). -/
def saveWayOf (w : Option Weave) (e : Nat) : Option Nat := w.bind fun w => saveWay w e
/-- Regions whose save ways change. -/
def changedSaves (o n : Option Weave) : List Nat :=
  (range 4).filter fun r => (o.map fun w => saveWays w r).getD 0 != (n.map fun w => saveWays w r).getD 0
/-- The weave in force; none while the epoch is 0. -/
def Blk.weave? (b : Blk) : Option Weave := if b.wv.epoch = 0 then none else some b.wv.cur
def changedEngines (o n : Option Weave) : List Nat := (range 64).filter (engRoleDiffers o n)
def changedPorts (o n : Option Weave) : List Nat := (range 8).filter fun p => o.bind (·.intake p) != n.bind (·.intake p)
def knotRange (r : WvSeat) : List Nat := (range (64 * r.knotCount)).map fun i => 64 * r.knotBase + i
def changedKnots (o n : Option Weave) : List Nat :=
  let seats := (o.map (·.seats)).getD [] ++ (n.map (·.seats)).getD []
  ((seats.flatMap knotRange).filter fun k => knotOwnerOf o k != knotOwnerOf n k).eraseDups

/-! ### Check and arming (R58 to R62) -/

/-- K + 1, or Q: POURING begins, and ports whose binding changes stop between items' beats. -/
def Blk.armPour (b : Blk) : Blk :=
  match b.wv.next with
  | none => b
  | some w =>
    let b : Blk := { b with wv := { b.wv with st := .pouring } }
    (changedPorts b.weave? (some w)).foldl (fun b p => b.setIntake p { b.intake p with stopped := true }) b
def Blk.checkOver (x : Env) (b : Blk) : Blk :=
  match b.wv.action with
  | none => b
  | some act =>
    let last := decide (b.wv.epoch = 0xFFFFFFFF) && act != .check
    match weaveCheck x.steep false b.wv.extent b.flt.steepBad b.feat.confirmed last with
    | .bad c o => b.wvFail c o
    | .good w =>
      let b : Blk := { b with wv := { b.wv with action := none } }
      match act with
      | .check => { b with wv := { b.wv with st := .checked } }
      | .pour quiet =>
        let b : Blk := { b with wv := { b.wv with next := some w, changing := changedEngines b.weave? (some w) ++ b.wv.clearing } }
        if quiet then { b with wv := { b.wv with st := .waiting } } else b.armPour
def execCheckComplete (s : State) : Host.Outcome State Fault Refusal :=
  s.onBlk fun x b => if b.running && b.wv.st == .checking then b.checkOver x else b
/-- No changing engine holds a running, queued, saved or standing launch. -/
def Blk.quietReady (b : Blk) : Bool :=
  b.wv.changing.all fun e =>
    let v := b.engine e
    v.job.isNone && v.deque.isEmpty && v.save.isNone && (b.standOn e).isNone && !(b.dsp.steals.any fun s => s.thief == e)
def execQuietPourReady (s : State) : Host.Outcome State Fault Refusal :=
  s.onBlk fun _ b => if b.running && b.wv.st == .waiting && b.quietReady then b.armPour else b

/-! ### The pour edge (R62 to R70, R315, R317, R425, R458) -/

/-- What a partition record gives each of its engines. -/
def WvPart.word (p : WvPart) : Nat :=
  1 + p.num + 2 ^ 6 * b2n p.taut + 2 ^ 7 * b2n p.dedicated + 2 ^ 8 * b2n p.warm + 2 ^ 9 * b2n p.twinOk + 2 ^ 16 * p.maxInflight
    + 2 ^ 24 * p.residentKib + 2 ^ 40 * p.sbReserve + 2 ^ 56 * p.waitReserve + 2 ^ 72 * p.maxTileNs
/-- Engine e's share: its partition, owner seats, twin or arbiter role, save way. -/
def engConfig (w : Weave) (e : Nat) : List W8 :=
  toBytes 16 (((w.partOf e).map WvPart.word).getD 0) ++ toBytes 2 ((w.engOwners e).map (2 ^ ·)).sum
    ++ ((engTwins (some w) e).flatMap fun t => toBytes 5 (t.a + 2 ^ 12 * t.b + 2 ^ 24 * t.arb))
    ++ toBytes 1 (((saveWay w e).map (· + 1)).getD 0)
def queConfig (w : Weave) (q : Nat) : List W8 :=
  match w.qmap q with
  | some r => toBytes 4 (1 + r.owner + 16 * r.part + 512 * r.prio) ++ toBytes 8 r.subset.toNat
  | none => []
def intakeConfig (w : Weave) (p : Nat) : List W8 :=
  match w.intake p with
  | some r =>
    toBytes 12 (1 + b2n r.kind1 + 2 * b2n r.conceal + 2 ^ 8 * r.part + 2 ^ 16 * r.engine + 2 ^ 32 * r.knot) ++ toBytes 8 r.staleNs
      ++ toBytes 8 (r.lmBase + 2 ^ 32 * r.lmSize) ++ toBytes 16 (r.bufBase + 2 ^ 64 * r.bufSize)
  | none => []
/-- The configuration of every unit as bytes, for CONFIG_CRC, in the order of R458; the ways, save ways, seats and ramps, which serve every
unit, stand with the memory ports (log 68). -/
def configBytes (w : Weave) : List W8 :=
  (range 64).flatMap (engConfig w) ++ (range 1024).flatMap (queConfig w) ++ (range 8).flatMap (intakeConfig w)
    ++ ((range 4).flatMap fun n => (range 16).flatMap fun c => toBytes 1 (clusterSlots w c n))
    ++ (w.clusters.flatMap fun c => toBytes 3 (c.cluster + 2 ^ 8 * c.ways.toNat))
    ++ (w.regions.flatMap fun r => toBytes 3 (r.region + 2 ^ 8 * r.saveWays.toNat))
    ++ (w.seats.flatMap fun s => toBytes 16 (s.seat + 2 ^ 8 * s.partMask.toNat + 2 ^ 24 * s.knotBase + 2 ^ 48 * s.knotCount + 2 ^ 80 * s.expert.toNat))
    ++ toBytes 4 (w.rampUp + 2 ^ 16 * w.rampDown)

/-- Launches and standing launches that a pour retires, in entry order (R66): those of a queue whose role changes, standing ones
too (log 128), bound or not yet (log 159); those that hold a tile on an engine whose role changes, or go to or come from it in a steal; those of a pair one of
whose engines changes; those saved in an area that moves; standing ones whose trigger knot changes. -/
def Blk.toRetire (o n : Option Weave) (b : Blk) : List Job :=
  let engs := changedEngines o n
  let knots := changedKnots o n
  let moved := (range 64).filter fun e => saveWayOf o e != saveWayOf n e
  let twinHit := fun (i : Option Nat) => match i.bind fun i => o.bind (·.twin i) with
    | some t => engs.contains t.a || engs.contains t.b
    | none => false
  let launches := b.sb.filterMap fun e =>
    match e.launch? with
    | none => none
    | some l =>
      let j := e.job
      let hit := queueRole o e.q != queueRole n e.q
        || (engs.any fun t => (b.engine t).holds j || (b.engine t).savedOf j || b.dsp.steals.any fun s => (s.thief == t || s.victim == t) && s.tiles.any fun y => y.1 == j)
        || twinHit (l.twin.map (·.pairIx))
        || (moved.any fun t => (b.engine t).savedOf j || ((b.engine t).job == some j && (b.engine t).st == .saving))
      if hit then some (e.ord, j) else none
  let stands := b.stand.filterMap fun s =>
    if queueRole o s.q != queueRole n s.q || engs.contains s.eng || twinHit s.twinRec || knots.contains s.trigger
    then some (s.ord, s.job) else none
  (orderBy (fun y => (y.1, 0, 0)) (launches ++ stands)).map (·.2)

/-- TWIN records keep their place under their new index; one that is gone has none. -/
def twinIndex (o n : Weave) (i : Nat) : Option Nat :=
  (o.twin i).bind fun t => (n.twins.zipIdx.find? fun u => u.1 == t).map (·.2)
def Launch.reindex (o n : Weave) (l : Launch) : Launch :=
  { l with twin := l.twin.map fun t => { t with pairIx := (twinIndex o n t.pairIx).getD 32 } }
def Blk.reindexTwins (o n : Weave) (b : Blk) : Blk :=
  let sb := b.sb.map fun e => match e.prog with
    | .launch l => { e with prog := .launch (l.reindex o n) }
    | _ => e
  let stand := b.stand.map fun s => { s with twinRec := s.twinRec.bind (twinIndex o n), l := s.l.reindex o n }
  let kept := fun (i : Nat) => (n.twin i).bind fun t => (o.twins.zipIdx.find? fun u => u.1 == t).map (·.2)
  let twins : SMap TwinLast := (range 32).foldl (fun m i =>
    match kept i with
    | some k => SMap.set {} m i (SMap.get {} b.flt.twins k)
    | none => m) []
  { b with sb := sb, stand := stand, flt := { b.flt with twins := twins } }

/-- Knots whose owner changes (R66): the entries first, then the parked waiters. -/
def Blk.pourKnot (o : Option Weave) (epoch : W32) (k : Nat) (b : Blk) : Blk :=
  b.setKnot k { val := 0, flags := if (knotOwnerOf o k).isNone then 0 else fSTALE, role := epoch }
def Blk.releaseWaiter (w : Waiter) (b : Blk) : Blk :=
  if w.stand then b else
  let det : W64 := BitVec.ofNat 64 (w.knot + 2 ^ 20 * (b.knot w.knot).flags.toNat)
  let b := b.modEntry w.q w.n fun e => { e with prog := .hitch (some (fSTALE, det)) }
  let b := b.unpark false w.q w.n
  { b with kn := { b.kn with wakes := b.kn.wakes ++ [w] } }
def Blk.pourKnots (o n : Option Weave) (epoch : W32) (b : Blk) : Blk :=
  let ks := changedKnots o n
  let b := ks.foldl (fun b k => b.pourKnot o epoch k) b
  (b.kn.waiters.filter fun w => ks.contains w.knot).foldl (fun b w => b.releaseWaiter w) b

/-- Queues whose role changes; one whose owner changes is closed with STALE (R66, R176). -/
def Blk.pourQueue (o n : Option Weave) (epoch : W32) (q : Nat) (b : Blk) : Blk :=
  if queueRole o q = queueRole n q then b else
  let b : Blk := { b with wv := { b.wv with roleQ := SMap.set 0 b.wv.roleQ q epoch } }
  let b := b.trapServed q 3
  if queueOwnerOf o q = queueOwnerOf n q then b else
  match (b.que q).st with
  | .opened | .draining => b.closeQueue q true
  | _ => b

def Blk.pourEngine (o n : Option Weave) (epoch : W32) (e : Nat) (b : Blk) : Blk :=
  let b : Blk := { b with wv := { b.wv with roleE := SMap.set 0 b.wv.roleE e epoch } }
  if engOwnersOf o e = engOwnersOf n e then b else
  let b : Blk := { b with wv := { b.wv with clearing := addNew b.wv.clearing e } }
  b.modEng e fun v => { v.endClaim with sentinel := false, hazAct := false, st := if v.job.isNone then .clearing else v.st }

/-- A message of an intake port: item data on its way to a home. -/
def ofPort (p : Nat) : Instr → Bool
  | .wr (.intake i) _ _ _ => i.val == p
  | _ => false
def writeLine : Instr → Option LineNo
  | .wr _ line _ _ => some line
  | _ => none
/-- The writes of a port that homes have taken and not acknowledged: those of its items and landings but for the lines
given. They tie nothing any more. -/
def Intake.dropped' (v : Intake) (gone : List LineNo) : List Landing :=
  let outst := gone.foldl List.erase (v.landing.flatMap (·.outst) ++ v.items.flatMap (·.sent))
  if outst.isEmpty then [] else
  [{ dropped := true, capture := 0, seq := 0, knot := 0, concealed := false, outst := outst, record := none, engines := [] }]

/-- An intake port whose binding changes: its items not yet written in full are discarded and counted, what it has sent is
discarded on its way (R68), and the old knot is tied with STALE once, however many items go (log 160). -/
def Blk.pourPort (o : Option Weave) (oldEpoch epoch : W32) (p : Nat) (b : Blk) : Blk :=
  let v := b.intake p
  let open' := v.items.countP fun i => i.phase != .discard
  let late := v.landing.filter fun l => !l.dropped
  let gone' := open' + late.countP fun l => !l.outst.isEmpty || l.record.isSome
  let gone := b.mem.ring.filter (ofPort p)
  let ties := b.kn.tieQ.filter fun t => t.src == .intake p
  let b := b.setIntake p { v with
    items := (v.items.filter fun i => !i.last).map fun i => { i with phase := .discard, buffered := [], staged := [], sent := [] }
    landing := v.dropped' (gone.filterMap writeLine)
    stopped := false, seq := 0
    discPour := satAdd v.discPour gone' }
  let b := if gone' = 0 then b else b.bump (evBlk 0x15 p) gone'
  let b : Blk := { b with wv := { b.wv with roleI := SMap.set 0 b.wv.roleI p epoch }
                          mem := { b.mem with ring := b.mem.ring.filter fun m => !ofPort p m }
                          kn := { b.kn with tieQ := b.kn.tieQ.filter fun t => t.src != .intake p } }
  let b := (range (gone.length + ties.length + late.countP fun l => l.outst.isEmpty && l.record.isNone)).foldl (fun b _ => b.staleMsg) b
  match o.bind (·.intake p) with
  | none => b
  | some r =>
    { b with kn := { b.kn with tieQ := b.kn.tieQ ++ [{ knot := r.knot, op := .flagOnly, val := 0, flags := fSTALE, epoch := oldEpoch, src := .stale }] } }

/-- Expert grants above the new ceiling go (R315). -/
def Blk.pourGrants (n : Weave) (b : Blk) : Blk :=
  (range 16).foldl (fun b s =>
    let v := b.seat s
    b.setSeat s { v with expert := v.expert &&& ((n.seat s).map (·.expert)).getD 0 }) b
/-- Claims whose seat has lost function 2 end (R448). -/
def Blk.dropClaims (b : Blk) : Blk :=
  let lost := fun (s : Nat) => !(b.seat s).expert.getLsbD 2
  (b.engIds fun _ v => (v.trace.owner != 0x1F && lost v.trace.owner.toNat) || v.trace.claim.any lost).foldl
    (fun b e => b.modEng e Eng.endClaim) b

/-- Edge P: the epoch becomes E + 1 and every unit adopts the new weave. -/
def Blk.pourEdge (x : Env) (w : Weave) (b : Blk) : Blk :=
  let o := b.weave?
  let n := some w
  let old := b.wv.epoch
  let epoch := old + 1
  let gone := b.toRetire o n
  let b := b.reindexTwins b.wv.cur w
  let b : Blk := { b with wv := { b.wv with
    epoch := epoch, cur := w, next := none, pourTime := x.now, configCrc := crc32c (configBytes w), retire := b.wv.retire ++ gone } }
  let b := b.pourKnots o n epoch
  let b := (range 1024).foldl (fun b q => b.pourQueue o n epoch q) b
  let b := (changedEngines o n).foldl (fun b e => b.pourEngine o n epoch e) b
  let b := (changedPorts o n).foldl (fun b p => b.pourPort o old epoch p) b
  let b := (changedSaves o n).foldl (fun (b : Blk) r => { b with wv := { b.wv with roleS := SMap.set 0 b.wv.roleS r epoch } }) b
  let b := ((b.pourGrants w).dropClaims).pourLevels x
  { b with wv := { b.wv with changing := b.wv.clearing } }
def execPourEdge (s : State) : Host.Outcome State Fault Refusal :=
  s.onWork fun x b =>
    match b.wv.next with
    | some w => if b.running && b.wv.st == .pouring then b.pourEdge x w else b
    | none => b

/-! ### After P -/

/-- Slots 0 to 55 of each rotation go to clusters by their counts; 56 to 63 are the block's (R48; log 10). -/
def slotTable (w : Weave) (p : Nat) : SMap Nat :=
  let held := (range 16).flatMap fun c => List.replicate (clusterSlots w c p) c
  (held.zipIdx.take Config.assignableSlots).map fun y => (y.2, y.1 + 1)
/-- The new slot allocations take effect. -/
def Blk.switchSlots (b : Blk) : Blk :=
  (range 4).foldl (fun b p => b.setPort p { b.port p with slots := slotTable b.wv.cur p }) b
def execSlotAllocationSwitch (s : State) : Host.Outcome State Fault Refusal :=
  s.onBlk fun _ b => if b.up then b.switchSlots else b

/-- Local memory, both banks and the gather cache of an engine are cleared, and it accepts work. -/
def Blk.clearEngine (x : Env) (e : Nat) (b : Blk) : Blk :=
  let b := b.emptyCache e
  let b := b.modEng e fun v => { v with lm := [], badLm := [], bank0 := {}, bank1 := {}, got := [], save := none, concealed := false }
  let b : Blk := { b with wv := { b.wv with clearing := b.wv.clearing.erase e, changing := b.wv.changing.erase e } }
  b.modEng e fun v => v.enter x (b.restState e)
def execEngineClearDone (e : EngineId) (s : State) : Host.Outcome State Fault Refusal :=
  s.onWork fun x b =>
    let v := b.engine e
    if b.running && b.wv.clearing.contains e.val && v.job.isNone && v.deque.isEmpty && v.st != .resetting then b.clearEngine x e else b

/-- DONE: every launch that the pour retires has completed (R58). -/
def execPourDone (s : State) : Host.Outcome State Fault Refusal :=
  s.onBlk fun _ b =>
    if b.running && b.wv.st == .pouring && b.wv.next.isNone && b.wv.retire.isEmpty && b.wv.retiring.isEmpty then { b with wv := { b.wv with st := .done } } else b

end Sys2Proof.Machine
end

