-- ==== Sys2Proof/Machine/Recovery.lean ====
section
/-! DEFINITION. Hangs, the context step, engine and partition resets, errors in the arrays (16_faults). -/

namespace Sys2Proof.Machine

/-! ### Hangs (R410, R411) -/

/-- Arithmetic cycles of the engine's state that are a known wait; none: all of it (R411). -/
def waitCycles (s : EngState) : Option Nat :=
  match s with
  | .idle | .standing => none
  | .saving => some 3000
  | .restoring => some 900
  | .clearing => some 2000
  | .resetting => some 75000
  | .running | .frozen => some 0
/-- The same in nanoseconds, at the level and divider of now; an engine at level 0 receives no cycle and waits for ever (R387,
R411; log 73). -/
def Blk.hangGrace (x : Env) (b : Blk) (v : Eng) : Option Nat :=
  if v.level = 0 then none else
  (waitCycles v.st).map fun n => (n * x.time.ariPs.toNat * 512 + 1000 * v.level * b.pwr.divider - 1) / (1000 * v.level * b.pwr.divider)
/-- W in nanoseconds. -/
def Blk.stallNs (b : Blk) (e : Nat) : Option Nat := (b.wv.cur.partOf e).map fun p => 1000 * SMap.get 2 b.flt.stallWin p.num
def Blk.hangDue (x : Env) (b : Blk) (e : Nat) : Bool :=
  let v := b.engine e
  v.stop.isNone && v.pendFault.isNone &&
  match b.hangGrace x v, b.stallNs e with
  | some g, some w => decide (g + w ≤ (x.now - v.last).toNat)
  | _, _ => false
/-- The tile a save has captured too late restarts (R424, R104). -/
def Blk.restartTile (j : Job) (tile : Nat) (b : Blk) : Blk :=
  b.modLaunch j fun l => { l with unplaced := insRange { lo := tile, hi := tile + 1 } l.unplaced }
/-- A hang is declared: logged, counted against the next, and the context step begins. -/
def Blk.declareHang (x : Env) (e : Nat) (b : Blk) : Blk :=
  let v := b.engine e
  let j := v.job.orElse fun _ => if v.restore then v.save.map (·.job) else none
  let tile := if v.job.isSome then v.tile else (v.save.map (·.tile)).getD 0
  let tile := if j.any (·.run) then 0 else tile
  let det := engDetail e v.ptr v.active tile
  let b := b.engLog x 6 0 e j det
  let again := v.hungOnce.any fun t => decide ((x.now - t).toNat ≤ 100000000)
  let b := if again then b.callRung 1 e 6 else b
  let b := b.modEng e fun v => { v with hungOnce := some x.now, last := x.now }
  match j with
  | none => b
  | some j =>
    if v.st = .saving then ((b.restartTile j v.tile).stopTile .ended e).modEng e fun v => { v with preempt := false }
    else if v.job.isSome then b.failTile e j Code.engHang det (.hang v.ptr v.active tile)
    else (b.modEng e fun v => { v.enter x .idle with restore := false, save := none, descWait := false }).failTile e j Code.engHang det
      (.hang v.ptr v.active tile)
def execHangDeclared (e : EngineId) (s : State) : Host.Outcome State Fault Refusal :=
  s.onWork fun x b => if b.running && b.hangDue x e then b.declareHang x e else b

/-! ### The end of a context step, and of any stopped tile (R412, R67) -/

def Blk.stepDone (x : Env) (e : Nat) (b : Blk) : Blk :=
  let v := b.engine e
  match v.job, v.stop with
  | some j, some k =>
    let b := if k = .ended then b.engLog x 8 0 e (some j) e else b
    let b := b.leaveTile x e
    let b := if (b.markOf e).isSome then b.yieldNow e else b
    b.finishJob j
  | _, _ => b
def execContextStepDone (e : EngineId) (s : State) : Host.Outcome State Fault Refusal :=
  s.onWork fun x b =>
    let v := b.engine e
    if b.running && (v.stop == some .ended || v.stop == some .retire) && v.channelsIdle then b.stepDone x e else b

/-! ### Ordering a rung (R417, R422) -/

def rungReq (r : Rung) (cause : W8) : RungReq :=
  match r with
  | .engine e => { step := 1, target := e.val, cause := cause }
  | .partition p => { step := 2, target := p.val, cause := cause }
  | .block => { step := 3, target := 0, cause := cause }
  | .power => { step := 4, target := 0, cause := cause }
def RungReq.same (a r : RungReq) : Bool := a.step == r.step && a.target == r.target
/-- Rung a's target contains that of the lower rung r. -/
def RungReq.covers (w : Weave) (a r : RungReq) : Bool :=
  decide (r.step < a.step) && (decide (3 ≤ a.step) || (w.partOf r.target).any fun p => p.num == a.target)
/-- The target lies in the generation and in the weave. -/
def rungTarget (w : Weave) (r : RungReq) : Bool :=
  match r.step with
  | 1 => decide (r.target < 64) && (w.partOf r.target).isSome
  | 2 => (w.part r.target).isSome
  | 3 | 4 => r.target == 0
  | _ => false
/-- A rung is ordered: it joins those to be carried out, merges with the same rung under way, and drops what waits below it. -/
def Blk.orderRung (r : RungReq) (b : Blk) : Blk :=
  let f := b.flt
  let w := b.wv.cur
  let f := { f with called := f.called.filter fun c => !r.same c
                    pending := f.pending.filter fun p => !(r.same p || r.covers w p) }
  if (f.active ++ f.deferred).any (r.same ·) then { b with flt := f }
  else { b with flt := { f with deferred := (f.deferred.filter fun d => !r.covers w d) ++ [r] } }
/-- A rung without its AUTO bit waits for the steward, unless a higher one covers it. -/
def Blk.holdRung (r : RungReq) (b : Blk) : Blk :=
  let f := { b.flt with called := b.flt.called.filter fun c => !r.same c }
  if (f.active ++ f.deferred ++ f.pending).any fun a => a.covers b.wv.cur r || r.same a then { b with flt := f }
  else { b with flt := { f with pending := (f.pending.filter fun p => !r.covers b.wv.cur p) ++ [r], irqWait := true } }
/-- A rung of an engine whose context step has not finished is called for when that step's bound passes (R412). -/
def Blk.isCalled (b : Blk) (r : RungReq) : Bool :=
  b.flt.called.any (r.same ·) || (r.step == 1 && r.cause == 8 && (b.engine r.target).stop == some .ended)
def execRungOrder (r : Rung) (cause : W8) (s : State) : Host.Outcome State Fault Refusal :=
  s.onBlk fun x b =>
    let q := rungReq r cause
    if b.start.poresetLow || b.pwr.asleep || b.flt.warden ≠ .running || !b.isCalled q || !rungTarget b.wv.cur q || b.flt.pcycReq then b else
    let b := if q.step = 1 && q.cause == 8 then b.engLog x 8 1 q.target (b.engine q.target).job q.target else b
    if b.flt.auto.getLsbD (q.step - 1) then b.orderRung q else b.holdRung q

/-- A rung that does not finish in its bound calls for the next. -/
def execRungTimeout (r : Rung) (s : State) : Host.Outcome State Fault Refusal :=
  s.onBlk fun _ b =>
    let q := rungReq r 0
    if !b.flt.active.any (q.same ·) then b else
    match q.step with
    | 1 => match b.wv.cur.partOf q.target with
      | some p => b.callRung 2 p.num 9
      | none => b
    | 2 => b.callRung 3 0 0x0A
    | 3 => b.callRung 4 0 0x0B
    | _ => b

/-- A rung that was ordered may be carried out: no belay, and for a partition no pour (R424). A start that does not finish is left by a
power cycle (R417). -/
def Blk.rungMayStart (b : Blk) (r : RungReq) : Bool :=
  (b.running || (r.step == 4 && !b.start.poresetLow && !b.pwr.asleep && b.dbg.belay == .running)) && !(r.step == 2 && (b.wv.st == .checking || b.wv.st == .waiting || b.wv.st == .pouring))
def Blk.orderedRung (b : Blk) (r : RungReq) : Option RungReq := b.flt.deferred.find? fun d => r.same d
/-- It begins: lower ones within it stop. -/
def Blk.beginRung (r : RungReq) (b : Blk) : Blk :=
  { b with flt := { b.flt with deferred := b.flt.deferred.filter fun d => !r.same d
                               active := (b.flt.active.filter fun a => !(r.same a || r.covers b.wv.cur a)) ++ [r] } }
/-- A rung carried out counts against its limit; with the limit reached the next is called for (R417, R422). -/
def Blk.noteRung (x : Env) (r : RungReq) (b : Blk) : Blk :=
  let recent := fun (h : History) => decide ((x.now - h.time).toNat ≤ 10000000000)
  let target := if r.step = 1 then ((b.wv.cur.partOf r.target).map (·.num)).getD 0 else r.target
  let h := b.flt.history.filter recent ++ [{ step := r.step, target := target, time := x.now }]
  let b : Blk := { b with flt := { b.flt with history := h } }
  let count := fun (ns : Nat) => h.countP fun y => y.step == r.step && y.target == target && decide ((x.now - y.time).toNat ≤ ns)
  if r.step = 1 && b.flt.engLimit != 0 && decide (b.flt.engLimit.toNat ≤ count 1000000000) then b.callRung 2 target 9
  else if r.step = 3 && b.flt.blkLimit != 0 && decide (b.flt.blkLimit.toNat ≤ count 10000000000) then b.callRung 4 0 0x0B
  else b

/-! ### Engine reset (R418) -/

/-- Status code of a launch that a rung completes. -/
def rungCode (cause : W8) : W8 :=
  if cause = 6 then Code.engHang else if cause = 2 then Code.engEcc else Code.engReset
/-- Messages of a steal that the engine sent, or that go to it, are discarded; their tiles are unplaced again. -/
def Blk.dropSteals (e : Nat) (b : Blk) : Blk :=
  let mine := b.dsp.steals.filter fun s => s.thief == e || s.victim == e
  let b : Blk := { b with dsp := { b.dsp with steals := b.dsp.steals.filter fun s => !(s.thief == e || s.victim == e) } }
  mine.foldl (fun b s => s.tiles.foldl (fun b y => b.modLaunch y.1 fun l => { l with unplaced := insRange y.2 l.unplaced }) b.staleMsg) b
/-- Queued tiles of launches go back; a run that was sent to the engine starts after the reset (R424). -/
def Blk.sendBack (e : Nat) (b : Blk) : Blk :=
  (((b.engine e).deque.map (·.1)).eraseDups.filter fun j => !j.run).foldl (fun b j => b.returnWork j e) b
/-- The state of an engine that enters RESETTING (R71): everything but memory, banks, save area and counters. -/
def Eng.scrub (v : Eng) (x : Env) : Eng :=
  ({ v with arch := {}, job := none, tile := 0, started := false, ptr := 0, step := 0, ended := false, mmFree := 0, bubble := false
            numeric := 0, digest := 0, apos := false, busy := 0, stall := 0, pendFault := none, stop := none, needs := [], got := []
            idxBuf := [], idxLm := [], yieldTo := none, preempt := false, restore := false, descWait := false, ran := false
            orphans := v.orphans ++ v.arch.chan.flatMap fun c => c.2.open'.map fun l => (c.1, l) } : Eng).enter x .resetting
/-- The engine's queues take the reset as its acknowledgement (R175). -/
def Blk.ackAll (x : Env) (e : Nat) (b : Blk) : Blk :=
  ((b.qs.filter fun u => u.2.owed.contains e).map (·.1)).foldl (fun b q => b.acknowledge x q e) b
/-- One engine is reset; the launch on it ends with `code`. Responses still to come are discarded on arrival. -/
def Blk.resetEngine (x : Env) (e : Nat) (code : W8) (b : Blk) : Blk :=
  let v := b.engine e
  let tile := if v.job.any (·.run) then 0 else v.tile
  let b := match v.job with
    | some j => if v.stop.isNone then b.failTile e j code (engDetail e 0 v.active tile) (.fault code 0 v.active tile) else b
    | none => b
  let b := if (b.engine e).restore then b.abandonRestore x e else b
  let b := b.leaveTile x e
  let b := (b.sendBack e).dropSteals e
  let b := b.emptyCache e
  let b : Blk := { b with mem := { b.mem with misses := b.mem.misses.map fun m => if m.agent = e then { m with void := true } else m }
                          dsp := { b.dsp with preempts := b.dsp.preempts.erase e } }
  let b := b.modEng e fun v => v.scrub x
  let b := b.ackAll x e
  match v.job with
  | some j => b.finishJob j
  | none => b
/-- The launch that an engine's reset completes: the one whose tile runs, unless it is ended already, or a twin issue, of which only
this engine's part ends (R414). -/
def Blk.endsOn (b : Blk) (e : Nat) : List Job :=
  let v := b.engine e
  v.job.toList.filter fun j => v.stop.isNone && !b.isTwinJob j
/-- The one value of a list, if all are equal. -/
def only? {α : Type} [DecidableEq α] : List α → Option α
  | [] => none
  | a :: l => if l.all fun c => decide (c = a) then some a else none
/-- A rung is logged; SEAT and QUEUE are those of the work it ended, when all of it is one seat's, and one queue's (R404; log 150). -/
def Blk.rungLog (x : Env) (kind code : W8) (unit : BitVec 12) (part : BitVec 4) (js : List Job) (b : Blk) : Blk :=
  b.log x { kind := kind, code := code, time := x.now, unit := unit, part := part, seat := (only? (js.map b.jobSeat)).join
            queue := (only? (js.map (·.q))).map (BitVec.ofNat 14), detail := BitVec.ofNat 64 js.length }
def Blk.engineReset (x : Env) (r : RungReq) (b : Blk) : Blk :=
  let js := b.endsOn r.target
  let b := (b.beginRung r).resetEngine x r.target (rungCode r.cause)
  (b.rungLog x 9 r.cause (BitVec.ofNat 12 r.target) (b.partField r.target) js).noteRung x r

/-! ### Partition reset (R419) -/

/-- A standing launch bound to a reset partition, or whose pinned bank is lost, is unbound; its run tie carries FAULT once, after the run
in progress if there is one (R408, R419). -/
def Blk.resetStand (q n : Nat) (b : Blk) : Blk :=
  match b.findStand q n with
  | none => b
  | some s =>
    if !s.bound then b
    else if s.running.isSome || s.recWait.isSome then
      (b.modStand q n fun s => { s with unbind := true, waiting := none, failTie := true }).unwake true q n
    else (b.unbind q n).runTieFlag s fFAULT
def Blk.partLaunches (b : Blk) (p : Nat) : List Job :=
  (b.sb.filter fun e => b.partNo e.q == some p && e.started && e.launch?.isSome && e.ending.isNone).map (·.job)
/-- ENG_RESET for a launch or run that a reset of engines `es` ends: its DETAIL names the lowest of them that runs it, else the lowest
that queues it or holds its save, with the tile there; else the engine `other`, if any (R203; log 151). -/
def Blk.resetStat (b : Blk) (j : Job) (es : List Nat) (other : Option Nat) : Stat :=
  let on := (es.find? fun e => (b.engine e).job == some j).orElse fun _ =>
    es.find? fun e => (b.engine e).queuedOf j || (b.engine e).savedOf j
  match on.orElse fun _ => other with
  | none => Stat.err Code.engReset 0
  | some e =>
    let v := b.engine e
    let tile := if v.job = some j then v.tile
      else if v.savedOf j then (v.save.map (·.tile)).getD 0
      else ((v.deque.find? fun r => r.1 == j).map (·.2.lo)).getD 0
    Stat.err Code.engReset (engDetail e 0 v.active (if j.run then 0 else tile))
def Blk.partitionReset (x : Env) (r : RungReq) (b : Blk) : Blk :=
  match b.wv.cur.part r.target with
  | none => b
  | some p =>
    let es := engsOf p.mask
    let js := b.partLaunches r.target
    let b := b.beginRung r
    let ss := b.stand.filter fun s => (s.engines b.wv.cur).any es.contains
    let runs := (ss.filter fun s => s.bound && s.running.isSome).map (·.job)
    let b := ss.foldl (fun b s => b.resetStand s.q s.n) b
    let b := (js ++ runs).foldl (fun b j => b.endJob j (b.resetStat j es es.head?) .retire) b
    let b := es.foldl (fun b e => (b.resetEngine x e Code.engReset).modEng e fun v => { v with save := none, deque := [] }) b
    let b := (js ++ runs).foldl (fun b j => b.finishJob j) b
    (b.rungLog x 0x0A r.cause 0xFFF (BitVec.ofNat 4 r.target) js).noteRung x r

/-! ### Rows of engines and partitions -/

/-- FLT_RECOVER as a host writes it: the access goes to the warden core (R318). -/
def recoverWord (r : RungReq) : W32 := BitVec.ofNat 32 (r.step + 16 * r.target)

/-- RESETTING ends; the descriptors of a STAND that is still binding are read again. -/
def Blk.resetOver (x : Env) (e : Nat) (b : Blk) : Blk :=
  let rest := if (b.engine e).st = .resetting then
      b.modEng e fun v => v.enter x (b.restState e)
    else b
  let b := match rest.standOn e with
    | some s => if s.bound || s.copied.contains e then rest else rest.readTdesc e s.job s.l
    | none => rest
  let busy := fun (r : RungReq) =>
    match r.step with
    | 1 => r.target == e
    | 2 => !((engsOf (((b.wv.cur.part r.target).map (·.mask)).getD 0)).any fun t => (b.engine t).st == .resetting)
    | _ => false
  { b with flt := { b.flt with active := b.flt.active.filter fun r => !busy r } }
def execEngineResetDone (e : EngineId) (s : State) : Host.Outcome State Fault Refusal :=
  s.onWork fun x b => if b.running && (b.engine e).st == .resetting then b.resetOver x e else b

/-! ### Errors in the arrays (R407, R408) -/

def unitEngine (u : BitVec 12) : Option Nat := if u.toNat < 64 then some u.toNat else none
def Blk.eccSeat (b : Blk) (u : BitVec 12) : Option (BitVec 4) := (unitEngine u).bind fun e => (b.engine e).job.bind b.jobSeat
def Blk.eccLog (x : Env) (kind : W8) (code : BitVec 4) (u : BitVec 12) (addr : W64) (b : Blk) : Blk :=
  b.log x { kind := kind, code := BitVec.ofNat 8 code.toNat, seat := b.eccSeat u, time := x.now, unit := u
            part := ((unitEngine u).map b.partField).getD 0, detail := addr }
/-- The counters, the log and the checks run from step 4 of a start on; a chip held in PORESET_N counts nothing. -/
def execEccCe (code : BitVec 4) (unit : BitVec 12) (addr : W64) (s : State) : Host.Outcome State Fault Refusal :=
  s.onBlk fun x b =>
    if b.start.poresetLow || b.pwr.asleep then b else
    let c := code.toNat
    let b : Blk := { b with flt := { b.flt with eccCe := SMap.set 0 b.flt.eccCe c (satInc (SMap.get 0 b.flt.eccCe c)) } }
    let b := match unitEngine unit with
      | some e => b.bump (evEng e 0x1C) 1
      | none => b
    let b := if c = 10 then
        (let q := unit.toNat - 0x100
         if q < 4 then b.setSeq q { b.seq q with ecc := satInc (b.seq q).ecc } else b) else b
    b.eccLog x 1 code unit addr

/-- An instruction bank is lost: its tile faults, and a standing launch that pins it is unbound. -/
def Blk.bankLost (e : Nat) (i : Bool) (b : Blk) : Blk :=
  let v := b.engine e
  let k := v.bank i
  let ss := if k.st = .ready then b.stand.filter fun s => (s.engines b.wv.cur).contains e && s.l.prog == k.prog && s.bound else []
  let b := b.modEng e fun v => v.setBank i {}
  let b := if v.job.isSome && v.active == i then b.faultTile e Code.engEcc v.ptr else b
  ss.foldl (fun b s =>
    b.resetStand s.q s.n) b
/-- A dirty line, or the window's copy of a line, is poisoned at its home. -/
def Blk.poison (line : Nat) (b : Blk) : Blk :=
  let b := match b.copy 68 line with
    | some c =>
      let b := (b.dropCopy 68 line).delPresence line 68
      if c.defer.isSome then b.send (.invack 68 (lineNo line) none) else b
    | none => b
  match b.rcLine line with
  | some l => b.putRc line { l with dirty := true, poison := true }
  | none =>
    match b.makeRoom line (allocWays b (homeOf line) (.agent 68)) with
    | some (way, b) => b.putRc line { way := way, data := 0, dirty := true, poison := true, used := 0 }
    | none => b.notePoison line
/-- The save is discarded and its tile restarts. -/
def Blk.saveLost (x : Env) (e : Nat) (b : Blk) : Blk :=
  match (b.engine e).save with
  | none => b
  | some s =>
    if (b.engine e).restore then b.restartSaved x e s else
    ((b.modEng e fun v => { v with save := none }).modLaunch s.job fun l => { l with saved := l.saved.filter fun y => y.1 != e }).restartTile s.job s.tile
/-- The record that holds 16-byte unit k of a caddy, counted from its oldest record on. -/
def recordAt : Nat → List TraceRec → Option TraceRec
  | _, [] => none
  | k, r :: rest => if k < r.units then some r else recordAt (k - r.units) rest
/-- An error in a caddy drops the record it hits, and LOST notes it once there is room (17 R446; log 155). -/
def caddyHit (addr cap : Nat) (time : W64) (c : Caddy) : Caddy :=
  match recordAt (addr / 16) c.recs with
  | none => c
  | some r => ({ c with recs := c.recs.erase r, lost := satInc c.lost, dropped := satInc c.dropped } : Caddy).noteLost cap time
def Blk.eccEffect (x : Env) (code : Nat) (u : BitVec 12) (addr : Nat) (b : Blk) : Blk :=
  let e := u.toNat % 64
  match code with
  | 0 => b.modEng e fun v => { v with badLm := addNew v.badLm (addr % 12288) }
  | 1 => b.bankLost e (decide (1024 ≤ addr % 2048))
  | 2 => b.invalidate e addr
  | 3 => b.invalidate (64 + u.toNat % 4) addr
  | 4 => match b.rcLine addr with
    | some l => if l.dirty then b else b.setRc (PMap.del addr b.mem.rc)
    | none => b
  | 5 => b.poison addr
  | 6 => b.saveLost x e
  | 8 => b.knotEcc (addr % 65536)
  | 10 => (b.haltSeq x (u.toNat % 4) 2 (BitVec.ofNat 12 addr)).callRung 3 0 2
  | 11 => { b with flt := { b.flt with steepBad := some (addr % 262144 / 4 * 4) } }
  | 12 => if u.toNat < 64 then b.modEng e fun v => { v with trace := { v.trace with caddy := caddyHit addr engCap (engTime x) v.trace.caddy } }
          else { b with trc := { b.trc with caddy := caddyHit addr blkCap x.now b.trc.caddy } }
  | 13 => { b with flt := { b.flt with warden := .stopped } }
  | 14 => b.callRung 4 0 2
  | _ => b.callRung 3 0 2
def execEccUe (code : BitVec 4) (unit : BitVec 12) (addr : W64) (s : State) : Host.Outcome State Fault Refusal :=
  s.onWork fun x b =>
    if b.start.poresetLow || b.pwr.asleep then b else
    let c := code.toNat
    let b : Blk := { b with flt := { b.flt with eccUe := SMap.set 0 b.flt.eccUe c (satInc (SMap.get 0 b.flt.eccUe c)) } }
    (b.eccLog x 2 code unit addr).eccEffect x c unit addr.toNat

/-- A refused write-back: the line's dirty data is lost, and the refusal is logged. -/
def execWbRefused (p : Port) (line : LineNo) (resp : BitVec 2) (s : State) : Host.Outcome State Fault Refusal :=
  s.onMessage Blk.up (.wbRefused p line resp) fun x b =>
    b.log x { kind := 0x0E, code := BitVec.ofNat 8 resp.toNat, time := x.now, unit := BitVec.ofNat 12 (0x300 + p.val)
              detail := BitVec.ofNat 64 (64 * line.toNat) }

def execWardenStop (s : State) : Host.Outcome State Fault Refusal :=
  s.onBlk fun _ b => if b.flt.warden = .running && !b.pwr.asleep then { b with flt := { b.flt with warden := .stopped } } else b

end Sys2Proof.Machine
end

