-- ==== Sys2Proof/Machine/Power.lean ====
section
/-! DEFINITION. Power and clocks (15 R386 to R402, 13 R347 to R349): the budget, sleep and wake, droop. -/

namespace Sys2Proof.Machine

/-! ### Levels (R393) -/

def execLevelStep (s : State) : Host.Outcome State Fault Refusal :=
  s.onBlk fun x b => if b.up then b.levelStep x else b

/-! ### Sleep (R395) -/

/-- The caddies hold nothing that a ring would take. -/
def Blk.drainsIdle (b : Blk) : Bool :=
  (b.trc.rings.all fun r => r.2.out.isNone && (r.2.marks.isEmpty || !r.2.en)) &&
  (b.trc.caddy.recs.isEmpty || !(b.ring 16).en)
    && b.eng.all fun p => p.2.trace.caddy.recs.isEmpty
      || !(b.ring (if p.2.trace.owner = 0x1F then 16 else p.2.trace.owner.toNat)).en
def MPort.quiet (v : MPort) : Bool :=
  v.tags.isEmpty && v.stale.isEmpty && v.queue.isEmpty && v.wdQueue.isEmpty && v.reqCred == v.reqGrant && v.wdCred == v.wdGrant && v.lnk.store.isEmpty
/-- Conditions 1 to 7. -/
def Blk.sleepOk (b : Blk) : Bool :=
  let parked := fun (e : SbEntry) => e.prog == .hitch none && b.kn.waiters.any fun w => w.is false e.q e.n
  b.up && b.pwr.sleepDelay != 0 && !(b.wv.cur.parts.any (·.warm))
    && (b.qs.all fun p => p.2.head == p.2.tail && !p.2.wake)
    && b.sb.all parked && (b.stand.all fun s => s.waiting.isNone && s.running.isNone && s.recWait.isNone)
    && (b.eng.all fun p => p.2.job.isNone && p.2.deque.isEmpty && p.2.save.isNone && !p.2.restore && p.2.st != .saving)
    && (b.ik.all fun p => p.2.items.isEmpty && p.2.landing.isEmpty) && (b.host.seats.all fun p => p.2.outstanding == 0)
    && b.host.warden.isEmpty && b.flt.active.isEmpty && b.flt.deferred.isEmpty && b.dbg.tangle.st != .building && b.drainsIdle
    && b.trc.interval == 0 && b.dbg.belay == .running && !b.wv.st.busy
    && (range 4).all fun n => (b.port n).quiet
/-- Both requests fall; every engine stops. -/
def Blk.sleep (b : Blk) : Blk :=
  let b : Blk := { b with eng := b.eng.map fun p => (p.1, { p.2 with level := 0 }) }
  { b with pwr := { b.pwr with asleep := true, ariReq := false, ctlReq := false, sleepCount := satInc b.pwr.sleepCount
                               idleKeep := 0 } }
def execSleepEntry (s : State) : Host.Outcome State Fault Refusal :=
  s.onBlk fun _ b => if b.sleepOk && decide (b.pwr.sleepDelay.toNat ≤ b.pwr.idleKeep) then b.sleep else b

/-! ### The keep cycle and the window (R348, R349, R391, R394) -/

def budgetOf (v : W8) : Nat := max 4 (min 40 v.toNat)
/-- A slack engine at work is below level 16. -/
def Blk.pacedNow (b : Blk) : Bool := b.up && (range 64).any fun e => b.slackEngine e && b.working e && decide ((b.engine e).level < 16)
/-- What a control cycle adds to the keep cycle it lies in (R389, R395, R402). -/
def Blk.noteCycle (b : Blk) : Blk :=
  let b := b.addEst 1
  { b with pwr := { b.pwr with pacedIn := b.pwr.pacedIn || b.pacedNow, busyIn := b.pwr.busyIn || !b.sleepOk } }
/-- The average of the estimates of a keep cycle; with no control cycle in it, the estimate of now (R389; log 85). -/
def Blk.meanEst (b : Blk) : Nat := if b.pwr.estCnt = 0 then b.estimate else b.pwr.estSum / b.pwr.estCnt
/-- One keep cycle: the budget is sampled, adopted when two samples agree; ACT_EST becomes the average of the cycle's estimates; targets
are set. -/
def Blk.keepCycle (x : Env) (budget : W8) (b : Blk) : Blk :=
  let v := budgetOf budget
  let p := b.pwr
  let b : Blk := { b with pwr := { p with
    sample := v, adopted := if v = p.sample then v else p.adopted
    actEst := BitVec.ofNat 10 (min 1023 (b.meanEst / 4000)), estCnt := 0, estSum := 0
    paced := if p.pacedIn || b.pacedNow then satInc p.paced else p.paced, pacedIn := false
    idleKeep := if b.sleepOk && !p.busyIn then p.idleKeep + 1 else 0, busyIn := false
    window := p.window + 1 } }
  (if b.pwr.asleep then b else b.setTargets).noteUnder x
def execKeepCycle (budget : W8) (s : State) : Host.Outcome State Fault Refusal :=
  s.onBlk fun x b => if b.start.poresetLow then b else b.keepCycle x budget
/-- After 1,000 keep cycles the adopted budget comes into force, and the worst-case power is within it (R391, R394). -/
def Blk.windowEnds (x : Env) (b : Blk) : Blk :=
  let b : Blk := { b with pwr := { b.pwr with budget := b.pwr.adopted, window := b.pwr.window - 1000 } }
  (if b.pwr.asleep then b else b.setTargets.lowerToCap x 1024).noteUnder x
def execCapWindowBoundary (s : State) : Host.Outcome State Fault Refusal :=
  s.onBlk fun x b => if b.start.poresetLow || decide (b.pwr.window < 1000) then b else b.windowEnds x

/-! ### Droop (R398 to R401) -/

/-- Commands and runs that an edge of the stretch falls on (R400). -/
def Blk.markStretched (b : Blk) : Blk :=
  { b with
    qs := b.qs.map fun p => (p.1, { p.2 with stretchTo := max p.2.stretchTo p.2.tail })
    stand := b.stand.map fun s => if s.waiting.isSome || s.running.isSome then { s with stretched := true } else s }
/-- The divider passes every second edge; a stretch that was ramping back continues. -/
def Blk.stretch (x : Env) (b : Blk) : Blk :=
  match b.pwr.clock with
  | .stretch => b
  | .rampBack => { b with pwr := { b.pwr with clock := .stretch, divider := 16 } }
  | .full =>
    ({ b with pwr := { b.pwr with clock := .stretch, divider := 16, droopCount := satInc b.pwr.droopCount, evDroop := true
                                  droopTime := x.now } } : Blk).markStretched
def execDroopWarn (s : State) : Host.Outcome State Fault Refusal :=
  s.onBlk fun x b =>
    if b.start.poresetLow || b.start.sysLow then b else
    let b : Blk := { b with pwr := { b.pwr with droopPin := true } }
    if b.pwr.asleep then b else b.stretch x
def execRampBackStart (s : State) : Host.Outcome State Fault Refusal :=
  s.onBlk fun _ b =>
    if b.start.poresetLow || b.start.sysLow then b else
    let b : Blk := { b with pwr := { b.pwr with droopPin := false } }
    if b.pwr.clock = .stretch then { b with pwr := { b.pwr with clock := .rampBack } } else b
/-- The divider again passes every edge. -/
def Blk.stretchOver (x : Env) (b : Blk) : Blk :=
  let ns := (x.now - b.pwr.droopTime).toNat
  let b : Blk := { b with pwr := { b.pwr with clock := .full, divider := 32, droopNs := BitVec.ofNat 32 ns } }
  b.markStretched.log x { kind := 0x0F, time := x.now, detail := BitVec.ofNat 64 ns }
def execRampBackStep (s : State) : Host.Outcome State Fault Refusal :=
  s.onBlk fun x b =>
    if b.pwr.clock ≠ .rampBack || b.pwr.asleep || b.start.poresetLow then b
    else if 31 ≤ b.pwr.divider then b.stretchOver x
    else { b with pwr := { b.pwr with divider := b.pwr.divider + 1 } }

/-! ### Wake and the clock handshakes (R340, R396) -/

/-- Both requests rise, each once its acknowledgement is low. -/
def Blk.raiseReqs (b : Blk) : Blk :=
  { b with pwr := { b.pwr with ariReq := b.pwr.ariReq || !b.pwr.ariAck, ctlReq := b.pwr.ctlReq || !b.pwr.ctlAck } }
def Blk.wake (x : Env) (b : Blk) : Blk :=
  if !b.pwr.asleep || b.pwr.wakeFrom.isSome then b else
  ({ b with pwr := { b.pwr with wakeFrom := some x.now } } : Blk).raiseReqs
/-- A cause of R396 wakes a sleeping block, a BELAY_IN edge whether or not it is a belay cause. -/
def execWake (_ : WakeCause) (s : State) : Host.Outcome State Fault Refusal :=
  s.onBlk fun x b => if b.start.poresetLow || b.start.sysLow then b else b.wake x
/-- An acknowledgement changes as the handshake lets it: up only with its request, down only without. -/
def Blk.ackChange (ctl level : Bool) (b : Blk) : Blk :=
  let req := if ctl then b.pwr.ctlReq else b.pwr.ariReq
  if req ≠ level then b else
  if ctl then { b with pwr := { b.pwr with ctlAck := level } } else { b with pwr := { b.pwr with ariAck := level } }
def Power.clocked (p : Power) : Bool := p.ariReq && p.ctlReq && p.ariAck && p.ctlAck
/-- A waking block has its clocks again: a droop still warned of begins its stretch. -/
def Blk.awake (x : Env) (b : Blk) : Blk :=
  match b.pwr.wakeFrom with
  | none => b
  | some t =>
    if !b.pwr.clocked then b else
    let b : Blk := { b with pwr := { b.pwr with asleep := false, wakeFrom := none, wakeNs := BitVec.ofNat 32 (x.now - t).toNat } }
    let b := b.setTargets
    if b.pwr.droopPin then b.stretch x else b

end Sys2Proof.Machine
end

