-- ==== Sys2Proof/Machine/Debug.lean ====
section
/-! DEFINITION. Belay, breaks, triggers, snapshot, counters and trace drain (17_debug_trace_counters), but for the commands
that release host accesses held by a belay. -/

namespace Sys2Proof.Machine

/-! ### Entering and leaving a belay (R427 to R430) -/

def Debug.addCause (d : Debug) (c : Nat) : Debug := { d with cause := d.cause ||| BitVec.twoPow 5 c }
/-- Before P a pour is given up. -/
def Blk.pourBeforeP (b : Blk) : Bool :=
  b.wv.st == .checking || b.wv.st == .waiting || (b.wv.st == .pouring && b.wv.next.isSome)
/-- Edge b: a cause (bit of CAUSE) takes effect. -/
def Blk.belayBegins (x : Env) (causes : BitVec 5) (b : Blk) : Blk :=
  let b : Blk := { b with dbg := { b.dbg with belay := .stopping, cause := causes, relHeld := false, belayTime := x.now
                                              event := b.dbg.event ||| 1 } }
  let b := if b.pourBeforeP then b.wvAbandon else b
  b.traceEvent x 0x12 [BitVec.ofNat 32 causes.toNat]
/-- A cause: held during a start or in sleep, else it enters a belay, or only marks its bit (R427, R430). -/
def Blk.belayCause (x : Env) (c : Nat) (b : Blk) : Blk :=
  if !b.start.done || b.pwr.asleep then
    { b with start := { b.start with heldBelay := b.start.heldBelay ||| BitVec.twoPow 5 c } }
  else if b.dbg.belay ≠ .running then { b with dbg := b.dbg.addCause c }
  else b.belayBegins x (BitVec.twoPow 5 c)
/-- A cause that was held takes effect. -/
def Blk.belayHeld (x : Env) (b : Blk) : Blk :=
  let c := b.start.heldBelay
  if c = 0 then b else ({ b with start := { b.start with heldBelay := 0 } } : Blk).belayBegins x c
/-- A rising edge of BELAY_IN is a belay cause where BELAY_IN_EN is 1; it wakes a sleeping block in any case (15 R396). -/
def execBelayIn (s : State) : Host.Outcome State Fault Refusal :=
  s.onBlk fun x b =>
    if b.start.poresetLow || b.start.sysLow then b else (if b.dbg.belayInEn then b.belayCause x 1 else b).wake x
def execBelayEnter (a : Acc) (s : State) : Host.Outcome State Fault Refusal :=
  s.writeRow a 0xA004 1 (onSteward · a) fun x b => b.belayCause x 0

/-- Queues and sequencers take up what waited: records to write, slots to read, commands to start. -/
def Blk.resumeQueues (x : Env) (p : Nat → Bool) (b : Blk) : Blk :=
  let qs := (b.qs.map (·.1)).filter p
  let b := qs.foldl (fun b q => b.pumpSr q) b
  let b := (b.stand.filter fun s => p s.q).foldl (fun b s => b.sendRunRec s.q s.n) b
  ((range 4).foldl (fun b s => if p s then b.kick s else b) b).pump x
/-- The release edge: every unit goes on; LAST of every engine is this edge. Host accesses that waited follow. -/
def Blk.releaseBelay (x : Env) (b : Blk) : Blk :=
  let b : Blk := { b with dbg := { b.dbg with belay := .running, relHeld := false }
                          eng := b.eng.map fun p => (p.1, { p.2 with last := x.now }) }
  let b := b.traceEvent x 0x12 [BitVec.ofNat 32 (b.dbg.cause.toNat + 256)]
  let b := (b.engIds fun _ v => v.job.isSome).foldl (fun b e => b.resumeDraws e) b
  let b := ((b.qs.filter fun p => p.2.closeDue).map (·.1)).foldl (fun b q => b.closeSteps q) b
  let b := b.stand.foldl (fun b s => b.runAcked s.q s.n) b
  b.resumeQueues x fun _ => true
/-- RELEASE: at once from STOPPED, held in STOPPING. -/
def Blk.belayRelease (x : Env) (b : Blk) : Blk :=
  match b.dbg.belay with
  | .running => b
  | .stopping => { b with dbg := { b.dbg with relHeld := true } }
  | .stopped => b.releaseBelay x
/-- Requests that no home has accepted wait at their sources; every other ring message must have arrived. -/
def ringIdle (m : Instr) : Bool :=
  match m with
  | .rds _ _ | .rdonce _ _ | .rdm _ | .wr _ _ _ _ | .atom _ _ => true
  | _ => false
def Blk.belayStops (x : Env) (b : Blk) : Blk :=
  if b.dbg.belay ≠ .stopping || !b.mem.ring.all ringIdle then b else
  let b : Blk := { b with dbg := { b.dbg with belay := .stopped } }
  if b.dbg.relHeld then b.releaseBelay x else b

/-! ### Breaks (R433 to R437) -/

/-- Order of actions: BELAY, SEQ_BREAK_ALL, SEQ_BREAK, HOLD, IRQ. -/
def firstAction (l : List (BitVec 3)) : Nat := ((l.map BitVec.toNat).max?).getD 0
def Blk.pendBreak (s : Nat) (b : Blk) : Blk :=
  let v := b.seq s
  b.setSeq s { v with pend := if v.pend.contains 5 then v.pend else v.pend ++ [5] }
/-- Unit u holds its queue; the sequencer leaves it. -/
def Blk.holdQueue (u q : Nat) (b : Blk) : Blk :=
  let s := seqOf q
  let b := b.setQue q { b.que q with held := addNew (b.que q).held u }
  let v := b.seq s
  if v.serving && v.queue == q && v.st == .running then (b.setSeq s { v with serving := false, st := .idle }).kick s else b
/-- One record per unit. A seat's unit has no number in UNIT: the field is a free value (log 9). -/
def Blk.breakRecord (x : Env) (u act q n : Nat) (b : Blk) : Blk :=
  let fr : Nat × Blk := if u < 8 then (u, b) else
    let y := b.drawFree
    (y.1.toNat % 16, y.2)
  fr.2.traceEvent x 0x13 [BitVec.ofNat 32 (fr.1 + 16 * act), BitVec.ofNat 32 q, BitVec.ofNat 32 n]
def Blk.unitFires (x : Env) (act q n : Nat) (u : Nat) (b : Blk) : Blk :=
  let v := b.breakUnit u
  let b := b.setBreakUnit u { v with hit := true, arm := v.arm && !v.once }
  let w := b.seq (seqOf q)
  let b := if v.kind then b else b.setSeq (seqOf q) { w with fired := w.fired ++ [(q, n, u)] }
  let b := b.breakRecord x u act q n
  if v.action = 1 then b.holdQueue u q else b
/-- The units that match fire together, and the block takes the first of their actions. -/
def Blk.unitsFire (x : Env) (us : List Nat) (q n : Nat) (b : Blk) : Blk :=
  if us.isEmpty then b else
  let act := firstAction (us.map fun u => (b.breakUnit u).action)
  let steward := us.any fun u => decide (u < 8)
  let b := us.foldl (fun b u => b.unitFires x act q n u) b
  match act with
  | 0 => if steward then { b with dbg := { b.dbg with event := b.dbg.event ||| 2 } } else b
  | 2 => b.pendBreak (seqOf q)
  | 3 => (range 4).foldl (fun b s => b.pendBreak s) b
  | 4 => b.belayCause x 2
  | _ => b
def Blk.breakFires (x : Env) (ev : BrkEvent) (b : Blk) : Blk :=
  match ev with
  | .count q n =>
    let h := (b.que q).head
    if BitVec.ofNat 32 h ≠ n || (b.heldLine q h).isNone then b else
    b.unitsFire x (b.countUnits q h) q h
  | .tag q n v =>
    match b.dbg.tags.find? fun t => t.1 == q.val && BitVec.ofNat 32 t.2.1 == n && t.2.2 == v with
    | none => b
    | some t =>
      let b : Blk := { b with dbg := { b.dbg with tags := b.dbg.tags.erase t } }
      b.unitsFire x (b.tagUnits q v) q t.2.1
def execBreakUnitFire (ev : BrkEvent) (s : State) : Host.Outcome State Fault Refusal :=
  s.onWork fun x b => if b.running then b.breakFires x ev else b

/-- The hold made by unit u ends. -/
def Blk.unholdUnit (x : Env) (u : Nat) (b : Blk) : Blk :=
  let qs := (b.qs.filter fun p => p.2.held.contains u).map (·.1)
  let b := qs.foldl (fun b q => b.setQue q { b.que q with held := (b.que q).held.erase u }) b
  (qs.foldl (fun b q => b.kick (seqOf q)) b).pump x
/-- DBG_BRK_CTRL as it reads. -/
def BreakUnit.word (v : BreakUnit) : W32 :=
  BitVec.ofNat 32 (b2n v.arm + 2 * b2n v.kind + 4 * v.action.toNat + 32 * b2n v.hit + 64 * b2n v.once + 65536 * v.queue.toNat)
/-- A write of DBG_BRK_CTRL; `most` is the last ACTION the unit takes. -/
def Blk.writeBreak (x : Env) (u most : Nat) (d : W32) (b : Blk) : Blk :=
  let v := b.breakUnit u
  let act := fld d 2 3
  let q := fld d 16 14
  let anyQ := q == 0x3FFF && bit d 1
  let b := b.setBreakUnit u { v with
    arm := bit d 0, kind := bit d 1, action := if act ≤ most then BitVec.ofNat 3 act else v.action
    hit := v.hit && !bit d 5, once := bit d 6
    queue := if q < 1024 || anyQ then BitVec.ofNat 14 q else v.queue }
  let b := b.unfire u
  if bit d 7 then b.unholdUnit x u else b
/-- The write of UNHOLD leaves the unit's other fields as they stand. -/
def unholdWord (b : Blk) (u : Nat) : W32 := BitVec.ofNat 32 (({ b.breakUnit u with hit := false } : BreakUnit).word.toNat + 128)
def brkAddr (u : Nat) : Nat := 0xA100 + 16 * u
def execUnhold (a : Acc) (u : Fin 8) (s : State) : Host.Outcome State Fault Refusal :=
  s.writeRow a (brkAddr u) (unholdWord s.blk u) (onSteward · a) fun x b => b.unholdUnit x u

/-- RESUME or STEP of a sequencer in BREAK: it goes on through the TRET at 0xFF5. -/
def Blk.resumeSeq (x : Env) (stepping : Bool) (s : Nat) (b : Blk) : Blk :=
  let v := b.seq s
  if v.st ≠ .broke then b else
  let b := b.setSeq s { v with st := .trapped, sptr := 0xFF5, stepping := stepping }
  b.resumeQueues x fun q => seqOf q == s
def Blk.seqCtrl (x : Env) (resume step : BitVec 4) (b : Blk) : Blk :=
  (range 4).foldl (fun b s =>
    if resume.getLsbD s then b.resumeSeq x false s else if step.getLsbD s then b.resumeSeq x true s else b) b
def execResume (a : Acc) (which : BitVec 4) (s : State) : Host.Outcome State Fault Refusal :=
  s.writeRow a 0xA018 (BitVec.ofNat 32 which.toNat) (onSteward · a) fun x b => b.seqCtrl x which 0
def execStep (a : Acc) (which : BitVec 4) (s : State) : Host.Outcome State Fault Refusal :=
  s.writeRow a 0xA018 (BitVec.ofNat 32 (16 * which.toNat)) (onSteward · a) fun x b => b.seqCtrl x 0 which

/-- A seat asks the steward for a belay (R436). -/
def Blk.requestBelay (s : Nat) (b : Blk) : Blk :=
  if (b.seat s).expert.getLsbD 3 then
    { b with dbg := { b.dbg with seatReq := b.dbg.seatReq ||| BitVec.twoPow 16 s, event := b.dbg.event ||| 4 } } else b
def execSeatBelayRequest (a : Acc) (s : State) : Host.Outcome State Fault Refusal :=
  s.writeRow a (seatAddr a.seat 0x940) 1 (fun _ _ => none) fun _ b => b.requestBelay a.seat

/-! ### Counters (R441 to R444) -/

/-- Arguments of each block event. -/
def blkArgOk (ev arg : Nat) : Bool :=
  if ev = 0 then arg == 0
  else if ev = 1 || ev = 8 || ev = 9 || ev = 0x0B || ev = 0x17 || ev = 0x18 then arg == 0
  else if 2 ≤ ev && ev ≤ 4 then decide (arg < 16) || arg == 63
  else if ev = 5 then decide (arg < 2)
  else if ev = 6 || ev = 7 then decide (arg < 16)
  else if ev = 0x0A then decide (arg < 4) || arg == 63
  else if 0x0C ≤ ev && ev ≤ 0x12 then decide (arg < 4)
  else if ev = 0x13 || ev = 0x16 then decide (arg < 5)
  else if ev = 0x14 || ev = 0x15 then decide (arg < 8)
  else ev == 0x19 && decide (arg < 4)
def Blk.tally (b : Blk) (key : Nat) : Nat := SMap.get 0 b.trc.tally key
def Blk.blkSel (b : Blk) (i : Nat) : Nat := (SMap.get 0 b.trc.sel i).toNat
def Blk.engSel (b : Blk) (e i : Nat) : Nat := (SMap.get 0 (b.engine e).trace.sel i).toNat
def selKey (sel : Nat) : Nat := evBlk (sel % 256) (sel / 256)
/-- Value of block counter i, of counter i of engine e; a counter that selects 0x00 counts nothing. -/
def Blk.blkCounter (b : Blk) (i : Nat) : W64 :=
  if b.blkSel i % 256 = 0 then 0 else BitVec.ofNat 64 (b.tally (selKey (b.blkSel i)) - SMap.get 0 b.trc.base i)
def Blk.engCounter (b : Blk) (e i : Nat) : W64 :=
  if b.engSel e i = 0 then 0 else BitVec.ofNat 64 (b.tally (evEng e (b.engSel e i)) - SMap.get 0 (b.engine e).trace.base i)
/-- A write of a select register sets the event and zeroes the counter, unless event or argument is reserved. -/
def Blk.selectBlk (i : Nat) (d : W32) (b : Blk) : Blk :=
  let ev := fld d 0 8
  let arg := fld d 8 6
  if !blkArgOk ev arg then b else
  { b with trc := { b.trc with sel := SMap.set 0 b.trc.sel i (BitVec.ofNat 14 (fld d 0 14))
                               base := SMap.set 0 b.trc.base i (b.tally (evBlk ev arg)) } }
def Blk.selectEng (e i : Nat) (d : W32) (b : Blk) : Blk :=
  let ev := fld d 0 8
  if 0x1E ≤ ev then b else
  let base := b.tally (evEng e ev)
  b.modEng e fun v => { v with trace := { v.trace with sel := SMap.set 0 v.trace.sel i (BitVec.ofNat 8 ev)
                                                       base := SMap.set 0 v.trace.base i base } }
def trcEngAddr (e off : Nat) : Nat := 0x24000 + 0x300 * e + off
/-- A row of TRC_BLK_SEL or TRC_ENG_SEL; the engine's is an expert field, whose feature must be confirmed (R316). -/
def execCounterSelect (a : Acc) (eng : Option EngineId) (idx : W8) (d : W32) (s : State) : Host.Outcome State Fault Refusal :=
  match eng with
  | none => s.writeRow a (0xB000 + 4 * idx.toNat) d (onSteward · a) fun _ b => b.selectBlk idx.toNat d
  | some e => s.writeRow a (trcEngAddr e (4 * (idx.toNat % 64))) d (onSteward · a) fun _ b =>
      if b.feat.confirmed.getLsbD 3 then b.selectEng e (idx.toNat % 64) d else b

def wordsOf (v : W64) : List W32 := [BitVec.ofNat 32 v.toNat, BitVec.ofNat 32 (v.toNat / 2 ^ 32)]
def maskWords (n : Nat) (is : List Nat) : List W32 :=
  let m := is.foldl (fun m i => m + 2 ^ i) 0
  (range n).map fun k => BitVec.ofNat 32 (m / 2 ^ (32 * k))
def Blk.blkSample (b : Blk) : List W32 :=
  let is := (range 256).filter fun i => b.blkSel i % 256 != 0
  maskWords 8 is ++ is.flatMap fun i => wordsOf (b.blkCounter i)
def Blk.engSample (b : Blk) (e : Nat) : List W32 :=
  let is := (range 64).filter fun i => b.engSel e i != 0
  maskWords 2 is ++ is.flatMap fun i => wordsOf (b.engCounter e i)
/-- A sample; every record of it carries the same TIME. -/
def Blk.sample (x : Env) (b : Blk) : Blk :=
  let b := if b.trc.ctl.getLsbD 1 then b.traceBlk x 0x11 b.blkSample else b
  ((range 64).filter fun e => (b.engine e).trace.ctl.getLsbD 2 && decide (0 < (b.engine e).level)).foldl (fun b e =>
    let body := b.engSample e
    b.modEng e fun v => { v with trace := { v.trace with caddy := v.trace.caddy.offer engCap 0x03 x.now body } }) b
def execCounterSample (s : State) : Host.Outcome State Fault Refusal :=
  s.onBlk fun x b => if b.running && b.trc.interval != 0 then b.sample x else b

def Trigger.value (b : Blk) (t : Trigger) : W64 := if t.src then b.engCounter t.engine.toNat t.index.toNat else b.blkCounter t.index.toNat
/-- A counter trigger fires. QUEUE and command index of its record have no meaning and are free values (log 9). -/
def Blk.trigger (x : Env) (u : Nat) (b : Blk) : Blk :=
  let t : Trigger := SMap.get {} b.dbg.trigs u
  if !t.arm || decide ((t.value b).toNat < t.thr.toNat) then b else
  let b : Blk := { b with dbg := { b.dbg with trigs := SMap.set {} b.dbg.trigs u { t with hit := true, arm := false } } }
  let y := b.drawFree
  let b := y.2.traceEvent x 0x13 [BitVec.ofNat 32 (8 + u + 16 * (if t.action then 4 else 0)), BitVec.ofNat 32 (y.1.toNat % 16384),
    BitVec.ofNat 32 (y.1.toNat / 2 ^ 32)]
  if t.action then b.belayCause x 3 else { b with dbg := { b.dbg with event := b.dbg.event ||| 8 } }
/-- A trigger fires; before DONE of a start its BELAY cause is held (18 R455). -/
def execTriggerFire (u : Fin 8) (s : State) : Host.Outcome State Fault Refusal :=
  s.onBlk fun x b => if b.start.poresetLow || b.start.sysLow || b.pwr.asleep then b else b.trigger x u

/-! ### Snapshot (R438) -/

def QState.code : QState → Nat
  | .free => 0
  | .opened => 1
  | .draining => 2
  | .closing => 3
/-- PAUSE: the sequencer first, then fence, waiter, scoreboard. -/
def Blk.pauseCode (b : Blk) (q : Nat) : Nat :=
  let u := b.que q
  let s := (b.seq (seqOf q)).st
  if u.st = .free then 0
  else if s = .broke || s = .halted then 4
  else if u.fence.isSome then 3
  else if b.waitPaused q then 2
  else if u.head != u.tail && !b.sbAvail q then 1 else 0
def Blk.parkedHitch (b : Blk) (q : Nat) : Option SbEntry :=
  let ps := (b.kn.waiters.filter fun w => !w.stand && w.q == q).filterMap fun w => b.entry w.q w.n
  (orderBy (fun e => (e.n, 0, 0)) ps).head?
def Blk.snapQ (b : Blk) (q : Nat) : SnapQ :=
  let u := b.que q
  let used := b.sb.countP fun e => e.q == q
  let q0 := u.st.code + 8 * b2n u.idle + 16 * b2n (!u.held.isEmpty) + 32 * b.pauseCode q + 256 * used
  let h : Nat × Nat := match b.parkedHitch q with
    | none => (0, 0)
    | some e => (Slot.knot4 e.slot + 2 ^ 20 + 2 ^ 21 * b2n (Slot.flag16 e.slot) + 2 ^ 22 * fAt e.slot 4 24 4, Slot.q64 e.slot 8)
  { words := [q0, u.head, u.tail, u.comp, h.1, h.2].map (BitVec.ofNat 32), owner := b.wv.cur.owner q }
def Blk.capture (x : Env) (b : Blk) : Blk :=
  let pool := poolFree b.wv.cur 2048 (·.sbReserve) b.sbUse + 65536 * poolFree b.wv.cur 8192 (·.waitReserve) b.waitUse
  { b with dbg := { b.dbg with snap := { b.dbg.snap with valid := true, time := x.now, qs := b.qs.map fun p => (p.1, b.snapQ p.1)
                                                         pool := BitVec.ofNat 32 pool } } }
def execCapture (a : Acc) (s : State) : Host.Outcome State Fault Refusal :=
  s.writeRow a 0xA300 1 (onSteward · a) fun x b => b.capture x

/-! ### Words written to SoC memory -/

/-- Words from byte count x of a ring on, as writes to SoC memory. -/
def ringWrites (base size : Nat) : Nat → List W32 → List (Nat × W32)
  | _, [] => []
  | x, w :: r => (base + x % size, w) :: ringWrites base size (x + 4) r
def joinWrites : List (Nat × W32) → List (Nat × Nat × Nat)
  | [] => []
  | (a, w) :: r =>
    let d := w.toNat * 2 ^ (8 * (a % 64))
    let m := 15 * 2 ^ (a % 64)
    match joinWrites r with
    | [] => [(a / 64, d, m)]
    | (l, d', m') :: t => if l = a / 64 then (l, d + d', m + m') :: t else (a / 64, d, m) :: (l, d', m') :: t

/-! ### The tangle graph (R439, R440) -/

/-- A node: KIND, number, command index. -/
abbrev TNode := Nat × Nat × Nat
/-- An edge as the graph writes it (FROM, TO), its KIND and value. -/
structure TEdge where
  src  : TNode
  dst  : TNode
  kind : Nat
  val  : W64
  deriving DecidableEq, Repr

def ndCmd (q n : Nat) : TNode := (0, q, n)
def ndKnot (k : Nat) : TNode := (1, k, 0)
def ndEng (e : Nat) : TNode := (2, e, 0)
/-- Ties that a command makes when it completes, and a TIE's own. -/
def tiesOf (e : SbEntry) : List (Nat × W64) :=
  let one := fun (ok : Bool) (t : W64) => if ok && tieOpc t != 0 then [(tieKnot t, tieVal t)] else []
  one e.okA (Slot.tieA e.slot) ++ one e.okB (Slot.tieB e.slot)
    ++ (if e.opcode = opTIE && e.code == 0 then [((tieOf e).knot, (tieOf e).val)] else [])
/-- State of a LAUNCH whose order lets it start: 4 with every tile placed, 2 while no engine of it has a bank READY with its program and
its window clear of streams (R187, R198), else 3. -/
def Blk.launchState (b : Blk) (e : SbEntry) (l : Launch) : Nat :=
  let toGo := match l.twin with
    | none => decide (0 < l.toPlace)
    | some t => t.restWaits
  if !toGo then 4 else if (b.targetsOf e).any (b.readyFor l) then 3 else 2
/-- Edges of a scoreboard command: the knot it is parked on, the commands it waits for, the engines it waits for. -/
def Blk.cmdEdges (b : Blk) (e : SbEntry) : List TEdge :=
  let me := ndCmd e.q e.n
  let parked := b.kn.waiters.any fun w => w.is false e.q e.n
  let waits := if parked then [{ src := me, dst := ndKnot (Slot.knot4 e.slot), kind := 0, val := BitVec.ofNat 64 (Slot.q64 e.slot 8) }] else []
  let low := if e.started || b.canStart e then [] else
    (b.lower e.q e.n).filter fun f => f.opcode == opHITCH || f.opcode == opMEMBAR || e.serial || e.opcode == opMEMBAR
  let order := low.map fun f => ({ src := me, dst := ndCmd f.q f.n, kind := 2, val := 0 } : TEdge)
  let engs := match e.prog with
    | .launch l => if (e.started || b.canStart e) && b.launchState e l == 3 then b.targetsOf e else []
    | _ => if (e.opcode = opIMEM || e.opcode = opWS) && !e.started then loadTargets b e.q e.slot else []
  waits ++ order ++ engs.map (fun t => { src := me, dst := ndEng t, kind := 3, val := 0 })
    ++ (tiesOf e).map fun t => { src := me, dst := ndKnot t.1, kind := 1, val := t.2 }
def Blk.tangleEdges (b : Blk) : List TEdge :=
  let stands := b.stand.flatMap fun s =>
    (if s.bound && !s.never && s.running.isNone && s.waiting.isNone then
      [({ src := ndCmd s.q s.n, dst := ndKnot s.trigger, kind := 0, val := s.thr } : TEdge)] else [])
      ++ (if tieOpc s.tieB = 0 then [] else [{ src := ndCmd s.q s.n, dst := ndKnot (tieKnot s.tieB), kind := 1, val := tieVal s.tieB }])
  let held := (range 64).filterMap fun e => (b.engine e).job.map fun j =>
    ({ src := ndEng e, dst := ndCmd j.q j.n, kind := 4, val := 0 } : TEdge)
  let ports := b.wv.cur.intakes.map fun r => ({ src := (3, r.port, 0), dst := ndKnot r.knot, kind := 1, val := 1 } : TEdge)
  let cmds := b.sb.flatMap b.cmdEdges
  let es := cmds ++ stands ++ held ++ ports
  let tied := ((cmds ++ ports).filter fun t => t.kind == 1).map (·.dst)
  let knots := ((es.filter fun t => t.kind ≤ 1).map (·.dst)).eraseDups
  es ++ (knots.filter fun k => !tied.contains k).filterMap fun k =>
    (b.wv.cur.knotOwner k.2.1).map fun s => { src := (4, s, 0), dst := k, kind := 1, val := 0 }
/-- What a node depends on: along every edge, but from a knot to its producers. -/
def depends (es : List TEdge) (n : TNode) : List TNode :=
  es.filterMap fun t => if t.kind = 1 then (if t.dst = n then some t.src else none) else if t.src = n then some t.dst else none
def reach (es : List TEdge) : Nat → List TNode → List TNode → List TNode
  | 0, seen, _ => seen
  | _ + 1, seen, [] => seen
  | k + 1, seen, n :: rest =>
    let new := ((depends es n).filter fun m => !seen.contains m).eraseDups
    reach es k (seen ++ new) (rest ++ new)
def onCycle (es : List TEdge) (n : TNode) : Bool :=
  let ds := depends es n
  (reach es (2 * es.length + 2) ds ds).contains n
def Blk.nodeWords (b : Blk) (es : List TEdge) (roots : List TNode) (n : TNode) : List W32 :=
  let cmd := if n.1 = 0 then b.entry n.2.1 n.2.2 else none
  let op := match cmd with
    | some e => e.opcode.toNat
    | none => if n.1 = 0 then opSTAND.toNat else 0
  let state := match cmd with
    | some e =>
      if b.kn.waiters.any fun w => w.is false e.q e.n then 0
      else if !e.started && !b.canStart e then 1
      else match e.prog with
        | .launch l => b.launchState e l
        | _ => if e.started then 4 else 2
    | none => if (b.findStand n.2.1 n.2.2).any fun s => s.running.isSome then 4 else if (b.findStand n.2.1 n.2.2).any fun s => s.waiting.isSome then 3 else 0
  let k := b.knot n.2.1
  let w0 := n.1 + 16 * b2n (onCycle es n) + 32 * b2n (roots.contains n) + 256 * op
  let w2 := if n.1 = 0 then n.2.2 else if n.1 = 1 then k.val.toNat else 0
  let w3 := if n.1 = 0 then state else if n.1 = 1 then k.flags.toNat else 0
  [w0, n.2.1, w2, w3].map (BitVec.ofNat 32)
def tangleMax : Nat := 20000
/-- The graph as the words written to BASE; what SIZE does not hold is left out. -/
def Blk.tangleGraph (x : Env) (all : Bool) (size : Nat) (b : Blk) : List W32 :=
  let es := b.tangleEdges
  let roots := (b.sb.filter fun e => all || b.wv.cur.queueTaut e.q).map fun e => ndCmd e.q e.n
  let nodes := reach es tangleMax roots roots
  let es := es.filter fun t => nodes.contains t.src && nodes.contains t.dst
  let room := (size - 64) / 16
  let ns := nodes.take room
  let fit := (es.filter fun t => ns.contains t.src && ns.contains t.dst).take (room - ns.length)
  let trunc := decide (ns.length < nodes.length) || decide (fit.length < es.length)
  let cyc := nodes.any fun n => onCycle es n
  let ix := fun (n : TNode) => (ns.zipIdx.find? fun y => y.1 == n).map (·.2) |>.getD 0
  [BitVec.ofNat 32 0x4B544E47, b.wv.epoch] ++ wordsOf x.now
    ++ [BitVec.ofNat 32 ns.length, BitVec.ofNat 32 fit.length, BitVec.ofNat 32 (b2n trunc + 2 * b2n cyc)] ++ List.replicate 9 0
    ++ ns.flatMap (fun n => b.nodeWords es roots n)
    ++ fit.flatMap fun t => [BitVec.ofNat 32 (ix t.src + 65536 * ix t.dst), BitVec.ofNat 32 t.kind] ++ wordsOf t.val
/-- The graph is written to BASE, a line at a time. -/
def Blk.writeGraph (t : Tangle) (b : Blk) : Blk :=
  let ws := joinWrites (t.graph.zipIdx.map fun y => (t.base.toNat + 4 * y.2, y.1))
  let b : Blk := { b with dbg := { b.dbg with tangle := { t with want := ws.length, bad := false } } }
  ws.foldl (fun b y => b.send (.wr .tangle (lineNo y.1) (BitVec.ofNat 512 y.2.1) (BitVec.ofNat 64 y.2.2))) b
/-- GO: the warden core takes the tables on one edge. -/
def Blk.tangleGo (x : Env) (b : Blk) : Blk :=
  let t := b.dbg.tangle
  if t.st = .building then b
  else if b.flt.warden ≠ .running || t.base.toNat % 64 != 0 || decide (t.size.toNat < 64) then
    { b with dbg := { b.dbg with tangle := { t with st := .failed } } }
  else b.writeGraph { t with st := .building, graph := b.tangleGraph x t.all t.size.toNat }
def Blk.tangleCtrl (x : Env) (go all : Bool) (b : Blk) : Blk :=
  let b : Blk := { b with dbg := { b.dbg with tangle := { b.dbg.tangle with all := all } } }
  if go then b.tangleGo x else b
def execGo (a : Acc) (all : Bool) (s : State) : Host.Outcome State Fault Refusal :=
  s.writeRow a 0xA40C (BitVec.ofNat 32 (1 + 2 * b2n all)) (onSteward · a) fun x b => b.tangleCtrl x true all
/-- The graph's writes have all been acknowledged, or the warden core has stopped. -/
def execTangleDone (s : State) : Host.Outcome State Fault Refusal :=
  s.onBlk fun _ b =>
    let t := b.dbg.tangle
    if t.st ≠ .building || (t.want != 0 && b.flt.warden == .running) then b else
    let st : TangleSt := if !t.bad && b.flt.warden == .running then .done else .failed
    { b with dbg := { b.dbg with tangle := { t with st := st } } }

/-! ### Trace drain and claims (R447, R448) -/

/-- A record as the 32-bit words of its 16-byte units (R445). -/
def TraceRec.words (r : TraceRec) (src : Nat) : List W32 :=
  let body := r.body ++ List.replicate ((4 - r.body.length % 4) % 4) 0
  [BitVec.ofNat 32 (r.kind.toNat + 256 * r.units + 65536 * src), r.seq] ++ wordsOf r.time ++ body
/-- The lines that n words take in a ring from WR on. -/
def TraceRing.writes (v : TraceRing) (words : List W32) : List (Nat × Nat × Nat) :=
  joinWrites (ringWrites v.base.toNat v.size.toNat v.wr.toNat words)
def TraceRing.room (v : TraceRing) (n : Nat) : Bool :=
  v.size != 0 && (v.wrap || decide ((v.wr - v.rd).toNat + n ≤ v.size.toNat))
def caddyEng : CaddyId → Option Nat
  | .engine e => some e.val
  | .block => none
def Blk.caddyOf (b : Blk) (c : Option Nat) : Caddy :=
  match c with
  | some e => (b.engine e).trace.caddy
  | none => b.trc.caddy
def Blk.setCaddy (c : Option Nat) (v : Caddy) (b : Blk) : Blk :=
  match c with
  | some e => b.modEng e fun w =>
      let t := { w.trace with caddy := v }
      { w with trace := if v.recs.isEmpty then
          (match t.claim with
           | some s => { t with claim := none, owner := BitVec.ofNat 5 s }
           | none => t) else t }
  | none => { b with trc := { b.trc with caddy := v } }
def Blk.ringOf (b : Blk) (c : Option Nat) : Nat :=
  match c with
  | some e => if (b.engine e).trace.owner = 0x1F then 16 else (b.engine e).trace.owner.toNat
  | none => 16
/-- Caddies that drain to a ring, the block's first. -/
def Blk.caddiesOf (b : Blk) (ring : Nat) : List (Option Nat) :=
  (none :: (b.engIds fun _ v => !v.trace.caddy.recs.isEmpty).map some).filter fun c => b.ringOf c == ring
/-- The record a ring takes next: a MARK copy that waits, else the oldest of a caddy. -/
def Blk.nextDrain (b : Blk) (ring : Nat) : Option Drain :=
  let v := b.ring ring
  if !v.en || v.out.isSome then none else
  let mk := fun (src : Option Nat) (copy : Bool) (r : TraceRec) =>
    let ws := r.words (src.getD 0xFFF)
    ({ src := src, copy := copy, item := r, len := 4 * ws.length, want := (v.writes ws).length } : Drain)
  match v.marks with
  | r :: _ => some (mk none true r)
  | [] => ((b.caddiesOf ring).findSome? fun c => (b.caddyOf c).recs.head?.map (mk c false)).filter fun d => v.room d.len
/-- The writes of a record leave for the homes. -/
def Blk.beginDrain (ring : Nat) (b : Blk) : Blk :=
  match b.nextDrain ring with
  | none => b
  | some d =>
    if h : ring < 17 then
      let v := b.ring ring
      (v.writes (d.item.words (d.src.getD 0xFFF))).foldl (fun b y =>
        b.send (.wr (.trace ⟨ring, h⟩) (lineNo y.1) (BitVec.ofNat 512 y.2.1) (BitVec.ofNat 64 y.2.2))) (b.setRing ring { v with out := some d })
    else b
/-- Every ring that is on and has nothing under way takes its next record; no drain begins during a belay. -/
def Blk.beginDrains (b : Blk) : Blk := if b.running then (range 17).foldl (fun b r => b.beginDrain r) b else b
/-- A drain write is acknowledged, or answered by an error. -/
def TraceRing.ack (v : TraceRing) (resp : BitVec 2) : TraceRing :=
  { v with out := v.out.map fun d => { d with want := d.want - 1, bad := d.bad || resp != 0 } }
/-- A MARK record is to be copied to the ring of its queue's owner seat, or is counted as lost there. -/
def Blk.copyMark (r : TraceRec) (b : Blk) : Blk :=
  match b.wv.cur.owner ((r.body[1]?).getD 0).toNat with
  | none => b
  | some s =>
    let v := b.ring s
    let ahead := ((v.marks ++ (v.out.map (·.item)).toList).map fun m => 16 * m.units).sum
    if !v.markEn then b
    else if v.en && v.room (16 * r.units + ahead) then b.setRing s { v with marks := v.marks ++ [r] }
    else b.setRing s { v with lost := satInc v.lost }
/-- The record of caddy c whose writes have all been answered. -/
def Blk.drained (b : Blk) (c : Option Nat) : Option (Nat × Drain) :=
  (range 17).findSome? fun r => ((b.ring r).out.filter fun d => d.src == c && d.want == 0).map fun d => (r, d)
/-- WR advances past it and it leaves its caddy, where a LOST record takes the room after a drop (R446); after an error the ring is turned
off. -/
def Blk.publish (x : Env) (ring : Nat) (d : Drain) (b : Blk) : Blk :=
  let v := { b.ring ring with out := none }
  if d.bad then b.setRing ring { v with err := true, en := false } else
  let v := { v with wr := v.wr + BitVec.ofNat 32 d.len }
  if d.copy then b.setRing ring { v with marks := v.marks.drop 1 } else
  let b := b.setRing ring v
  let k := b.caddyOf d.src
  let k := { k with recs := k.recs.erase d.item }
  let b := b.setCaddy d.src (if d.src.isNone then k.noteLost blkCap x.now else k.noteLost engCap (engTime x))
  if d.item.kind = 0x10 then b.copyMark d.item else b
/-- The next record's writes follow. A MARK that waited for room may now complete (R446). -/
def execCaddyDrainWrite (c : CaddyId) (s : State) : Host.Outcome State Fault Refusal :=
  s.onWork fun x b =>
    match b.drained (caddyEng c) with
    | some y => if b.running then (b.publish x y.1 y.2).beginDrains else b
    | none => b

/-- A claim: with function 2, by the only owner of the engine's partition. -/
def Blk.claimEng (s e : Nat) (b : Blk) : Blk :=
  if !(b.seat s).expert.getLsbD 2 || b.wv.cur.engOwners e != [s] then b else
  b.modEng e fun v =>
    if v.trace.owner = BitVec.ofNat 5 s then v
    else if v.trace.caddy.recs.isEmpty then { v with trace := { v.trace with owner := BitVec.ofNat 5 s } }
    else { v with trace := { v.trace with claim := some s } }
def Blk.unclaimEng (s e : Nat) (b : Blk) : Blk :=
  let v := b.engine e
  if v.trace.owner = BitVec.ofNat 5 s || v.trace.claim = some s then b.modEng e Eng.endClaim else b
/-- A write of TRC_SEAT_CLAIM. -/
def Blk.seatClaim (s : Nat) (d : W32) (b : Blk) : Blk :=
  let e := fld d 0 12
  if 64 ≤ e then b else
  let b := if bit d 12 then b.claimEng s e else b
  if bit d 13 then b.unclaimEng s e else b
def execClaim (a : Acc) (e : EngineId) (s : State) : Host.Outcome State Fault Refusal :=
  s.writeRow a (seatAddr a.seat 0x818) (BitVec.ofNat 32 (e.val + 4096)) (fun _ _ => none) fun _ b => b.claimEng a.seat e
def execClaimRelease (a : Acc) (e : EngineId) (s : State) : Host.Outcome State Fault Refusal :=
  s.writeRow a (seatAddr a.seat 0x818) (BitVec.ofNat 32 (e.val + 8192)) (fun _ _ => none) fun _ b => b.unclaimEng a.seat e

end Sys2Proof.Machine
end

