-- ==== Sys2Proof/Machine/Ports.lean ====
section
/-! DEFINITION. Memory ports (10 R273 to R282, 02 R48), their link layer and training (13 R332 to R335), internal links
(16 R409), injection units (17 R451). -/

namespace Sys2Proof.Machine

def Blk.modPort (p : Nat) (f : MPort → MPort) (b : Blk) : Blk := b.setPort p (f (b.port p))

/-! ### Responses (R275, R276, R280) -/

/-- The first error held (R282). -/
def MPort.noteErr (v : MPort) (r : PortReq) (resp : BitVec 2) (link : Bool) : MPort :=
  if v.errValid then { v with errCount := satInc v.errCount } else
  { v with errResp := resp, errSrc := r.src, errSeat := r.seat, errLink := link, errCount := 1, errValid := true
           errAddr := BitVec.ofNat 64 (64 * r.line.toNat) }
/-- One of the write-backs a MEMBAR waits for is over (R219). -/
def Blk.writtenBack (q n : Nat) (b : Blk) : Blk :=
  let b := b.modEntry q n fun e =>
    match e.prog with
    | .membar s k => { e with prog := .membar s (k - 1) }
    | _ => e
  match b.entry q n with
  | some e => if b.running then b.finishCmd e else b
  | none => b
/-- A transaction ends. -/
def Blk.portDone (x : Env) (p : Fin 4) (r : PortReq) (d : Line) (resp : BitVec 2) (link : Bool) (b : Blk) : Blk :=
  let b := if resp = 0 then b else b.modPort p fun v => v.noteErr r resp link
  let refused := fun (b : Blk) => if resp = 0 then b else b.send (.wbRefused p r.line resp)
  match r.use with
  | .home line => if r.write then b.drainDone x line resp else b.fillDone x line d resp
  | .writeback fors =>
    if fors.isEmpty then refused b else
    (fors.foldl (fun b y => b.writtenBack y.1 y.2) (refused b)).pump x
/-- A response with a tag: of a transaction from before a reset it is discarded (R343). -/
def Blk.response (x : Env) (p : Fin 4) (tag : Nat) (write : Bool) (d : Line) (resp : BitVec 2) (b : Blk) : Blk :=
  let v := b.port p
  if (PMap.find tag v.stale).isSome then b.setPort p { v with stale := PMap.del tag v.stale } else
  match PMap.find tag v.tags with
  | none => b
  | some r =>
    if r.write ≠ write then b else
    (b.setPort p { v with tags := PMap.del tag v.tags }).portDone x p r d resp false
/-- CTL_CLK runs: a stopped one freezes both ends of every link (13 R337). -/
def Blk.linksRun (b : Blk) : Bool :=
  !b.start.poresetLow && !b.pwr.asleep && (b.start.done || (b.pwr.ctlReq && b.pwr.ctlAck))
def Blk.linkUp (b : Blk) (p : Nat) : Bool := (b.port p).link == .up && b.linksRun
def execRdata (p : Port) (tag : BitVec 9) (d : Line) (resp : BitVec 2) (s : State) : Host.Outcome State Fault Refusal :=
  s.onBlk fun x b => if b.linkUp p then b.response x p tag.toNat false d resp else b
def execRsp (p : Port) (tag : BitVec 9) (resp : BitVec 2) (s : State) : Host.Outcome State Fault Refusal :=
  s.onBlk fun x b => if b.linkUp p then b.response x p tag.toNat true 0 resp else b
/-- A credit comes back, up to the grant. -/
def MPort.credit (v : MPort) (req wd : Bool) : MPort :=
  { v with reqCred := if req && decide (v.reqCred.toNat < v.reqGrant.toNat) then v.reqCred + 1 else v.reqCred
           wdCred := if wd && decide (v.wdCred.toNat < v.wdGrant.toNat) then v.wdCred + 1 else v.wdCred }
def execCreditReturn (p : Port) (req wd : Bool) (s : State) : Host.Outcome State Fault Refusal :=
  s.onBlk fun _ b => if b.linkUp p then b.modPort p (·.credit req wd) else b

/-! ### A link that goes DOWN (R280) -/

def Blk.failAll (x : Env) (p : Fin 4) (rs : List PortReq) (b : Blk) : Blk := rs.foldl (fun b r => b.portDone x p r 0 1 true) b
/-- Every outstanding and waiting request of the port completes inside the block. -/
def Blk.linkDown (x : Env) (p : Fin 4) (b : Blk) : Blk :=
  let v := b.port p
  let b := b.setPort p { v with link := .down, tags := [], stale := [], queue := [], wdQueue := [], reqCred := 0, wdCred := 0, reqGrant := 0
                                wdGrant := 0, lnk := {}, tx := [], training := 0, sent0 := false, got0 := false }
  let b := b.log x { kind := 4, code := 1, time := x.now, unit := BitVec.ofNat 12 (0x300 + p.val) }
  (b.failAll x p (v.tags.map (·.2) ++ v.queue)).callRung 4 0 4
/-- A replay in either direction: counted and logged. -/
def Blk.noteReplay (x : Env) (p : Fin 4) (b : Blk) : Blk :=
  let b := (b.modPort p fun v => { v with replay := satInc v.replay }).bump (evBlk 0x16 p) 1
  b.log x { kind := 3, code := 1, time := x.now, unit := BitVec.ofNat 12 (0x300 + p.val) }

/-! ### Injection (R451) -/

def Blk.injector (b : Blk) (u : Nat) : Injector := SMap.get {} b.dbg.injs u
def Blk.setInjector (u : Nat) (v : Injector) (b : Blk) : Blk := { b with dbg := { b.dbg with injs := SMap.set {} b.dbg.injs u v } }
/-- Unit u acts on this flit. -/
def Injector.acts (v : Injector) (beat replay : Bool) : Bool :=
  v.arm && (!replay || v.replays) &&
    (if v.mode then decide ((mix (BitVec.ofNat 64 v.seed.toNat ^^^ BitVec.ofNat 64 v.flits)).toNat / 2 ^ 48 < v.rate.toNat) else beat)
/-- The unit counts the flits of its link while it is armed, whether it may act or not. -/
def Injector.next (v : Injector) (acts : Bool) : Injector :=
  let v := if v.arm then { v with flits := v.flits + 1 } else v
  if acts then { v with count := satInc v.count, arm := v.arm && v.mode } else v
/-- What unit u makes of the flits that a flit has become so far. -/
def Blk.injectUnit {n : Nat} (beat replay : Bool) (u : Nat) (y : List (BitVec n) × Blk) : List (BitVec n) × Blk :=
  let v := y.2.injector u
  match v.held with
  | some h => (y.1 ++ [BitVec.ofNat n h], y.2.setInjector u { v.next false with held := none })
  | none =>
    let a := y.2.dbg.injEn && y.2.start.done && v.acts beat replay
    let b := y.2.setInjector u (v.next a)
    if !a then (y.1, b) else
    match v.action.toNat with
    | 0 => ([], b)
    | 1 => (y.1.map fun g => g ^^^ BitVec.ofNat n (255 * 2 ^ v.bit.toNat), b)
    | _ => ([], b.setInjector u { v.next a with held := y.1.head?.map (·.toNat) })
/-- What a flit meets on a link: the flits that reach the receiver, in order. Only the units of its direction act, where DIR tells the
two apart. -/
def Blk.inject {n : Nat} (link : Nat) (dir : Option Bool) (beat replay : Bool) (f : BitVec n) (b : Blk) : List (BitVec n) × Blk :=
  (range 4).foldl (fun (y : List (BitVec n) × Blk) u =>
    let v := y.2.injector u
    if v.link.toNat != link || dir.any (· != v.dir) then y else Blk.injectUnit beat replay u y) ([f], b)
/-- The flits on MPn_TX meet the units of that direction. -/
def Blk.injectTx (p : Nat) (replay : Bool) (b : Blk) : Blk :=
  let y := (b.port p).tx.foldl (fun (y : List (BitVec 736) × Blk) f =>
    let z := y.2.inject (0x300 + p) (some false) (bit f 0 || bit f 78) replay f
    (y.1 ++ z.1, z.2)) ([], b)
  y.2.modPort p fun v => { v with tx := y.1 }

/-! ### Sending (R48, R253, R278, R332) -/

def PortReq.op (r : PortReq) : Nat := if !r.write then 0 else if r.mask = fullMask then 1 else 2
/-- The flit of R332. -/
def txFlit (req : Option (Nat × PortReq)) (wd : Option (Nat × Line × W64)) (seq ack : W8) (nak train : Bool) : BitVec 736 :=
  let r := match req with
    | none => 0
    | some (t, r) => 1 + 2 * t + 2 ^ 10 * r.op + 2 ^ 12 * r.line.toNat + 2 ^ 70 * r.seat.toNat + 2 ^ 74 * r.src.toNat + 2 ^ 77 * b2n r.taut
  let w := match wd with
    | none => 0
    | some (t, d, m) => 2 ^ 78 + 2 ^ 79 * t + 2 ^ 88 * d.toNat + 2 ^ 600 * m.toNat
  let body := r + w + 2 ^ 664 * seq.toNat + 2 ^ 672 * ack.toNat + 2 ^ 680 * b2n nak + 2 ^ 681 * b2n train
  BitVec.ofNat 736 (body + 2 ^ 704 * (crc32c (toBytes 88 body)).toNat)
/-- Slots that cluster c holds in the rotation now (R48, R62). -/
def MPort.slotsOf (v : MPort) (c : Nat) : Nat := v.slots.countP fun y => y.2 == c + 1
/-- Who a request issues for: a cluster without slots counts as the last rank of the block's own slots (R253). -/
def MPort.holderOf (v : MPort) (r : PortReq) : Nat := if r.holder < 16 && v.slotsOf r.holder == 0 then 22 else r.holder
/-- Tags a holder may have outstanding: 8 for each of its slots. -/
def MPort.tagLimit (v : MPort) (holder : Nat) : Nat := if holder < 16 then 8 * v.slotsOf holder else 64
def MPort.freeTag (v : MPort) : Option Nat :=
  (range 512).find? fun t => (PMap.find t v.tags).isNone && (PMap.find t v.stale).isNone
/-- Tags in use by a cluster, or by the block's own agents. -/
def MPort.tagsOf (v : MPort) (holder : Nat) : Nat :=
  v.tags.countP fun t => if holder < 16 then t.2.holder == holder else decide (16 ≤ t.2.holder)
/-- Requests of a list that no earlier one for their line holds back (R277). -/
def free' : List LineNo → List PortReq → List PortReq
  | _, [] => []
  | ls, r :: rest => if ls.contains r.line then free' ls rest else r :: free' (r.line :: ls) rest
/-- Requests that may issue, oldest first: none for a line with a transaction outstanding, those of before a reset included. -/
def MPort.issuable (v : MPort) : List PortReq := free' (v.tags.map (fun t => t.2.line) ++ v.stale.map (·.2)) v.queue
/-- Requester within the rank, for its round robin. -/
def PortReq.turn (r : PortReq) : Nat := if r.holder < 16 then r.holder else r.unit
/-- The request a rank serves next: in rank 2 those of taut queues first; then round robin among its requesters. -/
def MPort.rankRequest (v : MPort) (k : Nat) : Option PortReq :=
  let mine := v.issuable.filter fun r => v.holderOf r == k
  let mine := if k = 18 && mine.any (·.taut) then mine.filter (·.taut) else mine
  (orderBy (fun r => ((r.turn + 64 - SMap.get 0 v.rr k % 64) % 64, 0, 0)) mine).head?
/-- The request that a slot's holder issues (R253): a cluster's engines share its slots in turn, each with its oldest request first
(09 R243). -/
def MPort.slotRequest (v : MPort) (slot : Nat) : Option PortReq :=
  if slot < 56 then
    match SMap.get 0 v.slots slot with
    | 0 => none
    | c + 1 => (orderBy (fun r => ((r.unit + 8 - SMap.get 0 v.rr c % 8) % 8, 0, 0)) (v.issuable.filter fun r => r.holder == c)).head?
  else [17, 18, 19, 20, 21, 22].findSome? v.rankRequest
/-- A slot of a cluster has passed, used or not (R247). -/
def Blk.noteSlot (slot : Nat) (used : Bool) (b : Blk) : Blk :=
  if 56 ≤ slot then b else
  let n := b.dsp.loadNow
  { b with dsp := { b.dsp with loadNow := { n with used := n.used + b2n used, passed := n.passed + 1 } } }
/-- A request leaves with a tag, if the holder has a credit and a tag. -/
def Blk.issueReq (p : Nat) (b : Blk) : Blk × Option (Nat × PortReq) :=
  let v := b.port p
  match v.slotRequest v.slot with
  | none => (b.noteSlot v.slot false, none)
  | some r =>
    let h := v.holderOf r
    match v.freeTag with
    | none => (b.noteSlot v.slot false, none)
    | some t =>
      if !b.running || v.reqCred = 0 || decide (v.tagLimit h ≤ v.tagsOf h) then (b.noteSlot v.slot false, none) else
      let tags := PMap.put t { r with holder := h } v.tags
      let b := b.setPort p { v with reqCred := v.reqCred - 1, queue := v.queue.erase r, tags := tags, peak := max v.peak (tags.length + v.stale.length)
                                    wdQueue := if r.write then v.wdQueue ++ [(t, r.data, r.mask)] else v.wdQueue
                                    rr := SMap.set 0 v.rr h (if 16 ≤ h then (r.turn + 1) % 64 else (r.unit + 1) % 8) }
      let b := (b.bump (evBlk (if r.write then 0x10 else 0x0F) p) 1).noteSlot v.slot true
      (if v.slot < 56 then b.bump (evBlk 0x12 p) 1 else b, some (t, r))
/-- A WDATA beat leaves, in the order of the requests. -/
def MPort.takeWd (v : MPort) : MPort × Option (Nat × Line × W64) :=
  match v.wdQueue with
  | w :: rest => if v.wdCred = 0 then (v, none) else ({ v with wdCred := v.wdCred - 1, wdQueue := rest }, some w)
  | [] => (v, none)
def lastFlits (l : List (W8 × BitVec 736)) : List (W8 × BitVec 736) := lastN 128 l
/-- A data flit leaves on MPn_TX under the next number, and is kept for replay. -/
def MPort.sendFlit (v : MPort) (req : Option (Nat × PortReq)) (wd : Option (Nat × Line × W64)) : MPort :=
  let l := v.lnk
  let f := txFlit req wd l.txSeq l.rxSeq l.nakDue false
  { v with tx := [f], lnk := { l with txSeq := l.txSeq + 1, nakDue := false, store := lastFlits (l.store ++ [(l.txSeq, f)]) } }
/-- The link is UP once a data flit with SEQ 0 has been sent and one received; the grants of the training flits are its first
credits (R278, R335). -/
def MPort.upIf (v : MPort) : MPort :=
  if v.sent0 && v.got0 then { v with link := .up, reqCred := v.reqGrant, wdCred := v.wdGrant } else v
/-- A control cycle of a link that trains: training flits until 32 good ones have come in a row, then data flits from SEQ 0 on. -/
def MPort.trainSlot (v : MPort) : MPort :=
  if v.training < 32 then { v with tx := [txFlit none none 0 0 false true] }
  else ({ v.sendFlit none none with sent0 := true } : MPort).upIf
/-- One control cycle of a port: the next slot passes to its holder, and a flit leaves. -/
def Blk.issueSlot (x : Env) (p : Fin 4) (b : Blk) : Blk :=
  let v := b.port p
  match v.link with
  | .training => b.setPort p v.trainSlot
  | .down =>
    match v.queue with
    | [] => b
    | r :: rest => (b.setPort p { v with queue := rest }).portDone x p r 0 1 true
  | .up =>
    let y := b.issueReq p
    let w := (y.1.port p).takeWd
    (y.1.setPort p { w.1.sendFlit y.2 w.2 with slot := (v.slot + 1) % 64 }).injectTx p false
def execIssueSlot (p : Port) (s : State) : Host.Outcome State Fault Refusal :=
  s.onBlk fun x b => if b.linksRun then b.issueSlot x p else b

/-! ### Acknowledgements and replays (R279, R334) -/

/-- Flits before number n are acknowledged; a number that lies beyond no kept flit acknowledges nothing. -/
def Link.ack (l : Link) (n : W8) : Link :=
  match l.store.findIdx? fun f => f.1 + 1 == n with
  | some i => { l with acked := n, store := l.store.drop (i + 1), replays := 0 }
  | none => l
/-- The flits from number n on are sent again; the 16th replay of the same flit takes the link DOWN. -/
def Blk.replayFrom (x : Env) (p : Fin 4) (n : W8) (b : Blk) : Blk :=
  let l := (b.port p).lnk.ack n
  if l.store.isEmpty then b.modPort p fun v => { v with lnk := l } else
  let b := (b.modPort p fun v => { v with lnk := { l with replays := l.replays + 1 } }).noteReplay x p
  let b := (b.modPort p fun v => { v with tx := l.store.map (·.2) }).injectTx p true
  if 16 ≤ l.replays + 1 then b.linkDown x p else b
def execNak (p : Port) (seq : W8) (s : State) : Host.Outcome State Fault Refusal :=
  s.onBlk fun x b => if b.linkUp p then b.replayFrom x p seq else b
def execReplayTimeout (p : Port) (s : State) : Host.Outcome State Fault Refusal :=
  s.onBlk fun x b =>
    match (b.port p).lnk.store with
    | f :: _ => if b.linkUp p then b.replayFrom x p f.1 else b
    | [] => b

/-! ### Receiving (R333 to R335) -/

def rxGood (f : BitVec 608) : Bool := fld f 576 32 == (crc32c (toBytes 72 (fld f 0 576))).toNat
def rxSeqOf (f : BitVec 608) : W8 := BitVec.ofNat 8 (fld f 538 8)
/-- The receiver asks for the expected number again. -/
def Blk.sendNak (x : Env) (p : Fin 4) (b : Blk) : Blk :=
  let b := (b.modPort p fun v => { v with lnk := { v.lnk with nakDue := true, discard := true, rxBad := v.lnk.rxBad + 1 } }).noteReplay x p
  if 16 ≤ (b.port p).lnk.rxBad then b.linkDown x p else b
/-- Beats and credits of a delivered flit. -/
def Blk.deliver (x : Env) (p : Fin 4) (f : BitVec 608) (b : Blk) : Blk :=
  let b := b.modPort p (·.credit (bit f 536) (bit f 537))
  let b := if bit f 0 then b.response x p (fld f 1 9) false (BitVec.ofNat 512 (fld f 10 512)) (BitVec.ofNat 2 (fld f 522 2)) else b
  if bit f 524 then b.response x p (fld f 525 9) true 0 (BitVec.ofNat 2 (fld f 534 2)) else b
/-- A flit on a link that is UP. -/
def Blk.rxFlit (x : Env) (p : Fin 4) (f : BitVec 608) (b : Blk) : Blk :=
  let l := (b.port p).lnk
  let atNext := rxSeqOf f == l.rxSeq
  let good := rxGood f
  let b := if good then b else b.modPort p fun v => { v with crcErr := satInc v.crcErr }
  let b := if good && !bit f 555 then b.modPort p fun v => { v with lnk := v.lnk.ack (BitVec.ofNat 8 (fld f 546 8)) } else b
  if good && !bit f 555 && atNext then
    let b := b.modPort p fun v => { v with lnk := { v.lnk with rxSeq := l.rxSeq + 1, discard := false, rxBad := 0, redo := l.redo - 1 } }
    let b := b.deliver x p f
    if bit f 554 then b.replayFrom x p (BitVec.ofNat 8 (fld f 546 8)) else b
  else if l.discard && !atNext then b.modPort p fun v => { v with lnk := { v.lnk with redo := l.redo + 1 } }
  else (b.modPort p fun v => { v with lnk := { v.lnk with redo := l.redo + (if l.discard then 0 else 1) } }).sendNak x p
/-- A training flit, or a data flit, on a link that trains (R335). -/
def Blk.trainFlit (x : Env) (p : Fin 4) (f : BitVec 608) (b : Blk) : Blk :=
  let v := b.port p
  let req := fld f 10 7
  let wd := fld f 18 7
  let grants := decide (1 ≤ req) && decide (req ≤ 64) && decide (1 ≤ wd) && decide (wd ≤ 64)
  let good := rxGood f && rxSeqOf f == 0
  if v.got0 then b.rxFlit x p f
  else if good && bit f 555 && !bit f 0 && !bit f 524 && !bit f 536 && !bit f 537 && grants then
    b.setPort p { v with training := v.training + 1, reqGrant := BitVec.ofNat 8 req, wdGrant := BitVec.ofNat 8 wd }
  else if good && !bit f 555 && decide (32 ≤ v.training) then (b.setPort p ({ v with got0 := true } : MPort).upIf).rxFlit x p f
  else b.setPort p { v with training := if 32 ≤ v.training then v.training else 0 }
def Blk.tetherFlit (x : Env) (p : Fin 4) (f : BitVec 608) (b : Blk) : Blk :=
  match (b.port p).link with
  | .down => b
  | .training => b.trainFlit x p f
  | .up =>
    let l := (b.port p).lnk
    let replay := if l.discard then rxSeqOf f == l.rxSeq else decide (0 < l.redo)
    let y := b.inject (0x300 + p.val) (some true) (bit f 0 || bit f 524) replay f
    y.1.foldl (fun b g => if (b.port p).link = .up then b.rxFlit x p g else b) y.2

/-! ### Internal links (R409) -/

/-- Numbers of internal links, and the UNIT that stands for each. -/
def linkUnit (n : Nat) : Option Nat :=
  if n = 0x404 then some 0x404
  else if 0x410 ≤ n ∧ n < 0x420 then some n
  else if 0x480 ≤ n ∧ n < 0x48A then some 0x403
  else if 0x500 ≤ n ∧ n < 0x508 then some n else none
def Blk.intLink (b : Blk) (n : Nat) : Link := SMap.get {} b.flt.links n
def Blk.setIntLink (n : Nat) (l : Link) (b : Blk) : Blk := { b with flt := { b.flt with links := SMap.set {} b.flt.links n l } }
/-- A flit that is not delivered is sent again; the 16th replay takes the link DOWN. -/
def Blk.intReplay (x : Env) (n unit : Nat) (b : Blk) : Blk :=
  let l := b.intLink n
  let b := (b.setIntLink n { l with discard := true, replays := l.replays + 1 }).bump (evBlk 0x16 4) 1
  let b : Blk := { b with flt := { b.flt with linkReplay := satInc b.flt.linkReplay } }
  let b := b.log x { kind := 3, code := 0, time := x.now, unit := BitVec.ofNat 12 unit }
  if l.replays + 1 < 16 then b else
  let b : Blk := { b with flt := { b.flt with linksDown := addNew b.flt.linksDown n } }
  (b.log x { kind := 4, code := 0, time := x.now, unit := BitVec.ofNat 12 unit }).callRung 3 0 4
def Blk.intRx (x : Env) (n unit : Nat) (good : Bool) (seq : W8) (b : Blk) : Blk :=
  let l := b.intLink n
  let b : Blk := if good then b else { b with flt := { b.flt with linkCrc := satInc b.flt.linkCrc } }
  if good && seq == l.rxSeq then
    b.setIntLink n { l with rxSeq := l.rxSeq + 1, discard := false, replays := 0, redo := l.redo - 1 }
  else if l.discard && seq != l.rxSeq then b.setIntLink n { l with redo := l.redo + 1 }
  else (b.setIntLink n { l with redo := l.redo + (if l.discard then 0 else 1) }).intReplay x n unit
/-- The layout of an internal flit is not given: this stands for it, so that any inverted bit shows as a bad CRC. -/
def intFlit (good : Bool) (seq : W8) : BitVec 608 := BitVec.ofNat 608 (seq.toNat + 256 * b2n good + 2 ^ 300 * seq.toNat)
/-- The flit meets the injection units, with a beat in it. DIR tells the directions of a cluster link apart; the row does not name its own,
which is a free value (log 166); a ring segment or an intake path has one direction. -/
def Blk.internalFlit (x : Env) (n : Nat) (good : Bool) (seq : W8) (b : Blk) : Blk :=
  match linkUnit n with
  | none => b
  | some u =>
    if b.flt.linksDown.contains n then b else
    let l := b.intLink n
    let replay := if l.discard then seq == l.rxSeq else decide (0 < l.redo)
    let f := intFlit good seq
    let y := if 0x410 ≤ n ∧ n < 0x420 then
        (let d := b.drawFree
         d.2.inject n (some (bit d.1 0)) true replay f)
      else b.inject n none true replay f
    y.1.foldl (fun b g =>
      let seq : W8 := BitVec.ofNat 8 (fld g 0 8)
      b.intRx x n u (g == intFlit true seq) seq) y.2
def execFlitReceive (f : FlitIn) (s : State) : Host.Outcome State Fault Refusal :=
  s.onBlk fun x b =>
    if !b.linksRun then b else
    match f with
    | .tether p bits => b.tetherFlit x p bits
    | .internal n good seq => b.internalFlit x n.toNat good seq
def execTrain (p : Port) (bits : BitVec 608) (s : State) : Host.Outcome State Fault Refusal :=
  s.onBlk fun x b => if b.linksRun then b.tetherFlit x p bits else b
def execTrainingTimeout (p : Port) (s : State) : Host.Outcome State Fault Refusal :=
  s.onBlk fun x b => if b.linksRun && (b.port p).link == .training then b.linkDown x p else b

def memBase (p : Nat) : Nat := 0x5000 + 0x40 * p
/-- Tags outstanding, those of before a reset included. -/
def MPort.inUse (v : MPort) : Nat := v.tags.length + v.stale.length
def MPort.clearPeak (v : MPort) : MPort := { v with peak := v.inUse }
def execMemPeakClr (a : Acc) (p : Port) (s : State) : Host.Outcome State Fault Refusal :=
  s.writeRow a (memBase p + 0x18) 0x80000000 (onSteward · a) fun _ b => b.modPort p MPort.clearPeak

end Sys2Proof.Machine
end

