-- ==== Sys2Proof/Machine/IntakePorts.lean ====
section
/-! DEFINITION. Intake ports (11_intake_ports, 13 R338, R339): beats, header checks, destinations, staleness, ties. -/

namespace Sys2Proof.Machine

/-! ### Items of a port

A port handles its items one after the other; the beats of later ones wait in the staging buffer (R284, R338). -/

/-- The item being handled. -/
def Intake.item (v : Intake) : Option Item := v.items.head?
/-- Body bytes received. -/
def Item.body (i : Item) : Nat := i.got - 64

/-! ### The header (R285) -/

def stagedAt (l : List W8) (off n : Nat) : Nat := ofBytes ((l.drop off).take n)
def Item.length (i : Item) : Nat := stagedAt i.staged 0 4
def Item.packed (i : Item) : Bool := stagedAt i.staged 4 1 % 2 == 1
def Item.width (i : Item) : Nat := stagedAt i.staged 8 2
def Item.height (i : Item) : Nat := stagedAt i.staged 10 2
def Item.bpe (i : Item) : Nat := stagedAt i.staged 12 1
/-- X, L and B. -/
def Item.extent (i : Item) : Nat := i.width * i.height * i.bpe
def Item.lines (i : Item) : Nat := (i.extent + 63) / 64
def Item.bitmapLen (i : Item) : Nat := 64 * (((i.lines + 7) / 8 + 63) / 64)
def Item.bitmap (i : Item) : List W8 := i.staged.drop 64
def Item.present (i : Item) (k : Nat) : Bool := ((i.bitmap[k / 8]?).getD 0).getLsbD (k % 8)

/-! ### Destinations (R292 to R294) -/

/-- D, and the bytes of a slot. -/
def Item.dmgArea (i : Item) : Nat := 64 * ((4 * i.dmgMax + 63) / 64)
def slotSize (r : WvIntake) (i : Item) : Nat := if r.kind1 then 64 * (r.bufSize / 2 ^ i.slotsLog2 / 64) else r.lmSize
/-- C. -/
def capacity (r : WvIntake) (i : Item) : Nat := slotSize r i - 64 - i.dmgArea
/-- Base of the item's slot, in local memory or in SoC memory. -/
def slotBase (r : WvIntake) (i : Item) : Nat :=
  if r.kind1 then r.bufBase + slotSize r i * (i.num.toNat % 2 ^ i.slotsLog2) else r.lmBase
/-- The item before has not tied its knot: items are handled one after the other (R288, log 106). -/
def Intake.lands (v : Intake) : Bool := v.landing.any fun l => !l.dropped
/-- A destination is busy: the item before is not over, or a consumer's window meets a KIND 0 one. -/
def Blk.destBusy (b : Blk) (p : Nat) (r : WvIntake) : Bool :=
  (b.intake p).lands || !r.kind1 &&
    ((b.kn.tieQ.any fun t => t.src == .intake p)
      || (b.wv.cur.intakeEngines r).any fun e =>
        ((b.jobsOn e).any fun j => (b.launch? j).any fun l => winMeet l.winBase l.winSize r.lmBase r.lmSize)
          || (b.standOn e).any fun s => (s.waiting.isSome || s.running.isSome) && winMeet s.l.winBase s.l.winSize r.lmBase r.lmSize)

/-! ### Outcomes of an item -/

def Blk.modIntake (p : Nat) (f : Intake → Intake) (b : Blk) : Blk := b.setIntake p (f (b.intake p))
def Blk.modItem (p : Nat) (f : Item → Item) (b : Blk) : Blk :=
  b.modIntake p fun v => { v with items := match v.items with
    | [] => []
    | i :: r => f i :: r }
def Intake.noteErr (v : Intake) (code : W8) (off : Nat) (seq : W32) : Intake :=
  if v.errValid then { v with errCount := satInc v.errCount } else
  { v with errCode := code, errOff := BitVec.ofNat 16 off, errCount := 1, errValid := true, errSeq := seq }
/-- The rest of the item is discarded; an item whose end marker has come is over. -/
def Blk.discardRest (p : Nat) (b : Blk) : Blk :=
  b.modIntake p fun v =>
    match v.items with
    | [] => v
    | i :: r =>
      { v with
        items := if i.last then r else { i with phase := .discard, staged := [], buffered := [], sent := [] } :: r
        landing := v.landing ++ ({ v with items := [i], landing := [] } : Intake).dropped' [] }
def Blk.rejectItem (p : Nat) (code : W8) (off : Nat) (b : Blk) : Blk :=
  let v := b.intake p
  let seq := (v.item.map (·.seq)).getD v.seq
  let b := b.setIntake p { v.noteErr code off seq with reject := satInc v.reject }
  (b.bump (evBlk 0x15 p) 1).discardRest p
def Blk.dropItem (p : Nat) (b : Blk) : Blk :=
  ((b.modIntake p fun v => { v with dropStale := satInc v.dropStale }).bump (evBlk 0x15 p) 1).discardRest p
def ageOf (now capture : W64) : Nat := if now.toNat < capture.toNat then 0 else now.toNat - capture.toNat
def staleNow (x : Env) (r : WvIntake) (i : Item) : Bool := r.staleNs != 0 && decide (r.staleNs < ageOf x.now i.capture)

/-! ### Writing (R292, R294, R295) -/

/-- Bytes go to every destination engine, or as writes to the slot's home. -/
def Blk.writeDest (p : Fin 8) (r : WvIntake) (addr : Nat) (bs : List W8) (b : Blk) : Blk :=
  if bs.isEmpty then b
  else if r.kind1 then
    let b := b.send (.wr (.intake p) (lineOf addr) (BitVec.ofNat 512 (ofBytes bs * 2 ^ (8 * (addr % 64)))) (maskOf (addr % 64) bs.length))
    b.modItem p fun i => { i with sent := i.sent ++ [lineOf addr] }
  else
    (b.wv.cur.intakeEngines r).foldl (fun b e =>
      ((b.bankWait e 1).modEng e fun v => { v with
        lm := Mem.writeBytes v.lm addr bs
        badLm := if addr % 64 = 0 ∧ bs.length = 64 then v.badLm.erase (addr / 64) else v.badLm }).bump (evEng e 0x14) bs.length) b
/-- Bytes of the extent from `written` on, cut to its end. A KIND 0 write lands as it is made (R292). -/
def Blk.placeData (x : Env) (p : Fin 8) (r : WvIntake) (limit : Nat) (bs : List W8) (b : Blk) : Blk :=
  match (b.intake p).item with
  | none => b
  | some i =>
    let bs := bs.take (limit - i.written)
    let b := b.writeDest p r (slotBase r i + 64 + i.dmgArea + i.written) bs
    b.modItem p fun i => { i with written := i.written + bs.length, wrote := if r.kind1 then i.wrote else some x.now }
def zeros (n : Nat) : List W8 := List.replicate n 0
/-- Zeros over the extent up to byte `upTo`, line by line. -/
def Blk.placeZeros (x : Env) (p : Fin 8) (r : WvIntake) (upTo : Nat) : Nat → Blk → Blk
  | 0, b => b
  | n + 1, b =>
    match (b.intake p).item with
    | none => b
    | some i => if upTo ≤ i.written then b else Blk.placeZeros x p r upTo n (b.placeData x p r upTo (zeros (64 - i.written % 64)))
/-- Body bytes received are written in whole lines (R93), an absent line of a packed body as zeros. -/
def Blk.placeBody (x : Env) (p : Fin 8) (r : WvIntake) : Nat → Blk → Blk
  | 0, b => b
  | n + 1, b =>
    match (b.intake p).item with
    | none => b
    | some i =>
      if i.extent ≤ i.written then b
      else if i.packed && !i.present (i.written / 64) then
        Blk.placeBody x p r n (b.placeData x p r i.extent (zeros 64))
      else if i.buffered.length < 64 && !(i.last && decide (0 < i.buffered.length)) then b
      else
        let b := b.modItem p fun i => { i with buffered := i.buffered.drop 64 }
        Blk.placeBody x p r n (b.placeData x p r i.extent (i.buffered.take 64))
/-- The damage map goes to its area. -/
def Blk.placeDamage (p : Fin 8) (r : WvIntake) (b : Blk) : Blk :=
  match (b.intake p).item with
  | none => b
  | some i =>
    let bs := i.dmg.flatMap fun w => toBytes 4 w.toNat
    (range ((bs.length + 63) / 64)).foldl (fun b k => b.writeDest p r (slotBase r i + 64 + 64 * k) ((bs.drop (64 * k)).take 64)) b

/-! ### Delivery (R292, R298) -/

/-- The item record but for WRITE_NS. -/
def itemRecord (p : Nat) (i : Item) (short : Bool) (writeNs : W64) : Line :=
  let dmgN := if i.overclaim then 0 else i.dmg.length
  let flags := b2n (i.overclaim || short || decide (0 < i.dmgCount)) + 2 * b2n (decide (0 < i.dmgCount)) + 4 * b2n i.overclaim
    + 8 * b2n short + 16 * b2n (decide (i.dmgMax < i.dmgCount)) + 256 * p + 65536 * dmgN
  BitVec.ofNat 512 (i.num.toNat + 2 ^ 32 * flags + 2 ^ 64 * i.capture.toNat + 2 ^ 128 * writeNs.toNat + 2 ^ 192 * i.written
    + 2 ^ 224 * i.width + 2 ^ 240 * i.height + 2 ^ 256 * i.bpe + 2 ^ 264 * b2n i.packed + 2 ^ 288 * (64 + i.dmgArea))
/-- Data and damage are written: the record follows, and the item waits for its tie. WRITE_NS of an item without data is a free
value (log 136). -/
def Blk.deliver' (p : Fin 8) (r : WvIntake) (short : Bool) (b : Blk) : Blk :=
  match (b.intake p).item with
  | none => b
  | some i =>
    let concealed := i.overclaim || short || decide (0 < i.dmgCount)
    let y := match i.wrote with
      | some t => (t, b)
      | none => if r.kind1 && !i.sent.isEmpty then (0, b) else b.drawFree
    let line := itemRecord p i short y.1
    let b := y.2
    let addr := slotBase r i
    let engs := b.wv.cur.intakeEngines r
    let b := if r.kind1 then b else b.writeDest p r addr (toBytes 64 line.toNat)
    let b := if r.kind1 then b else engs.foldl (fun b e => b.modEng e fun v => { v with concealed := concealed }) b
    let record := if r.kind1 && !i.sent.isEmpty then some (addr, line) else none
    let b := if r.kind1 && i.sent.isEmpty then b.writeDest p r addr (toBytes 64 line.toNat) else b
    let outst := ((b.intake p).item.map (·.sent)).getD []
    let l : Landing := { capture := i.capture, seq := i.seq, knot := r.knot, concealed := concealed, outst := outst
                         first := (addr + 64 + i.dmgArea) / 64, wrote := i.wrote, record := record, err := i.err, engines := engs }
    let b := b.modIntake p fun v => { v with landing := v.landing ++ [l] }
    (b.modItem p fun i => { i with sent := [] }).discardRest p
/-- The end of a body whose destination is being written (R297). -/
def Blk.finishItem (x : Env) (p : Fin 8) (r : WvIntake) (b : Blk) : Blk :=
  match (b.intake p).item with
  | none => b
  | some i =>
    if i.body < i.length then
      if r.conceal then (((b.placeZeros x p r i.extent (i.extent / 64 + 2)).placeDamage p r).deliver' p r true)
      else b.rejectItem p 3 0
    else
      let b := if i.length < i.body then b.modIntake p fun v => v.noteErr 3 0 i.seq else b
      ((b.placeZeros x p r i.extent (i.extent / 64 + 2)).placeDamage p r).deliver' p r false
/-- An overclaimed body: its beats are discarded, and with the last one, which closes its damage list, the item of zeros is
delivered (R291, R339). -/
def Blk.runZeros (x : Env) (p : Fin 8) (r : WvIntake) (i : Item) (b : Blk) : Blk :=
  let b := b.placeZeros x p r (min (64 * i.lines) (capacity r i)) (2 * i.lines + 2)
  let b := b.modItem p fun i => { i with buffered := [] }
  if i.last then b.deliver' p r false else b
/-- Body bytes that have come are written, and what follows the extent is discarded; at the end marker the item ends. Nothing
is written while the destination is busy (R293). -/
def Blk.writeBody (x : Env) (p : Fin 8) (r : WvIntake) (b : Blk) : Blk :=
  let b := b.placeBody x p r ((((b.intake p).item.map Item.lines).getD 0) + 2)
  let b := b.modItem p fun i => if i.extent ≤ i.written then { i with buffered := [] } else i
  match (b.intake p).item with
  | some i => if i.phase = .body && i.last then b.finishItem x p r else b
  | none => b
/-- The body of an item being written. A destination that turns busy holds it, and when it is free again the age is checked anew
(R296). -/
def Blk.runBody (x : Env) (p : Fin 8) (r : WvIntake) (b : Blk) : Blk :=
  match (b.intake p).item with
  | none => b
  | some i =>
    if b.destBusy p r then b.modItem p fun i => { i with held := true }
    else if i.held && staleNow x r i then b.dropItem p else
    let b := b.modItem p fun i => { i with held := false }
    if i.overclaim then b.runZeros x p r i else b.writeBody x p r
/-- The destination is free: the age is checked and writing begins. -/
def Blk.beginBody (x : Env) (p : Fin 8) (r : WvIntake) (b : Blk) : Blk :=
  match (b.intake p).item with
  | none => b
  | some i =>
    if staleNow x r i then b.dropItem p else
    let v := b.intake p
    (b.modItem p fun i => { i with phase := .body, num := v.seq }).runBody x p r
/-- Wait for the destination, or begin. -/
def Blk.awaitDest (x : Env) (p : Fin 8) (r : WvIntake) (b : Blk) : Blk :=
  if b.destBusy p r then b.modItem p fun i => { i with phase := .waiting } else b.beginBody x p r

/-! ### Checks (R289 to R291) -/

/-- The first of BPE, WIDTH, HEIGHT at which the running product, as `f` gives it, exceeds `lim`. -/
def firstOver (i : Item) (f : Nat → Nat) (lim : Nat) : Nat :=
  if lim < f i.bpe then 12 else if lim < f (i.bpe * i.width) then 8 else 10
def formatBad (i : Item) : Bool :=
  stagedAt i.staged 4 4 / 2 != 0 || stagedAt i.staged 13 3 != 0 || stagedAt i.staged 16 48 != 0
    || !(i.bpe == 1 || i.bpe == 2 || i.bpe == 4 || i.bpe == 8) || i.length % 64 != 0 || (i.packed && decide (4194304 < i.extent))
def up64 (n : Nat) : Nat := 64 * ((n + 63) / 64)
def checkCap (r : WvIntake) (i : Item) : Option Nat :=
  if capacity r i < 64 * i.lines then some (firstOver i up64 (capacity r i)) else none
/-- Checks that the header alone decides. -/
def overclaimHeader (r : WvIntake) (i : Item) : Option Nat :=
  if i.packed then (if i.length < i.bitmapLen then some 0 else none)
  else if i.length < i.extent then some (firstOver i id i.length) else checkCap r i
/-- The bitmap byte at which the present lines pass LENGTH, as a position in the item. -/
def overByte (len base : Nat) : Nat → Nat → List W8 → Option Nat
  | _, _, [] => none
  | k, tot, v :: r =>
    let tot := tot + 64 * ((List.range 8).countP fun j => v.getLsbD j)
    if len < base + tot then some (64 + k) else overByte len base (k + 1) tot r
/-- Bits beyond line L − 1 name no line. -/
def Item.trimmed (i : Item) : List W8 :=
  (i.bitmap.take i.bitmapLen).zipIdx.map fun y =>
    if 8 * y.2 + 8 ≤ i.lines then y.1 else BitVec.ofNat 8 (y.1.toNat % 2 ^ (i.lines - 8 * y.2))
def overclaimBitmap (r : WvIntake) (i : Item) : Option Nat :=
  (overByte i.length i.bitmapLen 0 0 i.trimmed).orElse fun _ => checkCap r i
def Blk.afterChecks (x : Env) (p : Fin 8) (r : WvIntake) (bad : Option Nat) (b : Blk) : Blk :=
  match bad with
  | none => b.awaitDest x p r
  | some off =>
    if r.conceal then
      let seq := ((b.intake p).item.map (·.seq)).getD 0
      let b := b.modIntake p fun v => v.noteErr 1 off seq
      (b.modItem p fun i => { i with overclaim := true, buffered := [] }).awaitDest x p r
    else b.rejectItem p 1 off
/-- The bitmap is complete, or the item has ended. -/
def Blk.bitmapIn (x : Env) (p : Fin 8) (r : WvIntake) (b : Blk) : Blk :=
  match (b.intake p).item with
  | none => b
  | some i => b.afterChecks x p r (overclaimBitmap r i)
/-- Body bytes that make up the bitmap move to staging. -/
def Blk.stageBitmap (x : Env) (p : Fin 8) (r : WvIntake) (b : Blk) : Blk :=
  match (b.intake p).item with
  | none => b
  | some i =>
    let need := 64 + i.bitmapLen - i.staged.length
    let b := b.modItem p fun i => { i with staged := i.staged ++ i.buffered.take need, buffered := i.buffered.drop need }
    if need ≤ i.buffered.length || i.last then b.bitmapIn x p r else b
/-- The header is complete. -/
def Blk.headerIn (x : Env) (p : Fin 8) (r : WvIntake) (b : Blk) : Blk :=
  match (b.intake p).item with
  | none => b
  | some i =>
    if capacity r i < 64 then b.rejectItem p 5 0
    else if formatBad i then b.rejectItem p 2 0
    else match overclaimHeader r i with
      | some o => b.afterChecks x p r (some o)
      | none => if i.packed then (b.modItem p fun i => { i with phase := .bitmap }).stageBitmap x p r else b.awaitDest x p r

/-! ### Rows -/

/-- Staging holds the header, the bitmap and body not yet written, and the beats of items that wait (R284). -/
def Item.fill (i : Item) : Nat := if i.phase = .discard then 0 else i.staged.length + i.buffered.length
def Intake.fill (v : Intake) : Nat := (v.items.map Item.fill).sum
/-- IKn_READY. -/
def Blk.ikReady (b : Blk) (p : Nat) : Bool :=
  b.running && !b.flt.pcycReq && !(b.intake p).stopped && decide ((b.intake p).fill + 32 ≤ 16384)
/-- Binding of a port; none while the epoch is 0. -/
def Blk.binding (b : Blk) (p : Nat) : Option WvIntake := b.weave?.bind (·.intake p)
/-- The item that is receiving beats. -/
def Intake.opened (v : Intake) : Option Item := v.items.getLast?.filter fun i => !i.last
def Blk.modLast (p : Nat) (f : Item → Item) (b : Blk) : Blk :=
  b.modIntake p fun v => { v with items := v.items.dropLast ++ (v.items.getLast?.map f).toList }
/-- The first beat opens an item; at an unbound port it is counted and discarded (R287). -/
def Blk.openItem (p : Nat) (ts : W64) (b : Blk) : Blk :=
  let v := b.intake p
  if v.opened.isSome then b else
  let i : Item := { capture := ts, seq := v.seq, dmgMax := v.dmgMax.toNat, slotsLog2 := v.slotsLog2.toNat }
  match b.binding p with
  | some _ => b.setIntake p { v with items := v.items ++ [i] }
  | none => (b.setIntake p { v with items := v.items ++ [{ i with phase := .discard }], dropUnb := satInc v.dropUnb }).bump (evBlk 0x15 p) 1
/-- A beat of the open item is taken into staging; one of a discarded item is not kept. -/
def Item.beat (d : BitVec 256) (last : Bool) (i : Item) : Item :=
  { i with got := i.got + 32, last := last
           buffered := if i.phase = .discard then [] else i.buffered ++ toBytes 32 d.toNat }
/-- The item at the front goes as far as its beats and its destination allow. -/
def Blk.runItem (x : Env) (p : Fin 8) (r : WvIntake) (i : Item) (b : Blk) : Blk :=
  match i.phase with
  | .header =>
    if 64 ≤ i.buffered.length then
      (b.modItem p fun i => { i with staged := i.buffered.take 64, buffered := i.buffered.drop 64 }).headerIn x p r
    else if i.last then b.rejectItem p 2 0 else b
  | .bitmap => b.stageBitmap x p r
  | .waiting => if b.destBusy p r then b else b.beginBody x p r
  | .body => b.runBody x p r
  | .discard => if i.last then b.discardRest p else b
/-- The items of a port one after the other, n at most, until one must wait. -/
def Blk.runPort (x : Env) (p : Fin 8) : Nat → Blk → Blk
  | 0, b => b
  | n + 1, b =>
    match (b.intake p).item with
    | none => b
    | some i =>
      let c := match b.binding p with
        | some r => b.runItem x p r i
        | none => if i.last then b.discardRest p else b
      if (c.intake p).items.length < (b.intake p).items.length then Blk.runPort x p n c else c
def Blk.portGoes (x : Env) (p : Fin 8) (b : Blk) : Blk :=
  if b.running && !(b.intake p).stopped then b.runPort x p (b.intake p).items.length else b
/-- On every body beat but the last the age of an item being written is checked (R296). -/
def Blk.beatAge (x : Env) (p : Nat) (last : Bool) (b : Blk) : Blk :=
  match (b.intake p).item, b.binding p with
  | some i, some r => if i.phase == .body && !last && (b.intake p).items.length == 1 && staleNow x r i then b.dropItem p else b
  | _, _ => b
def Blk.takeBeat (x : Env) (p : Fin 8) (d : BitVec 256) (last : Bool) (b : Blk) : Blk :=
  ((b.modLast p (Item.beat d last)).beatAge x p last).portGoes x p
def execIntakeBeat (p : IkPort) (d : BitVec 256) (last : Bool) (ts : W64) (s : State) : Host.Outcome State Fault Refusal :=
  s.onBlk fun x b =>
    if !b.ikReady p then b else
    ((b.openItem p ts).bump (evBlk 0x14 p) 1).takeBeat x p d last
/-- A damage entry of the open item; those beyond DMG_MAX are only counted, those with no item open are ignored (R339). -/
def Item.damage (w : W32) (i : Item) : Item :=
  { i with dmgCount := i.dmgCount + 1, dmg := if i.dmg.length < i.dmgMax then i.dmg ++ [w] else i.dmg }
def execDamageEntry (p : IkPort) (w : W32) (s : State) : Host.Outcome State Fault Refusal :=
  s.onBlk fun _ b => if !b.up || (b.intake p).opened.isNone then b else b.modLast p (Item.damage w)
def execDestinationFree (p : IkPort) (s : State) : Host.Outcome State Fault Refusal :=
  s.onBlk fun x b => b.portGoes x p
/-- A home acknowledges a KIND 1 write: of the oldest item that awaits that line. -/
def landingOf (line : LineNo) : List Landing → List Landing × Option Landing × List Landing
  | [] => ([], none, [])
  | l :: rest =>
    if l.outst.contains line then ([], some l, rest) else
    let y := landingOf line rest
    (l :: y.1, y.2)
/-- A line of the item's data extent. -/
def Item.isData (p : Nat) (b : Blk) (line : LineNo) (i : Item) : Bool :=
  match b.binding p with
  | some r => decide ((slotBase r i + 64 + i.dmgArea) / 64 ≤ line.toNat)
  | none => false
def Blk.landed (x : Env) (p : Fin 8) (line : LineNo) (resp : BitVec 2) (b : Blk) : Blk :=
  let y := landingOf line (b.intake p).landing
  match y.2.1 with
  | none => b.modItem p fun i =>
      { i with sent := i.sent.erase line, err := i.err || resp != 0, wrote := if i.isData p b line then some x.now else i.wrote }
  | some l =>
    let l := { l with outst := l.outst.erase line, err := l.err || resp != 0
                      wrote := if l.record.isSome && decide (l.first ≤ line.toNat) then some x.now else l.wrote }
    let put := fun (ls : List Landing) (b : Blk) => b.modIntake p fun v => { v with landing := y.1 ++ ls ++ y.2.2 }
    if !l.outst.isEmpty then put [l] b else
    if l.dropped then put [] b else
    match l.record with
    | some (addr, item) =>
      -- after the data the record goes out (R292)
      let w := match l.wrote with
        | some t => (t, b)
        | none => b.drawFree
      (put [{ l with outst := [lineOf addr], record := none }] w.2).send
        (.wr (.intake p) (lineOf addr) (putFld item 128 64 w.1.toNat) fullMask)
    | none => put [l] b
/-- Every write of the delivered item has landed: the knot is tied, unless a write was refused, and the port goes on to its
next item. -/
def Blk.tieItem (x : Env) (p : Fin 8) (resp : BitVec 2) (b : Blk) : Blk :=
  let v := b.intake p
  match v.landing.find? fun l => !l.dropped with
  | none => b
  | some l =>
    if !l.outst.isEmpty || l.record.isSome then b
    else
      let v := { v with landing := v.landing.erase l }
      if l.err || (resp != 0 && l.engines.isEmpty) then (b.setIntake p (v.noteErr 4 0 l.seq)).portGoes x p
      else
        let age := min 0xFFFFFFFF (ageOf x.now l.capture)
        let b := b.setIntake p { v with seq := v.seq + 1, lastAge := BitVec.ofNat 32 age
                                        conceal := if l.concealed then satInc v.conceal else v.conceal }
        let t : Tie := { knot := l.knot, op := .add, val := 1, flags := 0, epoch := b.wv.epoch, src := .intake p
                         concealed := l.concealed && !l.engines.isEmpty }
        ({ b with kn := { b.kn with tieQ := b.kn.tieQ ++ [t] } } : Blk).portGoes x p
def execItemWritesLanded (p : IkPort) (resp : BitVec 2) (s : State) : Host.Outcome State Fault Refusal :=
  s.onBlk fun x b => if b.up then b.tieItem x p resp else b

end Sys2Proof.Machine
end

