-- ==== Sys2Proof/Machine/FabricTime.lean ====
section
/-! DEFINITION. Fabric time and its discipline (13 R345, R346, 17 R449, R450). -/

namespace Sys2Proof.Machine

def corrSpan : Nat := 50000000
/-- What the j-th edge under a correction c adds. -/
def edgeAdds (c : Int) (j : Nat) : Nat :=
  let n := c.natAbs
  if j * n / corrSpan < (j + 1) * n / corrSpan then (if 0 < c then 21 else 19) else 20
/-- The correction after one more edge. -/
def Time.nextEdge (t : Time) : Time :=
  if t.corr = 0 then t
  else if corrSpan ≤ t.corrPos + 1 then { t with corr := 0, corrPos := 0 } else { t with corrPos := t.corrPos + 1 }
def offset (t : W64) (d : Int) : W64 := BitVec.ofInt 64 (t.toNat + d)
/-- One REF edge: 20, or 21 or 19 under a correction; a step or a SET takes effect. -/
def Time.edge (t : Time) : Time :=
  let now := offset t.now (edgeAdds t.corr t.corrPos)
  let now := match t.stepBy with
    | some e => offset now (-e)
    | none => now
  { t.nextEdge with now := if t.setPend then t.setVal else now, setPend := false, stepBy := none, divEdges := 0 }
/-- An edge at which TIME_LOAD is 1; it wins over a SET. -/
def Time.load (t : Time) (v : W64) : Time := { t.nextEdge with now := v, setPend := false, stepBy := none, divEdges := 0 }
/-- A start that has not ended counts the edge (18 R461). -/
def Blk.startEdge (b : Blk) : Blk :=
  if b.start.began && !b.start.done && !b.start.failed then { b with start := { b.start with edges := b.start.edges + 1 } } else b
def State.setTime (t : Time) (s : State) : State := { s with env := { s.env with time := t } }
/-- A step writes a TIME_STEP record. -/
def State.refEdge (s : State) : State :=
  let t := s.env.time
  let s := { s.setTime t.edge with blk := s.blk.startEdge }
  match t.stepBy with
  | some e =>
    if t.setPend then s else
    { s with blk := s.blk.traceEvent s.env 0x14 [BitVec.ofInt 32 (-e), BitVec.ofNat 32 ((BitVec.ofInt 64 (-e)).toNat / 2 ^ 32)] }
  | none => s
def execRefEdge (s : State) : Host.Outcome State Fault Refusal :=
  .next (if s.blk.start.poresetLow then s else s.refEdge)
def execTimeLoad (v : W64) (s : State) : Host.Outcome State Fault Refusal :=
  .next (if s.blk.start.poresetLow then s else { s.setTime (s.env.time.load v) with blk := s.blk.startEdge })

/-- e of a pulse at t: the distance from the nearest whole second. -/
def ppsErr (t : W64) : Int :=
  let r : Int := t.toNat % 1000000000
  if 500000000 < r then r - 1000000000 else r
def clampTrim (c : Int) : Int := max (-200000) (min 200000 c)
def Time.m (t : Time) : Int := sgn 32 t.trim.toNat
def Time.apply (t : Time) (c : Int) : Time := { t with corr := c, corrPos := 0 }
/-- The discipline at a pulse (R450). -/
def Time.discipline (t : Time) (e : Int) : Time :=
  let t := { t with err := BitVec.ofInt 32 e }
  if t.st = .free ∨ t.stepNs.toNat < e.natAbs then
    { t with stepBy := some e, stepped := true, ep := 0, cp := 0, trim := 0, st := .acquiring, corr := 0, corrPos := 0 }
  else
    let m := if t.st = .holdover then t.m else e - t.ep - t.cp
    let c := clampTrim (-e - m)
    { t.apply c with trim := BitVec.ofInt 32 m, ep := e, cp := c, st := .locked }
/-- A pulse has the time of its REF edge minus 40 ns (R346). -/
def Time.pulse (t : Time) : Time :=
  let p := t.now - 40
  let t := { t with pps := p }
  if t.disc then t.discipline (ppsErr p) else t
def execTimePps (s : State) : Host.Outcome State Fault Refusal :=
  .next (if s.blk.start.poresetLow then s else s.setTime s.env.time.pulse)
/-- No pulse came in time: the trim goes on alone. -/
def Time.hold (t : Time) : Time :=
  if !t.disc || t.st == .free then t else { t.apply (clampTrim (-t.m)) with st := .holdover }
def execHoldover (s : State) : Host.Outcome State Fault Refusal :=
  .next (if s.blk.start.poresetLow then s else s.setTime s.env.time.hold)

/-- A write of TIM_CTRL. -/
def Time.ctrl (t : Time) (disc set : Bool) : Time :=
  let t := if disc then t else { t with st := .free, corr := 0, corrPos := 0, stepBy := none }
  { t with disc := disc, setPend := t.setPend || set }
def State.timCtrl (disc set : Bool) (s : State) : State := s.setTime (s.env.time.ctrl disc set)
def execSet (a : Acc) (disc : Bool) (s : State) : Host.Outcome State Fault Refusal :=
  s.writeRowS a 0x9100 (BitVec.ofNat 32 (b2n disc + 2)) (onSteward · a) fun s => s.timCtrl disc true

end Sys2Proof.Machine
end

