-- ==== Sys2Proof/Machine/Crypto.lean ====
section
/-! DEFINITION. The functions that 14 R376 names for patches: SHA-256 (FIPS 180-4), AES-256-GCM (FIPS 197, SP 800-38D) and
ECDSA over P-256 (FIPS 186). -/

namespace Sys2Proof.Machine

/-- A big-endian number, and the bytes of one. -/
def ofBytesBE (l : List W8) : Nat := l.foldl (fun a b => 256 * a + b.toNat) 0
def toBytesBE (n v : Nat) : List W8 := (toBytes n v).reverse

/-! ### SHA-256

The constants are computed from their definition in FIPS 180-4: fractions of roots of primes. The eight working variables
are the four latest terms of two sequences, so a round appends one term to each. -/

/-- The primes below 312: 64 of them. -/
def shaPrimes : List Nat :=
  (range 312).filter fun n => decide (2 ≤ n) && (range 18).all fun d => decide (d < 2) || decide (n ≤ d) || n % d != 0
/-- The first 32 bits of the fraction of the k-th root of n, for a root below 64. -/
def rootFraction (k n : Nat) : W32 :=
  BitVec.ofNat 32 ((range 38).foldl (fun r i => if (r + 2 ^ (37 - i)) ^ k ≤ n * 2 ^ (32 * k) then r + 2 ^ (37 - i) else r) 0)
/-- Exclusive or of three words. -/
def xor3 (a b c : W32) : W32 := a ^^^ b ^^^ c
/-- Word i of the words written last first. -/
def ago (l : List W32) (i : Nat) : W32 := (l[i]?).getD 0
/-- The next word of the message schedule, from those before it. -/
def shaNext (w : List W32) : W32 :=
  let x := ago w 14
  let y := ago w 1
  ago w 15 + ago w 6 + xor3 (x.rotateRight 7) (x.rotateRight 18) (x >>> 3)
    + xor3 (y.rotateRight 17) (y.rotateRight 19) (y >>> 10)
/-- The two sequences of the rounds, latest term first. -/
structure ShaSt where
  a : List W32
  e : List W32
  deriving DecidableEq, Repr
/-- A round adds one term to each sequence; `kw` is the round's constant plus its schedule word. -/
def ShaSt.round (h : ShaSt) (kw : W32) : ShaSt :=
  let a := ago h.a 0
  let e := ago h.e 0
  let choose := (e &&& ago h.e 1) ||| (~~~e &&& ago h.e 2)
  let majority := (a &&& (ago h.a 1 ||| ago h.a 2)) ||| (ago h.a 1 &&& ago h.a 2)
  let t := ago h.e 3 + kw + choose + xor3 (e.rotateRight 6) (e.rotateRight 11) (e.rotateRight 25)
  { a := (t + majority + xor3 (a.rotateRight 2) (a.rotateRight 13) (a.rotateRight 22)) :: h.a.take 3
    e := (ago h.a 3 + t) :: h.e.take 3 }
/-- Rounds over the constants that are left: the first 16 take the message's words, the others extend the schedule. -/
def ShaSt.rounds : List W32 → List W32 → List W32 → ShaSt → ShaSt
  | [], _, _, h => h
  | k :: ks, m :: ms, w, h => ShaSt.rounds ks ms (m :: w) (h.round (k + m))
  | k :: ks, [], w, h => ShaSt.rounds ks [] (shaNext w :: w) (h.round (k + shaNext w))
/-- Big-endian words of bytes, n of them. -/
def wordsBE (n : Nat) (l : List W8) : List W32 :=
  (range n).map fun i => BitVec.ofNat 32 (ofBytesBE ((l.drop (4 * i)).take 4))
def shaStart : ShaSt :=
  let r := shaPrimes.map (rootFraction 2)
  { a := r.take 4, e := (r.drop 4).take 4 }
/-- The state after n blocks of 64 bytes. -/
def shaHash (k : List W32) : Nat → List W8 → ShaSt → ShaSt
  | 0, _, h => h
  | n + 1, l, h =>
    let r := ShaSt.rounds k (wordsBE 16 l) [] h
    shaHash k n (l.drop 64) { a := List.zipWith (fun x y => x + y) h.a r.a, e := List.zipWith (fun x y => x + y) h.e r.e }
/-- The digest as a big-endian number: a byte 0x80, zeros up to 8 bytes short of whole blocks, and the length in bits. -/
def sha256 (l : List W8) : Nat :=
  let blocks := (l.length + 72) / 64
  let m := (l ++ [0x80] ++ List.replicate (64 * blocks - l.length - 9) 0) ++ toBytesBE 8 (8 * l.length)
  let h := shaHash (shaPrimes.map (rootFraction 3)) blocks m shaStart
  (h.a ++ h.e).foldl (fun n w => 2 ^ 32 * n + w.toNat) 0

/-! ### AES-256 -/

def xtime (a : Nat) : Nat := if a < 128 then 2 * a else (2 * a) ^^^ 0x11b
def gmul : Nat → Nat → Nat → Nat
  | 0, _, _ => 0
  | n + 1, a, b => (if b % 2 = 1 then a else 0) ^^^ gmul n (xtime a) (b / 2)
def ginv (a : Nat) : Nat := (range 254).foldl (fun r _ => gmul 8 r a) 1
def rotl8 (a k : Nat) : Nat := (a * 2 ^ k) % 256 + a / 2 ^ (8 - k)
def sbox (a : Nat) : Nat :=
  let b := if a = 0 then 0 else ginv a
  b ^^^ rotl8 b 1 ^^^ rotl8 b 2 ^^^ rotl8 b 3 ^^^ rotl8 b 4 ^^^ 0x63
def nat4 (l : List Nat) (i : Nat) : Nat := (l[i]?).getD 0
def xorL (a b : List Nat) : List Nat := List.zipWith (fun x y => x ^^^ y) a b
/-- The key schedule's words, newest first. -/
def aesExpand : Nat → Nat → List (List Nat) → List (List Nat)
  | 0, _, w => w
  | n + 1, i, w =>
    let t := (w.head?).getD []
    let t := if i % 8 = 0 then
        xorL ((t.drop 1 ++ t.take 1).map sbox) [(range (i / 8 - 1)).foldl (fun r _ => xtime r) 1, 0, 0, 0]
      else if i % 8 = 4 then t.map sbox else t
    aesExpand n (i + 1) (xorL ((w[7]?).getD []) t :: w)
def chunks4 : Nat → List Nat → List (List Nat)
  | 0, _ => []
  | n + 1, l => l.take 4 :: chunks4 n (l.drop 4)
def aesKeys (key : List Nat) : List Nat := ((aesExpand 52 8 (chunks4 8 key).reverse).reverse).flatten
def shiftRows (s : List Nat) : List Nat := (range 16).map fun i => nat4 s ((i + 4 * (i % 4)) % 16)
def mixCol (c : List Nat) : List Nat :=
  (range 4).map fun i =>
    let at' := fun (k : Nat) => nat4 c ((i + k) % 4)
    xtime (at' 0) ^^^ (xtime (at' 1) ^^^ at' 1) ^^^ at' 2 ^^^ at' 3
def aesRounds (keys : List Nat) : Nat → Nat → List Nat → List Nat
  | 0, _, s => s
  | n + 1, r, s =>
    let s := shiftRows (s.map sbox)
    let s := if n = 0 then s else ((chunks4 4 s).map mixCol).flatten
    aesRounds keys n (r + 1) (xorL s ((keys.drop (16 * r)).take 16))
def aesBlock (keys : List Nat) (b : List Nat) : List Nat := aesRounds keys 14 1 (xorL b (keys.take 16))

/-! ### GCM -/

def gcmMul : Nat → Nat → Nat → Nat
  | 0, _, _ => 0
  | n + 1, x, v => (if x.testBit n then v else 0) ^^^ gcmMul n x (if v % 2 = 1 then (v / 2) ^^^ (0xe1 * 2 ^ 120) else v / 2)
def ghash (h : Nat) : Nat → Nat → List W8 → Nat
  | 0, y, _ => y
  | n + 1, y, l => ghash h n (gcmMul 128 (y ^^^ ofBytesBE (l.take 16)) h) (l.drop 16)
def pad16 (l : List W8) : List W8 := l ++ List.replicate ((16 - l.length % 16) % 16) 0
def gcmKeystream (keys : List Nat) (iv : List Nat) : Nat → Nat → List Nat
  | 0, _ => []
  | n + 1, c => aesBlock keys (iv ++ (toBytesBE 4 c).map BitVec.toNat) ++ gcmKeystream keys iv n (c + 1)
/-- The plaintext, and whether the tag is right. -/
def gcmOpen (key iv aad ct tag : List W8) : List W8 × Bool :=
  let keys := aesKeys (key.map BitVec.toNat)
  let ivn := iv.map BitVec.toNat
  let h := ofBytesBE ((aesBlock keys (List.replicate 16 0)).map (BitVec.ofNat 8))
  let m := pad16 aad ++ pad16 ct ++ toBytesBE 8 (8 * aad.length) ++ toBytesBE 8 (8 * ct.length)
  let s := ghash h (m.length / 16) 0 m
  let e0 := ofBytesBE ((gcmKeystream keys ivn 1 1).map (BitVec.ofNat 8))
  let ks := (gcmKeystream keys ivn ((ct.length + 15) / 16) 2).map (BitVec.ofNat 8)
  (List.zipWith (fun (a b : W8) => a ^^^ b) ct ks, (s ^^^ e0) == ofBytesBE tag)

/-! ### ECDSA over P-256 -/

def p256P : Nat := 0xffffffff00000001000000000000000000000000ffffffffffffffffffffffff
def p256N : Nat := 0xffffffff00000000ffffffffffffffffbce6faada7179e84f3b9cac2fc632551
def p256B : Nat := 0x5ac635d8aa3a93e7b3ebbd55769886bc651d06b0cc53b0f63bce3c3e27d2604b
def p256Gx : Nat := 0x6b17d1f2e12c4247f8bce6e563a440f277037d812deb33a0f4a13945d898c296
def p256Gy : Nat := 0x4fe342e2fe1a7f9b8ee7eb4a7c0f9e162bce33576b315ececbb6406837bf51f5
def modPow (m : Nat) : Nat → Nat → Nat → Nat
  | 0, _, _ => 1 % m
  | n + 1, a, e => (if e % 2 = 1 then a else 1) * modPow m n (a * a % m) (e / 2) % m
/-- The inverse modulo a prime. -/
def modInv (m a : Nat) : Nat := modPow m 256 (a % m) (m - 2)
abbrev EcPoint := Option (Nat × Nat)
def ecAdd (p q : EcPoint) : EcPoint :=
  match p, q with
  | none, q => q
  | p, none => p
  | some (x1, y1), some (x2, y2) =>
    let m := p256P
    if x1 = x2 && (y1 + y2) % m == 0 then none else
    let l := if x1 = x2 then (3 * x1 * x1 + (m - 3)) * modInv m (2 * y1) % m else (y2 + m - y1) * modInv m (x2 + m - x1) % m
    let x := (l * l + 2 * m - x1 - x2) % m
    some (x, (l * (x1 + m - x) + m - y1) % m)
def ecMul : Nat → Nat → EcPoint → EcPoint
  | 0, _, _ => none
  | n + 1, k, p => ecAdd (if k % 2 = 1 then p else none) (ecMul n (k / 2) (ecAdd p p))
def onCurve (x y : Nat) : Bool :=
  decide (x < p256P) && decide (y < p256P) && y * y % p256P == (x * x * x + (p256P - 3) * x + p256B) % p256P
def ecdsaOk (x y e r s : Nat) : Bool :=
  decide (0 < r) && decide (r < p256N) && decide (0 < s) && decide (s < p256N) &&
    let w := modInv p256N s
    match ecAdd (ecMul 256 (e * w % p256N) (some (p256Gx, p256Gy))) (ecMul 256 (r * w % p256N) (some (x, y))) with
    | none => false
    | some q => q.1 % p256N == r

end Sys2Proof.Machine
end

