-- ==== Sys2Proof/Machine/Starts.lean ====
section
/-! DEFINITION. Resets, starts and the rungs of recovery as they are carried out (13 R340 to R344, R350, 16 R417 to R422,
18 R452 to R461). -/

namespace Sys2Proof.Machine

def SMap.mapAll {α : Type} [DecidableEq α] (d : α) (f : Nat → α → α) (m : SMap α) : SMap α :=
  m.foldr (fun p y => SMap.set d y p.1 (f p.1 p.2)) []

/-! ### Coherence at a warm start (R459) -/

/-- A request that its home had accepted completes there if its data is at hand; no Cmp is sent. A full-line write clears poison
(R408). -/
def Blk.completeHeld (line : Nat) (req : HomeReq) (b : Blk) : Blk :=
  match req, b.rcLine line with
  | .wr _ d m, some l => b.putRc line { l with data := mergeMask l.data d m, dirty := true, poison := l.poison && m != fullMask }
  | .wr r d m, none =>
    if m ≠ fullMask then b else
    (match b.makeRoom line (allocWays b (homeOf line) r) with
    | some (way, b) => b.putRc line { way := way, data := d, dirty := true, used := 0 }
    | none => b.queuePort { write := true, line := lineNo line, data := d, mask := m, seat := 0, src := 7, taut := false, holder := 17
                            use := .writeback [] })
  | .atom t, some l => b.putRc line { l with data := (atomApply t l.data).2, dirty := true }
  | _, _ => b
/-- Data that the window line buffer had sent home and that is still on its way. -/
def windowData (m : Instr) : Option (Nat × Line) :=
  match m with
  | .wb line d => some (line.toNat, d)
  | .invack a line (some d) => if a.val = 68 then some (line.toNat, d) else none
  | _ => none
def Blk.settleHomes (x : Env) (b : Blk) : Blk :=
  let home := fun (b : Blk) (y : Nat × Line) => b.writeBackHome x y.1 y.2
  let b := (b.mem.ring.filterMap windowData).foldl home b
  let b := (b.mem.busy.filterMap fun p => p.2.wdata.map fun d => (p.1, d)).foldl home b
  let b := ((b.mem.copies 68).filterMap fun c => c.2.dirtyData.map fun d => (c.1, d)).foldl home b
  let b := b.mem.busy.foldl (fun b p => match p.2.wait with
    | .drain _ | .fill => b
    | _ => b.completeHeld p.1 p.2.req) b
  b.mem.waitQ.foldl (fun b p => b.completeHeld p.1 p.2) b
/-- A memory port: link layer, tags and credits stay; queued writes still go out, responses to earlier requests are
discarded. -/
def MPort.warm (v : MPort) : MPort :=
  { v with
    errResp := 0, errSrc := 0, errSeat := 0, errLink := false, errIrqEn := false, errCount := 0, errValid := false, errAddr := 0
    tags := [], stale := v.tags.foldl (fun m y => PMap.put y.1 y.2.line m) v.stale
    queue := (v.queue.filter (·.write)).map fun r => { r with use := .writeback [] } }
def MemState.warm (m : MemState) : MemState :=
  { rc := m.rc, bad := m.bad, pred := m.pred, ports := SMap.mapAll {} (fun _ v => v.warm) m.ports, clock := m.clock
    cohFwd := m.cohFwd, cohHold := m.cohHold, cohRecall := m.cohRecall, cohNear := m.cohNear, cohFar := m.cohFar }

/-! ### What a warm start keeps of each unit (R456, R457, R420) -/

/-- Retained bytes of an engine. -/
def retained (w : Weave) (e : Nat) : Nat :=
  match w.partOf e with
  | some p => if p.taut then 1024 * p.residentKib else 0
  | none => 0
def Bank.warm (k : Bank) (taut : Bool) : Bank :=
  if taut && k.st == .ready then { k with lastActive := 0, newProg := 0 } else {}
def Caddy.emptied (c : Caddy) : Caddy :=
  { c with recs := [], lost := satAdd c.lost c.recs.length, dropped := satAdd c.dropped c.recs.length }
/-- The expert grants are gone, and with them every claim of the engine (R316, R448). -/
def EngTrace.warm (t : EngTrace) : EngTrace :=
  let t := { t with caddy := t.caddy.emptied, claim := none }
  if t.owner = 0x1F then t else { t with owner := 0x1F, ctl := 0 }
def Eng.warm (v : Eng) (w : Weave) (e : Nat) (clearing : Bool) : Eng :=
  let keep := if clearing then 0 else retained w e
  let taut := !clearing && w.isTaut e
  { lm := v.lm.filter fun c => decide (c.1 < keep)
    badLm := v.badLm.filter fun l => decide (64 * l + 64 ≤ keep)
    bank0 := v.bank0.warm taut, bank1 := v.bank1.warm taut, bankClk := v.bankClk
    progress := v.progress, trace := v.trace.warm }
/-- A queue that is not FREE becomes FREE; its page registers stay as they stood (R420), and its figures of R245 reset (R456). -/
def Que.warm (u : Que) : Que :=
  { u with wake := false, st := .free, closeDue := false, lost := [], descAt := [], srOn := false, done := [], srWait := false
           srAcked := false, fence := none, owed := [], held := [], stretchTo := 0
           ratio := 0, worst := 0, worstEng := 0, slowSeq := 0, stallSum := 0, busySum := 0 }
def WeaveUnit.warm (w : WeaveUnit) : WeaveUnit :=
  { st := if w.wrote then .loaded else .empty, epoch := w.epoch, staleCnt := w.staleCnt, extent := w.extent, wrote := w.wrote
    cur := w.cur, roleQ := w.roleQ, roleE := w.roleE, roleI := w.roleI, roleS := w.roleS, configCrc := w.configCrc }
def Seq.warm (v : Seq) : Seq := { trapCount := v.trapCount, guard := v.guard, ecc := v.ecc, slots := v.slots }
def Intake.warm (v : Intake) : Intake :=
  { slotsLog2 := v.slotsLog2, dmgMax := v.dmgMax, seq := v.seq, dropStale := v.dropStale, dropUnb := v.dropUnb, reject := v.reject
    conceal := v.conceal, discPour := v.discPour }
def SeatRegs.warm (v : SeatRegs) : SeatRegs := { launched := v.launched, done := v.done, trcEng := v.trcEng, snapSel := v.snapSel }
def Features.warm (f : Features) : Features := { accept := f.keep ||| 1, retained := true, keep := f.keep }
/-- Logs, counters, FLT_CTRL and FLT_STALL_WIN stay, and the mark of a bad word of the steep buffer with its contents; the other
registers reset. The block reset is in progress until DONE (R417, R422). -/
def Faults.warm (f : Faults) (cause : W8) : Faults :=
  { f with warden := .booting, called := f.called.filter fun r => r.step == 4, active := [{ step := 3, target := 0, cause := cause }]
           pending := f.pending.filter fun r => r.step == 4, deferred := f.deferred.filter fun r => r.step == 4
           twinSel := 0, twins := [], links := [], linksDown := []
           irqLog := false, irqWait := false, irqNoack := false, irqEn := false, logSel := 0
           seatLogs := f.seatLogs.map fun p => (p.1, { p.2 with irqLog := false, irqEn := false, sel := 0 }) }
def Debug.warm (d : Debug) : Debug :=
  { d with belay := .running, relHeld := false, tags := [], tangle := { d.tangle with st := .idle, graph := [], want := 0, bad := false } }
def Trace.warm (t : Trace) : Trace :=
  { t with caddy := t.caddy.emptied, rings := SMap.mapAll {} (fun _ v => { v with out := none, marks := [] }) t.rings }
/-- The governor and droop handling are of the keep domain, and the power counters fall to PORESET_N alone (R402, R428); the
other power registers reset, and a block in SLEEP is no longer asleep (log 80). -/
def Power.warm (p : Power) : Power :=
  { p with sleepDelay := 0x064, evDroop := false, evUnder := false, engSel := 0, asleep := false, wakeFrom := none, idleKeep := 0
           droopTime := 0, droopNs := 0 }
/-- The reset of every domain but the keep domain and the link layers, with what step 4 of the start leaves. -/
def Blk.warmReset (x : Env) (cause : W8) (b : Blk) : Blk :=
  let b := b.settleHomes x
  let w := b.wv.cur
  let cl := b.wv.clearing
  let b : Blk :=
    { freeCtr := b.freeCtr, ctlCycle := b.ctlCycle
      host := { seats := SMap.mapAll {} (fun _ v => v.warm) b.host.seats }
      feat := b.feat.warm
      start := { b.start with kind := 2, began := false, done := false, failed := false, failCode := 0, failStep := 0, hrpUp := false, arrays := false
                              config := false, warden := false, sysLow := true, heldBelay := 0, cause := cause }
      patch := { keepDigest := b.patch.keepDigest, keepValid := b.patch.keepValid }
      wv := b.wv.warm
      qs := SMap.mapAll {} (fun _ u => u.warm) b.qs
      kn := { tab := b.kn.tab, pauses := b.kn.pauses }
      dsp := { nextOrd := b.dsp.nextOrd }
      sq := SMap.mapAll {} (fun _ v => v.warm) b.sq
      eng := SMap.mapAll {} (fun e v => v.warm w e (cl.contains e)) b.eng
      mem := b.mem.warm
      ik := SMap.mapAll {} (fun _ v => v.warm) b.ik
      pwr := b.pwr.warm, flt := b.flt.warm cause, dbg := b.dbg.warm, trc := b.trc.warm }
  b.switchSlots

/-! ### Starts (R452 to R455, R461) -/

/-- The clocks run: the host register port serves; in a warm start the arrays clear and the weave is verified too. -/
def Blk.startClocked (b : Blk) : Blk :=
  if !b.start.began || b.start.hrpUp || b.start.failed then b else
  if !b.pwr.clocked then b.raiseReqs else
  let b : Blk := { b with start := { b.start with hrpUp := true } }
  if b.start.kind = 1 then b else
  let b : Blk := { b with start := { b.start with arrays := true }, patch := { b.patch with ready := true } }
  if b.wv.epoch = 0 || crc32c (configBytes b.wv.cur) = b.wv.configCrc then { b with start := { b.start with config := true } }
  else { b with start := { b.start with failed := true, failCode := 0x20, failStep := 5 }
                patch := { b.patch with ready := false }, flt := { b.flt with pcycReq := true } }
/-- t0 of a start. -/
def Blk.startBegins (kind : BitVec 2) (b : Blk) : Blk :=
  (({ b with start := { b.start with poresetLow := false, sysLow := false, kind := kind, began := true, edges := 0
                                     warmCount := if kind = 2 then satInc b.start.warmCount else b.start.warmCount } } : Blk).raiseReqs).startClocked
/-- A cold start that was cut short by SYS_RESET_N begins again: nothing is kept but the levels of pins, and the clock requests stay
raised (R340). -/
def Blk.coldAgain (b : Blk) : Blk :=
  { freeCtr := b.freeCtr, ctlCycle := b.ctlCycle
    pwr := { ariAck := b.pwr.ariAck, ctlAck := b.pwr.ctlAck, ariReq := b.pwr.ariReq, ctlReq := b.pwr.ctlReq }
    dbg := { trstLow := b.dbg.trstLow } }

/-- PORESET_N falls. Pins that other agents hold keep their levels. -/
def State.poreset (s : State) : State :=
  { pending := s.pending, env := {}
    blk := { freeCtr := s.blk.freeCtr, ctlCycle := s.blk.ctlCycle, start := { sysLow := s.blk.start.sysLow }
             pwr := { ariAck := s.blk.pwr.ariAck, ctlAck := s.blk.pwr.ctlAck }, dbg := { trstLow := s.blk.dbg.trstLow } } }
def execPoresetN (s : State) : Host.Outcome State Fault Refusal := .next s.poreset
/-- The internal release of PORESET_N: straps are sampled, and a cold start begins unless SYS_RESET_N is still low. -/
def State.cold (steward : Nat) (keyHash : BitVec 256) (s : State) : State :=
  if !s.blk.start.poresetLow then s else
  let x : Env := { strap := { steward := steward, keyHash := keyHash } }
  let b : Blk := { s.blk with start := { s.blk.start with poresetLow := false } }
  { s with env := x, blk := if b.start.sysLow then { b with start := { b.start with waits := true } } else b.startBegins 1 }
def execColdStart (steward : Seat) (keyHash : BitVec 256) (s : State) : Host.Outcome State Fault Refusal :=
  .next (s.cold steward.val keyHash)

/-- A start that failed its self-test is left by PORESET_N alone (R453). -/
def Blk.dead (b : Blk) : Bool := b.start.poresetLow || (b.start.failed && b.start.failCode != 0x20)
/-- SYS_RESET_N falls, or a block reset acts as its fall: every domain but the keep domain resets at once (R343). -/
def Blk.sysReset (x : Env) (cause : W8) (b : Blk) : Blk :=
  let low : Blk := { b with start := { b.start with sysLow := true } }
  if b.dead || b.start.sysLow then low
  else if b.start.kind = 1 && !b.start.done then
    let c := b.warmReset x cause
    { c with start := { c.start with kind := 1 } }
  else b.warmReset x cause
/-- The pin counts as a block reset against BLK_RESET_LIMIT (R417). -/
def execSysResetN (s : State) : Host.Outcome State Fault Refusal :=
  s.onBlk fun x b =>
    let b := if b.start.done && !b.start.sysLow && !b.start.poresetLow then b.noteRung x { step := 3, target := 0, cause := 0xFF } else b
    b.sysReset x 0xFF
/-- SYS_RESET_N has been released for two REF_CLK edges: a warm start, or an unfinished cold start again from its first step,
with fabric time from 0 and the straps of PORESET_N (R344, R453). A cold start that waited for the release begins then, and fabric
time goes on from the release of PORESET_N (R345). -/
def State.sysRelease (s : State) : State :=
  let b := s.blk
  if !b.start.sysLow then s
  else if b.dead then { s with blk := { b with start := { b.start with sysLow := false } } }
  else if b.start.waits then { s with blk := ({ b with start := { b.start with waits := false } } : Blk).startBegins 1 }
  else if b.start.kind = 1 && !b.start.done then
    let x : Env := { strap := s.env.strap }
    { s with env := x, blk := b.coldAgain.startBegins 1 }
  else { s with blk := b.startBegins 2 }
def execWarmStart (s : State) : Host.Outcome State Fault Refusal := .next s.sysRelease

/-- The array tests of a cold start end: the links train and the patch phase begins. -/
def Blk.selfTest (fail : Option (BitVec 4)) (b : Blk) : Blk :=
  if !b.start.began || b.start.kind ≠ 1 || !b.start.hrpUp || b.start.arrays || b.start.failed then b else
  match fail with
  | some c => { b with start := { b.start with failed := true, failCode := BitVec.ofNat 8 c.toNat, failStep := 4 } }
  | none =>
    let b : Blk := { b with start := { b.start with arrays := true }, patch := { b.patch with ready := true } }
    (range 4).foldl (fun b p => b.setPort p { link := .training }) b
def execSelfTestComplete (fail : Option (BitVec 4)) (s : State) : Host.Outcome State Fault Refusal := s.onBlk fun _ b => b.selfTest fail
/-- After a warm start the warden core logs its restart and the reset. -/
def Blk.wardenUp (x : Env) (b : Blk) : Blk :=
  if !b.start.began || !b.start.hrpUp || b.start.failed || b.flt.warden ≠ .booting then b else
  let b : Blk := { b with flt := { b.flt with warden := .running }, start := { b.start with warden := true } }
  if b.start.kind = 1 then b else
  (b.log x { kind := 0x11, time := x.now, unit := 0x601 }).log x { kind := 0x0B, code := b.start.cause, time := x.now }
def execWardenBooted (s : State) : Host.Outcome State Fault Refusal := s.onBlk fun x b => b.wardenUp x
def PatchSt.final : PatchSt → Bool
  | .loaded | .none | .failed => true
  | _ => false
/-- Every step before the last has completed. -/
def Blk.stepsDone (b : Blk) : Bool :=
  b.start.began && b.start.hrpUp && !b.start.failed && !b.start.done && b.start.arrays && b.patch.st.final && b.patch.romDone
    && (if b.start.kind = 1 then (range 4).all fun p => (b.port p).link != .training else b.start.config && b.start.warden)
/-- DONE: the sequencers serve, a belay cause that was held takes effect, the engines' levels may rise. The start's length is counted in
REF edges of 20 ns, whatever fabric time was loaded meanwhile (R461). -/
def Blk.startOver (x : Env) (b : Blk) : Blk :=
  let b : Blk := { b with start := { b.start with done := true, us := BitVec.ofNat 32 (b.start.edges * 20 / 1000) }
                          patch := { b.patch with ready := false }
                          flt := { b.flt with active := b.flt.active.filter fun r => r.step != 3 } }
  let b := (range 4).foldl (fun b s => if (b.seq s).st = .loading then b.setSeq s { b.seq s with st := .idle } else b) b
  (b.setTargets).belayHeld x
def execStartDone (s : State) : Host.Outcome State Fault Refusal := s.onBlk fun x b => if b.stepsDone then b.startOver x else b
/-- BLK_START.STEP. -/
def Blk.startStep (b : Blk) : Nat :=
  let t := b.start
  if t.failed then t.failStep.toNat
  else if !t.began then 1
  else if !t.hrpUp then 2
  else if t.kind = 1 then
    if !t.arrays then 4
    else if (range 4).any fun p => (b.port p).link == .training then 5
    else if !(b.patch.st.final && b.patch.romDone) then 6
    else if !t.done then 7 else 8
  else
    if !t.arrays then 4
    else if !t.config then 5
    else if !t.warden then 6
    else if !(b.patch.st.final && b.patch.romDone) then 7
    else if !t.done then 8 else 9

/-- An acknowledgement of the SoC: it ends a sleep, or lets a start go on. -/
def execClockAcknowledge (ctl : Bool) (level : Bool) (s : State) : Host.Outcome State Fault Refusal :=
  s.onBlk fun x b =>
    if b.start.poresetLow then b.ackChange ctl level else
    let b := b.ackChange ctl level
    let b := if b.pwr.wakeFrom.isSome then b.raiseReqs else b
    let b := if b.pwr.wakeFrom.isSome && b.pwr.clocked then (b.awake x).belayHeld x else b
    b.startClocked

/-! ### Rungs carried out (R417 to R422) -/

/-- The block takes no further work; every command completes with ENG_RESET and PCYC_REQ rises (R421): those entered now, those in their
queues as their slots are parsed (log 146). The DETAIL of one that holds no engine is 0 (log 151). -/
def Blk.powerOff (x : Env) (r : RungReq) (b : Blk) : Blk :=
  let b := (b.beginRung r).rungLog x 0x0C r.cause 0xFFF 0 []
  let b : Blk := { b with flt := { b.flt with pcycReq := true } }
  let js := (b.sb.filter fun e => e.launch?.isSome).map (·.job) ++ (b.stand.filter (·.running.isSome)).map (·.job)
  let b := js.foldl (fun b j => b.endJob j (b.resetStat j (range 64) none) .retire) b
  let b := (range 64).foldl (fun b e => if (b.engine e).job.isSome || !(b.engine e).deque.isEmpty || (b.engine e).save.isSome
    then (b.resetEngine x e Code.engReset).modEng e fun v => { v with save := none, deque := [] } else b) b
  let b := js.foldl (fun b j => b.finishJob j) b
  let b := (b.sb.filter fun e => e.launch?.isNone).foldl (fun b e => b.closeEntry (Stat.err Code.engReset 0) e.n e.q) b
  (b.stand.map fun s => (s.q, s.n)).foldl (fun b y => b.unbindSoon y.1 y.2) b
/-- A rung is carried out. -/
def Blk.carryOut (x : Env) (r : RungReq) (b : Blk) : Blk :=
  match r.step with
  | 1 => b.engineReset x r
  | 2 => b.partitionReset x r
  | 3 => ((b.beginRung r).noteRung x r).sysReset x r.cause
  | _ => b.powerOff x r
/-- The warden core carries out the rung it has ordered. -/
def Blk.wardenRung (x : Env) (r : RungReq) (b : Blk) : Blk :=
  match b.orderedRung r with
  | some d => if d.cause = r.cause && b.rungMayStart d then b.carryOut x d else b
  | none => b
/-- A rung row: by the warden core, or the steward's write of FLT_RECOVER, which the warden core serves later. -/
def State.rungRow (by' : OrderBy) (r : Rung) (s : State) : Host.Outcome State Fault Refusal :=
  match by' with
  | .warden c => s.onWork fun x b => b.wardenRung x (rungReq r c)
  | .host a =>
    let w := recoverWord (rungReq r 0)
    .next (s.access a 0x7008 (some w) fun s =>
      { s with blk := match judgeSteward s.env a with
          | some k => (s.blk.refuse a 0x7008 true k).respond a.seat true 0
          | none =>
            if a.be = 15 then s.blk.toWarden { acc := a, addr := 0x7008, wdata := some w }
            else (s.blk.refuse a 0x7008 true 3).respond a.seat true 0 })
def execEngineReset (by' : OrderBy) (e : EngineId) (s : State) : Host.Outcome State Fault Refusal := s.rungRow by' (.engine e)
def execPartitionReset (by' : OrderBy) (p : Fin 16) (s : State) : Host.Outcome State Fault Refusal := s.rungRow by' (.partition p)
def execBlockReset (by' : OrderBy) (s : State) : Host.Outcome State Fault Refusal := s.rungRow by' .block
def execPowerCycle (by' : OrderBy) (s : State) : Host.Outcome State Fault Refusal := s.rungRow by' .power
/-- PCYC_ACK did not come within 1 ms. -/
def execPcycAckTimeout (s : State) : Host.Outcome State Fault Refusal :=
  s.onBlk fun x b =>
    if !b.flt.pcycReq || b.start.poresetLow then b else
    let b : Blk := { b with flt := { b.flt with irqNoack := true } }
    b.log x { kind := 0x0C, code := 0x80, time := x.now }

end Sys2Proof.Machine
end

