-- ==== Sys2Proof/Machine/Patch.lean ====
section
/-! DEFINITION. The patch unit (14 R374 to R381, 13 R352 to R354). -/

namespace Sys2Proof.Machine

def Blk.modPatch (f : Patch → Patch) (b : Blk) : Blk := { b with patch := f b.patch }
/-- A check failed: the load stops and the ROM defaults alone are in force. -/
def Patch.fail (p : Patch) (code : W8) : Patch :=
  { p with st := .failed, code := code, ready := false, keyReq := false, key := [], plain := [], checked := false, keepValid := false, bytes := []
           patStrand := [], patYarn := [], strands := 0, yarns := 0 }
def Patch.at32 (p : Patch) (o : Nat) : Nat := ofBytes ((p.bytes.drop o).take 4)
def Patch.cut' (p : Patch) (o n : Nat) : List W8 := (p.bytes.drop o).take n
def Patch.ctLen (p : Patch) : Nat := p.at32 0x1C
/-- The checks of the first 64 bytes, in code order. -/
def Patch.headerCode (p : Patch) : W8 :=
  if p.at32 0 ≠ 0x4B535150 ∨ p.at32 4 % 65536 ≠ 1 then 1
  else if p.at32 4 / 65536 ≠ 0x1001 then 2
  else if (p.cut' 0x20 0x20).any (· != 0) then 3
  else if p.at32 8 ≠ 208 + p.ctLen ∨ 65536 < p.at32 8 ∨ p.ctLen % 8 ≠ 0 ∨ p.ctLen < 8 then 4 else 0
/-- A beat: the header is checked at 64 bytes; a null patch is one last beat of 0. -/
def Patch.beat (p : Patch) (d : W64) (last : Bool) : Patch :=
  if !p.ready || !(p.st == .waiting || p.st == .receiving) || p.cut then p else
  if p.st = .waiting ∧ last ∧ d = 0 then { p with st := .none, len := 8, ready := false, keepValid := false } else
  let p := { p with st := .receiving, len := p.len + 8, bytes := p.bytes ++ toBytes 8 d.toNat }
  let p := if p.len = 64 then { p with version := BitVec.ofNat 32 (p.at32 0xC) } else p
  let code := if p.len = 64 then p.headerCode else 0
  if code ≠ 0 then p.fail code
  else if last then { p with st := .verifying, ready := p.ready && p.len != 65536 }
  else if p.len = 65536 then { p with st := .verifying, cut := true, ready := false } else p
def execPatchBeat (d : W64) (last : Bool) (s : State) : Host.Outcome State Fault Refusal :=
  s.onBlk fun _ b => b.modPatch fun p => p.beat d last
/-- Digest byte 4i lies in bits [7:0] of register i: the digest as a little-endian number of its bytes. -/
def digestReg (n : Nat) : BitVec 256 := BitVec.ofNat 256 (ofBytes (toBytesBE 32 n))
/-- The digest; then the length, the warm match, the key. -/
def Patch.digestDone (p : Patch) (warm : Bool) : Patch :=
  if p.st ≠ .verifying ∨ p.hashed then p else
  let p := { p with hashed := true, digest := digestReg (sha256 p.bytes) }
  if p.cut ∨ p.len < 64 ∨ p.at32 8 ≠ p.len then p.fail 4
  else if warm ∧ p.keepValid ∧ p.digest = p.keepDigest then { p with warmMatch := true, st := .decrypting, keyReq := true }
  else p
def execPatchDigestDone (s : State) : Host.Outcome State Fault Refusal :=
  s.onBlk fun _ b => b.modPatch fun p => p.digestDone (b.start.kind = 2)
def Patch.keyBad (p : Patch) (keyHash : BitVec 256) : Bool :=
  keyHash == 0 || keyHash == BitVec.allOnes 256 || sha256 (p.cut' 0x40 64) != keyHash.toNat
    || !onCurve (ofBytesBE (p.cut' 0x40 32)) (ofBytesBE (p.cut' 0x60 32))
def Patch.signed (p : Patch) : Bool :=
  let m := 0x90 + p.ctLen
  ecdsaOk (ofBytesBE (p.cut' 0x40 32)) (ofBytesBE (p.cut' 0x60 32)) (sha256 (p.bytes.take m)) (ofBytesBE (p.cut' m 32))
    (ofBytesBE (p.cut' (m + 32) 32))
def Patch.verified (p : Patch) (keyHash : BitVec 256) : Patch :=
  if p.st ≠ .verifying ∨ !p.hashed then p
  else if p.keyBad keyHash then p.fail 5
  else if !p.signed then p.fail 6
  else { p with st := .decrypting, keyReq := true }
def execSignatureVerified (s : State) : Host.Outcome State Fault Refusal :=
  s.onBlk fun x b => b.modPatch fun p => p.verified x.strap.keyHash
def Patch.keyIn (p : Patch) (d : W32) : Patch :=
  if !p.keyReq then p else
  let k := p.key ++ [d]
  { p with key := k, keyReq := decide (k.length < 8) }
def execKeyBeat (d : W32) (s : State) : Host.Outcome State Fault Refusal := s.onBlk fun _ b => b.modPatch fun p => p.keyIn d

/-! ### Records (R377) -/

/-- What the records write: strands and yarns; none: a record is bad. -/
abbrev Words := PMap W32 × PMap (BitVec 192)
def putStrands : Nat → Nat → List W8 → PMap W32 → Option (PMap W32)
  | 0, _, _, m => some m
  | n + 1, a, l, m =>
    if (PMap.find a m).isSome then none else putStrands n (a + 1) (l.drop 4) (PMap.put a (BitVec.ofNat 32 (ofBytes (l.take 4))) m)
def putYarns : Nat → Nat → List W8 → PMap (BitVec 192) → Option (PMap (BitVec 192))
  | 0, _, _, m => some m
  | n + 1, a, l, m =>
    if (PMap.find a m).isSome then none else putYarns n (a + 1) (l.drop 24) (PMap.put a (BitVec.ofNat 192 (ofBytes (l.take 24))) m)
def readRecords : Nat → List W8 → Words → Option Words
  | 0, _, _ => none
  | fuel + 1, l, w =>
    if l.length < 8 then none else
    let h := ofBytes (l.take 8)
    let kind := h % 4
    let first := h / 2 ^ 16 % 2 ^ 12
    let count := h / 2 ^ 32
    let body := l.drop 8
    if h / 4 % 2 ^ 14 ≠ 0 ∨ h / 2 ^ 28 % 16 ≠ 0 then none
    else if kind = 2 then (if body = [] ∧ count = 0 then some w else none)
    else if kind = 3 ∨ count = 0 then none
    else if kind = 0 then
      let len := 8 * ((4 * count + 7) / 8)
      if 0xFFE < first + count - 1 ∨ body.length < len ∨ ((body.take len).drop (4 * count)).any (· != 0) then none else
      match putStrands count first body w.1 with
      | some m => readRecords fuel (body.drop len) (m, w.2)
      | none => none
    else if first = 0 ∨ 0x3FF < first + count - 1 ∨ body.length < 24 * count then none else
      match putYarns count first body w.2 with
      | some m => readRecords fuel (body.drop (24 * count)) (w.1, m)
      | none => none
def Patch.records (p : Patch) : Option Words := readRecords 8192 p.plain ([], [])
/-- Decryption ends: the tag, then the records; the key is cleared at once. -/
def Patch.decrypted (p : Patch) : Patch :=
  if p.st ≠ .decrypting ∨ p.keyReq ∨ p.key.length ≠ 8 then p else
  let key := p.key.flatMap fun w => toBytes 4 w.toNat
  let m := p.ctLen
  let y := gcmOpen key (p.cut' 0x10 12) (p.cut' 0 0x80) (p.cut' 0x80 m) (p.cut' (0x80 + m) 16)
  if !y.2 then p.fail 7 else
  let p := { p with key := [], plain := y.1 }
  if p.records.isNone then p.fail 8 else { p with checked := true }
def execDecryptDone (s : State) : Host.Outcome State Fault Refusal := s.onBlk fun _ b => b.modPatch Patch.decrypted
/-- The ROM load runs from the start of the patch phase. -/
def execRomLoadDone (s : State) : Host.Outcome State Fault Refusal :=
  s.onBlk fun _ b => if b.start.arrays && b.start.began && !b.start.failed && !b.start.done then b.modPatch fun p => { p with romDone := true } else b
def Patch.apply (p : Patch) : Patch :=
  if p.st ≠ .decrypting ∨ !p.checked ∨ !p.romDone then p else
  match p.records with
  | none => p
  | some w => { p with patStrand := w.1, patYarn := w.2, strands := w.1.length, yarns := w.2.length, plain := [], bytes := []
                       checked := false, st := .loaded, ready := false, keepDigest := p.digest, keepValid := true }
def execPatchApplied (s : State) : Host.Outcome State Fault Refusal := s.onBlk fun _ b => b.modPatch Patch.apply

end Sys2Proof.Machine
end

