-- ==== Sys2Proof/Machine/Window.lean ====
section
/-! DEFINITION. The host memory window (10 R256 to R258, R271, R272): aperture accesses and atomics as they leave and as
their results come back. The response on the host register port is Registers'. -/

namespace Sys2Proof.Machine

def Blk.modSeat (s : Nat) (f : SeatRegs → SeatRegs) (b : Blk) : Blk := b.setSeat s (f (b.seat s))
/-- MEM_WIN_ERR records an error. -/
def SeatRegs.winErr (v : SeatRegs) (code : W8) (resp : BitVec 2) : SeatRegs := { v with winCode := code, winResp := resp, winValid := true }
/-- SoC address of word `o` of a seat's aperture. -/
def SeatRegs.winAddr (v : SeatRegs) (o : BitVec 13) : Nat := v.winBase.toNat + 4 * o.toNat
def laneMask (be : BitVec 4) : Nat := be.toNat
/-- An aperture read or write leaves as RdOnce or as a masked Wr. -/
def Blk.aperRead (s : Seat) (o : BitVec 13) (b : Blk) : Blk :=
  let v := b.seat s
  (b.setSeat s { v with unfin := some (.aperRead o) }).send (.rdonce (.window s) (lineOf (v.winAddr o)))
def Blk.aperWrite (s : Seat) (o : BitVec 13) (d : W32) (be : BitVec 4) (b : Blk) : Blk :=
  let v := b.seat s
  let a := v.winAddr o
  let lo := a % 64
  (b.setSeat s { v with unfin := some (.aperWrite o) }).send
    (.wr (.window s) (lineOf a) (BitVec.ofNat 512 (d.toNat * 2 ^ (8 * lo))) (BitVec.ofNat 64 (laneMask be * 2 ^ lo)))
/-- The word a read's line brings. -/
def aperWord (v : SeatRegs) (o : BitVec 13) (d : Line) : W32 := BitVec.ofNat 32 (fld d (8 * (v.winAddr o % 64)) 32)

def atomOpOf (n : Nat) : Option AtomOp :=
  match n with
  | 1 => some .add
  | 2 => some .swap
  | 3 => some .cas
  | 4 => some .umax
  | 5 => some .and
  | 6 => some .or
  | _ => none
def atomOpNum : AtomOp → Nat
  | .add => 1
  | .swap => 2
  | .cas => 3
  | .umax => 4
  | .and => 5
  | .or => 6
/-- An atomic goes near or far. -/
def Blk.goesNear (b : Blk) (line : Nat) : Bool :=
  b.mem.atomMode == 1 || (b.mem.atomMode == 0 && decide (2 ≤ (SMap.get 2 b.mem.pred (pidx line)).toNat))
/-- A far atomic on a line that the window line buffer holds in M. -/
def Blk.performFar (t : AtomReq) (line : Nat) (c : Copy) (b : Blk) : Blk :=
  let y := atomApply t c.data
  let b := b.putCopy 68 line { c with data := y.2, st := .m, who := t.seat.val }
  let b : Blk := { b with mem := { b.mem with cohFar := satInc b.mem.cohFar, far := b.mem.far.erase t } }
  b.modSeat t.seat fun v => { v with atomRes := y.1 }
/-- What a write of MEM_ATOM_GO does: refused, sent, or performed at once (true). -/
def Blk.atomGo (s : Seat) (w : W32) (b : Blk) : Blk × Bool :=
  let v := b.seat s
  let wide := bit w 3
  match atomOpOf (fld w 0 3) with
  | none => (b.setSeat s (v.winErr 3 v.winResp), true)
  | some op =>
    if fld w 4 28 ≠ 0 then (b.setSeat s (v.winErr 3 v.winResp), true)
    else if v.atomAddr.toNat % (if wide then 8 else 4) ≠ 0 then (b.setSeat s (v.winErr 2 v.winResp), true)
    else
      let t : AtomReq := { seat := s, op := op, wide := wide, off := BitVec.ofNat 6 (v.atomAddr.toNat % 64), opnd := v.atomOpnd, cmp := v.atomCmp }
      let line := v.atomAddr.toNat / 64
      let sent := b.setSeat s { v with unfin := some (.atomic t v.atomAddr) }
      if b.goesNear line then (sent.send (.atom (lineNo line) t), false) else
      match b.copy 68 line with
      | some c =>
        if c.st = .m then ((b.performFar t line c).predict line false, true)
        else (({ sent with mem := { sent.mem with far := sent.mem.far ++ [t] } } : Blk).farPump, false)
      | none => (({ sent with mem := { sent.mem with far := sent.mem.far ++ [t] } } : Blk).farPump, false)
/-- Far atomics that wait for a line the buffer has just gained in M, in the order of their writes; seats served. -/
def Blk.farAt (line : Nat) (b : Blk) : Blk × List Seat :=
  (b.mem.far.filter fun t => b.atomLine t.seat == some line).foldl (fun (y : Blk × List Seat) t =>
    match y.1.copy 68 line with
    | some c =>
      let b := y.1.performFar t line c
      (if y.2.isEmpty then b else b.predict line false, y.2 ++ [t.seat])
    | none => y) (b, [])
/-- MEM_WIN_STATUS.DIRTY of a seat. -/
def Blk.winDirty (b : Blk) (s : Nat) : Bool := (b.mem.copies 68).any fun c => (c.2.st == .m || c.2.st == .o) && c.2.who == s

end Sys2Proof.Machine
end

