-- ==== Sys2Proof/Machine/RegRead.lean ====
section
/-! DEFINITION. What every register reads as (12 R302 to R312, R315, R320 and the register tables of the other chapters). Functions
take a word offset in their window or block and give the value as a number; an offset that no table lists reads 0 (R304). -/

namespace Sys2Proof.Machine

def lo32 {w : Nat} (v : BitVec w) : Nat := v.toNat % 2 ^ 32
def hi32 {w : Nat} (v : BitVec w) : Nat := v.toNat / 2 ^ 32 % 2 ^ 32
/-- Word i of a value laid out little-endian. -/
def wordAt {w : Nat} (v : BitVec w) (i : Nat) : Nat := fld v (32 * i) 32

/-! ### Interrupt summaries (R311, R312) -/

def ErrReg.raises (r : ErrReg) : Bool := r.valid && r.irqEn
def Blk.seatIrq (b : Blk) (s : Nat) : Nat :=
  let l := b.seatLog s
  b2n (b.qs.any fun p => p.2.err.raises && b.wv.cur.owner p.1 == some s) + 2 * b2n (b.tieRegs s).err.raises
    + 4 * b2n ((b.seat s).winValid && (b.seat s).winIrqEn) + 8 * b2n (l.irqLog && l.irqEn)
def Blk.irqSteward (b : Blk) : Nat :=
  b2n (b.host.acc.valid && b.host.acc.irqEn) + 2 * b2n ((range 4).any fun n => (b.port n).errValid && (b.port n).errIrqEn)
    + 4 * b2n ((range 8).any fun p => (b.intake p).errValid && (b.intake p).errIrqEn) + 8 * b2n (b.tieRegs 16).err.raises
    + 16 * b2n (((b.flt.irqLog || b.flt.irqWait || b.flt.irqNoack) && b.flt.irqEn) || b.flt.warden == .stopped)
    + 32 * b2n (b.dbg.irqEn && b.dbg.event != 0)

/-! ### Identity, access errors, features (R2, R310, R312, R320, R461) -/

def readCaps (i : Nat) : Nat :=
  match i with
  | 0 => 0x03F + 0xF * 2 ^ 12 + 0xF * 2 ^ 16 + 7 * 2 ^ 20 + 3 * 2 ^ 23
  | 1 => 0xFFFF
  | 2 => 0x3FF + 0x7FF * 2 ^ 16
  | _ => 0x1FFF
def blkVersion : Nat := 0x01100000
def AccessErr.word (r : AccessErr) : Nat :=
  r.seat.toNat + 16 * b2n r.priv + 32 * b2n r.write + 64 * r.kind.toNat + 256 * r.count.toNat + 2 ^ 30 * b2n r.irqEn + 2 ^ 31 * b2n r.valid
def WardenSt.code : WardenSt → Nat
  | .booting => 0
  | .running => 1
  | .stopped => 2
def Blk.startWord (b : Blk) : Nat :=
  b.start.kind.toNat + 4 * b.startStep + 64 * b2n b.start.done + 128 * b2n b.start.failed + 256 * b.start.failCode.toNat
    + 65536 * b.start.warmCount.toNat
/-- Features offered (R321). -/
def featOffer : BitVec 256 := 0x1F
def readBlk (x : Env) (b : Blk) (o : Nat) : Nat :=
  if o = 0 then blkVersion
  else if o = 4 then x.steward
  else if o < 0x18 then readCaps ((o - 8) / 4)
  else if o = 0x18 then b.host.acc.word
  else if o = 0x1C then b.host.acc.addr.toNat
  else if o = 0x20 then b.flt.warden.code
  else if o = 0x24 then b.irqSteward
  else if o = 0x28 then b.startWord
  else if o = 0x2C then b.start.us.toNat
  else if 0x40 ≤ o ∧ o < 0x60 then wordAt featOffer ((o - 0x40) / 4)
  else if 0x60 ≤ o ∧ o < 0x80 then wordAt b.feat.accept ((o - 0x60) / 4)
  else if o = 0x84 then b2n b.feat.committed + 2 * b2n b.feat.retained
  else if 0x100 ≤ o ∧ o < 0x140 then (b.seat ((o - 0x100) / 4)).expert.toNat
  else 0

/-! ### Weave (R54 to R57) -/

def WvState.code : WvState → Nat
  | .empty => 0
  | .fetching => 1
  | .loaded => 2
  | .checking => 3
  | .checked => 4
  | .waiting => 5
  | .pouring => 6
  | .done => 7
  | .failed => 8
  | .abandoned => 9
def readWv (w : WeaveUnit) (o : Nat) : Nat :=
  match o / 4 with
  | 0 => 16 * b2n w.quiet
  | 1 => w.st.code + 16 * b2n w.wrIgnored
  | 2 => w.epoch.toNat
  | 3 => w.errCode.toNat
  | 4 => w.errOff.toNat
  | 5 => lo32 w.src
  | 6 => hi32 w.src
  | 7 => w.srcLen.toNat
  | 8 => w.staleCnt.toNat
  | 9 => lo32 w.pourTime
  | 10 => hi32 w.pourTime
  | _ => 0

/-! ### Knots, jobs, dispatcher (R177, R224, R226, R245, R246) -/

def ErrReg.word (r : ErrReg) : Nat := r.code.toNat + 256 * r.count.toNat + 2 ^ 31 * b2n r.valid
def readTie (r : TieRegs) (i : Nat) : Nat :=
  match i with
  | 0 => lo32 r.val
  | 1 => hi32 r.val
  | 3 => r.err.word + 2 ^ 30 * b2n r.err.irqEn
  | _ => 0
def readKnt (b : Blk) (o : Nat) : Nat :=
  if o < 0x10 then readTie (b.tieRegs 16) (o / 4)
  else if o = 0x10 then b.kn.waiters.length + 65536 * b.kn.peak
  else if o = 0x14 then b.kn.pauses.toNat else 0
/-- Job counters: a word of the four. -/
def readJobs (v : SeatRegs) (i : Nat) : Nat :=
  match i with
  | 0 => lo32 v.launched
  | 2 => lo32 v.done
  | _ => 0
/-- Queue that a selector shows: any in the steward window (16), an owned one in a seat's. -/
def Blk.slowQueue (b : Blk) (win : Nat) : Option Nat :=
  let q := SMap.get 0 b.host.slowSel win
  if win = 16 || b.wv.cur.owner q == some win then some q else none
def readSlow (b : Blk) (win o : Nat) : Nat :=
  if o = 0 then SMap.get 0 b.host.slowSel win else
  match b.slowQueue win with
  | none => 0
  | some q =>
    let u := b.que q
    match o / 4 with
    | 1 => u.ratio.toNat + 65536 * u.worst.toNat
    | 2 => u.worstEng.toNat
    | 3 => u.slowSeq.toNat
    | _ => 0
def readDsp (b : Blk) (o : Nat) : Nat :=
  if o < 0x40 then (b.partCtl (o / 4)).quantum.toNat + 65536 * b2n (b.partCtl (o / 4)).noSteal
  else if o = 0x40 then b.dsp.engLoad.toNat + 65536 * b.dsp.portLoad.toNat
  else if 0x100 ≤ o ∧ o < 0x124 then readSlow b 16 (o - 0x100) else 0

/-! ### Memory, coherence, intake (R282, R283, R300) -/

def LinkSt.code : LinkSt → Nat
  | .down => 0
  | .training => 1
  | .up => 2
def readPort (v : MPort) (o : Nat) : Nat :=
  match o / 4 with
  | 0 => v.link.code + 256 * v.reqCred.toNat + 65536 * v.wdCred.toNat
  | 1 => v.errResp.toNat + 4 * v.errSrc.toNat + 32 * v.errSeat.toNat + 512 * b2n v.errLink + 2 ^ 15 * b2n v.errIrqEn + 2 ^ 16 * v.errCount.toNat
    + 2 ^ 31 * b2n v.errValid
  | 2 => lo32 v.errAddr
  | 3 => hi32 v.errAddr
  | 4 => v.crcErr.toNat
  | 5 => v.replay.toNat
  | 6 => v.inUse + 65536 * v.peak
  | _ => 0
def readMem (b : Blk) (o : Nat) : Nat :=
  if o < 0x100 then readPort (b.port (o / 0x40)) (o % 0x40) else
  match (o - 0x100) / 4 with
  | 0 => b.mem.atomMode.toNat
  | 1 => b.mem.cohFwd.toNat
  | 2 => b.mem.cohHold.toNat
  | 3 => b.mem.cohRecall.toNat
  | 4 => b.mem.cohNear.toNat
  | 5 => b.mem.cohFar.toNat
  | _ => 0
def Blk.intakeState (b : Blk) (p : Nat) : Nat :=
  if (b.binding p).isNone then 0 else
  match (b.intake p).item with
  | none => 1
  | some i => if i.phase = .waiting then 3 else 2
def readIk (b : Blk) (p o : Nat) : Nat :=
  let v := b.intake p
  match o / 4 with
  | 0 => v.slotsLog2.toNat + 65536 * v.dmgMax.toNat
  | 1 => b.intakeState p + 65536 * ((v.fill + 31) / 32)
  | 2 => v.seq.toNat
  | 3 => v.dropStale.toNat
  | 4 => v.dropUnb.toNat
  | 5 => v.reject.toNat
  | 6 => v.conceal.toNat
  | 7 => v.discPour.toNat
  | 8 => v.errCode.toNat + 256 * v.errOff.toNat + 2 ^ 24 * v.errCount.toNat + 2 ^ 30 * b2n v.errIrqEn + 2 ^ 31 * b2n v.errValid
  | 9 => v.errSeq.toNat
  | 10 => v.lastAge.toNat
  | _ => 0

/-! ### Logs and recovery, as the warden core answers (R404, R425, R426) -/

def LogEntry.word (e : LogEntry) (seqn : W32) (i : Nat) : Nat :=
  match i with
  | 0 => seqn.toNat
  | 1 => e.kind.toNat + 256 * e.code.toNat + 65536 * (match e.seat with
      | some s => s.toNat + 16
      | none => 0)
  | 2 => lo32 e.time
  | 3 => hi32 e.time
  | 4 => e.unit.toNat + 2 ^ 12 * e.part.toNat + 2 ^ 16 * (match e.queue with
      | some q => q.toNat + 2 ^ 14
      | none => 0)
  | 5 => e.count.toNat
  | 6 => lo32 e.detail
  | _ => hi32 e.detail
def logWord (l : List (W32 × LogEntry)) (sel : W32) (i : Nat) : Nat :=
  match l.find? fun p => p.1 == sel with
  | some p => p.2.word p.1 i
  | none => 0
def Faults.twinLast (f : Faults) : TwinLast := SMap.get {} f.twins f.twinSel.toNat
def Faults.step (f : Faults) : Nat := ((f.active.map (·.step)).max?).getD 0
def readFlt (f : Faults) (o : Nat) : Nat :=
  if o = 0 then f.auto.toNat + 256 * f.engLimit.toNat + 4096 * f.blkLimit.toNat
  else if o = 4 then f.step + (match f.pending.head? with
      | some r => 8 + 16 * r.step + 256 * r.target
      | none => 0)
  else if o = 0xC then b2n f.irqLog + 2 * b2n f.irqWait + 4 * b2n f.irqNoack + 65536 * b2n f.irqEn
  else if o = 0x10 then f.logNext.toNat
  else if o = 0x14 then f.logSel.toNat
  else if o = 0x18 then f.dropped.toNat
  else if 0x20 ≤ o ∧ o < 0x40 then logWord f.log f.logSel ((o - 0x20) / 4)
  else if 0x100 ≤ o ∧ o < 0x140 then SMap.get 2 f.stallWin ((o - 0x100) / 4)
  else if 0x200 ≤ o ∧ o < 0x240 then (SMap.get 0 f.eccCe ((o - 0x200) / 4)).toNat
  else if 0x240 ≤ o ∧ o < 0x280 then (SMap.get 0 f.eccUe ((o - 0x240) / 4)).toNat
  else if o = 0x280 then f.linkReplay.toNat
  else if o = 0x284 then f.linkCrc.toNat
  else if o = 0x300 then f.twinSel.toNat
  else if o = 0x304 then f.twinLast.last.toNat
  else if o = 0x320 then f.twinRec.toNat
  else if o = 0x324 then f.twinUnres.toNat
  else 0
def readSeatLog (l : SeatLog) (o : Nat) : Nat :=
  if o = 0 then l.next.toNat
  else if o = 4 then l.sel.toNat
  else if o = 8 then b2n l.irqLog + 65536 * b2n l.irqEn
  else if 0x20 ≤ o ∧ o < 0x40 then logWord l.entries l.sel ((o - 0x20) / 4) else 0

/-! ### Sequencers, patch, power, time (R384, R385, R402, R450) -/

def SeqState.code : SeqState → Nat
  | .idle => 0
  | .running => 1
  | .trapped => 2
  | .broke => 3
  | .halted => 4
  | .loading => 5
def readSeqRegs (v : Seq) (o : Nat) : Nat :=
  match o / 4 with
  | 0 => v.st.code + 65536 * v.queue
  | 1 => v.sptr.toNat
  | 2 => v.trapCause.toNat + 65536 * v.trapCount.toNat
  | 3 => v.haltCode.toNat + 256 * v.haltSptr.toNat
  | 4 => v.guard.toNat
  | 5 => v.ecc.toNat
  | 6 => v.slots.toNat
  | _ => 0
def PatchSt.code : PatchSt → Nat
  | .waiting => 0
  | .receiving => 1
  | .verifying => 2
  | .decrypting => 3
  | .loaded => 4
  | .none => 5
  | .failed => 6
def readPatch (p : Patch) (o : Nat) : Nat :=
  match o / 4 with
  | 0 => p.st.code + 8 * b2n p.warmMatch + 256 * p.code.toNat
  | 1 => p.len
  | 2 => p.version.toNat
  | 3 => p.strands + 65536 * p.yarns
  | k => if k < 12 then wordAt p.digest (k - 4) else 0
def readSeqWin (b : Blk) (o : Nat) : Nat :=
  if o < 0x400 then readSeqRegs (b.seq (o / 0x100)) (o % 0x100)
  else if o < 0x430 then readPatch b.patch (o - 0x400) else 0
def ClockSt.code : ClockSt → Nat
  | .full => 0
  | .stretch => 1
  | .rampBack => 2
def readPwr (b : Blk) (o : Nat) : Nat :=
  let p := b.pwr
  match o / 4 with
  | 0 => p.sleepDelay.toNat
  | 1 => p.clock.code + 4 * b2n p.under + 256 * p.budget + 65536 * b.floorSteps
  | 2 => b2n p.evDroop + 2 * b2n p.evUnder
  | 3 => p.droopCount.toNat
  | 4 => lo32 p.droopTime
  | 5 => hi32 p.droopTime
  | 6 => p.droopNs.toNat
  | 7 => p.sleepCount.toNat
  | 8 => p.wakeNs.toNat
  | 9 => p.paced.toNat
  | 10 => p.engSel.toNat
  | 11 =>
    let e := p.engSel.toNat
    let v := b.engine e
    v.level + 32 * (b.setTargets.engine e).target + 1024 * b2n (v.level == 0) + 2048 * b2n (decide (0 < v.level) && !b.working e)
  | _ => 0
def TimSt.code : TimSt → Nat
  | .free => 0
  | .acquiring => 1
  | .locked => 2
  | .holdover => 3
def readTim (t : Time) (o : Nat) : Nat :=
  match o / 4 with
  | 0 => b2n t.disc
  | 1 => t.st.code + 4 * b2n t.stepped
  | 4 => lo32 t.setVal
  | 5 => hi32 t.setVal
  | 6 => lo32 t.pps
  | 7 => hi32 t.pps
  | 8 => t.err.toNat
  | 9 => t.trim.toNat
  | 10 => t.stepNs.toNat
  | 11 => t.ariPs.toNat
  | _ => 0

/-! ### Debug and trace (R431 to R439, R447, R448, R451) -/

def BelaySt.code : BelaySt → Nat
  | .running => 0
  | .stopping => 1
  | .stopped => 2
def TangleSt.code : TangleSt → Nat
  | .idle => 0
  | .building => 1
  | .done => 2
  | .failed => 3
def readBreak (v : BreakUnit) (o : Nat) : Nat :=
  match o / 4 with
  | 0 => v.word.toNat
  | 1 => v.value.toNat
  | 2 => v.mask.toNat
  | _ => 0
def readTrigger (t : Trigger) (o : Nat) : Nat :=
  match o / 4 with
  | 0 => b2n t.arm + 2 * b2n t.src + 4 * b2n t.action + 8 * b2n t.hit + 2 ^ 12 * t.engine.toNat + 2 ^ 24 * t.index.toNat
  | 2 => lo32 t.thr
  | 3 => hi32 t.thr
  | _ => 0
def readInjector (v : Injector) (o : Nat) : Nat :=
  match o / 4 with
  | 0 => b2n v.arm + 2 * b2n v.mode + 4 * v.action.toNat + 16 * b2n v.replays + 32 * b2n v.dir + 2 ^ 16 * v.link.toNat
  | 1 => v.rate.toNat + 2 ^ 16 * v.bit.toNat
  | 2 => v.seed.toNat
  | _ => v.count.toNat
def Snapshot.word (s : Snapshot) (q i : Nat) : Nat := (((PMap.find q s.qs).bind fun v => v.words[i]?).map BitVec.toNat).getD 0
def readDbg (b : Blk) (o : Nat) : Nat :=
  let d := b.dbg
  if o = 0 then b2n d.belayInEn + 2 * b2n d.injEn
  else if o = 4 then 4 * d.belay.code + 16 * d.cause.toNat
  else if o = 8 then lo32 d.belayTime
  else if o = 0xC then hi32 d.belayTime
  else if o = 0x10 then d.event.toNat + 65536 * b2n d.irqEn
  else if o = 0x14 then d.seatReq.toNat
  else if 0x100 ≤ o ∧ o < 0x180 then readBreak (b.breakUnit ((o - 0x100) / 16)) (o % 16)
  else if 0x200 ≤ o ∧ o < 0x280 then readTrigger (SMap.get {} d.trigs ((o - 0x200) / 16)) (o % 16)
  else if o = 0x300 then 2 * b2n d.snap.valid
  else if o = 0x304 then lo32 d.snap.time
  else if o = 0x308 then hi32 d.snap.time
  else if o = 0x30C then d.snap.sel.toNat
  else if 0x310 ≤ o ∧ o < 0x328 then d.snap.word d.snap.sel.toNat ((o - 0x310) / 4)
  else if o = 0x328 then d.snap.pool.toNat
  else if o = 0x400 then lo32 d.tangle.base
  else if o = 0x404 then hi32 d.tangle.base
  else if o = 0x408 then d.tangle.size.toNat
  else if o = 0x40C then 2 * b2n d.tangle.all + 4 * d.tangle.st.code
  else if 0x500 ≤ o ∧ o < 0x540 then readInjector (b.injector ((o - 0x500) / 16)) (o % 16)
  else 0
/-- BASE_LO, BASE_HI, SIZE, WR, RD of a ring. -/
def readRing (v : TraceRing) (i : Nat) : Nat :=
  match i with
  | 0 => lo32 v.base
  | 1 => hi32 v.base
  | 2 => v.size.toNat
  | 3 => v.wr.toNat
  | 4 => v.rd.toNat
  | _ => 0
def readTrc (b : Blk) (o : Nat) : Nat :=
  if o < 0x400 then b.blkSel (o / 4)
  else if o = 0x400 then b.trc.ctl.toNat
  else if o = 0x404 then b.trc.interval.toNat
  else if o = 0x408 then b.trc.caddy.units
  else if o = 0x40C then b.trc.caddy.lost.toNat
  else if o = 0x410 then b.trc.cntSel.toNat
  else if 0x420 ≤ o ∧ o < 0x434 then readRing (b.ring 16) ((o - 0x420) / 4)
  else if o = 0x434 then b2n (b.ring 16).en + 2 * b2n (b.ring 16).wrap + 4 * b2n (b.ring 16).err
  else 0
def readTrcEng (b : Blk) (e o : Nat) : Nat :=
  let t := (b.engine e).trace
  if o < 0x100 then b.engSel e (o / 4)
  else if o = 0x100 then t.ctl.toNat
  else if o = 0x104 then t.caddy.units
  else if o = 0x108 then t.caddy.lost.toNat
  else if o = 0x10C then t.owner.toNat
  else 0

/-! ### Engines (R107) -/

def EngState.code : EngState → Nat
  | .idle => 0
  | .running => 1
  | .frozen => 2
  | .saving => 3
  | .restoring => 4
  | .standing => 5
  | .resetting => 6
  | .clearing => 7
def BankSt.code : BankSt → Nat
  | .empty => 0
  | .ready => 1
  | .waiting => 2
  | .loading => 3
def Blk.engStatus (b : Blk) (e : Nat) : Nat :=
  let v := b.engine e
  v.st.code + 8 * b2n v.active + 16 * v.bank0.st.code + 64 * v.bank1.st.code + 256 * b2n (b.pinned e v.bank0) + 512 * b2n (b.pinned e v.bank1)
/-- The registers of engine e (R107); ENG_PROG shows the former program of a bank in LOADING (log 162). -/
def readEng (b : Blk) (e o : Nat) : Nat :=
  let v := b.engine e
  match o / 4 with
  | 0 => b2n v.sentinel + 2 * b2n v.hazAct
  | 1 => b.engStatus e
  | 2 => v.bank0.prog.toNat + 65536 * v.bank1.prog.toNat
  | 4 => lo32 v.progress
  | 5 => hi32 v.progress
  | 6 => v.hazAddr.toNat
  | 7 => v.hazCount.toNat
  | 8 => v.mmDrop.toNat
  | 9 => v.idxClip.toNat
  | 10 => v.faultReg.toNat
  | _ => 0

/-! ### The windows -/

/-- A word of the steward window that no snapshot serves. -/
def readSteward (x : Env) (b : Blk) (o : Nat) : Nat :=
  if o < 0x1000 then readBlk x b o
  else if o < 0x1100 then readWv b.wv (o - 0x1000)
  else if 0x2000 ≤ o ∧ o < 0x2020 then readKnt b (o - 0x2000)
  else if 0x3000 ≤ o ∧ o < 0x3100 then readJobs (b.seat ((o - 0x3000) / 16)) (o % 16 / 4)
  else if 0x4000 ≤ o ∧ o < 0x4200 then readDsp b (o - 0x4000)
  else if 0x5000 ≤ o ∧ o < 0x5200 then readMem b (o - 0x5000)
  else if 0x6000 ≤ o ∧ o < 0x6200 then readIk b ((o - 0x6000) / 0x40) (o % 0x40)
  else if 0x7000 ≤ o ∧ o < 0x8000 then readFlt b.flt (o - 0x7000)
  else if 0x8000 ≤ o ∧ o < 0x9000 then readSeqWin b (o - 0x8000)
  else if 0x9000 ≤ o ∧ o < 0x9100 then readPwr b (o - 0x9000)
  else if 0x9100 ≤ o ∧ o < 0x9200 then readTim x.time (o - 0x9100)
  else if 0xA000 ≤ o ∧ o < 0xB000 then readDbg b (o - 0xA000)
  else if 0xB000 ≤ o ∧ o < 0xC000 then readTrc b (o - 0xB000)
  else if 0x20000 ≤ o ∧ o < 0x24000 then readEng b ((o - 0x20000) / 0x100) (o % 0x100)
  else if 0x24000 ≤ o ∧ o < 0x30000 then readTrcEng b ((o - 0x24000) / 0x300) ((o - 0x24000) % 0x300)
  else if 0xC0000 ≤ o ∧ o < 0x100000 then (Mem.word x.steep (o - 0xC0000)).toNat
  else 0
def readWin (b : Blk) (s : Nat) (o : Nat) : Nat :=
  let v := b.seat s
  match o / 4 with
  | 0 => lo32 v.winBase
  | 1 => hi32 v.winBase
  | 2 => v.winCode.toNat + 256 * v.winResp.toNat + 2 ^ 30 * b2n v.winIrqEn + 2 ^ 31 * b2n v.winValid
  | 3 => b2n (b.winDirty s)
  | 4 => lo32 v.atomAddr
  | 5 => hi32 v.atomAddr
  | 6 => lo32 v.atomOpnd
  | 7 => hi32 v.atomOpnd
  | 8 => lo32 v.atomCmp
  | 9 => hi32 v.atomCmp
  | 12 => lo32 v.atomRes
  | 13 => hi32 v.atomRes
  | _ => 0
/-- The alias of an engine, or of an intake port, is live for the seat (R308, R309). -/
def Blk.engAlias (b : Blk) (s e : Nat) : Bool := (b.wv.cur.engOwners e).contains s
def Blk.ikAlias (b : Blk) (s p : Nat) : Bool := (b.binding p).any fun r => b.wv.cur.ownsPart s r.part
/-- TRC_SEAT_ENG_DATA. -/
def Blk.claimed (b : Blk) (s : Nat) : Option (Nat × Nat) :=
  let w := (b.seat s).trcEng
  let e := fld w 0 12
  if (b.engine e).trace.owner.toNat = s ∧ e < 64 ∧ fld w 12 7 ≤ 64 then some (e, fld w 12 7) else none
def readSeatDbg (b : Blk) (s o : Nat) : Nat :=
  let v := b.seat s
  let r := b.ring s
  if 0x800 ≤ o ∧ o < 0x814 then readRing r ((o - 0x800) / 4)
  else if o = 0x814 then b2n r.en + 2 * b2n r.wrap + 4 * b2n r.markEn + 8 * b2n r.err
  else if o = 0x81C then v.trcEng.toNat
  else if o = 0x820 then
    match b.claimed s with
    | some (e, i) => if i < 64 then b.engSel e i else (b.engine e).trace.ctl.toNat
    | none => 0
  else if o = 0x824 then r.lost.toNat
  else if 0x900 ≤ o ∧ o < 0x920 then readBreak (b.breakUnit (8 + 2 * s + (o - 0x900) / 16)) (o % 16)
  else if o = 0xA00 then v.snapSel
  else if 0xA04 ≤ o ∧ o < 0xA1C then
    if ((PMap.find v.snapSel b.dbg.snap.qs).bind (·.owner)) = some s then b.dbg.snap.word v.snapSel ((o - 0xA04) / 4) else 0
  else 0
/-- A word of seat s's window that no snapshot serves. -/
def readSeat (x : Env) (b : Blk) (s o : Nat) : Nat :=
  if o = 0 then blkVersion
  else if o = 4 then b.wv.epoch.toNat
  else if o < 0x18 then readCaps ((o - 8) / 4)
  else if o = 0x18 then b.startWord
  else if o = 0x20 then s + 16 * b2n (s == x.steward)
  else if o = 0x24 then (b.seat s).expert.toNat
  else if o = 0x28 then b.seatIrq s
  else if o = 0x30 then (b.wv.cur.partMask s).toNat
  else if o = 0x34 then ((b.wv.cur.seat s).map fun r => r.knotBase + 65536 * r.knotCount).getD 0
  else if 0x40 ≤ o ∧ o < 0x50 then readJobs (b.seat s) (o % 16 / 4)
  else if 0x100 ≤ o ∧ o < 0x110 then readTie (b.tieRegs s) (o % 16 / 4)
  else if 0x200 ≤ o ∧ o < 0x224 then readSlow b s (o - 0x200)
  else if 0x300 ≤ o ∧ o < 0x338 then readWin b s (o - 0x300)
  else if 0x400 ≤ o ∧ o < 0x600 then
    if b.ikAlias s ((o - 0x400) / 0x40) then readIk b ((o - 0x400) / 0x40) (o % 0x40) else 0
  else if 0x700 ≤ o ∧ o < 0x800 then readSeatLog (b.seatLog s) (o - 0x700)
  else if 0x800 ≤ o ∧ o < 0xC00 then readSeatDbg b s o
  else if 0x4000 ≤ o ∧ o < 0x8000 then
    if b.engAlias s ((o - 0x4000) / 0x100) then readEng b ((o - 0x4000) / 0x100) (o % 0x100) else 0
  else 0
/-- A word of queue q's page (R160). -/
def readPage (b : Blk) (q o : Nat) : Nat :=
  let u := b.que q
  match o / 4 with
  | 1 => u.tail % 2 ^ 32
  | 2 => u.head % 2 ^ 32
  | 12 => u.statusAcc.toNat
  | 16 => 8 * b2n u.srEn + 16 * b2n u.err.irqEn
  | 17 => u.st.code + 8 * b2n u.idle + 16 * b2n u.staleClose + 65536 * b.standingCount q
  | 18 => u.err.word
  | 20 => lo32 u.ringBase
  | 21 => hi32 u.ringBase
  | 22 => u.ringSlots.toNat
  | 24 => lo32 u.srBase
  | 25 => hi32 u.srBase
  | 26 => u.srSlots.toNat
  | 28 => u.owed.length
  | _ => 0
/-- A word of the knot window above KNT_WIN_VAL_LO: from the seat's capture of that knot. -/
def readKnotHi (b : Blk) (s k i : Nat) : Nat :=
  match (b.seat s).knotCap with
  | some (k', v, waiters) => if k' = k then
      (match i with
       | 1 => hi32 v.val
       | 2 => v.flags.toNat + 65536 * waiters
       | _ => v.role.toNat) else 0
  | none => 0

/-! ### Snapshots (R161) -/

/-- The value that a read of a low word captures; none at any other word. -/
def snapSteward (x : Env) (b : Blk) (o : Nat) : Option (BitVec 128) :=
  let w64 := fun (v : W64) => some (BitVec.ofNat 128 v.toNat)
  if 0x3000 ≤ o ∧ o < 0x3100 ∧ o % 8 = 0 then w64 (if o % 16 = 0 then (b.seat ((o - 0x3000) / 16)).launched else (b.seat ((o - 0x3000) / 16)).done)
  else if o = 0x4110 then w64 (((b.slowQueue 16).map fun q => (b.que q).stallSum).getD 0)
  else if o = 0x4118 then w64 (((b.slowQueue 16).map fun q => (b.que q).busySum).getD 0)
  else if o = 0x7308 then w64 b.flt.twinLast.digA
  else if o = 0x7310 then w64 b.flt.twinLast.digB
  else if o = 0x7318 then w64 b.flt.twinLast.digC
  else if o = 0x9108 then w64 x.now
  else if o = 0xB414 then
    let i := fld b.trc.cntSel 0 8
    w64 (if bit b.trc.cntSel 20 then (if i < 64 then b.engCounter (fld b.trc.cntSel 8 12) i else 0) else b.blkCounter i)
  else none
def snapSeat (b : Blk) (s o : Nat) : Option (BitVec 128) :=
  let w64 := fun (v : W64) => some (BitVec.ofNat 128 v.toNat)
  if o = 0x40 then w64 (b.seat s).launched
  else if o = 0x48 then w64 (b.seat s).done
  else if o = 0x210 then w64 (((b.slowQueue s).map fun q => (b.que q).stallSum).getD 0)
  else if o = 0x218 then w64 (((b.slowQueue s).map fun q => (b.que q).busySum).getD 0)
  else none
def snapPage (b : Blk) (q o : Nat) : Option (BitVec 128) :=
  if o = 0x10 then some (BitVec.ofNat 128 ((b.que q).comp % 2 ^ 64))
  else if o = 0x20 then some (b.que q).lastRec
  else none
/-- The low word whose capture serves a high word, and which word of it. -/
def snapHigh (addr : Nat) : Option (Nat × Nat) :=
  if addr < 0x100000 then
    if (0x3000 ≤ addr ∧ addr < 0x3100 ∧ addr % 8 = 4) ∨ addr = 0x4114 ∨ addr = 0x411C ∨ addr = 0x730C ∨ addr = 0x7314 ∨ addr = 0x731C
        ∨ addr = 0x910C ∨ addr = 0xB418 then some (addr - 4, 1) else none
  else if addr < 0x200000 then
    let o := addr % 0x10000
    if o = 0x44 ∨ o = 0x4C ∨ o = 0x214 ∨ o = 0x21C then some (addr - 4, 1) else none
  else if addr < 0x300000 then
    let o := addr % 0x400
    if o = 0x14 then some (addr - 4, 1)
    else if 0x24 ≤ o ∧ o < 0x30 then some (addr - (o - 0x20), (o - 0x20) / 4) else none
  else none

end Sys2Proof.Machine
end

