-- ==== Sys2Proof/Machine/Registers.lean ====
section
/-! DEFINITION. What a write of every register does, accesses as they are performed, and the drain of a seat's held accesses
(12 R302 to R325). -/

namespace Sys2Proof.Machine

def setLo (v : W64) (d : W32) : W64 := putFld v 0 32 d.toNat
def setHi (v : W64) (d : W32) : W64 := putFld v 32 32 d.toNat
/-- Word i of a 256-bit value. -/
def setWord (v : BitVec 256) (i : Nat) (d : W32) : BitVec 256 := putFld v (32 * i) 32 d.toNat

/-! ### Identity, features, grants (R312, R315, R320, R322) -/

def AccessErr.put (r : AccessErr) (d : W32) : AccessErr := if bit d 31 then { irqEn := bit d 30 } else { r with irqEn := bit d 30 }
/-- In OPEN a word of FEAT_ACCEPT takes what is offered; BASE is always accepted. -/
def Features.take (f : Features) (i : Nat) (d : W32) : Features :=
  if f.committed then f else { f with accept := (setWord f.accept i d &&& featOffer) ||| 1 }
def Features.commit (f : Features) : Features :=
  if f.committed then f else { f with confirmed := f.accept, keep := f.accept, committed := true }
def execCommit (a : Acc) (s : State) : Host.Outcome State Fault Refusal :=
  s.writeRow a 0x80 1 (onSteward · a) fun _ b => { b with feat := b.feat.commit }
/-- Functions that a seat may be granted: its ceiling in the weave, where the feature is confirmed. -/
def Blk.grantable (b : Blk) (s : Nat) : W32 :=
  (((b.wv.cur.seat s).map (·.expert)).getD 0) &&& BitVec.ofNat 32 (fld b.feat.confirmed 1 4)
def Blk.grant (s : Nat) (d : W32) (b : Blk) : Blk := (b.modSeat s fun v => { v with expert := d &&& b.grantable s }).dropClaims
def execSeatExpertEnable (a : Acc) (s : Seat) (d : W32) (st : State) : Host.Outcome State Fault Refusal :=
  st.writeRow a (0x100 + 4 * s.val) d (onSteward · a) fun _ b => b.grant s d
def writeBlk (o : Nat) (d : W32) (b : Blk) : Blk :=
  if o = 0x18 then { b with host := { b.host with acc := b.host.acc.put d } }
  else if 0x60 ≤ o ∧ o < 0x80 then { b with feat := b.feat.take ((o - 0x60) / 4) d }
  else if o = 0x80 then (if bit d 0 then { b with feat := b.feat.commit } else b)
  else if 0x100 ≤ o ∧ o < 0x140 then b.grant ((o - 0x100) / 4) d
  else b

/-! ### Weave, knots, dispatcher -/

def writeWv (o : Nat) (d : W32) (b : Blk) : Blk :=
  match o / 4 with
  | 0 => b.wvCtrl (bit d 0) (bit d 1) (bit d 2) (bit d 3) (bit d 4)
  | 1 => { b with wv := { b.wv with wrIgnored := b.wv.wrIgnored && !bit d 4 } }
  | 5 => { b with wv := { b.wv with src := setLo b.wv.src d } }
  | 6 => { b with wv := { b.wv with src := setHi b.wv.src d } }
  | 7 => { b with wv := { b.wv with srcLen := BitVec.ofNat 19 (fld d 0 19) } }
  | _ => b
/-- Tie registers of window `win`, written by `seat`. -/
def writeTie (seat win i : Nat) (d : W32) (b : Blk) : Blk :=
  let r := b.tieRegs win
  match i with
  | 0 => b.setTieRegs win { r with val := setLo r.val d }
  | 1 => b.setTieRegs win { r with val := setHi r.val d }
  | 2 => b.hostTie seat win d
  | _ =>
    let e := if bit d 31 then r.err.clear else r.err
    b.setTieRegs win { r with err := { e with irqEn := bit d 30 } }
def writeKnt (seat o : Nat) (d : W32) (b : Blk) : Blk :=
  if o < 0x10 then writeTie seat 16 (o / 4) d b
  else if o = 0x10 ∧ bit d 31 then b.peakClr else b
/-- DSP_SLOW_CLR of window `win`. In a seat window whose selected queue is not the seat's the spec says only that it reads 0: here
the clear has no effect (DESIGN CHOICE, log 139). -/
def Blk.slowClear (win : Nat) (b : Blk) : Blk :=
  match b.slowQueue win with
  | some q => b.setQue q { b.que q with stallSum := 0, busySum := 0 }
  | none => b
def writeSlow (win o : Nat) (d : W32) (b : Blk) : Blk :=
  if o = 0 then
    (if fld d 0 14 < 1024 then { b with host := { b.host with slowSel := SMap.set 0 b.host.slowSel win (fld d 0 14) } } else b)
  else if o = 0x20 ∧ bit d 0 then b.slowClear win else b
def execClear (a : Acc) (s : State) : Host.Outcome State Fault Refusal :=
  let win := ownWindow s.env a
  s.writeRow a (if win = 16 then 0x4120 else seatAddr a.seat.val 0x220) 1 (fun _ _ => none) fun _ b => b.slowClear win
def writeDsp (o : Nat) (d : W32) (b : Blk) : Blk :=
  if o < 0x40 then
    { b with dsp := { b.dsp with ctl := SMap.set {} b.dsp.ctl (o / 4) { quantum := BitVec.ofNat 16 (fld d 0 16), noSteal := bit d 16 } } }
  else if 0x100 ≤ o ∧ o < 0x124 then writeSlow 16 (o - 0x100) d b else b

/-! ### Memory, intake, sequencers, power, time -/

def MPort.writeErr (v : MPort) (d : W32) : MPort :=
  let v := if bit d 31 then { v with errResp := 0, errSrc := 0, errSeat := 0, errLink := false, errCount := 0, errValid := false, errAddr := 0 } else v
  { v with errIrqEn := bit d 15 }
def Blk.predReset (b : Blk) : Blk := { b with mem := { b.mem with pred := [] } }
def execPredReset (a : Acc) (s : State) : Host.Outcome State Fault Refusal :=
  s.writeRow a 0x5100 (BitVec.ofNat 32 (4 + s.blk.mem.atomMode.toNat)) (onSteward · a) fun _ b => b.predReset
def writeMem (o : Nat) (d : W32) (b : Blk) : Blk :=
  if o < 0x100 then
    (if o % 0x40 = 4 then b.modPort (o / 0x40) fun v => v.writeErr d
     else if o % 0x40 = 0x18 ∧ bit d 31 then b.modPort (o / 0x40) MPort.clearPeak else b)
  else if o = 0x100 then
    let b : Blk := if fld d 0 2 = 3 then b else { b with mem := { b.mem with atomMode := BitVec.ofNat 2 (fld d 0 2) } }
    if bit d 2 then b.predReset else b
  else b
def writeIk (p o : Nat) (d : W32) (b : Blk) : Blk :=
  b.modIntake p fun v =>
    if o = 0 then
      let sl := fld d 0 4
      let dm := fld d 16 11
      { v with slotsLog2 := if sl ≤ 12 then BitVec.ofNat 4 sl else v.slotsLog2
               dmgMax := if dm ≤ 1024 then BitVec.ofNat 11 dm else v.dmgMax }
    else if o = 0x20 then
      let v := if bit d 31 then { v with errCode := 0, errOff := 0, errCount := 0, errValid := false } else v
      { v with errIrqEn := bit d 30 }
    else v
def writePwr (o : Nat) (d : W32) (b : Blk) : Blk :=
  if o = 0 then { b with pwr := { b.pwr with sleepDelay := BitVec.ofNat 10 (fld d 0 10) } }
  else if o = 8 then { b with pwr := { b.pwr with evDroop := b.pwr.evDroop && !bit d 0, evUnder := b.pwr.evUnder && !bit d 1 } }
  else if o = 0x28 ∧ fld d 0 12 < 64 then { b with pwr := { b.pwr with engSel := BitVec.ofNat 12 (fld d 0 12) } }
  else b
def Time.write (t : Time) (o : Nat) (d : W32) : Time :=
  match o / 4 with
  | 0 => t.ctrl (bit d 0) (bit d 1)
  | 1 => { t with stepped := t.stepped && !bit d 2 }
  | 4 => { t with setVal := setLo t.setVal d }
  | 5 => { t with setVal := setHi t.setVal d }
  | 10 => { t with stepNs := BitVec.ofNat 30 (fld d 0 30) }
  | 11 => if 667 ≤ fld d 0 14 ∧ fld d 0 14 ≤ 10000 then { t with ariPs := BitVec.ofNat 14 (fld d 0 14) } else t
  | _ => t

/-! ### Debug and trace -/

def BreakUnit.writeRest (v : BreakUnit) (o : Nat) (d : W32) : BreakUnit :=
  if o = 4 then { v with value := d } else if o = 8 then { v with mask := d } else v
/-- A write to a break unit: the steward's take every action, a seat's IRQ and HOLD. -/
def writeUnit (x : Env) (u most o : Nat) (d : W32) (b : Blk) : Blk :=
  if o = 0 then b.writeBreak x u most d else (b.setBreakUnit u ((b.breakUnit u).writeRest o d)).unfire u
/-- A write of a trigger; INDEX takes 64 to 255 of an engine too, where no counter answers (log 157). -/
def Trigger.write (t : Trigger) (o : Nat) (d : W32) : Trigger :=
  match o / 4 with
  | 0 => { t with arm := bit d 0, src := bit d 1, action := bit d 2, hit := t.hit && !bit d 3
                  engine := if fld d 12 12 < 64 then BitVec.ofNat 12 (fld d 12 12) else t.engine
                  index := BitVec.ofNat 8 (fld d 24 8) }
  | 2 => { t with thr := setLo t.thr d }
  | 3 => { t with thr := setHi t.thr d }
  | _ => t
def injLink (n : Nat) : Bool :=
  (decide (0x300 ≤ n) && decide (n < 0x304)) || (decide (0x410 ≤ n) && decide (n < 0x420)) || (decide (0x480 ≤ n) && decide (n < 0x48A))
    || (decide (0x500 ≤ n) && decide (n < 0x508))
/-- Bits of the flits that the unit's link and direction carry: 736 that leave a Tether port, else 608. -/
def Injector.flitBits (v : Injector) : Nat := if 0x300 ≤ v.link.toNat ∧ v.link.toNat < 0x304 ∧ !v.dir then 736 else 608
/-- A write of a unit. A flit that REORDER holds when its link is deselected is lost, and replayed (log 156). -/
def Injector.write (v : Injector) (o : Nat) (d : W32) : Injector :=
  let f := fun (i : Nat) => d.getLsbD i
  match o / 4 with
  | 0 =>
    let link := if injLink (fld d 16 12) then BitVec.ofNat 12 (fld d 16 12) else v.link
    { v with arm := f 0, mode := f 1, action := if fld d 2 2 = 3 then v.action else BitVec.ofNat 2 (fld d 2 2)
             replays := f 4, dir := f 5, link := link
             held := if link = v.link ∧ f 5 = v.dir then v.held else none
             flits := if f 0 && !v.arm then 0 else v.flits }
  | 1 => { v with rate := BitVec.ofNat 16 (fld d 0 16)
                  bit := if fld d 16 10 < v.flitBits then BitVec.ofNat 10 (fld d 16 10) else v.bit }
  | 2 => { v with seed := d }
  | _ => v
def writeTangle (x : Env) (o : Nat) (d : W32) (b : Blk) : Blk :=
  let t := b.dbg.tangle
  let put := fun (t : Tangle) => ({ b with dbg := { b.dbg with tangle := t } } : Blk)
  if o = 0 then put { t with base := setLo t.base d }
  else if o = 4 then put { t with base := setHi t.base d }
  else if o = 8 then put { t with size := d }
  else if o = 0xC then b.tangleCtrl x (bit d 0) (bit d 1) else b
/-- DBG_ registers but DBG_BELAY. -/
def writeDbg (x : Env) (o : Nat) (d : W32) (b : Blk) : Blk :=
  let g := b.dbg
  if o = 0 then { b with dbg := { g with belayInEn := bit d 0, injEn := bit d 1 } }
  else if o = 0x10 then { b with dbg := { g with event := g.event &&& ~~~(BitVec.ofNat 4 (fld d 0 4)), irqEn := bit d 16 } }
  else if o = 0x14 then { b with dbg := { g with seatReq := g.seatReq &&& ~~~(BitVec.ofNat 16 (fld d 0 16)) } }
  else if o = 0x18 then b.seqCtrl x (BitVec.ofNat 4 (fld d 0 4)) (BitVec.ofNat 4 (fld d 4 4))
  else if 0x100 ≤ o ∧ o < 0x180 then writeUnit x ((o - 0x100) / 16) 4 (o % 16) d b
  else if 0x200 ≤ o ∧ o < 0x280 then
    { b with dbg := { g with trigs := SMap.set {} g.trigs ((o - 0x200) / 16) ((SMap.get {} g.trigs ((o - 0x200) / 16)).write (o % 16) d) } }
  else if o = 0x300 then (if bit d 0 then b.capture x else b)
  else if o = 0x30C then
    (if fld d 0 14 < 1024 then { b with dbg := { g with snap := { g.snap with sel := BitVec.ofNat 14 (fld d 0 14) } } } else b)
  else if 0x400 ≤ o ∧ o < 0x410 then writeTangle x (o - 0x400) d b
  else if 0x500 ≤ o ∧ o < 0x540 then b.setInjector ((o - 0x500) / 16) ((b.injector ((o - 0x500) / 16)).write (o % 16) d)
  else b
/-- BASE_LO, BASE_HI, SIZE, RD of a ring. -/
def TraceRing.write (v : TraceRing) (i : Nat) (d : W32) : TraceRing :=
  match i with
  | 0 => { v with base := setLo v.base d }
  | 1 => { v with base := setHi v.base d }
  | 2 => if isPow2 d.toNat && decide (4096 ≤ d.toNat) && decide (d.toNat ≤ 2 ^ 30) then { v with size := d } else v
  | 4 => { v with rd := d }
  | _ => v
/-- The trace registers (R444, R447); TRC_CNT_SEL keeps an INDEX of 64 to 255 of an engine too (log 157). -/
def writeTrc (o : Nat) (d : W32) (b : Blk) : Blk :=
  let t := b.trc
  if o < 0x400 then b.selectBlk (o / 4) d
  else if o = 0x400 then { b with trc := { t with ctl := BitVec.ofNat 4 (fld d 0 4) } }
  else if o = 0x404 then
    (if d = 0 ∨ 1000 ≤ d.toNat then { b with trc := { t with interval := d } } else b)
  else if o = 0x410 then
    let e := if fld d 8 12 < 64 then fld d 8 12 else fld t.cntSel 8 12
    { b with trc := { t with cntSel := BitVec.ofNat 21 (fld d 0 8 + 256 * e + 2 ^ 20 * fld d 20 1) } }
  else if 0x420 ≤ o ∧ o < 0x434 then b.setRing 16 ((b.ring 16).write ((o - 0x420) / 4) d)
  else if o = 0x434 then b.setRing 16 { b.ring 16 with en := bit d 0, wrap := bit d 1, err := (b.ring 16).err && !bit d 2 }
  else b
def writeTrcCtl (e : Nat) (d : W32) (b : Blk) : Blk :=
  b.modEng e fun v => { v with trace := { v.trace with ctl := BitVec.ofNat 3 (fld d 0 3) } }
/-- By the steward: these are fields of expert function 2, so its feature must be confirmed (R316, R313). -/
def writeTrcEng (e o : Nat) (d : W32) (b : Blk) : Blk :=
  if !b.feat.confirmed.getLsbD 3 then b
  else if o < 0x100 then b.selectEng e (o / 4) d else if o = 0x100 then writeTrcCtl e d b else b
/-- Seat debug and trace registers (R436, R438, R447, R448). -/
def writeSeatDbg (x : Env) (s o : Nat) (d : W32) (b : Blk) : Blk :=
  let r := b.ring s
  if 0x800 ≤ o ∧ o < 0x814 then b.setRing s (r.write ((o - 0x800) / 4) d)
  else if o = 0x814 then b.setRing s { r with en := bit d 0, wrap := bit d 1, markEn := bit d 2, err := r.err && !bit d 3 }
  else if o = 0x818 then b.seatClaim s d
  else if o = 0x81C then
    let w := (b.seat s).trcEng
    let e := if fld d 0 12 < 64 then fld d 0 12 else fld w 0 12
    b.modSeat s fun v => { v with trcEng := BitVec.ofNat 32 (e + 4096 * fld d 12 7) }
  else if o = 0x820 then
    match b.claimed s with
    | some (e, i) => if i < 64 then b.selectEng e i d else writeTrcCtl e d b
    | none => b
  else if 0x900 ≤ o ∧ o < 0x920 then
    (if (b.seat s).expert.getLsbD 3 then writeUnit x (8 + 2 * s + (o - 0x900) / 16) 1 (o % 16) d b else b)
  else if o = 0x940 then (if bit d 0 then b.requestBelay s else b)
  else if o = 0xA00 then (if fld d 0 14 < 1024 then b.modSeat s fun v => { v with snapSel := fld d 0 14 } else b)
  else b

/-! ### Engines (R107, R308, R316) -/

/-- `expert`: ENG_CTRL is writable. -/
def writeEng (e : Nat) (expert : Bool) (o : Nat) (d : W32) (b : Blk) : Blk :=
  if o = 0 then (if expert then b.modEng e fun v => { v with sentinel := bit d 0, hazAct := bit d 1 } else b)
  else if o = 0x18 then b.modEng e fun v => { v with hazAddr := if bit d 31 then putFld v.hazAddr 31 1 0 else v.hazAddr }
  else b

/-! ### The windows -/

/-- A write of the steward window by `seat`, of a register that is not emulated and acts on the block alone. -/
def writeStewardBlk (x : Env) (seat o : Nat) (d : W32) (b : Blk) : Blk :=
  if o < 0x1000 then writeBlk o d b
  else if o < 0x1100 then writeWv (o - 0x1000) d b
  else if 0x2000 ≤ o ∧ o < 0x2020 then writeKnt seat (o - 0x2000) d b
  else if 0x4000 ≤ o ∧ o < 0x4200 then writeDsp (o - 0x4000) d b
  else if 0x5000 ≤ o ∧ o < 0x5200 then writeMem (o - 0x5000) d b
  else if 0x6000 ≤ o ∧ o < 0x6200 then writeIk ((o - 0x6000) / 0x40) (o % 0x40) d b
  else if 0x9000 ≤ o ∧ o < 0x9100 then writePwr (o - 0x9000) d b
  else if 0xA000 ≤ o ∧ o < 0xB000 then writeDbg x (o - 0xA000) d b
  else if 0xB000 ≤ o ∧ o < 0xC000 then writeTrc (o - 0xB000) d b
  else if 0x20000 ≤ o ∧ o < 0x24000 then writeEng ((o - 0x20000) / 0x100) (b.feat.confirmed.getLsbD 1) (o % 0x100) d b
  else if 0x24000 ≤ o ∧ o < 0x30000 then writeTrcEng ((o - 0x24000) / 0x300) ((o - 0x24000) % 0x300) d b
  else b
/-- DBG_BELAY: RELEASE is judged on the state before the write. -/
def writeBelay (x : Env) (d : W32) (b : Blk) : Blk :=
  let rel := bit d 1 && b.dbg.belay != .running
  let b := if bit d 0 then b.belayCause x 0 else b
  if rel then b.belayRelease x else b
def State.writeSteward (seat o : Nat) (d : W32) (s : State) : State :=
  if 0x9100 ≤ o ∧ o < 0x9200 then s.setTime (s.env.time.write (o - 0x9100) d)
  else if 0xC0000 ≤ o then s.steepStore ((o - 0xC0000) / 4) d
  else if o = 0xA004 then { s with blk := (writeBelay s.env d s.blk).pump s.env }
  else { s with blk := writeStewardBlk s.env seat o d s.blk }
/-- Aperture control but for MEM_ATOM_GO. -/
def writeWin (s o : Nat) (d : W32) (b : Blk) : Blk :=
  b.modSeat s fun v =>
    match o / 4 with
    | 0 => { v with winBase := setLo v.winBase (BitVec.ofNat 32 (d.toNat / 2 ^ 15 * 2 ^ 15)) }
    | 1 => { v with winBase := setHi v.winBase d }
    | 2 =>
      let v := if bit d 31 then { v with winCode := 0, winValid := false } else v
      { v with winIrqEn := bit d 30 }
    | 4 => { v with atomAddr := setLo v.atomAddr d }
    | 5 => { v with atomAddr := setHi v.atomAddr d }
    | 6 => { v with atomOpnd := setLo v.atomOpnd d }
    | 7 => { v with atomOpnd := setHi v.atomOpnd d }
    | 8 => { v with atomCmp := setLo v.atomCmp d }
    | 9 => { v with atomCmp := setHi v.atomCmp d }
    | _ => v
def writeSeat (x : Env) (s o : Nat) (d : W32) (b : Blk) : Blk :=
  if 0x100 ≤ o ∧ o < 0x110 then writeTie s s (o % 16 / 4) d b
  else if 0x200 ≤ o ∧ o < 0x224 then writeSlow s (o - 0x200) d b
  else if 0x300 ≤ o ∧ o < 0x338 then writeWin s (o - 0x300) d b
  else if 0x800 ≤ o ∧ o < 0xC00 then writeSeatDbg x s o d b
  else if 0x4000 ≤ o ∧ o < 0x8000 then
    (if b.engAlias s ((o - 0x4000) / 0x100) then writeEng ((o - 0x4000) / 0x100) ((b.seat s).expert.getLsbD 0) (o % 0x100) d b else b)
  else b
/-- A configuration register of a queue takes a write in FREE only. -/
def Blk.queConfig (q : Nat) (f : Que → Que) (b : Blk) : Blk :=
  if (b.que q).st = .free then b.setQue q (f (b.que q)) else b.queErr q 1
def writePage (q o : Nat) (d : W32) (b : Blk) : Blk :=
  let u := b.que q
  match o / 4 with
  | 0 => b.doorbell q d
  | 12 => b.setQue q { u with statusAcc := u.statusAcc &&& ~~~(BitVec.ofNat 7 (fld d 0 7)) }
  | 16 => b.queCtrl q (bit d 0) (bit d 1) (bit d 2) (bit d 3) (bit d 4)
  | 18 => if bit d 31 then b.setQue q { u with err := u.err.clear } else b
  | 20 => b.queConfig q fun u => { u with ringBase := setLo u.ringBase d }
  | 21 => b.queConfig q fun u => { u with ringBase := setHi u.ringBase d }
  | 22 => b.queConfig q fun u => { u with ringSlots := BitVec.ofNat 17 (fld d 0 17) }
  | 24 => b.queConfig q fun u => { u with srBase := setLo u.srBase d }
  | 25 => b.queConfig q fun u => { u with srBase := setHi u.srBase d }
  | 26 => b.queConfig q fun u => { u with srSlots := BitVec.ofNat 17 (fld d 0 17) }
  | _ => b

/-! ### Warden-emulated registers as the warden core serves them (R318, R319, R417, R425, R426) -/

/-- The steward orders a rung; it is carried out at once where it may start. -/
def Blk.hostRung (x : Env) (d : W32) (b : Blk) : Blk :=
  let r : RungReq := { step := fld d 0 4, target := fld d 4 12, cause := 0 }
  if !rungTarget b.wv.cur r || b.flt.pcycReq || !b.up then b else
  let b := b.orderRung r
  match b.orderedRung r with
  | some y => if b.rungMayStart y then b.carryOut x y else b
  | none => b
def writeFlt (x : Env) (o : Nat) (d : W32) (b : Blk) : Blk :=
  let f := b.flt
  if o = 0 then { b with flt := { f with auto := BitVec.ofNat 4 (fld d 0 4), engLimit := BitVec.ofNat 4 (fld d 8 4)
                                         blkLimit := BitVec.ofNat 4 (fld d 12 4) } }
  else if o = 8 then b.hostRung x d
  else if o = 0xC then { b with flt := { f with irqLog := f.irqLog && !bit d 0, irqWait := f.irqWait && !bit d 1
                                                irqNoack := f.irqNoack && !bit d 2, irqEn := bit d 16 } }
  else if o = 0x14 then { b with flt := { f with logSel := d } }
  else if 0x100 ≤ o ∧ o < 0x140 then
    (let w := fld d 0 20
     if 1 ≤ w ∧ w ≤ 1000000 then { b with flt := { f with stallWin := SMap.set 2 f.stallWin ((o - 0x100) / 4) w } } else b)
  else if o = 0x300 then { b with flt := { f with twinSel := BitVec.ofNat 5 (fld d 0 5) } }
  else b
def writeSeatLog (s o : Nat) (d : W32) (b : Blk) : Blk :=
  let l := b.seatLog s
  if o = 4 then b.setSeatLog s { l with sel := d }
  else if o = 8 then b.setSeatLog s { l with irqLog := l.irqLog && !bit d 0, irqEn := bit d 16 }
  else b

/-! ### Performing an access -/

/-- Where an address lies. -/
inductive Place where
  | steward (o : Nat)
  | seat (s o : Nat)
  | page (q o : Nat)
  | knot (k i : Nat)
  deriving DecidableEq, Repr
/-- The aligned word of an address. -/
def placeOf (addr : BitVec 22) : Place :=
  let a := addr.toNat / 4 * 4
  if a < 0x100000 then .steward a
  else if a < 0x200000 then .seat ((a - 0x100000) / 0x10000) (a % 0x10000)
  else if a < 0x300000 then .page ((a - 0x200000) / 0x400) (a % 0x400)
  else .knot ((a - 0x300000) / 16) (a % 16 / 4)
/-- The refusal of an access: its KIND (R302, R303). -/
def judge (x : Env) (b : Blk) (a : Acc) (p : Place) : Option (BitVec 2) :=
  match p with
  | .steward _ => judgeSteward x a
  | .seat s _ => judgeSeat s a
  | .page q _ => judgePage x b q a
  | .knot _ _ => none
/-- Doorbell pages record refused writes only. -/
def recordsRead (p : Place) : Bool :=
  match p with
  | .page _ _ => false
  | _ => true
/-- A fetch under way that has brought the line of the steep word at offset k, and that line (R54). -/
def Blk.fetchedOver (b : Blk) (k : Nat) : Option (Fetch × Line) :=
  if b.wv.st = .fetching then
    (b.wv.fetch.filter fun f => decide (k < f.len)).bind fun f => (f.got.find? fun g => g.1 == lineOf (f.src + k)).map fun g => (f, g.2)
  else none
/-- The word at offset k as the steep buffer takes the fetch: each byte the fetched or the earlier one, as a bit of `pick` says. -/
def Fetch.mix (f : Fetch) (k : Nat) (line : Line) (old : Nat) (pick : W32) : Nat :=
  ofBytes ((range 4).map fun i =>
    if k + i < f.len ∧ pick.getLsbD i then BitVec.ofNat 8 (fAt line ((f.src + k + i) % 64) 0 8) else BitVec.ofNat 8 (old / 256 ^ i))
/-- The value of a read and the state after it. -/
def State.readAt (op : HostOp) (p : Place) (s : State) : State × Nat :=
  let x := s.env
  let b := s.blk
  let seat := op.acc.seat.val
  let a := op.addr.toNat / 4 * 4
  let snap := match p with
    | .steward o => snapSteward x b o
    | .seat t o => snapSeat b t o
    | .page q o => snapPage b q o
    | .knot _ _ => none
  match snap with
  | some v =>
    let v' := b.seat seat
    ({ s with blk := b.setSeat seat { v' with snaps := PMap.put a v v'.snaps } }, fld v 0 32)
  | none =>
    match snapHigh a with
    | some (k, i) => (s, wordAt ((PMap.find k (b.seat seat).snaps).getD 0) i)
    | none =>
      match p with
      | .steward o =>
        (match if 0xC0000 ≤ o then b.fetchedOver (o - 0xC0000) else none with
         | some (f, line) =>
           -- which bytes have been replaced is a free value (log 9)
           let y := b.drawFree
           ({ s with blk := y.2 }, f.mix (o - 0xC0000) line (readSteward x b o) (BitVec.ofNat 32 y.1.toNat))
         | none => (s, readSteward x b o))
      | .seat t o => (s, readSeat x b t o)
      | .page q o => (s, readPage b q o)
      | .knot k i => (s, if knotReadable x b op.acc k then readKnotHi b seat k i else 0)
/-- A write that is judged and whole, outside the aperture. -/
def State.writeAt (op : HostOp) (p : Place) (d : W32) (s : State) : State :=
  match p with
  | .steward o => s.writeSteward op.acc.seat.val o d
  | .seat t o => { s with blk := writeSeat s.env t o d s.blk }
  | .page q o =>
    -- QUE_CTRL may complete commands
    let b := writePage q o d s.blk
    { s with blk := if o = 0x40 then b.pump s.env else b }
  | .knot _ _ => s
def State.respond (a : Acc) (write : Bool) (v : Nat) (s : State) : State :=
  { s with blk := s.blk.respond a.seat write (BitVec.ofNat 32 v) }
def State.onBlock (s : State) (f : Blk → Blk) : State := { s with blk := f s.blk }
/-- A refused access: recorded, read as 0. -/
def State.refused (op : HostOp) (k : BitVec 2) (p : Place) (s : State) : State :=
  let s := if op.wdata.isSome || recordsRead p then s.onBlock (·.refuse op.acc op.addr op.wdata.isSome k) else s
  s.respond op.acc op.wdata.isSome 0
/-- An aperture access, once no belay holds it. A write that enables no lane writes nothing: it is answered at once and sends
nothing, since a masked write has a nonzero mask (R274, log 140). -/
def State.aperture (op : HostOp) (o : Nat) (s : State) : State :=
  if s.blk.dbg.belay ≠ .running then s.onBlock (·.modSeat op.acc.seat fun v => { v with unfin := some (.belayed op) }) else
  let w := BitVec.ofNat 13 ((o - 0x8000) / 4)
  match op.wdata with
  | none => s.onBlock (·.aperRead op.acc.seat w)
  | some d =>
    if op.acc.be = 0 then { s with blk := s.blk.respond op.acc.seat true 0 }
    else s.onBlock (·.aperWrite op.acc.seat w d op.acc.be)
/-- A write of MEM_ATOM_GO. -/
def State.atomic (op : HostOp) (d : W32) (s : State) : State :=
  if s.blk.dbg.belay ≠ .running then s.onBlock (·.modSeat op.acc.seat fun v => { v with unfin := some (.belayed op) }) else
  let y := s.blk.atomGo op.acc.seat d
  let s := { s with blk := y.1 }
  if y.2 then s.respond op.acc true 0 else s
/-- Everything outside the aperture. -/
def State.plain (op : HostOp) (p : Place) (s : State) : State :=
  if op.wdata.isSome && op.acc.be != 15 then s.refused op 3 p
  else if emulated op.addr.toNat then s.onBlock (·.toWarden op)
  else
    match op.wdata with
    | some d =>
      (match p with
       | .seat _ 0x328 => s.atomic op d
       | p => (s.writeAt op p d).respond op.acc true 0)
    | none =>
      (match p with
       | .knot k 0 => s.onBlock (·.knotLoRead s.env op.acc k)
       | p =>
         let y := s.readAt op p
         y.1.respond op.acc false y.2)
/-- An access that takes effect: refused, handed to the warden core, sent to memory, or done and answered. -/
def State.perform (op : HostOp) (s : State) : State :=
  let p := placeOf op.addr
  match judge s.env s.blk op.acc p with
  | some k => s.refused op k p
  | none =>
    match p with
    | .seat t o => if 0x8000 ≤ o then s.aperture op o else s.plain op (.seat t o)
    | p => s.plain op p

/-! ### Accesses that go on (R225, R305, R428) -/

/-- The next access of seat i that may go on, and the seat's registers without it: one that a belay held, a knot read whose tie has
been applied, or the first held behind one that has completed. -/
def Blk.nextHeld (b : Blk) (i : Nat) : Option (HostOp × SeatRegs) :=
  let v := b.seat i
  match v.unfin with
  | some (.belayed op) => if b.dbg.belay = .running then some (op, { v with unfin := none }) else none
  | some (.knotRead op) => if b.tieAhead i ((op.addr.toNat - 0x300000) / 16) then none else some (op, { v with unfin := none })
  | some _ => none
  | none =>
    match v.held with
    | op :: rest => some (op, { v with held := rest })
    | [] => none
def State.goOn (s : State) : Option State :=
  match (range 16).findSome? fun i => (s.blk.nextHeld i).map fun y => (i, y) with
  | some (i, op, v) => some ((s.onBlock (·.setSeat i v)).perform op)
  | none => none
/-- Accesses go on until none may. -/
def State.drain : Nat → State → State
  | 0, s => s
  | n + 1, s =>
    match s.goOn with
    | some s => State.drain n s
    | none => s
/-- A seat has at most 8 accesses outstanding, so this many accesses can go on. -/
def drainMax : Nat := 144
def State.settle (s : State) : State := State.drain drainMax s
/-- A row at whose end accesses may go on. -/
def State.hostRow (s : State) (f : State → State) : Host.Outcome State Fault Refusal :=
  .next (f (s.onBlock Blk.freshResp)).settle
/-- The access of `seat` completes. -/
def State.finish (seat : Seat) (write : Bool) (v : Nat) (s : State) : State :=
  s.onBlock fun b => (b.modSeat seat fun r => { r with unfin := none }).respond seat write (BitVec.ofNat 32 v)

/-! ### Rows of the register port -/

/-- A write of any register. -/
def execRegisterWrite (a : Acc) (addr : BitVec 22) (d : W32) (s : State) : Host.Outcome State Fault Refusal :=
  .next ((s.access a addr (some d) fun s => s.perform { acc := a, addr := addr, wdata := some d }).settle)
/-- A read of any register; a low word captures the whole value. -/
def execSnapshotRead (a : Acc) (addr : BitVec 22) (s : State) : Host.Outcome State Fault Refusal :=
  .next ((s.access a addr none fun s => s.perform { acc := a, addr := addr, wdata := none }).settle)
/-- The warden core serves the first access that waits; while it does not run, a read gives 0 and a write nothing. -/
def State.serveWarden (s : State) : State :=
  match s.blk.host.warden with
  | [] => s
  | op :: rest =>
    let s := s.onBlock fun b => { b with host := { b.host with warden := rest } }
    let seat := op.acc.seat
    if s.blk.flt.warden ≠ .running then s.finish seat op.wdata.isSome 0 else
    match placeOf op.addr, op.wdata with
    | .steward o, some d => (s.onBlock (writeFlt s.env (o - 0x7000) d)).finish seat true 0
    | .seat t o, some d => (s.onBlock (writeSeatLog t (o - 0x700) d)).finish seat true 0
    | p, none =>
      let y := s.readAt op p
      y.1.finish seat false y.2
    | _, _ => s.finish seat op.wdata.isSome 0
def execEmulatedAccessDone (s : State) : Host.Outcome State Fault Refusal :=
  s.hostRow fun s => s.serveWarden.onBlock (·.pump s.env)

end Sys2Proof.Machine
end

