-- ==== Sys2Proof/Machine/HostRows.lean ====
section
/-! DEFINITION. Rows that may let host accesses go on: ties applied, data and completions arriving, the host memory window, the end
of a belay, the TAP (08 R206, 10 R262, R256 to R258, 17 R429, R432). -/

namespace Sys2Proof.Machine

/-! ### Ties (R206) -/

/-- The tie that has waited longest is applied; none is during a belay. -/
def Blk.tieNext (b : Blk) : Blk :=
  if !b.running then b else
  match b.kn.tieQ with
  | [] => b
  | t :: rest => ({ b with kn := { b.kn with tieQ := rest } } : Blk).tieNow t
def execTieApply (s : State) : Host.Outcome State Fault Refusal :=
  s.hostRow fun s => s.onBlock fun b => b.tieNext.pump s.env

/-! ### Data and Cmp (R262, R267) -/

/-- Seats whose atomics were performed are answered. -/
def State.finishAll (l : List Seat) (s : State) : State := l.foldl (fun s i => s.finish i true 0) s
/-- Places of sequencer i whose requests wait for a line of its descriptor cache. -/
def Blk.placesFor (b : Blk) (i : Nat) (line : LineNo) : List (Fin 32) :=
  (List.finRange 32).filter fun p => (PMap.find p.val (b.seq i).outs).any fun o =>
    match o.what with
    | .desc l _ => l == line
    | .head _ l _ => l == line
    | _ => false
/-- The line, or the error that came in its place, goes to every request that waits for it. -/
def Blk.toPlaces (i : SeqId) (line : LineNo) (d : Line) (resp : BitVec 2) (b : Blk) : Blk :=
  (b.placesFor i line).foldl (fun b p => b.send (.seqMemoryResponse i p d resp)) b
/-- Data reaches a caching agent. A line that a MEMBAR has scanned since it was asked for is given to no one: a gather that still
needs it asks again when it is retried, a descriptor cache asks again now (R219). -/
def State.agentData (a : AgentId) (line : LineNo) (d : Line) (excl : Bool) (s : State) : State :=
  let b := s.blk
  let n := line.toNat
  let st : CopySt := if excl then .e else .s
  match b.missOf a n with
  | none => s.onBlock (·.send (.ack a line))
  | some m =>
    if h : a.val < 64 then s.onBlock fun b =>
      let b := b.receive a n d st 0 false
      if m.void then b else b.send (.gatherFill ⟨a.val, h⟩ line d 0)
    else if a.val < 68 then s.onBlock fun b =>
      let i := seqId (a.val - 64)
      let taut := (m.queue.map b.wv.cur.queueTaut).getD false
      let b := b.receive a n d st (b2n taut) taut
      if !m.void then b.toPlaces i line d 0
      else if (b.placesFor i line).isEmpty then b else b.askLine a n m.queue
    else
      let y := (b.receive a n (((b.copy a n).map (·.data)).getD d) .m (((b.copy a n).map (·.who)).getD 0) false).farAt n
      ({ s with blk := y.1 } : State).finishAll y.2
def Blk.fetchResp (line : LineNo) (d : Option Line) (b : Blk) : Blk :=
  { b with wv := { b.wv with fetch := b.wv.fetch.map fun f => f.take line d } }
def State.dataAt (rq : Rq) (line : LineNo) (d : Line) (excl : Bool) (s : State) : State :=
  match rq with
  | .agent a => s.agentData a line d excl
  | .slot q n => s.onBlock (·.send (.slotReadReturn q n (some d)))
  | .seq i p => s.onBlock (·.send (.seqMemoryResponse i p d 0))
  | .draw e ch => s.onBlock (·.drawResp e ch line (some d) false)
  | .tdesc e => s.onBlock (·.copyResp e line d false)
  | .weave => s.onBlock (·.fetchResp line (some d))
  | .window t =>
    match (s.blk.seat t).unfin with
    | some (.aperRead o) => s.finish t false (aperWord (s.blk.seat t) o d).toNat
    | _ => s
  | .image ord _ => s.onBlock (·.loadData ord 0 d 0)
  | .stream ord e => s.onBlock (·.loadData ord e d 0)
  | _ => s
/-- A message reaches a requester if it is the first on its path; commands may complete by it, and accesses go on. -/
def State.arrivalRow (s : State) (m : Instr) (f : State → State) : Host.Outcome State Fault Refusal :=
  s.hostRow fun s => if s.blk.up && s.blk.mayArrive m then (f (s.onBlock (·.arrived m))).onBlock (·.pump s.env) else s
/-- A Data message reaches its requester, from its home or from the agent that supplied it. -/
def execData (src : Option AgentId) (rq : Rq) (line : LineNo) (d : Line) (excl : Bool) (s : State) : Host.Outcome State Fault Refusal :=
  s.arrivalRow (.data src rq line d excl) fun s => s.dataAt rq line d excl

/-- A read or write of the window ends, with WIN_TETHER for an error response. -/
def State.windowDone (t : Seat) (old : W64) (resp : BitVec 2) (s : State) : State :=
  let s := if resp = 0 then s else s.onBlock (·.modSeat t fun v => v.winErr 1 resp)
  match (s.blk.seat t).unfin with
  | some (.aperWrite _) => s.finish t true 0
  | some (.aperRead _) => s.finish t false 0
  | some (.atomic _ _) => (if resp = 0 then s.onBlock (·.modSeat t fun v => { v with atomRes := old }) else s).finish t true 0
  | _ => s
/-- A line asked for ends in an error response. -/
def State.agentError (a : AgentId) (line : LineNo) (resp : BitVec 2) (s : State) : State :=
  let n := line.toNat
  if !s.blk.missing a n then s else
  let s := s.onBlock (·.delMiss a n)
  if h : a.val < 64 then s.onBlock (·.send (.gatherFill ⟨a.val, h⟩ line 0 resp))
  else if a.val < 68 then s.onBlock (·.toPlaces (seqId (a.val - 64)) line 0 resp)
  else
    let hit := s.blk.mem.far.filter fun t => s.blk.atomLine t.seat == some n
    let s := s.onBlock fun b => { b with mem := { b.mem with far := b.mem.far.filter fun t => !hit.contains t } }
    (hit.foldl (fun s t => s.windowDone t.seat 0 resp) s).onBlock Blk.farPump
/-- A write of the tangle graph is acknowledged. -/
def Blk.tangleAck (resp : BitVec 2) (b : Blk) : Blk :=
  let t := b.dbg.tangle
  { b with dbg := { b.dbg with tangle := { t with want := t.want - 1, bad := t.bad || resp != 0 } } }
def State.cmpAt (rq : Rq) (line : LineNo) (old : W64) (resp : BitVec 2) (s : State) : State :=
  match rq with
  | .window t => s.windowDone t old resp
  | .agent a => if resp = 0 then s else s.agentError a line resp
  | .slot q n => if resp = 0 then s else s.onBlock (·.send (.slotReadReturn q n none))
  | .seq i p => s.onBlock (·.send (.seqMemoryResponse i p 0 resp))
  | .draw e ch => s.onBlock (·.drawResp e ch line none (resp != 0))
  | .tdesc e => if resp = 0 then s else s.onBlock (·.copyResp e line 0 true)
  | .weave => if resp = 0 then s else s.onBlock (·.fetchResp line none)
  | .trace r => s.onBlock fun b => b.setRing r ((b.ring r).ack resp)
  | .tangle => s.onBlock (·.tangleAck resp)
  | .image ord _ => if resp = 0 then s else s.onBlock (·.loadData ord 0 0 resp)
  | .stream ord e => if resp = 0 then s else s.onBlock (·.loadData ord e 0 resp)
  | .record q => s.onBlock (·.send (.statusRecordAck (.ring q) resp))
  | .runRecord e => s.onBlock (·.send (.statusRecordAck (.run e) resp))
  | .intake p => s.onBlock (·.landed s.env p line resp)
  | _ => s
/-- A Cmp message, or an error response to a read, reaches its requester. -/
def execCmpMessage (rq : Rq) (line : LineNo) (old : W64) (resp : BitVec 2) (s : State) : Host.Outcome State Fault Refusal :=
  s.arrivalRow (.cmpMessage rq line old resp) fun s => s.cmpAt rq line old resp

/-! ### Aperture and atomics (R256 to R258) -/

def aperAddr (a : Acc) (o : BitVec 13) : BitVec 22 := BitVec.ofNat 22 (seatAddr a.seat.val (0x8000 + 4 * o.toNat))
def execApertureRead (a : Acc) (o : BitVec 13) (s : State) : Host.Outcome State Fault Refusal :=
  .next ((s.access a (aperAddr a o) none fun s => s.aperture { acc := a, addr := aperAddr a o, wdata := none } (0x8000 + 4 * o.toNat)).settle)
def execApertureWrite (a : Acc) (o : BitVec 13) (d : W32) (s : State) : Host.Outcome State Fault Refusal :=
  .next ((s.access a (aperAddr a o) (some d) fun s =>
    s.aperture { acc := a, addr := aperAddr a o, wdata := some d } (0x8000 + 4 * o.toNat)).settle)
/-- The word written to MEM_ATOM_GO. -/
def atomWord (op : AtomOp) (wide : Bool) : W32 := BitVec.ofNat 32 (atomOpNum op + 8 * b2n wide)
def State.atomRow (a : Acc) (op : AtomOp) (wide : Bool) (s : State) : Host.Outcome State Fault Refusal :=
  let ad := BitVec.ofNat 22 (seatAddr a.seat.val 0x328)
  let w := atomWord op wide
  .next ((s.access a ad (some w) fun s => s.perform { acc := a, addr := ad, wdata := some w }).settle)
def execAtomicAdd (a : Acc) (wide : Bool) (s : State) : Host.Outcome State Fault Refusal := s.atomRow a .add wide
def execAtomicSwap (a : Acc) (wide : Bool) (s : State) : Host.Outcome State Fault Refusal := s.atomRow a .swap wide
def execAtomicCas (a : Acc) (wide : Bool) (s : State) : Host.Outcome State Fault Refusal := s.atomRow a .cas wide
def execAtomicUmax (a : Acc) (wide : Bool) (s : State) : Host.Outcome State Fault Refusal := s.atomRow a .umax wide
def execAtomicAnd (a : Acc) (wide : Bool) (s : State) : Host.Outcome State Fault Refusal := s.atomRow a .and wide
def execAtomicOr (a : Acc) (wide : Bool) (s : State) : Host.Outcome State Fault Refusal := s.atomRow a .or wide

/-! ### The end of a belay (R427, R429) -/

/-- DBG_BELAY.RELEASE. -/
def execRelease (a : Acc) (s : State) : Host.Outcome State Fault Refusal :=
  .next ((s.access a 0xA004 (some 2) fun s => s.perform { acc := a, addr := 0xA004, wdata := some 2 }).settle)
def execBelayStopped (s : State) : Host.Outcome State Fault Refusal := s.hostRow fun s => s.onBlock (·.belayStops s.env)

/-! ### The TAP (R432) -/

def idcode : W32 := 0x14B64001

/-- The save image of engine e as it stands, then ENG_STATUS and the progress counter. -/
def Blk.engImage (e : Nat) (b : Blk) : Blk × List W8 :=
  let v := b.engine e
  let j := v.job.getD { run := false, q := 0, n := 0 }
  let y := b.saveImage (v.saveOf b j)
  (y.1, y.2 ++ toBytes 4 (b.engStatus e) ++ toBytes 8 v.progress.toNat)
def seqImage (v : Seq) : List W8 :=
  let shadow := match v.shadow with
    | none => [0]
    | some h => 1 :: (toBytes 2 h.sptr.toNat ++ toBytes 2 h.lc.toNat ++ [BitVec.ofNat 8 h.stack.length] ++ padTo 8 (h.stack.flatMap fun a => toBytes 2 a.toNat)
        ++ (range 16).flatMap (fun i => toBytes 8 (SMap.get 0 h.w i).toNat) ++ [BitVec.ofNat 8 (b2n h.z + 2 * b2n h.c)])
  (range 16).flatMap (fun i => toBytes 8 (v.wreg i).toNat) ++ toBytes 2 v.lc.toNat ++ padTo 8 (v.stack.flatMap fun a => toBytes 2 a.toNat)
    ++ [BitVec.ofNat 8 v.stack.length, BitVec.ofNat 8 (b2n v.z + 2 * b2n v.c)] ++ shadow ++ toBytes 2 v.sptr.toNat
    ++ v.lines.flatMap (fun l => toBytes 2 l.1 ++ toBytes 4 l.2.1 ++ toBytes 64 l.2.2.toNat)
    ++ toBytes 128 v.descBuf.toNat ++ toBytes 16 v.recBuf.toNat ++ toBytes 128 v.copyBuf.toNat
/-- One line of engine local memory (0), a region cache way (1: a line by set; a save way holds save areas), the knot table (2) or the scoreboard (3). -/
def Blk.memImage (what : BitVec 2) (u : Nat) (way : Nat) (addr : Nat) (b : Blk) : List W8 :=
  match what.toNat with
  | 0 => toBytes 64 (Mem.readLine (b.engine u).lm (addr / 64 * 64)).toNat
  | 1 =>
    if (saveWays b.wv.cur (u % 4)).getLsbD way then toBytes 64 (Mem.readLine b.mem.saves (saveWayBase (u % 4) way + 64 * (addr % 4096))).toNat else
    match b.mem.rc.find? fun l => homeOf l.1 == u % 4 && setOf l.1 == addr % 4096 && l.2.way == way with
    | some l => toBytes 64 l.2.data.toNat
    | none => List.replicate 64 0
  | 2 => (range 4).flatMap fun i =>
      let k := addr / 64 * 4 + i
      toBytes 8 (b.knot k).val.toNat ++ toBytes 4 ((b.knot k).flags.toNat + 65536 * b.waitersOn k) ++ toBytes 4 (b.knot k).role.toNat
  | _ =>
    match b.sb.find? fun e => e.ord % 2048 == addr % 2048 with
    | some e => toBytes 64 e.slot.toNat
    | none => List.replicate 64 0
def portImage (v : MPort) : List W8 :=
  v.tags.flatMap (fun t => toBytes 2 t.1 ++ toBytes 8 (64 * t.2.line.toNat)) ++ [v.reqCred, v.wdCred, v.lnk.txSeq, v.lnk.rxSeq, v.lnk.acked]
def intakeImage (v : Intake) : List W8 :=
  toBytes 2 ((v.fill + 31) / 32) ++ padTo 64 ((v.opened.map fun i => (i.staged ++ i.buffered).take 64).getD [])
/-- What an instrument shifts out; every one but the belay's shifts zeros unless the block is STOPPED. -/
def Blk.tapRead (x : Env) (op : TapOp) (b : Blk) : Blk × List W8 :=
  let zero := fun (y : Blk × List W8) => if b.dbg.belay = .stopped then y else (b, y.2.map fun _ => 0)
  match op with
  | .ir v => (b, if v = 0x01 then toBytes 4 idcode.toNat else [])
  | .belay enter release =>
    let out := [BitVec.ofNat 8 (b.dbg.belay.code + 4 * b.dbg.cause.toNat)]
    let b := if enter then b.belayCause x 4 else b
    (if release then b.belayRelease x else b, out)
  | .engine e => zero (b.engImage e)
  | .sequencer s => zero (b, seqImage (b.seq s))
  | .memory what u way addr => zero (b, b.memImage what u.toNat way.toNat addr.toNat)
  | .port n => zero (b, portImage (b.port n))
  | .intake p => zero (b, intakeImage (b.intake p))
  | .trst _ | .clock _ _ => (b, [])

/-! ### The TAP controller (R356; IEEE 1149.1, log 133) -/

/-- The controller's next state. -/
def TapState.next (s : TapState) (tms : Bool) : TapState :=
  match s with
  | .testLogicReset => if tms then .testLogicReset else .runTestIdle
  | .runTestIdle | .updateDr | .updateIr => if tms then .selectDr else .runTestIdle
  | .selectDr => if tms then .selectIr else .captureDr
  | .captureDr | .shiftDr => if tms then .exit1Dr else .shiftDr
  | .exit1Dr => if tms then .updateDr else .pauseDr
  | .pauseDr => if tms then .exit2Dr else .pauseDr
  | .exit2Dr => if tms then .updateDr else .shiftDr
  | .selectIr => if tms then .testLogicReset else .captureIr
  | .captureIr | .shiftIr => if tms then .exit1Ir else .shiftIr
  | .exit1Ir => if tms then .updateIr else .pauseIr
  | .pauseIr => if tms then .exit2Ir else .pauseIr
  | .exit2Ir => if tms then .updateIr else .shiftIr
/-- TDO_EN: TDO is driven in the two shift states alone. -/
def Debug.tdoEn (d : Debug) : Bool := d.tapSt == .shiftDr || d.tapSt == .shiftIr
/-- The rising edge of TCK in a state: the register that the instruction selects captures or shifts. What the network holds in
front of its instruments is not given: it shifts out free bits. -/
def Blk.tapEdge (tdi : Bool) (b : Blk) : Blk :=
  let d := b.dbg
  let put := fun (b : Blk) (v : W32) => ({ b with dbg := { b.dbg with tapShift := v } } : Blk)
  match d.tapSt with
  | .captureIr =>
    -- the two lowest bits are 01, the others are not given
    let y := b.drawFree
    put y.2 (BitVec.ofNat 32 (4 * (y.1.toNat % 64) + 1))
  | .captureDr => put b (if d.tapIr = 0x01 then idcode else 0)
  | .shiftIr => put b (BitVec.ofNat 32 (d.tapShift.toNat % 256 / 2 + 128 * b2n tdi))
  | .shiftDr =>
    if d.tapIr = 0x01 then put b (BitVec.ofNat 32 (d.tapShift.toNat / 2 + 2 ^ 31 * b2n tdi))
    else put b (BitVec.ofNat 32 (b2n tdi))
  | _ => b
/-- The falling edge in the state reached: an instruction takes effect, TDO changes. -/
def Blk.tapFall (b : Blk) : Blk :=
  let d := b.dbg
  match d.tapSt with
  | .testLogicReset => { b with dbg := { d with tapIr := 0x01 } }
  | .updateIr => { b with dbg := { d with tapIr := BitVec.ofNat 8 d.tapShift.toNat } }
  | .shiftDr =>
    if d.tapIr = 0x10 then
      let y := b.drawFree
      { y.2 with dbg := { d with tdo := y.1.getLsbD 0 } }
    else { b with dbg := { d with tdo := d.tapShift.getLsbD 0 } }
  | .shiftIr => { b with dbg := { d with tdo := d.tapShift.getLsbD 0 } }
  | _ => b
def Blk.tapCycle (tms tdi : Bool) (b : Blk) : Blk :=
  let b := b.tapEdge tdi
  ({ b with dbg := { b.dbg with tapSt := b.dbg.tapSt.next tms } } : Blk).tapFall
/-- TRST_N: while it is low the controller rests in Test-Logic-Reset with IDCODE selected. -/
def Debug.trst (d : Debug) (low : Bool) : Debug :=
  if low then { d with trstLow := true, tapSt := .testLogicReset, tapIr := 0x01 } else { d with trstLow := false }
/-- IR 0x10 NET reaches the instruments, and wakes a sleeping block (R396); 0x01 reads IDCODE; every other value bypasses. -/
def Blk.tap (x : Env) (op : TapOp) (b : Blk) : Blk :=
  match op with
  | .trst low => { b with dbg := b.dbg.trst low }
  | .clock tms tdi =>
    if b.start.poresetLow || b.dbg.trstLow then b else
    let net := b.dbg.tapIr = 0x10 ∧ (b.dbg.tapSt = .captureDr ∨ b.dbg.tapSt = .shiftDr ∨ b.dbg.tapSt = .updateDr)
    (if net then b.wake x else b).tapCycle tms tdi
  | .ir v =>
    if b.start.poresetLow || b.dbg.trstLow then b else
    { b with dbg := { b.dbg with tapIr := v, tapOut := (b.tapRead x op).2 } }
  | op =>
    if b.start.poresetLow || b.dbg.trstLow || b.dbg.tapIr ≠ 0x10 then b else
    let y := (b.wake x).tapRead x op
    { y.1 with dbg := { y.1.dbg with tapOut := y.2 } }
def execTapAccess (op : TapOp) (s : State) : Host.Outcome State Fault Refusal :=
  s.hostRow fun s => s.onBlock fun b => (b.tap s.env op).pump s.env

end Sys2Proof.Machine
end

