-- ==== Sys2Proof/Machine/Dispatch.lean ====
section
/-! DEFINITION. The commands' meanings, one arm per constructor of Instr. -/

namespace Sys2Proof.Machine

def exec (i : Instr) (s : State) : Host.Outcome State Fault Refusal :=
  match i with
  | .nop q => Sys2Proof.Machine.execNop q s
  | .launch q => Sys2Proof.Machine.execLaunch q s
  | .stand q => Sys2Proof.Machine.execStand q s
  | .unstand q => Sys2Proof.Machine.execUnstand q s
  | .hitch q => Sys2Proof.Machine.execHitch q s
  | .tie q => Sys2Proof.Machine.execTie q s
  | .copy q => Sys2Proof.Machine.execCopy q s
  | .fill q => Sys2Proof.Machine.execFill q s
  | .imemLoad q => Sys2Proof.Machine.execImemLoad q s
  | .weightStream q => Sys2Proof.Machine.execWeightStream q s
  | .watch q => Sys2Proof.Machine.execWatch q s
  | .mark q => Sys2Proof.Machine.execMark q s
  | .tag q => Sys2Proof.Machine.execTag q s
  | .membar q => Sys2Proof.Machine.execMembar q s
  | .fencedComplete q => Sys2Proof.Machine.execFencedComplete q s
  | .queDoorbell a q v => Sys2Proof.Machine.execQueDoorbell a q v s
  | .create a q srEn irqEn => Sys2Proof.Machine.execCreate a q srEn irqEn s
  | .drain a q srEn irqEn => Sys2Proof.Machine.execDrain a q srEn irqEn s
  | .abort a q srEn irqEn => Sys2Proof.Machine.execAbort a q srEn irqEn s
  | .queueFree q => Sys2Proof.Machine.execQueueFree q s
  | .engineAcknowledge q e => Sys2Proof.Machine.execEngineAcknowledge q e s
  | .queueWake q => Sys2Proof.Machine.execQueueWake q s
  | .slotReadReturn q n line => Sys2Proof.Machine.execSlotReadReturn q n line s
  | .commandComplete q n => Sys2Proof.Machine.execCommandComplete q n s
  | .compAdvance q => Sys2Proof.Machine.execCompAdvance q s
  | .statusRecordAck k resp => Sys2Proof.Machine.execStatusRecordAck k resp s
  | .next u => Sys2Proof.Machine.execNext u s
  | .jump u => Sys2Proof.Machine.execJump u s
  | .tret u => Sys2Proof.Machine.execTret u s
  | .branch u => Sys2Proof.Machine.execBranch u s
  | .call u => Sys2Proof.Machine.execCall u s
  | .ret u => Sys2Proof.Machine.execRet u s
  | .loop u => Sys2Proof.Machine.execLoop u s
  | .dispatch u => Sys2Proof.Machine.execDispatch u s
  | .wait u => Sys2Proof.Machine.execWait u s
  | .seqMemoryResponse u place data resp => Sys2Proof.Machine.execSeqMemoryResponse u place data resp s
  | .microTrap u => Sys2Proof.Machine.execMicroTrap u s
  | .storeEcc u strand => Sys2Proof.Machine.execStoreEcc u strand s
  | .kntTieGo a w => Sys2Proof.Machine.execKntTieGo a w s
  | .tieApply => Sys2Proof.Machine.execTieApply s
  | .waiterWake => Sys2Proof.Machine.execWaiterWake s
  | .knotEccError k => Sys2Proof.Machine.execKnotEccError k s
  | .kntWinValLoRead a k => Sys2Proof.Machine.execKntWinValLoRead a k s
  | .kntPeakClr a => Sys2Proof.Machine.execKntPeakClr a s
  | .tautSelection => Sys2Proof.Machine.execTautSelection s
  | .slackSelection => Sys2Proof.Machine.execSlackSelection s
  | .quantumExpiry => Sys2Proof.Machine.execQuantumExpiry s
  | .preemptRequest e => Sys2Proof.Machine.execPreemptRequest e s
  | .saveComplete e => Sys2Proof.Machine.execSaveComplete e s
  | .restoreComplete e => Sys2Proof.Machine.execRestoreComplete e s
  | .stealRequest e => Sys2Proof.Machine.execStealRequest e s
  | .stealComplete e => Sys2Proof.Machine.execStealComplete e s
  | .standingRunSend e => Sys2Proof.Machine.execStandingRunSend e s
  | .descriptorCopyDone e => Sys2Proof.Machine.execDescriptorCopyDone e s
  | .tileStart e => Sys2Proof.Machine.execTileStart e s
  | .bundleIssue e => Sys2Proof.Machine.execBundleIssue e s
  | .pendingWriteLand e => Sys2Proof.Machine.execPendingWriteLand e s
  | .gatherFill e line data resp => Sys2Proof.Machine.execGatherFill e line data resp s
  | .indexFetchReturn e ag => Sys2Proof.Machine.execIndexFetchReturn e ag s
  | .drawRowComplete e ch => Sys2Proof.Machine.execDrawRowComplete e ch s
  | .tileComplete e => Sys2Proof.Machine.execTileComplete e s
  | .tileFault e => Sys2Proof.Machine.execTileFault e s
  | .launchRetire => Sys2Proof.Machine.execLaunchRetire s
  | .twinCompare twin => Sys2Proof.Machine.execTwinCompare twin s
  | .thirdIssue twin => Sys2Proof.Machine.execThirdIssue twin s
  | .fetch a quiet => Sys2Proof.Machine.execFetch a quiet s
  | .check a quiet => Sys2Proof.Machine.execCheck a quiet s
  | .pour a quiet => Sys2Proof.Machine.execPour a quiet s
  | .cancel a quiet => Sys2Proof.Machine.execCancel a quiet s
  | .steepWrite a word data => Sys2Proof.Machine.execSteepWrite a word data s
  | .fetchComplete => Sys2Proof.Machine.execFetchComplete s
  | .checkComplete => Sys2Proof.Machine.execCheckComplete s
  | .quietPourReady => Sys2Proof.Machine.execQuietPourReady s
  | .pourEdge => Sys2Proof.Machine.execPourEdge s
  | .slotAllocationSwitch => Sys2Proof.Machine.execSlotAllocationSwitch s
  | .engineClearDone e => Sys2Proof.Machine.execEngineClearDone e s
  | .pourDone => Sys2Proof.Machine.execPourDone s
  | .rds a line => Sys2Proof.Machine.execRds a line s
  | .rdonce rq line => Sys2Proof.Machine.execRdonce rq line s
  | .rdm line => Sys2Proof.Machine.execRdm line s
  | .wr rq line data mask => Sys2Proof.Machine.execWr rq line data mask s
  | .atom line at' => Sys2Proof.Machine.execAtom line at' s
  | .evict a line => Sys2Proof.Machine.execEvict a line s
  | .wb line data => Sys2Proof.Machine.execWb line data s
  | .fwd a line rq => Sys2Proof.Machine.execFwd a line rq s
  | .fwdinv a line => Sys2Proof.Machine.execFwdinv a line s
  | .inv a line => Sys2Proof.Machine.execInv a line s
  | .data src rq line d excl => Sys2Proof.Machine.execData src rq line d excl s
  | .fwdmiss a line rq => Sys2Proof.Machine.execFwdmiss a line rq s
  | .invack a line d => Sys2Proof.Machine.execInvack a line d s
  | .ack a line => Sys2Proof.Machine.execAck a line s
  | .cmpMessage rq line old resp => Sys2Proof.Machine.execCmpMessage rq line old resp s
  | .holdEnd a line => Sys2Proof.Machine.execHoldEnd a line s
  | .apertureRead a off => Sys2Proof.Machine.execApertureRead a off s
  | .apertureWrite a off d => Sys2Proof.Machine.execApertureWrite a off d s
  | .atomicAdd a wide => Sys2Proof.Machine.execAtomicAdd a wide s
  | .atomicSwap a wide => Sys2Proof.Machine.execAtomicSwap a wide s
  | .atomicCas a wide => Sys2Proof.Machine.execAtomicCas a wide s
  | .atomicUmax a wide => Sys2Proof.Machine.execAtomicUmax a wide s
  | .atomicAnd a wide => Sys2Proof.Machine.execAtomicAnd a wide s
  | .atomicOr a wide => Sys2Proof.Machine.execAtomicOr a wide s
  | .predReset a => Sys2Proof.Machine.execPredReset a s
  | .memPeakClr a p => Sys2Proof.Machine.execMemPeakClr a p s
  | .rdata p tag d resp => Sys2Proof.Machine.execRdata p tag d resp s
  | .rsp p tag resp => Sys2Proof.Machine.execRsp p tag resp s
  | .creditReturn p req wd => Sys2Proof.Machine.execCreditReturn p req wd s
  | .flitReceive f => Sys2Proof.Machine.execFlitReceive f s
  | .nak p seq => Sys2Proof.Machine.execNak p seq s
  | .replayTimeout p => Sys2Proof.Machine.execReplayTimeout p s
  | .train p bits => Sys2Proof.Machine.execTrain p bits s
  | .trainingTimeout p => Sys2Proof.Machine.execTrainingTimeout p s
  | .intakeBeat p d last ts => Sys2Proof.Machine.execIntakeBeat p d last ts s
  | .damageEntry p w => Sys2Proof.Machine.execDamageEntry p w s
  | .destinationFree p => Sys2Proof.Machine.execDestinationFree p s
  | .itemWritesLanded p resp => Sys2Proof.Machine.execItemWritesLanded p resp s
  | .keepCycle budget => Sys2Proof.Machine.execKeepCycle budget s
  | .levelStep => Sys2Proof.Machine.execLevelStep s
  | .capWindowBoundary => Sys2Proof.Machine.execCapWindowBoundary s
  | .sleepEntry => Sys2Proof.Machine.execSleepEntry s
  | .wake c => Sys2Proof.Machine.execWake c s
  | .clockAcknowledge ctl level => Sys2Proof.Machine.execClockAcknowledge ctl level s
  | .droopWarn => Sys2Proof.Machine.execDroopWarn s
  | .rampBackStart => Sys2Proof.Machine.execRampBackStart s
  | .rampBackStep => Sys2Proof.Machine.execRampBackStep s
  | .poresetN => Sys2Proof.Machine.execPoresetN s
  | .sysResetN => Sys2Proof.Machine.execSysResetN s
  | .coldStart steward keyHash => Sys2Proof.Machine.execColdStart steward keyHash s
  | .warmStart => Sys2Proof.Machine.execWarmStart s
  | .selfTestComplete fail => Sys2Proof.Machine.execSelfTestComplete fail s
  | .wardenBooted => Sys2Proof.Machine.execWardenBooted s
  | .startDone => Sys2Proof.Machine.execStartDone s
  | .patchBeat d last => Sys2Proof.Machine.execPatchBeat d last s
  | .patchDigestDone => Sys2Proof.Machine.execPatchDigestDone s
  | .signatureVerified => Sys2Proof.Machine.execSignatureVerified s
  | .keyBeat d => Sys2Proof.Machine.execKeyBeat d s
  | .decryptDone => Sys2Proof.Machine.execDecryptDone s
  | .romLoadDone => Sys2Proof.Machine.execRomLoadDone s
  | .patchApplied => Sys2Proof.Machine.execPatchApplied s
  | .hangDeclared e => Sys2Proof.Machine.execHangDeclared e s
  | .contextStepDone e => Sys2Proof.Machine.execContextStepDone e s
  | .rungOrder r cause => Sys2Proof.Machine.execRungOrder r cause s
  | .rungTimeout r => Sys2Proof.Machine.execRungTimeout r s
  | .engineReset by' e => Sys2Proof.Machine.execEngineReset by' e s
  | .partitionReset by' p => Sys2Proof.Machine.execPartitionReset by' p s
  | .blockReset by' => Sys2Proof.Machine.execBlockReset by' s
  | .powerCycle by' => Sys2Proof.Machine.execPowerCycle by' s
  | .engineResetDone e => Sys2Proof.Machine.execEngineResetDone e s
  | .pcycAckTimeout => Sys2Proof.Machine.execPcycAckTimeout s
  | .eccCe code unit addr => Sys2Proof.Machine.execEccCe code unit addr s
  | .eccUe code unit addr => Sys2Proof.Machine.execEccUe code unit addr s
  | .wbRefused p line resp => Sys2Proof.Machine.execWbRefused p line resp s
  | .wardenStop => Sys2Proof.Machine.execWardenStop s
  | .belayIn => Sys2Proof.Machine.execBelayIn s
  | .belayStopped => Sys2Proof.Machine.execBelayStopped s
  | .release a => Sys2Proof.Machine.execRelease a s
  | .breakUnitFire ev => Sys2Proof.Machine.execBreakUnitFire ev s
  | .unhold a u => Sys2Proof.Machine.execUnhold a u s
  | .resume a which => Sys2Proof.Machine.execResume a which s
  | .step a which => Sys2Proof.Machine.execStep a which s
  | .seatBelayRequest a => Sys2Proof.Machine.execSeatBelayRequest a s
  | .triggerFire u => Sys2Proof.Machine.execTriggerFire u s
  | .capture a => Sys2Proof.Machine.execCapture a s
  | .go a all => Sys2Proof.Machine.execGo a all s
  | .tangleDone => Sys2Proof.Machine.execTangleDone s
  | .counterSelect a eng idx d => Sys2Proof.Machine.execCounterSelect a eng idx d s
  | .counterSample => Sys2Proof.Machine.execCounterSample s
  | .caddyDrainWrite c => Sys2Proof.Machine.execCaddyDrainWrite c s
  | .claim a e => Sys2Proof.Machine.execClaim a e s
  | .claimRelease a e => Sys2Proof.Machine.execClaimRelease a e s
  | .tapAccess op => Sys2Proof.Machine.execTapAccess op s
  | .refEdge => Sys2Proof.Machine.execRefEdge s
  | .timeLoad v => Sys2Proof.Machine.execTimeLoad v s
  | .timePps => Sys2Proof.Machine.execTimePps s
  | .holdover => Sys2Proof.Machine.execHoldover s
  | .set a disc => Sys2Proof.Machine.execSet a disc s
  | .loadUpdate => Sys2Proof.Machine.execLoadUpdate s
  | .commit a => Sys2Proof.Machine.execCommit a s
  | .seatExpertEnable a u d => Sys2Proof.Machine.execSeatExpertEnable a u d s
  | .clear a => Sys2Proof.Machine.execClear a s
  | .registerWrite a addr d => Sys2Proof.Machine.execRegisterWrite a addr d s
  | .belayEnter a => Sys2Proof.Machine.execBelayEnter a s
  | .snapshotRead a addr => Sys2Proof.Machine.execSnapshotRead a addr s
  | .membarScanDone q n => Sys2Proof.Machine.execMembarScanDone q n s
  | .emulatedAccessDone => Sys2Proof.Machine.execEmulatedAccessDone s
  | .issueSlot p => Sys2Proof.Machine.execIssueSlot p s

end Sys2Proof.Machine
end

