-- ==== Sys2Proof/Machine/Tick.lean ====
section
/-! DEFINITION. What passes on a control cycle by itself: the counts that R442 and R443 add once per cycle (log 2). -/

namespace Sys2Proof.Machine

/-- Tags in use on port `p`, added once per cycle. -/
def Blk.tickPort (p : Nat) (b : Blk) : Blk := b.bump (evBlk 0x11 p) (b.port p).inUse
/-- The level of engine `e`, added once per cycle. Of `n` edges of the divided arithmetic clock an engine at level k receives k of
every 16, spread evenly (R387); those of an engine with a tile are counted as the tile's cycles. -/
def Blk.tickEngine (n e : Nat) (b : Blk) : Blk :=
  let v := b.engine e
  if v.level = 0 then b else
  let b := b.bump (evEng e 0x1D) v.level
  if v.started then b else
  let k := (v.phase + n * v.level) / 16
  (b.setEng e { v with phase := (v.phase + n * v.level) % 16 }).bump (evEng e 0x01) k
/-- How many edges of the divided arithmetic clock fall in the control cycle: a free value (log 9). -/
def Blk.divEdges (b : Blk) : Nat := (Config.freeWord b.freeCtr).toNat
/-- One control cycle: the clock of the control domain runs outside sleep and resets (R386). -/
def Blk.controlCycle (b : Blk) : Blk :=
  let b : Blk := { b with ctlCycle := b.ctlCycle + 1 }
  let b := ((b.bump (evBlk 0x01 0) 1).bump (evBlk 0x08 0) b.sb.length).bump (evBlk 0x09 0) b.kn.waiters.length
  let b := if b.pwr.clock = .full then b else b.bump (evBlk 0x17 0) 1
  let b := b.bump (evBlk 0x18 0) (b.estimate / 4000)
  let b := (range 4).foldl (fun b p => b.tickPort p) b
  let n := b.divEdges
  let b := (range 64).foldl (fun b e => b.tickEngine n e) { b with freeCtr := b.freeCtr + 1 }
  (b.noteCycle.passCredits 1).beginDrains

/-- One control cycle with no command waiting; stamps count the arithmetic edges in it (R449). -/
def tick (s : State) : State :=
  if !s.blk.up then s else
  { s with env := { s.env with time := { s.env.time with divEdges := s.env.time.divEdges + s.blk.divEdges } }, blk := s.blk.controlCycle }

end Sys2Proof.Machine
end

