-- ==== Sys2Proof/Safety.lean ====
section
/-! DEFINITION. What claims are stated with: invariants of the block, the parts a command may change, when a command has
its own effect. -/

namespace Sys2Proof.Machine

/-! ### Invariants -/

/-- The steep buffer is in its canonical form. -/
abbrev State.SteepWf (s : State) : Prop := Memory.wf s.env.steep

/-! ### Frames -/

/-- Between the two blocks only what the work of queues reaches differs: queues, sequencers, the scoreboard, standing
launches, knots, the ring, seats' counters, tallies. -/
def Blk.QueueWork (b c : Blk) : Prop :=
  c = { b with
    qs := c.qs, sq := c.sq, sb := c.sb, stand := c.stand, kn := c.kn
    dsp := { b.dsp with nextOrd := c.dsp.nextOrd }
    wv := { b.wv with staleCnt := c.wv.staleCnt }
    host := { b.host with seats := c.host.seats }
    mem := { b.mem with ring := c.mem.ring }
    trc := { b.trc with tally := c.trc.tally } }

/-- Between the two blocks only what the dispatcher and the engines reach differs: engines, launches, standing launches,
messages of the dispatcher, launches that retire, save areas, and what the work of queues reaches. -/
def Blk.EngineWork (b c : Blk) : Prop :=
  c = { b with
    eng := c.eng, sb := c.sb, stand := c.stand, dsp := c.dsp, qs := c.qs, sq := c.sq, kn := c.kn, freeCtr := c.freeCtr
    wv := { b.wv with staleCnt := c.wv.staleCnt, retiring := c.wv.retiring }
    host := { b.host with seats := c.host.seats }
    mem := { b.mem with ring := c.mem.ring, saves := c.mem.saves }
    trc := { b.trc with tally := c.trc.tally } }
/-- Between the two blocks only what `Blk.pump` reaches differs (07 R227): what the work of queues reaches; engines' banks
and tensor descriptor reads, for loads and standing launches that start; the descriptor caches, for slots at HEAD; the
block caddy and the tags shown to the break units, for MARK and TAG. -/
def Blk.PumpWork (b c : Blk) : Prop :=
  c = { b with
    qs := c.qs, sq := c.sq, sb := c.sb, stand := c.stand, kn := c.kn, eng := c.eng
    dsp := { b.dsp with nextOrd := c.dsp.nextOrd }
    wv := { b.wv with staleCnt := c.wv.staleCnt }
    host := { b.host with seats := c.host.seats }
    mem := { b.mem with ring := c.mem.ring, agents := c.mem.agents, misses := c.mem.misses, clock := c.mem.clock }
    trc := { b.trc with tally := c.trc.tally, caddy := c.trc.caddy }
    dbg := { b.dbg with tags := c.dbg.tags } }
/-- No command is entered, and no sequencer serves a queue or has one to serve: `Blk.pump` has nothing to start. -/
def Blk.Rests (b : Blk) : Prop := b.sb = [] ∧ ∀ i : Nat, i < 4 → (b.seq i).serving = false ∧ b.selectQueue i = none

/-- Between the two blocks only what the homes hold differs: rolling cache, directory, BUSY marks, waiting requests, ring,
ports, the predictor, which words of the window hold an error. -/
def Blk.HomeOnly (b c : Blk) : Prop :=
  c = { b with
    mem := { b.mem with
      rc := c.mem.rc, dir := c.mem.dir, busy := c.mem.busy, waitQ := c.mem.waitQ, clock := c.mem.clock, ring := c.mem.ring
      ports := c.mem.ports, pred := c.mem.pred, bad := c.mem.bad, cohNear := c.mem.cohNear, cohRecall := c.mem.cohRecall }
    trc := { b.trc with tally := c.trc.tally } }
/-- And of lines only line n. -/
def Blk.HomeWork (b : Blk) (n : Nat) (c : Blk) : Prop :=
  b.HomeOnly c ∧ ∀ k, k ≠ n → c.rcLine k = b.rcLine k ∧ c.dirEnt k = b.dirEnt k
/-- Of the error unit only its log changes, with its interrupts (16 R403, R404). -/
def Faults.LogOnly (f g : Faults) : Prop :=
  g = { f with
    log := g.log, logCnt := g.logCnt, logNext := g.logNext, logMs := g.logMs, dropped := g.dropped, irqLog := g.irqLog
    seatLogs := g.seatLogs }
/-- What a belay that begins at an engine, a trigger or a pin reaches: the debug unit, the intake ports and a pour that
it stops, and what is held for it (17 R427, R428). -/
def Blk.Belaid (b c : Blk) : Prop :=
  c = { b with
    dbg := c.dbg, ik := c.ik, start := { b.start with heldBelay := c.start.heldBelay }, freeCtr := c.freeCtr
    pwr := { b.pwr with ariReq := c.pwr.ariReq, ctlReq := c.pwr.ctlReq, wakeFrom := c.pwr.wakeFrom }
    trc := { b.trc with caddy := c.trc.caddy }
    wv := { b.wv with st := c.wv.st, next := c.wv.next, action := c.wv.action, changing := c.wv.changing } }

/-- No flit injector damages, drops or holds a flit (17 R451). -/
abbrev Blk.NoInjection (b : Blk) : Prop := b.dbg.injEn = false ∧ ∀ u : Nat, u < 4 → (b.injector u).held = none

/-- Two views of a queue that differ in WAKE, IDLE and the record write at most. -/
def Que.Near (u v : Que) : Prop := v = { u with wake := v.wake, idle := v.idle, srWait := v.srWait }

/-! ### Host accesses -/

/-- The block takes the access of seat a.seat, holds none of that seat before it, and is started; the write is whole
(12 R303 to R305, 13 R330, 18 R460). -/
abbrev Blk.Serves (b : Blk) (a : Acc) : Prop :=
  b.hrpReady a.seat.val = true ∧ (b.seat a.seat.val).unfin = none ∧ b.start.done = true ∧ a.be = 15
/-- The host port after a write that had its effect: one response, no data. -/
def Blk.Wrote (_b : Blk) (a : Acc) (c : Blk) : Prop :=
  c.host.resp = [{ seat := BitVec.ofNat 4 a.seat.val, write := true, rdata := 0 }]

/-- The write is answered, and besides `set` of its own effect nothing changes: `c` is the block with that effect. -/
def Blk.WroteOnly (b : Blk) (a : Acc) (set c : Blk) : Prop :=
  c = { set with host := { set.host with resp := c.host.resp } } ∧ b.Wrote a c
/-- The seat's access is the steward's, privileged (01 R27, 12 R303). -/
abbrev State.Steward (s : State) (a : Acc) : Prop := judgeSteward s.env a = none
/-- No seat has an unfinished or a held access. -/
abbrev Blk.PortQuiet (b : Blk) : Prop := ∀ i : Nat, i < 16 → (b.seat i).unfin = none ∧ (b.seat i).held = []
/-- A write that reaches registers of queues alone: their pages, the host port's response, tallies. -/
def Blk.PageWrite (b : Blk) (a : Acc) (c : Blk) : Prop :=
  c = { b with qs := c.qs, host := { b.host with resp := c.host.resp }, trc := { b.trc with tally := c.trc.tally } }
    ∧ b.Wrote a c

/-- What a doorbell write of v does to its queue: the state it leaves, or the code it records (R163, R165). -/
def doorbellCase (u : Que) (v : W32) : Except W8 Que :=
  let t := BitVec.ofNat 32 u.tail
  if u.st ≠ .opened then .error 0x05
  else if 2 ^ 31 ≤ (v - t).toNat then .error 0x06
  else if u.ringSlots.toNat < (v - BitVec.ofNat 32 u.comp).toNat then .error 0x07
  else .ok { u with tail := u.tail + (v - t).toNat, wake := u.wake || (u.idle && decide (v ≠ t)) }
/-- The queue after CREATE, or the code of the first check that fails (R162). -/
def createCase (u : Que) (mapped : Bool) : Except W8 Que :=
  let bad := fun (n : Nat) => decide (n < 64) || decide (65536 < n) || !isPow2 n
  if u.st ≠ .free then .error 0x01
  else if !mapped then .error 0x02
  else if bad u.ringSlots.toNat || (u.srEn && bad u.srSlots.toNat) then .error 0x03
  else if u.ringBase.toNat % 64 ≠ 0 || (u.srEn && decide (u.srBase.toNat % 64 ≠ 0)) then .error 0x04
  else .ok { u with
    tail := 0, head := 0, comp := 0, lost := [], descAt := [], wake := false, idle := true, st := .opened, staleClose := false, closeDue := false
    lastRec := 0
    statusAcc := 0, srOn := u.srEn, done := [], srWait := false, srAcked := false, fence := none, owed := []
    stretchTo := 0 }
/-- The queue with a case's outcome: its new state, or its error recorded (R160, R170). -/
def Que.after (u : Que) : Except W8 Que → Que
  | .ok v => v
  | .error c => { u with err := { u.err with code := c, count := satInc u.err.count, valid := true } }

/-! ### Commands -/

/-- The slot at HEAD of queue q is read and held by its sequencer, has opcode `op` and passes the checks of R181, and no
command and no fence of the queue is in its way (R213, R215). -/
abbrev Blk.Clear (b : Blk) (q : Nat) (op : W8) (l : Line) (d : Option Desc) : Prop :=
  b.slotReady q op = some l ∧ checkSlot b.wv.cur (b.seat ((b.wv.cur.owner q).getD 0)).expert q l d = none
    ∧ (∀ e ∈ b.sb, e.q ≠ q) ∧ (b.que q).fence = none
/-- Both lines of the descriptor d of the slot at HEAD of queue q have come to its sequencer (14 R361). -/
abbrev Blk.HasDesc (b : Blk) (q : Nat) (d : Desc) : Prop :=
  ∃ h, b.headFor q (b.que q).head = some h ∧ h.have0 = true ∧ h.have1 = true ∧ h.bad = false ∧ h.data = d
/-- Once the slot at HEAD of queue q has entered as e, its sequencer has place i free for a request (14 R366). -/
abbrev Blk.Place (b : Blk) (q : Nat) (e : SbEntry) (i : Fin 32) : Prop := ((b.addEntry e).seq (seqOf q)).freePlace = some i
/-- Command n of queue q has left the scoreboard's care with status `st`: its record is among the completed ones. -/
def Blk.Ended (c : Blk) (q n : Nat) (st : Stat) (op : W8) : Prop :=
  PMap.find n (c.que q).done = some (st.record n op)

/-! ### Sequencers -/

/-- The sequencer runs strand w at SPTR, with a yarn that has fields f, and is well formed; no trap is due first, and it
does not single-step (14 R363 to R369). -/
abbrev Blk.YarnAt (b : Blk) (i : SeqId) (w : W32) (f : YarnF) : Prop :=
  b.runsStrand i = true ∧ (b.seq i).inWait = false ∧ (b.seq i).stepping = false ∧ (b.seq i).sptr ≠ 0xFFF
    ∧ b.strand (b.seq i).sptr.toNat = w ∧ f = yarnFields (b.yarn (Strand.yarn w)) ∧ Strand.bad w = false
    ∧ f.bad (b.yarn (Strand.yarn w)) ((b.seq i).wreg f.maddr).toNat (Strand.clen w) = false
/-- The same, with a yarn that makes no request and no interface operation. -/
abbrev Blk.StrandAt (b : Blk) (i : SeqId) (w : W32) (f : YarnF) : Prop := b.YarnAt i w f ∧ f.mem = 0 ∧ f.sbi = 0
/-- The yarn's ALU has no operation and loads nothing (14 R367). -/
abbrev YarnF.AluRests (f : YarnF) : Prop := f.alu = 0 ∧ f.lcld = false ∧ f.flags = false
/-- The ring and sequencer i differ, besides draws of free values and tallies: request m went out from place p, for `what` of
queue q, and SPTR went on (14 R364, R366, R368). -/
def Blk.Asked (b : Blk) (i : SeqId) (p : Fin 32) (q : Nat) (what : SeqReq) (m : Instr) (c : Blk) : Prop :=
  c = { b with sq := c.sq, freeCtr := c.freeCtr, mem := { b.mem with ring := b.mem.ring ++ [m] }
               trc := { b.trc with tally := c.trc.tally } }
    ∧ (∀ j : Nat, j ≠ i.val → c.seq j = b.seq j) ∧ (c.seq i).sptr = (b.seq i).sptr + 1
    ∧ (c.seq i).outs = PMap.put p.val { q := q, what := what } (b.seq i).outs
/-- Between the two blocks only sequencer i differs, but for draws of free values and tallies. -/
def Blk.SeqOnly (b : Blk) (i : SeqId) (c : Blk) : Prop :=
  c = { b with sq := c.sq, freeCtr := c.freeCtr, trc := { b.trc with tally := c.trc.tally } }
    ∧ ∀ j : Nat, j ≠ i.val → c.seq j = b.seq j
/-- The ALU's result, when the operation has one, is in its destination register (14 R367). -/
def Blk.AluDone (b : Blk) (i : SeqId) (f : YarnF) (c : Blk) : Prop :=
  ∀ y, (aluOp f (b.seq i)).1 = some y → (c.seq i).wreg f.dst = y

end Sys2Proof.Machine
end

