-- ==== Sys2Proof/Certificates/Slice0/Obligations.lean ====
section
/-! DEFINITION. The statements for the provers. `c` is the block after, `b` the block before; each clause says when a
command has its own effect, what that is, and what stays. -/

open Sys2Proof Sys2Proof.Machine

/-! ### Slot commands (07) -/

/-- NOP, TAG and MARK complete as they enter (07 R200, R227): HEAD passes the slot, the record is OK; a TAG is
presented to the break units (17 R433), a MARK leaves its record in the block caddy when block trace is on. TIE
applies its tie to its knot and completes (07 R194, 08 R205, R206): with no tie before it at the knot, no role epoch
above its own and no completion tie, the knot takes the value R205 gives, and no other knot changes. Here and below
`c.pump` is the block c after what c lets start has started (R227). -/
def Obligations.ImmediateCommands : Prop :=
  (∀ (s : State) (q : Queue) (l : Line), let b := s.blk; let n := (b.que q).head; let e := b.newEntry q l none
      (b.Clear q opNOP l none → ∃ c : Blk, exec (.nop q) s = .next { s with blk := c.pump s.env } ∧ b.QueueWork c
        ∧ (c.que q).head = n + 1 ∧ c.Ended q n .ok opNOP)
      ∧ (b.Clear q opTAG l none → ∃ c : Blk, exec (.tag q) s = .next { s with blk := c.pump s.env }
        ∧ ({ b with dbg := c.dbg } : Blk).QueueWork c ∧ c.dbg = (b.noteTag q n (BitVec.ofNat 32 (Slot.d32 l 4))).dbg
        ∧ (c.que q).head = n + 1 ∧ c.Ended q n .ok opTAG)
      ∧ (b.Clear q opMARK l none → (b.trc.ctl.getLsbD 0 = false ∨ b.trc.caddy.room blkCap (markBody e) = true) →
        ∃ c : Blk, exec (.mark q) s = .next { s with blk := c.pump s.env }
        ∧ ({ b with trc := { b.trc with caddy := c.trc.caddy } } : Blk).QueueWork c
        ∧ c.trc.caddy = (if b.trc.ctl.getLsbD 0 then b.trc.caddy.offer blkCap 0x10 s.env.now (markBody e) else b.trc.caddy)
        ∧ (c.que q).head = n + 1 ∧ c.Ended q n .ok opMARK))
  ∧ (∀ (s : State) (q : Queue) (l : Line), let b := s.blk; let n := (b.que q).head; let t := tieOf (b.newEntry q l none)
      b.Clear q opTIE l none → (∀ u ∈ b.kn.tieQ, u.knot ≠ t.knot) → (b.knot t.knot).role.toNat ≤ t.epoch.toNat →
      ∃ c : Blk, exec (.tie q) s = .next { s with blk := c.pump s.env } ∧ b.QueueWork c ∧ (c.que q).head = n + 1
        ∧ c.Ended q n .ok opTIE
        ∧ (tieOpc (Slot.tieA l) = 0 → tieOpc (Slot.tieB l) = 0 →
            c.knot t.knot = (b.knot t.knot).tied t ∧ ∀ k, k ≠ t.knot → c.knot k = b.knot k))

/-- MEMBAR, COPY, FILL and WATCH start as they enter (07 R195, R196, R199, R200; 14 R366, R368): the entry joins the
scoreboard started, and with a place free COPY, FILL and WATCH ask for their first line; a COPY or FILL of no byte
completes at once. That one chunk is under way at a time is the model's choice, log 25. -/
def Obligations.TransfersStart : Prop :=
  ∀ (s : State) (q : Queue) (l : Line), let b := s.blk; let n := (b.que q).head; let e := b.newEntry q l none
    let sid : SeqId := ⟨seqOf q % 4, Nat.mod_lt _ (by decide)⟩
    let src := Slot.q64 l 8
    let dst := Slot.q64 l 0x10
    (b.Clear q opMEMBAR l none → ∃ c : Blk, exec (.membar q) s = .next { s with blk := c.pump s.env } ∧ b.QueueWork c
      ∧ (c.que q).head = n + 1 ∧ c.sb = b.sb ++ [{ e with started := true, prog := .membar false 0 }])
    ∧ (∀ i, b.Clear q opCOPY l none → Slot.q64 l 0x18 ≠ 0 → b.Place q e i →
      ∃ c : Blk, exec (.copy q) s = .next { s with blk := c.pump s.env } ∧ b.QueueWork c ∧ (c.que q).head = n + 1
      ∧ c.sb = b.sb ++ [{ e with started := true, prog := .xfer (min (min (64 - src % 64) (64 - dst % 64)) (Slot.q64 l 0x18)) 0 1 none }]
      ∧ c.mem.ring.getLast? = some (.rdonce (.seq sid i) (lineOf src)))
    ∧ (b.Clear q opCOPY l none → Slot.q64 l 0x18 = 0 → ∃ c : Blk, exec (.copy q) s = .next { s with blk := c.pump s.env }
      ∧ b.QueueWork c ∧ (c.que q).head = n + 1 ∧ c.Ended q n .ok opCOPY)
    ∧ (∀ i, b.Clear q opFILL l none → dst ≠ 0 → b.Place q e i →
      ∃ c : Blk, exec (.fill q) s = .next { s with blk := c.pump s.env } ∧ b.QueueWork c ∧ (c.que q).head = n + 1
      ∧ c.sb = b.sb ++ [{ e with started := true, prog := .xfer (min (64 - src % 64) dst) 0 1 none }]
      ∧ c.mem.ring.getLast? = some (.wr (.seq sid i) (lineOf src) (fillLine (Slot.q64 l 0x18)) (maskOf (src % 64) (min (64 - src % 64) dst))))
    ∧ (b.Clear q opFILL l none → dst = 0 → ∃ c : Blk, exec (.fill q) s = .next { s with blk := c.pump s.env } ∧ b.QueueWork c
      ∧ (c.que q).head = n + 1 ∧ c.Ended q n .ok opFILL)
    ∧ (∀ i, b.Clear q opWATCH l none → 0 < watchTotal l → b.Place q e i →
      ∃ c : Blk, exec (.watch q) s = .next { s with blk := c.pump s.env } ∧ b.QueueWork c
      ∧ (c.que q).head = n + 1 ∧ c.sb = b.sb ++ [{ e with started := true, prog := .watch {} 1 none }]
      ∧ c.mem.ring.getLast? = some (.rdonce (.seq sid i) (lineOf (watchAddr l 0))))

/-- IMEM_LOAD and WEIGHT_STREAM, into one engine or with ALL = 1 into every engine of the queue's partition subset, start
as they enter when each target can take them (03 R97, R98; 07 R197, R198): the entry joins the scoreboard started with its
targets, and the first line is asked for, once for an IMEM_LOAD and once for each target of a WEIGHT_STREAM; an IMEM_LOAD
makes the bank it chooses on each target LOADING, or WAITING when it aims at the active bank of a running launch, under its
identifier. That one line is under way for each target is the model's choice, log 25; which banks wait, log 29. -/
def Obligations.LoadsStart : Prop :=
  ∀ (s : State) (q : Queue) (t0 : EngineId) (r : List Nat) (l : Line), let b := s.blk; let n := (b.que q).head
    let e := b.newEntry q l none; let ts := loadTargets b q l; let act := Slot.flag17 l
    let side := fun (t : Nat) => (b.engine t).loadTarget (b.launchOn t) act
    ts = t0.val :: r → (∀ f ∈ b.sb, f.ord ≠ b.dsp.nextOrd) →
    (b.Clear q opIMEM l none →
      (∀ t ∈ ts, (b.engine t).loadPending = false ∧ b.pinned t ((b.engine t).bank (side t)) = false) →
      ∃ (c : Blk) (k : LoadSt), exec (.imemLoad q) s = .next { s with blk := c.pump s.env }
      ∧ ({ b with eng := c.eng } : Blk).QueueWork c ∧ (c.que q).head = n + 1
      ∧ c.sb = b.sb ++ [{ e with started := true, prog := .load k }]
      ∧ k.targets = ts ∧ k.got = [] ∧ k.data = [] ∧ k.outst = [(0, 1)] ∧ (∀ t ∈ ts, SMap.get 0 k.banks t = 1 + b2n (side t))
      ∧ (∀ t ∈ ts, c.engine t = (b.engine t).setBank (side t) { (b.engine t).bank (side t) with
          st := if act && b.launchOn t then .waiting else .loading
          newProg := BitVec.ofNat 16 (fAt l 0x10 16 16) })
      ∧ (∀ t : Nat, t ∉ ts → c.engine t = b.engine t)
      ∧ c.mem.ring.getLast? = some (.rdonce (.image e.ord t0) (lineOf (Slot.q64 l 8))))
    ∧ (b.Clear q opWS l none → Slot.d32 l 0x14 ≠ 0 →
      (∀ t ∈ ts, b.winOn t (fAt l 0x10 0 20) (Slot.d32 l 0x14) = false) →
      ∃ (c : Blk) (k : LoadSt), exec (.weightStream q) s = .next { s with blk := c.pump s.env } ∧ b.QueueWork c
      ∧ (c.que q).head = n + 1 ∧ c.sb = b.sb ++ [{ e with started := true, prog := .load k }]
      ∧ k.targets = ts ∧ k.banks = [] ∧ k.got = [] ∧ k.data = [] ∧ (∀ t ∈ ts, SMap.get 0 k.outst t = 1)
      ∧ ∀ t : EngineId, t.val ∈ ts → Instr.rdonce (.stream e.ord t) (lineOf (Slot.q64 l 8)) ∈ c.mem.ring)

/-- A LAUNCH whose descriptor has been read enters and, with tiles, waits for the dispatcher with every tile unplaced,
counted in its seat's JOBS_LAUNCHED (07 R184, R227; 06 R177; 14 R361); with no tile it completes at once (07 R201). -/
def Obligations.LaunchEnters : Prop :=
  ∀ (s : State) (q : Queue) (l : Line) (d : Desc), let b := s.blk; let n := (b.que q).head; let e := b.newEntry q l (some d)
    let w := (b.wv.cur.owner q).getD 0; let k := (launchOf d (BitVec.ofNat 64 (Slot.q64 l 8))).whole
    b.Clear q opLAUNCH l (some d) → b.HasDesc q d →
    ∃ c : Blk, exec (.launch q) s = .next { s with blk := c.pump s.env } ∧ b.QueueWork c
      ∧ (c.que q).head = n + 1 ∧ (c.seat w).launched = (b.seat w).launched + 1
      ∧ (k.tiles ≠ 0 → c.sb = b.sb ++ [e] ∧ e.prog = .launch k ∧ e.started = false)
      ∧ (k.tiles = 0 → c.Ended q n { stretched := b.stretchSeen q n } opLAUNCH
          ∧ (c.seat w).done = (b.seat w).done + 1)

/-- A STAND whose descriptor has been read enters, and its standing launch joins the others, not yet bound (07 R188);
with the program READY and its tensor descriptors copied on each of its engines it is bound: it parks a waiter on its
trigger knot, and the STAND completes (08 R209). UNSTAND of a standing launch that waits unbinds it and completes (07
R191). That the waiter is parked at the binding is the model's reading, log 18. -/
def Obligations.StandAndUnstand : Prop :=
  ∀ (s : State) (q : Queue) (l : Line), let b := s.blk; let n := (b.que q).head
    (∀ d : Desc, let e := b.newEntry q l (some d); let es := (standEngines b.wv.cur l).2
      b.Clear q opSTAND l (some d) → b.HasDesc q d → b.waitAvail q = true → (∀ t ∈ es, b.standOn t = none)
      → (∀ t ∈ es, ((b.engine t).bankFor d.prog).isSome = true) →
      ∃ c st, exec (.stand q) s = .next { s with blk := c.pump s.env } ∧ ({ b with eng := c.eng } : Blk).QueueWork c
        ∧ (c.que q).head = n + 1
        ∧ c.stand = b.stand ++ [st] ∧ st.q = q.val ∧ st.n = n ∧ st.eng = Slot.engine l ∧ st.bound = false
        ∧ st.trigger = fAt l 0x10 0 20 ∧ st.step.toNat = Slot.q64 l 0x18 ∧ st.thr.toNat = Slot.q64 l 0x20
        ∧ c.kn = b.kn ∧ c.sb = b.sb ++ [{ e with started := true }])
    ∧ (∀ (n : Nat) (e : SbEntry) (st : Standing), let es := st.engines b.wv.cur
      b.running = true → b.entry q n = some e → e.opcode = opSTAND → e.started = true → e.prog = .none →
      b.fenced e = none → b.findStand q n = some st →
      (∀ t ∈ es, ((b.engine t).bankFor st.l.prog).isSome = true ∧ st.copied.contains t = true) →
      ∃ c : Blk, exec (.commandComplete q n) s = .next { s with blk := c.pump s.env } ∧ ({ b with eng := c.eng } : Blk).QueueWork c
        ∧ c.Ended q n .ok opSTAND ∧ (c.findStand q n).map (·.bound) = some true
        ∧ { knot := st.trigger, stand := true, q := q.val, n := n } ∈ c.kn.waiters)
    ∧ (∀ z ∈ b.stand, (b.stand.find? fun s => (s.engines b.wv.cur).contains (Slot.engine l) && s.bound && !s.unbind
        && b.wv.cur.owner s.q == b.wv.cur.owner q.val) = some z → z.running = none → z.recWait = none →
      b.Clear q opUNSTAND l none → ∃ c : Blk, exec (.unstand q) s = .next { s with blk := c.pump s.env }
        ∧ ({ b with eng := c.eng } : Blk).QueueWork c ∧ (c.que q).head = n + 1 ∧ c.Ended q n .ok opUNSTAND
        ∧ c.findStand z.q z.n = none)

/-- HITCH (07 R192, 08 R209, R211, R215): unsatisfied it parks on its knot; satisfied by value it completes OK;
released by a flag it completes with HITCH_FLAGGED and puts its queue under a fence. A command behind the fence
completes with the same code and the fence's detail; a MEMBAR lifts it. -/
def Obligations.HitchAndFence : Prop :=
  ∀ (s : State) (q : Queue), let b := s.blk; let n := (b.que q).head
    (∀ l : Line, let e := b.newEntry q l none; let k := Slot.knot4 l
      b.Clear q opHITCH l none → b.waitAvail q = true →
      ∃ c : Blk, exec (.hitch q) s = .next { s with blk := c.pump s.env } ∧ b.QueueWork c ∧ (c.que q).head = n + 1
        ∧ (evalHitch l k (b.knot k) = none → c.sb = b.sb ++ [e]
            ∧ c.kn.waiters = b.kn.waiters ++ [{ knot := k, stand := false, q := q.val, n := n }] ∧ (c.que q).fence = none)
        ∧ (∀ det, evalHitch l k (b.knot k) = some (0, det) → c.Ended q n .ok opHITCH ∧ (c.que q).fence = none)
        ∧ (∀ rel det, evalHitch l k (b.knot k) = some (rel, det) → rel ≠ 0 →
            c.Ended q n (Stat.err Code.hitchFlagged det.toNat) opHITCH
            ∧ (c.que q).fence = some { hitch := n, flags := rel, detail := det }))
    ∧ (∀ (f : Fence) (e : SbEntry) (r : List SbEntry), b.running = true → (b.que q).fence = some f →
        (b.sb.filter fun e => e.q == q.val && decide (f.hitch < e.n) && e.opcode != opUNSTAND && e.ending.isNone) = e :: r →
        ∃ c : Blk, exec (.fencedComplete q) s = .next { s with blk := c.pump s.env } ∧ b.QueueWork c
        ∧ c.Ended q e.n { Stat.err Code.hitchFlagged f.detail.toNat with
            stretched := e.opcode = opLAUNCH && b.stretchSeen q e.n } e.opcode
        ∧ (c.que q).fence = if e.opcode = opMEMBAR then none else some f)

/-! ### Queues (06) -/

/-- R163 whole: a doorbell of the owner or the steward is refused in a state that is not OPEN, when it goes backward
and when it overruns the ring, each with its code and TAIL unchanged; v = TAIL changes nothing; any other sets TAIL
and wakes the queue under R165. No other queue changes. -/
def Obligations.DoorbellJudged : Prop :=
  ∀ (s : State) (a : Acc) (q : Queue) (v : W32), let b := s.blk
    b.Serves a → judgePage s.env b q a = none →
    ∃ c, exec (.queDoorbell a q v) s = .next { s with blk := c } ∧ b.PageWrite a c
      ∧ c.que q = (b.que q).after (doorbellCase (b.que q) v) ∧ ∀ r : Nat, r ≠ q.val → c.que r = b.que r

/-- R162 whole: CREATE runs its checks in order on a FREE queue, with SR_EN and IRQ_EN as written (R468), and opens it
empty, IDLE = 1 and WAKE = 0; the first check that fails, or another state, records its code. -/
def Obligations.CreateChecked : Prop :=
  ∀ (s : State) (a : Acc) (q : Queue) (srEn irqEn : Bool), let b := s.blk
    let u : Que := { b.que q with srEn := srEn, err := { (b.que q).err with irqEn := irqEn } }
    b.Serves a → judgePage s.env b q a = none →
    ∃ c, exec (.create a q srEn irqEn) s = .next { s with blk := c } ∧ b.PageWrite a c
      ∧ c.que q = u.after (createCase u (decide (b.wv.epoch ≠ 0) && (b.wv.cur.queuePart q).isSome))
      ∧ ∀ r : Nat, r ≠ q.val → c.que r = b.que r

/-- DRAIN takes OPEN to DRAINING and is an error elsewhere; ABORT takes OPEN and DRAINING to CLOSING and is ignored
elsewhere; SR_EN and IRQ_EN take their written values first (06 R172, R468). A queue reaches FREE from DRAINING with
every command counted and no standing launch, from CLOSING when no engine owes an acknowledgement either (R172). That
FREE is reached by a command of its own is the model's form, log 1; that STALE_CLOSE stands in FREE until CREATE, log
20. -/
def Obligations.QueueStates : Prop :=
  ∀ (s : State) (a : Acc) (q : Queue) (srEn irqEn : Bool), let b := s.blk
    let u : Que := { b.que q with srEn := srEn, err := { (b.que q).err with irqEn := irqEn } }
    let answered := fun (c : Blk) => State.mk s.pending s.env ((c.pump s.env).respond a.seat true 0)
    (b.Serves a → judgePage s.env b q a = none →
      ∃ c : Blk, exec (.drain a q srEn irqEn) s = .next (answered c)
        ∧ ({ b with eng := c.eng, host := { b.host with resp := [] } } : Blk).QueueWork c
        ∧ c.que q = (if u.st = .opened then { u with st := .draining } else u.after (.error 0x01)))
    ∧ (b.Serves a → judgePage s.env b q a = none →
      ∃ c : Blk, exec (.abort a q srEn irqEn) s = .next (answered c)
        ∧ ({ b with host := { b.host with resp := [] } } : Blk).EngineWork c
        ∧ ((u.st = .opened ∨ u.st = .draining) → (c.que q).st = .closing ∧ (c.que q).staleClose = false)
        ∧ ((u.st = .free ∨ u.st = .closing) → c.que q = u ∧ c.sb = b.sb ∧ c.eng = b.eng))
    ∧ (b.running = true → (b.que q).comp = (b.que q).tail → b.standingCount q = 0 → (b.que q).closeDue = false →
        ((b.que q).st = .draining ∨ ((b.que q).st = .closing ∧ (b.que q).owed = [])) →
        ∃ c : Blk, exec (.queueFree q) s = .next { s with blk := c } ∧ c.que q = { b.que q with st := .free, fence := none, lost := [] }
          ∧ (∀ r : Nat, r ≠ q.val → c.que r = b.que r) ∧ c = { b with qs := c.qs, sq := c.sq }
          ∧ ∀ i : Nat, c.seq i = { b.seq i with lines := (c.seq i).lines })

/-- An engine that has stopped a closing queue's work acknowledges once: QUE_ACKS_PENDING no longer counts it (06
R174). A woken idle queue is taken up by its sequencer, which clears WAKE and IDLE and asks for the slot at HEAD (06
R165 step 5, 14 R361). What a command lets start reaches only what the work of queues reaches, engines' loads and
descriptor reads, the descriptor caches, the block caddy and the tags shown to break units; with no command entered
and no queue to serve nothing starts (07 R227). That what becomes eligible starts within the command that lets it is
the model's form of R227, log 141. -/
def Obligations.AcknowledgeAndWake : Prop :=
  (∀ (s : State) (q : Queue) (e : EngineId), let b := s.blk; let u := b.que q; let v := b.seq (seqOf q)
    (b.running = true → e.val ∈ u.owed → b.hasStopped q e = true →
      ∃ c : Blk, exec (.engineAcknowledge q e) s = .next { s with blk := c.pump s.env } ∧ (c.que q).owed = u.owed.erase e.val
        ∧ b.EngineWork c)
    ∧ (∀ i : Fin 32, b.running = true → u.wake = true → u.idle = true → b.wantsService q = true → v.free = true → u.head < u.tail →
      v.freePlace = some i → b.slotAsked q u.head = false → b.heldLine q u.head = none → u.head ∉ u.lost →
      ∃ c : Blk, exec (.queueWake q) s = .next { s with blk := c.pump s.env } ∧ b.QueueWork c
        ∧ c.que q = { u with wake := false, idle := false }
        ∧ (c.seq (seqOf q)).st = .running ∧ (c.seq (seqOf q)).serving = true ∧ (c.seq (seqOf q)).queue = q.val
        ∧ Instr.rdonce (.slot q (BitVec.ofNat 32 u.head)) (lineOf (slotAddr u u.head)) ∈ c.mem.ring))
  ∧ ∀ (b : Blk) (x : Env), b.PumpWork (b.pump x) ∧ (b.running = false → b.pump x = b) ∧ (b.Rests → b.pump x = b)

/-- A slot line that arrives for an OPEN queue is held for its command (06 R157); a slot that could not be read is
noted, and the sequencer's error record set; where HEAD is at it, and its sequencer serves the queue and no other has a
queue to serve, the same command completes it with FAULT, QUE_FETCH and OPCODE 0xFF, records the queue's error, ties nothing
and moves HEAD on (R171; 14 R370). That it completes as HEAD reaches it is the model's reading, log 32. -/
def Obligations.SlotReadReturns : Prop :=
  (∀ (s : State) (q : Queue) (i n : Nat), let b := s.blk; let u := b.que q; let v := b.seq (seqOf q)
    b.up = true → u.st = .opened → u.head ≤ n → n < u.head + 2 ^ 32 → b.slotPlace q n = some i →
    (∀ l : Line, let m : Instr := .slotReadReturn q (BitVec.ofNat 32 n) (some l)
      b.mayArrive m = true →
      ∃ c : Blk, exec m s = .next { s with blk := c.pump s.env }
        ∧ c = { b with sq := c.sq, mem := { b.mem with ring := b.mem.ring.erase m } }
        ∧ c.heldLine q n = some l ∧ (c.seq (seqOf q)).outs = PMap.del i v.outs ∧ ∀ j : Nat, j ≠ seqOf q → c.seq j = b.seq j)
    ∧ (let m : Instr := .slotReadReturn q (BitVec.ofNat 32 n) none
      b.mayArrive m = true → n ∉ u.lost →
      ∃ c : Blk, exec m s = .next { s with blk := c.pump s.env }
        ∧ c = { b with qs := c.qs, sq := c.sq, mem := { b.mem with ring := b.mem.ring.erase m } }
        ∧ c.que q = { u with lost := u.lost ++ [n] } ∧ (c.seq (seqOf q)).errRec = true
        ∧ (∀ r : Nat, r ≠ q.val → c.que r = b.que r) ∧ ∀ j : Nat, j ≠ seqOf q → c.seq j = b.seq j))
  ∧ ∀ (s : State) (q : Queue) (i : Nat), let b := s.blk; let u := b.que q; let v := b.seq (seqOf q)
    let m : Instr := .slotReadReturn q (BitVec.ofNat 32 u.head) none
    b.running = true → u.st = .opened → u.tail = u.head + 1 → u.wake = false → b.slotPlace q u.head = some i → b.sb = [] →
    u.head ∉ u.lost → v.st = .running → v.serving = true → v.queue = q → b.wantsService q = true →
    (∀ r : Nat, r ≠ q.val → b.wantsService r = false) →
    (∀ j : Nat, j < 4 → j ≠ seqOf q → (b.seq j).serving = false) → b.mayArrive m = true →
    ∃ c : Blk, exec m s = .next { s with blk := c } ∧ b.QueueWork c ∧ (c.que q).head = u.head + 1
      ∧ c.Ended q u.head (Stat.err Code.queFetch 0) 0xFF
      ∧ (c.que q).err = { u.err with code := 0x08, count := satInc u.err.count, valid := true } ∧ c.kn = b.kn

/-- A started command whose status is decided and whose requests are answered completes with it (06 R166, R174): a COPY,
FILL, WATCH, MEMBAR, IMEM_LOAD or WEIGHT_STREAM, and a LAUNCH that no engine holds, with what its tiles reported (R168,
R400); a load that has delivered everything to each target, its banks READY, and a LAUNCH with every tile done complete
OK or with NUMERIC (07 R197, R198; R168). COMP passes a completed command that HEAD has passed, in index order, and
QUE_LAST_REC and QUE_STATUS_ACC take its record (R156, R166). The answer to a status record's write lets COMP pass, and an
error is recorded as QUE_SR_WRITE and at the sequencer (R169; 14 R370). That records of a queue are written one at a time
is the model's choice, log 24; what a twin issue reports, log 147. -/
def Obligations.CompletionCounts : Prop :=
  ∀ (s : State) (q : Queue), let b := s.blk; let u := b.que q
    (∀ (n : Nat) (e : SbEntry) (st : Stat), b.running = true →
        b.entry q n = some e → e.started = true → e.ending = some st → e.opcode ≠ opLAUNCH →
        ((∃ asked done err, e.prog = .xfer asked done 0 err) ∨ (∃ k r, e.prog = .watch k 0 r) ∨ (∃ y, e.prog = .membar y 0)
          ∨ ∃ k, e.prog = .load k ∧ k.outst = [] ∧ e.owes = []) →
        ∃ c : Blk, exec (.commandComplete q n) s = .next { s with blk := c.pump s.env } ∧ b.QueueWork c ∧ c.Ended q n st e.opcode)
    ∧ (∀ (n : Nat) (e : SbEntry) (k : LoadSt), b.running = true → b.entry q n = some e → e.started = true → e.ending = none →
        e.opcode ≠ opLAUNCH → b.fenced e = none → e.prog = .load k → k.outst = [] →
        (e.opcode = opIMEM → imemLen e.slot ≤ 64 * SMap.get 0 k.got 0
          ∧ ∀ y ∈ k.banks, ((b.engine y.1).bank (y.2 == 2)).st ≠ .waiting ∧ ((b.engine y.1).bank (y.2 == 2)).st ≠ .loading) →
        (e.opcode ≠ opIMEM → ∀ t ∈ k.targets, Slot.d32 e.slot 0x14 ≤ 64 * SMap.get 0 k.got t) →
        ∃ c : Blk, exec (.commandComplete q n) s = .next { s with blk := c.pump s.env } ∧ b.QueueWork c ∧ c.Ended q n .ok e.opcode)
    ∧ (∀ (n : Nat) (e : SbEntry) (l : Launch) (st : Stat), b.running = true → b.entry q n = some e → e.started = true →
        e.prog = .launch l → e.opcode = opLAUNCH → b.holders e.job = [] → e.owes = [] →
        (e.ending = some st ∨ (e.ending = none ∧ b.fenced e = none ∧ l.twin = none ∧ l.doneTiles = l.tiles ∧ st = l.stat)) →
        ∃ c : Blk, exec (.commandComplete q n) s = .next { s with blk := c.pump s.env } ∧ b.EngineWork c
          ∧ c.Ended q n { st.withReport l with stretched := b.stretchSeen q n } opLAUNCH)
    ∧ (∀ r, b.running = true → (b.seq (seqOf q)).st ≠ .broke → PMap.find u.comp u.done = some r → u.comp < u.head →
        (u.srOn = false ∨ u.srAcked = true) →
        ∃ c : Blk, exec (.compAdvance q) s = .next { s with blk := c.pump s.env }
          ∧ ({ b with eng := c.eng, mem := { b.mem with agents := c.mem.agents, cohFwd := c.mem.cohFwd } } : Blk).QueueWork c
          ∧ (c.que q).comp = u.comp + 1 ∧ (c.que q).lastRec = r ∧ (c.que q).statusAcc = u.statusAcc ||| recFlags r
          ∧ (c.que q).head = u.head ∧ (c.que q).tail = u.tail)
    ∧ (∀ resp : BitVec 2, let m : Instr := .statusRecordAck (.ring q) resp
        b.up = true → b.mayArrive m = true → u.srWait = true → u.srAcked = false →
        ∃ c : Blk, exec m s = .next { s with blk := c.pump s.env }
          ∧ c.que q = { u with srAcked := true, err := if resp = 0 then u.err else
              { u.err with code := 0x09, count := satInc u.err.count, valid := true } }
          ∧ c = { b with qs := c.qs, sq := c.sq, mem := { b.mem with ring := b.mem.ring.erase m } }
          ∧ (∀ r : Nat, r ≠ q.val → c.que r = b.que r)
          ∧ (resp = 0 → c.sq = b.sq) ∧ (resp ≠ 0 → (c.seq (seqOf q)).errRec = true)
          ∧ ∀ j : Nat, j ≠ seqOf q → c.seq j = b.seq j)

/-! ### Sequencers (14) -/

/-- NEXT, JUMP, BRANCH and DISPATCH choose the next strand as R364 says, after the yarn's ALU operation; the condition
of a BRANCH is seen before the last edge's writes. A NEXT strand whose yarn makes a memory request sends it from the first
free place (R366, R368): a slot of the served queue, a descriptor line that the cache gives at once or asks for, a line for
half of the copy buffer, a line of the copy buffer, a record of the record buffer; then it goes on. The operands and
conditions before the edge are the model's reading, log 44; whose command a request is for, log 122. -/
def Obligations.StrandsChooseNext : Prop :=
  (∀ (s : State) (i : SeqId) (w : W32) (f : YarnF), let b := s.blk; let v := b.seq i
    let t : BitVec 12 := BitVec.ofNat 12 (Strand.target w)
    b.StrandAt i w f →
    (Strand.seq w = 0 → ∃ c, exec (.next i) s = .next { s with blk := c } ∧ b.SeqOnly i c ∧ b.AluDone i f c
      ∧ (c.seq i).sptr = v.sptr + 1)
    ∧ (Strand.seq w = 1 → t ≠ 0xFFF → ∃ c, exec (.jump i) s = .next { s with blk := c } ∧ b.SeqOnly i c ∧ b.AluDone i f c
      ∧ (c.seq i).sptr = t)
    ∧ (Strand.seq w = 2 → ∃ c, exec (.branch i) s = .next { s with blk := c } ∧ b.SeqOnly i c ∧ b.AluDone i f c
      ∧ (c.seq i).sptr = if b.cond i v (Strand.cond w) then t else v.sptr + 1)
    ∧ (Strand.seq w = 6 → ∃ c, exec (.dispatch i) s = .next { s with blk := c } ∧ b.SeqOnly i c ∧ b.AluDone i f c
      ∧ (c.seq i).sptr = t + BitVec.ofNat 12 (min (Slot.opcode v.slotLine).toNat 0x20)))
  ∧ ∀ (s : State) (i : SeqId) (w : W32) (f : YarnF) (p : Fin 32), let b := s.blk; let v := b.seq i
    let a := (v.wreg f.maddr).toNat; let half := bit (v.wreg f.maux) 0; let wq := v.workQueue i
    let ag : AgentId := ⟨64 + i.val % 4, by omega⟩
    b.YarnAt i w f → Strand.seq w = 0 → f.sbi = 0 → v.freePlace = some p →
    (∀ q : Queue, f.mem = 1 → v.serving = true → v.queue = q → seqOf q = i.val →
      let n := b.fullIndex q (BitVec.ofNat 32 a)
      b.slotAsked q n = false →
      ∃ c, exec (.next i) s = .next { s with blk := c }
        ∧ b.Asked i p q (.slot n) (.rdonce (.slot q (BitVec.ofNat 32 n)) (lineOf (slotAddr (b.que q) n))) c)
    ∧ (∀ l : Copy, f.mem = 2 → b.copy ag (lineOf a).toNat = some l →
      ∃ c : Blk, exec (.next i) s = .next { s with blk := c } ∧ (c.seq i).descBuf = halfPut v.descBuf half l.data
        ∧ (c.seq i).sptr = v.sptr + 1 ∧ (c.seq i).outs = v.outs
        ∧ ({ b with mem := { b.mem with agents := c.mem.agents, clock := c.mem.clock } } : Blk).SeqOnly i c)
    ∧ (f.mem = 2 → b.copy ag (lineOf a).toNat = none → b.missing ag (lineOf a).toNat = false →
      ∃ c, exec (.next i) s = .next { s with blk := c }
        ∧ (b.addMiss { agent := ag, line := (lineOf a).toNat, queue := some v.queue, seat := 0 }).Asked i p v.queue
            (.desc (lineOf a) half) (.rds ag (lineOf a)) c)
    ∧ (f.mem = 3 → ∃ c, exec (.next i) s = .next { s with blk := c }
        ∧ b.Asked i p wq (.line half) (.rdonce (.seq i p) (lineOf a)) c)
    ∧ (f.mem = 4 → ∃ c, exec (.next i) s = .next { s with blk := c }
        ∧ b.Asked i p wq .wrLine
            (.wr (.seq i p) (lineOf a) (rotLine v.copyBuf ((v.wreg f.maux).toNat % 128)) (v.wreg f.mmask)) c)
    ∧ (f.mem = 5 → ∃ c, exec (.next i) s = .next { s with blk := c } ∧ (c.seq i).recBusy = true
        ∧ b.Asked i p wq .wrRec
            (.wr (.seq i p) (lineOf a) (BitVec.ofNat 512 (v.recBuf.toNat * 2 ^ (8 * (a % 64)))) (maskOf (a % 64) 16)) c)

/-- CALL pushes the next address while fewer than four are held, RET pops it, LOOP counts LC down and repeats until it
is 0, WAIT goes on when its condition holds and else stays at its strand (14 R364). The interface operations of a NEXT
strand whose ALU rests (R369): SELECT, TAIL, IDLE, ENTER of a slot that fails a check and completes with its code (R181,
R203), COMPLETE, HEAD, LEAVE, TAKE, MARK and TAG. The operands and conditions before the edge are the model's reading, log
44; what SELECT, IDLE and TAKE leave in Z and the working registers is R369's. -/
def Obligations.StrandsCallLoopWait : Prop :=
  (∀ (s : State) (i : SeqId) (w : W32) (f : YarnF), let b := s.blk; let v := b.seq i
    let t : BitVec 12 := BitVec.ofNat 12 (Strand.target w)
    b.StrandAt i w f →
    (Strand.seq w = 3 → v.stack.length < 4 → ∃ c, exec (.call i) s = .next { s with blk := c } ∧ b.SeqOnly i c
      ∧ b.AluDone i f c ∧ (c.seq i).sptr = t ∧ (c.seq i).stack = (v.sptr + 1) :: v.stack)
    ∧ (∀ r st, Strand.seq w = 4 → v.stack = r :: st → ∃ c, exec (.ret i) s = .next { s with blk := c } ∧ b.SeqOnly i c
      ∧ b.AluDone i f c ∧ (c.seq i).sptr = r ∧ (c.seq i).stack = st)
    ∧ (Strand.seq w = 5 → f.lcld = false → ∃ c, exec (.loop i) s = .next { s with blk := c } ∧ b.SeqOnly i c ∧ b.AluDone i f c
      ∧ (v.lc = 0 → (c.seq i).sptr = v.sptr + 1 ∧ (c.seq i).lc = 0)
      ∧ (v.lc ≠ 0 → (c.seq i).sptr = (if v.lc = 1 then v.sptr + 1 else t) ∧ (c.seq i).lc = v.lc - 1))
    ∧ (Strand.seq w = 7 → ∃ c, exec (.wait i) s = .next { s with blk := c } ∧ b.SeqOnly i c ∧ b.AluDone i f c
      ∧ (b.cond i v (Strand.cond w) = true → (c.seq i).sptr = v.sptr + 1 ∧ (c.seq i).inWait = false)
      ∧ (b.cond i v (Strand.cond w) = false → (c.seq i).sptr = v.sptr ∧ (c.seq i).inWait = true)))
  ∧ ∀ (s : State) (i : SeqId) (w : W32) (f : YarnF), let b := s.blk; let v := b.seq i; let u := b.que v.queue
    let rest : Nat → Nat × Nat × Line → Bool := fun n y => !(y.1 == v.queue && y.2.1 == n)
    b.YarnAt i w f → f.AluRests → Strand.seq w = 0 → f.mem = 0 →
    (f.sbi = 1 → b.selectQueue i = none → ∃ c : Blk, exec (.next i) s = .next { s with blk := c } ∧ b.SeqOnly i c
      ∧ c.seq i = { v with z := true, sptr := v.sptr + 1 })
    ∧ (∀ q, f.sbi = 1 → b.selectQueue i = some q → ∃ c : Blk, exec (.next i) s = .next { s with blk := c } ∧ b.QueueWork c
      ∧ c.que q = { b.que q with wake := false, idle := false } ∧ (∀ r, r ≠ q → c.que r = b.que r) ∧ c.sb = b.sb ∧ c.kn = b.kn
      ∧ (c.seq i).queue = q ∧ (c.seq i).serving = true ∧ (c.seq i).burst = 0 ∧ (c.seq i).z = false
      ∧ (c.seq i).wreg 0 = BitVec.ofNat 64 q ∧ (c.seq i).sptr = v.sptr + 1)
    ∧ (f.sbi = 2 → ∃ c : Blk, exec (.next i) s = .next { s with blk := c } ∧ b.SeqOnly i c
      ∧ c.seq i = { v.setW 1 (BitVec.ofNat 64 (u.tail % 2 ^ 32)) with sptr := v.sptr + 1 })
    ∧ (f.sbi = 3 → v.serving = true → let same := u.tail % 2 ^ 32 = (v.wreg 1).toNat % 2 ^ 32
      ∃ c : Blk, exec (.next i) s = .next { s with blk := c } ∧ b.QueueWork c ∧ c.que v.queue = { u with idle := decide same }
      ∧ (∀ r, r ≠ v.queue → c.que r = b.que r) ∧ c.sb = b.sb ∧ c.kn = b.kn
      ∧ (c.seq i).z = decide same ∧ (c.seq i).serving = !decide same ∧ (c.seq i).sptr = v.sptr + 1)
    ∧ (∀ (l : Line) (code : W8) (det : Nat), let out := enterOutcome b v.queue l v.descBuf (v.wreg f.sbsrc)
      f.sbi = 4 → v.serving = true → v.w2Line = some (u.head, l) → u.head < u.tail → b.entered v.queue u.head = false →
      b.parsesOnly v.queue = false → (u.st = .opened ∨ u.st = .draining) → b.sbAvail v.queue = true →
      b.waitAvail v.queue = true → b.breakDue v.queue u.head = false → b.sb = [] → u.fence = none →
      out.1 = some (code, det) → code ≠ 0 →
      ∃ c : Blk, exec (.next i) s = .next { s with blk := c } ∧ b.QueueWork c ∧ (c.que v.queue).head = u.head
      ∧ c.Ended v.queue u.head { fault := true, code := code, detail := BitVec.ofNat 64 det
                                 stretched := Slot.opcode l = opLAUNCH && b.stretchSeen v.queue u.head } (Slot.opcode l)
      ∧ (c.seq i).guard = (if out.2 then satInc v.guard else v.guard) ∧ (c.seq i).sptr = v.sptr + 1)
    ∧ (∀ e : SbEntry, f.sbi = 5 → b.sb = [e] → e.q = (v.wreg 0).toNat % 1024 → e.n % 2 ^ 32 = (v.wreg 2).toNat % 2 ^ 32 →
      seqOf e.q = i.val → seqCarries e.opcode = true → e.started = true →
      ∃ c : Blk, exec (.next i) s = .next { s with blk := c } ∧ b.QueueWork c ∧ c.sb = []
      ∧ c.Ended e.q e.n { statOfRecord v.recBuf with stretched := false } e.opcode ∧ (c.seq i).sptr = v.sptr + 1)
    ∧ (f.sbi = 6 → v.serving = true → u.head < u.tail → (v.lines.any fun y => y.1 == v.queue && y.2.1 == u.head) = true →
      ∃ c : Blk, exec (.next i) s = .next { s with blk := c } ∧ b.QueueWork c ∧ c.que v.queue = { u with head := u.head + 1 }
      ∧ (∀ r, r ≠ v.queue → c.que r = b.que r) ∧ c.sb = b.sb ∧ c.kn = b.kn
      ∧ (c.seq i).lines = v.lines.filter (rest u.head) ∧ (c.seq i).burst = v.burst + 1 ∧ (c.seq i).slots = satInc v.slots
      ∧ (c.seq i).guard = v.guard ∧ (c.seq i).sptr = v.sptr + 1)
    ∧ (f.sbi = 6 → ¬(v.serving = true ∧ u.head < u.tail ∧ (v.lines.any fun y => y.1 == v.queue && y.2.1 == u.head) = true) → ∃ c : Blk, exec (.next i) s = .next { s with blk := c } ∧ b.SeqOnly i c
      ∧ c.seq i = { v with guard := satInc v.guard, sptr := v.sptr + 1 })
    ∧ (f.sbi = 7 → ∃ c : Blk, exec (.next i) s = .next { s with blk := c } ∧ b.SeqOnly i c
      ∧ c.seq i = { v with serving := false, st := if v.shadow.isSome then v.st else .idle, sptr := v.sptr + 1 })
    ∧ (f.sbi = 8 → (∀ e ∈ b.sb, seqOf e.q = i.val → seqCarries e.opcode = true → e.code = 0 → b.mayStart e = false) →
      ∃ c : Blk, exec (.next i) s = .next { s with blk := c } ∧ b.SeqOnly i c ∧ c.seq i = { v with z := true, sptr := v.sptr + 1 })
    ∧ (∀ e, f.sbi = 8 → (b.sb.find? fun e => seqOf e.q == i.val && seqCarries e.opcode && e.code == 0 && b.mayStart e) = some e →
      ∃ c : Blk, exec (.next i) s = .next { s with blk := c } ∧ b.QueueWork c ∧ c.qs = b.qs ∧ c.kn = b.kn
      ∧ c.entry e.q e.n = (b.entry e.q e.n).map (fun e => { e with started := true })
      ∧ (∀ q n, ¬(q = e.q ∧ n = e.n) → c.entry q n = b.entry q n)
      ∧ (c.seq i).wreg 0 = BitVec.ofNat 64 e.q ∧ (c.seq i).wreg 2 = BitVec.ofNat 64 (e.n % 2 ^ 32) ∧ (c.seq i).z = false
      ∧ (c.seq i).sptr = v.sptr + 1)
    ∧ (∀ e, f.sbi = 9 → b.named i opMARK = some e → b.trc.ctl.getLsbD 0 = true → b.trc.caddy.room blkCap (markBody e) = true →
      ∃ c : Blk, exec (.next i) s = .next { s with blk := c }
      ∧ ({ b with trc := { b.trc with caddy := b.trc.caddy.offer blkCap 0x10 s.env.now (markBody e) } } : Blk).SeqOnly i c
      ∧ c.seq i = { v with sptr := v.sptr + 1 })
    ∧ ∀ e, f.sbi = 10 → b.named i opTAG = some e →
      ∃ c : Blk, exec (.next i) s = .next { s with blk := c }
      ∧ (b.noteTag e.q e.n (BitVec.ofNat 32 (Slot.d32 e.slot 4))).SeqOnly i c ∧ c.seq i = { v with sptr := v.sptr + 1 }

/-- The lowest pending cause is taken: the running state goes to the shadow set, TRAP_CAUSE and TRAP_COUNT tell it,
and SPTR takes the cause's vector, but for BREAK, which stops the sequencer (14 R371, R435). TRET brings the shadow
set back (R372). An uncorrectable error in a control-store word halts the sequencer (R373). A line that answers a
copy-buffer read fills its half and frees its place; an error fills nothing, sets the error record and makes RESP_ERR
pending (14 R366, R368, R370). That a trap out of a WAIT saves the strand's own address is the model's reading, log 43. -/
def Obligations.SequencerEvents : Prop :=
  (∀ (s : State) (i : SeqId), let b := s.blk; let v := b.seq i
      (∀ k, b.running = true → (v.st = .idle ∨ v.st = .running) → v.trapDue = some k →
        ∃ c : Blk, exec (.microTrap i) s = .next { s with blk := c } ∧ b.SeqOnly i c
          ∧ c.seq i = { v with
              shadow := some { sptr := v.sptr, lc := v.lc, stack := v.stack, w := v.w, z := v.z, c := v.c }
              pend := v.pend.erase k, trapCause := BitVec.ofNat 3 k, trapCount := satInc v.trapCount, inWait := false
              st := if k = 5 then .broke else .trapped
              sptr := if k = 5 then v.sptr else BitVec.ofNat 12 (0xFF0 + k) })
      ∧ (∀ w f h, b.StrandAt i w f → Strand.seq w = 1 → Strand.target w = 0xFFF → v.shadow = some h →
        ∃ c : Blk, exec (.tret i) s = .next { s with blk := c } ∧ b.SeqOnly i c ∧ (c.seq i).shadow = none
          ∧ (c.seq i).sptr = h.sptr ∧ (c.seq i).lc = h.lc ∧ (c.seq i).stack = h.stack ∧ (c.seq i).w = h.w
          ∧ (c.seq i).z = h.z ∧ (c.seq i).c = h.c ∧ (c.seq i).st = if v.serving then .running else .idle)
      ∧ (∀ strand : BitVec 12, b.up = true → v.st ≠ .halted →
        ∃ c : Blk, exec (.storeEcc i strand) s = .next { s with blk := c } ∧ c = { b with sq := c.sq, flt := c.flt }
          ∧ c.seq i = { v with st := .halted, haltCode := 2, haltSptr := strand, serving := false, inWait := false }
          ∧ ∀ j : Nat, j ≠ i.val → c.seq j = b.seq j))
  ∧ (∀ (s : State) (i : SeqId) (p : Fin 32) (d : Line) (resp : BitVec 2) (q : Nat) (half : Bool), let b := s.blk; let v := b.seq i
      let m : Instr := .seqMemoryResponse i p d resp
      b.up = true → b.mayArrive m = true → PMap.find p.val v.outs = some { q := q, what := .line half } →
      ∃ c : Blk, exec m s = .next { s with blk := c.pump s.env }
        ∧ c = { b with sq := c.sq, mem := { b.mem with ring := b.mem.ring.erase m } } ∧ (∀ j : Nat, j ≠ i.val → c.seq j = b.seq j)
        ∧ (resp = 0 → c.seq i = { v with outs := PMap.del p.val v.outs, copyBuf := halfPut v.copyBuf half d })
        ∧ (resp ≠ 0 → c.seq i = { v with
            outs := PMap.del p.val v.outs, errRec := true
            pend := if v.shadow = none ∧ 2 ∉ v.pend then v.pend ++ [2] else v.pend }))

/-! ### Knots (08) -/

/-- A write of KNT_TIE_GO puts the tie it forms behind the ties on their way, with the value in KNT_TIE_VAL, or
records the code of the check it fails: the steward window reaches every knot, a seat window the seat's own (08 R224,
R225). A decided HITCH on its way to the dispatcher completes there with OK (08 R212, 07 R193). An uncorrectable error
in a knot entry sets its value to 0 and its flags to FAULT and keeps its role (R204). A read of KNT_WIN_VAL_LO answers
the low word, captures the entry for the seat, and without the right to the knot reads 0 and captures none (R222,
R223). PEAK_CLR sets the peak to the waiters parked now (R226). -/
def Obligations.KnotRegisters : Prop :=
  (∀ (s : State) (a : Acc) (w : W32), let b := s.blk; let win := ownWindow s.env a; let r := b.tieRegs win
      let k := fld w 0 20
      b.Serves a → ∃ c : Blk, exec (.kntTieGo a w) s = .next { s with blk := c } ∧
        (if 0xFFFF < k then b.WroteOnly a (b.setTieRegs win { r with err := r.err.record 1 }) c
         else if win ≠ 16 ∧ (b.wv.epoch = 0 ∨ b.wv.cur.knotOwner k ≠ some a.seat.val) then
           b.WroteOnly a (b.setTieRegs win { r with err := r.err.record 2 }) c
         else if fld w 20 2 = 0 ∨ fld w 26 6 ≠ 0 then b.WroteOnly a (b.setTieRegs win { r with err := r.err.record 3 }) c
         else b.WroteOnly a { b with kn := { b.kn with tieQ := b.kn.tieQ ++ [{
            knot := k, op := tieOpOf (fld w 20 2), val := r.val, flags := BitVec.ofNat 4 (fld w 22 4), epoch := b.wv.epoch,
            src := .host a.seat.val }] } } c))
  ∧ (∀ (s : State), let b := s.blk
      (∀ (w : Waiter) (e : SbEntry) (det : W64), b.running = true → b.nextWake = some w → w.stand = false →
          b.entry w.q w.n = some e → e.prog = .hitch (some (0, det)) → b.hitchMayComplete e = true → b.fenced e = none →
          e.opcode = opHITCH →
          ∃ c : Blk, exec .waiterWake s = .next { s with blk := c.pump s.env } ∧ b.QueueWork c ∧ c.Ended w.q w.n .ok opHITCH)
      ∧ (∀ k : BitVec 16, b.up = true →
          ∃ c : Blk, exec (.knotEccError k) s = .next { s with blk := c } ∧ b.QueueWork c
            ∧ c.knot k.toNat = { b.knot k.toNat with val := 0, flags := 8 } ∧ (∀ j, j ≠ k.toNat → c.knot j = b.knot j)
            ∧ c.qs = b.qs)
      ∧ (∀ (a : Acc) (k : BitVec 16), b.Serves a → b.tieAhead a.seat.val k.toNat = false →
          let mine := knotReadable s.env b a k.toNat
          ∃ c : Blk, exec (.kntWinValLoRead a k) s = .next { s with blk := c } ∧ c = { b with host := c.host }
            ∧ c.host.resp = [{ seat := BitVec.ofNat 4 a.seat.val, write := false
                               rdata := if mine then BitVec.ofNat 32 (b.knot k.toNat).val.toNat else 0 }]
            ∧ c.seat a.seat.val = { b.seat a.seat.val with
                knotCap := if mine then some (k.toNat, b.knot k.toNat, b.waitersOn k.toNat) else none }
            ∧ (∀ j : Nat, j ≠ a.seat.val → c.seat j = b.seat j)
            ∧ c.host = { b.host with resp := c.host.resp, seats := c.host.seats })
      ∧ (∀ a : Acc, b.Serves a → s.Steward a →
          ∃ c : Blk, exec (.kntPeakClr a) s = .next { s with blk := c }
            ∧ b.WroteOnly a { b with kn := { b.kn with peak := b.kn.waiters.length } } c))

/-- The tie that has waited longest is applied (08 R205, R206): its knot takes the value R205 gives and no other
changes; one older than the knot's role is discarded and counted (R208). Then what it lets start starts, and host
accesses that waited for it go on (07 R227, R225). -/
def Obligations.TieApplied : Prop :=
  ∀ (s : State) (t : Tie) (r : List Tie), let b := s.blk; let k := b.knot t.knot
    b.running = true → b.kn.tieQ = t :: r → ∃ c : Blk, exec .tieApply s = .next (State.settle { s with blk := c.pump s.env })
      ∧ ({ b with host := { b.host with resp := [] } } : Blk).QueueWork c ∧ c.kn.tieQ = r ∧ c.qs = b.qs ∧ c.sq = b.sq ∧ c.mem = b.mem
      ∧ (k.role.toNat ≤ t.epoch.toNat → (∀ j, j ≠ t.knot → c.knot j = b.knot j) ∧
          c.knot t.knot = match t.op with
            | .set => { k with val := t.val, flags := t.flags }
            | .add => { k with val := k.val + t.val, flags := k.flags ||| t.flags }
            | .max => { k with val := BitVec.ofNat 64 (max k.val.toNat t.val.toNat), flags := k.flags ||| t.flags }
            | .flagOnly => { k with flags := k.flags ||| t.flags })
      ∧ (t.epoch.toNat < k.role.toNat → c.kn.tab = b.kn.tab ∧ c.wv.staleCnt = satInc b.wv.staleCnt)

/-! ### Scheduling (09) -/

/-- The first candidate of a selection, a launch not yet begun, whose one idle allowed engine holds its program and
whose partition may run one more: every tile goes on that engine's deque and the launch has begun (09 R230, R231). -/
def Obligations.SelectionAssigns : Prop :=
  ∀ (s : State) (taut : Bool) (e : SbEntry) (r : List SbEntry) (l : Launch) (t : Nat), let b := s.blk
    b.running = true → b.candidates taut = e :: r → e.launch? = some l → b.entry e.q e.n = some e →
    e.started = false → twinLaunch e = false → l.twin = none → l.saved = [] → l.unplaced = [{ lo := 0, hi := l.tiles }] →
    b.holding e.job = [] → b.allowedIdle e l = [t] → b.readyFor l t = true → (b.engine t).save = none →
    (∀ p, b.wv.cur.queuePart e.q = some p → taut = true → b.runningOn p.num < p.maxInflight) →
    (b.wv.cur.queuePart e.q).isSome = true →
    ∃ c : Blk, exec (if taut then .tautSelection else .slackSelection) s = .next { s with blk := c.pump s.env }
      ∧ (c.engine t).deque = [(e.job, { lo := 0, hi := l.tiles })] ∧ (∀ j, j ≠ t → c.engine j = b.engine j)
      ∧ (c.entry e.q e.n).map (·.started) = some true ∧ (c.launch? e.job).map (·.unplaced) = some []
      ∧ b.EngineWork c ∧ c.qs = b.qs ∧ c.kn = b.kn ∧ c.sq = b.sq

/-- A preemption request stops a running tile for its save (09 R236); the finished save holds the tile and frees the
engine (03 R102, R103); the finished restore goes on where the save says (03 R104). -/
def Obligations.PreemptSaveRestore : Prop :=
  ∀ (s : State) (e : EngineId), let b := s.blk; let v := b.engine e
    (b.running = true → e.val ∈ b.dsp.preempts → v.stop = none → v.job.isSome = true → v.ended = false → v.st ≠ .saving →
      ∃ c : Blk, exec (.preemptRequest e) s = .next { s with blk := c } ∧ (c.engine e).st = .saving ∧ (c.engine e).job = v.job
        ∧ b.EngineWork c ∧ c.dsp.preempts = b.dsp.preempts.erase e.val ∧ c.qs = b.qs ∧ c.kn = b.kn
        ∧ ∀ j : Nat, j ≠ e.val → c.engine j = b.engine j)
    ∧ (∀ j, b.running = true → b.clocked e = true → v.st = .saving → v.stop = none → v.pendFault = none → v.channelsIdle = true →
      v.job = some j → b.retired j = false →
      ∃ c sv, exec (.saveComplete e) s = .next { s with blk := c } ∧ (c.engine e).save = some sv ∧ sv.job = j
        ∧ sv.tile = v.tile ∧ sv.ptr = v.ptr ∧ sv.step = v.step ∧ sv.arch = v.arch ∧ sv.digest = v.digest
        ∧ sv.numeric = v.numeric ∧ (c.engine e).job = none ∧ (c.engine e).preempt = false ∧ b.EngineWork c ∧ c.qs = b.qs ∧ c.kn = b.kn
        ∧ ∀ j : Nat, j ≠ e.val → c.engine j = b.engine j)
    ∧ (∀ sv, b.running = true → b.clocked e = true → v.restore = true → v.descWait = false → v.job = none → v.save = some sv →
        (SMap.get 0 b.wv.roleE e).toNat ≤ sv.epoch.toNat → b.retired sv.job = false → sv.arch.chan = [] →
      ∃ c : Blk, exec (.restoreComplete e) s = .next { s with blk := c } ∧ (c.engine e).st = .running
        ∧ (c.engine e).job = some sv.job ∧ (c.engine e).tile = sv.tile ∧ (c.engine e).ptr = sv.ptr ∧ (c.engine e).step = sv.step
        ∧ (c.engine e).arch = sv.arch ∧ (c.engine e).save = none ∧ (c.engine e).restore = false
        ∧ b.EngineWork c ∧ c.qs = b.qs ∧ c.kn = b.kn ∧ ∀ j : Nat, j ≠ e.val → c.engine j = b.engine j)

/-- A slack launch that has waited out its quantum while another of its priority has run as long sends one preemption
request (09 R235). A thief takes the upper half of its victim's tiles, and they arrive on its deque (R232, R234). A
triggered standing run goes to its idle engine as one tile and counts in JOBS_LAUNCHED (R240). LOAD_UPDATE ends a
window of 100 us and shows the loads of the last ten in thousandths (R247). The cycles an engine has in 1,000 us are
the model's reading, log 39. -/
def Obligations.DispatcherEvents : Prop :=
  ∀ (s : State) (e : EngineId), let b := s.blk
    (∀ (f : SbEntry) (l : Launch) (w : W64) (t : Nat) (r : List Nat), let q := (b.partCtl (b.partNum f.q)).quantum.toNat
      b.running = true → b.candidates false = [f] → f.launch? = some l → l.waitFrom = some w → q ≠ 0 →
      1000 * q ≤ (s.env.now - w).toNat →
      ((b.launchEngines f.q).filter fun t => (b.engine t).preempt).length < l.toPlace →
      (b.preemptees f.q fun t p => p == b.levelOf f.q && decide (1000 * q ≤ (s.env.now - (b.engine t).runFrom).toNat)
        && !((b.engine t).holds f.job)) = t :: r →
      ∃ c : Blk, exec .quantumExpiry s = .next { s with blk := c } ∧ c.engine t = { b.engine t with preempt := true }
        ∧ c.dsp.preempts = b.dsp.preempts ++ [t] ∧ (∀ j, j ≠ t → c.engine j = b.engine j) ∧ b.EngineWork c ∧ c.sb = b.sb
        ∧ c.qs = b.qs ∧ c.kn = b.kn)
    ∧ (∀ (v : Nat) (j : Job) (lo n : Nat), b.running = true → b.maySteal e = true → b.victim e = some v →
      (b.engine v).deque = [(j, { lo := lo, hi := lo + n })] → 1 ≤ n →
      ∃ c : Blk, exec (.stealRequest e) s = .next { s with blk := c.pump s.env }
        ∧ (c.engine v).deque = (if n = 1 then [] else [(j, { lo := lo, hi := lo + (n - (n + 1) / 2) })])
        ∧ c.dsp.steals = b.dsp.steals ++ [{ thief := e.val, victim := v, epoch := b.wv.epoch, tiles := [(j, { lo := lo + (n - (n + 1) / 2), hi := lo + n })] }]
        ∧ (∀ i, i ≠ v → c.engine i = b.engine i) ∧ b.EngineWork c ∧ c.sb = b.sb ∧ c.qs = b.qs ∧ c.kn = b.kn)
    ∧ (∀ (x : Steal) (j : Job) (r : Range) (l : Launch), b.running = true → (b.dsp.steals.find? fun t => t.thief == e.val) = some x →
      x.tiles = [(j, r)] → (b.engine e).deque = [] → b.launch? j = some l → b.retired j = false → (SMap.get 0 b.wv.roleE x.thief).toNat ≤ x.epoch.toNat →
      (SMap.get 0 b.wv.roleE x.victim).toNat ≤ x.epoch.toNat →
      ∃ c : Blk, exec (.stealComplete e) s = .next { s with blk := c.pump s.env }
        ∧ (c.engine e).deque = [(j, r)] ∧ c.dsp.steals = b.dsp.steals.erase x
        ∧ (∀ i : Nat, i ≠ e.val → c.engine i = b.engine i) ∧ b.EngineWork c ∧ c.qs = b.qs ∧ c.kn = b.kn)
    ∧ (∀ (st : Standing) (k : Nat), let w := (b.wv.cur.owner st.q).getD 0
      b.running = true → b.standOn e = some st → b.findStand st.q st.n = some st → st.waiting = some k → st.running = none →
      st.unbind = false → b.retired st.job = false → st.engines b.wv.cur = [e.val] → b.runReady e = true →
      ((∀ y ∈ b.kn.wakes, y.is true st.q st.n = false) ∨ (b.nextWake.any fun y => y.is true st.q st.n) = true) →
      ∃ c : Blk, exec (.standingRunSend e) s = .next { s with blk := c.pump s.env }
        ∧ (c.engine e).deque = [(st.job, { lo := 0, hi := 1 })] ∧ (c.findStand st.q st.n).bind (·.running) = some k
        ∧ (c.seat w).launched = (b.seat w).launched + 1 ∧ (∀ i : Nat, i ≠ e.val → c.engine i = b.engine i) ∧ b.EngineWork c
        ∧ c.qs = b.qs ∧ c.kn.tab = b.kn.tab ∧ c.kn.waiters = b.kn.waiters)
    ∧ (b.up = true →
      let past := (b.dsp.loadNow :: b.dsp.loadPast).take 10
      let slack := (List.range 64).countP fun t => (b.wv.cur.partOf t).any fun p => !p.taut
      exec .loadUpdate s = .next { s with blk := { b with dsp := { b.dsp with
        loadNow := {}, loadPast := past.take 9
        engLoad := BitVec.ofNat 10 (min 1000 (1000 * (past.map (·.cycles)).sum / max 1 (slack * cyclesPerMs s.env)))
        portLoad := BitVec.ofNat 10 (min 1000 (1000 * (past.map (·.used)).sum / max 1 (past.map (·.passed)).sum)) } } })

/-! ### Time (13, 17) -/

/-- A REF edge adds 20 ns, and under a correction 21 or 19 at the edges that R450 spreads over the 50,000,000 of a correction,
which then ends; a step or the SET value takes effect with it (13 R345, 17 R450). TIME_LOAD sets fabric time and wins
(R345). A start that has not ended counts either edge (18 R461). A pulse records the time of its edge less 40 ns (R346) and,
without discipline, nothing more; a discipline with no pulse goes into HOLDOVER; TIM_CTRL.SET waits for the next edge. A
pulse recorded without discipline is the model's reading, log 108. -/
def Obligations.FabricTime : Prop :=
  ∀ (s : State), let b := s.blk; let t := s.env.time
    let n := t.corr.natAbs
    let adds := if t.corrPos * n / 50000000 < (t.corrPos + 1) * n / 50000000 then (if 0 < t.corr then 21 else 19) else 20
    let goesOn : Prop := t.corr ≠ 0 ∧ t.corrPos + 1 < 50000000
    let after : Time := { t with
      setPend := false, stepBy := none, divEdges := 0, corr := if goesOn then t.corr else 0
      corrPos := if t.corr = 0 then t.corrPos else if goesOn then t.corrPos + 1 else 0 }
    let start := if b.start.began && !b.start.done && !b.start.failed then { b.start with edges := b.start.edges + 1 } else b.start
    b.start.poresetLow = false →
    (∃ c : Blk, exec .refEdge s = .next { s with blk := c, env := { s.env with time := { after with now :=
          if t.setPend then t.setVal else match t.stepBy with
            | some e => BitVec.ofInt 64 ((t.now + BitVec.ofNat 64 adds).toNat - e)
            | none => t.now + BitVec.ofNat 64 adds } } }
      ∧ c = { b with start := start, trc := { b.trc with caddy := c.trc.caddy } }
      ∧ ((t.stepBy = none ∨ t.setPend = true) → c.trc = b.trc))
    ∧ (∀ v : W64, exec (.timeLoad v) s = .next { s with
        blk := { b with start := start }, env := { s.env with time := { after with now := v } } })
    ∧ (t.disc = false → exec .timePps s = .next { s with env := { s.env with time := { t with pps := t.now - 40 } } })
    ∧ (t.disc = true → ∃ u, exec .timePps s = .next { s with env := { s.env with time := u } } ∧ u.pps = t.now - 40 ∧ u.now = t.now)
    ∧ (t.disc = true → t.st ≠ .free → ∃ u, exec .holdover s = .next { s with env := { s.env with time := u } }
      ∧ u.st = .holdover ∧ u.corr = max (-200000) (min 200000 (-(sgn 32 t.trim.toNat))) ∧ u.now = t.now ∧ u.trim = t.trim)
    ∧ (∀ (a : Acc) (disc : Bool), b.Serves a → s.Steward a →
      ∃ u, exec (.set a disc) s = .next u ∧ u.env.time.disc = disc ∧ u.env.time.setPend = true ∧ u.env.time.now = t.now
        ∧ u.env.strap = s.env.strap ∧ u.env.steep = s.env.steep ∧ b.WroteOnly a b u.blk)

/-! ### Engines (03, 04, 05) -/

/-- On an edge that the engine's pacer passes, every one at level 16 and k of 16 at level k (15 R387), a bundle that is well
formed, finds its operands at hand and waits for no draw issues: the next bundle address and the loop stack are R83's and
R84's, its writes join the pending ones, and the step and the progress counter advance by one (03 R74, R75, R85). On
another edge only the pacer goes on. The spread of the edges that pass is the model's, log 154. -/
def Obligations.BundleIssues : Prop :=
  ∀ (s : State) (e : EngineId) (r : Issue) (nx : List LoopFrame × Nat), let b := s.blk
    let o := b.engine e
    let u : Eng := if o.level < 16 then o.edge else o
    let v : Eng := u.landUpTo u.step
    let b1 := b.setEng e v
    b.running = true → b.clocked e = true → o.mayIssue = true →
    (o.level < 16 → o.phase + o.level < 16 → exec (.bundleIssue e) s = .next { s with
      blk := b.setEng e { o with phase := o.phase + o.level } })
    ∧ ((16 ≤ o.level ∨ 16 ≤ o.phase + o.level) → v.bubble = false → v.sentinel = false →
    v.ptr ≤ 1023 → bundleBad v.fetch v = false → nextBundle v v.fetch = .ok nx → waitsDraw v (aSlot v.fetch) = false →
    runSlots v (b1.tileCtx e) v.fetch = .ok r → r.soc = [] →
    ∃ c : Blk, exec (.bundleIssue e) s = .next { s with blk := c }
      ∧ (c.engine e).ptr = nx.2 ∧ (c.engine e).arch.loops = nx.1 ∧ (c.engine e).arch.pend = r.v.arch.pend ++ r.new
      ∧ (c.engine e).step = r.v.step + 1 ∧ (c.engine e).progress = r.v.progress + 1 ∧ (c.engine e).ended = headEnd v.fetch
      ∧ (∀ j : Nat, j ≠ e.val → c.engine j = b.engine j)
      ∧ c = { b with
          eng := c.eng, freeCtr := c.freeCtr, dsp := { b.dsp with loadNow := c.dsp.loadNow }
          mem := { b.mem with ring := c.mem.ring }, trc := { b.trc with tally := c.trc.tally } })

/-- The earliest pending write lands once its step has come, or the tile has ended: the V register, weight-block row
or accumulator row it names takes its data, or the bytes of its line that it writes, and it is pending no more (03
R85, R86). -/
def Obligations.PendingWriteLands : Prop :=
  ∀ (s : State) (e : EngineId) (w : PendW) (r : List PendW) (i : Nat), let b := s.blk; let v := b.engine e
    b.running = true → b.clocked e = true → v.job.isSome = true → v.stop = none → v.pendFault = none →
    (v.st = .running ∨ v.st = .frozen) → orderBy landKey v.arch.pend = w :: r → (w.land ≤ v.step ∨ v.ended = true) →
    ∃ c : Blk, exec (.pendingWriteLand e) s = .next { s with blk := c }
      ∧ c = { b with eng := c.eng, dsp := { b.dsp with loadNow := c.dsp.loadNow }, trc := { b.trc with tally := c.trc.tally } }
      ∧ (∀ j : Nat, j ≠ e.val → c.engine j = b.engine j) ∧ (c.engine e).arch.pend = v.arch.pend.erase w
      ∧ (w.dest = .v i → SMap.get 0 (c.engine e).arch.v i = BitVec.ofNat 512 w.data.toNat ∧ (c.engine e).lm = v.lm)
      ∧ (w.dest = .wb i → SMap.get 0 (c.engine e).arch.wb i = BitVec.ofNat 512 w.data.toNat ∧ (c.engine e).lm = v.lm)
      ∧ (w.dest = .acc i → SMap.get 0 (c.engine e).arch.acc i = w.data ∧ (c.engine e).lm = v.lm)
      ∧ (w.dest = .lm i → (c.engine e).lm = Mem.writeMask v.lm (64 * i) w.data.toNat w.mask.toNat 64)

/-- A gather line that comes is kept for the gather that needs it (03 R94); an error response faults the tile with
ENG_GATHER. A generator's next index entries are read from local memory, or from the gather cache, which asks for the
lines it lacks (R90). A row drawn inward lands in local memory, whole, and the last row frees its channel (R93, R96);
an error to any of its lines faults the tile with ENG_DRAW. That lines are kept for the gather that froze is the
model's choice, log 54; when a generator's entries are fetched, log 53; which entries a fetch brings, log 125. -/
def Obligations.EngineReads : Prop :=
  ∀ (s : State) (e : EngineId), let b := s.blk; let v := b.engine e
    (∀ (line : LineNo) (d : Line), let m : Instr := .gatherFill e line d 0
      b.up = true → b.mayArrive m = true → line ∈ v.needs →
      ∃ c : Blk, exec m s = .next { s with blk := c }
        ∧ (c.engine e).needs = v.needs.erase line ∧ (line, d) ∈ (c.engine e).got ∧ (∀ j : Nat, j ≠ e.val → c.engine j = b.engine j)
        ∧ c = { b with eng := c.eng, mem := { b.mem with ring := b.mem.ring.erase m } })
    ∧ (∀ (line : LineNo) (d : Line) (resp : BitVec 2), let m : Instr := .gatherFill e line d resp
      b.up = true → b.mayArrive m = true → line ∈ v.needs → resp ≠ 0 → v.mayIssue = true →
      ∃ c : Blk, exec m s = .next { s with blk := c }
        ∧ c.engine e = { v with pendFault := some (Code.engGather, v.ptr) } ∧ (∀ j : Nat, j ≠ e.val → c.engine j = b.engine j)
        ∧ c = { b with eng := c.eng, mem := { b.mem with misses := c.mem.misses, ring := b.mem.ring.erase m } })
    ∧ (∀ (g : Fin 4) (p : Nat), let a := v.ag g; let ls := a.idxLines p
      b.running = true → b.clocked e = true → v.mayIssue = true → v.idxWant g = some p → v.idxFault a p = none →
      ((∀ n ∈ ls, (b.idxLine e a n).isSome = true) →
        ∃ c : Blk, exec (.indexFetchReturn e g) s = .next { s with blk := c }
          ∧ (∀ k ∈ v.idxWindow a, (∀ n ∈ a.idxLines k, n ∈ ls) →
              (k, a.idxEntry (fun n => (b.idxLine e a n).getD 0) k) ∈ SMap.get [] (c.engine e).idxBuf g.val)
          ∧ (c.engine e).arch = v.arch ∧ (c.engine e).lm = v.lm ∧ (∀ j : Nat, j ≠ e.val → c.engine j = b.engine j)
          ∧ c = { b with eng := c.eng, mem := { b.mem with agents := c.mem.agents, clock := c.mem.clock } })
      ∧ (∀ n ∈ ls, b.idxLine e a n = none →
        ∃ c : Blk, exec (.indexFetchReturn e g) s = .next { s with blk := c } ∧ c.missing e n = true
          ∧ c = { b with mem := { b.mem with misses := c.mem.misses, ring := c.mem.ring }, trc := { b.trc with tally := c.trc.tally } }))
    ∧ (∀ (ch : Fin 4), let k := v.chan ch; let f := drawFields k.desc
      b.up = true → k.rowOver = true → f.out = false →
      ∃ c : Blk, exec (.drawRowComplete e ch) s = .next { s with blk := c }
        ∧ (k.bad = false → (c.engine e).lm = v.lm.landLines k.soc k.lm k.got)
        ∧ (k.bad = true → (c.engine e).lm = v.lm
            ∧ (v.job.isSome = true → v.stop = none → v.pendFault = none → (c.engine e).pendFault = some (Code.engDraw, k.bundle)))
        ∧ (k.done + 1 = k.rows → (c.engine e).chan ch = {}) ∧ (∀ j : Nat, j ≠ e.val → c.engine j = b.engine j)
        ∧ c = { b with
            eng := c.eng, freeCtr := c.freeCtr, dsp := { b.dsp with loadNow := c.dsp.loadNow }
            mem := { b.mem with ring := c.mem.ring }, trc := { b.trc with tally := c.trc.tally } })

/-- A tile starts at bundle 0 with its coordinates, PARAM of its launch, and every other item that R71 clears cleared: V,
WB, ACC and its tags, the loop stack, address generators, draw channels, pending writes (03 R71, R100; 05 R132); local memory,
the banks, the trace and the counters stay. It completes when
it has ended with its draws idle, and its launch counts it and adds its digest (05 R133, R149); a fault stops it,
shows in ENG_FAULT and decides its launch's status (03 R106, R107; 16 R412). A copy of tensor descriptors that is
complete lands in local memory, or with an error faults the tile that waits for it (07 R186); one of a binding counts
for its standing launch (R188). -/
def Obligations.TileLife : Prop :=
  ∀ (s : State) (e : EngineId), let b := s.blk; let v := b.engine e
    (∀ (j : Job) (r : Range) (l : Launch), let k := v.bank v.active
      b.running = true → b.clocked e = true → b.mayStartTile e = true → v.deque = [(j, r)] → b.launch? j = some l →
      (k.st = .ready ∨ k.st = .waiting) → k.prog = l.prog → j.run = false →
      ∃ c : Blk, exec (.tileStart e) s = .next { s with blk := c } ∧ c = { b with eng := c.eng }
        ∧ c.engine e = { v with
            arch := { v := [], wb := [], acc := [], tag := [], loops := [], ag := [], chan := [], pend := [], param := l.params
                      tileM := BitVec.ofNat 16 (l.coords r.lo).1, tileN := BitVec.ofNat 16 (l.coords r.lo).2.1
                      tileB := BitVec.ofNat 16 (l.coords r.lo).2.2 }
            deque := if r.lo + 1 < r.hi then [(j, { lo := r.lo + 1, hi := r.hi })] else []
            job := some j, tile := r.lo, started := true, ptr := 0, step := 0, ended := false, mmFree := 0, bubble := false
            numeric := 0, digest := 0, apos := false, busy := 0, stall := 0, needs := [], got := [], idxBuf := [], idxLm := []
            ran := false, st := .running, last := s.env.now, trace := (c.engine e).trace }
        ∧ (∀ tm tn tb : Nat, tm < l.tm → tn < l.tn → r.lo = (tb * l.tm + tm) * l.tn + tn → l.coords r.lo = (tm, tn, tb))
        ∧ (∀ i : Nat, i ≠ e.val → c.engine i = b.engine i))
    ∧ (∀ (j : Job) (x : SbEntry) (l : Launch), b.running = true → b.clocked e = true → v.job = some j → v.ended = true →
      v.stop = none → v.pendFault = none → v.st ≠ .saving → v.channelsIdle = true → v.arch.pend = [] → j.run = false →
      b.retired j = false → b.entry j.q j.n = some x → x.prog = .launch l → l.twin = none → v.yieldTo = none →
      ∃ c : Blk, exec (.tileComplete e) s = .next { s with blk := c.pump s.env } ∧ (c.engine e).job = none ∧ (c.engine e).deque = v.deque
        ∧ (c.launch? j).map (·.doneTiles) = some (l.doneTiles + 1) ∧ (c.launch? j).map (·.digest) = some (l.digest + v.digest)
        ∧ (∀ i : Nat, i ≠ e.val → c.engine i = b.engine i) ∧ b.EngineWork c ∧ c.sq = b.sq ∧ c.qs = b.qs)
    ∧ (∀ (j : Job) (x : SbEntry) (l : Launch) (code : W8) (bundle : Nat), b.up = true → v.job = some j → j.run = false →
      v.pendFault = some (code, bundle) → b.entry j.q j.n = some x → x.prog = .launch l → l.twin = none → x.ending = none →
      ∃ c : Blk, exec (.tileFault e) s = .next { s with blk := c.pump s.env } ∧ (c.engine e).pendFault = none ∧ (c.engine e).stop = some .ended
        ∧ (c.engine e).faultReg = BitVec.ofNat 19 (code.toNat + 2 ^ 8 * (bundle % 1024) + 2 ^ 18 * b2n v.active)
        ∧ (c.entry j.q j.n).map (·.ending) = some (some (Stat.err code (engDetail e bundle v.active v.tile)))
        ∧ ({ b with flt := c.flt } : Blk).EngineWork c ∧ b.flt.LogOnly c.flt)
    ∧ (∀ (k : DescCopy) (l : Launch), let landed := v.lm.landLines (l.addr.toNat + 128) l.descLm k.got
      let sound := (v.landRow (l.addr.toNat + 128) l.descLm k.got).badLm
      b.running = true → (v.copies.find? fun c => c.want == 0) = some k → lastCopy k.job v.copies = some k → b.launch? k.job = some l →
      (v.descWait = true → v.descFor = some k.job →
        ∃ c : Blk, exec (.descriptorCopyDone e) s = .next { s with blk := c.pump s.env } ∧ c = { b with eng := c.eng }
          ∧ (k.bad = false → c.engine e = { v with copies := v.copies.erase k, descWait := false, lm := landed, badLm := sound })
          ∧ (k.bad = true → v.pendFault = none →
              c.engine e = { v with copies := v.copies.erase k, descWait := false, pendFault := some (Code.engDraw, 0) })
          ∧ (∀ i : Nat, i ≠ e.val → c.engine i = b.engine i))
      ∧ (∀ st : Standing, v.descWait = false → k.bad = false → k.job.run = true → b.findStand k.job.q k.job.n = some st →
          st.q = k.job.q → st.n = k.job.n → st.bound = false → st.copied.contains e.val = false →
        ∃ c : Blk, exec (.descriptorCopyDone e) s = .next { s with blk := c.pump s.env } ∧ c = { b with eng := c.eng, stand := c.stand }
          ∧ c.engine e = { v with copies := v.copies.erase k, lm := landed, badLm := sound }
          ∧ (c.findStand st.q st.n).map (·.copied) = some (st.copied ++ [e.val])
          ∧ (∀ i : Nat, i ≠ e.val → c.engine i = b.engine i)))

/-! ### Twins and retirement (02 R67, 16 R413 to R415) -/

/-- Equal pairs release the twin-issue with OUTCOME 1 and both agreeing; unequal ones call for a third issue with
CAUSE 1, which puts the whole launch on the arbiter (16 R414, R415). A launch affected by a pour, with no engine at
work on it, completes with STALE_SKIPPED, and NUMERIC as its tiles reported (02 R67; 06 R168). When a retired launch
completes is the model's reading, log 36; what a twin issue reports, log 147. -/
def Obligations.TwinsAndRetirement : Prop :=
  ∀ (s : State) (i : Fin 32), let b := s.blk
    (∀ (j : Job) (t : Twin) (d n : W64), b.running = true → b.twinJobs i = [(j, t)] → t.pairIx = i.val → t.run3 = false → t.wants3 = false →
      t.cause = 0 → t.c.fin = none → t.a.fin = some (.pair d n) → t.b.fin = some (.pair d n) →
      ∃ c : Blk, exec (.twinCompare i) s = .next { s with blk := c.pump s.env }
        ∧ SMap.get {} c.flt.twins i.val = { last := 49, digA := d, digB := d, digC := 0 } ∧ c.flt.log = b.flt.log
        ∧ ({ b with flt := { b.flt with twins := c.flt.twins } } : Blk).EngineWork c)
    ∧ (∀ (j : Job) (t : Twin) (l : Launch) (d n d' n' : W64), b.running = true → b.twinJobs i = [(j, t)] → t.run3 = false → t.wants3 = false →
      b.launch? j = some l → t.a.fin = some (.pair d n) → t.b.fin = some (.pair d' n') → (d ≠ d' ∨ n ≠ n') →
      ∃ c : Blk, exec (.twinCompare i) s = .next { s with blk := c.pump s.env }
        ∧ (c.launch? j).map (·.twin) = some (some { t with cause := 1, wants3 := true })
        ∧ c = { b with sb := c.sb, stand := c.stand })
    ∧ (∀ (p : WvTwin) (j : Job) (t : Twin) (l : Launch), b.running = true → b.wv.cur.twin i = some p → b.wantsThird i = some (j, t) →
      b.idleEng p.arb j = true → (b.engine p.arb).deque = [] → b.firstOfArb p.arb i = true → b.launch? j = some l → ((b.engine p.arb).bankFor l.prog).isSome = true →
      (b.engine p.arb).save = none →
      ∃ c : Blk, exec (.thirdIssue i) s = .next { s with blk := c.pump s.env }
        ∧ (c.engine p.arb).deque = [(j, { lo := 0, hi := if j.run then 1 else l.tiles })]
        ∧ (c.launch? j).map (·.twin) = some (some { t with run3 := true }) ∧ (∀ k, k ≠ p.arb → c.engine k = b.engine k)
        ∧ b.EngineWork c ∧ c.qs = b.qs ∧ c.kn = b.kn)
    ∧ (∀ (j : Job) (r : List Job) (e : SbEntry) (l : Launch), b.running = true → b.wv.retire = j :: r → j.run = false →
      b.entry j.q j.n = some e → (∀ f ∈ b.sb, f.q = j.q → f.n = j.n → f = e) → e.prog = .launch l → e.ending = none → e.owes = [] → b.holders j = [] → e.opcode = opLAUNCH →
      ∃ c : Blk, exec .launchRetire s = .next { s with blk := c.pump s.env } ∧ ({ b with wv := { b.wv with retire := r } } : Blk).EngineWork c
        ∧ c.Ended j.q j.n { stale := true, numeric := l.reported != 0, concealed := l.concealed, detail := l.reported
                            stretched := b.stretchSeen j.q j.n } opLAUNCH)

/-! ### The weave (02) -/

/-- WV_CTRL (02 R55 to R58, R469): on a unit that is not busy FETCH with a good source asks for its lines and goes to
FETCHING, else fails with code 0x1C; on a busy one it is ignored and WR_IGNORED set. CHECK and POUR go to CHECKING, or
fail with code 0x01 where nothing is loaded; CANCEL in WAITING gives the pour up. A steep-window write outside a busy
state stores its word and raises the loaded extent; in a busy one it is ignored and WR_IGNORED set (02 R54, R56, R59).
A fetch whose lines have all come loads its bytes from address 0 on (R55); one with an error response fails with code
0x1C. What a failed fetch leaves in the buffer is the model's choice, log 129, and so are an offset of 0 with code 0x1C, log
67, and lines read through their homes and a fetch that ends by a command of its own, log 70. -/
def Obligations.WeaveLoads : Prop :=
  (∀ (s : State) (a : Acc) (quiet : Bool), let b := s.blk; let v := b.wv
      b.Serves a → s.Steward a →
      (v.st.busy = false → ∃ c : Blk, exec (.fetch a quiet) s = .next { s with blk := c } ∧ b.Wrote a c
        ∧ (if v.src.toNat % 64 ≠ 0 ∨ v.srcLen.toNat % 8 ≠ 0 ∨ v.srcLen.toNat < 72 ∨ 262144 < v.srcLen.toNat then
            c.wv = { v with quiet := quiet, st := .failed, errCode := 0x1C, errOff := 0, action := none } ∧ c.mem = b.mem
           else c.wv = { v with
                quiet := quiet, st := .fetching
                fetch := some { src := v.src.toNat, len := v.srcLen.toNat, want := (v.srcLen.toNat + 63) / 64 } }
              ∧ c.mem = { b.mem with ring := b.mem.ring
                  ++ (List.range ((v.srcLen.toNat + 63) / 64)).map fun i => .rdonce .weave (lineOf (v.src.toNat + 64 * i)) })
        ∧ c = { b with wv := c.wv, mem := c.mem, host := { b.host with resp := c.host.resp }
                       trc := { b.trc with tally := c.trc.tally } })
      ∧ (v.st.busy = true → ∃ c : Blk, exec (.fetch a quiet) s = .next { s with blk := c }
        ∧ b.WroteOnly a { b with wv := { v with quiet := quiet, wrIgnored := true } } c)
      ∧ (v.st.busy = false → ∃ c : Blk, exec (.check a quiet) s = .next { s with blk := c } ∧ b.WroteOnly a { b with wv :=
          if v.st = .empty then { v with quiet := quiet, st := .failed, errCode := 0x01, errOff := 0, action := none }
          else { v with quiet := quiet, st := .checking, action := some .check } } c)
      ∧ (v.st.busy = false → ∃ c : Blk, exec (.pour a quiet) s = .next { s with blk := c } ∧ b.WroteOnly a { b with wv :=
          if v.st = .empty then { v with quiet := quiet, st := .failed, errCode := 0x01, errOff := 0, action := none }
          else { v with quiet := quiet, st := .checking, action := some (.pour quiet) } } c)
      ∧ (v.st = .waiting → ∃ c : Blk, exec (.cancel a quiet) s = .next { s with blk := c } ∧ b.Wrote a c
        ∧ c.wv = { v with quiet := quiet, st := .abandoned, action := none, next := none, changing := v.clearing }
        ∧ c = { b with wv := c.wv, ik := c.ik, host := { b.host with resp := c.host.resp } }))
  ∧ (∀ (s : State), let b := s.blk; let v := b.wv
      (∀ (a : Acc) (word : BitVec 16) (d : W32), b.Serves a → s.Steward a →
        ∃ u : State, exec (.steepWrite a word d) s = .next u ∧ b.Wrote a u.blk ∧ u.pending = s.pending
          ∧ u.env.strap = s.env.strap ∧ u.env.time = s.env.time
          ∧ u.blk = { b with
              wv := u.blk.wv, flt := { b.flt with steepBad := u.blk.flt.steepBad }
              host := { b.host with resp := u.blk.host.resp } }
          ∧ (v.st.busy = true → u.env = s.env ∧ u.blk.wv = { v with wrIgnored := true })
          ∧ (v.st.busy = false → u.blk.wv = { v with st := .loaded, wrote := true
                                                     extent := max (if v.st = .empty then 0 else v.extent) (4 * word.toNat + 4) }
              ∧ (∀ i, i < 4 → Mem.read u.env.steep (4 * word.toNat + i) = BitVec.ofNat 8 (d.toNat / 256 ^ i))
              ∧ ∀ x, (x < 4 * word.toNat ∨ 4 * word.toNat + 4 ≤ x) → Mem.read u.env.steep x = Mem.read s.env.steep x))
      ∧ (∀ f : Fetch, v.st = .fetching → b.running = true → v.fetch = some f → f.want = 0 →
        (f.bad = false → ∃ u : State, exec .fetchComplete s = .next u ∧ u.pending = s.pending
          ∧ u.env = { s.env with steep := f.land s.env.steep }
          ∧ u.blk.wv = { v with fetch := none, st := .loaded, extent := f.len, wrote := true }
          ∧ (∀ x, x < f.len → Mem.read u.env.steep x = Mem.read (Mem.landLines [] f.src 0 f.got) x)
          ∧ (∀ x, f.len ≤ x → Mem.read u.env.steep x = Mem.read s.env.steep x)
          ∧ u.blk = { b with wv := u.blk.wv, flt := { b.flt with steepBad := u.blk.flt.steepBad } })
        ∧ (f.bad = true → exec .fetchComplete s = .next { s with blk := { b with wv := { v with
            fetch := none, st := .failed, errCode := 0x1C, errOff := 0, action := none } } })))

/-- A finished check of a good weave is CHECKED, of a bad one FAILED with the first error's code and offset (02 R58);
a pour whose weave is good waits, when quiet, or is under way, and its changing engines are those whose role differs
(R62, R66); a quiet pour arms once they are at rest (R62); at P the epoch rises by 1 and the weave is in force (R62,
R63), and what becomes eligible starts (07 R227); the pour is DONE when every launch it retires has retired and
completed (R58). -/
def Obligations.PourSteps : Prop :=
  ∀ (s : State), let b := s.blk; let v := b.wv
    (b.running = true → v.st = .checking → v.action = some .check →
      ∃ c : Blk, exec .checkComplete s = .next { s with blk := c } ∧ c = { b with wv := c.wv }
        ∧ (match weaveCheck s.env.steep false v.extent b.flt.steepBad b.feat.confirmed false with
          | .good _ => c.wv = { v with st := .checked, action := none }
          | .bad code off => c.wv = { v with st := .failed, errCode := code, errOff := BitVec.ofNat 18 off, action := none }))
    ∧ (∀ quiet : Bool, b.running = true → v.st = .checking → v.action = some (.pour quiet) →
      ∃ c : Blk, exec .checkComplete s = .next { s with blk := c } ∧ c = { b with wv := c.wv, ik := c.ik }
        ∧ (match weaveCheck s.env.steep false v.extent b.flt.steepBad b.feat.confirmed (decide (v.epoch = 0xFFFFFFFF)) with
          | .good w => c.wv = { v with
              action := none, next := some w, changing := changedEngines b.weave? (some w) ++ v.clearing
              st := if quiet then .waiting else .pouring }
          | .bad code off => c.wv = { v with st := .failed, errCode := code, errOff := BitVec.ofNat 18 off, action := none }))
    ∧ (∀ w : Weave, b.running = true → v.st = .waiting → v.next = some w → b.quietReady = true →
      ∃ c : Blk, exec .quietPourReady s = .next { s with blk := c } ∧ c = { b with wv := { v with st := .pouring }, ik := c.ik }
        ∧ ∀ p ∈ changedPorts b.weave? (some w), (c.intake p).stopped = true)
    ∧ (∀ w : Weave, b.running = true → v.st = .pouring → v.next = some w →
      ∃ c : Blk, exec .pourEdge s = .next { s with blk := c.pump s.env } ∧ c.wv.epoch = v.epoch + 1 ∧ c.wv.cur = w
        ∧ c.wv.next = none ∧ c.wv.pourTime = s.env.now ∧ c.wv.st = .pouring
        ∧ c.wv.extent = v.extent ∧ c.wv.src = v.src ∧ c.wv.srcLen = v.srcLen
        ∧ ({ b with wv := c.wv, ik := c.ik, flt := c.flt, pwr := c.pwr } : Blk).EngineWork c
        ∧ ({ b.flt with twins := c.flt.twins } : Faults).LogOnly c.flt
        ∧ c.pwr = { b.pwr with under := c.pwr.under, evUnder := c.pwr.evUnder })
    ∧ (b.running = true → v.st = .pouring → v.next = none → v.retire = [] → v.retiring = [] →
      exec .pourDone s = .next { s with blk := { b with wv := { v with st := .done } } })

/-- After P each port's slots follow the weave in force (02 R48), and a changed engine at rest has its local memory,
banks, save area and gather cache cleared and accepts work (R66, R70); what becomes eligible then starts (07 R227).
Which slots a cluster gets is the model's choice, log 10. -/
def Obligations.AfterPour : Prop :=
  ∀ (s : State), let b := s.blk
    (b.up = true → ∃ c : Blk, exec .slotAllocationSwitch s = .next { s with blk := c }
      ∧ c = { b with mem := { b.mem with ports := c.mem.ports } }
      ∧ ∀ p : Nat, p < 4 → c.port p = { b.port p with slots := slotTable b.wv.cur p })
    ∧ (∀ e : EngineId, let v := b.engine e
      b.running = true → e.val ∈ b.wv.clearing → v.job = none → v.deque = [] → v.st ≠ .resetting →
      ∃ c : Blk, exec (.engineClearDone e) s = .next { s with blk := c.pump s.env } ∧ (c.engine e).lm = []
        ∧ (c.engine e).bank0 = {} ∧ (c.engine e).bank1 = {} ∧ (c.engine e).save = none ∧ c.mem.copies e = []
        ∧ c.wv.clearing = b.wv.clearing.erase e.val ∧ (∀ j : Nat, j ≠ e.val → c.engine j = b.engine j)
        ∧ c = { b with eng := c.eng, mem := { b.mem with agents := c.mem.agents, ring := c.mem.ring, cohFwd := c.mem.cohFwd }
                       wv := { b.wv with clearing := c.wv.clearing, changing := c.wv.changing }
                       trc := { b.trc with tally := c.trc.tally } })

/-! ### Coherence (10) -/

/-- A home that holds the line clean of poison, with no directory entry and room for one, serves it (10 R254, R264,
R265): RdS gives the agent the line exclusively and waits for its Ack; RdOnce gives it and waits for nothing; RdM
gives it to the window and waits for its Ack. A message taken off the ring as it arrives, first of those on its path,
is the model's form, log 16. -/
def Obligations.HomeReads : Prop :=
  ∀ (s : State) (line : LineNo) (l : RcLine), let b := s.blk; let n := line.toNat
    b.running = true → b.isBusy n = false → b.rcLine n = some l → l.poison = false → b.dirEnt n = none →
    b.dirRoom n = .free → (∀ w ∈ b.mem.waitQ, w.1 ≠ n) → (∀ w ∈ b.mem.busy, w.2.wait ≠ .room) →
    (∀ a : AgentId, b.mayArrive (.rds a line) = true → ∃ c : Blk, exec (.rds a line) s = .next { s with blk := c }
      ∧ c.mem.ring = b.mem.ring.erase (.rds a line) ++ [.data none (.agent a) line l.data true]
      ∧ (c.dirEnt n).map (·.pres) = some (setBit 0 a.val true) ∧ (c.dirEnt n).map (·.isX) = some false
      ∧ PMap.find n c.mem.busy = some { req := .rds a, ack := true } ∧ b.HomeWork n c)
    ∧ (∀ rq : Rq, b.mayArrive (.rdonce rq line) = true → ∃ c : Blk, exec (.rdonce rq line) s = .next { s with blk := c }
      ∧ c.mem.ring = b.mem.ring.erase (.rdonce rq line) ++ [.data none rq line l.data false]
      ∧ c.dirEnt n = none ∧ c.isBusy n = false ∧ b.HomeWork n c)
    ∧ (b.mayArrive (.rdm line) = true → ∃ c : Blk, exec (.rdm line) s = .next { s with blk := c }
      ∧ c.mem.ring = b.mem.ring.erase (.rdm line) ++ [.data none (.agent 68) line l.data true]
      ∧ (c.dirEnt n).map (·.isX) = some true ∧ (c.dirEnt n).map (·.pres) = some (setBit 0 68 true)
      ∧ PMap.find n c.mem.busy = some { req := .rdm, ack := true } ∧ b.HomeWork n c)

/-- On a line the home holds and no agent does, a masked write merges its bytes and a near atomic applies its
operation; the line is dirty, Cmp goes back, with the old word of an atomic (10 R255, R258, R268); a write without a
byte changes no data, the model's reading, log 63. A message taken off the ring as it arrives, first of those on its path,
is the model's form, log 16. -/
def Obligations.HomeWrites : Prop :=
  ∀ (s : State) (line : LineNo) (l : RcLine), let b := s.blk; let n := line.toNat
    b.running = true → b.isBusy n = false → b.rcLine n = some l → l.poison = false → b.dirEnt n = none →
    (∀ w ∈ b.mem.waitQ, w.1 ≠ n) → (∀ w ∈ b.mem.busy, w.2.wait ≠ .room) →
    (∀ (rq : Rq) (d : Line) (mask : W64), b.mayArrive (.wr rq line d mask) = true →
      ∃ c : Blk, exec (.wr rq line d mask) s = .next { s with blk := c }
        ∧ (mask ≠ 0 → (c.rcLine n).map (·.data) = some (mergeMask l.data d mask) ∧ (c.rcLine n).map (·.dirty) = some true)
        ∧ (mask = 0 → (c.rcLine n).map (·.data) = some l.data ∧ (c.rcLine n).map (·.dirty) = some l.dirty)
        ∧ c.dirEnt n = none ∧ b.HomeWork n c
        ∧ c.mem.ring = b.mem.ring.erase (.wr rq line d mask) ++ [.cmpMessage rq line 0 0])
    ∧ (∀ t : AtomReq, b.mayArrive (.atom line t) = true → ∃ c : Blk, exec (.atom line t) s = .next { s with blk := c }
      ∧ (c.rcLine n).map (·.data) = some (atomApply t l.data).2 ∧ (c.rcLine n).map (·.dirty) = some true
      ∧ c.dirEnt n = none ∧ b.HomeWork n c
      ∧ c.mem.ring = b.mem.ring.erase (.atom line t) ++ [.cmpMessage (.window t.seat) line (atomApply t l.data).1 0]
      ∧ c.mem.cohNear = satInc b.mem.cohNear)

/-- An agent that holds a line answers Fwd with its data, and E becomes S, M becomes O for a requester that keeps a
copy; Inv drops its copy and FwdInv hands it to the window, unless the agent holds the line for 32 cycles, when either
is deferred to the end of the hold (10 R266, R267). One that holds it no longer answers FwdMiss or InvAck (R269). A
message taken off the ring as it arrives, first of those on its path, is the model's form, log 16; that a RdOnce sent on to
an agent leaves its line BUSY until the agent has answered is the model's reading, log 145. -/
def Obligations.AgentAnswers : Prop :=
  (∀ (s : State) (a : AgentId) (line : LineNo) (k : Copy), let b := s.blk; let n := line.toNat
    b.up = true → b.copy a n = some k →
    (∀ rq : Rq, b.mayArrive (.fwd a line rq) = true →
      let served := fun c : Blk => c.mem.ring = b.mem.ring.erase (.fwd a line rq) ++ [.data (some a) rq line k.data false]
        ∧ c.mem.cohFwd = satInc b.mem.cohFwd
        ∧ (∀ r, rq = .agent r →
            c.copy a n = some { k with st := if k.st = .e then .s else if k.st = .m then .o else k.st })
        ∧ ((∀ r, rq ≠ .agent r) → c.copy a n = some { k with st := if k.st = .e then .s else k.st })
      ((∀ v : Busy, PMap.find n b.mem.busy = some v → v.wait ≠ .forward) →
        ∃ c : Blk, exec (.fwd a line rq) s = .next { s with blk := c } ∧ served c
        ∧ c = { b with mem := { b.mem with agents := c.mem.agents, ring := c.mem.ring, cohFwd := c.mem.cohFwd }
                       trc := { b.trc with tally := c.trc.tally } })
      ∧ (∀ v : Busy, PMap.find n b.mem.busy = some v → v.wait = .forward → v.req = .rdonce rq → v.invs = 0 → v.ack = false →
        (∀ w ∈ b.mem.waitQ, w.1 ≠ n) → (∀ w ∈ b.mem.busy, w.2.wait ≠ .room) →
        ∃ c : Blk, exec (.fwd a line rq) s = .next { s with blk := c } ∧ served c ∧ c.isBusy n = false
        ∧ c = { b with mem := { b.mem with agents := c.mem.agents, ring := c.mem.ring, cohFwd := c.mem.cohFwd, busy := c.mem.busy }
                       trc := { b.trc with tally := c.trc.tally } }))
    ∧ (b.mayArrive (.inv a line) = true → ∃ c : Blk, exec (.inv a line) s = .next { s with blk := c }
      ∧ c = { b with eng := c.eng, mem := { b.mem with agents := c.mem.agents, ring := c.mem.ring, cohHold := c.mem.cohHold }
                     trc := { b.trc with tally := c.trc.tally } } ∧
        if k.hold then c.copy a n = some { k with defer := some none } ∧ c.mem.cohHold = satInc b.mem.cohHold
          ∧ c.mem.ring = b.mem.ring.erase (.inv a line)
        else c.copy a n = none ∧ c.mem.ring = b.mem.ring.erase (.inv a line) ++ [.invack a line k.dirtyData])
    ∧ (b.mayArrive (.fwdinv a line) = true → ∃ c : Blk, exec (.fwdinv a line) s = .next { s with blk := c }
      ∧ c = { b with eng := c.eng, mem := { b.mem with
          agents := c.mem.agents, ring := c.mem.ring, cohHold := c.mem.cohHold, cohFwd := c.mem.cohFwd }
                     trc := { b.trc with tally := c.trc.tally } } ∧
        if k.hold then c.copy a n = some { k with defer := some (some (.agent 68)) } ∧ c.mem.cohHold = satInc b.mem.cohHold
          ∧ c.mem.ring = b.mem.ring.erase (.fwdinv a line)
        else c.copy a n = none ∧ c.mem.ring = b.mem.ring.erase (.fwdinv a line)
            ++ [.data (some a) (.agent 68) line k.data true, .invack a line none])
    ∧ (k.hold = true → a.val < 68 → ∃ c : Blk, exec (.holdEnd a line) s = .next { s with blk := c }
        ∧ c = { b with eng := c.eng, mem := { b.mem with
            agents := c.mem.agents, ring := c.mem.ring, cohFwd := c.mem.cohFwd, misses := c.mem.misses }
                       trc := { b.trc with tally := c.trc.tally } }
        ∧ (k.defer = none → c = b.putCopy a n { k with hold := false })
        ∧ (k.defer = some none → b.mem.far = [] → c.copy a n = none ∧ c.mem.ring = b.mem.ring ++ [.invack a line k.dirtyData])
        ∧ (∀ r, k.defer = some (some r) → c.copy a n = none
            ∧ c.mem.ring = b.mem.ring ++ [.data (some a) (.agent 68) line k.data true, .invack a line none]))
    ∧ (k.hold = true → a.val = 68 → k.defer = none → b.missing 68 n = false → b.mem.far = [] →
      ∃ c : Blk, exec (.holdEnd a line) s = .next { s with blk := c } ∧ c.copy 68 n = none
        ∧ c = { b with mem := { b.mem with agents := c.mem.agents, ring := b.mem.ring ++ [.wb line k.data] }
                       trc := { b.trc with tally := c.trc.tally } }))
  ∧ (∀ (s : State) (a : AgentId) (line : LineNo), let b := s.blk
      b.up = true → b.copy a line.toNat = none →
      (∀ rq : Rq, b.mayArrive (.fwd a line rq) = true → exec (.fwd a line rq) s = .next { s with
        blk := (b.arrived (.fwd a line rq)).send (.fwdmiss a line rq) })
      ∧ (b.mayArrive (.inv a line) = true → exec (.inv a line) s = .next { s with
        blk := (b.arrived (.inv a line)).send (.invack a line none) })
      ∧ (b.mayArrive (.fwdinv a line) = true → exec (.fwdinv a line) s = .next { s with
        blk := (b.arrived (.fwdinv a line)).send (.fwdmiss a line (.agent 68)) }))

/-- Answers at a home (10 R260, R264, R269): Ack, the last of a request's messages, ends a line's BUSY mark, and that
of the window moves the predictor (R272) and frees a directory entry that names no holder; the last InvAck lets the write that waited take place; Evict takes the agent
out of the directory; a FwdMiss is served from the home's line, for a reader that keeps no copy and for one that does;
window data that comes home while the window owns the line is the home's (R268), and is ignored otherwise. A message
taken off the ring as it arrives, first of those on its path, is the model's form, log 16. -/
def Obligations.HomeAnswers : Prop :=
  ∀ (s : State) (a : AgentId) (line : LineNo), let b := s.blk; let n := line.toNat
    b.up = true → (∀ w ∈ b.mem.waitQ, w.1 ≠ n) → (∀ w ∈ b.mem.busy, w.2.wait ≠ .room) →
    (∀ w ∈ b.mem.busy, w.2.recalls n = false) →
    (∀ v : Busy, b.mayArrive (.ack a line) = true → PMap.find n b.mem.busy = some v → v.req.rq = .agent a → v.ack = true →
      v.invs = 0 → v.wait = .none →
      ∃ c : Blk, exec (.ack a line) s = .next { s with blk := c } ∧ PMap.find n c.mem.busy = none
        ∧ c.mem.pred = (if v.req = .rdm then (b.predict n v.agents).mem.pred else b.mem.pred)
        ∧ c.mem.ring = b.mem.ring.erase (.ack a line)
        ∧ (b.isHeld n = true → c = { b with mem := { b.mem with busy := c.mem.busy, ring := c.mem.ring, pred := c.mem.pred } })
        ∧ (b.isHeld n = false → c.dirEnt n = none ∧ b.HomeWork n c))
    ∧ (∀ (v : Busy) (rq : Rq) (d : Line) (mask : W64) (l : RcLine), let m : Instr := .invack a line none
      b.mayArrive m = true → PMap.find n b.mem.busy = some v → v.req = .wr rq d mask → v.invs = 1 → v.ack = false →
      v.wait = .grant → v.wdata = none → b.rcLine n = some l → l.poison = false → mask ≠ 0 →
      ∃ c : Blk, exec m s = .next { s with blk := c } ∧ PMap.find n c.mem.busy = none ∧ c.dirEnt n = none
        ∧ (c.rcLine n).map (·.data) = some (mergeMask l.data d mask)
        ∧ b.HomeWork n c ∧ c.mem.ring = b.mem.ring.erase m ++ [.cmpMessage rq line 0 0])
    ∧ (∀ e : DirEnt, b.mayArrive (.evict a line) = true → b.dirEnt n = some e →
      ∃ c : Blk, exec (.evict a line) s = .next { s with blk := c }
        ∧ (∀ f, c.dirEnt n = some f → f.pres.getLsbD a.val = false)
        ∧ b.HomeWork n c ∧ c.mem.rc = b.mem.rc ∧ c.mem.ring = b.mem.ring.erase (.evict a line))
    ∧ (∀ (rq : Rq) (l : RcLine), let m : Instr := .fwdmiss a line rq
      b.mayArrive m = true → b.rcLine n = some l → l.poison = false →
      (∀ v : Busy, (∀ r, rq ≠ .agent r) → PMap.find n b.mem.busy = some v → v.req = .rdonce rq → v.invs = 0 → v.ack = false →
        ∃ c : Blk, exec m s = .next { s with blk := c } ∧ c.isBusy n = false
        ∧ b.HomeWork n c ∧ c.mem.ring = b.mem.ring.erase m ++ [.data none rq line l.data false])
      ∧ (∀ (r : AgentId) (v : Busy), rq = .agent r → a.val ≠ 68 → PMap.find n b.mem.busy = some v → v.req = .rds r →
        v.invs = 0 → v.ack = true → v.wait = .none →
        ∃ c : Blk, exec m s = .next { s with blk := c } ∧ PMap.find n c.mem.busy = some v
          ∧ b.HomeWork n c ∧ c.mem.ring = b.mem.ring.erase m ++ [.data none rq line l.data (!b.isHeld n)]))
    ∧ (∀ (d : Line) (e : DirEnt) (l : RcLine), let m : Instr := .wb line d
      b.mayArrive m = true → b.dirEnt n = some e → b.rcLine n = some l →
      (e.isX = true → ∃ c : Blk, exec m s = .next { s with blk := c } ∧ (c.rcLine n).map (·.data) = some d
        ∧ (c.rcLine n).map (·.dirty) = some true ∧ (∀ f, c.dirEnt n = some f → f.isX = false ∧ f.pres.getLsbD 68 = false)
        ∧ b.HomeWork n c ∧ c.mem.ring = b.mem.ring.erase m)
      ∧ (e.isX = false → exec m s = .next { s with blk := { b with mem := { b.mem with ring := b.mem.ring.erase m } } }))

/-- Data installs the line at the gather cache that asked for it, which acknowledges (10 R267); an aperture read takes
its word from the line and answers its seat, and Cmp answers an aperture write, or a near atomic with the word's old
value (R256 to R258). Then held accesses go on. A MEMBAR that finds no line to scan and no write-back under way
completes (R219), and what becomes eligible starts (07 R227). A message taken off the ring as it arrives, first of
those on its path, is the model's form, log 16. -/
def Obligations.DataArrives : Prop :=
  ∀ (s : State), let b := s.blk
    b.up = true →
    (∀ (src : Option AgentId) (e : EngineId) (line : LineNo) (d : Line) (excl : Bool), let a : AgentId := ⟨e.val, by omega⟩
      let m : Instr := .data src (.agent a) line d excl
      b.mayArrive m = true → b.missing e line.toNat = true → (∀ w ∈ b.mem.misses, w.void = false) →
      b.copy e line.toNat = none → (b.wayFor e line.toNat false).2 = none →
      ∃ c : Blk, exec m s = .next (State.settle { s with blk := c.pump s.env })
        ∧ (c.copy e line.toNat).map (·.data) = some d ∧ (c.copy e line.toNat).map (·.hold) = some true
        ∧ (c.copy e line.toNat).map (·.st) = some (if excl then .e else .s)
        ∧ c.mem.ring = b.mem.ring.erase m ++ [.ack a line, .gatherFill e line d 0] ∧ c.missing e line.toNat = false
        ∧ c = { b with
            host := { b.host with resp := [] }
            mem := { b.mem with agents := c.mem.agents, misses := c.mem.misses, clock := c.mem.clock, ring := c.mem.ring }
            trc := { b.trc with tally := c.trc.tally } })
    ∧ (∀ (src : Option AgentId) (t : Seat) (o : BitVec 13) (line : LineNo) (d : Line),
      let m : Instr := .data src (.window t) line d false
      b.mayArrive m = true → (b.seat t).unfin = some (.aperRead o) →
      ∃ c : Blk, exec m s = .next (State.settle { s with blk := c.pump s.env })
        ∧ c.seat t = { b.seat t with unfin := none } ∧ (∀ j : Nat, j ≠ t.val → c.seat j = b.seat j)
        ∧ c = { b with host := { b.host with resp := c.host.resp, seats := c.host.seats }
                       mem := { b.mem with ring := b.mem.ring.erase m } }
        ∧ c.host.resp = [{ seat := BitVec.ofNat 4 t.val, write := false
                           rdata := BitVec.ofNat 32 (fld d (8 * (((b.seat t).winBase.toNat + 4 * o.toNat) % 64)) 32) }])
    ∧ (∀ (t : Seat) (o : BitVec 13) (line : LineNo) (old : W64), let m : Instr := .cmpMessage (.window t) line old 0
      b.mayArrive m = true → (b.seat t).unfin = some (.aperWrite o) →
      ∃ c : Blk, exec m s = .next (State.settle { s with blk := c.pump s.env })
        ∧ c.seat t = { b.seat t with unfin := none } ∧ (∀ j : Nat, j ≠ t.val → c.seat j = b.seat j)
        ∧ c = { b with host := { b.host with resp := c.host.resp, seats := c.host.seats }
                       mem := { b.mem with ring := b.mem.ring.erase m } }
        ∧ c.host.resp = [{ seat := BitVec.ofNat 4 t.val, write := true, rdata := 0 }])
    ∧ (∀ (t : Seat) (r : AtomReq) (at' : W64) (line : LineNo) (old : W64), let m : Instr := .cmpMessage (.window t) line old 0
      b.mayArrive m = true → (b.seat t).unfin = some (.atomic r at') →
      ∃ c : Blk, exec m s = .next (State.settle { s with blk := c.pump s.env })
        ∧ c.seat t = { b.seat t with unfin := none, atomRes := old } ∧ (∀ j : Nat, j ≠ t.val → c.seat j = b.seat j)
        ∧ c = { b with host := { b.host with resp := c.host.resp, seats := c.host.seats }
                       mem := { b.mem with ring := b.mem.ring.erase m } }
        ∧ c.host.resp = [{ seat := BitVec.ofNat 4 t.val, write := true, rdata := 0 }])
    ∧ (∀ (q : Queue) (n : Nat) (e : SbEntry), b.running = true → b.entry q n = some e → e.started = true →
      e.prog = .membar false 0 → e.ending = none → e.opcode = opMEMBAR →
      (∀ l ∈ b.mem.rc, scanned b.wv.cur (b.partNo q) l.1 l.2.way = false) → (b.joinWritebacks q n).2 = 0 →
      ∃ c : Blk, exec (.membarScanDone q n) s = .next { s with blk := c.pump s.env }
        ∧ ({ b with mem := { b.mem with ports := c.mem.ports } } : Blk).QueueWork c ∧ c.Ended q n .ok opMEMBAR)

/-! ### The host memory window (10 R256 to R258) -/

/-- An aperture access leaves as a read, or a masked write, of the word at the window's base plus its offset (10 R256,
R257); an atomic leaves for the home where the mode says near, with the operands of the seat's registers, and acts at
once on a line that the window holds in M where it says far (R258, R272). Then held accesses go on. -/
def Obligations.WindowLeaves : Prop :=
  ∀ (s : State) (a : Acc), let b := s.blk; let v := b.seat a.seat.val
    b.Serves a → b.dbg.belay = .running →
    (∀ o : BitVec 13, let at' := v.winBase.toNat + 4 * o.toNat
      (∃ c : Blk, exec (.apertureRead a o) s = .next (State.settle { s with blk := c })
        ∧ (c.seat a.seat.val) = { v with unfin := some (.aperRead o) } ∧ c.host.resp = []
        ∧ c = { b with host := { b.host with resp := [], seats := c.host.seats }, mem := c.mem, trc := { b.trc with tally := c.trc.tally } }
        ∧ (∀ j : Nat, j ≠ a.seat.val → c.seat j = b.seat j)
        ∧ c.mem = { b.mem with ring := b.mem.ring ++ [.rdonce (.window a.seat) (lineOf at')] })
      ∧ ∀ d : W32, ∃ c : Blk, exec (.apertureWrite a o d) s = .next (State.settle { s with blk := c })
        ∧ (c.seat a.seat.val) = { v with unfin := some (.aperWrite o) } ∧ c.host.resp = []
        ∧ c = { b with host := { b.host with resp := [], seats := c.host.seats }, mem := c.mem, trc := { b.trc with tally := c.trc.tally } }
        ∧ (∀ j : Nat, j ≠ a.seat.val → c.seat j = b.seat j)
        ∧ c.mem = { b.mem with ring := b.mem.ring ++ [.wr (.window a.seat) (lineOf at')
            (BitVec.ofNat 512 (d.toNat * 2 ^ (8 * (at' % 64)))) (BitVec.ofNat 64 (15 * 2 ^ (at' % 64)))] })
    ∧ ∀ (wide : Bool), v.atomAddr.toNat % (if wide then 8 else 4) = 0 →
      let n := v.atomAddr.toNat / 64
      let t := fun op : AtomOp => ({ seat := a.seat, op := op, wide := wide, off := BitVec.ofNat 6 (v.atomAddr.toNat % 64)
                                     opnd := v.atomOpnd, cmp := v.atomCmp } : AtomReq)
      let others := fun c : Blk => ∀ j : Nat, j ≠ a.seat.val → c.seat j = b.seat j
      let sent := fun (i : Instr) (op : AtomOp) =>
        (b.goesNear n = true → ∃ c : Blk, exec i s = .next (State.settle { s with blk := c })
          ∧ c.seat a.seat.val = { v with unfin := some (.atomic (t op) v.atomAddr) }
          ∧ c.mem = { b.mem with ring := b.mem.ring ++ [.atom (lineNo n) (t op)] }
          ∧ c = { b with host := { b.host with resp := [], seats := c.host.seats }, mem := c.mem, trc := { b.trc with tally := c.trc.tally } }
          ∧ others c)
        ∧ (∀ k : Copy, b.goesNear n = false → b.copy 68 n = some k → k.st = .m →
          ∃ c : Blk, exec i s = .next (State.settle { s with blk := c }) ∧ b.Wrote a c
          ∧ c.seat a.seat.val = { v with atomRes := (atomApply (t op) k.data).1 }
          ∧ (c.copy 68 n).map (·.data) = some (atomApply (t op) k.data).2 ∧ c.mem.cohFar = satInc b.mem.cohFar
          ∧ c = { b with
              host := { b.host with resp := c.host.resp, seats := c.host.seats }
              mem := { b.mem with agents := c.mem.agents, cohFar := c.mem.cohFar, far := c.mem.far, pred := c.mem.pred } }
          ∧ others c)
      sent (.atomicAdd a wide) .add ∧ sent (.atomicSwap a wide) .swap ∧ sent (.atomicCas a wide) .cas
        ∧ sent (.atomicUmax a wide) .umax ∧ sent (.atomicAnd a wide) .and ∧ sent (.atomicOr a wide) .or

/-! ### Memory ports (10, 13) -/

/-- A response ends its transaction and frees its tag (10 R275, R277): the data of a read go to the RdOnce that
waited, whose line is no longer BUSY; an acknowledged write-back leaves nothing but the free tag, and the last one
that a MEMBAR waits for completes it (R219), upon which what becomes eligible starts (07 R227); one from before a
reset is discarded (13 R343); a returned credit counts up to the grant (R278). -/
def Obligations.PortResponses : Prop :=
  ∀ (s : State) (p : Port) (tag : BitVec 9) (r : PortReq), let b := s.blk; let v := b.port p; let t := tag.toNat
    b.linkUp p = true →
    (∀ (d : Line) (rq : Rq) (k : Busy) (line : LineNo), PMap.find t v.stale = none → PMap.find t v.tags = some r →
      r.write = false → r.use = .home line.toNat → PMap.find line.toNat b.mem.busy = some k → k.req = .rdonce rq →
      k.wait = .fill → k.invs = 0 → k.ack = false → (∀ w ∈ b.mem.waitQ, w.1 ≠ line.toNat) →
      (∀ w ∈ b.mem.busy, w.2.recalls line.toNat = false ∧ w.2.wait ≠ .room) →
      ∃ c : Blk, exec (.rdata p tag d 0) s = .next { s with blk := c } ∧ PMap.find t (c.port p).tags = none
        ∧ c.mem.ring = b.mem.ring ++ [.data none rq line d false] ∧ c.isBusy line.toNat = false ∧ b.HomeOnly c)
    ∧ (∀ resp : BitVec 2, PMap.find t v.stale = none → PMap.find t v.tags = some r → r.write = true → r.use = .writeback [] →
      ∃ c : Blk, exec (.rsp p tag resp) s = .next { s with blk := c } ∧ PMap.find t (c.port p).tags = none
        ∧ (∀ j : Nat, j ≠ p.val → c.port j = b.port j)
        ∧ c = { b with mem := { b.mem with ports := c.mem.ports, ring := c.mem.ring } }
        ∧ (resp = 0 → c = b.setPort p { v with tags := PMap.del t v.tags })
        ∧ (resp ≠ 0 → c.mem.ring = b.mem.ring ++ [.wbRefused p r.line resp]
            ∧ (v.errValid = false → (c.port p).errValid = true ∧ (c.port p).errResp = resp ∧ (c.port p).errSrc = r.src
                ∧ (c.port p).errSeat = r.seat ∧ (c.port p).errAddr = BitVec.ofNat 64 (64 * r.line.toNat))))
    ∧ (∀ (q n : Nat) (e : SbEntry), PMap.find t v.stale = none → PMap.find t v.tags = some r → r.write = true →
      r.use = .writeback [(q, n)] → b.running = true → b.entry q n = some e → e.prog = .membar true 1 → e.ending = none →
      e.opcode = opMEMBAR →
      ∃ c : Blk, exec (.rsp p tag 0) s = .next { s with blk := c.pump s.env } ∧ c.Ended q n .ok opMEMBAR
        ∧ c.port p = { v with tags := PMap.del t v.tags } ∧ (∀ j : Nat, j ≠ p.val → c.port j = b.port j)
        ∧ ({ b with mem := { b.mem with ports := c.mem.ports } } : Blk).QueueWork c)
    ∧ (∀ (l : LineNo) (d : Line) (resp : BitVec 2), PMap.find t v.stale = some l →
      exec (.rdata p tag d resp) s = .next { s with blk := b.setPort p { v with stale := PMap.del t v.stale } }
        ∧ exec (.rsp p tag resp) s = .next { s with blk := b.setPort p { v with stale := PMap.del t v.stale } })
    ∧ (∀ req wd : Bool, ∃ c : Blk, exec (.creditReturn p req wd) s = .next { s with blk := c }
        ∧ c = b.setPort p { v with reqCred := (c.port p).reqCred, wdCred := (c.port p).wdCred }
        ∧ (c.port p).reqCred = (if req = true ∧ v.reqCred.toNat < v.reqGrant.toNat then v.reqCred + 1 else v.reqCred)
        ∧ (c.port p).wdCred = (if wd = true ∧ v.wdCred.toNat < v.wdGrant.toNat then v.wdCred + 1 else v.wdCred))

/-- A slot whose holder has a request, a credit and a tag issues it (02 R48, 10 R277, R278), and every cycle passes to
the next slot, used or not, and sends a flit; a link that trains sends training flits until it has had 32 good ones in a row (13 R335); a memory peak
register that is cleared holds the tags outstanding now (10 R282). Which tag a request takes and what a flit carries
are the model's choices, log 96 and 97. -/
def Obligations.PortIssue : Prop :=
  ∀ (s : State) (p : Port), let b := s.blk; let v := b.port p
    (∀ (r : PortReq) (t : Nat), let h := v.holderOf r
      b.linksRun = true → v.link = .up → b.running = true →
      b.NoInjection → v.slotRequest v.slot = some r → v.freeTag = some t → v.reqCred ≠ 0 → v.tagsOf h < v.tagLimit h →
      ∃ c : Blk, exec (.issueSlot p) s = .next { s with blk := c } ∧ PMap.find t (c.port p).tags = some { r with holder := h }
        ∧ (∀ u, u ≠ t → PMap.find u (c.port p).tags = PMap.find u v.tags)
        ∧ (c.port p).queue = v.queue.erase r ∧ (c.port p).reqCred = v.reqCred - 1 ∧ (c.port p).slot = (v.slot + 1) % 64
        ∧ (c.port p).lnk.txSeq = v.lnk.txSeq + 1
        ∧ (v.wdQueue = [] → r.write = true → v.wdCred ≠ 0 → (c.port p).wdCred = v.wdCred - 1 ∧ (c.port p).wdQueue = [])
        ∧ c = { b with
            mem := { b.mem with ports := c.mem.ports }, dsp := { b.dsp with loadNow := c.dsp.loadNow }
            dbg := { b.dbg with injs := c.dbg.injs }, trc := { b.trc with tally := c.trc.tally } }
        ∧ ∀ j : Nat, j ≠ p.val → c.port j = b.port j)
    ∧ (b.linksRun = true → v.link = .up → b.NoInjection →
      (b.running = false ∨ v.slotRequest v.slot = none ∨ v.freeTag = none ∨ v.reqCred = 0
        ∨ ∀ r, v.slotRequest v.slot = some r → v.tagLimit (v.holderOf r) ≤ v.tagsOf (v.holderOf r)) →
      ∃ c : Blk, exec (.issueSlot p) s = .next { s with blk := c } ∧ (c.port p).tags = v.tags ∧ (c.port p).queue = v.queue
        ∧ (c.port p).reqCred = v.reqCred ∧ (c.port p).slot = (v.slot + 1) % 64 ∧ (c.port p).lnk.txSeq = v.lnk.txSeq + 1
        ∧ (v.wdQueue = [] → (c.port p).wdCred = v.wdCred ∧ (c.port p).wdQueue = []
            ∧ (c.port p).tx = [txFlit none none v.lnk.txSeq v.lnk.rxSeq v.lnk.nakDue false])
        ∧ c = { b with
            mem := { b.mem with ports := c.mem.ports }, dsp := { b.dsp with loadNow := c.dsp.loadNow }
            dbg := { b.dbg with injs := c.dbg.injs } }
        ∧ ∀ j : Nat, j ≠ p.val → c.port j = b.port j)
    ∧ (b.linksRun = true → v.link = .training → v.training < 32 →
      exec (.issueSlot p) s = .next { s with blk := b.setPort p { v with tx := [txFlit none none 0 0 false true] } })
    ∧ (∀ a : Acc, b.Serves a → s.Steward a → ∃ c : Blk, exec (.memPeakClr a p) s = .next { s with blk := c }
        ∧ b.WroteOnly a (b.setPort p { v with peak := v.tags.length + v.stale.length }) c)

/-- The receiver of a link (10 R279, 13 R333, R334): the next flit in order with a good CRC is delivered and its
number passed; a flit with a bad CRC is counted and answered by NAK. A training flit counts; after 32 of them the
first data flit is taken, and the link is up with its credits once one has been sent too (13 R335). Replays (10 R279,
R280, 13 R334): a NAK, or an old unacknowledged flit, has the flits from its number on sent again on MPn_TX and is counted; a
NAK that leaves no flit unacknowledged only acknowledges; the 16th consecutive replay, or a training that takes too long,
takes the link DOWN with no transaction left. On an internal link a good flit in order is delivered, a bad one is counted,
logged and replayed, and the 16th replay takes the link DOWN and calls for a block reset (16 R409). Stated while CTL_CLK runs and
no injection unit acts. The acknowledgement number and the count of training flits are the model's readings, log 98 and
102. -/
def Obligations.LinkLayer : Prop :=
  (∀ (s : State) (p : Port) (f : BitVec 608), let b := s.blk; let v := b.port p; let l := v.lnk
      b.linksRun = true →
      (v.link = .up → b.NoInjection → rxGood f = true → bit f 555 = false → rxSeqOf f = l.rxSeq → bit f 0 = false →
        bit f 524 = false → bit f 554 = false →
        ∃ c : Blk, exec (.flitReceive (.tether p f)) s = .next { s with blk := c } ∧ (c.port p).lnk.rxSeq = l.rxSeq + 1
          ∧ (c.port p).lnk.discard = false ∧ (c.port p).tags = v.tags ∧ (c.port p).crcErr = v.crcErr
          ∧ (c.port p).reqCred = (if bit f 536 = true ∧ v.reqCred.toNat < v.reqGrant.toNat then v.reqCred + 1 else v.reqCred)
          ∧ (c.port p).wdCred = (if bit f 537 = true ∧ v.wdCred.toNat < v.wdGrant.toNat then v.wdCred + 1 else v.wdCred)
          ∧ (∀ j : Nat, j ≠ p.val → c.port j = b.port j)
          ∧ c = { b with mem := { b.mem with ports := c.mem.ports }, dbg := { b.dbg with injs := c.dbg.injs } })
      ∧ (v.link = .up → b.NoInjection → rxGood f = false → l.discard = false → l.rxBad < 15 →
        ∃ c : Blk, exec (.flitReceive (.tether p f)) s = .next { s with blk := c } ∧ (c.port p).lnk.rxSeq = l.rxSeq
          ∧ (c.port p).lnk.nakDue = true ∧ (c.port p).lnk.discard = true ∧ (c.port p).tags = v.tags
          ∧ (c.port p).crcErr = satInc v.crcErr ∧ (c.port p).replay = satInc v.replay ∧ b.flt.LogOnly c.flt
          ∧ (∀ j : Nat, j ≠ p.val → c.port j = b.port j)
          ∧ c = { b with
              mem := { b.mem with ports := c.mem.ports }, flt := c.flt, trc := { b.trc with tally := c.trc.tally }
              dbg := { b.dbg with injs := c.dbg.injs } })
      ∧ (v.link = .training → v.got0 = false → rxGood f = true → rxSeqOf f = 0 → bit f 555 = true → bit f 0 = false →
        bit f 524 = false → bit f 536 = false → bit f 537 = false → 1 ≤ fld f 10 7 → fld f 10 7 ≤ 64 → 1 ≤ fld f 18 7 → fld f 18 7 ≤ 64 →
        exec (.train p f) s = .next { s with blk := b.setPort p { v with
          training := v.training + 1, reqGrant := BitVec.ofNat 8 (fld f 10 7), wdGrant := BitVec.ofNat 8 (fld f 18 7) } })
      ∧ (v.link = .training → v.got0 = false → 32 ≤ v.training → l.rxSeq = 0 → rxGood f = true → rxSeqOf f = 0 →
        bit f 555 = false → bit f 0 = false → bit f 524 = false → bit f 554 = false →
        ∃ c : Blk, exec (.train p f) s = .next { s with blk := c } ∧ (c.port p).got0 = true ∧ (c.port p).lnk.rxSeq = 1
          ∧ (v.sent0 = true → (c.port p).link = .up ∧ (c.port p).reqCred = v.reqGrant ∧ (c.port p).wdCred = v.wdGrant)
          ∧ (v.sent0 = false → (c.port p).link = .training) ∧ (c.port p).tags = v.tags
          ∧ (∀ j : Nat, j ≠ p.val → c.port j = b.port j) ∧ c = { b with mem := { b.mem with ports := c.mem.ports } }))
  ∧ (∀ (s : State) (p : Port), let b := s.blk; let v := b.port p
      let again := fun (i : Instr) (n : W8) => (v.lnk.ack n).store ≠ [] →
        ∃ c : Blk, exec i s = .next { s with blk := c }
          ∧ ((v.lnk.ack n).replays < 15 → (c.port p).lnk = { v.lnk.ack n with replays := (v.lnk.ack n).replays + 1 }
              ∧ (c.port p).tx = (v.lnk.ack n).store.map (·.2)
              ∧ (c.port p).replay = satInc v.replay ∧ (c.port p).tags = v.tags ∧ (c.port p).queue = v.queue ∧ b.flt.LogOnly c.flt
              ∧ c = { b with
                  mem := { b.mem with ports := c.mem.ports }, flt := c.flt, trc := { b.trc with tally := c.trc.tally }
                  dbg := { b.dbg with injs := c.dbg.injs } }
              ∧ ∀ j : Nat, j ≠ p.val → c.port j = b.port j)
          ∧ (15 ≤ (v.lnk.ack n).replays → (c.port p).link = .down ∧ (c.port p).tags = [])
      b.NoInjection →
      (b.linkUp p = true → (∀ n : W8, again (.nak p n) n ∧ ((v.lnk.ack n).store = [] →
          exec (.nak p n) s = .next { s with blk := b.setPort p { v with lnk := v.lnk.ack n } }))
        ∧ ∀ (f : W8 × BitVec 736) (r : List (W8 × BitVec 736)), v.lnk.store = f :: r → again (.replayTimeout p) f.1)
      ∧ (b.linksRun = true → v.link = .training → ∃ c : Blk, exec (.trainingTimeout p) s = .next { s with blk := c }
          ∧ (c.port p).link = .down ∧ (c.port p).tags = []))
  ∧ (∀ (s : State) (i : BitVec 12) (u : Nat) (good : Bool) (seq : W8), let b := s.blk; let n := i.toNat; let l := b.intLink n
      let only := fun c : Blk => c = { b with
          flt := c.flt, dbg := { b.dbg with injs := c.dbg.injs }, freeCtr := c.freeCtr, trc := { b.trc with tally := c.trc.tally } }
        ∧ ∀ m, m ≠ n → c.intLink m = b.intLink m
      b.linksRun = true → b.NoInjection → linkUnit n = some u → n ∉ b.flt.linksDown →
      (good = true → seq = l.rxSeq → ∃ c : Blk, exec (.flitReceive (.internal i good seq)) s = .next { s with blk := c } ∧ only c
        ∧ c.intLink n = { l with rxSeq := l.rxSeq + 1, discard := false, replays := 0, redo := l.redo - 1 }
        ∧ c.flt = { b.flt with links := c.flt.links } ∧ c.trc = b.trc)
      ∧ (good = false → l.discard = false → ∃ c : Blk, exec (.flitReceive (.internal i good seq)) s = .next { s with blk := c }
        ∧ only c ∧ c.intLink n = { l with discard := true, replays := l.replays + 1, redo := l.redo + 1 }
        ∧ c.flt.linkCrc = satInc b.flt.linkCrc ∧ c.flt.linkReplay = satInc b.flt.linkReplay
        ∧ (l.replays < 15 → ({ b.flt with
            links := c.flt.links, linkCrc := c.flt.linkCrc, linkReplay := c.flt.linkReplay } : Faults).LogOnly c.flt)
        ∧ (15 ≤ l.replays → n ∈ c.flt.linksDown
            ∧ ∃ r ∈ c.flt.called ++ c.flt.deferred ++ c.flt.active, r.step = 3 ∧ r.target = 0)))

/-! ### Intake ports (11) -/

/-- The first beat of an item at a port without a binding is counted and the item discarded (11 R287); at a bound port
the beat is staged (R284, R285), behind an item that still waits as its own item (13 R338). Beats of a raw body bound
for local memory are written there a whole 64-byte line at a time, in every destination engine, behind what has been
written (03 R93, R292). A damage entry of the open item is kept while there is room, and counted (R286); one with no
item open is ignored (13 R339). Once its destination is free, a waiting item that has grown stale is dropped and
counted, and another gets its number and is written (11 R290, R292, R296). When a delivered item's writes have landed,
its knot is tied with ADD 1, IK_SEQ rises by 1 and IK_LAST_AGE is its age; a write refused gives IK_TETHER and no tie
(R298, R300). A body written a whole line as it fills, log 104, the number of an item, log 106, and how many cycles an
engine's accesses freeze it, log 124, are the model's. -/
def Obligations.IntakeItems : Prop :=
  (∀ (s : State) (p : IkPort), let b := s.blk; let v := b.intake p
      let only := fun c : Blk => c = { b with ik := c.ik, trc := { b.trc with tally := c.trc.tally } }
        ∧ ∀ j : Nat, j ≠ p.val → c.intake j = b.intake j
      (∀ (d : BitVec 256) (last : Bool) (ts : W64), b.ikReady p = true → v.items = [] → b.binding p = none →
        ∃ c : Blk, exec (.intakeBeat p d last ts) s = .next { s with blk := c } ∧ (c.intake p).dropUnb = satInc v.dropUnb
          ∧ (c.intake p).items.map (·.phase) = (if last then [] else [.discard]) ∧ only c)
      ∧ (∀ (d : BitVec 256) (ts : W64) (r : WvIntake), b.ikReady p = true → b.binding p = some r →
        (v.items = [] ∨ ∃ i : Item, v.items = [i] ∧ i.last = true ∧ i.phase = .waiting ∧ b.destBusy p r = true) →
        ∃ c : Blk, exec (.intakeBeat p d false ts) s = .next { s with blk := c }
          ∧ (c.intake p) = { v with items := v.items ++ [{
              capture := ts, seq := v.seq, dmgMax := v.dmgMax.toNat, slotsLog2 := v.slotsLog2.toNat, got := 32
              buffered := toBytes 32 d.toNat }] } ∧ only c)
      ∧ (∀ (d : BitVec 256) (ts : W64) (r : WvIntake) (i : Item), b.ikReady p = true → v.items = [i] → b.binding p = some r →
        b.destBusy p r = false → i.phase = .body → i.packed = false → r.kind1 = false → i.last = false →
        i.overclaim = false → staleNow s.env r i = false →
        (i.buffered = [] → i.written < i.extent →
          ∃ c : Blk, exec (.intakeBeat p d false ts) s = .next { s with blk := c } ∧ only c
            ∧ (c.intake p) = { v with items := [{ i with got := i.got + 32, buffered := toBytes 32 d.toNat, held := false }] })
        ∧ (i.buffered.length = 32 → i.written + 64 ≤ i.extent → let a := slotBase r i + 64 + i.dmgArea + i.written
          ∃ c : Blk, exec (.intakeBeat p d false ts) s = .next { s with blk := c }
            ∧ (c.intake p) = { v with items := [{ i with
                got := i.got + 32, buffered := [], written := i.written + 64, wrote := some s.env.now, held := false }] }
            ∧ (∀ e ∈ b.wv.cur.intakeEngines r,
                (∀ k, k < 64 → Mem.read (c.engine e).lm (a + k) = (i.buffered ++ toBytes 32 d.toNat).getD k 0)
                ∧ ∀ x, (x < a ∨ a + 64 ≤ x) → Mem.read (c.engine e).lm x = Mem.read (b.engine e).lm x)
            ∧ (∀ e, e ∉ b.wv.cur.intakeEngines r → c.engine e = b.engine e)
            ∧ (∀ j : Nat, j ≠ p.val → c.intake j = b.intake j)
            ∧ c = { b with
                ik := c.ik, eng := c.eng, freeCtr := c.freeCtr, dsp := { b.dsp with loadNow := c.dsp.loadNow }
                trc := { b.trc with tally := c.trc.tally } }))
      ∧ (∀ (w : W32) (i : Item) (front : List Item), b.up = true → v.items = front ++ [i] → i.last = false →
        ∃ c : Blk, exec (.damageEntry p w) s = .next { s with blk := c } ∧ only c
          ∧ c.intake p = { v with items := front ++ [{ i with
              dmgCount := i.dmgCount + 1, dmg := if i.dmg.length < i.dmgMax then i.dmg ++ [w] else i.dmg }] })
      ∧ (∀ w : W32, v.opened = none → exec (.damageEntry p w) s = .next s))
  ∧ (∀ (s : State) (p : IkPort), let b := s.blk; let v := b.intake p
      (∀ (r : WvIntake) (i : Item), b.running = true → v.items = [i] → b.binding p = some r → i.phase = .waiting →
        v.stopped = false → b.destBusy p r = false → i.last = false → i.buffered = [] → i.overclaim = false → i.packed = false →
        ∃ c : Blk, exec (.destinationFree p) s = .next { s with blk := c }
          ∧ (staleNow s.env r i = true → (c.intake p).dropStale = satInc v.dropStale
              ∧ (c.intake p).items.map (·.phase) = [.discard])
          ∧ (staleNow s.env r i = false → c.intake p = { v with items := [{ i with phase := .body, num := v.seq, held := false }] })
          ∧ (∀ j : Nat, j ≠ p.val → c.intake j = b.intake j)
          ∧ c = { b with ik := c.ik, trc := { b.trc with tally := c.trc.tally } })
      ∧ (∀ l : Landing, b.up = true → v.items = [] → v.landing.find? (fun l => !l.dropped) = some l → l.outst = [] →
        l.record = none →
        ∃ c : Blk, exec (.itemWritesLanded p 0) s = .next { s with blk := c }
          ∧ (∀ j : Nat, j ≠ p.val → c.intake j = b.intake j) ∧ c = { b with ik := c.ik, kn := c.kn }
          ∧ (l.err = false → c.intake p = { v with
                landing := v.landing.erase l, seq := v.seq + 1, conceal := if l.concealed then satInc v.conceal else v.conceal
                lastAge := BitVec.ofNat 32 (min 0xFFFFFFFF (s.env.now.toNat - l.capture.toNat)) }
              ∧ c.kn = { b.kn with tieQ := b.kn.tieQ ++ [{
                  knot := l.knot, op := .add, val := 1, flags := 0, epoch := b.wv.epoch, src := .intake p
                  concealed := l.concealed && !l.engines.isEmpty }] })
          ∧ (l.err = true → c.intake p = ({ v with landing := v.landing.erase l } : Intake).noteErr 4 0 l.seq ∧ c.kn = b.kn)))

/-! ### Power (13, 15) -/

/-- A keep cycle samples the budget, held to 4 to 40 W, and adopts it when two samples agree (13 R348); ACT_EST is the
average of its control cycles' estimates, held to 1,023 (R349, 15 R389; the estimate of now where the cycle had none,
log 85). After 1,000 keep cycles, and not before, a window boundary brings the adopted budget into force; levels are
down to what it allows or to their targets (15 R394; the last of them at the boundary, log 135), and UNDER says whether
it lies below the floor (R391). -/
def Obligations.BudgetFollows : Prop :=
  ∀ (s : State), let b := s.blk
    b.start.poresetLow = false →
    (∀ w : W8, let v := max 4 (min 40 w.toNat)
      ∃ c : Blk, exec (.keepCycle w) s = .next { s with blk := c } ∧ c.pwr.sample = v
        ∧ c.pwr.adopted = (if v = b.pwr.sample then v else b.pwr.adopted) ∧ c.pwr.budget = b.pwr.budget
        ∧ (let mean := if b.pwr.estCnt = 0 then b.estimate else b.pwr.estSum / b.pwr.estCnt
          c.pwr.actEst = BitVec.ofNat 10 (min 1023 (mean / 4000)))
        ∧ c.pwr.estCnt = 0 ∧ c.pwr.estSum = 0 ∧ c.pwr.window = b.pwr.window + 1
        ∧ (∀ j : Nat, (c.engine j).level = (b.engine j).level)
        ∧ c = { b with pwr := c.pwr, eng := c.eng, flt := c.flt } ∧ b.flt.LogOnly c.flt)
    ∧ (b.pwr.window < 1000 → exec .capWindowBoundary s = .next s)
    ∧ (1000 ≤ b.pwr.window → ∃ c : Blk, exec .capWindowBoundary s = .next { s with blk := c } ∧ c.pwr.budget = b.pwr.adopted
        ∧ c.pwr.window = b.pwr.window - 1000
        ∧ c.pwr.under = decide (64000 * b.pwr.adopted < 220000 + 36000 * (tautEngines b.wv.cur).length)
        ∧ (∀ j : Nat, (c.engine j).level ≤ (b.engine j).level)
        ∧ (b.pwr.asleep = false → (∀ j : Nat, j < 64 → (b.engine j).level ≤ 16) →
            c.worstUnits ≤ max (64000 * b.pwr.adopted) c.floorUnits
              ∨ ∀ j : Nat, j < 64 → (c.engine j).level ≤ (c.engine j).target)
        ∧ c = { b with pwr := c.pwr, eng := c.eng, flt := c.flt } ∧ b.flt.LogOnly c.flt)

/-- The governor moves levels one step at a time towards their targets: in one control cycle at most one engine rises,
none but at full rate and within the cap, and at most one falls (15 R391, R393, R398). That one LEVEL_STEP moves one
level up and one down, and that levels fall in a stretch, are the model's readings, log 111 and 83. -/
def Obligations.LevelsMoveByOne : Prop :=
  ∀ (s : State), let b := s.blk
    b.up = true → ∃ c : Blk, exec .levelStep s = .next { s with blk := c }
      ∧ (∀ j : Nat, (c.engine j).level = (b.engine j).level
          ∨ ((c.engine j).level = (b.engine j).level + 1 ∧ (b.engine j).level < (c.engine j).target ∧ b.pwr.clock = .full)
          ∨ ((c.engine j).level + 1 = (b.engine j).level ∧ (c.engine j).target < (b.engine j).level))
      ∧ (∀ j k : Nat, (b.engine j).level < (c.engine j).level → (b.engine k).level < (c.engine k).level → j = k)
      ∧ (∀ j k : Nat, (c.engine j).level < (b.engine j).level → (c.engine k).level < (b.engine k).level → j = k)
      ∧ (∀ j : Nat, (b.engine j).level < (c.engine j).level → b.worstUnits + 2250 ≤ max (64000 * b.pwr.budget) b.floorUnits)
      ∧ c = { b with eng := c.eng, pwr := { b.pwr with
          up := c.pwr.up, down := c.pwr.down, estCnt := c.pwr.estCnt, estSum := c.pwr.estSum } }

/-- SLEEP stops every engine and lowers both clock requests (15 R395); a wake cause raises each request whose
acknowledgement is low (15 R396, 13 R340); with both acknowledged the block is awake and PWR_WAKE_NS holds the time it
took. An acknowledgement that nothing waits for only shows its new level. -/
def Obligations.SleepAndWake : Prop :=
  ∀ (s : State), let b := s.blk; let p := b.pwr
    (b.sleepOk = true → p.sleepDelay.toNat ≤ p.idleKeep →
      ∃ c : Blk, exec .sleepEntry s = .next { s with blk := c } ∧ (∀ j : Nat, (c.engine j).level = 0)
        ∧ (∀ j : Nat, c.engine j = { b.engine j with level := 0 })
        ∧ c = { b with eng := c.eng, pwr := { p with
            asleep := true, ariReq := false, ctlReq := false, sleepCount := satInc p.sleepCount, idleKeep := 0 } })
    ∧ (∀ k : WakeCause, b.start.poresetLow = false → b.start.sysLow = false → p.asleep = true → p.wakeFrom = none →
      exec (.wake k) s = .next { s with blk := { b with pwr := { p with
        wakeFrom := some s.env.now, ariReq := p.ariReq || !p.ariAck, ctlReq := p.ctlReq || !p.ctlAck } } })
    ∧ (∀ (t : W64) (ctl : Bool), b.start.poresetLow = false → p.asleep = true → p.wakeFrom = some t → p.ariReq = true → p.ctlReq = true →
      (if ctl then p.ariAck else p.ctlAck) = true →
      ∃ c : Blk, exec (.clockAcknowledge ctl true) s = .next { s with blk := c } ∧ c.pwr.asleep = false ∧ c.pwr.wakeFrom = none
        ∧ c.pwr.wakeNs = BitVec.ofNat 32 (s.env.now - t).toNat ∧ c.pwr.ariAck = true ∧ c.pwr.ctlAck = true
        ∧ c = { b with pwr := c.pwr, start := c.start, dbg := c.dbg, ik := c.ik, eng := c.eng, qs := c.qs, stand := c.stand, flt := c.flt, freeCtr := c.freeCtr
                       patch := c.patch, wv := { b.wv with st := c.wv.st, next := c.wv.next, action := c.wv.action, changing := c.wv.changing }
                       trc := { b.trc with caddy := c.trc.caddy } })
    ∧ (∀ level : Bool, p.wakeFrom = none → b.start.began = false →
        (p.ctlReq = level → exec (.clockAcknowledge true level) s = .next { s with blk := { b with pwr := { p with ctlAck := level } } })
        ∧ (p.ariReq = level → exec (.clockAcknowledge false level) s = .next { s with blk := { b with pwr := { p with ariAck := level } } }))

/-- DROOP_WARN begins a stretch at half rate, counted once (15 R398, R400); its end begins the ramp-back, which passes
one more of 32 edges a step and ends at full rate (R399). That PWR_DROOP_NS holds the low 32 bits of the time, log 85, is
the model's. -/
def Obligations.DroopStretches : Prop :=
  ∀ (s : State), let b := s.blk; let p := b.pwr
    b.start.poresetLow = false → b.start.sysLow = false →
    (p.asleep = false → p.clock = .full →
      ∃ c : Blk, exec .droopWarn s = .next { s with blk := c } ∧ c.pwr = { p with
          droopPin := true, clock := .stretch, divider := 16, droopCount := satInc p.droopCount, evDroop := true
          droopTime := s.env.now }
        ∧ c = { b with pwr := c.pwr, qs := c.qs, stand := c.stand }
        ∧ ∀ t ∈ c.stand, t.waiting.isSome ∨ t.running.isSome → t.stretched = true)
    ∧ (p.clock = .stretch →
      exec .rampBackStart s = .next { s with blk := { b with pwr := { p with droopPin := false, clock := .rampBack } } })
    ∧ (p.clock = .rampBack → p.asleep = false → p.divider < 31 →
      exec .rampBackStep s = .next { s with blk := { b with pwr := { p with divider := p.divider + 1 } } })
    ∧ (p.clock = .rampBack → p.asleep = false → 31 ≤ p.divider →
      ∃ c : Blk, exec .rampBackStep s = .next { s with blk := c } ∧ c.pwr = { p with
        clock := .full, divider := 32, droopNs := BitVec.ofNat 32 (s.env.now - p.droopTime).toNat } ∧ c = { b with pwr := c.pwr, qs := c.qs, stand := c.stand, flt := c.flt } ∧ b.flt.LogOnly c.flt)

/-! ### Resets and starts (13, 18) -/

/-- PORESET_N leaves the reset state, but for levels that other agents hold and the queue of commands (13 R340, 18
R452). Its release samples the straps and begins a cold start (18 R453), which waits while SYS_RESET_N is low (13 R344).
The steps of a start (18 R453 to R455, R461):
the array tests end in training links or a failed start; the warden core runs; with every step before it done, the
last sets DONE and the start's time, counted in REF edges of 20 ns. The block with PORESET_N low as the reset state is the model's choice, log 5. -/
def Obligations.StartsRun : Prop :=
  (∀ (s : State), let b := s.blk
      (exec .poresetN s = .next { State.reset with
        pending := s.pending
        blk := { State.reset.blk with
          freeCtr := b.freeCtr, ctlCycle := b.ctlCycle, start := { State.reset.blk.start with sysLow := b.start.sysLow }
          pwr := { State.reset.blk.pwr with ariAck := b.pwr.ariAck, ctlAck := b.pwr.ctlAck }
          dbg := { State.reset.blk.dbg with trstLow := b.dbg.trstLow } } })
      ∧ ∀ (n : Seat) (k : BitVec 256), b.start.poresetLow = true → b.start.sysLow = false →
        ∃ u : State, exec (.coldStart n k) s = .next u ∧ u.env = { strap := { steward := n.val, keyHash := k } } ∧ u.pending = s.pending
          ∧ u.blk.start = { b.start with poresetLow := false, kind := 1, began := true, edges := 0, hrpUp := u.blk.start.hrpUp }
          ∧ u.blk.pwr.ariReq = (b.pwr.ariReq || !b.pwr.ariAck) ∧ u.blk.pwr.ctlReq = (b.pwr.ctlReq || !b.pwr.ctlAck)
          ∧ u.blk = { b with start := u.blk.start, pwr := { b.pwr with ariReq := u.blk.pwr.ariReq, ctlReq := u.blk.pwr.ctlReq } })
  ∧ (∀ (s : State) (n : Seat) (k : BitVec 256), let b := s.blk
      b.start.poresetLow = true → b.start.sysLow = true →
      exec (.coldStart n k) s = .next { s with
        env := { strap := { steward := n.val, keyHash := k } }
        blk := { b with start := { b.start with poresetLow := false, waits := true } } })
  ∧ (∀ (s : State), let b := s.blk; let t := b.start
      (t.began = true → t.kind = 1 → t.hrpUp = true → t.arrays = false → t.failed = false →
        (∀ k : BitVec 4, exec (.selfTestComplete (some k)) s = .next { s with blk := { b with start := {
          t with failed := true, failCode := BitVec.ofNat 8 k.toNat, failStep := 4 } } })
        ∧ ∃ c : Blk, exec (.selfTestComplete none) s = .next { s with blk := c } ∧ c.start = { t with arrays := true }
          ∧ c.patch = { b.patch with ready := true } ∧ (∀ p : Nat, p < 4 → c.port p = { link := .training })
          ∧ c = { b with start := c.start, patch := c.patch, mem := { b.mem with ports := c.mem.ports } })
      ∧ (t.began = true → t.hrpUp = true → t.failed = false → b.flt.warden = .booting →
        ∃ c : Blk, exec .wardenBooted s = .next { s with blk := c } ∧ c.flt.warden = .running ∧ c.start = { t with warden := true }
          ∧ c = { b with start := c.start, flt := c.flt } ∧ ({ b.flt with warden := .running } : Faults).LogOnly c.flt)
      ∧ (b.stepsDone = true → ∃ c : Blk, exec .startDone s = .next { s with blk := c } ∧ c.start.done = true
          ∧ c.start.us = BitVec.ofNat 32 (t.edges * 20 / 1000) ∧ c.patch = { b.patch with ready := false }
          ∧ (∀ i, i < 4 → (c.seq i).st ≠ .loading)
          ∧ ({ b with start := c.start, patch := c.patch, sq := c.sq, eng := c.eng, flt := { b.flt with active := c.flt.active } } : Blk).Belaid c))

/-- SYS_RESET_N on a started block makes every queue FREE and empties the scoreboard, and keeps the weave, its epoch,
the knot table and the logs (18 R456, R457); no block sleeps after it (13 R343). Its release begins a warm start (18
R454), or, while a cold start has not ended, that start again with fabric time from 0 and the same straps (13 R344, 18
R453), or the cold start that waited for it, fabric time going on (13 R345). That what a warm reset clears is cleared at the assertion is the model's reading, log 78; which power registers
it keeps, log 80. -/
def Obligations.WarmReset : Prop :=
  ∀ (s : State), let b := s.blk
    b.start.poresetLow = false → b.start.failed = false →
    (b.start.done = true → b.start.sysLow = false → ∃ c : Blk, exec .sysResetN s = .next { s with blk := c } ∧ c.start.sysLow = true ∧ c.start.done = false
      ∧ c.start.kind = 2 ∧ (∀ q, (c.que q).st = .free) ∧ c.sb = [] ∧ c.stand = [] ∧ c.kn.waiters = [] ∧ c.kn.tab = b.kn.tab
      ∧ c.wv.cur = b.wv.cur ∧ c.wv.epoch = b.wv.epoch ∧ c.flt.log = b.flt.log ∧ c.flt.warden = .booting ∧ c.pwr.asleep = false
      ∧ (∀ e : Nat, (c.engine e).job = none ∧ (c.engine e).deque = [] ∧ (c.engine e).save = none ∧ (c.engine e).progress = (b.engine e).progress
          ∧ ∀ x, x < retained b.wv.cur e → e ∉ b.wv.clearing → Mem.read (c.engine e).lm x = Mem.read (b.engine e).lm x))
    ∧ (b.start.waits = false → b.start.kind ≠ 1 ∨ b.start.done = true → b.start.sysLow = true → ∃ c : Blk, exec .warmStart s = .next { s with blk := c } ∧ c.start.sysLow = false ∧ c.start.kind = 2
      ∧ c.start.began = true ∧ c.start.edges = 0 ∧ c.start.warmCount = satInc b.start.warmCount ∧ c = { b with start := c.start, patch := c.patch, pwr := c.pwr, flt := c.flt })
    ∧ (b.start.waits = true → b.start.sysLow = true → ∃ c : Blk, exec .warmStart s = .next { s with blk := c }
      ∧ c.start = { b.start with waits := false, sysLow := false, kind := 1, began := true, edges := 0, hrpUp := c.start.hrpUp }
      ∧ c.pwr.ariReq = (b.pwr.ariReq || !b.pwr.ariAck) ∧ c.pwr.ctlReq = (b.pwr.ctlReq || !b.pwr.ctlAck)
      ∧ c = { b with start := c.start, pwr := { b.pwr with ariReq := c.pwr.ariReq, ctlReq := c.pwr.ctlReq } })
    ∧ (b.start.waits = false → b.start.kind = 1 → b.start.done = false → b.start.sysLow = true → ∃ u : State, exec .warmStart s = .next u
      ∧ u.env = { strap := s.env.strap } ∧ u.pending = s.pending ∧ u.blk.start.kind = 1 ∧ u.blk.start.began = true
      ∧ u.blk.start.sysLow = false ∧ u.blk.start.poresetLow = false
      ∧ u.blk = { State.reset.blk with
          freeCtr := b.freeCtr, ctlCycle := b.ctlCycle, start := u.blk.start
          pwr := { State.reset.blk.pwr with
            ariAck := b.pwr.ariAck, ctlAck := b.pwr.ctlAck, ariReq := u.blk.pwr.ariReq, ctlReq := u.blk.pwr.ctlReq }
          dbg := { State.reset.blk.dbg with trstLow := b.dbg.trstLow } })

/-! ### Patches (14) -/

/-- A patch arrives in beats (14 R374, R375, 13 R353): beats before the header and after it are kept and counted, one
last beat of 0 is a null patch, and a header without the magic number fails with code 1. The digest is taken over
every byte; a wrong length fails with code 4, and a warm start that finds the digest it keeps asks for the key (R376,
R380). Checks after the digest (14 R375 to R379): the key words, the signature under the fused key hash, the tag, the
records. The first that fails gives its code and leaves nothing in force; a patch that passes them all is applied once
the ROM is loaded, and its digest is kept. -/
def Obligations.PatchLoads : Prop :=
  (∀ (s : State), let b := s.blk; let p := b.patch
      let leaves := fun (i : Instr) (q : Patch) => exec i s = .next { s with blk := { b with patch := q } }
      (p.ready = true → p.st = .waiting → p.cut = false → leaves (.patchBeat 0 true) { p with
        st := .none, len := 8, ready := false, keepValid := false })
      ∧ (∀ d : W64, p.ready = true → p.st = .waiting ∨ p.st = .receiving → p.cut = false → p.len + 8 ≠ 64 → p.len + 8 ≠ 65536 →
          leaves (.patchBeat d false) { p with st := .receiving, len := p.len + 8, bytes := p.bytes ++ toBytes 8 d.toNat })
      ∧ (∀ d : W64, p.ready = true → p.st = .receiving → p.cut = false → p.len + 8 ≠ 64 →
          leaves (.patchBeat d true) { p with
            st := .verifying, len := p.len + 8, bytes := p.bytes ++ toBytes 8 d.toNat, ready := decide (p.len + 8 ≠ 65536) })
      ∧ (∀ (d : W64) (last : Bool), p.ready = true → p.st = .receiving → p.cut = false → p.len = 56 → p.bytes.length = 56 →
          p.at32 0 ≠ 0x4B535150 → ∃ q, leaves (.patchBeat d last) q ∧ q.st = .failed ∧ q.code = 1 ∧ q.ready = false ∧ q.strands = 0)
      ∧ (p.st = .verifying → p.hashed = false → ∃ q, leaves .patchDigestDone q ∧ q.digest = digestReg (sha256 p.bytes)
          ∧ (p.cut = false → 64 ≤ p.len → p.at32 8 = p.len →
              if b.start.kind = 2 ∧ p.keepValid = true ∧ q.digest = p.keepDigest then
                q = { p with hashed := true, digest := q.digest, warmMatch := true, st := .decrypting, keyReq := true }
              else q = { p with hashed := true, digest := q.digest })
          ∧ (p.at32 8 ≠ p.len → q.st = .failed ∧ q.code = 4)))
  ∧ (∀ (s : State), let b := s.blk; let p := b.patch
      let leaves := fun (i : Instr) (q : Patch) => exec i s = .next { s with blk := { b with patch := q } }
      let fails := fun (i : Instr) (code : W8) => ∃ q, leaves i q ∧ q.st = .failed ∧ q.code = code ∧ q.key = [] ∧ q.plain = []
        ∧ q.patStrand = [] ∧ q.patYarn = [] ∧ q.keepValid = false
      (p.st = .verifying → p.hashed = true →
        if p.keyBad s.env.strap.keyHash then fails .signatureVerified 5
        else if p.signed then leaves .signatureVerified { p with st := .decrypting, keyReq := true }
        else fails .signatureVerified 6)
      ∧ (∀ d : W32, p.keyReq = true → leaves (.keyBeat d) { p with key := p.key ++ [d], keyReq := decide (p.key.length + 1 < 8) })
      ∧ (p.st = .decrypting → p.keyReq = false → p.key.length = 8 →
        let y := gcmOpen (p.key.flatMap fun w => toBytes 4 w.toNat) (p.cut' 0x10 12) (p.cut' 0 0x80) (p.cut' 0x80 p.ctLen) (p.cut' (0x80 + p.ctLen) 16)
        if y.2 then
          (if (readRecords 8192 y.1 ([], [])).isSome then leaves .decryptDone { p with key := [], plain := y.1, checked := true }
           else fails .decryptDone 8)
        else fails .decryptDone 7)
      ∧ (b.start.arrays = true → b.start.began = true → b.start.failed = false → b.start.done = false →
          leaves .romLoadDone { p with romDone := true })
      ∧ (∀ w, p.st = .decrypting → p.checked = true → p.romDone = true → p.records = some w → leaves .patchApplied { p with
          patStrand := w.1, patYarn := w.2, strands := w.1.length, yarns := w.2.length, plain := [], bytes := [], checked := false
          st := .loaded, ready := false, keepDigest := p.digest, keepValid := true }))

/-! ### Hangs, rungs and errors (16) -/

/-- A hang that is due on a running tile of a launch without a twin stops the tile and ends its launch with ENG_HANG
(16 R410, R412); the context step ends with the engine free of the tile (R412); after either what becomes eligible
starts (07 R227). A rung that is called for waits for the steward or, with its AUTO bit, is ordered (R417); one that
does not finish in time calls for the next. -/
def Obligations.HangsAndRungs : Prop :=
  ∀ (s : State) (e : EngineId), let b := s.blk; let v := b.engine e
    (∀ (j : Job) (y : SbEntry) (l : Launch), b.running = true → b.hangDue s.env e = true → v.st = .running → v.job = some j →
      j.run = false → b.entry j.q j.n = some y → y.prog = .launch l → l.twin = none → y.ending = none →
      ∃ c : Blk, exec (.hangDeclared e) s = .next { s with blk := c.pump s.env } ∧ (c.engine e).hungOnce = some s.env.now
        ∧ (c.engine e).last = s.env.now ∧ (c.engine e).stop = some .ended ∧ (c.engine e).job = some j
        ∧ (∀ z, c.entry j.q j.n = some z → z.ending.map (·.code) = some Code.engHang)
        ∧ ({ b with flt := c.flt } : Blk).EngineWork c)
    ∧ (∀ j : Job, b.running = true → v.stop = some .ended ∨ v.stop = some .retire → v.channelsIdle = true → v.job = some j →
      v.yieldTo = none → ∃ c : Blk, exec (.contextStepDone e) s = .next { s with blk := c.pump s.env } ∧ (c.engine e).job = none
        ∧ (c.engine e).stop = none ∧ ({ b with flt := c.flt } : Blk).EngineWork c ∧ b.flt.LogOnly c.flt)
    ∧ (∀ (r : Rung) (cause : W8), let q := rungReq r cause
      b.up = true → b.flt.warden = .running → cause ≠ 8 → (∃ u ∈ b.flt.called, q.same u = true) → rungTarget b.wv.cur q = true →
      b.flt.pcycReq = false → (b.flt.active ++ b.flt.deferred ++ b.flt.pending).all (fun a => !q.same a && !a.covers b.wv.cur q) = true →
      ∃ c : Blk, exec (.rungOrder r cause) s = .next { s with blk := c } ∧ c = { b with flt := c.flt } ∧ (∀ u ∈ c.flt.called, q.same u = false)
        ∧ (if b.flt.auto.getLsbD (q.step - 1) then q ∈ c.flt.deferred ∧ c.flt.pending.all (fun p => !q.covers b.wv.cur p) = true
           else c.flt.pending = (b.flt.pending.filter fun p => !q.covers b.wv.cur p) ++ [q] ∧ c.flt.irqWait = true ∧ c.flt.deferred = b.flt.deferred))
    ∧ (∀ k : W8, b.flt.called = [] → b.flt.deferred = [] →
      let calls := fun (r : Rung) (next : RungReq) => b.flt.active = [rungReq r k] →
        exec (.rungTimeout r) s = .next { s with blk := { b with flt := { b.flt with called := [next] } } }
      (∀ w : WvPart, b.wv.cur.partOf e = some w → calls (.engine e) { step := 2, target := w.num, cause := 9 })
      ∧ (∀ p : Fin 16, calls (.partition p) { step := 3, target := 0, cause := 0x0A })
      ∧ calls .block { step := 4, target := 0, cause := 0x0B })

/-- A write of FLT_RECOVER goes to the warden core (12 R318). A rung that it has ordered is carried out (16 R418 to
R421): an engine reset and a partition reset leave their engines RESETTING without a tile, a block reset acts as
SYS_RESET_N, the power cycle raises PCYC_REQ; what becomes eligible starts (07 R227). A partial write orders none (12
R304). That an order is taken only for a rung called for is the model's reading, log 71. -/
def Obligations.RungsCarriedOut : Prop :=
  ∀ (s : State), let b := s.blk
    let sent := fun (i : Instr) (r : Rung) (a : Acc) => b.Serves a → s.Steward a →
      ∃ c : Blk, exec i s = .next { s with blk := c } ∧ c.host.resp = [] ∧ c = { b with host := c.host }
        ∧ c.host.warden = b.host.warden ++ [{ acc := a, addr := 0x7008, wdata := some (recoverWord (rungReq r 0)) }]
        ∧ ∀ t : Nat, t ≠ a.seat.val → c.seat t = b.seat t
    let lost := fun (i : Instr) (a : Acc) => b.hrpReady a.seat.val = true → (b.seat a.seat.val).unfin = none → b.start.done = true →
      s.Steward a → a.be ≠ 15 → ∃ c : Blk, exec i s = .next { s with blk := c } ∧ b.Wrote a c ∧ c = { b with host := c.host }
        ∧ c.host.warden = b.host.warden
    (∀ (a : Acc) (e : EngineId) (p : Fin 16), lost (.engineReset (.host a) e) a ∧ lost (.partitionReset (.host a) p) a
      ∧ lost (.blockReset (.host a)) a ∧ lost (.powerCycle (.host a)) a)
    ∧ (∀ (a : Acc) (e : EngineId) (p : Fin 16), sent (.engineReset (.host a) e) (.engine e) a
      ∧ sent (.partitionReset (.host a) p) (.partition p) a ∧ sent (.blockReset (.host a)) .block a
      ∧ sent (.powerCycle (.host a)) .power a)
    ∧ (∀ (e : EngineId) (k : W8), b.running = true → b.orderedRung (rungReq (.engine e) k) = some (rungReq (.engine e) k) →
      ∃ c : Blk, exec (.engineReset (.warden k) e) s = .next { s with blk := c.pump s.env } ∧ (c.engine e).st = .resetting ∧ (c.engine e).job = none
        ∧ rungReq (.engine e) k ∈ c.flt.active ∧ ({ b with flt := c.flt, mem := { b.mem with agents := c.mem.agents, misses := c.mem.misses, cohFwd := c.mem.cohFwd } } : Blk).EngineWork c)
    ∧ (∀ (p : Fin 16) (k : W8) (w : WvPart), b.running = true → b.wv.st ≠ .checking → b.wv.st ≠ .waiting → b.wv.st ≠ .pouring →
      b.wv.cur.part p = some w →
      b.orderedRung (rungReq (.partition p) k) = some (rungReq (.partition p) k) →
      ∃ c : Blk, exec (.partitionReset (.warden k) p) s = .next { s with blk := c.pump s.env } ∧ (∀ e ∈ engsOf w.mask, (c.engine e).st = .resetting)
        ∧ rungReq (.partition p) k ∈ c.flt.active ∧ ({ b with flt := c.flt, mem := { b.mem with agents := c.mem.agents, misses := c.mem.misses, cohFwd := c.mem.cohFwd } } : Blk).EngineWork c)
    ∧ (∀ k : W8, b.running = true → b.start.failed = false → b.start.poresetLow = false → b.start.sysLow = false →
      b.orderedRung (rungReq .block k) = some (rungReq .block k) →
      ∃ c : Blk, exec (.blockReset (.warden k)) s = .next { s with blk := c } ∧ c.start.sysLow = true ∧ c.start.kind = 2 ∧ c.start.cause = k
        ∧ (∀ q, (c.que q).st = .free) ∧ c.sb = [] ∧ c.wv.cur = b.wv.cur)
    ∧ (∀ k : W8, b.running = true → b.orderedRung (rungReq .power k) = some (rungReq .power k) →
      ∃ c : Blk, exec (.powerCycle (.warden k)) s = .next { s with blk := c.pump s.env } ∧ c.flt.pcycReq = true
        ∧ ({ b with flt := c.flt, mem := { b.mem with agents := c.mem.agents, misses := c.mem.misses, cohFwd := c.mem.cohFwd } } : Blk).EngineWork c)

/-- RESETTING ends with the engine at rest (16 R418), and what becomes eligible starts (07 R227). Without PCYC_ACK in
time FLT_IRQ.PCYC_NOACK is set (13 R350, R425). Errors in the arrays are counted by code (R407), and an uncorrectable one
acts as R408 says, here in local memory and in the warden core's own memory. A refused write-back is logged (R408); the
warden core stops (R423). What the operands of ECC_CE and ECC_UE name is the model's choice, log 76. -/
def Obligations.ErrorsNoted : Prop :=
  ∀ (s : State), let b := s.blk
    (∀ e : EngineId, b.running = true → (b.engine e).st = .resetting →
      ∃ c : Blk, exec (.engineResetDone e) s = .next { s with blk := c.pump s.env } ∧ (c.engine e).st ≠ .resetting ∧ (c.engine e).lm = (b.engine e).lm
        ∧ (∀ r ∈ c.flt.active, r ∈ b.flt.active ∧ ¬(r.step = 1 ∧ r.target = e.val)) ∧ (∀ j : Nat, j ≠ e.val → c.engine j = b.engine j)
        ∧ c = { b with eng := c.eng, flt := { b.flt with active := c.flt.active }, mem := { b.mem with ring := c.mem.ring }
                       trc := { b.trc with tally := c.trc.tally } })
    ∧ (b.flt.pcycReq = true → b.start.poresetLow = false →
      ∃ c : Blk, exec .pcycAckTimeout s = .next { s with blk := c } ∧ c.flt.irqNoack = true ∧ c = { b with flt := c.flt })
    ∧ (∀ (k : BitVec 4) (u : BitVec 12) (a : W64), b.start.poresetLow = false → b.pwr.asleep = false →
      (∃ c : Blk, exec (.eccCe k u a) s = .next { s with blk := c }
        ∧ SMap.get 0 c.flt.eccCe k.toNat = satInc (SMap.get 0 b.flt.eccCe k.toNat)
        ∧ (∀ j, j ≠ k.toNat → SMap.get 0 c.flt.eccCe j = SMap.get 0 b.flt.eccCe j) ∧ c.flt.eccUe = b.flt.eccUe
        ∧ c = { b with flt := c.flt, sq := c.sq, trc := { b.trc with tally := c.trc.tally } } ∧ ({ b.flt with eccCe := c.flt.eccCe } : Faults).LogOnly c.flt)
      ∧ ∃ c : Blk, exec (.eccUe k u a) s = .next { s with blk := c.pump s.env }
        ∧ SMap.get 0 c.flt.eccUe k.toNat = satInc (SMap.get 0 b.flt.eccUe k.toNat)
        ∧ (∀ j, j ≠ k.toNat → SMap.get 0 c.flt.eccUe j = SMap.get 0 b.flt.eccUe j)
        ∧ ({ b with flt := c.flt, mem := c.mem, trc := c.trc } : Blk).EngineWork c
        ∧ (k = 0 → (a.toNat % 12288) ∈ (c.engine (u.toNat % 64)).badLm) ∧ (k = 13 → c.flt.warden = .stopped))
    ∧ (∀ (p : Port) (line : LineNo) (resp : BitVec 2), b.up = true → resp ≠ 0 → b.mayArrive (.wbRefused p line resp) = true →
      ∃ c : Blk, exec (.wbRefused p line resp) s = .next { s with blk := c }
        ∧ c = { b with flt := c.flt, mem := { b.mem with ring := b.mem.ring.erase (.wbRefused p line resp) } }
        ∧ (b.flt.warden = .running → b.flt.log = [] → b.flt.logCnt < 64 → c.flt.log.map (·.2) = [{
            kind := 0x0E, code := BitVec.ofNat 8 resp.toNat, time := s.env.now, unit := BitVec.ofNat 12 (0x300 + p.val)
            detail := BitVec.ofNat 64 (64 * line.toNat) }]))
    ∧ (b.flt.warden = .running → b.pwr.asleep = false →
      exec .wardenStop s = .next { s with blk := { b with flt := { b.flt with warden := .stopped } } })

/-! ### Debug (17) -/

/-- A belay (17 R427 to R431): BELAY_IN, where it is enabled, and ENTER begin one, with CAUSE and the time; with
nothing but unaccepted requests on the ring a stopping block is STOPPED; RELEASE of a stopped block has it run again,
of a stopping one is kept. Requests no home has accepted not counting as work is the model's reading, log 89. -/
def Obligations.BelayEntersAndLeaves : Prop :=
  ∀ (s : State), let b := s.blk; let d := b.dbg
    let begun := fun (c : Blk) (k : BitVec 5) => c.dbg = { d with
      belay := .stopping, cause := k, relHeld := false, belayTime := s.env.now, event := d.event ||| 1 }
    (b.start.poresetLow = false → b.start.sysLow = false → d.belayInEn = true → b.start.done = true → b.pwr.asleep = false →
      d.belay = .running → ∃ c : Blk, exec .belayIn s = .next { s with blk := c } ∧ begun c 2 ∧ b.Belaid c)
    ∧ (∀ a : Acc, b.Serves a → s.Steward a → b.pwr.asleep = false →
      (d.belay = .running → ∃ c : Blk, exec (.belayEnter a) s = .next { s with blk := c } ∧ begun c 1 ∧ b.Wrote a c
          ∧ ({ b with host := { b.host with resp := c.host.resp } } : Blk).Belaid c)
      ∧ (d.belay = .stopping → ∃ c : Blk, exec (.release a) s = .next (State.settle { s with blk := c })
          ∧ b.WroteOnly a { b with dbg := { d with relHeld := true } } c)
      ∧ (d.belay = .stopped → ∃ c : Blk, exec (.release a) s = .next (State.settle { s with blk := c }) ∧ c.dbg.belay = .running
          ∧ c.dbg.relHeld = false ∧ b.Wrote a c))
    ∧ (∀ a : Acc, b.Serves a → s.Steward a → d.belay = .running →
      ∃ c : Blk, exec (.release a) s = .next (State.settle { s with blk := c }) ∧ b.WroteOnly a b c)
    ∧ (d.belay = .stopping → (∀ m ∈ b.mem.ring, ringIdle m = true) → d.relHeld = false →
      ∃ c : Blk, exec .belayStopped s = .next (State.settle { s with blk := c })
        ∧ c = { b with dbg := { d with belay := .stopped }, host := { b.host with resp := [] } })

/-- Break units (17 R433 to R436): the units that match a TAG fire together, and so do those that match the slot at HEAD, before
its command enters; each sets HIT, each with HOLD holds the queue, and the block takes the first of their actions: the
event, a break of one sequencer or of all, or a belay (R434). UNHOLD ends the unit's holds; RESUME and
STEP leave BREAK through 0xFF5; a seat with function 3 may ask for a belay. A counter trigger that has reached its
threshold fires once (R437); before DONE its belay is held (18 R455). -/
def Obligations.BreaksAndTriggers : Prop :=
  ∀ (s : State), let b := s.blk
    (∀ (q : Queue) (t : Nat × Nat × W32), b.running = true → t ∈ b.dbg.tags → t.1 = q.val →
      (∀ u ∈ b.dbg.tags, u.1 = q.val → u.2.2 = t.2.2 → BitVec.ofNat 32 u.2.1 = BitVec.ofNat 32 t.2.1 → u = t) →
      ∃ c : Blk, exec (.breakUnitFire (.tag q (BitVec.ofNat 32 t.2.1) t.2.2)) s = .next { s with blk := c.pump s.env }
        ∧ c.dbg.tags = b.dbg.tags.erase t
        ∧ (∀ u ∈ b.tagUnits q t.2.2, (c.breakUnit u).hit = true ∧ (c.breakUnit u).arm = ((b.breakUnit u).arm && !(b.breakUnit u).once))
        ∧ (∀ u, u ∉ b.tagUnits q t.2.2 → c.breakUnit u = b.breakUnit u)
        ∧ ({ b with dbg := c.dbg, ik := c.ik, start := { b.start with heldBelay := c.start.heldBelay }, freeCtr := c.freeCtr, wv := c.wv
                    trc := c.trc } : Blk).QueueWork c)
    ∧ (∀ q : Queue, let h := (b.que q).head; let us := b.countUnits q h
      let act := firstAction (us.map fun u => (b.breakUnit u).action)
      b.running = true → (b.heldLine q h).isSome = true → us ≠ [] →
      ∃ c : Blk, exec (.breakUnitFire (.count q (BitVec.ofNat 32 h))) s = .next { s with blk := c.pump s.env } ∧ (c.que q).head = h
        ∧ (∀ u ∈ us, (c.breakUnit u).hit = true ∧ (c.breakUnit u).arm = ((b.breakUnit u).arm && !(b.breakUnit u).once)
            ∧ (q.val, h, u) ∈ (c.seq (seqOf q)).fired ∧ ((b.breakUnit u).action = 1 → u ∈ (c.que q).held))
        ∧ (∀ u, u ∉ us → c.breakUnit u = b.breakUnit u)
        ∧ (act = 0 → (∃ u ∈ us, u < 8) → c.dbg.event = b.dbg.event ||| 2)
        ∧ (act = 2 → 5 ∈ (c.seq (seqOf q)).pend) ∧ (act = 3 → ∀ i, i < 4 → 5 ∈ (c.seq i).pend)
        ∧ (act = 4 → c.dbg.belay = .stopping ∧ c.dbg.cause = 4) ∧ (act ≠ 4 → c.dbg.belay = .running)
        ∧ ({ b with dbg := c.dbg, ik := c.ik, start := { b.start with heldBelay := c.start.heldBelay }, freeCtr := c.freeCtr, wv := c.wv
                    trc := c.trc } : Blk).QueueWork c)
    ∧ (∀ (a : Acc) (u : Fin 8), b.Serves a → s.Steward a → ∃ c : Blk, exec (.unhold a u) s = .next { s with blk := c } ∧ b.Wrote a c
        ∧ ∀ q, (b.que q).held.Nodup → u.val ∉ (c.que q).held ∧ ∀ w, w ≠ u.val → (w ∈ (c.que q).held ↔ w ∈ (b.que q).held))
    ∧ (∀ (a : Acc) (i : SeqId), b.Serves a → s.Steward a → (b.seq i).st = .broke →
        (∃ c : Blk, exec (.resume a (BitVec.twoPow 4 i.val)) s = .next { s with blk := c } ∧ b.Wrote a c
          ∧ (b.Rests → c.seq i = { b.seq i with st := .trapped, sptr := 0xFF5, stepping := false }
            ∧ (∀ j : Nat, j ≠ i.val → c.seq j = b.seq j)
            ∧ ({ b with host := { b.host with resp := c.host.resp } } : Blk).QueueWork c))
        ∧ ∃ c : Blk, exec (.step a (BitVec.twoPow 4 i.val)) s = .next { s with blk := c } ∧ b.Wrote a c
          ∧ (b.Rests → c.seq i = { b.seq i with st := .trapped, sptr := 0xFF5, stepping := true }
            ∧ (∀ j : Nat, j ≠ i.val → c.seq j = b.seq j)
            ∧ ({ b with host := { b.host with resp := c.host.resp } } : Blk).QueueWork c))
    ∧ (∀ a : Acc, b.Serves a → ∃ c : Blk, exec (.seatBelayRequest a) s = .next { s with blk := c }
        ∧ b.WroteOnly a { b with dbg := if (b.seat a.seat.val).expert.getLsbD 3 then { b.dbg with
            seatReq := b.dbg.seatReq ||| BitVec.twoPow 16 a.seat.val, event := b.dbg.event ||| 4 } else b.dbg } c)
    ∧ (∀ (u : Fin 8), let t : Trigger := SMap.get {} b.dbg.trigs u; b.up = true → t.arm = true → t.thr.toNat ≤ (t.value b).toNat →
        ∃ c : Blk, exec (.triggerFire u) s = .next { s with blk := c } ∧ SMap.get {} c.dbg.trigs u = { t with hit := true, arm := false }
          ∧ b.Belaid c ∧ (t.action = false → c.dbg.event = b.dbg.event ||| 8 ∧ c.dbg.belay = b.dbg.belay)
          ∧ (t.action = true → b.start.done = true → b.pwr.asleep = false → b.dbg.belay = .running → c.dbg.belay = .stopping ∧ c.dbg.cause = 8))
    ∧ (∀ (u : Fin 8), let t : Trigger := SMap.get {} b.dbg.trigs u
        b.start.done = false → b.start.poresetLow = false → b.start.sysLow = false → b.pwr.asleep = false → t.arm = true →
        t.thr.toNat ≤ (t.value b).toNat → t.action = true →
        ∃ c : Blk, exec (.triggerFire u) s = .next { s with blk := c } ∧ SMap.get {} c.dbg.trigs u = { t with hit := true, arm := false }
          ∧ c = { b with start := { b.start with heldBelay := b.start.heldBelay ||| 8 }, freeCtr := c.freeCtr, trc := c.trc
                         dbg := { b.dbg with trigs := c.dbg.trigs } })

/-- CAPTURE takes the time, of every queue its state, HEAD, TAIL, COMP and its first parked HITCH, and the free entries of the
pools (17 R438); GO sends the graph's writes, or fails at once on a bad buffer
or without the warden core, and the graph is done when they are all answered, failed with an error among them (17 R438
to R440); the TAP loads its instruction register, and shifts zeros out of an instrument while the block is not STOPPED
(R432); TRST_N low resets its controller (13 R356). When instruments answer, log 95, what the controller holds, log 15,
and its states, log 133, are the model's. -/
def Obligations.Snapshots : Prop :=
  ∀ (s : State), let b := s.blk; let t := b.dbg.tangle
    (∀ a : Acc, b.Serves a → s.Steward a → ∃ c : Blk, exec (.capture a) s = .next { s with blk := c }
      ∧ b.WroteOnly a { b with dbg := { b.dbg with snap := c.dbg.snap } } c ∧ c.dbg.snap.valid = true ∧ c.dbg.snap.time = s.env.now
      ∧ c.dbg.snap.sel = b.dbg.snap.sel
      ∧ c.dbg.snap.pool = BitVec.ofNat 32 (poolFree b.wv.cur 2048 (·.sbReserve) b.sbUse
          + 65536 * poolFree b.wv.cur 8192 (·.waitReserve) b.waitUse)
      ∧ (∀ q : Nat, PMap.find q c.dbg.snap.qs = none ↔ PMap.find q b.qs = none)
      ∧ ∀ (q : Nat) (y : SnapQ), PMap.find q c.dbg.snap.qs = some y → let u := b.que q
          let state := match u.st with
            | .free => 0
            | .opened => 1
            | .draining => 2
            | .closing => 3
          let first := b.parkedHitch q
          y.owner = b.wv.cur.owner q
            ∧ y.words.map BitVec.toNat = [
                (state + (if u.idle then 8 else 0) + (if u.held = [] then 0 else 16) + 32 * b.pauseCode q
                  + 256 * b.sb.countP (fun e => e.q == q)) % 2 ^ 32, u.head % 2 ^ 32, u.tail % 2 ^ 32, u.comp % 2 ^ 32,
                (first.map fun e => (Slot.knot4 e.slot + 2 ^ 20 + (if Slot.flag16 e.slot then 2 ^ 21 else 0)
                  + 2 ^ 22 * fAt e.slot 4 24 4) % 2 ^ 32).getD 0,
                (first.map fun e => Slot.q64 e.slot 8 % 2 ^ 32).getD 0])
    ∧ (∀ (a : Acc) (all : Bool), b.Serves a → s.Steward a → t.st ≠ .building →
      ∃ c : Blk, exec (.go a all) s = .next { s with blk := c } ∧ b.Wrote a c
        ∧ c = { b with
            dbg := { b.dbg with tangle := c.dbg.tangle }, mem := { b.mem with ring := c.mem.ring }
            trc := { b.trc with tally := c.trc.tally }, host := { b.host with resp := c.host.resp } }
        ∧ c.dbg.tangle.all = all
        ∧ (if b.flt.warden = .running ∧ t.base.toNat % 64 = 0 ∧ 64 ≤ t.size.toNat then
            c.dbg.tangle.st = .building ∧ c.dbg.tangle.bad = false
              ∧ c.mem.ring.length = b.mem.ring.length + c.dbg.tangle.want
           else c.dbg.tangle.st = .failed ∧ c.mem.ring = b.mem.ring))
    ∧ (t.st = .building → (t.want = 0 ∨ b.flt.warden ≠ .running) →
      exec .tangleDone s = .next { s with blk := { b with dbg := { b.dbg with
        tangle := { t with st := if t.bad = false ∧ b.flt.warden = .running then .done else .failed } } } })
    ∧ (b.start.poresetLow = false → b.dbg.trstLow = false →
      (∀ v : W8, ∃ c : Blk, exec (.tapAccess (.ir v)) s = .next (State.settle { s with blk := c.pump s.env }) ∧ c.dbg.tapIr = v
        ∧ c = { b with dbg := { b.dbg with tapIr := v, tapOut := c.dbg.tapOut }, host := { b.host with resp := [] } })
      ∧ (∀ i : SeqId, b.dbg.tapIr = 0x10 → b.dbg.belay ≠ .stopped → b.pwr.asleep = false →
        ∃ c : Blk, exec (.tapAccess (.sequencer i)) s = .next (State.settle { s with blk := c.pump s.env })
          ∧ (∀ y ∈ c.dbg.tapOut, y = 0) ∧ c = { b with dbg := { b.dbg with tapOut := c.dbg.tapOut }, host := { b.host with resp := [] } }))
    ∧ (∃ c : Blk, exec (.tapAccess (.trst true)) s = .next (State.settle { s with blk := c.pump s.env })
        ∧ c = { b with dbg := { b.dbg with trstLow := true, tapSt := .testLogicReset, tapIr := 0x01 }
                       host := { b.host with resp := [] } })

/-- Counters and trace (17 R441 to R448): a select starts its counter at 0, unless the event is reserved, an engine's
where feature 3 is confirmed (12 R316); a sample offers BLK_SAMPLE to the block caddy and ENG_SAMPLE to that of every
engine with clocks, where SAMPLE_EN is 1 (R444, R447); when the writes of the block caddy's oldest record are all answered
it leaves the caddy, a LOST record taking the room after a drop (R446), and WR passes it, or an error response stops the
ring; a claim gives an engine's caddy to the only owner, and its end gives it back. That an engine's select in the
steward window is an expert field is the model's reading, log 113. -/
def Obligations.CountersAndTrace : Prop :=
  ∀ (s : State), let b := s.blk
    (∀ (a : Acc) (i : W8) (d : W32), b.Serves a → s.Steward a → ∃ c : Blk, exec (.counterSelect a none i d) s = .next { s with blk := c }
      ∧ b.Wrote a c ∧ c = { b with trc := c.trc, host := { b.host with resp := c.host.resp } }
      ∧ (blkArgOk (fld d 0 8) (fld d 8 6) = true → c.blkSel i.toNat = fld d 0 14 ∧ c.blkCounter i.toNat = 0)
      ∧ (blkArgOk (fld d 0 8) (fld d 8 6) = false → c.trc = b.trc))
    ∧ (b.running = true → b.trc.interval ≠ 0 → ∃ c : Blk, exec .counterSample s = .next { s with blk := c }
      ∧ c = { b with eng := c.eng, trc := c.trc } ∧ (b.trc.ctl.getLsbD 1 = false → c.trc = b.trc)
      ∧ (b.trc.ctl.getLsbD 1 = true →
          c.trc = { b.trc with caddy := b.trc.caddy.offer blkCap 0x11 s.env.now b.blkSample })
      ∧ (∀ e : Nat, c.engine e = { b.engine e with trace := { (b.engine e).trace with caddy := (c.engine e).trace.caddy } })
      ∧ ∀ e : EngineId, (c.engine e).trace.caddy =
          if (b.engine e).trace.ctl.getLsbD 2 = true ∧ 0 < (b.engine e).level then
            (b.engine e).trace.caddy.offer engCap 0x03 s.env.now (b.engSample e)
          else (b.engine e).trace.caddy)
    ∧ (∀ (a : Acc) (e : EngineId) (i : W8) (d : W32), b.Serves a → s.Steward a →
      ∃ c : Blk, exec (.counterSelect a (some e) i d) s = .next { s with blk := c } ∧ b.Wrote a c
        ∧ c = { b with eng := c.eng, host := { b.host with resp := c.host.resp } } ∧ (∀ j : Nat, j ≠ e.val → c.engine j = b.engine j)
        ∧ (b.feat.confirmed.getLsbD 3 = true → fld d 0 8 < 0x1E → c.engSel e (i.toNat % 64) = fld d 0 8 ∧ c.engCounter e (i.toNat % 64) = 0)
        ∧ (b.feat.confirmed.getLsbD 3 = false ∨ 0x1E ≤ fld d 0 8 → c.engine e = b.engine e))
    ∧ (∀ (d : Drain) (r : TraceRec) (rest : List TraceRec),
      b.running = true → b.drained none = some (16, d) → b.trc.caddy.recs = r :: rest → d.src = none → d.copy = false → d.item = r →
      r.kind ≠ 0x10 → (∀ i : Nat, i < 17 → i ≠ 16 → (b.ring i).en = false) →
      (d.bad = false → rest = [] → ∃ c : Blk, exec (.caddyDrainWrite .block) s = .next { s with blk := c.pump s.env }
        ∧ c.trc.caddy.recs.map (·.kind) = (if b.trc.caddy.dropped = 0 then [] else [0x20]) ∧ (c.ring 16).wr = (b.ring 16).wr + BitVec.ofNat 32 d.len
        ∧ c = { b with trc := c.trc, mem := { b.mem with ring := c.mem.ring } })
      ∧ (d.bad = true → ∃ c : Blk, exec (.caddyDrainWrite .block) s = .next { s with blk := c.pump s.env }
        ∧ c = b.setRing 16 { b.ring 16 with out := none, err := true, en := false }))
    ∧ (∀ (a : Acc) (e : EngineId), let v := b.engine e; let me := BitVec.ofNat 5 a.seat.val
      b.Serves a →
      ((b.seat a.seat.val).expert.getLsbD 2 = true → b.wv.cur.engOwners e = [a.seat.val] → v.trace.caddy.recs = [] →
        ∃ c : Blk, exec (.claim a e) s = .next { s with blk := c } ∧ b.Wrote a c ∧ (c.engine e).trace.owner = me
          ∧ ∀ j : Nat, j ≠ e.val → c.engine j = b.engine j)
      ∧ ((b.seat a.seat.val).expert.getLsbD 2 = false ∨ b.wv.cur.engOwners e ≠ [a.seat.val] →
        ∃ c : Blk, exec (.claim a e) s = .next { s with blk := c } ∧ b.WroteOnly a b c)
      ∧ (v.trace.owner = me → ∃ c : Blk, exec (.claimRelease a e) s = .next { s with blk := c } ∧ b.Wrote a c
          ∧ (c.engine e).trace.owner = 0x1F ∧ (c.engine e).trace.ctl = 0 ∧ ∀ j : Nat, j ≠ e.val → c.engine j = b.engine j))

/-! ### Registers (12) -/

/-- COMMIT fixes the accepted features once (12 R320 to R322); a grant gives a seat what its ceiling and the features
allow (R315); SLOW_CLR zeroes the selected queue's figures (09 R245), and has no effect on a queue that is not the
seat's (the model's choice, log 139); PRED_RESET empties the predictor (10 R272). -/
def Obligations.RegisterCommands : Prop :=
  ∀ (s : State) (a : Acc), let b := s.blk; let f := b.feat
    b.Serves a →
    (s.Steward a → (∃ c, exec (.commit a) s = .next { s with blk := c } ∧ b.WroteOnly a { b with
        feat := if f.committed then f else { f with confirmed := f.accept, keep := f.accept, committed := true } } c)
      ∧ (∀ (t : Seat) (d : W32), ∃ c, exec (.seatExpertEnable a t d) s = .next { s with blk := c } ∧ b.Wrote a c
          ∧ (c.seat t.val).expert = d &&& b.grantable t.val ∧ (∀ j : Nat, j ≠ t.val → c.seat j = b.seat j)
          ∧ c = { b with eng := c.eng, host := c.host })
      ∧ (∃ c, exec (.predReset a) s = .next { s with blk := c } ∧ b.WroteOnly a { b with mem := { b.mem with pred := [] } } c))
    ∧ (∀ q, b.slowQueue (ownWindow s.env a) = some q → ∃ c, exec (.clear a) s = .next { s with blk := c }
        ∧ b.WroteOnly a (b.setQue q { b.que q with stallSum := 0, busySum := 0 }) c)
    ∧ (b.slowQueue (ownWindow s.env a) = none → ∃ c, exec (.clear a) s = .next { s with blk := c } ∧ b.WroteOnly a b c)

/-- Register accesses (12 R302 to R305): a write of the steward window by another seat, and a partial write, have no
effect, are answered, and are recorded, a partial one with KIND 3 where it is not refused besides (R304); a write of
FEAT_ACCEPT in OPEN takes what is offered (R320, R322); a read of the low word of
TIM_NOW answers it and captures the high one (R305); the warden core answers the access that has waited longest for it
(R318, R319), upon which what becomes eligible starts (07 R227). With no seat's access unfinished or held, nothing
goes on. The responses shown, log 109, what SNAPSHOT_READ reads, log 110, and that a partial write is recorded where no
register stands too, log 35, are the model's. -/
def Obligations.RegisterAccesses : Prop :=
  (∀ (s : State) (a : Acc), let b := s.blk; let r := b.host.acc
      (b.Serves a →
        (∀ (addr : BitVec 22) (d : W32), placeOf addr = .steward (addr.toNat / 4 * 4) → ¬s.Steward a → r.valid = false →
          ∃ c : Blk, exec (.registerWrite a addr d) s = .next (State.settle { s with blk := c }) ∧ b.Wrote a c
            ∧ c = { b with host := { b.host with resp := c.host.resp, acc := { r with
              seat := BitVec.ofNat 4 a.seat.val, priv := a.priv, write := true, kind := 0, count := 1, valid := true, addr := addr } } })
        ∧ (∀ (d : W32) (i : Nat), s.Steward a → i < 8 → b.feat.committed = false →
          ∃ c : Blk, exec (.registerWrite a (BitVec.ofNat 22 (0x60 + 4 * i)) d) s = .next (State.settle { s with blk := c })
            ∧ b.WroteOnly a { b with feat := { b.feat with accept := (setWord b.feat.accept i d &&& featOffer) ||| 1 } } c)
        ∧ (s.Steward a → ∃ c : Blk, exec (.snapshotRead a 0x9108) s = .next (State.settle { s with blk := c })
            ∧ c.host.resp = [{ seat := BitVec.ofNat 4 a.seat.val, write := false, rdata := BitVec.ofNat 32 s.env.now.toNat }]
            ∧ PMap.find 0x9108 (c.seat a.seat.val).snaps = some (BitVec.ofNat 128 s.env.now.toNat)
            ∧ c = { b with host := c.host }))
      ∧ (∀ (addr : BitVec 22) (d : W32), b.hrpReady a.seat.val = true → (b.seat a.seat.val).unfin = none → b.start.done = true →
        a.be ≠ 15 →
        let lost := fun k : BitVec 2 => ∃ c : Blk,
          exec (.registerWrite a addr d) s = .next (State.settle { s with blk := c }) ∧ b.Wrote a c
            ∧ c = { b with host := { b.host with resp := c.host.resp, acc := if r.valid then { r with count := satInc r.count } else {
                r with seat := BitVec.ofNat 4 a.seat.val, priv := a.priv, write := true, kind := k, count := 1, valid := true
                       addr := addr } } }
        match placeOf addr with
        | .steward _ => if s.Steward a then lost 3 else lost 0
        | .seat t o => if t = a.seat.val then (o < 0x8000 → lost 3) else lost 1
        | .page q _ => if s.env.strap.steward = a.seat.val ∨ b.wv.cur.owner q = some a.seat.val then lost 3 else lost 2
        | .knot _ _ => lost 3)
      ∧ (∀ (op : HostOp) (rest : List HostOp), b.host.warden = op :: rest → b.flt.warden ≠ .running →
        ∃ c : Blk, exec .emulatedAccessDone s = .next (State.settle { s with blk := c.pump s.env }) ∧ c.host.warden = rest
          ∧ (c.seat op.acc.seat.val).unfin = none ∧ c = { b with host := c.host }
          ∧ c.host.resp = [{ seat := BitVec.ofNat 4 op.acc.seat.val, write := op.wdata.isSome, rdata := 0 }])
      ∧ (∀ (op : HostOp) (rest : List HostOp) (d : W32), b.host.warden = op :: rest → b.flt.warden = .running → op.addr = 0x7000 →
        op.wdata = some d → ∃ c : Blk, exec .emulatedAccessDone s = .next (State.settle { s with blk := c.pump s.env }) ∧ c.host.warden = rest
          ∧ (c.seat op.acc.seat.val).unfin = none
          ∧ c = { b with host := c.host, flt := { b.flt with
              auto := BitVec.ofNat 4 (fld d 0 4), engLimit := BitVec.ofNat 4 (fld d 8 4), blkLimit := BitVec.ofNat 4 (fld d 12 4) } }
          ∧ c.host.resp = [{ seat := BitVec.ofNat 4 op.acc.seat.val, write := true, rdata := 0 }]))
  ∧ (∀ s : State, s.blk.PortQuiet → s.settle = s)

/-! ### The whole machine -/

/-- A step takes the command that has waited longest and answers what it does to the rest. -/
def Obligations.StepRunsFront : Prop :=
  ∀ (s : State) (i : Instr) (r : List Instr), s.pending = i :: r → step s = exec i { s with pending := r }

/-- Every command completes, and none adds to or takes from the commands that wait: a step never faults and never
refuses (16 R403), also where a command's condition does not hold (the model's reading, log 1). With no command waiting a step answers a next state with none waiting (the model's choice, log 2). -/
def Obligations.EveryCommandCompletes : Prop :=
  (∀ (i : Instr) (s : State), ∃ u, exec i s = .next u ∧ u.pending = s.pending)
    ∧ ∀ s : State, s.pending = [] → ∃ u, step s = .next u ∧ u.pending = []

/-- Only a pour changes the weave in force and its epoch (02 R62): no command does but POUR_EDGE, and the resets that
begin the block anew, PORESET_N and WARM_START, which begins a cold start that SYS_RESET_N cut short from its first
step (13 R344, 18 R452, R456). The straps, the
steward's seat and the fused key hash, change only in a reset of the whole block (01 R27, 14 R376): by no command but
PORESET_N and COLD_START. That a reset command starts anew is the model's reading, log 5 and 80. -/
def Obligations.WeaveAndStrapsStand : Prop :=
  ∀ (i : Instr) (s u : State), exec i s = .next u → i ≠ .poresetN →
    (i ≠ .pourEdge → (i = .warmStart → s.blk.start.kind ≠ 1 ∨ s.blk.start.done = true ∨ s.blk.start.waits = true ∨ s.blk.start.sysLow = false) →
      u.blk.wv.epoch = s.blk.wv.epoch ∧ u.blk.wv.cur = s.blk.wv.cur)
    ∧ ((∀ n k, i ≠ .coldStart n k) → u.env.strap = s.env.strap)

/-- Every step keeps the steep buffer in its canonical form. The form is the model's, log 6. -/
def Obligations.SteepStaysCanonical : Prop := ∀ s u : State, s.SteepWf → step s = .next u → u.SteepWf

/-- Reset: no weave, every queue FREE, PORESET_N low, the budget 40 W, the steep buffer canonical (02 R56, 13 R342, 15
R402). The block with PORESET_N low as the reset state is the model's choice, log 5. -/
def Obligations.ResetState : Prop :=
  let s := State.reset
  s.pending = [] ∧ s.SteepWf ∧ s.blk.wv.st = .empty ∧ s.blk.wv.epoch = 0 ∧ (∀ q, (s.blk.que q).st = .free) ∧ s.blk.sb = []
    ∧ s.blk.start.poresetLow = true ∧ s.blk.start.done = false ∧ s.blk.pwr.budget = 40 ∧ s.blk.pwr.sleepDelay = 0x064
    ∧ (∀ k, s.blk.knot k = {}) ∧ (∀ p, (s.blk.port p).link = .down)
end

