-- ==== Sys2Proof/Laws/Maps.lean ====
section
/-! SUPPORT. Keyed maps and addressed bytes: reading after writing, and the canonical form kept by every operation. -/

namespace Sys2Proof.Machine

section
variable {α : Type}

/-! ### Reading after writing -/

@[simp] theorem PMap.find_put_self (k : Nat) (v : α) (m : PMap α) : PMap.find k (PMap.put k v m) = some v := by
  induction m with
  | nil => simp [PMap.put, PMap.find]
  | cons p r ih =>
    obtain ⟨i, w⟩ := p
    by_cases h : k < i
    · simp [PMap.put, PMap.find, h]
    · by_cases h' : k = i
      · simp [PMap.put, PMap.find, h']
      · have : ¬ i = k := fun e => h' e.symm
        simp [PMap.put, PMap.find, h, h', this, ih]

theorem PMap.find_put_ne {k j : Nat} (v : α) (m : PMap α) (h : j ≠ k) : PMap.find j (PMap.put k v m) = PMap.find j m := by
  have hk : ¬ k = j := fun e => h e.symm
  induction m with
  | nil => simp [PMap.put, PMap.find, hk]
  | cons p r ih =>
    obtain ⟨i, w⟩ := p
    by_cases h1 : k < i
    · simp [PMap.put, PMap.find, h1, hk]
    · by_cases h2 : k = i
      · subst h2; simp [PMap.put, PMap.find, hk]
      · simp [PMap.put, PMap.find, h1, h2, ih]

@[simp] theorem PMap.find_del_self (k : Nat) (m : PMap α) : PMap.find k (PMap.del k m) = none := by
  induction m with
  | nil => rfl
  | cons p r ih =>
    obtain ⟨i, w⟩ := p
    by_cases h : i = k <;> simp [PMap.del, PMap.find, h, ih]

theorem PMap.find_del_ne {k j : Nat} (m : PMap α) (h : j ≠ k) : PMap.find j (PMap.del k m) = PMap.find j m := by
  induction m with
  | nil => rfl
  | cons p r ih =>
    obtain ⟨i, w⟩ := p
    by_cases h1 : i = k
    · have : ¬ i = j := fun e => h (e ▸ h1)
      simp [PMap.del, PMap.find, h1, ih, show ¬ k = j from fun e => h e.symm]
    · simp [PMap.del, PMap.find, h1, ih]

@[simp] theorem SMap.get_set_self [DecidableEq α] (d : α) (m : SMap α) (k : Nat) (v : α) :
    SMap.get d (SMap.set d m k v) k = v := by
  by_cases h : v = d <;> simp [SMap.get, SMap.set, h]

theorem SMap.get_set_ne [DecidableEq α] (d : α) (m : SMap α) {k j : Nat} (v : α) (h : j ≠ k) :
    SMap.get d (SMap.set d m k v) j = SMap.get d m j := by
  by_cases h' : v = d <;> simp [SMap.get, SMap.set, h', PMap.find_put_ne, PMap.find_del_ne, h]

theorem SMap.get_set [DecidableEq α] (d : α) (m : SMap α) (k j : Nat) (v : α) :
    SMap.get d (SMap.set d m k v) j = if j = k then v else SMap.get d m j := by
  by_cases h : j = k
  · subst h; simp
  · simp [h, SMap.get_set_ne]

@[simp] theorem Mem.read_write_self (m : Mem) (a : Nat) (v : W8) : Mem.read (Mem.write m a v) a = v := by
  simp [Mem.read, Mem.write]
theorem Mem.read_write_ne (m : Mem) {a c : Nat} (v : W8) (h : c ≠ a) : Mem.read (Mem.write m a v) c = Mem.read m c := by
  simp [Mem.read, Mem.write, SMap.get_set_ne, h]

/-! ### The canonical form -/

/-- Every key of the map is above `i`. -/
def PMap.Above (i : Nat) (m : PMap α) : Prop := ∀ p ∈ m, i < p.1

theorem PMap.sorted_cons {i : Nat} {v : α} {r : PMap α} :
    PMap.Sorted ((i, v) :: r) ↔ PMap.Above i r ∧ PMap.Sorted r := by
  induction r generalizing i v with
  | nil => simp [PMap.sorted, PMap.Above]
  | cons p r ih =>
    obtain ⟨j, w⟩ := p
    simp only [PMap.sorted, PMap.Sorted, Bool.and_eq_true, decide_eq_true_eq]
    constructor
    · rintro ⟨h, hs⟩
      refine ⟨?_, hs⟩
      intro p hp
      rcases List.mem_cons.1 hp with rfl | hp
      · exact h
      · exact lt_trans h ((ih.1 hs).1 p hp)
    · rintro ⟨h, hs⟩
      exact ⟨h (j, w) (by simp), hs⟩

theorem PMap.mem_put {k : Nat} {v : α} {m : PMap α} {p : Nat × α} (h : p ∈ PMap.put k v m) : p = (k, v) ∨ p ∈ m := by
  induction m with
  | nil => simpa [PMap.put] using h
  | cons q r ih =>
    obtain ⟨i, w⟩ := q
    by_cases h1 : k < i
    · simp [PMap.put, h1] at h; rcases h with h | h | h <;> simp [h]
    · by_cases h2 : k = i
      · simp [PMap.put, h2] at h; rcases h with h | h <;> simp [h, h2]
      · simp [PMap.put, h1, h2] at h
        rcases h with h | h
        · simp [h]
        · rcases ih h with h | h <;> simp [h]

theorem PMap.mem_del {k : Nat} {m : PMap α} {p : Nat × α} (h : p ∈ PMap.del k m) : p ∈ m := by
  induction m with
  | nil => simp [PMap.del] at h
  | cons q r ih =>
    obtain ⟨i, w⟩ := q
    by_cases h1 : i = k
    · simp [PMap.del, h1] at h; exact List.mem_cons_of_mem _ (ih h)
    · simp [PMap.del, h1] at h
      rcases h with h | h
      · simp [h]
      · exact List.mem_cons_of_mem _ (ih h)

theorem PMap.sorted_put (k : Nat) (v : α) {m : PMap α} (h : PMap.Sorted m) : PMap.Sorted (PMap.put k v m) := by
  induction m with
  | nil => rfl
  | cons p r ih =>
    obtain ⟨i, w⟩ := p
    obtain ⟨ha, hs⟩ := PMap.sorted_cons.1 h
    by_cases h1 : k < i
    · simp only [PMap.put, h1, if_true]
      refine PMap.sorted_cons.2 ⟨fun p hp => ?_, h⟩
      rcases List.mem_cons.1 hp with rfl | hp
      · exact h1
      · exact lt_trans h1 (ha p hp)
    · by_cases h2 : k = i
      · subst h2; simp only [PMap.put, lt_irrefl, if_true, if_false]; exact PMap.sorted_cons.2 ⟨ha, hs⟩
      · simp only [PMap.put, h1, h2, if_false]
        refine PMap.sorted_cons.2 ⟨?_, ih hs⟩
        intro p hp
        rcases PMap.mem_put hp with rfl | hp
        · simp; omega
        · exact ha p hp

theorem PMap.sorted_del (k : Nat) {m : PMap α} (h : PMap.Sorted m) : PMap.Sorted (PMap.del k m) := by
  induction m with
  | nil => rfl
  | cons p r ih =>
    obtain ⟨i, w⟩ := p
    obtain ⟨ha, hs⟩ := PMap.sorted_cons.1 h
    by_cases h1 : i = k
    · simp only [PMap.del, h1, if_true]; exact ih hs
    · simp only [PMap.del, h1, if_false]
      exact PMap.sorted_cons.2 ⟨fun p hp => ha p (PMap.mem_del hp), ih hs⟩

theorem PMap.sorted_filter (f : Nat × α → Bool) {m : PMap α} (h : PMap.Sorted m) : PMap.Sorted (m.filter f) := by
  induction m with
  | nil => exact h
  | cons p r ih =>
    obtain ⟨i, w⟩ := p
    obtain ⟨ha, hs⟩ := PMap.sorted_cons.1 h
    by_cases h1 : f (i, w)
    · rw [List.filter_cons_of_pos h1]
      exact PMap.sorted_cons.2 ⟨fun p hp => ha p (List.mem_filter.1 hp).1, ih hs⟩
    · rw [List.filter_cons_of_neg h1]; exact ih hs

@[simp] theorem Memory.wf_empty : Memory.wf [] := ⟨rfl, by simp⟩

/-- Writing a byte keeps the canonical form: a zero removes the entry. -/
theorem Mem.write_wf {m : Mem} (h : Memory.wf m) (a : Nat) (v : W8) : Memory.wf (Mem.write m a v) := by
  obtain ⟨hs, hz⟩ := h
  by_cases h0 : v = 0
  · simp only [Mem.write, SMap.set, h0, if_true]
    exact ⟨PMap.sorted_del a hs, fun c hc => hz c (PMap.mem_del hc)⟩
  · simp only [Mem.write, SMap.set, h0, if_false]
    refine ⟨PMap.sorted_put a v hs, fun c hc => ?_⟩
    rcases PMap.mem_put hc with rfl | hc
    · exact h0
    · exact hz c hc

theorem Mem.writeMask_wf (n : Nat) {m : Mem} (h : Memory.wf m) (a v mask : Nat) : Memory.wf (Mem.writeMask m a v mask n) := by
  induction n generalizing m a v mask with
  | zero => exact h
  | succ n ih =>
    simp only [Mem.writeMask]
    apply ih
    by_cases hm : mask % 2 = 1
    · simp only [hm, if_true]; exact Mem.write_wf h _ _
    · simp only [hm, if_false]; exact h

theorem Mem.writeLine_wf {m : Mem} (h : Memory.wf m) (a : Nat) (v : Line) : Memory.wf (Mem.writeLine m a v) :=
  Mem.writeMask_wf 64 h a _ _

theorem Mem.writeBytes_wf (l : List W8) {m : Mem} (h : Memory.wf m) (a : Nat) : Memory.wf (Mem.writeBytes m a l) := by
  induction l generalizing m a with
  | nil => exact h
  | cons v r ih => exact ih (Mem.write_wf h a v) (a + 1)

theorem Mem.zero_wf {m : Mem} (h : Memory.wf m) (lo hi : Nat) : Memory.wf (Mem.zero m lo hi) :=
  ⟨PMap.sorted_filter _ h.1, fun c hc => h.2 c (List.mem_filter.1 hc).1⟩

end

end Sys2Proof.Machine
end

