-- ==== Sys2Proof/Laws/Memory.lean ====
section
/-! SUPPORT. Lines that come from SoC memory keep the canonical form of where they land (03 R93, 02 R55). -/

namespace Sys2Proof.Machine

/-- Whole lines that land keep the canonical form. -/
theorem Mem.landLines_wf {m : Mem} (h : Memory.wf m) (soc lm : Nat) (got : List (LineNo × Line)) : Memory.wf (m.landLines soc lm got) := by
  unfold Mem.landLines
  induction got generalizing m with
  | nil => exact h
  | cons g r ih => exact ih (Mem.writeLine_wf h _ _)

/-- Two canonical memories, the one below an address and the other from it on, make one. -/
theorem Memory.wf_append {m m' : Mem} {n : Nat} (h : Memory.wf m) (k : Memory.wf m') :
    Memory.wf ((m.filter fun c => decide (c.1 < n)) ++ m'.filter fun c => decide (n ≤ c.1)) := by
  refine ⟨?_, fun c hc => ?_⟩
  · have hs := PMap.sorted_filter (fun c : Nat × W8 => decide (c.1 < n)) h.1
    have ht := PMap.sorted_filter (fun c : Nat × W8 => decide (n ≤ c.1)) k.1
    have hlow : ∀ c ∈ m.filter fun c => decide (c.1 < n), c.1 < n := by simp
    have hhigh : ∀ c ∈ m'.filter fun c => decide (n ≤ c.1), n ≤ c.1 := by simp
    generalize m.filter _ = a at *
    generalize m'.filter _ = b at *
    induction a with
    | nil => exact ht
    | cons p r ih =>
      obtain ⟨i, v⟩ := p
      obtain ⟨ha, hr⟩ := PMap.sorted_cons.1 hs
      refine PMap.sorted_cons.2 ⟨fun p hp => ?_, ih hr fun c hc => hlow c (List.mem_cons_of_mem _ hc)⟩
      rcases List.mem_append.1 hp with hp | hp
      · exact ha p hp
      · exact lt_of_lt_of_le (hlow (i, v) (by simp)) (hhigh p hp)
  · rcases List.mem_append.1 hc with hc | hc
    · exact h.2 c (List.mem_filter.1 hc).1
    · exact k.2 c (List.mem_filter.1 hc).1

/-- The bytes of a fetch keep the canonical form of the steep buffer. -/
theorem Fetch.land_wf (f : Fetch) {m : Mem} (h : Memory.wf m) : Memory.wf (f.land m) :=
  Memory.wf_append (Mem.landLines_wf Memory.wf_empty _ _ _) h

end Sys2Proof.Machine
end

