-- ==== Sys2Proof/Laws/State.lean ====
section
/-! SUPPORT. Every update of the block, field by field: what it leaves unchanged, by rfl, and what reading the part it wrote gives. -/

namespace Sys2Proof.Machine

variable (b : Blk)

@[simp] theorem Blk.setQue_freeCtr (q : Nat) (v : Que) : (b.setQue q v).freeCtr = b.freeCtr := rfl
@[simp] theorem Blk.setQue_ctlCycle (q : Nat) (v : Que) : (b.setQue q v).ctlCycle = b.ctlCycle := rfl
@[simp] theorem Blk.setQue_host (q : Nat) (v : Que) : (b.setQue q v).host = b.host := rfl
@[simp] theorem Blk.setQue_feat (q : Nat) (v : Que) : (b.setQue q v).feat = b.feat := rfl
@[simp] theorem Blk.setQue_start (q : Nat) (v : Que) : (b.setQue q v).start = b.start := rfl
@[simp] theorem Blk.setQue_patch (q : Nat) (v : Que) : (b.setQue q v).patch = b.patch := rfl
@[simp] theorem Blk.setQue_wv (q : Nat) (v : Que) : (b.setQue q v).wv = b.wv := rfl
@[simp] theorem Blk.setQue_kn (q : Nat) (v : Que) : (b.setQue q v).kn = b.kn := rfl
@[simp] theorem Blk.setQue_sb (q : Nat) (v : Que) : (b.setQue q v).sb = b.sb := rfl
@[simp] theorem Blk.setQue_stand (q : Nat) (v : Que) : (b.setQue q v).stand = b.stand := rfl
@[simp] theorem Blk.setQue_dsp (q : Nat) (v : Que) : (b.setQue q v).dsp = b.dsp := rfl
@[simp] theorem Blk.setQue_sq (q : Nat) (v : Que) : (b.setQue q v).sq = b.sq := rfl
@[simp] theorem Blk.setQue_eng (q : Nat) (v : Que) : (b.setQue q v).eng = b.eng := rfl
@[simp] theorem Blk.setQue_mem (q : Nat) (v : Que) : (b.setQue q v).mem = b.mem := rfl
@[simp] theorem Blk.setQue_ik (q : Nat) (v : Que) : (b.setQue q v).ik = b.ik := rfl
@[simp] theorem Blk.setQue_pwr (q : Nat) (v : Que) : (b.setQue q v).pwr = b.pwr := rfl
@[simp] theorem Blk.setQue_flt (q : Nat) (v : Que) : (b.setQue q v).flt = b.flt := rfl
@[simp] theorem Blk.setQue_dbg (q : Nat) (v : Que) : (b.setQue q v).dbg = b.dbg := rfl
@[simp] theorem Blk.setQue_trc (q : Nat) (v : Que) : (b.setQue q v).trc = b.trc := rfl

@[simp] theorem Blk.setKnot_freeCtr (k : Nat) (v : Knot) : (b.setKnot k v).freeCtr = b.freeCtr := rfl
@[simp] theorem Blk.setKnot_ctlCycle (k : Nat) (v : Knot) : (b.setKnot k v).ctlCycle = b.ctlCycle := rfl
@[simp] theorem Blk.setKnot_host (k : Nat) (v : Knot) : (b.setKnot k v).host = b.host := rfl
@[simp] theorem Blk.setKnot_feat (k : Nat) (v : Knot) : (b.setKnot k v).feat = b.feat := rfl
@[simp] theorem Blk.setKnot_start (k : Nat) (v : Knot) : (b.setKnot k v).start = b.start := rfl
@[simp] theorem Blk.setKnot_patch (k : Nat) (v : Knot) : (b.setKnot k v).patch = b.patch := rfl
@[simp] theorem Blk.setKnot_wv (k : Nat) (v : Knot) : (b.setKnot k v).wv = b.wv := rfl
@[simp] theorem Blk.setKnot_qs (k : Nat) (v : Knot) : (b.setKnot k v).qs = b.qs := rfl
@[simp] theorem Blk.setKnot_sb (k : Nat) (v : Knot) : (b.setKnot k v).sb = b.sb := rfl
@[simp] theorem Blk.setKnot_stand (k : Nat) (v : Knot) : (b.setKnot k v).stand = b.stand := rfl
@[simp] theorem Blk.setKnot_dsp (k : Nat) (v : Knot) : (b.setKnot k v).dsp = b.dsp := rfl
@[simp] theorem Blk.setKnot_sq (k : Nat) (v : Knot) : (b.setKnot k v).sq = b.sq := rfl
@[simp] theorem Blk.setKnot_eng (k : Nat) (v : Knot) : (b.setKnot k v).eng = b.eng := rfl
@[simp] theorem Blk.setKnot_mem (k : Nat) (v : Knot) : (b.setKnot k v).mem = b.mem := rfl
@[simp] theorem Blk.setKnot_ik (k : Nat) (v : Knot) : (b.setKnot k v).ik = b.ik := rfl
@[simp] theorem Blk.setKnot_pwr (k : Nat) (v : Knot) : (b.setKnot k v).pwr = b.pwr := rfl
@[simp] theorem Blk.setKnot_flt (k : Nat) (v : Knot) : (b.setKnot k v).flt = b.flt := rfl
@[simp] theorem Blk.setKnot_dbg (k : Nat) (v : Knot) : (b.setKnot k v).dbg = b.dbg := rfl
@[simp] theorem Blk.setKnot_trc (k : Nat) (v : Knot) : (b.setKnot k v).trc = b.trc := rfl

@[simp] theorem Blk.setEng_freeCtr (e : Nat) (v : Eng) : (b.setEng e v).freeCtr = b.freeCtr := rfl
@[simp] theorem Blk.setEng_ctlCycle (e : Nat) (v : Eng) : (b.setEng e v).ctlCycle = b.ctlCycle := rfl
@[simp] theorem Blk.setEng_host (e : Nat) (v : Eng) : (b.setEng e v).host = b.host := rfl
@[simp] theorem Blk.setEng_feat (e : Nat) (v : Eng) : (b.setEng e v).feat = b.feat := rfl
@[simp] theorem Blk.setEng_start (e : Nat) (v : Eng) : (b.setEng e v).start = b.start := rfl
@[simp] theorem Blk.setEng_patch (e : Nat) (v : Eng) : (b.setEng e v).patch = b.patch := rfl
@[simp] theorem Blk.setEng_wv (e : Nat) (v : Eng) : (b.setEng e v).wv = b.wv := rfl
@[simp] theorem Blk.setEng_qs (e : Nat) (v : Eng) : (b.setEng e v).qs = b.qs := rfl
@[simp] theorem Blk.setEng_kn (e : Nat) (v : Eng) : (b.setEng e v).kn = b.kn := rfl
@[simp] theorem Blk.setEng_sb (e : Nat) (v : Eng) : (b.setEng e v).sb = b.sb := rfl
@[simp] theorem Blk.setEng_stand (e : Nat) (v : Eng) : (b.setEng e v).stand = b.stand := rfl
@[simp] theorem Blk.setEng_dsp (e : Nat) (v : Eng) : (b.setEng e v).dsp = b.dsp := rfl
@[simp] theorem Blk.setEng_sq (e : Nat) (v : Eng) : (b.setEng e v).sq = b.sq := rfl
@[simp] theorem Blk.setEng_mem (e : Nat) (v : Eng) : (b.setEng e v).mem = b.mem := rfl
@[simp] theorem Blk.setEng_ik (e : Nat) (v : Eng) : (b.setEng e v).ik = b.ik := rfl
@[simp] theorem Blk.setEng_pwr (e : Nat) (v : Eng) : (b.setEng e v).pwr = b.pwr := rfl
@[simp] theorem Blk.setEng_flt (e : Nat) (v : Eng) : (b.setEng e v).flt = b.flt := rfl
@[simp] theorem Blk.setEng_dbg (e : Nat) (v : Eng) : (b.setEng e v).dbg = b.dbg := rfl
@[simp] theorem Blk.setEng_trc (e : Nat) (v : Eng) : (b.setEng e v).trc = b.trc := rfl

@[simp] theorem Blk.setSeq_freeCtr (i : Nat) (v : Seq) : (b.setSeq i v).freeCtr = b.freeCtr := rfl
@[simp] theorem Blk.setSeq_ctlCycle (i : Nat) (v : Seq) : (b.setSeq i v).ctlCycle = b.ctlCycle := rfl
@[simp] theorem Blk.setSeq_host (i : Nat) (v : Seq) : (b.setSeq i v).host = b.host := rfl
@[simp] theorem Blk.setSeq_feat (i : Nat) (v : Seq) : (b.setSeq i v).feat = b.feat := rfl
@[simp] theorem Blk.setSeq_start (i : Nat) (v : Seq) : (b.setSeq i v).start = b.start := rfl
@[simp] theorem Blk.setSeq_patch (i : Nat) (v : Seq) : (b.setSeq i v).patch = b.patch := rfl
@[simp] theorem Blk.setSeq_wv (i : Nat) (v : Seq) : (b.setSeq i v).wv = b.wv := rfl
@[simp] theorem Blk.setSeq_qs (i : Nat) (v : Seq) : (b.setSeq i v).qs = b.qs := rfl
@[simp] theorem Blk.setSeq_kn (i : Nat) (v : Seq) : (b.setSeq i v).kn = b.kn := rfl
@[simp] theorem Blk.setSeq_sb (i : Nat) (v : Seq) : (b.setSeq i v).sb = b.sb := rfl
@[simp] theorem Blk.setSeq_stand (i : Nat) (v : Seq) : (b.setSeq i v).stand = b.stand := rfl
@[simp] theorem Blk.setSeq_dsp (i : Nat) (v : Seq) : (b.setSeq i v).dsp = b.dsp := rfl
@[simp] theorem Blk.setSeq_eng (i : Nat) (v : Seq) : (b.setSeq i v).eng = b.eng := rfl
@[simp] theorem Blk.setSeq_mem (i : Nat) (v : Seq) : (b.setSeq i v).mem = b.mem := rfl
@[simp] theorem Blk.setSeq_ik (i : Nat) (v : Seq) : (b.setSeq i v).ik = b.ik := rfl
@[simp] theorem Blk.setSeq_pwr (i : Nat) (v : Seq) : (b.setSeq i v).pwr = b.pwr := rfl
@[simp] theorem Blk.setSeq_flt (i : Nat) (v : Seq) : (b.setSeq i v).flt = b.flt := rfl
@[simp] theorem Blk.setSeq_dbg (i : Nat) (v : Seq) : (b.setSeq i v).dbg = b.dbg := rfl
@[simp] theorem Blk.setSeq_trc (i : Nat) (v : Seq) : (b.setSeq i v).trc = b.trc := rfl

@[simp] theorem Blk.setPort_freeCtr (p : Nat) (v : MPort) : (b.setPort p v).freeCtr = b.freeCtr := rfl
@[simp] theorem Blk.setPort_ctlCycle (p : Nat) (v : MPort) : (b.setPort p v).ctlCycle = b.ctlCycle := rfl
@[simp] theorem Blk.setPort_host (p : Nat) (v : MPort) : (b.setPort p v).host = b.host := rfl
@[simp] theorem Blk.setPort_feat (p : Nat) (v : MPort) : (b.setPort p v).feat = b.feat := rfl
@[simp] theorem Blk.setPort_start (p : Nat) (v : MPort) : (b.setPort p v).start = b.start := rfl
@[simp] theorem Blk.setPort_patch (p : Nat) (v : MPort) : (b.setPort p v).patch = b.patch := rfl
@[simp] theorem Blk.setPort_wv (p : Nat) (v : MPort) : (b.setPort p v).wv = b.wv := rfl
@[simp] theorem Blk.setPort_qs (p : Nat) (v : MPort) : (b.setPort p v).qs = b.qs := rfl
@[simp] theorem Blk.setPort_kn (p : Nat) (v : MPort) : (b.setPort p v).kn = b.kn := rfl
@[simp] theorem Blk.setPort_sb (p : Nat) (v : MPort) : (b.setPort p v).sb = b.sb := rfl
@[simp] theorem Blk.setPort_stand (p : Nat) (v : MPort) : (b.setPort p v).stand = b.stand := rfl
@[simp] theorem Blk.setPort_dsp (p : Nat) (v : MPort) : (b.setPort p v).dsp = b.dsp := rfl
@[simp] theorem Blk.setPort_sq (p : Nat) (v : MPort) : (b.setPort p v).sq = b.sq := rfl
@[simp] theorem Blk.setPort_eng (p : Nat) (v : MPort) : (b.setPort p v).eng = b.eng := rfl
@[simp] theorem Blk.setPort_ik (p : Nat) (v : MPort) : (b.setPort p v).ik = b.ik := rfl
@[simp] theorem Blk.setPort_pwr (p : Nat) (v : MPort) : (b.setPort p v).pwr = b.pwr := rfl
@[simp] theorem Blk.setPort_flt (p : Nat) (v : MPort) : (b.setPort p v).flt = b.flt := rfl
@[simp] theorem Blk.setPort_dbg (p : Nat) (v : MPort) : (b.setPort p v).dbg = b.dbg := rfl
@[simp] theorem Blk.setPort_trc (p : Nat) (v : MPort) : (b.setPort p v).trc = b.trc := rfl

@[simp] theorem Blk.setIntake_freeCtr (p : Nat) (v : Intake) : (b.setIntake p v).freeCtr = b.freeCtr := rfl
@[simp] theorem Blk.setIntake_ctlCycle (p : Nat) (v : Intake) : (b.setIntake p v).ctlCycle = b.ctlCycle := rfl
@[simp] theorem Blk.setIntake_host (p : Nat) (v : Intake) : (b.setIntake p v).host = b.host := rfl
@[simp] theorem Blk.setIntake_feat (p : Nat) (v : Intake) : (b.setIntake p v).feat = b.feat := rfl
@[simp] theorem Blk.setIntake_start (p : Nat) (v : Intake) : (b.setIntake p v).start = b.start := rfl
@[simp] theorem Blk.setIntake_patch (p : Nat) (v : Intake) : (b.setIntake p v).patch = b.patch := rfl
@[simp] theorem Blk.setIntake_wv (p : Nat) (v : Intake) : (b.setIntake p v).wv = b.wv := rfl
@[simp] theorem Blk.setIntake_qs (p : Nat) (v : Intake) : (b.setIntake p v).qs = b.qs := rfl
@[simp] theorem Blk.setIntake_kn (p : Nat) (v : Intake) : (b.setIntake p v).kn = b.kn := rfl
@[simp] theorem Blk.setIntake_sb (p : Nat) (v : Intake) : (b.setIntake p v).sb = b.sb := rfl
@[simp] theorem Blk.setIntake_stand (p : Nat) (v : Intake) : (b.setIntake p v).stand = b.stand := rfl
@[simp] theorem Blk.setIntake_dsp (p : Nat) (v : Intake) : (b.setIntake p v).dsp = b.dsp := rfl
@[simp] theorem Blk.setIntake_sq (p : Nat) (v : Intake) : (b.setIntake p v).sq = b.sq := rfl
@[simp] theorem Blk.setIntake_eng (p : Nat) (v : Intake) : (b.setIntake p v).eng = b.eng := rfl
@[simp] theorem Blk.setIntake_mem (p : Nat) (v : Intake) : (b.setIntake p v).mem = b.mem := rfl
@[simp] theorem Blk.setIntake_pwr (p : Nat) (v : Intake) : (b.setIntake p v).pwr = b.pwr := rfl
@[simp] theorem Blk.setIntake_flt (p : Nat) (v : Intake) : (b.setIntake p v).flt = b.flt := rfl
@[simp] theorem Blk.setIntake_dbg (p : Nat) (v : Intake) : (b.setIntake p v).dbg = b.dbg := rfl
@[simp] theorem Blk.setIntake_trc (p : Nat) (v : Intake) : (b.setIntake p v).trc = b.trc := rfl

@[simp] theorem Blk.setSeat_freeCtr (i : Nat) (v : SeatRegs) : (b.setSeat i v).freeCtr = b.freeCtr := rfl
@[simp] theorem Blk.setSeat_ctlCycle (i : Nat) (v : SeatRegs) : (b.setSeat i v).ctlCycle = b.ctlCycle := rfl
@[simp] theorem Blk.setSeat_feat (i : Nat) (v : SeatRegs) : (b.setSeat i v).feat = b.feat := rfl
@[simp] theorem Blk.setSeat_start (i : Nat) (v : SeatRegs) : (b.setSeat i v).start = b.start := rfl
@[simp] theorem Blk.setSeat_patch (i : Nat) (v : SeatRegs) : (b.setSeat i v).patch = b.patch := rfl
@[simp] theorem Blk.setSeat_wv (i : Nat) (v : SeatRegs) : (b.setSeat i v).wv = b.wv := rfl
@[simp] theorem Blk.setSeat_qs (i : Nat) (v : SeatRegs) : (b.setSeat i v).qs = b.qs := rfl
@[simp] theorem Blk.setSeat_kn (i : Nat) (v : SeatRegs) : (b.setSeat i v).kn = b.kn := rfl
@[simp] theorem Blk.setSeat_sb (i : Nat) (v : SeatRegs) : (b.setSeat i v).sb = b.sb := rfl
@[simp] theorem Blk.setSeat_stand (i : Nat) (v : SeatRegs) : (b.setSeat i v).stand = b.stand := rfl
@[simp] theorem Blk.setSeat_dsp (i : Nat) (v : SeatRegs) : (b.setSeat i v).dsp = b.dsp := rfl
@[simp] theorem Blk.setSeat_sq (i : Nat) (v : SeatRegs) : (b.setSeat i v).sq = b.sq := rfl
@[simp] theorem Blk.setSeat_eng (i : Nat) (v : SeatRegs) : (b.setSeat i v).eng = b.eng := rfl
@[simp] theorem Blk.setSeat_mem (i : Nat) (v : SeatRegs) : (b.setSeat i v).mem = b.mem := rfl
@[simp] theorem Blk.setSeat_ik (i : Nat) (v : SeatRegs) : (b.setSeat i v).ik = b.ik := rfl
@[simp] theorem Blk.setSeat_pwr (i : Nat) (v : SeatRegs) : (b.setSeat i v).pwr = b.pwr := rfl
@[simp] theorem Blk.setSeat_flt (i : Nat) (v : SeatRegs) : (b.setSeat i v).flt = b.flt := rfl
@[simp] theorem Blk.setSeat_dbg (i : Nat) (v : SeatRegs) : (b.setSeat i v).dbg = b.dbg := rfl
@[simp] theorem Blk.setSeat_trc (i : Nat) (v : SeatRegs) : (b.setSeat i v).trc = b.trc := rfl

@[simp] theorem Blk.setTieRegs_freeCtr (i : Nat) (v : TieRegs) : (b.setTieRegs i v).freeCtr = b.freeCtr := rfl
@[simp] theorem Blk.setTieRegs_ctlCycle (i : Nat) (v : TieRegs) : (b.setTieRegs i v).ctlCycle = b.ctlCycle := rfl
@[simp] theorem Blk.setTieRegs_feat (i : Nat) (v : TieRegs) : (b.setTieRegs i v).feat = b.feat := rfl
@[simp] theorem Blk.setTieRegs_start (i : Nat) (v : TieRegs) : (b.setTieRegs i v).start = b.start := rfl
@[simp] theorem Blk.setTieRegs_patch (i : Nat) (v : TieRegs) : (b.setTieRegs i v).patch = b.patch := rfl
@[simp] theorem Blk.setTieRegs_wv (i : Nat) (v : TieRegs) : (b.setTieRegs i v).wv = b.wv := rfl
@[simp] theorem Blk.setTieRegs_qs (i : Nat) (v : TieRegs) : (b.setTieRegs i v).qs = b.qs := rfl
@[simp] theorem Blk.setTieRegs_kn (i : Nat) (v : TieRegs) : (b.setTieRegs i v).kn = b.kn := rfl
@[simp] theorem Blk.setTieRegs_sb (i : Nat) (v : TieRegs) : (b.setTieRegs i v).sb = b.sb := rfl
@[simp] theorem Blk.setTieRegs_stand (i : Nat) (v : TieRegs) : (b.setTieRegs i v).stand = b.stand := rfl
@[simp] theorem Blk.setTieRegs_dsp (i : Nat) (v : TieRegs) : (b.setTieRegs i v).dsp = b.dsp := rfl
@[simp] theorem Blk.setTieRegs_sq (i : Nat) (v : TieRegs) : (b.setTieRegs i v).sq = b.sq := rfl
@[simp] theorem Blk.setTieRegs_eng (i : Nat) (v : TieRegs) : (b.setTieRegs i v).eng = b.eng := rfl
@[simp] theorem Blk.setTieRegs_mem (i : Nat) (v : TieRegs) : (b.setTieRegs i v).mem = b.mem := rfl
@[simp] theorem Blk.setTieRegs_ik (i : Nat) (v : TieRegs) : (b.setTieRegs i v).ik = b.ik := rfl
@[simp] theorem Blk.setTieRegs_pwr (i : Nat) (v : TieRegs) : (b.setTieRegs i v).pwr = b.pwr := rfl
@[simp] theorem Blk.setTieRegs_flt (i : Nat) (v : TieRegs) : (b.setTieRegs i v).flt = b.flt := rfl
@[simp] theorem Blk.setTieRegs_dbg (i : Nat) (v : TieRegs) : (b.setTieRegs i v).dbg = b.dbg := rfl
@[simp] theorem Blk.setTieRegs_trc (i : Nat) (v : TieRegs) : (b.setTieRegs i v).trc = b.trc := rfl

@[simp] theorem Blk.setRing_freeCtr (r : Nat) (v : TraceRing) : (b.setRing r v).freeCtr = b.freeCtr := rfl
@[simp] theorem Blk.setRing_ctlCycle (r : Nat) (v : TraceRing) : (b.setRing r v).ctlCycle = b.ctlCycle := rfl
@[simp] theorem Blk.setRing_host (r : Nat) (v : TraceRing) : (b.setRing r v).host = b.host := rfl
@[simp] theorem Blk.setRing_feat (r : Nat) (v : TraceRing) : (b.setRing r v).feat = b.feat := rfl
@[simp] theorem Blk.setRing_start (r : Nat) (v : TraceRing) : (b.setRing r v).start = b.start := rfl
@[simp] theorem Blk.setRing_patch (r : Nat) (v : TraceRing) : (b.setRing r v).patch = b.patch := rfl
@[simp] theorem Blk.setRing_wv (r : Nat) (v : TraceRing) : (b.setRing r v).wv = b.wv := rfl
@[simp] theorem Blk.setRing_qs (r : Nat) (v : TraceRing) : (b.setRing r v).qs = b.qs := rfl
@[simp] theorem Blk.setRing_kn (r : Nat) (v : TraceRing) : (b.setRing r v).kn = b.kn := rfl
@[simp] theorem Blk.setRing_sb (r : Nat) (v : TraceRing) : (b.setRing r v).sb = b.sb := rfl
@[simp] theorem Blk.setRing_stand (r : Nat) (v : TraceRing) : (b.setRing r v).stand = b.stand := rfl
@[simp] theorem Blk.setRing_dsp (r : Nat) (v : TraceRing) : (b.setRing r v).dsp = b.dsp := rfl
@[simp] theorem Blk.setRing_sq (r : Nat) (v : TraceRing) : (b.setRing r v).sq = b.sq := rfl
@[simp] theorem Blk.setRing_eng (r : Nat) (v : TraceRing) : (b.setRing r v).eng = b.eng := rfl
@[simp] theorem Blk.setRing_mem (r : Nat) (v : TraceRing) : (b.setRing r v).mem = b.mem := rfl
@[simp] theorem Blk.setRing_ik (r : Nat) (v : TraceRing) : (b.setRing r v).ik = b.ik := rfl
@[simp] theorem Blk.setRing_pwr (r : Nat) (v : TraceRing) : (b.setRing r v).pwr = b.pwr := rfl
@[simp] theorem Blk.setRing_flt (r : Nat) (v : TraceRing) : (b.setRing r v).flt = b.flt := rfl
@[simp] theorem Blk.setRing_dbg (r : Nat) (v : TraceRing) : (b.setRing r v).dbg = b.dbg := rfl

@[simp] theorem Blk.bump_freeCtr (key n : Nat) : (b.bump key n).freeCtr = b.freeCtr := rfl
@[simp] theorem Blk.bump_ctlCycle (key n : Nat) : (b.bump key n).ctlCycle = b.ctlCycle := rfl
@[simp] theorem Blk.bump_host (key n : Nat) : (b.bump key n).host = b.host := rfl
@[simp] theorem Blk.bump_feat (key n : Nat) : (b.bump key n).feat = b.feat := rfl
@[simp] theorem Blk.bump_start (key n : Nat) : (b.bump key n).start = b.start := rfl
@[simp] theorem Blk.bump_patch (key n : Nat) : (b.bump key n).patch = b.patch := rfl
@[simp] theorem Blk.bump_wv (key n : Nat) : (b.bump key n).wv = b.wv := rfl
@[simp] theorem Blk.bump_qs (key n : Nat) : (b.bump key n).qs = b.qs := rfl
@[simp] theorem Blk.bump_kn (key n : Nat) : (b.bump key n).kn = b.kn := rfl
@[simp] theorem Blk.bump_sb (key n : Nat) : (b.bump key n).sb = b.sb := rfl
@[simp] theorem Blk.bump_stand (key n : Nat) : (b.bump key n).stand = b.stand := rfl
@[simp] theorem Blk.bump_dsp (key n : Nat) : (b.bump key n).dsp = b.dsp := rfl
@[simp] theorem Blk.bump_sq (key n : Nat) : (b.bump key n).sq = b.sq := rfl
@[simp] theorem Blk.bump_eng (key n : Nat) : (b.bump key n).eng = b.eng := rfl
@[simp] theorem Blk.bump_mem (key n : Nat) : (b.bump key n).mem = b.mem := rfl
@[simp] theorem Blk.bump_ik (key n : Nat) : (b.bump key n).ik = b.ik := rfl
@[simp] theorem Blk.bump_pwr (key n : Nat) : (b.bump key n).pwr = b.pwr := rfl
@[simp] theorem Blk.bump_flt (key n : Nat) : (b.bump key n).flt = b.flt := rfl
@[simp] theorem Blk.bump_dbg (key n : Nat) : (b.bump key n).dbg = b.dbg := rfl

@[simp] theorem Blk.bumpAll_freeCtr (ev arg : Nat) : (b.bumpAll ev arg).freeCtr = b.freeCtr := rfl
@[simp] theorem Blk.bumpAll_ctlCycle (ev arg : Nat) : (b.bumpAll ev arg).ctlCycle = b.ctlCycle := rfl
@[simp] theorem Blk.bumpAll_host (ev arg : Nat) : (b.bumpAll ev arg).host = b.host := rfl
@[simp] theorem Blk.bumpAll_feat (ev arg : Nat) : (b.bumpAll ev arg).feat = b.feat := rfl
@[simp] theorem Blk.bumpAll_start (ev arg : Nat) : (b.bumpAll ev arg).start = b.start := rfl
@[simp] theorem Blk.bumpAll_patch (ev arg : Nat) : (b.bumpAll ev arg).patch = b.patch := rfl
@[simp] theorem Blk.bumpAll_wv (ev arg : Nat) : (b.bumpAll ev arg).wv = b.wv := rfl
@[simp] theorem Blk.bumpAll_qs (ev arg : Nat) : (b.bumpAll ev arg).qs = b.qs := rfl
@[simp] theorem Blk.bumpAll_kn (ev arg : Nat) : (b.bumpAll ev arg).kn = b.kn := rfl
@[simp] theorem Blk.bumpAll_sb (ev arg : Nat) : (b.bumpAll ev arg).sb = b.sb := rfl
@[simp] theorem Blk.bumpAll_stand (ev arg : Nat) : (b.bumpAll ev arg).stand = b.stand := rfl
@[simp] theorem Blk.bumpAll_dsp (ev arg : Nat) : (b.bumpAll ev arg).dsp = b.dsp := rfl
@[simp] theorem Blk.bumpAll_sq (ev arg : Nat) : (b.bumpAll ev arg).sq = b.sq := rfl
@[simp] theorem Blk.bumpAll_eng (ev arg : Nat) : (b.bumpAll ev arg).eng = b.eng := rfl
@[simp] theorem Blk.bumpAll_mem (ev arg : Nat) : (b.bumpAll ev arg).mem = b.mem := rfl
@[simp] theorem Blk.bumpAll_ik (ev arg : Nat) : (b.bumpAll ev arg).ik = b.ik := rfl
@[simp] theorem Blk.bumpAll_pwr (ev arg : Nat) : (b.bumpAll ev arg).pwr = b.pwr := rfl
@[simp] theorem Blk.bumpAll_flt (ev arg : Nat) : (b.bumpAll ev arg).flt = b.flt := rfl
@[simp] theorem Blk.bumpAll_dbg (ev arg : Nat) : (b.bumpAll ev arg).dbg = b.dbg := rfl

@[simp] theorem Blk.staleMsg_freeCtr : b.staleMsg.freeCtr = b.freeCtr := rfl
@[simp] theorem Blk.staleMsg_ctlCycle : b.staleMsg.ctlCycle = b.ctlCycle := rfl
@[simp] theorem Blk.staleMsg_host : b.staleMsg.host = b.host := rfl
@[simp] theorem Blk.staleMsg_feat : b.staleMsg.feat = b.feat := rfl
@[simp] theorem Blk.staleMsg_start : b.staleMsg.start = b.start := rfl
@[simp] theorem Blk.staleMsg_patch : b.staleMsg.patch = b.patch := rfl
@[simp] theorem Blk.staleMsg_qs : b.staleMsg.qs = b.qs := rfl
@[simp] theorem Blk.staleMsg_kn : b.staleMsg.kn = b.kn := rfl
@[simp] theorem Blk.staleMsg_sb : b.staleMsg.sb = b.sb := rfl
@[simp] theorem Blk.staleMsg_stand : b.staleMsg.stand = b.stand := rfl
@[simp] theorem Blk.staleMsg_dsp : b.staleMsg.dsp = b.dsp := rfl
@[simp] theorem Blk.staleMsg_sq : b.staleMsg.sq = b.sq := rfl
@[simp] theorem Blk.staleMsg_eng : b.staleMsg.eng = b.eng := rfl
@[simp] theorem Blk.staleMsg_mem : b.staleMsg.mem = b.mem := rfl
@[simp] theorem Blk.staleMsg_ik : b.staleMsg.ik = b.ik := rfl
@[simp] theorem Blk.staleMsg_pwr : b.staleMsg.pwr = b.pwr := rfl
@[simp] theorem Blk.staleMsg_flt : b.staleMsg.flt = b.flt := rfl
@[simp] theorem Blk.staleMsg_dbg : b.staleMsg.dbg = b.dbg := rfl
@[simp] theorem Blk.staleMsg_trc : b.staleMsg.trc = b.trc := rfl

@[simp] theorem Blk.send_freeCtr (m : Instr) : (Blk.send m b).freeCtr = b.freeCtr := rfl
@[simp] theorem Blk.send_ctlCycle (m : Instr) : (Blk.send m b).ctlCycle = b.ctlCycle := rfl
@[simp] theorem Blk.send_host (m : Instr) : (Blk.send m b).host = b.host := rfl
@[simp] theorem Blk.send_feat (m : Instr) : (Blk.send m b).feat = b.feat := rfl
@[simp] theorem Blk.send_start (m : Instr) : (Blk.send m b).start = b.start := rfl
@[simp] theorem Blk.send_patch (m : Instr) : (Blk.send m b).patch = b.patch := rfl
@[simp] theorem Blk.send_wv (m : Instr) : (Blk.send m b).wv = b.wv := rfl
@[simp] theorem Blk.send_qs (m : Instr) : (Blk.send m b).qs = b.qs := rfl
@[simp] theorem Blk.send_kn (m : Instr) : (Blk.send m b).kn = b.kn := rfl
@[simp] theorem Blk.send_sb (m : Instr) : (Blk.send m b).sb = b.sb := rfl
@[simp] theorem Blk.send_stand (m : Instr) : (Blk.send m b).stand = b.stand := rfl
@[simp] theorem Blk.send_dsp (m : Instr) : (Blk.send m b).dsp = b.dsp := rfl
@[simp] theorem Blk.send_sq (m : Instr) : (Blk.send m b).sq = b.sq := rfl
@[simp] theorem Blk.send_eng (m : Instr) : (Blk.send m b).eng = b.eng := rfl
@[simp] theorem Blk.send_ik (m : Instr) : (Blk.send m b).ik = b.ik := rfl
@[simp] theorem Blk.send_pwr (m : Instr) : (Blk.send m b).pwr = b.pwr := rfl
@[simp] theorem Blk.send_flt (m : Instr) : (Blk.send m b).flt = b.flt := rfl
@[simp] theorem Blk.send_dbg (m : Instr) : (Blk.send m b).dbg = b.dbg := rfl
@[simp] theorem Blk.send_trc_sel (m : Instr) : (Blk.send m b).trc.sel = b.trc.sel := rfl
@[simp] theorem Blk.send_trc_base (m : Instr) : (Blk.send m b).trc.base = b.trc.base := rfl
@[simp] theorem Blk.send_trc_ctl (m : Instr) : (Blk.send m b).trc.ctl = b.trc.ctl := rfl
@[simp] theorem Blk.send_trc_interval (m : Instr) : (Blk.send m b).trc.interval = b.trc.interval := rfl
@[simp] theorem Blk.send_trc_cntSel (m : Instr) : (Blk.send m b).trc.cntSel = b.trc.cntSel := rfl
@[simp] theorem Blk.send_trc_caddy (m : Instr) : (Blk.send m b).trc.caddy = b.trc.caddy := rfl
@[simp] theorem Blk.send_trc_rings (m : Instr) : (Blk.send m b).trc.rings = b.trc.rings := rfl
@[simp] theorem Blk.send_ring (m : Instr) : (Blk.send m b).mem.ring = b.mem.ring ++ [m] := rfl

@[simp] theorem Blk.arrived_freeCtr (m : Instr) : (Blk.arrived m b).freeCtr = b.freeCtr := rfl
@[simp] theorem Blk.arrived_ctlCycle (m : Instr) : (Blk.arrived m b).ctlCycle = b.ctlCycle := rfl
@[simp] theorem Blk.arrived_host (m : Instr) : (Blk.arrived m b).host = b.host := rfl
@[simp] theorem Blk.arrived_feat (m : Instr) : (Blk.arrived m b).feat = b.feat := rfl
@[simp] theorem Blk.arrived_start (m : Instr) : (Blk.arrived m b).start = b.start := rfl
@[simp] theorem Blk.arrived_patch (m : Instr) : (Blk.arrived m b).patch = b.patch := rfl
@[simp] theorem Blk.arrived_wv (m : Instr) : (Blk.arrived m b).wv = b.wv := rfl
@[simp] theorem Blk.arrived_qs (m : Instr) : (Blk.arrived m b).qs = b.qs := rfl
@[simp] theorem Blk.arrived_kn (m : Instr) : (Blk.arrived m b).kn = b.kn := rfl
@[simp] theorem Blk.arrived_sb (m : Instr) : (Blk.arrived m b).sb = b.sb := rfl
@[simp] theorem Blk.arrived_stand (m : Instr) : (Blk.arrived m b).stand = b.stand := rfl
@[simp] theorem Blk.arrived_dsp (m : Instr) : (Blk.arrived m b).dsp = b.dsp := rfl
@[simp] theorem Blk.arrived_sq (m : Instr) : (Blk.arrived m b).sq = b.sq := rfl
@[simp] theorem Blk.arrived_eng (m : Instr) : (Blk.arrived m b).eng = b.eng := rfl
@[simp] theorem Blk.arrived_ik (m : Instr) : (Blk.arrived m b).ik = b.ik := rfl
@[simp] theorem Blk.arrived_pwr (m : Instr) : (Blk.arrived m b).pwr = b.pwr := rfl
@[simp] theorem Blk.arrived_flt (m : Instr) : (Blk.arrived m b).flt = b.flt := rfl
@[simp] theorem Blk.arrived_dbg (m : Instr) : (Blk.arrived m b).dbg = b.dbg := rfl
@[simp] theorem Blk.arrived_trc (m : Instr) : (Blk.arrived m b).trc = b.trc := rfl

@[simp] theorem Blk.respond_freeCtr (i : Seat) (w : Bool) (d : W32) : (Blk.respond i w d b).freeCtr = b.freeCtr := rfl
@[simp] theorem Blk.respond_ctlCycle (i : Seat) (w : Bool) (d : W32) : (Blk.respond i w d b).ctlCycle = b.ctlCycle := rfl
@[simp] theorem Blk.respond_feat (i : Seat) (w : Bool) (d : W32) : (Blk.respond i w d b).feat = b.feat := rfl
@[simp] theorem Blk.respond_start (i : Seat) (w : Bool) (d : W32) : (Blk.respond i w d b).start = b.start := rfl
@[simp] theorem Blk.respond_patch (i : Seat) (w : Bool) (d : W32) : (Blk.respond i w d b).patch = b.patch := rfl
@[simp] theorem Blk.respond_wv (i : Seat) (w : Bool) (d : W32) : (Blk.respond i w d b).wv = b.wv := rfl
@[simp] theorem Blk.respond_qs (i : Seat) (w : Bool) (d : W32) : (Blk.respond i w d b).qs = b.qs := rfl
@[simp] theorem Blk.respond_kn (i : Seat) (w : Bool) (d : W32) : (Blk.respond i w d b).kn = b.kn := rfl
@[simp] theorem Blk.respond_sb (i : Seat) (w : Bool) (d : W32) : (Blk.respond i w d b).sb = b.sb := rfl
@[simp] theorem Blk.respond_stand (i : Seat) (w : Bool) (d : W32) : (Blk.respond i w d b).stand = b.stand := rfl
@[simp] theorem Blk.respond_dsp (i : Seat) (w : Bool) (d : W32) : (Blk.respond i w d b).dsp = b.dsp := rfl
@[simp] theorem Blk.respond_sq (i : Seat) (w : Bool) (d : W32) : (Blk.respond i w d b).sq = b.sq := rfl
@[simp] theorem Blk.respond_eng (i : Seat) (w : Bool) (d : W32) : (Blk.respond i w d b).eng = b.eng := rfl
@[simp] theorem Blk.respond_mem (i : Seat) (w : Bool) (d : W32) : (Blk.respond i w d b).mem = b.mem := rfl
@[simp] theorem Blk.respond_ik (i : Seat) (w : Bool) (d : W32) : (Blk.respond i w d b).ik = b.ik := rfl
@[simp] theorem Blk.respond_pwr (i : Seat) (w : Bool) (d : W32) : (Blk.respond i w d b).pwr = b.pwr := rfl
@[simp] theorem Blk.respond_flt (i : Seat) (w : Bool) (d : W32) : (Blk.respond i w d b).flt = b.flt := rfl
@[simp] theorem Blk.respond_dbg (i : Seat) (w : Bool) (d : W32) : (Blk.respond i w d b).dbg = b.dbg := rfl
@[simp] theorem Blk.respond_trc (i : Seat) (w : Bool) (d : W32) : (Blk.respond i w d b).trc = b.trc := rfl

@[simp] theorem Blk.freshResp_freeCtr : b.freshResp.freeCtr = b.freeCtr := rfl
@[simp] theorem Blk.freshResp_ctlCycle : b.freshResp.ctlCycle = b.ctlCycle := rfl
@[simp] theorem Blk.freshResp_feat : b.freshResp.feat = b.feat := rfl
@[simp] theorem Blk.freshResp_start : b.freshResp.start = b.start := rfl
@[simp] theorem Blk.freshResp_patch : b.freshResp.patch = b.patch := rfl
@[simp] theorem Blk.freshResp_wv : b.freshResp.wv = b.wv := rfl
@[simp] theorem Blk.freshResp_qs : b.freshResp.qs = b.qs := rfl
@[simp] theorem Blk.freshResp_kn : b.freshResp.kn = b.kn := rfl
@[simp] theorem Blk.freshResp_sb : b.freshResp.sb = b.sb := rfl
@[simp] theorem Blk.freshResp_stand : b.freshResp.stand = b.stand := rfl
@[simp] theorem Blk.freshResp_dsp : b.freshResp.dsp = b.dsp := rfl
@[simp] theorem Blk.freshResp_sq : b.freshResp.sq = b.sq := rfl
@[simp] theorem Blk.freshResp_eng : b.freshResp.eng = b.eng := rfl
@[simp] theorem Blk.freshResp_mem : b.freshResp.mem = b.mem := rfl
@[simp] theorem Blk.freshResp_ik : b.freshResp.ik = b.ik := rfl
@[simp] theorem Blk.freshResp_pwr : b.freshResp.pwr = b.pwr := rfl
@[simp] theorem Blk.freshResp_flt : b.freshResp.flt = b.flt := rfl
@[simp] theorem Blk.freshResp_dbg : b.freshResp.dbg = b.dbg := rfl
@[simp] theorem Blk.freshResp_trc : b.freshResp.trc = b.trc := rfl

@[simp] theorem Blk.refuse_freeCtr (a : Acc) (ad : BitVec 22) (w : Bool) (k : BitVec 2) : (Blk.refuse a ad w k b).freeCtr = b.freeCtr := rfl
@[simp] theorem Blk.refuse_ctlCycle (a : Acc) (ad : BitVec 22) (w : Bool) (k : BitVec 2) : (Blk.refuse a ad w k b).ctlCycle = b.ctlCycle := rfl
@[simp] theorem Blk.refuse_feat (a : Acc) (ad : BitVec 22) (w : Bool) (k : BitVec 2) : (Blk.refuse a ad w k b).feat = b.feat := rfl
@[simp] theorem Blk.refuse_start (a : Acc) (ad : BitVec 22) (w : Bool) (k : BitVec 2) : (Blk.refuse a ad w k b).start = b.start := rfl
@[simp] theorem Blk.refuse_patch (a : Acc) (ad : BitVec 22) (w : Bool) (k : BitVec 2) : (Blk.refuse a ad w k b).patch = b.patch := rfl
@[simp] theorem Blk.refuse_wv (a : Acc) (ad : BitVec 22) (w : Bool) (k : BitVec 2) : (Blk.refuse a ad w k b).wv = b.wv := rfl
@[simp] theorem Blk.refuse_qs (a : Acc) (ad : BitVec 22) (w : Bool) (k : BitVec 2) : (Blk.refuse a ad w k b).qs = b.qs := rfl
@[simp] theorem Blk.refuse_kn (a : Acc) (ad : BitVec 22) (w : Bool) (k : BitVec 2) : (Blk.refuse a ad w k b).kn = b.kn := rfl
@[simp] theorem Blk.refuse_sb (a : Acc) (ad : BitVec 22) (w : Bool) (k : BitVec 2) : (Blk.refuse a ad w k b).sb = b.sb := rfl
@[simp] theorem Blk.refuse_stand (a : Acc) (ad : BitVec 22) (w : Bool) (k : BitVec 2) : (Blk.refuse a ad w k b).stand = b.stand := rfl
@[simp] theorem Blk.refuse_dsp (a : Acc) (ad : BitVec 22) (w : Bool) (k : BitVec 2) : (Blk.refuse a ad w k b).dsp = b.dsp := rfl
@[simp] theorem Blk.refuse_sq (a : Acc) (ad : BitVec 22) (w : Bool) (k : BitVec 2) : (Blk.refuse a ad w k b).sq = b.sq := rfl
@[simp] theorem Blk.refuse_eng (a : Acc) (ad : BitVec 22) (w : Bool) (k : BitVec 2) : (Blk.refuse a ad w k b).eng = b.eng := rfl
@[simp] theorem Blk.refuse_mem (a : Acc) (ad : BitVec 22) (w : Bool) (k : BitVec 2) : (Blk.refuse a ad w k b).mem = b.mem := rfl
@[simp] theorem Blk.refuse_ik (a : Acc) (ad : BitVec 22) (w : Bool) (k : BitVec 2) : (Blk.refuse a ad w k b).ik = b.ik := rfl
@[simp] theorem Blk.refuse_pwr (a : Acc) (ad : BitVec 22) (w : Bool) (k : BitVec 2) : (Blk.refuse a ad w k b).pwr = b.pwr := rfl
@[simp] theorem Blk.refuse_flt (a : Acc) (ad : BitVec 22) (w : Bool) (k : BitVec 2) : (Blk.refuse a ad w k b).flt = b.flt := rfl
@[simp] theorem Blk.refuse_dbg (a : Acc) (ad : BitVec 22) (w : Bool) (k : BitVec 2) : (Blk.refuse a ad w k b).dbg = b.dbg := rfl
@[simp] theorem Blk.refuse_trc (a : Acc) (ad : BitVec 22) (w : Bool) (k : BitVec 2) : (Blk.refuse a ad w k b).trc = b.trc := rfl

@[simp] theorem Blk.queErr_freeCtr (q : Nat) (c : W8) : (b.queErr q c).freeCtr = b.freeCtr := rfl
@[simp] theorem Blk.queErr_ctlCycle (q : Nat) (c : W8) : (b.queErr q c).ctlCycle = b.ctlCycle := rfl
@[simp] theorem Blk.queErr_host (q : Nat) (c : W8) : (b.queErr q c).host = b.host := rfl
@[simp] theorem Blk.queErr_feat (q : Nat) (c : W8) : (b.queErr q c).feat = b.feat := rfl
@[simp] theorem Blk.queErr_start (q : Nat) (c : W8) : (b.queErr q c).start = b.start := rfl
@[simp] theorem Blk.queErr_patch (q : Nat) (c : W8) : (b.queErr q c).patch = b.patch := rfl
@[simp] theorem Blk.queErr_wv (q : Nat) (c : W8) : (b.queErr q c).wv = b.wv := rfl
@[simp] theorem Blk.queErr_kn (q : Nat) (c : W8) : (b.queErr q c).kn = b.kn := rfl
@[simp] theorem Blk.queErr_sb (q : Nat) (c : W8) : (b.queErr q c).sb = b.sb := rfl
@[simp] theorem Blk.queErr_stand (q : Nat) (c : W8) : (b.queErr q c).stand = b.stand := rfl
@[simp] theorem Blk.queErr_dsp (q : Nat) (c : W8) : (b.queErr q c).dsp = b.dsp := rfl
@[simp] theorem Blk.queErr_sq (q : Nat) (c : W8) : (b.queErr q c).sq = b.sq := rfl
@[simp] theorem Blk.queErr_eng (q : Nat) (c : W8) : (b.queErr q c).eng = b.eng := rfl
@[simp] theorem Blk.queErr_mem (q : Nat) (c : W8) : (b.queErr q c).mem = b.mem := rfl
@[simp] theorem Blk.queErr_ik (q : Nat) (c : W8) : (b.queErr q c).ik = b.ik := rfl
@[simp] theorem Blk.queErr_pwr (q : Nat) (c : W8) : (b.queErr q c).pwr = b.pwr := rfl
@[simp] theorem Blk.queErr_flt (q : Nat) (c : W8) : (b.queErr q c).flt = b.flt := rfl
@[simp] theorem Blk.queErr_dbg (q : Nat) (c : W8) : (b.queErr q c).dbg = b.dbg := rfl
@[simp] theorem Blk.queErr_trc (q : Nat) (c : W8) : (b.queErr q c).trc = b.trc := rfl

@[simp] theorem Blk.setSeatLog_freeCtr (i : Nat) (v : SeatLog) : (b.setSeatLog i v).freeCtr = b.freeCtr := rfl
@[simp] theorem Blk.setSeatLog_ctlCycle (i : Nat) (v : SeatLog) : (b.setSeatLog i v).ctlCycle = b.ctlCycle := rfl
@[simp] theorem Blk.setSeatLog_host (i : Nat) (v : SeatLog) : (b.setSeatLog i v).host = b.host := rfl
@[simp] theorem Blk.setSeatLog_feat (i : Nat) (v : SeatLog) : (b.setSeatLog i v).feat = b.feat := rfl
@[simp] theorem Blk.setSeatLog_start (i : Nat) (v : SeatLog) : (b.setSeatLog i v).start = b.start := rfl
@[simp] theorem Blk.setSeatLog_patch (i : Nat) (v : SeatLog) : (b.setSeatLog i v).patch = b.patch := rfl
@[simp] theorem Blk.setSeatLog_wv (i : Nat) (v : SeatLog) : (b.setSeatLog i v).wv = b.wv := rfl
@[simp] theorem Blk.setSeatLog_qs (i : Nat) (v : SeatLog) : (b.setSeatLog i v).qs = b.qs := rfl
@[simp] theorem Blk.setSeatLog_kn (i : Nat) (v : SeatLog) : (b.setSeatLog i v).kn = b.kn := rfl
@[simp] theorem Blk.setSeatLog_sb (i : Nat) (v : SeatLog) : (b.setSeatLog i v).sb = b.sb := rfl
@[simp] theorem Blk.setSeatLog_stand (i : Nat) (v : SeatLog) : (b.setSeatLog i v).stand = b.stand := rfl
@[simp] theorem Blk.setSeatLog_dsp (i : Nat) (v : SeatLog) : (b.setSeatLog i v).dsp = b.dsp := rfl
@[simp] theorem Blk.setSeatLog_sq (i : Nat) (v : SeatLog) : (b.setSeatLog i v).sq = b.sq := rfl
@[simp] theorem Blk.setSeatLog_eng (i : Nat) (v : SeatLog) : (b.setSeatLog i v).eng = b.eng := rfl
@[simp] theorem Blk.setSeatLog_mem (i : Nat) (v : SeatLog) : (b.setSeatLog i v).mem = b.mem := rfl
@[simp] theorem Blk.setSeatLog_ik (i : Nat) (v : SeatLog) : (b.setSeatLog i v).ik = b.ik := rfl
@[simp] theorem Blk.setSeatLog_pwr (i : Nat) (v : SeatLog) : (b.setSeatLog i v).pwr = b.pwr := rfl
@[simp] theorem Blk.setSeatLog_dbg (i : Nat) (v : SeatLog) : (b.setSeatLog i v).dbg = b.dbg := rfl
@[simp] theorem Blk.setSeatLog_trc (i : Nat) (v : SeatLog) : (b.setSeatLog i v).trc = b.trc := rfl

@[simp] theorem Blk.modEntry_freeCtr (q n : Nat) (f : SbEntry → SbEntry) : (b.modEntry q n f).freeCtr = b.freeCtr := rfl
@[simp] theorem Blk.modEntry_ctlCycle (q n : Nat) (f : SbEntry → SbEntry) : (b.modEntry q n f).ctlCycle = b.ctlCycle := rfl
@[simp] theorem Blk.modEntry_host (q n : Nat) (f : SbEntry → SbEntry) : (b.modEntry q n f).host = b.host := rfl
@[simp] theorem Blk.modEntry_feat (q n : Nat) (f : SbEntry → SbEntry) : (b.modEntry q n f).feat = b.feat := rfl
@[simp] theorem Blk.modEntry_start (q n : Nat) (f : SbEntry → SbEntry) : (b.modEntry q n f).start = b.start := rfl
@[simp] theorem Blk.modEntry_patch (q n : Nat) (f : SbEntry → SbEntry) : (b.modEntry q n f).patch = b.patch := rfl
@[simp] theorem Blk.modEntry_wv (q n : Nat) (f : SbEntry → SbEntry) : (b.modEntry q n f).wv = b.wv := rfl
@[simp] theorem Blk.modEntry_qs (q n : Nat) (f : SbEntry → SbEntry) : (b.modEntry q n f).qs = b.qs := rfl
@[simp] theorem Blk.modEntry_kn (q n : Nat) (f : SbEntry → SbEntry) : (b.modEntry q n f).kn = b.kn := rfl
@[simp] theorem Blk.modEntry_stand (q n : Nat) (f : SbEntry → SbEntry) : (b.modEntry q n f).stand = b.stand := rfl
@[simp] theorem Blk.modEntry_dsp (q n : Nat) (f : SbEntry → SbEntry) : (b.modEntry q n f).dsp = b.dsp := rfl
@[simp] theorem Blk.modEntry_sq (q n : Nat) (f : SbEntry → SbEntry) : (b.modEntry q n f).sq = b.sq := rfl
@[simp] theorem Blk.modEntry_eng (q n : Nat) (f : SbEntry → SbEntry) : (b.modEntry q n f).eng = b.eng := rfl
@[simp] theorem Blk.modEntry_mem (q n : Nat) (f : SbEntry → SbEntry) : (b.modEntry q n f).mem = b.mem := rfl
@[simp] theorem Blk.modEntry_ik (q n : Nat) (f : SbEntry → SbEntry) : (b.modEntry q n f).ik = b.ik := rfl
@[simp] theorem Blk.modEntry_pwr (q n : Nat) (f : SbEntry → SbEntry) : (b.modEntry q n f).pwr = b.pwr := rfl
@[simp] theorem Blk.modEntry_flt (q n : Nat) (f : SbEntry → SbEntry) : (b.modEntry q n f).flt = b.flt := rfl
@[simp] theorem Blk.modEntry_dbg (q n : Nat) (f : SbEntry → SbEntry) : (b.modEntry q n f).dbg = b.dbg := rfl
@[simp] theorem Blk.modEntry_trc (q n : Nat) (f : SbEntry → SbEntry) : (b.modEntry q n f).trc = b.trc := rfl

@[simp] theorem Blk.modStand_freeCtr (q n : Nat) (f : Standing → Standing) : (b.modStand q n f).freeCtr = b.freeCtr := rfl
@[simp] theorem Blk.modStand_ctlCycle (q n : Nat) (f : Standing → Standing) : (b.modStand q n f).ctlCycle = b.ctlCycle := rfl
@[simp] theorem Blk.modStand_host (q n : Nat) (f : Standing → Standing) : (b.modStand q n f).host = b.host := rfl
@[simp] theorem Blk.modStand_feat (q n : Nat) (f : Standing → Standing) : (b.modStand q n f).feat = b.feat := rfl
@[simp] theorem Blk.modStand_start (q n : Nat) (f : Standing → Standing) : (b.modStand q n f).start = b.start := rfl
@[simp] theorem Blk.modStand_patch (q n : Nat) (f : Standing → Standing) : (b.modStand q n f).patch = b.patch := rfl
@[simp] theorem Blk.modStand_wv (q n : Nat) (f : Standing → Standing) : (b.modStand q n f).wv = b.wv := rfl
@[simp] theorem Blk.modStand_qs (q n : Nat) (f : Standing → Standing) : (b.modStand q n f).qs = b.qs := rfl
@[simp] theorem Blk.modStand_kn (q n : Nat) (f : Standing → Standing) : (b.modStand q n f).kn = b.kn := rfl
@[simp] theorem Blk.modStand_sb (q n : Nat) (f : Standing → Standing) : (b.modStand q n f).sb = b.sb := rfl
@[simp] theorem Blk.modStand_dsp (q n : Nat) (f : Standing → Standing) : (b.modStand q n f).dsp = b.dsp := rfl
@[simp] theorem Blk.modStand_sq (q n : Nat) (f : Standing → Standing) : (b.modStand q n f).sq = b.sq := rfl
@[simp] theorem Blk.modStand_eng (q n : Nat) (f : Standing → Standing) : (b.modStand q n f).eng = b.eng := rfl
@[simp] theorem Blk.modStand_mem (q n : Nat) (f : Standing → Standing) : (b.modStand q n f).mem = b.mem := rfl
@[simp] theorem Blk.modStand_ik (q n : Nat) (f : Standing → Standing) : (b.modStand q n f).ik = b.ik := rfl
@[simp] theorem Blk.modStand_pwr (q n : Nat) (f : Standing → Standing) : (b.modStand q n f).pwr = b.pwr := rfl
@[simp] theorem Blk.modStand_flt (q n : Nat) (f : Standing → Standing) : (b.modStand q n f).flt = b.flt := rfl
@[simp] theorem Blk.modStand_dbg (q n : Nat) (f : Standing → Standing) : (b.modStand q n f).dbg = b.dbg := rfl
@[simp] theorem Blk.modStand_trc (q n : Nat) (f : Standing → Standing) : (b.modStand q n f).trc = b.trc := rfl

@[simp] theorem Blk.park_freeCtr (w : Waiter) : (Blk.park w b).freeCtr = b.freeCtr := rfl
@[simp] theorem Blk.park_ctlCycle (w : Waiter) : (Blk.park w b).ctlCycle = b.ctlCycle := rfl
@[simp] theorem Blk.park_host (w : Waiter) : (Blk.park w b).host = b.host := rfl
@[simp] theorem Blk.park_feat (w : Waiter) : (Blk.park w b).feat = b.feat := rfl
@[simp] theorem Blk.park_start (w : Waiter) : (Blk.park w b).start = b.start := rfl
@[simp] theorem Blk.park_patch (w : Waiter) : (Blk.park w b).patch = b.patch := rfl
@[simp] theorem Blk.park_wv (w : Waiter) : (Blk.park w b).wv = b.wv := rfl
@[simp] theorem Blk.park_qs (w : Waiter) : (Blk.park w b).qs = b.qs := rfl
@[simp] theorem Blk.park_sb (w : Waiter) : (Blk.park w b).sb = b.sb := rfl
@[simp] theorem Blk.park_stand (w : Waiter) : (Blk.park w b).stand = b.stand := rfl
@[simp] theorem Blk.park_dsp (w : Waiter) : (Blk.park w b).dsp = b.dsp := rfl
@[simp] theorem Blk.park_sq (w : Waiter) : (Blk.park w b).sq = b.sq := rfl
@[simp] theorem Blk.park_eng (w : Waiter) : (Blk.park w b).eng = b.eng := rfl
@[simp] theorem Blk.park_mem (w : Waiter) : (Blk.park w b).mem = b.mem := rfl
@[simp] theorem Blk.park_ik (w : Waiter) : (Blk.park w b).ik = b.ik := rfl
@[simp] theorem Blk.park_pwr (w : Waiter) : (Blk.park w b).pwr = b.pwr := rfl
@[simp] theorem Blk.park_flt (w : Waiter) : (Blk.park w b).flt = b.flt := rfl
@[simp] theorem Blk.park_dbg (w : Waiter) : (Blk.park w b).dbg = b.dbg := rfl
@[simp] theorem Blk.park_trc (w : Waiter) : (Blk.park w b).trc = b.trc := rfl

@[simp] theorem Blk.unpark_freeCtr (x : Bool) (q n : Nat) : (Blk.unpark x q n b).freeCtr = b.freeCtr := rfl
@[simp] theorem Blk.unpark_ctlCycle (x : Bool) (q n : Nat) : (Blk.unpark x q n b).ctlCycle = b.ctlCycle := rfl
@[simp] theorem Blk.unpark_host (x : Bool) (q n : Nat) : (Blk.unpark x q n b).host = b.host := rfl
@[simp] theorem Blk.unpark_feat (x : Bool) (q n : Nat) : (Blk.unpark x q n b).feat = b.feat := rfl
@[simp] theorem Blk.unpark_start (x : Bool) (q n : Nat) : (Blk.unpark x q n b).start = b.start := rfl
@[simp] theorem Blk.unpark_patch (x : Bool) (q n : Nat) : (Blk.unpark x q n b).patch = b.patch := rfl
@[simp] theorem Blk.unpark_wv (x : Bool) (q n : Nat) : (Blk.unpark x q n b).wv = b.wv := rfl
@[simp] theorem Blk.unpark_qs (x : Bool) (q n : Nat) : (Blk.unpark x q n b).qs = b.qs := rfl
@[simp] theorem Blk.unpark_sb (x : Bool) (q n : Nat) : (Blk.unpark x q n b).sb = b.sb := rfl
@[simp] theorem Blk.unpark_stand (x : Bool) (q n : Nat) : (Blk.unpark x q n b).stand = b.stand := rfl
@[simp] theorem Blk.unpark_dsp (x : Bool) (q n : Nat) : (Blk.unpark x q n b).dsp = b.dsp := rfl
@[simp] theorem Blk.unpark_sq (x : Bool) (q n : Nat) : (Blk.unpark x q n b).sq = b.sq := rfl
@[simp] theorem Blk.unpark_eng (x : Bool) (q n : Nat) : (Blk.unpark x q n b).eng = b.eng := rfl
@[simp] theorem Blk.unpark_mem (x : Bool) (q n : Nat) : (Blk.unpark x q n b).mem = b.mem := rfl
@[simp] theorem Blk.unpark_ik (x : Bool) (q n : Nat) : (Blk.unpark x q n b).ik = b.ik := rfl
@[simp] theorem Blk.unpark_pwr (x : Bool) (q n : Nat) : (Blk.unpark x q n b).pwr = b.pwr := rfl
@[simp] theorem Blk.unpark_flt (x : Bool) (q n : Nat) : (Blk.unpark x q n b).flt = b.flt := rfl
@[simp] theorem Blk.unpark_dbg (x : Bool) (q n : Nat) : (Blk.unpark x q n b).dbg = b.dbg := rfl
@[simp] theorem Blk.unpark_trc (x : Bool) (q n : Nat) : (Blk.unpark x q n b).trc = b.trc := rfl

@[simp] theorem Blk.unwake_freeCtr (x : Bool) (q n : Nat) : (Blk.unwake x q n b).freeCtr = b.freeCtr := rfl
@[simp] theorem Blk.unwake_ctlCycle (x : Bool) (q n : Nat) : (Blk.unwake x q n b).ctlCycle = b.ctlCycle := rfl
@[simp] theorem Blk.unwake_host (x : Bool) (q n : Nat) : (Blk.unwake x q n b).host = b.host := rfl
@[simp] theorem Blk.unwake_feat (x : Bool) (q n : Nat) : (Blk.unwake x q n b).feat = b.feat := rfl
@[simp] theorem Blk.unwake_start (x : Bool) (q n : Nat) : (Blk.unwake x q n b).start = b.start := rfl
@[simp] theorem Blk.unwake_patch (x : Bool) (q n : Nat) : (Blk.unwake x q n b).patch = b.patch := rfl
@[simp] theorem Blk.unwake_wv (x : Bool) (q n : Nat) : (Blk.unwake x q n b).wv = b.wv := rfl
@[simp] theorem Blk.unwake_qs (x : Bool) (q n : Nat) : (Blk.unwake x q n b).qs = b.qs := rfl
@[simp] theorem Blk.unwake_sb (x : Bool) (q n : Nat) : (Blk.unwake x q n b).sb = b.sb := rfl
@[simp] theorem Blk.unwake_stand (x : Bool) (q n : Nat) : (Blk.unwake x q n b).stand = b.stand := rfl
@[simp] theorem Blk.unwake_dsp (x : Bool) (q n : Nat) : (Blk.unwake x q n b).dsp = b.dsp := rfl
@[simp] theorem Blk.unwake_sq (x : Bool) (q n : Nat) : (Blk.unwake x q n b).sq = b.sq := rfl
@[simp] theorem Blk.unwake_eng (x : Bool) (q n : Nat) : (Blk.unwake x q n b).eng = b.eng := rfl
@[simp] theorem Blk.unwake_mem (x : Bool) (q n : Nat) : (Blk.unwake x q n b).mem = b.mem := rfl
@[simp] theorem Blk.unwake_ik (x : Bool) (q n : Nat) : (Blk.unwake x q n b).ik = b.ik := rfl
@[simp] theorem Blk.unwake_pwr (x : Bool) (q n : Nat) : (Blk.unwake x q n b).pwr = b.pwr := rfl
@[simp] theorem Blk.unwake_flt (x : Bool) (q n : Nat) : (Blk.unwake x q n b).flt = b.flt := rfl
@[simp] theorem Blk.unwake_dbg (x : Bool) (q n : Nat) : (Blk.unwake x q n b).dbg = b.dbg := rfl
@[simp] theorem Blk.unwake_trc (x : Bool) (q n : Nat) : (Blk.unwake x q n b).trc = b.trc := rfl

@[simp] theorem Blk.modEng_freeCtr (e : Nat) (f : Eng → Eng) : (b.modEng e f).freeCtr = b.freeCtr := rfl
@[simp] theorem Blk.modEng_ctlCycle (e : Nat) (f : Eng → Eng) : (b.modEng e f).ctlCycle = b.ctlCycle := rfl
@[simp] theorem Blk.modEng_host (e : Nat) (f : Eng → Eng) : (b.modEng e f).host = b.host := rfl
@[simp] theorem Blk.modEng_feat (e : Nat) (f : Eng → Eng) : (b.modEng e f).feat = b.feat := rfl
@[simp] theorem Blk.modEng_start (e : Nat) (f : Eng → Eng) : (b.modEng e f).start = b.start := rfl
@[simp] theorem Blk.modEng_patch (e : Nat) (f : Eng → Eng) : (b.modEng e f).patch = b.patch := rfl
@[simp] theorem Blk.modEng_wv (e : Nat) (f : Eng → Eng) : (b.modEng e f).wv = b.wv := rfl
@[simp] theorem Blk.modEng_qs (e : Nat) (f : Eng → Eng) : (b.modEng e f).qs = b.qs := rfl
@[simp] theorem Blk.modEng_kn (e : Nat) (f : Eng → Eng) : (b.modEng e f).kn = b.kn := rfl
@[simp] theorem Blk.modEng_sb (e : Nat) (f : Eng → Eng) : (b.modEng e f).sb = b.sb := rfl
@[simp] theorem Blk.modEng_stand (e : Nat) (f : Eng → Eng) : (b.modEng e f).stand = b.stand := rfl
@[simp] theorem Blk.modEng_dsp (e : Nat) (f : Eng → Eng) : (b.modEng e f).dsp = b.dsp := rfl
@[simp] theorem Blk.modEng_sq (e : Nat) (f : Eng → Eng) : (b.modEng e f).sq = b.sq := rfl
@[simp] theorem Blk.modEng_mem (e : Nat) (f : Eng → Eng) : (b.modEng e f).mem = b.mem := rfl
@[simp] theorem Blk.modEng_ik (e : Nat) (f : Eng → Eng) : (b.modEng e f).ik = b.ik := rfl
@[simp] theorem Blk.modEng_pwr (e : Nat) (f : Eng → Eng) : (b.modEng e f).pwr = b.pwr := rfl
@[simp] theorem Blk.modEng_flt (e : Nat) (f : Eng → Eng) : (b.modEng e f).flt = b.flt := rfl
@[simp] theorem Blk.modEng_dbg (e : Nat) (f : Eng → Eng) : (b.modEng e f).dbg = b.dbg := rfl
@[simp] theorem Blk.modEng_trc (e : Nat) (f : Eng → Eng) : (b.modEng e f).trc = b.trc := rfl

@[simp] theorem Blk.setBreakUnit_freeCtr (u : Nat) (v : BreakUnit) : (Blk.setBreakUnit u v b).freeCtr = b.freeCtr := rfl
@[simp] theorem Blk.setBreakUnit_ctlCycle (u : Nat) (v : BreakUnit) : (Blk.setBreakUnit u v b).ctlCycle = b.ctlCycle := rfl
@[simp] theorem Blk.setBreakUnit_host (u : Nat) (v : BreakUnit) : (Blk.setBreakUnit u v b).host = b.host := rfl
@[simp] theorem Blk.setBreakUnit_feat (u : Nat) (v : BreakUnit) : (Blk.setBreakUnit u v b).feat = b.feat := rfl
@[simp] theorem Blk.setBreakUnit_start (u : Nat) (v : BreakUnit) : (Blk.setBreakUnit u v b).start = b.start := rfl
@[simp] theorem Blk.setBreakUnit_patch (u : Nat) (v : BreakUnit) : (Blk.setBreakUnit u v b).patch = b.patch := rfl
@[simp] theorem Blk.setBreakUnit_wv (u : Nat) (v : BreakUnit) : (Blk.setBreakUnit u v b).wv = b.wv := rfl
@[simp] theorem Blk.setBreakUnit_qs (u : Nat) (v : BreakUnit) : (Blk.setBreakUnit u v b).qs = b.qs := rfl
@[simp] theorem Blk.setBreakUnit_kn (u : Nat) (v : BreakUnit) : (Blk.setBreakUnit u v b).kn = b.kn := rfl
@[simp] theorem Blk.setBreakUnit_sb (u : Nat) (v : BreakUnit) : (Blk.setBreakUnit u v b).sb = b.sb := rfl
@[simp] theorem Blk.setBreakUnit_stand (u : Nat) (v : BreakUnit) : (Blk.setBreakUnit u v b).stand = b.stand := rfl
@[simp] theorem Blk.setBreakUnit_dsp (u : Nat) (v : BreakUnit) : (Blk.setBreakUnit u v b).dsp = b.dsp := rfl
@[simp] theorem Blk.setBreakUnit_sq (u : Nat) (v : BreakUnit) : (Blk.setBreakUnit u v b).sq = b.sq := rfl
@[simp] theorem Blk.setBreakUnit_eng (u : Nat) (v : BreakUnit) : (Blk.setBreakUnit u v b).eng = b.eng := rfl
@[simp] theorem Blk.setBreakUnit_mem (u : Nat) (v : BreakUnit) : (Blk.setBreakUnit u v b).mem = b.mem := rfl
@[simp] theorem Blk.setBreakUnit_ik (u : Nat) (v : BreakUnit) : (Blk.setBreakUnit u v b).ik = b.ik := rfl
@[simp] theorem Blk.setBreakUnit_pwr (u : Nat) (v : BreakUnit) : (Blk.setBreakUnit u v b).pwr = b.pwr := rfl
@[simp] theorem Blk.setBreakUnit_flt (u : Nat) (v : BreakUnit) : (Blk.setBreakUnit u v b).flt = b.flt := rfl
@[simp] theorem Blk.setBreakUnit_trc (u : Nat) (v : BreakUnit) : (Blk.setBreakUnit u v b).trc = b.trc := rfl

@[simp] theorem Blk.jobsDone_freeCtr (i : Nat) : (b.jobsDone i).freeCtr = b.freeCtr := rfl
@[simp] theorem Blk.jobsDone_ctlCycle (i : Nat) : (b.jobsDone i).ctlCycle = b.ctlCycle := rfl
@[simp] theorem Blk.jobsDone_feat (i : Nat) : (b.jobsDone i).feat = b.feat := rfl
@[simp] theorem Blk.jobsDone_start (i : Nat) : (b.jobsDone i).start = b.start := rfl
@[simp] theorem Blk.jobsDone_patch (i : Nat) : (b.jobsDone i).patch = b.patch := rfl
@[simp] theorem Blk.jobsDone_wv (i : Nat) : (b.jobsDone i).wv = b.wv := rfl
@[simp] theorem Blk.jobsDone_qs (i : Nat) : (b.jobsDone i).qs = b.qs := rfl
@[simp] theorem Blk.jobsDone_kn (i : Nat) : (b.jobsDone i).kn = b.kn := rfl
@[simp] theorem Blk.jobsDone_sb (i : Nat) : (b.jobsDone i).sb = b.sb := rfl
@[simp] theorem Blk.jobsDone_stand (i : Nat) : (b.jobsDone i).stand = b.stand := rfl
@[simp] theorem Blk.jobsDone_dsp (i : Nat) : (b.jobsDone i).dsp = b.dsp := rfl
@[simp] theorem Blk.jobsDone_sq (i : Nat) : (b.jobsDone i).sq = b.sq := rfl
@[simp] theorem Blk.jobsDone_eng (i : Nat) : (b.jobsDone i).eng = b.eng := rfl
@[simp] theorem Blk.jobsDone_mem (i : Nat) : (b.jobsDone i).mem = b.mem := rfl
@[simp] theorem Blk.jobsDone_ik (i : Nat) : (b.jobsDone i).ik = b.ik := rfl
@[simp] theorem Blk.jobsDone_pwr (i : Nat) : (b.jobsDone i).pwr = b.pwr := rfl
@[simp] theorem Blk.jobsDone_flt (i : Nat) : (b.jobsDone i).flt = b.flt := rfl
@[simp] theorem Blk.jobsDone_dbg (i : Nat) : (b.jobsDone i).dbg = b.dbg := rfl
@[simp] theorem Blk.jobsDone_trc (i : Nat) : (b.jobsDone i).trc = b.trc := rfl

@[simp] theorem Blk.jobsLaunched_freeCtr (i : Nat) : (b.jobsLaunched i).freeCtr = b.freeCtr := rfl
@[simp] theorem Blk.jobsLaunched_ctlCycle (i : Nat) : (b.jobsLaunched i).ctlCycle = b.ctlCycle := rfl
@[simp] theorem Blk.jobsLaunched_feat (i : Nat) : (b.jobsLaunched i).feat = b.feat := rfl
@[simp] theorem Blk.jobsLaunched_start (i : Nat) : (b.jobsLaunched i).start = b.start := rfl
@[simp] theorem Blk.jobsLaunched_patch (i : Nat) : (b.jobsLaunched i).patch = b.patch := rfl
@[simp] theorem Blk.jobsLaunched_wv (i : Nat) : (b.jobsLaunched i).wv = b.wv := rfl
@[simp] theorem Blk.jobsLaunched_qs (i : Nat) : (b.jobsLaunched i).qs = b.qs := rfl
@[simp] theorem Blk.jobsLaunched_kn (i : Nat) : (b.jobsLaunched i).kn = b.kn := rfl
@[simp] theorem Blk.jobsLaunched_sb (i : Nat) : (b.jobsLaunched i).sb = b.sb := rfl
@[simp] theorem Blk.jobsLaunched_stand (i : Nat) : (b.jobsLaunched i).stand = b.stand := rfl
@[simp] theorem Blk.jobsLaunched_dsp (i : Nat) : (b.jobsLaunched i).dsp = b.dsp := rfl
@[simp] theorem Blk.jobsLaunched_sq (i : Nat) : (b.jobsLaunched i).sq = b.sq := rfl
@[simp] theorem Blk.jobsLaunched_eng (i : Nat) : (b.jobsLaunched i).eng = b.eng := rfl
@[simp] theorem Blk.jobsLaunched_mem (i : Nat) : (b.jobsLaunched i).mem = b.mem := rfl
@[simp] theorem Blk.jobsLaunched_ik (i : Nat) : (b.jobsLaunched i).ik = b.ik := rfl
@[simp] theorem Blk.jobsLaunched_pwr (i : Nat) : (b.jobsLaunched i).pwr = b.pwr := rfl
@[simp] theorem Blk.jobsLaunched_flt (i : Nat) : (b.jobsLaunched i).flt = b.flt := rfl
@[simp] theorem Blk.jobsLaunched_dbg (i : Nat) : (b.jobsLaunched i).dbg = b.dbg := rfl
@[simp] theorem Blk.jobsLaunched_trc (i : Nat) : (b.jobsLaunched i).trc = b.trc := rfl

/-! ### Reading the part written -/

@[simp] theorem Blk.setQue_que (i : Nat) (v : Que) : (b.setQue i v).que i = v := by simp [Blk.setQue, Blk.que]
theorem Blk.setQue_que_ne {i j : Nat} (v : Que) (h : j ≠ i) : (b.setQue i v).que j = b.que j := by
  simp [Blk.setQue, Blk.que, SMap.get_set_ne, h]
@[simp] theorem Blk.setKnot_knot (i : Nat) (v : Knot) : (b.setKnot i v).knot i = v := by simp [Blk.setKnot, Blk.knot]
theorem Blk.setKnot_knot_ne {i j : Nat} (v : Knot) (h : j ≠ i) : (b.setKnot i v).knot j = b.knot j := by
  simp [Blk.setKnot, Blk.knot, SMap.get_set_ne, h]
@[simp] theorem Blk.setEng_engine (i : Nat) (v : Eng) : (b.setEng i v).engine i = v := by simp [Blk.setEng, Blk.engine]
theorem Blk.setEng_engine_ne {i j : Nat} (v : Eng) (h : j ≠ i) : (b.setEng i v).engine j = b.engine j := by
  simp [Blk.setEng, Blk.engine, SMap.get_set_ne, h]
@[simp] theorem Blk.setSeq_seq (i : Nat) (v : Seq) : (b.setSeq i v).seq i = v := by simp [Blk.setSeq, Blk.seq]
theorem Blk.setSeq_seq_ne {i j : Nat} (v : Seq) (h : j ≠ i) : (b.setSeq i v).seq j = b.seq j := by
  simp [Blk.setSeq, Blk.seq, SMap.get_set_ne, h]
@[simp] theorem Blk.setPort_port (i : Nat) (v : MPort) : (b.setPort i v).port i = v := by simp [Blk.setPort, Blk.port]
theorem Blk.setPort_port_ne {i j : Nat} (v : MPort) (h : j ≠ i) : (b.setPort i v).port j = b.port j := by
  simp [Blk.setPort, Blk.port, SMap.get_set_ne, h]
@[simp] theorem Blk.setIntake_intake (i : Nat) (v : Intake) : (b.setIntake i v).intake i = v := by simp [Blk.setIntake, Blk.intake]
theorem Blk.setIntake_intake_ne {i j : Nat} (v : Intake) (h : j ≠ i) : (b.setIntake i v).intake j = b.intake j := by
  simp [Blk.setIntake, Blk.intake, SMap.get_set_ne, h]
@[simp] theorem Blk.setSeat_seat (i : Nat) (v : SeatRegs) : (b.setSeat i v).seat i = v := by simp [Blk.setSeat, Blk.seat]
theorem Blk.setSeat_seat_ne {i j : Nat} (v : SeatRegs) (h : j ≠ i) : (b.setSeat i v).seat j = b.seat j := by
  simp [Blk.setSeat, Blk.seat, SMap.get_set_ne, h]
@[simp] theorem Blk.setTieRegs_tieRegs (i : Nat) (v : TieRegs) : (b.setTieRegs i v).tieRegs i = v := by simp [Blk.setTieRegs, Blk.tieRegs]
theorem Blk.setTieRegs_tieRegs_ne {i j : Nat} (v : TieRegs) (h : j ≠ i) : (b.setTieRegs i v).tieRegs j = b.tieRegs j := by
  simp [Blk.setTieRegs, Blk.tieRegs, SMap.get_set_ne, h]
@[simp] theorem Blk.setRing_ring (i : Nat) (v : TraceRing) : (b.setRing i v).ring i = v := by simp [Blk.setRing, Blk.ring]
theorem Blk.setRing_ring_ne {i j : Nat} (v : TraceRing) (h : j ≠ i) : (b.setRing i v).ring j = b.ring j := by
  simp [Blk.setRing, Blk.ring, SMap.get_set_ne, h]

end Sys2Proof.Machine
end

