-- ==== Sys2Proof/Laws/Work.lean ====
section
/-! SUPPORT. What the shared operations of queue work can do: the parts they reach, what they do to a queue, and how a
checked slot enters and starts. -/

namespace Sys2Proof.Machine

/-! ### The parts queue work reaches -/

theorem Blk.QueueWork.refl (b : Blk) : b.QueueWork b := rfl
theorem Blk.QueueWork.trans {b c d : Blk} (h : b.QueueWork c) (k : c.QueueWork d) : b.QueueWork d := by
  unfold Blk.QueueWork at *; rw [h] at k; exact k
theorem Blk.QueueWork.foldl {α : Type} (f : Blk → α → Blk) (h : ∀ (b : Blk) (x : α), b.QueueWork (f b x)) (l : List α) (b : Blk) :
    b.QueueWork (l.foldl f b) := by
  induction l generalizing b with
  | nil => exact .refl b
  | cons x r ih => exact (h b x).trans (ih _)

theorem Blk.queueWork_setQue (b : Blk) (q : Nat) (v : Que) : b.QueueWork (b.setQue q v) := rfl
theorem Blk.queueWork_setSeq (b : Blk) (q : Nat) (v : Seq) : b.QueueWork (b.setSeq q v) := rfl
theorem Blk.queueWork_setKnot (b : Blk) (q : Nat) (v : Knot) : b.QueueWork (b.setKnot q v) := rfl
theorem Blk.queueWork_setSeat (b : Blk) (q : Nat) (v : SeatRegs) : b.QueueWork (b.setSeat q v) := rfl
theorem Blk.queueWork_bump (b : Blk) (q n : Nat) : b.QueueWork (b.bump q n) := rfl
theorem Blk.queueWork_bumpAll (b : Blk) (q n : Nat) : b.QueueWork (b.bumpAll q n) := rfl
theorem Blk.queueWork_send (b : Blk) (m : Instr) : b.QueueWork (b.send m) := rfl
theorem Blk.queueWork_staleMsg (b : Blk) : b.QueueWork b.staleMsg := rfl
theorem Blk.queueWork_modEntry (b : Blk) (q n : Nat) (f : SbEntry → SbEntry) : b.QueueWork (b.modEntry q n f) := rfl
theorem Blk.queueWork_modStand (b : Blk) (q n : Nat) (f : Standing → Standing) : b.QueueWork (b.modStand q n f) := rfl
theorem Blk.queueWork_park (b : Blk) (w : Waiter) : b.QueueWork (b.park w) := rfl
theorem Blk.queueWork_unpark (b : Blk) (x : Bool) (q n : Nat) : b.QueueWork (b.unpark x q n) := rfl
theorem Blk.queueWork_unwake (b : Blk) (x : Bool) (q n : Nat) : b.QueueWork (b.unwake x q n) := rfl
theorem Blk.queueWork_queErr (b : Blk) (q : Nat) (c : W8) : b.QueueWork (b.queErr q c) := rfl
theorem Blk.queueWork_kn (b : Blk) (k : KnotTable) : b.QueueWork { b with kn := k } := rfl
theorem Blk.queueWork_sb (b : Blk) (l : List SbEntry) : b.QueueWork { b with sb := l } := rfl

theorem Blk.queueWork_evalTrigger (q n : Nat) (b : Blk) : b.QueueWork (b.evalTrigger q n) := by
  unfold Blk.evalTrigger
  split
  · rfl
  · split <;> rfl
theorem Blk.queueWork_evalWaiting (q n : Nat) (b : Blk) : b.QueueWork (b.evalWaiting q n) := by
  unfold Blk.evalWaiting
  split
  · rfl
  · split
    · rfl
    · dsimp only; split <;> rfl
theorem Blk.queueWork_evalWaiters (k : Nat) (b : Blk) : b.QueueWork (b.evalWaiters k) := by
  refine Blk.QueueWork.foldl _ (fun b w => ?_) _ b
  split
  · exact b.queueWork_evalTrigger _ _
  · exact b.queueWork_evalWaiting _ _
theorem Blk.queueWork_ite {b x y : Blk} {p : Prop} [Decidable p] (h : b.QueueWork x) (k : b.QueueWork y) :
    b.QueueWork (if p then x else y) := by split <;> assumption
theorem Blk.queueWork_tieNow (t : Tie) (b : Blk) : b.QueueWork (b.tieNow t) := by
  unfold Blk.tieNow
  refine Blk.queueWork_ite rfl (Blk.QueueWork.trans ?_ (Blk.queueWork_evalWaiters _ _))
  refine Blk.QueueWork.trans ?_ (Blk.queueWork_bumpAll _ _ _)
  exact Blk.queueWork_ite rfl rfl
theorem Blk.queueWork_applyTie (t : Tie) (b : Blk) : b.QueueWork (b.applyTie t) := by
  unfold Blk.applyTie
  refine Blk.QueueWork.trans ?_ (Blk.queueWork_tieNow t _)
  exact Blk.QueueWork.trans (Blk.queueWork_kn b _) (Blk.QueueWork.foldl _ (fun b u => b.queueWork_tieNow u) _ _)
theorem Blk.queueWork_completionTie (t : W64) (f : Option (BitVec 4) × BitVec 4) (ep : W32) (b : Blk) :
    b.QueueWork (b.completionTie t f ep) := by
  unfold Blk.completionTie
  split <;> exact Blk.queueWork_applyTie _ _
theorem Blk.queueWork_askSlot {q n : Nat} {b c : Blk} (h : b.askSlot q n = some c) : b.QueueWork c := by
  unfold Blk.askSlot at h
  split at h
  · cases h; rfl
  · split at h
    · simp only [Blk.seqAsk, Option.map_eq_some_iff] at h
      obtain ⟨i, -, rfl⟩ := h; rfl
    · cases h; rfl
theorem Blk.queueWork_readSlot (q n : Nat) (b : Blk) : b.QueueWork (b.readSlot q n) := by
  unfold Blk.readSlot
  refine Blk.queueWork_ite rfl ?_
  cases h : b.askSlot q n with
  | none => rfl
  | some c => exact Blk.queueWork_askSlot h
theorem Blk.queueWork_readOn (q : Nat) (b : Blk) : b.QueueWork (b.readOn q) :=
  Blk.QueueWork.foldl _ (fun b _ => b.queueWork_readSlot _ _) _ b
theorem Blk.queueWork_takeUp (s q : Nat) (b : Blk) : b.QueueWork (b.takeUp s q) := by
  unfold Blk.takeUp
  dsimp only
  split
  · rfl
  · refine Blk.QueueWork.trans ?_ (Blk.queueWork_readOn _ _); rfl
theorem Blk.queueWork_kick (s : Nat) (b : Blk) : b.QueueWork (b.kick s) := by
  unfold Blk.kick
  split
  · rfl
  · split
    · rfl
    · exact b.queueWork_takeUp _ _
theorem Blk.queueWork_kickAll (b : Blk) : b.QueueWork b.kickAll :=
  Blk.QueueWork.foldl _ (fun b s => b.queueWork_kick s) _ b
theorem Blk.queueWork_advanceHead (q : Nat) (b : Blk) : b.QueueWork (b.advanceHead q) := by
  unfold Blk.advanceHead
  refine Blk.queueWork_ite rfl (Blk.queueWork_ite ?_ (Blk.queueWork_ite ?_ ?_))
  · refine Blk.QueueWork.trans ?_ (Blk.queueWork_kick _ _); rfl
  · refine Blk.QueueWork.trans ?_ (Blk.queueWork_kick _ _); rfl
  · refine Blk.QueueWork.trans ?_ (Blk.queueWork_readOn _ _); rfl
theorem Blk.queueWork_pumpSr (q : Nat) (b : Blk) : b.QueueWork (b.pumpSr q) := by
  unfold Blk.pumpSr
  dsimp only
  split
  · rfl
  · split
    · rfl
    · split
      · rfl
      · split <;> rfl
theorem Blk.queueWork_noteDone (q n : Nat) (st : Stat) (op : W8) (b : Blk) : b.QueueWork (b.noteDone q n st op) := by
  unfold Blk.noteDone
  refine Blk.QueueWork.trans ?_ (Blk.queueWork_pumpSr _ _); rfl
theorem Blk.queueWork_settle (q : Nat) (b : Blk) : b.QueueWork (b.settle q) := by
  unfold Blk.settle
  split
  · split
    · exact b.queueWork_evalWaiting _ _
    · rfl
  · rfl
theorem Blk.queueWork_complete (e : SbEntry) (st : Stat) (rel : BitVec 4) (b : Blk) : b.QueueWork (b.complete e st rel) := by
  unfold Blk.complete
  dsimp only
  refine Blk.QueueWork.trans ?_ (Blk.queueWork_settle _ _)
  refine Blk.QueueWork.trans ?_ (Blk.queueWork_noteDone _ _ _ _ _)
  refine Blk.QueueWork.trans ?_ (Blk.queueWork_bumpAll _ _ _)
  have h1 : ∀ c : Blk, b.QueueWork c → b.QueueWork (if e.opcode = opLAUNCH then c.jobsDone e.seat else c) := by
    intro c h; split
    · exact h.trans (c.queueWork_setSeat _ _)
    · exact h
  apply h1
  have h2 : ∀ (p : Prop) [Decidable p] (c : Blk) (t : W64) (f : Option (BitVec 4) × BitVec 4), b.QueueWork c → b.QueueWork (if p then c.completionTie t f e.epoch else c) := by
    intro p _ c t f h; split
    · exact h.trans (c.queueWork_completionTie _ _ _)
    · exact h
  apply h2
  apply h2
  rfl
theorem Blk.queueWork_takeDesc (q n : Nat) (l : Line) (b : Blk) : b.QueueWork (b.takeDesc q n l) := by
  unfold Blk.takeDesc
  dsimp only
  refine Blk.queueWork_ite ?_ ?_
  · exact Blk.queueWork_ite rfl rfl
  · refine Blk.QueueWork.trans (c := if (b.headFor q n).isSome then b.setSeq (seqOf q) { b.seq (seqOf q) with headDesc := none } else b) ?_ rfl
    exact Blk.queueWork_ite rfl rfl
theorem Blk.queueWork_joinSb (e : SbEntry) (b : Blk) : b.QueueWork (b.joinSb e) := by
  unfold Blk.joinSb
  dsimp only
  have h2 : ∀ c : Blk, b.QueueWork c → b.QueueWork (if e.opcode = opLAUNCH then c.jobsLaunched e.seat else c) := by
    intro c h; split
    · exact h.trans (c.queueWork_setSeat _ _)
    · exact h
  apply h2
  refine Blk.queueWork_ite (Blk.QueueWork.trans ?_ (Blk.queueWork_takeDesc _ _ _ _)) ?_ <;> rfl
theorem Blk.queueWork_addEntry (e : SbEntry) (b : Blk) : b.QueueWork (b.addEntry e) :=
  (b.queueWork_joinSb e).trans (Blk.queueWork_advanceHead _ _)

/-! ### Ties leave the queues, the sequencers and the entries' number as they are -/

theorem Blk.evalTrigger_qs (q n : Nat) (b : Blk) : (b.evalTrigger q n).qs = b.qs ∧ (b.evalTrigger q n).sb = b.sb
    ∧ (b.evalTrigger q n).sq = b.sq ∧ (b.evalTrigger q n).mem = b.mem ∧ (b.evalTrigger q n).kn.tab = b.kn.tab := by
  unfold Blk.evalTrigger
  split
  · simp
  · split <;> exact ⟨rfl, rfl, rfl, rfl, rfl⟩
theorem Blk.evalWaiting_qs (q n : Nat) (b : Blk) : (b.evalWaiting q n).qs = b.qs
    ∧ (b.evalWaiting q n).sq = b.sq ∧ (b.evalWaiting q n).mem = b.mem ∧ (b.evalWaiting q n).kn.tab = b.kn.tab := by
  unfold Blk.evalWaiting
  split
  · simp
  · split
    · simp
    · dsimp only; split <;> exact ⟨rfl, rfl, rfl, rfl⟩
/-- Evaluating waiters changes no queue, sequencer, memory side or knot. -/
theorem Blk.evalWaiters_qs (k : Nat) (b : Blk) : (b.evalWaiters k).qs = b.qs
    ∧ (b.evalWaiters k).sq = b.sq ∧ (b.evalWaiters k).mem = b.mem ∧ (b.evalWaiters k).kn.tab = b.kn.tab := by
  unfold Blk.evalWaiters
  dsimp only
  generalize List.filter _ _ ++ List.filter _ _ = l
  induction l generalizing b with
  | nil => exact ⟨rfl, rfl, rfl, rfl⟩
  | cons w r ih =>
    rw [List.foldl_cons]
    obtain ⟨h1, h2, h3, h4⟩ := ih (if w.stand = true then b.evalTrigger w.q w.n else b.evalWaiting w.q w.n)
    rw [h1, h2, h3, h4]
    split
    · have := b.evalTrigger_qs w.q w.n; tauto
    · exact b.evalWaiting_qs w.q w.n
theorem Blk.tieNow_qs (t : Tie) (b : Blk) : (b.tieNow t).qs = b.qs ∧ (b.tieNow t).sq = b.sq ∧ (b.tieNow t).mem = b.mem := by
  unfold Blk.tieNow
  split
  · exact ⟨rfl, rfl, rfl⟩
  · dsimp only
    obtain ⟨h1, h2, h3, -⟩ := Blk.evalWaiters_qs t.knot ((if t.concealed = true then
      (b.setKnot t.knot ((b.knot t.knot).tied t)).markConcealed t.knot else b.setKnot t.knot ((b.knot t.knot).tied t)).bumpAll 0x0A t.src.arg)
    rw [h1, h2, h3]
    split <;> exact ⟨rfl, rfl, rfl⟩
theorem Blk.applyTie_qs (t : Tie) (b : Blk) : (b.applyTie t).qs = b.qs ∧ (b.applyTie t).sq = b.sq ∧ (b.applyTie t).mem = b.mem := by
  unfold Blk.applyTie
  dsimp only
  have h := fun c : Blk => c.tieNow_qs t
  have hf : ∀ (l : List Tie) (c : Blk), (l.foldl (fun b u => b.tieNow u) c).qs = c.qs
      ∧ (l.foldl (fun b u => b.tieNow u) c).sq = c.sq ∧ (l.foldl (fun b u => b.tieNow u) c).mem = c.mem := by
    intro l
    induction l with
    | nil => intro c; exact ⟨rfl, rfl, rfl⟩
    | cons u r ih =>
      intro c
      rw [List.foldl_cons, (ih _).1, (ih _).2.1, (ih _).2.2]
      exact c.tieNow_qs u
  rw [(h _).1, (h _).2.1, (h _).2.2, (hf _ _).1, (hf _ _).2.1, (hf _ _).2.2]
  exact ⟨rfl, rfl, rfl⟩
/-- A completion tie changes no queue, sequencer or memory side. -/
theorem Blk.completionTie_qs (t : W64) (f : Option (BitVec 4) × BitVec 4) (ep : W32) (b : Blk) :
    (b.completionTie t f ep).qs = b.qs ∧ (b.completionTie t f ep).sq = b.sq ∧ (b.completionTie t f ep).mem = b.mem := by
  unfold Blk.completionTie
  split <;> exact Blk.applyTie_qs _ _
theorem Blk.settle_qs (q : Nat) (b : Blk) : (b.settle q).qs = b.qs := by
  unfold Blk.settle
  split
  · split
    · exact (b.evalWaiting_qs _ _).1
    · rfl
  · rfl

/-! ### What serving does to a queue -/

theorem Que.Near.refl (u : Que) : u.Near u := rfl
theorem Que.Near.trans {u v w : Que} (h : u.Near v) (k : v.Near w) : u.Near w := by
  unfold Que.Near at *; rw [h] at k; exact k

theorem Blk.setQue_near {b : Blk} {q : Nat} {v : Que} (h : (b.que q).Near v) (r : Nat) : (b.que r).Near ((b.setQue q v).que r) := by
  by_cases e : r = q
  · subst e; simpa using h
  · rw [b.setQue_que_ne v e]; exact .refl _
theorem Blk.askSlot_qs {q n : Nat} {b c : Blk} (h : b.askSlot q n = some c) :
    c.qs = b.qs ∧ c.sb = b.sb ∧ ∀ s, (c.seq s).st = (b.seq s).st := by
  unfold Blk.askSlot at h
  split at h
  · cases h; exact ⟨rfl, rfl, fun _ => rfl⟩
  · split at h
    · simp only [Blk.seqAsk, Option.map_eq_some_iff] at h
      obtain ⟨i, -, rfl⟩ := h
      refine ⟨rfl, rfl, fun s => ?_⟩
      change (Blk.seq (b.setSeq (seqOf q) _) s).st = _
      by_cases e : s = seqOf q
      · subst e; simp
      · rw [Blk.setSeq_seq_ne _ _ e]
    · cases h; exact ⟨rfl, rfl, fun _ => rfl⟩
theorem Blk.readSlot_qs (q n : Nat) (b : Blk) : (b.readSlot q n).qs = b.qs ∧ (b.readSlot q n).sb = b.sb
    ∧ ∀ s, ((b.readSlot q n).seq s).st = (b.seq s).st := by
  unfold Blk.readSlot
  split
  · exact ⟨rfl, rfl, fun _ => rfl⟩
  · cases h : b.askSlot q n with
    | none => exact ⟨rfl, rfl, fun _ => rfl⟩
    | some c => exact Blk.askSlot_qs h
/-- Reading slots on changes no queue and no entry, and starts or stops no sequencer. -/
theorem Blk.readOn_qs (q : Nat) (b : Blk) : (b.readOn q).qs = b.qs ∧ (b.readOn q).sb = b.sb
    ∧ ∀ s, ((b.readOn q).seq s).st = (b.seq s).st := by
  unfold Blk.readOn
  dsimp only
  generalize (b.que q).head = k
  generalize range _ = l
  induction l generalizing b with
  | nil => exact ⟨rfl, rfl, fun _ => rfl⟩
  | cons x r ih =>
    obtain ⟨h1, h2, h3⟩ := ih (b.readSlot q (k + x))
    obtain ⟨g1, g2, g3⟩ := b.readSlot_qs q (k + x)
    exact ⟨h1.trans g1, h2.trans g2, fun s => (h3 s).trans (g3 s)⟩
theorem Blk.readOn_que (q : Nat) (b : Blk) (r : Nat) : (b.readOn q).que r = b.que r := by simp [Blk.que, (b.readOn_qs q).1]
theorem Blk.takeUp_near (s q : Nat) (b : Blk) (r : Nat) : (b.que r).Near ((b.takeUp s q).que r) := by
  unfold Blk.takeUp
  extract_lets taut prio v b1 u b2
  have h1 : ∀ r, b1.que r = b.que r := fun r => rfl
  have h2 : (b.que r).Near (b2.que r) := by
    rw [← h1 r]; refine Blk.setQue_near ?_ r; rfl
  split
  · refine h2.trans ?_
    refine Blk.setQue_near (b := b2) (q := q) ?_ r; rfl
  · rw [Blk.readOn_que]; exact h2
theorem Blk.kick_near (s : Nat) (b : Blk) (r : Nat) : (b.que r).Near ((b.kick s).que r) := by
  unfold Blk.kick
  split
  · rfl
  · split
    · rfl
    · exact b.takeUp_near _ _ r
theorem Blk.kickAll_near (b : Blk) (r : Nat) : (b.que r).Near (b.kickAll.que r) := by
  unfold Blk.kickAll
  generalize range 4 = l
  induction l generalizing b with
  | nil => rfl
  | cons s t ih => exact (b.kick_near s r).trans (ih _)
theorem Blk.pumpSr_near (q : Nat) (b : Blk) (r : Nat) : (b.que r).Near ((b.pumpSr q).que r) := by
  unfold Blk.pumpSr
  have h : (b.que r).Near ((b.setQue q { b.que q with srWait := true }).que r) := by refine Blk.setQue_near ?_ r; rfl
  dsimp only
  split
  · rfl
  · split
    · rfl
    · split
      · rfl
      · split <;> exact h

/-- Completing command e of queue q notes its record in that queue and leaves every other. -/
theorem Blk.complete_near (e : SbEntry) (st : Stat) (rel : BitVec 4) (b : Blk) (r : Nat) :
    let out := if e.opcode = opLAUNCH then { st with stretched := b.stretchSeen e.q e.n } else st
    let u := b.que r
    (if r = e.q then { u with done := PMap.put e.n (out.record e.n e.opcode) u.done } else u).Near ((b.complete e st rel).que r) := by
  unfold Blk.complete
  extract_lets st1 u form b1 b2 b3 bound b4 b5
  have hb5 : b5.qs = b.qs := by
    have e2 : b2.qs = b.qs := rfl
    have e3 : b3.qs = b2.qs := by
      simp only [b3]; split
      · exact (b2.completionTie_qs _ _ _).1
      · rfl
    have e4 : b4.qs = b3.qs := by
      simp only [b4]; split
      · exact (b3.completionTie_qs _ _ _).1
      · rfl
    have e5 : b5.qs = b4.qs := by simp only [b5]; split <;> rfl
    rw [e5, e4, e3, e2]
  have hs : ∀ c : Blk, (c.settle e.q).que r = c.que r := fun c => by simp [Blk.que, Blk.settle_qs]
  rw [hs]
  have hu : ∀ j, (b5.bumpAll 4 ((b5.wv.cur.owner e.q).getD 0)).que j = b.que j := fun j => by simp [Blk.que, hb5]
  unfold Blk.noteDone
  refine Que.Near.trans ?_ (Blk.pumpSr_near _ _ r)
  by_cases hr : r = e.q
  · subst hr; rw [if_pos rfl, Blk.setQue_que]; simp only [hu]; exact .refl _
  · rw [if_neg hr, Blk.setQue_que_ne _ _ hr, hu]; exact .refl _
theorem Blk.advanceHead_near (q : Nat) (b : Blk) (r : Nat) :
    (if r = q then { b.que q with head := (b.que q).head + 1 } else b.que r).Near ((b.advanceHead q).que r) := by
  unfold Blk.advanceHead
  have hb : ∀ (c : Blk) (v : Que), (∀ j, c.que j = b.que j) → v = { b.que q with head := (b.que q).head + 1 } →
      (if r = q then { b.que q with head := (b.que q).head + 1 } else b.que r).Near ((c.setQue q v).que r) := by
    intro c v hc hv
    by_cases hr : r = q
    · subst hr; simp [hv, Que.Near]
    · rw [if_neg hr, Blk.setQue_que_ne _ _ hr, hc]; exact .refl _
  have hi : ∀ {p : Prop} [Decidable p] {x y : Blk} {u : Que}, u.Near (x.que r) → u.Near (y.que r) →
      u.Near ((if p then x else y).que r) := by intro p _ x y u h k; split <;> assumption
  refine hi ?_ (hi ?_ (hi ?_ ?_))
  · exact hb _ _ (fun _ => rfl) rfl
  · refine Que.Near.trans ?_ (Blk.kick_near _ _ r)
    refine Que.Near.trans (hb _ _ (fun _ => rfl) rfl) ?_
    refine Blk.setQue_near ?_ r
    simp [Que.Near, Blk.que, Blk.setQue]
  · refine Que.Near.trans ?_ (Blk.kick_near _ _ r)
    exact hb _ _ (fun _ => rfl) rfl
  · rw [Blk.readOn_que]; exact hb _ _ (fun _ => rfl) rfl
theorem Blk.joinSb_que {e : SbEntry} (h : hasDesc e.opcode = false) (b : Blk) (r : Nat) : (b.joinSb e).que r = b.que r := by
  unfold Blk.joinSb; dsimp only; rw [h]; split <;> rfl
/-- HEAD passes the slot that entered. -/
theorem Blk.addEntry_near (e : SbEntry) (b : Blk) (r : Nat) :
    (if r = e.q then { (b.joinSb e).que r with head := ((b.joinSb e).que r).head + 1 } else (b.joinSb e).que r).Near
      ((b.addEntry e).que r) := by
  have h := Blk.advanceHead_near e.q (b.joinSb e) r
  unfold Blk.addEntry
  by_cases hr : r = e.q
  · subst hr; simpa using h
  · simpa [hr] using h
/-- Joining the scoreboard notes a descriptor's lines in the queue, and nothing else of it. -/
theorem Blk.joinSb_que_any (e : SbEntry) (b : Blk) (r : Nat) :
    (b.joinSb e).que r = { b.que r with descAt := ((b.joinSb e).que r).descAt } := by
  have hx : ∀ c : Blk, ((if e.opcode = opLAUNCH then c.jobsLaunched e.seat else c).que r) = c.que r := by
    intro c; split <;> rfl
  have hd : ∀ (u v : Que) (d : PMap Nat), u = v → ({ u with descAt := d } : Que) = { v with descAt := ({ u with descAt := d } : Que).descAt } := by
    rintro u v d rfl; rfl
  have ht : ∀ c : Blk, (∀ j, c.que j = b.que j) → (c.takeDesc e.q e.n e.slot).que r = { b.que r with descAt := ((c.takeDesc e.q e.n e.slot).que r).descAt } := by
    intro c hc
    unfold Blk.takeDesc
    extract_lets k v c1
    have hc1 : ∀ j, c1.que j = b.que j := fun j => by simp only [c1]; split <;> exact hc j
    split
    · rw [hc1]
    · by_cases e1 : r = e.q
      · subst e1; rw [Blk.setQue_que]; exact hd _ _ _ (hc1 e.q)
      · rw [Blk.setQue_que_ne _ _ e1, hc1]
  unfold Blk.joinSb
  dsimp only
  rw [hx]
  split
  · exact ht _ fun _ => rfl
  · rfl

/-! ### Entering the scoreboard -/

theorem Blk.takeUp_sb (s q : Nat) (b : Blk) : (b.takeUp s q).sb = b.sb := by
  unfold Blk.takeUp; extract_lets taut prio v b1 u b2
  split
  · rfl
  · rw [(b2.readOn_qs q).2.1]; rfl
theorem Blk.kick_sb (s : Nat) (b : Blk) : (b.kick s).sb = b.sb := by
  unfold Blk.kick; split
  · rfl
  · split
    · rfl
    · exact b.takeUp_sb _ _
theorem Blk.advanceHead_sb (q : Nat) (b : Blk) : (b.advanceHead q).sb = b.sb := by
  have hi : ∀ {p : Prop} [Decidable p] {x y : Blk}, x.sb = b.sb → y.sb = b.sb → (if p then x else y).sb = b.sb := by
    intro p _ x y h k; split <;> assumption
  unfold Blk.advanceHead
  refine hi rfl (hi ?_ (hi ?_ ?_))
  · rw [Blk.kick_sb]; rfl
  · rw [Blk.kick_sb]; rfl
  · rw [(Blk.readOn_qs _ _).2.1]; rfl
theorem Blk.takeDesc_sb (q n : Nat) (l : Line) (b : Blk) : (b.takeDesc q n l).sb = b.sb := by
  unfold Blk.takeDesc
  extract_lets k v c1
  have h1 : c1.sb = b.sb := by simp only [c1]; split <;> rfl
  split <;> exact h1
theorem Blk.addEntry_sb (e : SbEntry) (b : Blk) : (b.addEntry e).sb = b.sb ++ [e] := by
  have hi : ∀ {p : Prop} [Decidable p] {x y : Blk}, x.sb = b.sb ++ [e] → y.sb = b.sb ++ [e] → (if p then x else y).sb = b.sb ++ [e] := by
    intro p _ x y h k; split <;> assumption
  unfold Blk.addEntry; rw [Blk.advanceHead_sb]
  unfold Blk.joinSb; dsimp only
  have h2 : ∀ c : Blk, c.sb = b.sb ++ [e] → (if e.opcode = opLAUNCH then c.jobsLaunched e.seat else c).sb = b.sb ++ [e] :=
    fun c h => hi h h
  exact h2 _ (hi (Blk.takeDesc_sb _ _ _ _) rfl)

/-! ### Serving stops no sequencer -/

/-- The sequencer is neither in BREAK nor halted. -/
def Seq.Live (v : Seq) : Prop := v.st ≠ .broke ∧ v.st ≠ .halted
theorem Blk.setSeq_live {b : Blk} {i : Nat} {v : Seq} (hv : v.Live) {s : Nat} (h : (b.seq s).Live) : ((b.setSeq i v).seq s).Live := by
  by_cases e : s = i
  · subst e; simpa using hv
  · rw [Blk.setSeq_seq_ne _ _ e]; exact h
theorem Blk.takeUp_live (t q : Nat) {b : Blk} {s : Nat} (h : (b.seq s).Live) : ((b.takeUp t q).seq s).Live := by
  unfold Blk.takeUp
  extract_lets taut prio v b1 u b2
  have h1 : (b1.seq s).Live := Blk.setSeq_live ⟨by simp, by simp⟩ h
  have h2 : (b2.seq s).Live := h1
  split
  · have h3 : ((b2.setQue q { b2.que q with idle := true }).seq s).Live := h2
    exact Blk.setSeq_live ⟨by simp, by simp⟩ h3
  · unfold Seq.Live; rw [(b2.readOn_qs q).2.2]; exact h2
theorem Blk.kick_live (t : Nat) {b : Blk} {s : Nat} (h : (b.seq s).Live) : ((b.kick t).seq s).Live := by
  unfold Blk.kick
  split
  · exact h
  · split
    · exact h
    · exact Blk.takeUp_live _ _ h
theorem Blk.advanceHead_live (q : Nat) {b : Blk} {s : Nat} (h : (b.seq s).Live) (hq : (b.seq (seqOf q)).Live) :
    ((b.advanceHead q).seq s).Live := by
  have hi : ∀ {p : Prop} [Decidable p] {x y : Blk}, (x.seq s).Live → (y.seq s).Live → ((if p then x else y).seq s).Live := by
    intro p _ x y h k; split <;> assumption
  unfold Blk.advanceHead
  extract_lets t u v b1 u1 b2 mine taut work v2 leave
  have h1 : (b1.seq s).Live := Blk.setSeq_live (by exact hq) h
  have h2 : (b2.seq s).Live := h1
  have hl : (leave.seq s).Live := Blk.setSeq_live ⟨by simp, by simp⟩ h2
  refine hi h2 (hi ?_ (hi (Blk.kick_live _ hl) ?_))
  · exact Blk.kick_live _ hl
  · unfold Seq.Live; rw [(b2.readOn_qs q).2.2]; exact h2
theorem Blk.joinSb_live (e : SbEntry) {b : Blk} {s : Nat} (h : (b.seq s).Live) : ((b.joinSb e).seq s).Live := by
  have ht : ∀ c : Blk, (c.seq s).Live → ((c.takeDesc e.q e.n e.slot).seq s).Live := by
    intro c hc
    unfold Blk.takeDesc
    extract_lets k v c1
    have h1 : (c1.seq s).Live := by
      simp only [c1]; split
      · by_cases e1 : s = k
        · subst e1; simpa [Seq.Live] using hc
        · rw [Blk.setSeq_seq_ne _ _ e1]; exact hc
      · exact hc
    split <;> exact h1
  unfold Blk.joinSb
  dsimp only
  have h2 : ∀ c : Blk, (c.seq s).Live → ((if e.opcode = opLAUNCH then c.jobsLaunched e.seat else c).seq s).Live := by
    intro c h; split <;> exact h
  apply h2
  split
  · exact ht _ h
  · exact h
theorem Blk.addEntry_live (e : SbEntry) {b : Blk} (h : (b.seq (seqOf e.q)).Live) : ((b.addEntry e).seq (seqOf e.q)).Live :=
  Blk.advanceHead_live e.q (Blk.joinSb_live e h) (Blk.joinSb_live e h)

/-! ### A slot that enters -/

/-- The only entry of its queue is found. -/
theorem Blk.entry_of_append {b : Blk} {e : SbEntry} {l : List SbEntry} (h : b.sb = l ++ [e]) (hl : ∀ f ∈ l, f.q ≠ e.q) :
    b.entry e.q e.n = some e := by
  have : l.find? (fun f => f.q == e.q && f.n == e.n) = none := by
    rw [List.find?_eq_none]; intro f hf; simp [hl f hf]
  simp [Blk.entry, h, List.find?_append, this]
theorem Blk.lower_of_append {b : Blk} {e : SbEntry} {l : List SbEntry} (h : b.sb = l ++ [e]) (hl : ∀ f ∈ l, f.q ≠ e.q) :
    b.lower e.q e.n = [] := by
  rw [Blk.lower, h, List.filter_eq_nil_iff]
  intro f hf
  rcases List.mem_append.1 hf with hf | hf
  · simp [hl f hf]
  · simp at hf; simp [hf]

/-- What it says that a slot is ready. -/
theorem Blk.slotReady_spec {b : Blk} {q : Nat} {op : W8} {l : Line} (h : b.slotReady q op = some l) :
    b.running = true ∧ b.flt.pcycReq = false ∧ ((b.que q).st = .opened ∨ (b.que q).st = .draining)
      ∧ (b.seq (seqOf q)).st = .running ∧ (b.seq (seqOf q)).serving = true ∧ (b.seq (seqOf q)).queue = q
      ∧ (b.que q).head < (b.que q).tail ∧ b.sbAvail q = true ∧ b.breakDue q (b.que q).head = false
      ∧ b.entry q (b.que q).head = none ∧ PMap.find (b.que q).head (b.que q).done = none
      ∧ b.heldLine q (b.que q).head = some l ∧ Slot.opcode l = op := by
  unfold Blk.slotReady at h
  dsimp only at h
  split at h
  · rename_i hc
    split at h
    · split at h
      · rename_i l' _ h'
        cases h
        simp only [Bool.and_eq_true, Bool.or_eq_true, beq_iff_eq, Bool.not_eq_true', decide_eq_true_eq] at hc
        have hn : b.entry q (b.que q).head = none ∧ PMap.find (b.que q).head (b.que q).done = none := by
          have := hc.2
          simp only [Blk.entered, Bool.or_eq_false_iff, Option.isSome_eq_false_iff, Option.isNone_iff_eq_none] at this
          exact this
        tauto
      · cases h
    · cases h
  · cases h
/-- A checked slot whose queue holds nothing before it starts as it enters. -/
theorem Blk.Clear.enter {b : Blk} {q : Nat} {op : W8} {l : Line} {d : Option Desc} (h : b.Clear q op l d) (x : Env)
    (h1 : op ≠ opHITCH) :
    b.enterSlot x q op d = (b.addEntry (b.newEntry q l d)).startCmd x (b.newEntry q l d) ∧ (b.newEntry q l d).opcode = op
      ∧ (b.newEntry q l d).code = 0 := by
  obtain ⟨hs, hc, hq, hf⟩ := h
  obtain ⟨-, -, hopen, hrun, -, -, -, -, -, -, -, -, hl⟩ := Blk.slotReady_spec hs
  have hop : (b.newEntry q l d).opcode = op := hl
  have hcode : (b.newEntry q l d).code = 0 := by
    change ((checkSlot b.wv.cur (b.seat ((b.wv.cur.owner q).getD 0)).expert q l d).map (·.1)).getD 0 = 0
    rw [hc]; rfl
  refine ⟨?_, hop, hcode⟩
  have heq : (b.newEntry q l d).q = q := rfl
  have hst : (b.newEntry q l d).started = false := rfl
  have hen : (b.newEntry q l d).ending = none := rfl
  unfold Blk.enterSlot
  rw [hs]
  dsimp only
  generalize b.newEntry q l d = e at *
  subst heq
  have hsb := Blk.addEntry_sb e b
  have hent := Blk.entry_of_append hsb hq
  have hlow := Blk.lower_of_append hsb hq
  have hque := Blk.addEntry_near e b e.q
  rw [if_pos rfl, b.joinSb_que_any e e.q] at hque
  have hfence : ((b.addEntry e).que e.q).fence = none := by rw [hque]; exact hf
  have hclose : ((b.addEntry e).que e.q).st ≠ .closing := by
    rw [hque]; show (b.que e.q).st ≠ _
    rcases hopen with h | h <;> simp [h]
  have hlive := Blk.addEntry_live e (b := b) ⟨by simp [hrun], by simp [hrun]⟩
  have hstop : (b.addEntry e).seqStopped e.q = false := by
    unfold Blk.seqStopped; simp [hlive.1, hlive.2]
  have hmay : (b.addEntry e).mayStart e = true := by
    simp [Blk.mayStart, hst, hen, Blk.canStart, hlow, Blk.fenced, hfence, hop, h1, hclose, hstop]
  unfold Blk.letIn
  simp only [hop, h1, decide_false, Bool.false_and, Bool.false_eq_true, if_false]
  unfold Blk.attempt
  rw [hent]
  simp [hmay]

/-! ### What follows a completion (07 R227) -/

theorem Blk.PumpWork.refl (b : Blk) : b.PumpWork b := rfl
theorem Blk.PumpWork.trans {b c d : Blk} (h : b.PumpWork c) (k : c.PumpWork d) : b.PumpWork d := by
  unfold Blk.PumpWork at *; rw [h] at k; exact k
theorem Blk.QueueWork.pumpWork {b c : Blk} (h : b.QueueWork c) : b.PumpWork c := by
  unfold Blk.QueueWork Blk.PumpWork at *; rw [h]
/-- A sequencer that serves no queue and finds none does nothing. -/
theorem Blk.serve_rests (x : Env) (s : Nat) {b : Blk} (h : (b.seq s).serving = false) (k : b.selectQueue s = none) :
    b.serve x s = b := by
  have h1 : b.leavePaused s = b := by unfold Blk.leavePaused; simp [h]
  have h2 : b.kick s = b := by
    unfold Blk.kick; split
    · rfl
    · rw [k]
  unfold Blk.serve
  simp [h1, h2, h]

end Sys2Proof.Machine
end

