-- ==== Sys2Proof/WellFormed.lean ====
section
/-! DEFINITION. Which commands are well formed: a message of the ring that some unit of the block sends. Every other
operand is bounded by its type. -/

namespace Sys2Proof

/-- The requesters of each request (R262, R30): RdOnce has none that keeps a copy; a Wr has the units that write. -/
def Rq.reads : Rq → Bool
  | .slot _ _ | .seq _ _ | .window _ | .draw _ _ | .tdesc _ | .image _ _ | .stream _ _ | .weave => true
  | _ => false
def Rq.writes : Rq → Bool
  | .seq _ _ | .window _ | .draw _ _ | .intake _ | .trace _ | .tangle | .record _ | .runRecord _ => true
  | _ => false
/-- An atomic lies in one line, aligned to its size (R258). -/
def AtomReq.aligned (t : AtomReq) : Bool := decide (t.off.toNat % (if t.wide then 8 else 4) = 0)
/-- A request is sent by a unit that makes it: RdS by caches, RdOnce by readers, Wr by writers; Fwd goes to a cache other than
its requester, and Data comes from an agent or its home. -/
def Instr.wellFormed (i : Instr) : Bool :=
  match i with
  | .rds a _ => decide (a.val ≠ 68)
  | .evict a _ => decide (a.val ≠ 68)
  | .rdonce r _ => r.reads
  | .wr r _ _ _ => r.writes
  | .atom _ t => t.aligned
  | .fwd a _ r => r ≠ .agent a
  | .fwdmiss a _ r => r ≠ .agent a
  | .data (some a) r _ _ _ => r ≠ .agent a
  | _ => true

end Sys2Proof
end

