-- ==== Sys2Proof/Tests/Slice0.lean ====
section
/-! SUPPORT. Tests: small states, expected results from the spec and from public vectors, and a witness of the hypotheses
of every statement (wit_<statement>), one state for each clause. -/

set_option Elab.async false
open Sys2Proof Sys2Proof.Machine
namespace Sys2Proof.Tests

/-! ### Small states -/

/-- A weave: engine 1 in slack partition 0, engine 0 in taut partition 1, queues 0 to 3 of seat 1 on 0, 4 to 7 on 1. -/
def weave : Weave := {
  parts := [
    { num := 0, taut := false, dedicated := false, warm := false, twinOk := false, mask := 2, maxTileNs := 0, maxInflight := 4
      sbReserve := 0, waitReserve := 0, residentKib := 0 },
    { num := 1, taut := true, dedicated := true, warm := false, twinOk := true, mask := 0x1D, maxTileNs := 0, maxInflight := 4
      sbReserve := 16, waitReserve := 16, residentKib := 4 }]
  seats := [{ seat := 1, partMask := 3, knotBase := 0, knotCount := 1, expert := 0xF }]
  qmaps := [{ first := 0, count := 4, owner := 1, part := 0, prio := 0, subset := 0 },
            { first := 4, count := 4, owner := 1, part := 1, prio := 0, subset := 0x1D }]
  clusters := [{ cluster := 0, ways := 0xF, slots0 := 4, slots1 := 4, slots2 := 4, slots3 := 4 }]
  twins := [{ a := 2, b := 3, arb := 4 }]
  intakes := [{ port := 1, kind1 := false, conceal := false, part := 0, engine := 1, knot := 5, staleNs := 0, lmBase := 0, lmSize := 4096
                bufBase := 0, bufSize := 0 }] }
/-- A started block under that weave; port 0 is up. -/
def started : Blk := {
  start := { poresetLow := false, done := true, hrpUp := true, began := true, arrays := true }
  wv := { st := .done, epoch := 1, cur := weave }
  flt := { warden := .running }
  sq := [(0, { st := .idle }), (1, { st := .idle }), (2, { st := .idle }), (3, { st := .idle })]
  pwr := { ariReq := true, ctlReq := true, ariAck := true, ctlAck := true }
  mem := { ports := [(0, { link := .up, reqCred := 4, wdCred := 4, reqGrant := 8, wdGrant := 8 })] } }
def st (f : Blk → Blk) : State := { State.reset with blk := f started }
def base : State := st id
def stew : Acc := { seat := 0, priv := true, be := 15 }
def seat1 : Acc := { seat := 1, priv := false, be := 15 }
/-- A slot at HEAD of queue 0, held by sequencer 0. -/
def slotLine (op : W8) (x : Nat) : Line := BitVec.ofNat 512 (op.toNat + x)
def slotBlk (op : W8) (x : Nat) (b : Blk) : Blk := { b with
  qs := [(0, { st := .opened, tail := 2, ringSlots := 64 })]
  sq := (0, { st := .running, queue := 0, serving := true, lines := [(0, 0, slotLine op x)] }) :: b.sq.drop 1 }
def stSlot (op : W8) (x : Nat) : State := st (slotBlk op x)
def fb (off v : Nat) : Nat := v * 2 ^ (8 * off)
def xTie := fb 0 (2^16) + fb 4 5 + fb 8 9
def xCopy := fb 8 0x1010 + fb 0x10 0x2000 + fb 0x18 100
def xFill := fb 8 0x1010 + fb 0x10 100 + fb 0x18 0xAB
def xWatch := fb 0 (2 * 2^17) + fb 8 0x1000 + fb 0x10 0x3000 + fb 0x18 (4 + 65536) + fb 0x1C (1 + 65536)
def xImem := fb 4 1 + fb 8 0x4000 + fb 0x10 (64 + 7 * 65536)
def xWs := fb 4 1 + fb 8 0x4000 + fb 0x10 0 + fb 0x14 128
def desc1 : Desc := BitVec.ofNat 1024 (0x4B4C4E43 + fb 4 7 + fb 8 8 + fb 0xC 8 + fb 0x10 1 + fb 0x14 (4 + 4 * 65536))
def descS : Desc := BitVec.ofNat 1024 (0x4B4C4E43 + fb 4 7 + fb 8 4 + fb 0xC 4 + fb 0x10 1 + fb 0x14 (4 + 4 * 65536))
def xLaunch := fb 8 0x1000
def xStand := fb 4 0 + fb 8 0x1000 + fb 0x10 5 + fb 0x18 1 + fb 0x20 3
/-- The same for queue 4, of the taut partition. -/
def slotBlk4 (op : W8) (x : Nat) (b : Blk) : Blk := { b with
  qs := [(4, { st := .opened, tail := 2, ringSlots := 64 })]
  sq := (0, { st := .running, queue := 4, serving := true, lines := [(4, 0, slotLine op x)] }) :: b.sq.drop 1 }
def standing0 : Standing := { ord := 0, q := 4, n := 9, eng := 0, twinRec := none, l := { prog := 7 }, epoch := 1, trigger := 5, step := 1, thr := 3
                              catchup := false, rrSlots := 0, rrBase := 0, tieB := 0, tieA := 0, bound := true }
def xHitch := fb 4 5 + fb 8 9
/-- Yarn 1: ADD W3 := W1 + W2, flags. -/
def yarn1 : BitVec 192 := BitVec.ofNat 192 (2 + 3 * 2^4 + 1 * 2^8 + 2 * 2^12 + 2^18)
def yF : YarnF := yarnFields yarn1
def strandW (sq tgt cond : Nat) : W32 := BitVec.ofNat 32 (1 + sq * 2^13 + tgt * 2^16 + cond * 2^28)
def seqSt (w : W32) (v : Seq) : State := st fun b => { b with
  sq := (0, v) :: b.sq.drop 1, patch := { b.patch with patStrand := [(5, w)], patYarn := [(1, yarn1)] } }
def seq5 : Seq := { st := .running, sptr := 5, w := [(1, 7), (2, 8)], lc := 2 }
def sh0 : Shadow := { sptr := 0x30, lc := 4, stack := [9], w := [(1, 1)], z := true, c := true }
def tie0 : Tie := { knot := 5, op := .add, val := 3, flags := 2, epoch := 1, src := .command }
def tieSt (role : W32) : State := st fun b => ({ b with kn := { b.kn with tieQ := [tie0] } }).setKnot 5 { val := 4, role := role }
def hEnt : SbEntry := { ord := 0, q := 0, n := 1, slot := slotLine opHITCH xHitch, desc := 0, opcode := opHITCH, code := 0, detail := 0, epoch := 1, prog := .hitch (some (0, 77)) }
def wake0 : Waiter := { knot := 5, stand := false, q := 0, n := 1 }
def wakeSt : State := st fun b => { b with qs := [(0, { st := .opened, tail := 2, head := 2, comp := 1, ringSlots := 64 })], sb := [hEnt], kn := { b.kn with wakes := [wake0] } }
/-- A launch of queue 0 or 4 in the scoreboard. -/
def lEnt (q : Nat) (l : Launch) : SbEntry := { ord := 0, q := q, n := 0, slot := slotLine opLAUNCH xLaunch, desc := desc1, opcode := opLAUNCH, code := 0, detail := 0, epoch := 1, prog := .launch l }
def l8 : Launch := { prog := 7, m := 8, n := 8, b := 1, rows := 4, cols := 4, unplaced := [{ lo := 0, hi := 4 }] }
def engR : Eng := { bank0 := { st := .ready, prog := 7 }, level := 32 }
def selSt (q e : Nat) : State := st fun b => { b with sb := [lEnt q l8], qs := [(q, { st := .opened, tail := 1, head := 1, ringSlots := 64 })], eng := [(e, engR)] }
def jobL (q : Nat) : Job := { run := false, q := q, n := 0 }
/-- Engine 1 (partition 0) at work on tile 2 of the launch. -/
def engW : Eng := { engR with job := some (jobL 0), tile := 2, st := .running, started := true, ptr := 9, step := 11, digest := 5 }
def started1 (l : Launch) : SbEntry := { lEnt 0 l with started := true }
def workSt (v : Eng) (f : Blk → Blk) : State := st fun b => f { b with sb := [started1 { l8 with unplaced := [] }], qs := [(0, { st := .opened, tail := 1, head := 1, ringSlots := 64 })], eng := [(1, v)] }
def save0 : SaveArea := { arch := { param := 5 }, epoch := 1, sbIndex := 0, job := jobL 0, prog := 7, ptr := 9, tile := 2, step := 11, numeric := 0, digest := 5, apos := false, mmFree := 0 }
def at1 (t : W64) (s : State) : State := { s with env := { s.env with time := { s.env.time with now := t } } }
def waits : SbEntry := { lEnt 1 { l8 with waitFrom := some 0 } with ord := 3 }
def quantSt : State := at1 2000000 (workSt engW fun b => { b with sb := b.sb ++ [waits] })
/-- Engines 2 and 3 in a slack partition; engine 1's deque has tiles. -/
def weaveS : Weave := { weave with
  parts := [{ num := 0, taut := false, dedicated := false, warm := false, twinOk := false, mask := 6, maxTileNs := 0, maxInflight := 4
              sbReserve := 0, waitReserve := 0, residentKib := 0 }], twins := [] }
def stealSt (f : Blk → Blk) : State := workSt { engW with deque := [(jobL 0, { lo := 3, hi := 3 + 5 })] } fun b =>
  f { b with wv := { b.wv with cur := weaveS }, eng := b.eng ++ [(2, engR)] }
def steal0 : Steal := { thief := 2, victim := 1, tiles := [(jobL 0, { lo := 5, hi := 8 })], epoch := 1 }
def run0 : Standing := { standing0 with waiting := some 4, eng := 0 }
def runSt : State := st fun b => { b with qs := [(4, { st := .opened, tail := 10, head := 10, ringSlots := 64 })], stand := [run0], eng := [(0, { engR with st := .standing })] }
/-- Engine 1 before a bundle that loads V5 from generator 0 and ends the tile. -/
def engB : Eng := { engW with bank0 := { st := .ready, prog := 7, data := [(288, 1), (289, 0x51)] }, lm := [(64, 9)]
                              arch := { ag := [(0, agLoad (BitVec.ofNat 512 (64 + fb 8 (1 + 2^16 + 2^32 + 2^48) + fb 0x10 1)) 0 0 0)] } }
def issue0 : Issue :=
  let v : Eng := engB.landUpTo 11
  (match runSlots v (((workSt engB id).blk.setEng 1 v).tileCtx 1) v.fetch with
   | .ok r => r
   | .error _ => { v := v })
def pw (d : Dest) : PendW := { land := 10, issue := 5, slot := 0, dest := d, data := 0x1234, mask := 3 }
def idxDesc : Line := BitVec.ofNat 512 (64 + fb 8 (1 + 2^16 + 2^32 + 2^48) + fb 0x10 (1 + 6 * 65536))
def chanIn : DrawChan := { busy := true, desc := BitVec.ofNat 512 (0x4000 + fb 8 128 + fb 0x10 (128 + 65536) + fb 0x14 (1 + 65536) + fb 0x18 1), issued := 1, done := 0, rows := 1 }
def twinL (cause : BitVec 2) (a b : TwinEnd) : Launch := { l8 with unplaced := [], twin := some { pairIx := 0, a := { fin := some a, done := 4 }, b := { fin := some b, done := 4 }, cause := cause } }
def twinSt (l : Launch) (es : SMap Eng) : State := st fun b => { b with sb := [{ lEnt 4 l with started := true }], qs := [(4, { st := .opened, tail := 1, head := 1, ringSlots := 64 })], eng := es }
/-- A weave of one QUEUE_MAP record and END (02 R37 to R45), its CRC by R38. -/
def miniWv : Mem := [(0, 69), (1, 86), (2, 87), (3, 75), (4, 1), (6, 1), (8, 96), (12, 2), (60, 65), (61, 187), (62, 103), (63, 46), (64, 3), (66, 24), (75, 4), (76, 241), (77, 1), (88, 15), (90, 8)]
def wvSt (st' : WvState) (f : WeaveUnit → WeaveUnit) : State := st fun b => { b with wv := f { b.wv with st := st' } }
def steeped (s : State) : State := { s with env := { s.env with steep := miniWv } }
def memSt (f : MemState → MemState) : State := st fun b => { b with mem := f b.mem }
def rc5 : RcLine := { way := 0, data := 0xABCD, dirty := false, used := 0 }
def holds5 : MemState → MemState := fun m => { m with rc := [(5, rc5)] }
def copySt (k : Copy) : State := memSt fun m => { m with rc := [(5, rc5)], agents := [(3, [(5, k)])], dir := [(5, { isX := true, pres := 8, used := 0 })] }
def cp (s : CopySt) : Copy := { st := s, data := 0x77, hold := false, used := 0 }
def at3 : AtomReq := { seat := 1, op := .add, wide := false, off := 4, opnd := 3, cmp := 0 }
/-- A flit with its CRC over bits 0 to 575 (10 R279). -/
def flitOf (n : Nat) : BitVec 608 := BitVec.ofNat 608 (n % 2 ^ 576 + 2 ^ 576 * (crc32c (toBytes 72 (n % 2 ^ 576))).toNat)
def portSt (f : MPort → MPort) : State := st fun b => b.setPort 0 (f (b.port 0))
def rdReq (u : PortUse) : PortReq := { write := false, line := 5, seat := 1, src := 3, taut := false, holder := 17, use := u }
def wrReq (u : PortUse) : PortReq := { rdReq u with write := true, mask := fullMask }
def ikSt (v : Intake) (f : Blk → Blk) : State := st fun b => f { b with ik := [(1, v)] }
def ikRec : WvIntake := (weave.intakes.headD { port := 0, kind1 := false, conceal := false, part := 0, engine := 0, knot := 0, staleNs := 0, lmBase := 0, lmSize := 0, bufBase := 0, bufSize := 0 })
/-- An item of 64 rows of one byte, its header staged. -/
def item0 (ph : ItemPhase) : Item := { phase := ph, capture := 0, seq := 0, dmgMax := 0, slotsLog2 := 0, staged := toBytes 64 (fb 0 64 + fb 8 64 + fb 10 1 + fb 12 1) }
def landing0 : Landing := { capture := 0, seq := 0, knot := 5, concealed := false, outst := [], record := none, engines := [1] }
def pwrSt (f : Power → Power) (g : Blk → Blk) : State := st fun b => g { b with pwr := f b.pwr, start := { b.start with began := false } }
def patchSt (p : Patch) (g : Blk → Blk) : State := st fun b => g { b with patch := p }
def magicBad : List W8 := List.replicate 56 1
def fltSt (f : Faults → Faults) : State := st fun b => { b with flt := f b.flt }
def dbgSt (f : Debug → Debug) : State := st fun b => { b with dbg := f b.dbg }
def trec : TraceRec := { kind := 3, seq := 4, time := 5, body := [6, 7] }
def unitTag : BreakUnit := { arm := true, kind := true, queue := 2, value := 7, mask := 0xFF, once := true }
def lz : Launch := { l8 with unplaced := [] }
def lw : Launch := { l8 with waitFrom := some 0 }
def rng (a b : Nat) : Range := { lo := a, hi := b }
def tw56 : Twin := { pairIx := 0, a := { fin := some (.pair 5 6), done := 4 }, b := { fin := some (.pair 5 6), done := 4 } }
def tw57 : Twin := { pairIx := 0, a := { fin := some (.pair 5 6), done := 4 }, b := { fin := some (.pair 5 7), done := 4 } }
def cpH : Copy := { cp .m with hold := true }
def dir8 : DirEnt := { isX := true, pres := 8, used := 0 }
def dirW : DirEnt := { isX := true, pres := 1 <<< 68, used := 0 }
def part0 : WvPart := weave.parts.headD { num := 0, taut := false, dedicated := false, warm := false, twinOk := false, mask := 2, maxTileNs := 0, maxInflight := 4, sbReserve := 0, waitReserve := 0, residentKib := 0 }
/-- With dispatcher-only seat 2. -/
def seat2 : Acc := { seat := 2, priv := false, be := 15 }
def q0 (u : Que) : State := st fun b => { b with qs := [(0, u)] }
def op64 : Que := { st := .opened, ringSlots := 64, idle := true }
def drain0 : Drain := { src := none, copy := false, item := trec, len := 64, want := 0 }
def drain1 : Drain := { drain0 with bad := true }
def dirS : DirEnt := { dir8 with isX := false }
/-- The descriptor of the slot at HEAD has come. -/
def hasDescBlk (q : Nat) (d : Desc) (b : Blk) : Blk :=
  b.setSeq 0 { b.seq 0 with headDesc := some { q := q, n := 0, data := d, have0 := true, have1 := true } }
def launchSt (d : Desc) : State := st fun b => hasDescBlk 0 d (slotBlk opLAUNCH xLaunch b)
def eng7 : Eng := { bank0 := { st := .ready, prog := 7 } }
def standSt : State := st fun b => hasDescBlk 4 descS (slotBlk4 opSTAND xStand { b with eng := [(0, eng7)] })
def standE : SbEntry := { ord := 0, q := 4, n := 9, slot := slotLine opSTAND xStand, desc := descS, opcode := opSTAND, code := 0, detail := 0, epoch := 1, started := true }
def standing1 : Standing := { standing0 with bound := false, copied := [0] }
def bindSt : State := st fun b => { b with sb := [standE], qs := [(4, { st := .opened, tail := 10, head := 10, ringSlots := 64 })], stand := [standing1], eng := [(0, eng7)] }
def fence0 : Fence := { hitch := 0, flags := 8, detail := 77 }
def ent (op : W8) : SbEntry := { ord := 0, q := 0, n := 1, slot := slotLine op 0, desc := 0, opcode := op, code := 0, detail := 0, epoch := 1 }
def stF (op : W8) := st (fun b => { slotBlk opHITCH xHitch b with qs := [(0, { st := .opened, tail := 2, head := 2, ringSlots := 64, fence := some fence0 })], sb := [ent op] })
/-- A slot of queue 0 has been asked for, at place 0, and its answer m is on its way. -/
def qS (m : Instr) : State := st fun b => { b with
  qs := [(0, {op64 with tail := 3, idle := false})]
  sq := (0, { st := .running, queue := 0, serving := true, outs := [(0, { q := 0, what := .slot 0 })] }) :: b.sq.drop 1
  mem := { b.mem with ring := [m] } }
def eX : SbEntry := { ord := 0, q := 0, n := 0, slot := slotLine opCOPY 0, desc := 0, opcode := opCOPY, code := 0, detail := 0, epoch := 1, started := true, ending := some .ok, prog := .xfer 4 4 0 none }
def qC : State := st fun b => { b with qs := [(0, {op64 with tail := 3, head := 1, idle := false})], sb := [eX] }
def qD : State := st fun b => { b with qs := [(0, {op64 with tail := 3, head := 1, idle := false, done := [(0, 77)], srOn := true, srSlots := 64, srWait := true, srAcked := true})] }
def qE (resp : BitVec 2) : State := st fun b => { b with qs := [(0, {op64 with tail := 3, head := 1, idle := false, done := [(0, 77)], srOn := true, srSlots := 64, srWait := true})], mem := { b.mem with ring := [.statusRecordAck (.ring 0) resp] } }
/-- Places 0 and 2 of the sequencer are taken; the answer for place 2 is on its way. -/
def respSt (resp : BitVec 2) : State := st fun b => { b with
  sq := (0, { seq5 with outs := [(0, { q := 0, what := .slot 0 }), (2, { q := 0, what := .line true })] }) :: b.sq.drop 1
  mem := { b.mem with ring := [.seqMemoryResponse 0 2 77 resp] } }
/-- m is on its way. -/
def withMsg (m : Instr) (b : Blk) : Blk := { b with mem := { b.mem with ring := [m] } }
def asked3 (b : Blk) : Blk := { b with mem := { b.mem with misses := [{ agent := 1, line := 5, queue := none, seat := 0 }] } }
def idxDescS : Line := BitVec.ofNat 512 (64 + fb 8 (1 + 2^16 + 2^32 + 2^48) + fb 0x10 (1 + 2 * 65536))
/-- A row of two lines whose answers have come. -/
def rowIn (bad : Bool) : DrawChan := { chanIn with soc := 0x4000, lm := 128, got := [(0x100, 3), (0x101, 5)], want := 0, bad := bad, bundle := 9 }
def copy0 (job : Job) (bad : Bool) : DescCopy := { job := job, first := 2, count := 2, got := [(2, 5), (3, 6)], want := 0, bad := bad }
def standW : Standing := { standing0 with bound := false, copied := [], l := { standing0.l with addr := 0 } }
def tl3 : Launch := let l := twinL 1 (.pair 5 6) (.pair 5 7); { l with twin := l.twin.map fun t => { t with wants3 := true } }
def tl3t : Twin := tl3.twin.getD {pairIx := 0}
def twin0 : WvTwin := weave.twins.headD ⟨0,0,0⟩
def fetch0 (bad : Bool) : Fetch := { src := 0x1000, len := 96, want := 0, got := [(0x40, 3), (0x41, 5)], bad := bad }
/-- One message is on the ring. -/
def ringed (m : Instr) (s : State) : State := { s with blk := { s.blk with mem := { s.blk.mem with ring := [m] } } }
def busySt (bz : Busy) : State := memSt fun m => { holds5 m with busy := [(5, bz)], dir := [(5, { isX := false, pres := 8, used := 0 })] }
def bzA : Busy := { req := .rds 3, ack := true }
def bzW : Busy := { req := .wr (.seq 2 0) 0x99 0xFF, invs := 1, wait := .grant }
def bzR : Busy := { req := .rds 4, ack := true }
def miss3 : Miss := { agent := 3, line := 5, queue := none, seat := 0 }
def mE : SbEntry := { ord := 0, q := 0, n := 0, slot := slotLine opMEMBAR 0, desc := 0, opcode := opMEMBAR, code := 0, detail := 0, epoch := 1, started := true, prog := .membar false 0 }
def bz : Busy := { req := .rdonce (.seq 2 0), wait := .fill }
def mB : SbEntry := { ord := 0, q := 0, n := 0, slot := slotLine opMEMBAR 0, desc := 0, opcode := opMEMBAR, code := 0, detail := 0, epoch := 1, started := true, prog := .membar true 1 }
def fillSt : State := st (fun b => let b := b.setPort 0 { b.port 0 with tags := [(7, rdReq (.home 5))] }; { b with mem := { b.mem with busy := [(5, bz)] } })
def fl1 : W8 × BitVec 736 := (3, 99)
def bodyI (buf : List W8) : Item := { item0 .body with got := 64 + buf.length, buffered := buf }
def startSt (f : Start → Start) (g : Blk → Blk) : State := st fun b => g { b with start := f b.start }
def goodLen : List W8 := List.replicate 8 1 ++ [80, 0, 0, 0] ++ List.replicate 68 2
def emptyRec : List (Nat × W32) × List (Nat × BitVec 192) := ([], [])
def rgA : State := fltSt fun f => {f with called := [rungReq (.engine 1) 9], auto := 0}
def stew3 : Acc := { stew with be := 3 }
def ordSt (r : Rung) (k : W8) : State := (workSt engW fun b => { b with flt := { b.flt with deferred := [rungReq r k] }, wv := { b.wv with st := .done } })
def errSt : State := workSt {engR with st := .resetting} (fun b => { b with flt := { b.flt with active := [rungReq (.engine 1) 9], pcycReq := true }, mem := { b.mem with ring := [.wbRefused 2 5 2] } })
def tag1 : Nat × Nat × W32 := (2, 5, 7)
def drSt (bad : Bool) : State := st (fun b => {b with trc := {b.trc with caddy := {recs := [trec]}, rings := [(16, {base := 64, size := 1024, en := true, out := some {src := none, copy := false, item := trec, len := 64, want := 0, bad := bad}})]}})
def hop : HostOp := {acc := stew, addr := 0x7000, wdata := some 0x327}
def ringed2 (m : Instr) (s : State) : State := { s with blk := { s.blk with mem := { s.blk.mem with ring := [m] } } }
def startSt2 (f : Start → Start) (g : Blk → Blk) : State := st fun b => g { b with start := f b.start }
def qS1 (m : Instr) : State := (st fun b => { b with
  qs := [(0, {op64 with tail := 1, idle := false})]
  sq := (0, { st := .running, queue := 0, serving := true, outs := [(0, { q := 0, what := .slot 0 })] }) :: b.sq.drop 1
  mem := { b.mem with ring := [m] } })
def eL : SbEntry := { ord := 0, q := 0, n := 0, slot := slotLine opIMEM xImem, desc := 0, opcode := opIMEM, code := 0, detail := 0, epoch := 1, started := true, prog := .load { targets := [1], banks := [(1,1)], got := [(0, 1)] } }
def qCe (e : SbEntry) (f : Blk → Blk) : State := st fun b => f { b with qs := [(0, {op64 with tail := 3, head := 1, idle := false})], sb := [e], eng := [(1, engR)] }
def kL : LoadSt := match eL.prog with | .load k => k | _ => {}
def lD : Launch := { l8 with unplaced := [], doneTiles := 4, numeric := 1 }
def eD : SbEntry := { lEnt 0 lD with started := true }
def yarnOf (mem maddr maux mmask sbi sbsrc : Nat) : BitVec 192 := BitVec.ofNat 192 (mem * 2^96 + maddr * 2^100 + maux*2^104 + mmask*2^108 + sbi*2^112 + sbsrc*2^116)
def seqY (y : BitVec 192) (cl : Nat) (v : Seq) (f : Blk → Blk) : State := st fun b => f { b with
  sq := (0, v) :: b.sq.drop 1, patch := { b.patch with patStrand := [(5, strandW 0 0 0 + BitVec.ofNat 32 (cl * 2^10))], patYarn := [(1, y)] } }
def seqM : Seq := { st := .running, sptr := 5, serving := true, queue := 0, w := [(1, 0x1040), (2, 1), (3, 0xFF)] }
def q64 (b : Blk) : Blk := { b with qs := [(0, {op64 with tail := 3, idle := false})] }
def yM1 := yarnOf 1 1 2 3 0 0
def yM2 := yarnOf 2 1 2 3 0 0
def yM3 := yarnOf 3 1 2 3 0 0
def yM4 := yarnOf 4 1 2 3 0 0
def yM5 := yarnOf 5 1 2 3 0 0
def chkS := strandW 0 0 0 + BitVec.ofNat 32 (2*2^10)
def sbiS (k : Nat) (v : Seq) (f : Blk → Blk) : State := seqY (yarnOf 0 0 0 0 k 4) 2 v f
def yS (k : Nat) : YarnF := yarnFields (yarnOf 0 0 0 0 k 4)
def l45 : Line := slotLine 0x45 0
def eC : SbEntry := { ord := 0, q := 0, n := 0, slot := slotLine opCOPY 0, desc := 0, opcode := opCOPY, code := 0, detail := 0, epoch := 1, started := true, prog := .xfer 0 0 0 none }
def eT (op : W8) (x : Nat) : SbEntry := { eC with slot := slotLine op x, opcode := op, started := false, prog := .none }
def bzF : Busy := { req := .rdonce (.window 1), wait := .forward }
def fwdBusy (s : State) : State := { s with blk := { s.blk with mem := { s.blk.mem with busy := [(5, bzF)] } } }
def bzF2 : Busy := { req := .rdonce (.seq 2 0), wait := .forward }
def fwdBusy2 (s : State) : State := { s with blk := { s.blk with mem := { s.blk.mem with busy := [(5, bzF2)] } } }
def unitC (a : BitVec 3) : BreakUnit := { arm := true, kind := false, queue := 0, value := 0, action := a }
def brkSt (us : SMap BreakUnit) : State := st fun b => { b with
  qs := [(0, { st := .opened, tail := 2, ringSlots := 64, idle := false })]
  sq := (0, { st := .idle, queue := 0, lines := [(0, 0, l45)] }) :: b.sq.drop 1, dbg := { b.dbg with units := us } }

/-! ### Messages that no unit sends are ill formed -/

/-- 10 R262: the window keeps no shared copy and evicts none, a status record is not read, a slot read is not written, an
atomic of 4 bytes is aligned, and no cache forwards to itself. -/
theorem test_ill_formed :
    (Instr.rds 68 5).wellFormed = false ∧ (Instr.evict 68 5).wellFormed = false
    ∧ (Instr.rdonce (.record 0) 5).wellFormed = false ∧ (Instr.wr (.slot 0 0) 5 0 0).wellFormed = false
    ∧ (Instr.atom 5 { at3 with off := 6 }).wellFormed = false ∧ (Instr.fwd 3 5 (.agent 3)).wellFormed = false
    ∧ (Instr.fwdmiss 3 5 (.agent 3)).wellFormed = false ∧ (Instr.data (some 3) (.agent 3) 5 0 false).wellFormed = false := by
  decide +kernel
theorem test_well_formed :
    (Instr.rds 67 5).wellFormed = true ∧ (Instr.rdonce (.slot 0 0) 5).wellFormed = true ∧ (Instr.wr (.record 0) 5 0 0).wellFormed = true
    ∧ (Instr.atom 5 at3).wellFormed = true ∧ (Instr.fwd 3 5 (.agent 4)).wellFormed = true
    ∧ (Instr.data none (.agent 3) 5 0 true).wellFormed = true := by decide +kernel
/-- The table gives no row bits. -/
theorem test_decodes_none : decodeTableWord 32 1 = none := rfl

/-! ### Public vectors and the spec's figures -/

/-- CRC-32C of the nine digits 1 to 9 (10 R279 names the code). -/
theorem test_crc : crc32c [0x31, 0x32, 0x33, 0x34, 0x35, 0x36, 0x37, 0x38, 0x39] = 0xE3069283 := by decide +kernel
/-- SHA-256 of the three bytes abc (FIPS 180-4). -/
theorem test_sha : sha256 [0x61, 0x62, 0x63] = 0xba7816bf8f01cfea414140de5dae2223b00361a396177a9cb410ff61f20015ad := by
  decide +kernel
/-- The S-box of FIPS 197: 53 goes to ED. -/
theorem test_aes : sbox 0x53 = 0xED := by decide +kernel
/-- The generator of P-256 lies on the curve (FIPS 186). -/
theorem test_curve : onCurve p256Gx p256Gy = true := by decide +kernel
/-- 1.5 and -2 in FP16 and FP32, and 1/3 to the nearest. -/
theorem test_floats : enc16 (dec32 0x3FC00000) = 0x3E00 ∧ enc32 (dec16 0xC000) = 0xC0000000
    ∧ enc32 (div32 rmNE .one (.fin false 3 0)) = 0x3EAAAAAB := by decide +kernel
/-- A weave of one QUEUE_MAP record passes the check; a byte changed fails its CRC (02 R38, R58). -/
theorem test_weave_check :
    (match weaveCheck miniWv false 96 none 1 false with
     | .good w => w.qmaps.length == 1
     | .bad _ _ => false) = true
    ∧ (match weaveCheck (Mem.write miniWv 88 14) false 96 none 1 false with
       | .good _ => false
       | .bad _ _ => true) = true := by decide +kernel
/-- A thief in another cluster takes 2 of 3 tiles, a cluster mate 1 of 1 (09 R232). -/
theorem test_steal_half : takeHigh ((3 + 1) / 2) [rng 85 88] = ([rng 86 88], [rng 85 86])
    ∧ takeHigh ((1 + 1) / 2) [rng 85 86] = ([rng 85 86], []) := by decide +kernel
/-- 08 R205: ADD wraps modulo 2^64 and keeps flags; SET clears them. -/
theorem test_tie_wraps : (Knot.tied { val := 0xFFFFFFFFFFFFFFFF, flags := 8 } { tie0 with val := 2 }) = { val := 1, flags := 10 }
    ∧ (Knot.tied { val := 4, flags := 15 } { tie0 with op := .set, val := 2, flags := 1 }) = { val := 2, flags := 1 } := by decide +kernel
/-- 06 R163: a ring of 64 takes 64 commands and not 65. -/
theorem test_doorbell_overrun :
    (doorbellCase op64 64).toOption.map (·.tail) = some 64
    ∧ (match doorbellCase op64 65 with
       | .error c => c == 7
       | .ok _ => false) = true := by decide +kernel
/-- 13 R348: 255 W is taken as 40, 0 as 4. -/
theorem test_budget_clamps :
    (match exec (.keepCycle 255) (pwrSt id id), exec (.keepCycle 0) (pwrSt id id) with
     | .next t, .next u => t.blk.pwr.sample == 40 && u.blk.pwr.sample == 4
     | _, _ => false) = true := by decide +kernel

/-! ### The machine -/

theorem reset_steep : State.reset.SteepWf := by decide
theorem wit_SteepStaysCanonical : State.reset.SteepWf ∧ ∃ u, step State.reset = .next u := ⟨reset_steep, _, rfl⟩
theorem wit_WeaveAndStrapsStand : (∃ u, exec (.loadUpdate) base = .next u) ∧ Instr.loadUpdate ≠ .poresetN
    ∧ Instr.loadUpdate ≠ .pourEdge ∧ Instr.loadUpdate ≠ .warmStart ∧ (∀ n k, Instr.loadUpdate ≠ .coldStart n k)
    ∧ (∃ u, exec .warmStart base = .next u) ∧ base.blk.start.done = true :=
  ⟨⟨_, rfl⟩, by decide, by decide, by decide, (by intro n k h; cases h), ⟨_, rfl⟩, rfl⟩
theorem wit_EveryCommandCompletes : base.pending = [] := rfl
theorem wit_StepRunsFront : ({ base with pending := [.tieApply, .waiterWake] } : State).pending = .tieApply :: [.waiterWake] := rfl
theorem wit_BundleIssues :
    (let s : State := workSt { engB with level := 5, phase := 3 } id
     let o := s.blk.engine 1
     s.blk.running = true ∧ s.blk.clocked 1 = true ∧ o.mayIssue = true ∧ o.level < 16 ∧ o.phase + o.level < 16)
    ∧ (let s : State := workSt engB id
       let b := s.blk
       let o := b.engine 1
       let u : Eng := if o.level < 16 then o.edge else o
       let v : Eng := u.landUpTo u.step
       b.running = true ∧ b.clocked 1 = true ∧ o.mayIssue = true ∧ (16 ≤ o.level ∨ 16 ≤ o.phase + o.level)
         ∧ v.bubble = false ∧ v.sentinel = false ∧ v.ptr ≤ 1023 ∧ bundleBad v.fetch v = false
         ∧ nextBundle v v.fetch = .ok ([], 10) ∧ waitsDraw v (aSlot v.fetch) = false
         ∧ runSlots v ((b.setEng 1 v).tileCtx 1) v.fetch = .ok issue0 ∧ issue0.soc = []) := by
  refine ⟨?_, ?_⟩ <;> decide +kernel
theorem qS1_rests (m : Instr) (r : Nat) (h : r ≠ 0) : (qS1 m).blk.wantsService r = false := by
  have : (qS1 m).blk.que r = {} := by
    simp [qS1, st, Blk.que, SMap.get, PMap.find, Ne.symm h]
  simp [Blk.wantsService, this]

/-! ### Witnesses -/

theorem wit_ImmediateCommands :
    (let s : State := stSlot opNOP 0
     s.blk.Clear 0 opNOP (slotLine opNOP 0) none)
    ∧ (let s : State := stSlot opTAG 0
       s.blk.Clear 0 opTAG (slotLine opTAG 0) none)
    ∧ (let s : State := stSlot opMARK 0
       s.blk.Clear 0 opMARK (slotLine opMARK 0) none
         ∧ (s.blk.trc.ctl.getLsbD 0 = false ∨ s.blk.trc.caddy.room blkCap (markBody (s.blk.newEntry 0 (slotLine opMARK 0) none)) = true))
    ∧ (let s : State := stSlot opTIE xTie
       s.blk.Clear 0 opTIE (slotLine opTIE xTie) none
         ∧ (∀ u ∈ s.blk.kn.tieQ, u.knot ≠ (tieOf (s.blk.newEntry 0 (slotLine opTIE xTie) none)).knot)
         ∧ BitVec.toNat (s.blk.knot (tieOf (s.blk.newEntry 0 (slotLine opTIE xTie) none)).knot).role ≤ BitVec.toNat (tieOf (s.blk.newEntry 0 (slotLine opTIE xTie) none)).epoch) := by
  refine ⟨?_, ?_, ?_, ?_⟩ <;> decide +kernel
theorem wit_TransfersStart :
    (let s : State := stSlot opMEMBAR 0
     s.blk.Clear 0 opMEMBAR (slotLine opMEMBAR 0) none)
    ∧ (let s : State := stSlot opCOPY xCopy
       s.blk.Clear 0 opCOPY (slotLine opCOPY xCopy) none ∧ Slot.q64 (slotLine opCOPY xCopy) 24 ≠ 0
         ∧ s.blk.Place 0 (s.blk.newEntry 0 (slotLine opCOPY xCopy) none) 1)
    ∧ (let s : State := stSlot opCOPY 0
       s.blk.Clear 0 opCOPY (slotLine opCOPY 0) none ∧ Slot.q64 (slotLine opCOPY 0) 24 = 0)
    ∧ (let s : State := stSlot opFILL xFill
       s.blk.Clear 0 opFILL (slotLine opFILL xFill) none ∧ Slot.q64 (slotLine opFILL xFill) 16 ≠ 0
         ∧ s.blk.Place 0 (s.blk.newEntry 0 (slotLine opFILL xFill) none) 1)
    ∧ (let s : State := stSlot opFILL 0
       s.blk.Clear 0 opFILL (slotLine opFILL 0) none ∧ Slot.q64 (slotLine opFILL 0) 16 = 0)
    ∧ (let s : State := stSlot opWATCH xWatch
       s.blk.Clear 0 opWATCH (slotLine opWATCH xWatch) none ∧ 0 < watchTotal (slotLine opWATCH xWatch)
         ∧ s.blk.Place 0 (s.blk.newEntry 0 (slotLine opWATCH xWatch) none) 1) := by
  refine ⟨?_, ?_, ?_, ?_, ?_, ?_⟩ <;> decide +kernel
theorem wit_LoadsStart :
    (let s : State := stSlot opIMEM xImem
     loadTargets s.blk 0 (slotLine opIMEM xImem) = [1] ∧ (∀ f ∈ s.blk.sb, f.ord ≠ s.blk.dsp.nextOrd)
       ∧ s.blk.Clear 0 opIMEM (slotLine opIMEM xImem) none
       ∧ ∀ t ∈ loadTargets s.blk 0 (slotLine opIMEM xImem), (s.blk.engine t).loadPending = false
       ∧ s.blk.pinned t ((s.blk.engine t).bank ((fun (t : ℕ) => (s.blk.engine t).loadTarget (s.blk.launchOn t) (Slot.flag17 (slotLine opIMEM xImem))) t)) = false)
    ∧ (let s : State := stSlot opWS xWs
       loadTargets s.blk 0 (slotLine opWS xWs) = [1] ∧ (∀ f ∈ s.blk.sb, f.ord ≠ s.blk.dsp.nextOrd)
         ∧ s.blk.Clear 0 opWS (slotLine opWS xWs) none ∧ Slot.d32 (slotLine opWS xWs) 20 ≠ 0
         ∧ ∀ t ∈ loadTargets s.blk 0 (slotLine opWS xWs), s.blk.winOn t (fAt (slotLine opWS xWs) 16 0 20) (Slot.d32 (slotLine opWS xWs) 20) = false) := by
  refine ⟨?_, ?_⟩ <;> decide +kernel
theorem wit_LaunchEnters :
    let s : State := launchSt desc1
    s.blk.Clear 0 opLAUNCH (slotLine opLAUNCH xLaunch) (some desc1) ∧ s.blk.HasDesc 0 desc1 := by
  decide +kernel
theorem wit_StandAndUnstand :
    (let s : State := standSt
     s.blk.Clear 4 opSTAND (slotLine opSTAND xStand) (some descS) ∧ s.blk.HasDesc 4 descS ∧ s.blk.waitAvail 4 = true
       ∧ (∀ t ∈ (standEngines s.blk.wv.cur (slotLine opSTAND xStand)).2, s.blk.standOn t = none)
       ∧ ∀ t ∈ (standEngines s.blk.wv.cur (slotLine opSTAND xStand)).2, ((s.blk.engine t).bankFor descS.prog).isSome = true)
    ∧ (let s : State := bindSt
       s.blk.running = true ∧ s.blk.entry 4 9 = some standE ∧ standE.opcode = opSTAND ∧ standE.started = true
         ∧ standE.prog = Prog.none ∧ s.blk.fenced standE = none ∧ s.blk.findStand 4 9 = some standing1
         ∧ ∀ t ∈ Standing.engines s.blk.wv.cur standing1, ((s.blk.engine t).bankFor standing1.l.prog).isSome = true
         ∧ standing1.copied.contains t = true)
    ∧ (let s : State := st (fun b => (slotBlk4 opUNSTAND 0 { b with stand := [standing0] }))
       standing0 ∈ s.blk.stand
         ∧ List.find? (fun (s_1 : Standing) => (Standing.engines s.blk.wv.cur s_1).contains (Slot.engine (slotLine opUNSTAND 0)) && s_1.bound && !s_1.unbind && s.blk.wv.cur.owner s_1.q == s.blk.wv.cur.owner 4) s.blk.stand = some standing0
         ∧ standing0.running = none ∧ standing0.recWait = none ∧ s.blk.Clear 4 opUNSTAND (slotLine opUNSTAND 0) none) := by
  refine ⟨?_, ?_, ?_⟩ <;> decide +kernel
theorem wit_HitchAndFence :
    (let s : State := stSlot opHITCH xHitch
     s.blk.Clear 0 opHITCH (slotLine opHITCH xHitch) none ∧ s.blk.waitAvail 0 = true)
    ∧ (let s : State := stF opNOP
       s.blk.running = true ∧ (s.blk.que 0).fence = some fence0
         ∧ List.filter (fun (e : SbEntry) => e.q == 0 && decide (fence0.hitch < e.n) && e.opcode != opUNSTAND && e.ending.isNone) s.blk.sb = [ent opNOP]) := by
  refine ⟨?_, ?_⟩ <;> decide +kernel
theorem wit_DoorbellJudged :
    let s : State := q0 {op64 with tail := 2^32 + 3, head := 2^32+3, comp := 2^32 - 1}
    s.blk.Serves stew ∧ judgePage s.env s.blk 0 stew = none := by
  decide +kernel
theorem wit_CreateChecked :
    let s : State := q0 {ringSlots := 64}
    s.blk.Serves stew ∧ judgePage s.env s.blk 9 stew = none := by
  decide +kernel
theorem wit_QueueStates :
    (let s : State := q0 op64
     s.blk.Serves seat1 ∧ judgePage s.env s.blk 0 seat1 = none)
    ∧ (let s : State := q0 {op64 with st := .draining, held := [[3]].flatten}
       s.blk.running = true ∧ (s.blk.que 0).comp = (s.blk.que 0).tail ∧ s.blk.standingCount 0 = 0
         ∧ (s.blk.que 0).closeDue = false ∧ ((s.blk.que 0).st = QState.draining ∨ (s.blk.que 0).st = QState.closing
         ∧ (s.blk.que 0).owed = [])) := by
  refine ⟨?_, ?_⟩ <;> decide +kernel
theorem wit_AcknowledgeAndWake :
    (let s : State := q0 {op64 with st := .closing, owed := [1,3]}
     s.blk.running = true ∧ 1 ∈ (s.blk.que 0).owed ∧ s.blk.hasStopped 0 1 = true)
    ∧ (({} : Blk).Rests)
    ∧ (({} : Blk).running = false)
    ∧ (let s : State := q0 {op64 with tail := 3, wake := true}
       s.blk.running = true ∧ (s.blk.que 0).wake = true ∧ (s.blk.que 0).idle = true ∧ s.blk.wantsService 0 = true
         ∧ (s.blk.seq (seqOf 0)).free = true ∧ (s.blk.que 0).head < (s.blk.que 0).tail
         ∧ (s.blk.seq (seqOf 0)).freePlace = some 0 ∧ s.blk.slotAsked 0 (s.blk.que 0).head = false
         ∧ s.blk.heldLine 0 (s.blk.que 0).head = none ∧ (s.blk.que 0).head ∉ (s.blk.que 0).lost) := by
  refine ⟨?_, ?_, ?_, ?_⟩
  · decide +kernel
  · unfold Blk.Rests; decide +kernel
  · decide +kernel
  · decide +kernel
theorem wit_SlotReadReturns :
    (let s : State := qS (.slotReadReturn 0 0 (some (slotLine opCOPY xCopy)))
     s.blk.up = true ∧ (s.blk.que 0).st = QState.opened ∧ (s.blk.que 0).head ≤ 0 ∧ 0 < (s.blk.que 0).head + 2 ^ 32
       ∧ s.blk.slotPlace 0 0 = some 0
       ∧ s.blk.mayArrive (Instr.slotReadReturn 0 (0#32) (some (slotLine opCOPY xCopy))) = true)
    ∧ (let s : State := qS (.slotReadReturn 0 0 none)
       s.blk.up = true ∧ (s.blk.que 0).st = QState.opened ∧ (s.blk.que 0).head ≤ 0 ∧ 0 < (s.blk.que 0).head + 2 ^ 32
         ∧ s.blk.slotPlace 0 0 = some 0 ∧ s.blk.mayArrive (Instr.slotReadReturn 0 (0#32) none) = true
         ∧ 0 ∉ (s.blk.que 0).lost)
    ∧ (let s : State := qS1 (.slotReadReturn 0 0 none)
       s.blk.running = true ∧ (s.blk.que 0).st = QState.opened ∧ (s.blk.que 0).tail = (s.blk.que 0).head + 1
         ∧ (s.blk.que 0).wake = false ∧ s.blk.slotPlace 0 (s.blk.que 0).head = some 0 ∧ s.blk.sb = []
         ∧ (s.blk.que 0).head ∉ (s.blk.que 0).lost ∧ (s.blk.seq (seqOf 0)).st = SeqState.running
         ∧ (s.blk.seq (seqOf 0)).serving = true ∧ (s.blk.seq (seqOf 0)).queue = 0 ∧ s.blk.wantsService 0 = true
         ∧ (∀ (r : ℕ), r ≠ 0 → s.blk.wantsService r = false) ∧ (∀ j < 4, j ≠ seqOf 0 → (s.blk.seq j).serving = false)
         ∧ s.blk.mayArrive (Instr.slotReadReturn 0 (BitVec.ofNat 32 (s.blk.que 0).head) none) = true) := by
  refine ⟨?_, ?_, ?_⟩
  · decide +kernel
  · decide +kernel
  · refine ⟨?_, ?_, ?_, ?_, ?_, ?_, ?_, ?_, ?_, ?_, ?_, fun r hr => ?_, ?_, ?_⟩ <;> first | exact qS1_rests _ r hr | decide +kernel
theorem wit_CompletionCounts :
    (let s : State := qC
     s.blk.running = true ∧ s.blk.entry 0 0 = some eX ∧ eX.started = true ∧ eX.ending = some { } ∧ eX.opcode ≠ opLAUNCH
       ∧ ((∃ (asked : ℕ) (done : ℕ) (err : Option ℕ), eX.prog = Prog.xfer asked done 0 err) ∨ (∃ (k : WatchSt) (r : Option ℕ), eX.prog = Prog.watch k 0 r) ∨ (∃ (y : Bool), eX.prog = Prog.membar y 0) ∨ ∃ (k : LoadSt), eX.prog = Prog.load k
       ∧ k.outst = [] ∧ eX.owes = []))
    ∧ (let s : State := qD
       s.blk.running = true ∧ (s.blk.seq (seqOf 0)).st ≠ SeqState.broke
         ∧ PMap.find (s.blk.que 0).comp (s.blk.que 0).done = some 77 ∧ (s.blk.que 0).comp < (s.blk.que 0).head
         ∧ ((s.blk.que 0).srOn = false ∨ (s.blk.que 0).srAcked = true))
    ∧ (let s : State := qE 0
       s.blk.up = true ∧ s.blk.mayArrive (Instr.statusRecordAck (RecKind.ring 0) 0) = true ∧ (s.blk.que 0).srWait = true
         ∧ (s.blk.que 0).srAcked = false)
    ∧ (let s : State := qCe eL id
       s.blk.running = true ∧ s.blk.entry 0 0 = some eL ∧ eL.started = true ∧ eL.ending = none ∧ eL.opcode ≠ opLAUNCH
         ∧ s.blk.fenced eL = none ∧ eL.prog = Prog.load kL ∧ kL.outst = []
         ∧ (eL.opcode = opIMEM → imemLen eL.slot ≤ 64 * SMap.get 0 kL.got 0
         ∧ ∀ y ∈ kL.banks, ((s.blk.engine y.1).bank (y.2 == 2)).st ≠ BankSt.waiting
         ∧ ((s.blk.engine y.1).bank (y.2 == 2)).st ≠ BankSt.loading)
         ∧ (eL.opcode ≠ opIMEM → ∀ t ∈ kL.targets, Slot.d32 eL.slot 20 ≤ 64 * SMap.get 0 kL.got t))
    ∧ (let s : State := qCe eD id
       s.blk.running = true ∧ s.blk.entry 0 0 = some eD ∧ eD.started = true ∧ eD.prog = Prog.launch lD
         ∧ eD.opcode = opLAUNCH ∧ s.blk.holders eD.job = [] ∧ eD.owes = [] ∧ (eD.ending = some lD.stat ∨ eD.ending = none
         ∧ s.blk.fenced eD = none ∧ lD.twin = none ∧ lD.doneTiles = lD.tiles ∧ lD.stat = lD.stat)) := by
  refine ⟨?_, ?_, ?_, ?_, ?_⟩
  · exact ⟨by decide +kernel, by decide +kernel, by decide +kernel, by decide +kernel, by decide +kernel, .inl ⟨4, 4, none, by decide +kernel⟩⟩
  · decide +kernel
  · decide +kernel
  · decide +kernel
  · decide +kernel
theorem wit_StrandsChooseNext :
    (let s : State := seqSt (strandW 0 0 0) seq5
     s.blk.StrandAt 0 (strandW 0 0 0) yF ∧ Strand.seq (strandW 0 0 0) = 0)
    ∧ (let s : State := seqSt (strandW 1 77 0) seq5
       s.blk.StrandAt 0 (strandW 1 77 0) yF ∧ Strand.seq (strandW 1 77 0) = 1
         ∧ BitVec.ofNat 12 (Strand.target (strandW 1 77 0)) ≠ 4095)
    ∧ (let s : State := seqSt (strandW 2 77 1) seq5
       s.blk.StrandAt 0 (strandW 2 77 1) yF ∧ Strand.seq (strandW 2 77 1) = 2)
    ∧ (let s : State := seqSt (strandW 6 4000 0) {seq5 with queue := 0, serving := true, w := [(1,7),(2,0)], lines := [(0,0,slotLine 0x45 0)]}
       s.blk.StrandAt 0 (strandW 6 4000 0) yF ∧ Strand.seq (strandW 6 4000 0) = 6)
    ∧ (let s : State := seqY yM1 1 {seqM with w := [(1, 0), (2, 1), (3, 0xFF)]} q64
       s.blk.YarnAt 0 (strandW 0 0 0 + BitVec.ofNat 32 (1 * 2 ^ 10)) (yarnFields yM1)
         ∧ Strand.seq (strandW 0 0 0 + BitVec.ofNat 32 (1 * 2 ^ 10)) = 0 ∧ (yarnFields yM1).sbi = 0
         ∧ (s.blk.seq 0).freePlace = some 0 ∧ (yarnFields yM1).mem = 1 ∧ (s.blk.seq 0).serving = true
         ∧ (s.blk.seq 0).queue = 0 ∧ seqOf 0 = 0
         ∧ s.blk.slotAsked 0 (s.blk.fullIndex 0 (BitVec.ofNat 32 (BitVec.toNat ((s.blk.seq 0).wreg (yarnFields yM1).maddr)))) = false)
    ∧ (let s : State := seqY yM2 1 {seqM with w := [(1, 0x1040), (2, 1), (3, 0xFF)]} q64
       s.blk.YarnAt 0 (strandW 0 0 0 + BitVec.ofNat 32 (1 * 2 ^ 10)) (yarnFields yM2)
         ∧ Strand.seq (strandW 0 0 0 + BitVec.ofNat 32 (1 * 2 ^ 10)) = 0 ∧ (yarnFields yM2).sbi = 0
         ∧ (s.blk.seq 0).freePlace = some 0 ∧ (yarnFields yM2).mem = 2
         ∧ s.blk.copy 64 (BitVec.toNat (lineOf (BitVec.toNat ((s.blk.seq 0).wreg (yarnFields yM2).maddr)))) = none
         ∧ s.blk.missing 64 (BitVec.toNat (lineOf (BitVec.toNat ((s.blk.seq 0).wreg (yarnFields yM2).maddr)))) = false)
    ∧ (let s : State := seqY yM3 1 {seqM with w := [(1, 0x1040), (2, 1), (3, 0xFF)]} q64
       s.blk.YarnAt 0 (strandW 0 0 0 + BitVec.ofNat 32 (1 * 2 ^ 10)) (yarnFields yM3)
         ∧ Strand.seq (strandW 0 0 0 + BitVec.ofNat 32 (1 * 2 ^ 10)) = 0 ∧ (yarnFields yM3).sbi = 0
         ∧ (s.blk.seq 0).freePlace = some 0 ∧ (yarnFields yM3).mem = 3)
    ∧ (let s : State := seqY yM4 1 {seqM with w := [(1, 0x1040), (2, 1), (3, 0xFF)]} q64
       s.blk.YarnAt 0 (strandW 0 0 0 + BitVec.ofNat 32 (1 * 2 ^ 10)) (yarnFields yM4)
         ∧ Strand.seq (strandW 0 0 0 + BitVec.ofNat 32 (1 * 2 ^ 10)) = 0 ∧ (yarnFields yM4).sbi = 0
         ∧ (s.blk.seq 0).freePlace = some 0 ∧ (yarnFields yM4).mem = 4)
    ∧ (let s : State := seqY yM5 1 {seqM with w := [(1, 0x1040), (2, 1), (3, 0xFF)]} q64
       s.blk.YarnAt 0 (strandW 0 0 0 + BitVec.ofNat 32 (1 * 2 ^ 10)) (yarnFields yM5)
         ∧ Strand.seq (strandW 0 0 0 + BitVec.ofNat 32 (1 * 2 ^ 10)) = 0 ∧ (yarnFields yM5).sbi = 0
         ∧ (s.blk.seq 0).freePlace = some 0 ∧ (yarnFields yM5).mem = 5)
    ∧ (let s : State := seqY yM2 1 seqM (fun b => q64 { b with mem := { b.mem with agents := [(64, [(0x41, {st:=.s,data:=0x99,hold:=false,used:=0})])] } })
       s.blk.YarnAt 0 (strandW 0 0 0 + BitVec.ofNat 32 (1 * 2 ^ 10)) (yarnFields yM2)
         ∧ Strand.seq (strandW 0 0 0 + BitVec.ofNat 32 (1 * 2 ^ 10)) = 0 ∧ (yarnFields yM2).sbi = 0
         ∧ (s.blk.seq 0).freePlace = some 0 ∧ (yarnFields yM2).mem = 2
         ∧ s.blk.copy 64 (BitVec.toNat (lineOf (BitVec.toNat ((s.blk.seq 0).wreg (yarnFields yM2).maddr)))) = some { st := CopySt.s, data := 153, hold := false, used := 0 }) := by
  refine ⟨?_, ?_, ?_, ?_, ?_, ?_, ?_, ?_, ?_, ?_⟩ <;> decide +kernel
theorem wit_StrandsCallLoopWait :
    (let s : State := seqSt (strandW 3 77 0) seq5
     s.blk.StrandAt 0 (strandW 3 77 0) yF ∧ Strand.seq (strandW 3 77 0) = 3 ∧ (s.blk.seq 0).stack.length < 4)
    ∧ (let s : State := seqSt (strandW 4 0 0) {seq5 with stack := [9,8]}
       s.blk.StrandAt 0 (strandW 4 0 0) yF ∧ Strand.seq (strandW 4 0 0) = 4 ∧ (s.blk.seq 0).stack = [9, 8])
    ∧ (let s : State := seqSt (strandW 5 77 0) seq5
       s.blk.StrandAt 0 (strandW 5 77 0) yF ∧ Strand.seq (strandW 5 77 0) = 5 ∧ yF.lcld = false)
    ∧ (let s : State := seqSt (strandW 7 0 1) {seq5 with lc := 0}
       s.blk.StrandAt 0 (strandW 7 0 1) yF ∧ Strand.seq (strandW 7 0 1) = 7)
    ∧ (let s : State := sbiS 1 {seqM with serving := false, st := .idle} id
       s.blk.YarnAt 0 chkS (yS 1) ∧ (yS 1).AluRests ∧ Strand.seq chkS = 0 ∧ (yS 1).mem = 0 ∧ (yS 1).sbi = 1
         ∧ s.blk.selectQueue 0 = none)
    ∧ (let s : State := sbiS 1 {seqM with serving := false} (fun b => {b with qs := [(0, {op64 with tail := 3, wake := true})]})
       s.blk.YarnAt 0 chkS (yS 1) ∧ (yS 1).AluRests ∧ Strand.seq chkS = 0 ∧ (yS 1).mem = 0 ∧ (yS 1).sbi = 1
         ∧ s.blk.selectQueue 0 = some 0)
    ∧ (let s : State := sbiS 2 seqM q64
       s.blk.YarnAt 0 chkS (yS 2) ∧ (yS 2).AluRests ∧ Strand.seq chkS = 0 ∧ (yS 2).mem = 0 ∧ (yS 2).sbi = 2)
    ∧ (let s : State := sbiS 3 seqM q64
       s.blk.YarnAt 0 chkS (yS 3) ∧ (yS 3).AluRests ∧ Strand.seq chkS = 0 ∧ (yS 3).mem = 0 ∧ (yS 3).sbi = 3
         ∧ (s.blk.seq 0).serving = true)
    ∧ (let s : State := sbiS 4 {seqM with lines := [(0,0,l45)], w := [(2,0),(4,3)]} q64
       s.blk.YarnAt 0 chkS (yS 4) ∧ (yS 4).AluRests ∧ Strand.seq chkS = 0 ∧ (yS 4).mem = 0 ∧ (yS 4).sbi = 4
         ∧ (s.blk.seq 0).serving = true ∧ (s.blk.seq 0).w2Line = some ((s.blk.que (s.blk.seq 0).queue).head, l45)
         ∧ (s.blk.que (s.blk.seq 0).queue).head < (s.blk.que (s.blk.seq 0).queue).tail
         ∧ s.blk.entered (s.blk.seq 0).queue (s.blk.que (s.blk.seq 0).queue).head = false
         ∧ s.blk.parsesOnly (s.blk.seq 0).queue = false
         ∧ ((s.blk.que (s.blk.seq 0).queue).st = QState.opened ∨ (s.blk.que (s.blk.seq 0).queue).st = QState.draining)
         ∧ s.blk.sbAvail (s.blk.seq 0).queue = true ∧ s.blk.waitAvail (s.blk.seq 0).queue = true
         ∧ s.blk.breakDue (s.blk.seq 0).queue (s.blk.que (s.blk.seq 0).queue).head = false ∧ s.blk.sb = []
         ∧ (s.blk.que (s.blk.seq 0).queue).fence = none
         ∧ (enterOutcome s.blk (s.blk.seq 0).queue l45 (s.blk.seq 0).descBuf ((s.blk.seq 0).wreg (yS 4).sbsrc)).1 = some (16, 69)
         ∧ 16 ≠ 0)
    ∧ (let s : State := sbiS 5 {seqM with w := [(0,0),(2,0)]} (fun b => { q64 b with sb := [eC] })
       s.blk.YarnAt 0 chkS (yS 5) ∧ (yS 5).AluRests ∧ Strand.seq chkS = 0 ∧ (yS 5).mem = 0 ∧ (yS 5).sbi = 5
         ∧ s.blk.sb = [eC] ∧ eC.q = BitVec.toNat ((s.blk.seq 0).wreg 0) % 1024
         ∧ eC.n % 2 ^ 32 = BitVec.toNat ((s.blk.seq 0).wreg 2) % 2 ^ 32 ∧ seqOf eC.q = 0 ∧ seqCarries eC.opcode = true
         ∧ eC.started = true)
    ∧ (let s : State := sbiS 6 {seqM with lines := [(0,0,l45)]} q64
       s.blk.YarnAt 0 chkS (yS 6) ∧ (yS 6).AluRests ∧ Strand.seq chkS = 0 ∧ (yS 6).mem = 0 ∧ (yS 6).sbi = 6
         ∧ (s.blk.seq 0).serving = true ∧ (s.blk.que (s.blk.seq 0).queue).head < (s.blk.que (s.blk.seq 0).queue).tail
         ∧ ((s.blk.seq 0).lines.any fun (y : ℕ × ℕ × Line) => y.1 == (s.blk.seq 0).queue && y.2.1 == (s.blk.que (s.blk.seq 0).queue).head) = true)
    ∧ (let s : State := sbiS 6 seqM q64
       s.blk.YarnAt 0 chkS (yS 6) ∧ (yS 6).AluRests ∧ Strand.seq chkS = 0 ∧ (yS 6).mem = 0 ∧ (yS 6).sbi = 6
         ∧ ¬((s.blk.seq 0).serving = true ∧ (s.blk.que (s.blk.seq 0).queue).head < (s.blk.que (s.blk.seq 0).queue).tail
         ∧ ((s.blk.seq 0).lines.any fun (y : ℕ × ℕ × Line) => y.1 == (s.blk.seq 0).queue && y.2.1 == (s.blk.que (s.blk.seq 0).queue).head) = true))
    ∧ (let s : State := sbiS 7 seqM q64
       s.blk.YarnAt 0 chkS (yS 7) ∧ (yS 7).AluRests ∧ Strand.seq chkS = 0 ∧ (yS 7).mem = 0 ∧ (yS 7).sbi = 7)
    ∧ (let s : State := sbiS 8 seqM q64
       s.blk.YarnAt 0 chkS (yS 8) ∧ (yS 8).AluRests ∧ Strand.seq chkS = 0 ∧ (yS 8).mem = 0 ∧ (yS 8).sbi = 8
         ∧ ∀ e ∈ s.blk.sb, seqOf e.q = 0 → seqCarries e.opcode = true → e.code = 0 → s.blk.mayStart e = false)
    ∧ (let s : State := sbiS 8 seqM (fun b => { q64 b with sb := [eT opCOPY 0] })
       s.blk.YarnAt 0 chkS (yS 8) ∧ (yS 8).AluRests ∧ Strand.seq chkS = 0 ∧ (yS 8).mem = 0 ∧ (yS 8).sbi = 8
         ∧ List.find? (fun (e : SbEntry) => seqOf e.q == 0 && seqCarries e.opcode && e.code == 0 && s.blk.mayStart e) s.blk.sb = some (eT opCOPY 0))
    ∧ (let s : State := sbiS 9 {seqM with w := [(0,0),(2,0)]} (fun b => { q64 b with sb := [eT opMARK 0], trc := {b.trc with ctl := 1} })
       s.blk.YarnAt 0 chkS (yS 9) ∧ (yS 9).AluRests ∧ Strand.seq chkS = 0 ∧ (yS 9).mem = 0 ∧ (yS 9).sbi = 9
         ∧ s.blk.named 0 opMARK = some (eT opMARK 0) ∧ s.blk.trc.ctl.getLsbD 0 = true
         ∧ s.blk.trc.caddy.room blkCap (markBody (eT opMARK 0)) = true)
    ∧ (let s : State := sbiS 10 {seqM with w := [(0,0),(2,0)]} (fun b => { q64 b with sb := [eT opTAG 0]})
       s.blk.YarnAt 0 chkS (yS 10) ∧ (yS 10).AluRests ∧ Strand.seq chkS = 0 ∧ (yS 10).mem = 0 ∧ (yS 10).sbi = 10
         ∧ s.blk.named 0 opTAG = some (eT opTAG 0)) := by
  refine ⟨?_, ?_, ?_, ?_, ?_, ?_, ?_, ?_, ?_, ?_, ?_, ?_, ?_, ?_, ?_, ?_, ?_⟩ <;> decide +kernel
theorem wit_SequencerEvents :
    (let s : State := seqSt (strandW 7 0 0) {seq5 with pend := [5,3]}
     s.blk.running = true ∧ ((s.blk.seq 0).st = SeqState.idle ∨ (s.blk.seq 0).st = SeqState.running)
       ∧ (s.blk.seq 0).trapDue = some 3)
    ∧ (let s : State := seqSt (strandW 7 0 0) {seq5 with pend := [5,3]}
       s.blk.up = true ∧ (s.blk.seq 0).st ≠ SeqState.halted)
    ∧ (let s : State := seqSt (strandW 1 0xFFF 0) {seq5 with st := .trapped, shadow := some sh0}
       s.blk.StrandAt 0 (strandW 1 4095 0) yF ∧ Strand.seq (strandW 1 4095 0) = 1 ∧ Strand.target (strandW 1 4095 0) = 4095
         ∧ (s.blk.seq 0).shadow = some sh0)
    ∧ (let s : State := respSt 0
       s.blk.up = true ∧ s.blk.mayArrive (Instr.seqMemoryResponse 0 2 77 0) = true
         ∧ PMap.find 2 (s.blk.seq 0).outs = some { q := 0, what := SeqReq.line true }) := by
  refine ⟨?_, ?_, ?_, ?_⟩ <;> decide +kernel
theorem wit_KnotRegisters :
    (let s : State := base
     s.blk.Serves stew ∧ s.Steward stew)
    ∧ (let s : State := wakeSt
       s.blk.running = true ∧ s.blk.nextWake = some wake0 ∧ wake0.stand = false ∧ s.blk.entry wake0.q wake0.n = some hEnt
         ∧ hEnt.prog = Prog.hitch (some (0, 77)) ∧ s.blk.hitchMayComplete hEnt = true ∧ s.blk.fenced hEnt = none
         ∧ hEnt.opcode = opHITCH)
    ∧ (let s : State := wakeSt
       s.blk.up = true)
    ∧ (let s : State := wakeSt
       s.blk.Serves stew ∧ s.blk.tieAhead (stew.seat) 5 = false) := by
  refine ⟨?_, ?_, ?_, ?_⟩ <;> decide +kernel
theorem wit_TieApplied :
    let s : State := tieSt 0
    s.blk.running = true ∧ s.blk.kn.tieQ = [tie0] := by
  decide +kernel
theorem wit_SelectionAssigns :
    let s : State := selSt 4 0
    s.blk.running = true ∧ s.blk.candidates true = [lEnt 4 l8] ∧ (lEnt 4 l8).launch? = some l8
      ∧ s.blk.entry (lEnt 4 l8).q (lEnt 4 l8).n = some (lEnt 4 l8) ∧ (lEnt 4 l8).started = false
      ∧ twinLaunch (lEnt 4 l8) = false ∧ l8.twin = none ∧ l8.saved = [] ∧ l8.unplaced = [{ lo := 0, hi := l8.tiles }]
      ∧ s.blk.holding (lEnt 4 l8).job = [] ∧ s.blk.allowedIdle (lEnt 4 l8) l8 = [0] ∧ s.blk.readyFor l8 0 = true
      ∧ (s.blk.engine 0).save = none
      ∧ (∀ (p : WvPart), s.blk.wv.cur.queuePart (lEnt 4 l8).q = some p → true = true → s.blk.runningOn p.num < p.maxInflight)
      ∧ (s.blk.wv.cur.queuePart (lEnt 4 l8).q).isSome = true := by
  decide +kernel
theorem wit_PreemptSaveRestore :
    (let s : State := workSt {engW with preempt := true, deque := [(jobL 0, {lo := 3, hi := 4})]} (fun b => {b with dsp := {b.dsp with preempts := [1]}})
     s.blk.running = true ∧ 1 ∈ s.blk.dsp.preempts ∧ (s.blk.engine 1).stop = none ∧ (s.blk.engine 1).job.isSome = true
       ∧ (s.blk.engine 1).ended = false ∧ (s.blk.engine 1).st ≠ EngState.saving)
    ∧ (let s : State := workSt {engW with preempt := true, st := .saving} id
       s.blk.running = true ∧ s.blk.clocked 1 = true ∧ (s.blk.engine 1).st = EngState.saving ∧ (s.blk.engine 1).stop = none
         ∧ (s.blk.engine 1).pendFault = none ∧ (s.blk.engine 1).channelsIdle = true ∧ (s.blk.engine 1).job = some (jobL 0)
         ∧ s.blk.retired (jobL 0) = false)
    ∧ (let s : State := workSt {engR with restore := true, st := .restoring, save := some save0} id
       s.blk.running = true ∧ s.blk.clocked 1 = true ∧ (s.blk.engine 1).restore = true ∧ (s.blk.engine 1).descWait = false
         ∧ (s.blk.engine 1).job = none ∧ (s.blk.engine 1).save = some save0
         ∧ BitVec.toNat (SMap.get 0 s.blk.wv.roleE 1) ≤ BitVec.toNat save0.epoch ∧ s.blk.retired save0.job = false
         ∧ save0.arch.chan = []) := by
  refine ⟨?_, ?_, ?_⟩ <;> decide +kernel
theorem wit_DispatcherEvents :
    (let s : State := quantSt
     s.blk.running = true ∧ s.blk.candidates false = [waits] ∧ waits.launch? = some lw ∧ lw.waitFrom = some 0
       ∧ BitVec.toNat (s.blk.partCtl (s.blk.partNum waits.q)).quantum ≠ 0
       ∧ 1000 * BitVec.toNat (s.blk.partCtl (s.blk.partNum waits.q)).quantum ≤ BitVec.toNat (s.env.now - 0)
       ∧ (List.filter (fun (t : ℕ) => (s.blk.engine t).preempt) (s.blk.launchEngines waits.q)).length < lw.toPlace
       ∧ (s.blk.preemptees waits.q fun (t p : ℕ) => p == s.blk.levelOf waits.q && decide (1000 * BitVec.toNat (s.blk.partCtl (s.blk.partNum waits.q)).quantum ≤ BitVec.toNat (s.env.now - (s.blk.engine t).runFrom)) && !(s.blk.engine t).holds waits.job) = [1])
    ∧ (let s : State := quantSt
       s.blk.up = true)
    ∧ (let s : State := stealSt (fun b => b.modEng 2 fun v => {v with ran := true})
       s.blk.running = true ∧ s.blk.maySteal 2 = true ∧ s.blk.victim 2 = some 1
         ∧ (s.blk.engine 1).deque = [(jobL 0, { lo := 3, hi := 3 + 5 })] ∧ 1 ≤ 5)
    ∧ (let s : State := stealSt fun b => {b with dsp := {b.dsp with steals := [steal0]}}
       s.blk.running = true ∧ List.find? (fun (t : Steal) => t.thief == 2) s.blk.dsp.steals = some steal0
         ∧ steal0.tiles = [(jobL 0, rng 5 8)] ∧ (s.blk.engine 2).deque = [] ∧ s.blk.launch? (jobL 0) = some lz
         ∧ s.blk.retired (jobL 0) = false
         ∧ BitVec.toNat (SMap.get 0 s.blk.wv.roleE steal0.thief) ≤ BitVec.toNat steal0.epoch
         ∧ BitVec.toNat (SMap.get 0 s.blk.wv.roleE steal0.victim) ≤ BitVec.toNat steal0.epoch)
    ∧ (let s : State := runSt
       s.blk.running = true ∧ s.blk.standOn 0 = some run0 ∧ s.blk.findStand run0.q run0.n = some run0
         ∧ run0.waiting = some 4 ∧ run0.running = none ∧ run0.unbind = false ∧ s.blk.retired run0.job = false
         ∧ Standing.engines s.blk.wv.cur run0 = [0] ∧ s.blk.runReady 0 = true
         ∧ ((∀ y ∈ s.blk.kn.wakes, y.is true run0.q run0.n = false) ∨ Option.any (fun (y : Waiter) => y.is true run0.q run0.n) s.blk.nextWake = true)) := by
  refine ⟨?_, ?_, ?_, ?_, ?_⟩ <;> decide +kernel
theorem wit_FabricTime :
    (let s : State := base
     s.blk.start.poresetLow = false ∧ s.env.time.disc = false)
    ∧ (let s : State := base
       s.blk.start.poresetLow = false ∧ s.blk.Serves stew ∧ s.Steward stew)
    ∧ (let s : State := { base with env := { base.env with time := { base.env.time with setPend := true, setVal := 77, disc := true, st := .locked, trim := 5, now := 1000000000 } } }
       s.blk.start.poresetLow = false ∧ s.env.time.disc = true ∧ s.env.time.st ≠ TimSt.free) := by
  refine ⟨?_, ?_, ?_⟩ <;> decide +kernel
theorem wit_PendingWriteLands :
    let s : State := workSt {engW with arch := {pend := [pw (.v 5)]}} id
    s.blk.running = true ∧ s.blk.clocked 1 = true ∧ (s.blk.engine 1).job.isSome = true ∧ (s.blk.engine 1).stop = none
      ∧ (s.blk.engine 1).pendFault = none
      ∧ ((s.blk.engine 1).st = EngState.running ∨ (s.blk.engine 1).st = EngState.frozen)
      ∧ orderBy landKey (s.blk.engine 1).arch.pend = [pw (Dest.v 5)]
      ∧ ((pw (Dest.v 5)).land ≤ (s.blk.engine 1).step ∨ (s.blk.engine 1).ended = true) := by
  decide +kernel
theorem wit_EngineReads :
    (let s : State := workSt {engW with needs := [4,5], st := .frozen} (fun b => asked3 (withMsg (.gatherFill 1 5 99 0) b))
     s.blk.up = true ∧ s.blk.mayArrive (Instr.gatherFill 1 5 99 0) = true ∧ 5 ∈ (s.blk.engine 1).needs)
    ∧ (let s : State := workSt {engW with needs := [4,5], st := .frozen} (fun b => asked3 (withMsg (.gatherFill 1 5 99 2) b))
       s.blk.up = true ∧ s.blk.mayArrive (Instr.gatherFill 1 5 99 2) = true ∧ 5 ∈ (s.blk.engine 1).needs ∧ 2 ≠ 0
         ∧ (s.blk.engine 1).mayIssue = true)
    ∧ (let s : State := workSt {engW with arch := {ag := [(2, agLoad idxDesc 0 0 0)]}} id
       s.blk.running = true ∧ s.blk.clocked 1 = true ∧ (s.blk.engine 1).mayIssue = true
         ∧ (s.blk.engine 1).idxWant 2 = some 0 ∧ (s.blk.engine 1).idxFault ((s.blk.engine 1).ag 2) 0 = none
         ∧ 0 ∈ ((s.blk.engine 1).ag 2).idxLines 0 ∧ s.blk.idxLine 1 ((s.blk.engine 1).ag 2) 0 = none)
    ∧ (let s : State := workSt {engW with arch := {ag := [(2, agLoad idxDescS 0 0 0)]}} id
       s.blk.running = true ∧ s.blk.clocked 1 = true ∧ (s.blk.engine 1).mayIssue = true
         ∧ (s.blk.engine 1).idxWant 2 = some 0 ∧ (s.blk.engine 1).idxFault ((s.blk.engine 1).ag 2) 0 = none
         ∧ ∀ n ∈ ((s.blk.engine 1).ag 2).idxLines 0, (s.blk.idxLine 1 ((s.blk.engine 1).ag 2) n).isSome = true)
    ∧ (let s : State := workSt {engW with arch := {chan := [(2, rowIn false)]}} id
       s.blk.up = true ∧ ((s.blk.engine 1).chan 2).rowOver = true ∧ (drawFields ((s.blk.engine 1).chan 2).desc).out = false) := by
  refine ⟨?_, ?_, ?_, ?_, ?_⟩ <;> decide +kernel
theorem wit_TileLife :
    (let s : State := workSt {engR with deque := [(jobL 0, rng 2 4)]} id
     s.blk.running = true ∧ s.blk.clocked 1 = true ∧ s.blk.mayStartTile 1 = true
       ∧ (s.blk.engine 1).deque = [(jobL 0, rng 2 4)] ∧ s.blk.launch? (jobL 0) = some lz
       ∧ (((s.blk.engine 1).bank (s.blk.engine 1).active).st = BankSt.ready ∨ ((s.blk.engine 1).bank (s.blk.engine 1).active).st = BankSt.waiting)
       ∧ ((s.blk.engine 1).bank (s.blk.engine 1).active).prog = lz.prog ∧ (jobL 0).run = false)
    ∧ (let s : State := workSt {engW with ended := true} id
       s.blk.running = true ∧ s.blk.clocked 1 = true ∧ (s.blk.engine 1).job = some (jobL 0) ∧ (s.blk.engine 1).ended = true
         ∧ (s.blk.engine 1).stop = none ∧ (s.blk.engine 1).pendFault = none ∧ (s.blk.engine 1).st ≠ EngState.saving
         ∧ (s.blk.engine 1).channelsIdle = true ∧ (s.blk.engine 1).arch.pend = [] ∧ (jobL 0).run = false
         ∧ s.blk.retired (jobL 0) = false ∧ s.blk.entry (jobL 0).q (jobL 0).n = some (started1 lz)
         ∧ (started1 lz).prog = Prog.launch lz ∧ lz.twin = none ∧ (s.blk.engine 1).yieldTo = none)
    ∧ (let s : State := workSt {engW with pendFault := some (0x90, 9)} id
       s.blk.up = true ∧ (s.blk.engine 1).job = some (jobL 0) ∧ (jobL 0).run = false
         ∧ (s.blk.engine 1).pendFault = some (144, 9) ∧ s.blk.entry (jobL 0).q (jobL 0).n = some (started1 lz)
         ∧ (started1 lz).prog = Prog.launch lz ∧ lz.twin = none ∧ (started1 lz).ending = none)
    ∧ (let s : State := workSt {engR with descWait := true, descFor := some (jobL 0), deque := [(jobL 0, rng 2 3)], copies := [copy0 (jobL 0) true]} id
       s.blk.running = true
         ∧ List.find? (fun (c : DescCopy) => c.want == 0) (s.blk.engine 1).copies = some (copy0 (jobL 0) true)
         ∧ lastCopy (copy0 (jobL 0) true).job (s.blk.engine 1).copies = some (copy0 (jobL 0) true)
         ∧ s.blk.launch? (copy0 (jobL 0) true).job = some lz ∧ (s.blk.engine 1).descWait = true
         ∧ (s.blk.engine 1).descFor = some (copy0 (jobL 0) true).job)
    ∧ (let s : State := st (fun b => { b with stand := [standW], eng := [(0, { engR with copies := [copy0 standW.job false] })] })
       s.blk.running = true
         ∧ List.find? (fun (c : DescCopy) => c.want == 0) (s.blk.engine 0).copies = some (copy0 standW.job false)
         ∧ lastCopy (copy0 standW.job false).job (s.blk.engine 0).copies = some (copy0 standW.job false)
         ∧ s.blk.launch? (copy0 standW.job false).job = some standW.l ∧ (s.blk.engine 0).descWait = false
         ∧ (copy0 standW.job false).bad = false ∧ (copy0 standW.job false).job.run = true
         ∧ s.blk.findStand (copy0 standW.job false).job.q (copy0 standW.job false).job.n = some standW
         ∧ standW.q = (copy0 standW.job false).job.q ∧ standW.n = (copy0 standW.job false).job.n ∧ standW.bound = false
         ∧ standW.copied.contains 0 = false) := by
  refine ⟨?_, ?_, ?_, ?_, ?_⟩ <;> decide +kernel
theorem wit_TwinsAndRetirement :
    (let s : State := twinSt (twinL 0 (.pair 5 6) (.pair 5 6)) []
     s.blk.running = true ∧ s.blk.twinJobs 0 = [(jobL 4, tw56)] ∧ tw56.pairIx = 0 ∧ tw56.run3 = false
       ∧ tw56.wants3 = false ∧ tw56.cause = 0 ∧ tw56.c.fin = none ∧ tw56.a.fin = some (TwinEnd.pair 5 6)
       ∧ tw56.b.fin = some (TwinEnd.pair 5 6))
    ∧ (let s : State := twinSt (twinL 0 (.pair 5 6) (.pair 5 7)) []
       s.blk.running = true ∧ s.blk.twinJobs 0 = [(jobL 4, tw57)] ∧ tw57.run3 = false ∧ tw57.wants3 = false
         ∧ s.blk.launch? (jobL 4) = some (twinL 0 (TwinEnd.pair 5 6) (TwinEnd.pair 5 7))
         ∧ tw57.a.fin = some (TwinEnd.pair 5 6) ∧ tw57.b.fin = some (TwinEnd.pair 5 7) ∧ (5 ≠ 5 ∨ 6 ≠ 7))
    ∧ (let s : State := twinSt tl3 [(4, engR)]
       s.blk.running = true ∧ s.blk.wv.cur.twin 0 = some twin0 ∧ s.blk.wantsThird 0 = some (jobL 4, tl3t)
         ∧ s.blk.idleEng twin0.arb (jobL 4) = true ∧ (s.blk.engine twin0.arb).deque = []
         ∧ s.blk.firstOfArb twin0.arb 0 = true ∧ s.blk.launch? (jobL 4) = some tl3
         ∧ ((s.blk.engine twin0.arb).bankFor tl3.prog).isSome = true ∧ (s.blk.engine twin0.arb).save = none)
    ∧ (let s : State := st (fun b => { b with wv := {b.wv with retire := [jobL 0]}, sb := [started1 lz], qs := [(0, { st := .opened, tail := 1, head := 1, ringSlots := 64 })] })
       s.blk.running = true ∧ s.blk.wv.retire = [jobL 0] ∧ (jobL 0).run = false
         ∧ s.blk.entry (jobL 0).q (jobL 0).n = some (started1 lz)
         ∧ (∀ f ∈ s.blk.sb, f.q = (jobL 0).q → f.n = (jobL 0).n → f = started1 lz) ∧ (started1 lz).prog = Prog.launch lz
         ∧ (started1 lz).ending = none ∧ (started1 lz).owes = [] ∧ s.blk.holders (jobL 0) = []
         ∧ (started1 lz).opcode = opLAUNCH) := by
  refine ⟨?_, ?_, ?_, ?_⟩ <;> decide +kernel
theorem wit_WeaveLoads :
    (let s : State := wvSt .loaded (fun v => {v with src := 0x1000, srcLen := 96})
     s.blk.Serves stew ∧ s.Steward stew ∧ s.blk.wv.st.busy = false)
    ∧ (let s : State := wvSt .waiting (fun v => {v with next := some {}, changing := [3], clearing := []})
       s.blk.Serves stew ∧ s.Steward stew ∧ s.blk.wv.st.busy = true)
    ∧ (let s : State := wvSt .waiting (fun v => {v with next := some {}, changing := [3], clearing := []})
       s.blk.Serves stew ∧ s.Steward stew ∧ s.blk.wv.st = WvState.waiting)
    ∧ (let s : State := wvSt .empty (fun v => {v with src := 0x1000, srcLen := 96, extent := 50})
       s.blk.Serves stew ∧ s.Steward stew)
    ∧ (let s : State := steeped (wvSt .fetching (fun v => {v with src := 0x1000, srcLen := 96, extent := 50, fetch := some (fetch0 false)}))
       s.blk.wv.st = WvState.fetching ∧ s.blk.running = true ∧ s.blk.wv.fetch = some (fetch0 false)
         ∧ (fetch0 false).want = 0 ∧ (fetch0 false).bad = false)
    ∧ (let s : State := steeped (wvSt .fetching (fun v => {v with src := 0x1000, srcLen := 96, extent := 50, fetch := some (fetch0 true)}))
       s.blk.wv.st = WvState.fetching ∧ s.blk.running = true ∧ s.blk.wv.fetch = some (fetch0 true) ∧ (fetch0 true).want = 0
         ∧ (fetch0 true).bad = true) := by
  refine ⟨?_, ?_, ?_, ?_, ?_, ?_⟩ <;> decide +kernel
theorem wit_PourSteps :
    (let s : State := steeped (wvSt .checking (fun v => {v with extent := 96, action := some .check}))
     s.blk.running = true ∧ s.blk.wv.st = WvState.checking ∧ s.blk.wv.action = some WvAction.check)
    ∧ (let s : State := steeped (wvSt .checking (fun v => {v with extent := 96, action := some (.pour true)}))
       s.blk.running = true ∧ s.blk.wv.st = WvState.checking ∧ s.blk.wv.action = some (WvAction.pour true))
    ∧ (let s : State := wvSt .waiting (fun v => {v with next := some {}, changing := [0,1]})
       s.blk.running = true ∧ s.blk.wv.st = WvState.waiting ∧ s.blk.wv.next = some { } ∧ s.blk.quietReady = true)
    ∧ (let s : State := wvSt .pouring (fun v => {v with next := some {}, changing := [0,1]})
       s.blk.running = true ∧ s.blk.wv.st = WvState.pouring ∧ s.blk.wv.next = some { })
    ∧ (let s : State := wvSt .pouring id
       s.blk.running = true ∧ s.blk.wv.st = WvState.pouring ∧ s.blk.wv.next = none ∧ s.blk.wv.retire = []
         ∧ s.blk.wv.retiring = []) := by
  refine ⟨?_, ?_, ?_, ?_, ?_⟩ <;> decide +kernel
theorem wit_AfterPour :
    (let s : State := wvSt .pouring (fun v => {v with clearing := [0,1]})
     s.blk.up = true)
    ∧ (let s : State := wvSt .pouring (fun v => {v with clearing := [0,1]})
       s.blk.running = true ∧ 1 ∈ s.blk.wv.clearing ∧ (s.blk.engine 1).job = none ∧ (s.blk.engine 1).deque = []
         ∧ (s.blk.engine 1).st ≠ EngState.resetting) := by
  refine ⟨?_, ?_⟩ <;> decide +kernel
theorem wit_HomeReads :
    (let s : State := ringed (.rds 3 5) (memSt holds5)
     s.blk.running = true ∧ s.blk.isBusy 5 = false ∧ s.blk.rcLine 5 = some rc5 ∧ rc5.poison = false
       ∧ s.blk.dirEnt 5 = none ∧ s.blk.dirRoom 5 = DirRoom.free ∧ (∀ w ∈ s.blk.mem.waitQ, w.1 ≠ 5)
       ∧ (∀ w ∈ s.blk.mem.busy, w.2.wait ≠ BusyWait.room) ∧ s.blk.mayArrive (Instr.rds 3 5) = true)
    ∧ (let s : State := ringed (.rdonce (.window 1) 5) (memSt holds5)
       s.blk.running = true ∧ s.blk.isBusy 5 = false ∧ s.blk.rcLine 5 = some rc5 ∧ rc5.poison = false
         ∧ s.blk.dirEnt 5 = none ∧ s.blk.dirRoom 5 = DirRoom.free ∧ (∀ w ∈ s.blk.mem.waitQ, w.1 ≠ 5)
         ∧ (∀ w ∈ s.blk.mem.busy, w.2.wait ≠ BusyWait.room) ∧ s.blk.mayArrive (Instr.rdonce (Rq.window 1) 5) = true)
    ∧ (let s : State := ringed (.rdm 5) (memSt holds5)
       s.blk.running = true ∧ s.blk.isBusy 5 = false ∧ s.blk.rcLine 5 = some rc5 ∧ rc5.poison = false
         ∧ s.blk.dirEnt 5 = none ∧ s.blk.dirRoom 5 = DirRoom.free ∧ (∀ w ∈ s.blk.mem.waitQ, w.1 ≠ 5)
         ∧ (∀ w ∈ s.blk.mem.busy, w.2.wait ≠ BusyWait.room) ∧ s.blk.mayArrive (Instr.rdm 5) = true) := by
  refine ⟨?_, ?_, ?_⟩ <;> decide +kernel
theorem wit_HomeWrites :
    (let s : State := ringed (.wr (.record 2) 5 77 0) (memSt holds5)
     s.blk.running = true ∧ s.blk.isBusy 5 = false ∧ s.blk.rcLine 5 = some rc5 ∧ rc5.poison = false
       ∧ s.blk.dirEnt 5 = none ∧ (∀ w ∈ s.blk.mem.waitQ, w.1 ≠ 5) ∧ (∀ w ∈ s.blk.mem.busy, w.2.wait ≠ BusyWait.room)
       ∧ s.blk.mayArrive (Instr.wr (Rq.record 2) 5 77 0) = true)
    ∧ (let s : State := ringed (.atom 5 at3) (memSt holds5)
       s.blk.running = true ∧ s.blk.isBusy 5 = false ∧ s.blk.rcLine 5 = some rc5 ∧ rc5.poison = false
         ∧ s.blk.dirEnt 5 = none ∧ (∀ w ∈ s.blk.mem.waitQ, w.1 ≠ 5) ∧ (∀ w ∈ s.blk.mem.busy, w.2.wait ≠ BusyWait.room)
         ∧ s.blk.mayArrive (Instr.atom 5 at3) = true) := by
  refine ⟨?_, ?_⟩ <;> decide +kernel
theorem wit_AgentAnswers :
    (let s : State := ringed (.fwd 3 5 (.agent 4)) (copySt (cp .e))
     s.blk.up = true ∧ s.blk.copy 3 5 = some (cp CopySt.e) ∧ s.blk.mayArrive (Instr.fwd 3 5 (Rq.agent 4)) = true
       ∧ ∀ (v : Busy), PMap.find 5 s.blk.mem.busy = some v → v.wait ≠ BusyWait.forward)
    ∧ (let s : State := ringed (.inv 3 5) (copySt cpH)
       s.blk.up = true ∧ s.blk.copy 3 5 = some cpH ∧ s.blk.mayArrive (Instr.inv 3 5) = true)
    ∧ (let s : State := ringed (.inv 3 5) (copySt cpH)
       s.blk.up = true ∧ s.blk.copy 3 5 = some cpH ∧ cpH.hold = true ∧ 3 < 68)
    ∧ (let s : State := ringed (.fwdinv 3 5) (copySt cpH)
       s.blk.up = true ∧ s.blk.copy 3 5 = some cpH ∧ s.blk.mayArrive (Instr.fwdinv 3 5) = true)
    ∧ (let s : State := memSt (fun m => { holds5 m with agents := [(68, [(5, cpH)])], dir := [(5, dirW)] })
       s.blk.up = true ∧ s.blk.copy 68 5 = some cpH ∧ cpH.hold = true ∧ cpH.defer = none ∧ s.blk.missing 68 5 = false
         ∧ s.blk.mem.far = [])
    ∧ (let s : State := ringed (.fwd 3 5 (.window 1)) (memSt holds5)
       s.blk.up = true ∧ s.blk.copy 3 5 = none ∧ s.blk.mayArrive (Instr.fwd 3 5 (Rq.window 1)) = true)
    ∧ (let s : State := ringed (.inv 3 5) (memSt holds5)
       s.blk.up = true ∧ s.blk.copy 3 5 = none ∧ s.blk.mayArrive (Instr.inv 3 5) = true)
    ∧ (let s : State := ringed (.fwdinv 3 5) (memSt holds5)
       s.blk.up = true ∧ s.blk.copy 3 5 = none ∧ s.blk.mayArrive (Instr.fwdinv 3 5) = true)
    ∧ (let s : State := fwdBusy (ringed2 (.fwd 3 5 (.window 1)) (copySt (cp .e)))
       s.blk.up = true ∧ s.blk.copy 3 5 = some (cp CopySt.e) ∧ s.blk.mayArrive (Instr.fwd 3 5 (Rq.window 1)) = true
         ∧ PMap.find 5 s.blk.mem.busy = some bzF ∧ bzF.wait = BusyWait.forward ∧ bzF.req = HomeReq.rdonce (Rq.window 1)
         ∧ bzF.invs = 0 ∧ bzF.ack = false ∧ (∀ w ∈ s.blk.mem.waitQ, w.1 ≠ 5)
         ∧ ∀ w ∈ s.blk.mem.busy, w.2.wait ≠ BusyWait.room) := by
  refine ⟨?_, ?_, ?_, ?_, ?_, ?_, ?_, ?_, ?_⟩ <;> decide +kernel
theorem wit_HomeAnswers :
    (let s : State := ringed (.ack 3 5) (busySt bzA)
     s.blk.up = true ∧ (∀ w ∈ s.blk.mem.waitQ, w.1 ≠ 5) ∧ (∀ w ∈ s.blk.mem.busy, w.2.wait ≠ BusyWait.room)
       ∧ (∀ w ∈ s.blk.mem.busy, w.2.recalls 5 = false) ∧ s.blk.mayArrive (Instr.ack 3 5) = true
       ∧ PMap.find 5 s.blk.mem.busy = some bzA ∧ bzA.req.rq = Rq.agent 3 ∧ bzA.ack = true ∧ bzA.invs = 0
       ∧ bzA.wait = BusyWait.none)
    ∧ (let s : State := ringed (.invack 3 5 none) (busySt bzW)
       s.blk.up = true ∧ (∀ w ∈ s.blk.mem.waitQ, w.1 ≠ 5) ∧ (∀ w ∈ s.blk.mem.busy, w.2.wait ≠ BusyWait.room)
         ∧ (∀ w ∈ s.blk.mem.busy, w.2.recalls 5 = false) ∧ s.blk.mayArrive (Instr.invack 3 5 none) = true
         ∧ PMap.find 5 s.blk.mem.busy = some bzW ∧ bzW.req = HomeReq.wr (Rq.seq 2 0) 153 255 ∧ bzW.invs = 1
         ∧ bzW.ack = false ∧ bzW.wait = BusyWait.grant ∧ bzW.wdata = none ∧ s.blk.rcLine 5 = some rc5 ∧ rc5.poison = false
         ∧ 255 ≠ 0)
    ∧ (let s : State := ringed (.evict 3 5) (memSt (fun m => { holds5 m with dir := [(5, dir8)] }))
       s.blk.up = true ∧ (∀ w ∈ s.blk.mem.waitQ, w.1 ≠ 5) ∧ (∀ w ∈ s.blk.mem.busy, w.2.wait ≠ BusyWait.room)
         ∧ (∀ w ∈ s.blk.mem.busy, w.2.recalls 5 = false) ∧ s.blk.mayArrive (Instr.evict 3 5) = true
         ∧ s.blk.dirEnt 5 = some dir8)
    ∧ (let s : State := ringed (.wb 5 0x99) (memSt (fun m => { holds5 m with dir := [(5, dirW)] }))
       s.blk.up = true ∧ (∀ w ∈ s.blk.mem.waitQ, w.1 ≠ 5) ∧ (∀ w ∈ s.blk.mem.busy, w.2.wait ≠ BusyWait.room)
         ∧ (∀ w ∈ s.blk.mem.busy, w.2.recalls 5 = false) ∧ s.blk.mayArrive (Instr.wb 5 153) = true
         ∧ s.blk.dirEnt 5 = some dirW ∧ s.blk.rcLine 5 = some rc5 ∧ dirW.isX = true)
    ∧ (let s : State := ringed (.wb 5 0x99) (memSt (fun m => { holds5 m with dir := [(5, {dir8 with isX := false})] }))
       s.blk.up = true ∧ (∀ w ∈ s.blk.mem.waitQ, w.1 ≠ 5) ∧ (∀ w ∈ s.blk.mem.busy, w.2.wait ≠ BusyWait.room)
         ∧ (∀ w ∈ s.blk.mem.busy, w.2.recalls 5 = false) ∧ s.blk.mayArrive (Instr.wb 5 153) = true
         ∧ s.blk.dirEnt 5 = some dirS ∧ s.blk.rcLine 5 = some rc5 ∧ dirS.isX = false)
    ∧ (let s : State := ringed (.fwdmiss 3 5 (.agent 4)) (busySt bzR)
       s.blk.up = true ∧ (∀ w ∈ s.blk.mem.waitQ, w.1 ≠ 5) ∧ (∀ w ∈ s.blk.mem.busy, w.2.wait ≠ BusyWait.room)
         ∧ (∀ w ∈ s.blk.mem.busy, w.2.recalls 5 = false) ∧ s.blk.mayArrive (Instr.fwdmiss 3 5 (Rq.agent 4)) = true
         ∧ s.blk.rcLine 5 = some rc5 ∧ rc5.poison = false ∧ Rq.agent 4 = Rq.agent 4 ∧ 3 ≠ 68
         ∧ PMap.find 5 s.blk.mem.busy = some bzR ∧ bzR.req = HomeReq.rds 4 ∧ bzR.invs = 0 ∧ bzR.ack = true
         ∧ bzR.wait = BusyWait.none)
    ∧ (let s : State := ringed2 (.fwdmiss 3 5 (.seq 2 0)) (fwdBusy2 (memSt holds5))
       s.blk.up = true ∧ (∀ w ∈ s.blk.mem.waitQ, w.1 ≠ 5) ∧ (∀ w ∈ s.blk.mem.busy, w.2.wait ≠ BusyWait.room)
         ∧ (∀ w ∈ s.blk.mem.busy, w.2.recalls 5 = false) ∧ s.blk.mayArrive (Instr.fwdmiss 3 5 (Rq.seq 2 0)) = true
         ∧ s.blk.rcLine 5 = some rc5 ∧ rc5.poison = false ∧ (∀ (r : AgentId), Rq.seq 2 0 ≠ Rq.agent r)
         ∧ PMap.find 5 s.blk.mem.busy = some bzF2 ∧ bzF2.req = HomeReq.rdonce (Rq.seq 2 0) ∧ bzF2.invs = 0
         ∧ bzF2.ack = false) := by
  refine ⟨?_, ?_, ?_, ?_, ?_, ?_, ?_⟩ <;> decide +kernel
theorem wit_DataArrives :
    (let s : State := ringed (.data none (.agent 3) 5 0x99 true) (memSt (fun m => { m with misses := [miss3] }))
     s.blk.up = true ∧ s.blk.mayArrive (Instr.data none (Rq.agent 3) 5 153 true) = true ∧ s.blk.missing 3 5 = true
       ∧ (∀ w ∈ s.blk.mem.misses, w.void = false) ∧ s.blk.copy 3 5 = none ∧ (s.blk.wayFor 3 5 false).2 = none)
    ∧ (let s : State := ringed (.data none (.window 1) 64 (BitVec.ofNat 512 (fb 12 0x44)) false) (st (fun b => b.setSeat 1 { b.seat 1 with unfin := some (.aperRead 3), winBase := 0x1000 }))
       s.blk.up = true ∧ s.blk.mayArrive (Instr.data none (Rq.window 1) 64 (BitVec.ofNat 512 (fb 12 68)) false) = true
         ∧ (s.blk.seat 1).unfin = some (Unfinished.aperRead 3))
    ∧ (let s : State := ringed (.cmpMessage (.window 1) 64 5 0) (st (fun b => b.setSeat 1 { b.seat 1 with unfin := some (.aperWrite 3), winBase := 0x1000 }))
       s.blk.up = true ∧ s.blk.mayArrive (Instr.cmpMessage (Rq.window 1) 64 5 0) = true
         ∧ (s.blk.seat 1).unfin = some (Unfinished.aperWrite 3))
    ∧ (let s : State := ringed (.cmpMessage (.window 1) 64 5 0) (st (fun b => b.setSeat 1 { b.seat 1 with unfin := some (.atomic at3 0x1008), winBase := 0x1000 }))
       s.blk.up = true ∧ s.blk.mayArrive (Instr.cmpMessage (Rq.window 1) 64 5 0) = true
         ∧ (s.blk.seat 1).unfin = some (Unfinished.atomic at3 4104))
    ∧ (let s : State := st (fun b => { b with sb := [mE], qs := [(0, { st := .opened, tail := 1, head := 1, ringSlots := 64 })] })
       s.blk.up = true ∧ s.blk.running = true ∧ s.blk.entry 0 0 = some mE ∧ mE.started = true
         ∧ mE.prog = Prog.membar false 0 ∧ mE.ending = none ∧ mE.opcode = opMEMBAR
         ∧ (∀ l ∈ s.blk.mem.rc, scanned s.blk.wv.cur (s.blk.partNo 0) l.1 l.2.way = false)
         ∧ (Blk.joinWritebacks 0 0 s.blk).2 = 0) := by
  refine ⟨?_, ?_, ?_, ?_, ?_⟩ <;> decide +kernel
theorem wit_WindowLeaves :
    (let s : State := st (fun b => b.setSeat 1 { b.seat 1 with winBase := 0x1000, atomAddr := 0x1008 })
     s.blk.Serves seat1 ∧ s.blk.dbg.belay = BelaySt.running
       ∧ (BitVec.toNat (s.blk.seat seat1.seat).atomAddr % if true = true then 8 else 4) = 0
       ∧ s.blk.goesNear (BitVec.toNat (s.blk.seat seat1.seat).atomAddr / 64) = true)
    ∧ (let s : State := st (fun b => { b.setSeat 1 { b.seat 1 with winBase := 0x1000, atomAddr := 0x1008 } with mem := { b.mem with atomMode := 2, agents := [(68, [(64, cp .m)])] } })
       s.blk.Serves seat1 ∧ s.blk.dbg.belay = BelaySt.running
         ∧ (BitVec.toNat (s.blk.seat seat1.seat).atomAddr % if true = true then 8 else 4) = 0
         ∧ s.blk.goesNear (BitVec.toNat (s.blk.seat seat1.seat).atomAddr / 64) = false
         ∧ s.blk.copy 68 (BitVec.toNat (s.blk.seat seat1.seat).atomAddr / 64) = some (cp CopySt.m)
         ∧ (cp CopySt.m).st = CopySt.m) := by
  refine ⟨?_, ?_⟩ <;> decide +kernel
theorem wit_PortResponses :
    (let s : State := fillSt
     s.blk.linkUp 0 = true ∧ PMap.find 7 (s.blk.port 0).stale = none
       ∧ PMap.find 7 (s.blk.port 0).tags = some (rdReq (PortUse.home 5)) ∧ (rdReq (PortUse.home 5)).write = false
       ∧ (rdReq (PortUse.home 5)).use = PortUse.home 5 ∧ PMap.find 5 s.blk.mem.busy = some bz
       ∧ bz.req = HomeReq.rdonce (Rq.seq 2 0) ∧ bz.wait = BusyWait.fill ∧ bz.invs = 0 ∧ bz.ack = false
       ∧ (∀ w ∈ s.blk.mem.waitQ, w.1 ≠ 5) ∧ ∀ w ∈ s.blk.mem.busy, w.2.recalls 5 = false ∧ w.2.wait ≠ BusyWait.room)
    ∧ (let s : State := portSt (fun v => {v with tags := [(7, wrReq (.writeback []))]})
       s.blk.linkUp 0 = true ∧ PMap.find 7 (s.blk.port 0).stale = none
         ∧ PMap.find 7 (s.blk.port 0).tags = some (wrReq (PortUse.writeback []))
         ∧ (wrReq (PortUse.writeback [])).write = true ∧ (wrReq (PortUse.writeback [])).use = PortUse.writeback [])
    ∧ (let s : State := st (fun b => { b.setPort 0 { b.port 0 with tags := [(7, wrReq (.writeback [(0, 0)]))] } with sb := [mB], qs := [(0, { st := .opened, tail := 1, head := 1, ringSlots := 64 })] })
       s.blk.linkUp 0 = true ∧ PMap.find 7 (s.blk.port 0).stale = none
         ∧ PMap.find 7 (s.blk.port 0).tags = some (wrReq (PortUse.writeback [(0, 0)]))
         ∧ (wrReq (PortUse.writeback [(0, 0)])).write = true
         ∧ (wrReq (PortUse.writeback [(0, 0)])).use = PortUse.writeback [(0, 0)] ∧ s.blk.running = true
         ∧ s.blk.entry 0 0 = some mB ∧ mB.prog = Prog.membar true 1 ∧ mB.ending = none ∧ mB.opcode = opMEMBAR)
    ∧ (let s : State := portSt (fun v => {v with stale := [(7, 5)]})
       s.blk.linkUp 0 = true ∧ PMap.find 7 (s.blk.port 0).stale = some 5) := by
  refine ⟨?_, ?_, ?_, ?_⟩ <;> decide +kernel
theorem wit_PortIssue :
    (let s : State := portSt (fun v => {v with queue := [wrReq (.writeback [])], slot := 56})
     s.blk.linksRun = true ∧ (s.blk.port 0).link = LinkSt.up ∧ s.blk.running = true ∧ s.blk.NoInjection
       ∧ (s.blk.port 0).slotRequest (s.blk.port 0).slot = some (wrReq (PortUse.writeback []))
       ∧ (s.blk.port 0).freeTag = some 0 ∧ (s.blk.port 0).reqCred ≠ 0
       ∧ (s.blk.port 0).tagsOf ((s.blk.port 0).holderOf (wrReq (PortUse.writeback []))) < (s.blk.port 0).tagLimit ((s.blk.port 0).holderOf (wrReq (PortUse.writeback []))))
    ∧ (let s : State := portSt (fun v => {v with queue := [wrReq (.writeback [])], slot := 56})
       s.blk.Serves stew ∧ s.Steward stew)
    ∧ (let s : State := portSt (fun v => {v with queue := [{wrReq (.writeback []) with holder := 0}], slot := 63, slots := [(63, 1)], tags := [(0, {rdReq (.home 9) with line := 9})], stale := [(1, 8), (6, 77)]})
       s.blk.linksRun = true ∧ (s.blk.port 0).link = LinkSt.up ∧ s.blk.NoInjection
         ∧ (s.blk.running = false ∨ (s.blk.port 0).slotRequest (s.blk.port 0).slot = none ∨ (s.blk.port 0).freeTag = none ∨ (s.blk.port 0).reqCred = 0 ∨ ∀ (r : PortReq), (s.blk.port 0).slotRequest (s.blk.port 0).slot = some r → (s.blk.port 0).tagLimit ((s.blk.port 0).holderOf r) ≤ (s.blk.port 0).tagsOf ((s.blk.port 0).holderOf r)))
    ∧ (let s : State := portSt (fun v => {v with link := .training})
       s.blk.linksRun = true ∧ (s.blk.port 0).link = LinkSt.training ∧ (s.blk.port 0).training < 32) := by
  refine ⟨?_, ?_, ?_, ?_⟩ <;> decide +kernel
theorem wit_LinkLayer :
    (let s : State := portSt (fun v => {v with lnk := {v.lnk with store := [fl1, (4, 77)], acked := 3, txSeq := 5}})
     s.blk.linksRun = true ∧ (s.blk.port 0).link = LinkSt.up ∧ s.blk.NoInjection ∧ rxGood (flitOf 0) = true
       ∧ bit (flitOf 0) 555 = false ∧ rxSeqOf (flitOf 0) = (s.blk.port 0).lnk.rxSeq ∧ bit (flitOf 0) 0 = false
       ∧ bit (flitOf 0) 524 = false ∧ bit (flitOf 0) 554 = false)
    ∧ (let s : State := portSt id
       s.blk.linksRun = true ∧ (s.blk.port 0).link = LinkSt.up ∧ s.blk.NoInjection
         ∧ rxGood (flitOf (2 ^ 536) ^^^ 8) = false ∧ (s.blk.port 0).lnk.discard = false ∧ (s.blk.port 0).lnk.rxBad < 15)
    ∧ (let s : State := portSt (fun v => {v with link := .training, training := 31})
       s.blk.linksRun = true ∧ (s.blk.port 0).link = LinkSt.training ∧ (s.blk.port 0).got0 = false
         ∧ rxGood (flitOf (2 ^ 555 + 64 * 2 ^ 10 + 2 ^ 18)) = true ∧ rxSeqOf (flitOf (2 ^ 555 + 64 * 2 ^ 10 + 2 ^ 18)) = 0
         ∧ bit (flitOf (2 ^ 555 + 64 * 2 ^ 10 + 2 ^ 18)) 555 = true
         ∧ bit (flitOf (2 ^ 555 + 64 * 2 ^ 10 + 2 ^ 18)) 0 = false
         ∧ bit (flitOf (2 ^ 555 + 64 * 2 ^ 10 + 2 ^ 18)) 524 = false
         ∧ bit (flitOf (2 ^ 555 + 64 * 2 ^ 10 + 2 ^ 18)) 536 = false
         ∧ bit (flitOf (2 ^ 555 + 64 * 2 ^ 10 + 2 ^ 18)) 537 = false
         ∧ 1 ≤ fld (flitOf (2 ^ 555 + 64 * 2 ^ 10 + 2 ^ 18)) 10 7 ∧ fld (flitOf (2 ^ 555 + 64 * 2 ^ 10 + 2 ^ 18)) 10 7 ≤ 64
         ∧ 1 ≤ fld (flitOf (2 ^ 555 + 64 * 2 ^ 10 + 2 ^ 18)) 18 7 ∧ fld (flitOf (2 ^ 555 + 64 * 2 ^ 10 + 2 ^ 18)) 18 7 ≤ 64)
    ∧ (let s : State := portSt (fun v => {v with link := .training, training := 31})
       s.blk.NoInjection ∧ s.blk.linksRun = true ∧ (s.blk.port 0).link = LinkSt.training)
    ∧ (let s : State := portSt (fun v => {v with link := .training, training := 32, sent0 := false, reqGrant := 3, wdGrant := 1})
       s.blk.linksRun = true ∧ (s.blk.port 0).link = LinkSt.training ∧ (s.blk.port 0).got0 = false
         ∧ 32 ≤ (s.blk.port 0).training ∧ (s.blk.port 0).lnk.rxSeq = 0 ∧ rxGood (flitOf 0) = true ∧ rxSeqOf (flitOf 0) = 0
         ∧ bit (flitOf 0) 555 = false ∧ bit (flitOf 0) 0 = false ∧ bit (flitOf 0) 524 = false ∧ bit (flitOf 0) 554 = false)
    ∧ (let s : State := portSt (fun v => {v with lnk := {v.lnk with store := [fl1, (4, 77)], acked := 3, txSeq := 5}})
       s.blk.NoInjection ∧ s.blk.linkUp 0 = true ∧ ((s.blk.port 0).lnk.ack 3).store ≠ [])
    ∧ (let s : State := portSt (fun v => {v with lnk := {v.lnk with store := [fl1, (4, 77)], acked := 3, txSeq := 5}})
       s.blk.NoInjection ∧ s.blk.linkUp 0 = true ∧ (s.blk.port 0).lnk.store = [fl1, (4, 77)]
         ∧ ((s.blk.port 0).lnk.ack fl1.1).store ≠ [])
    ∧ (let s : State := portSt id
       s.blk.NoInjection ∧ s.blk.linkUp 0 = true ∧ ((s.blk.port 0).lnk.ack 0).store = [])
    ∧ (let s : State := portSt id
       s.blk.linksRun = true ∧ s.blk.NoInjection ∧ linkUnit 1152 = some 1027 ∧ 1152 ∉ s.blk.flt.linksDown ∧ true = true
         ∧ 0 = (s.blk.intLink (1152)).rxSeq)
    ∧ (let s : State := portSt id
       s.blk.linksRun = true ∧ s.blk.NoInjection ∧ linkUnit 1152 = some 1027 ∧ 1152 ∉ s.blk.flt.linksDown ∧ false = false
         ∧ (s.blk.intLink (1152)).discard = false) := by
  refine ⟨?_, ?_, ?_, ?_, ?_, ?_, ?_, ?_, ?_, ?_⟩ <;> decide +kernel
theorem wit_IntakeItems :
    (let s : State := base
     s.blk.ikReady 2 = true ∧ (s.blk.intake 2).items = [] ∧ s.blk.binding 2 = none)
    ∧ (let s : State := base
       (s.blk.intake 2).opened = none)
    ∧ (let s : State := base
       s.blk.ikReady 1 = true ∧ s.blk.binding 1 = some ikRec
         ∧ ((s.blk.intake 1).items = [] ∨ ∃ (i : Item), (s.blk.intake 1).items = [i] ∧ i.last = true
         ∧ i.phase = ItemPhase.waiting ∧ s.blk.destBusy 1 ikRec = true))
    ∧ (let s : State := ikSt {items := [bodyI []]} id
       s.blk.ikReady 1 = true ∧ (s.blk.intake 1).items = [bodyI []] ∧ s.blk.binding 1 = some ikRec
         ∧ s.blk.destBusy 1 ikRec = false ∧ (bodyI []).phase = ItemPhase.body ∧ (bodyI []).packed = false
         ∧ ikRec.kind1 = false ∧ (bodyI []).last = false ∧ (bodyI []).overclaim = false
         ∧ staleNow s.env ikRec (bodyI []) = false ∧ (bodyI []).buffered = [] ∧ (bodyI []).written < (bodyI []).extent)
    ∧ (let s : State := ikSt {items := [bodyI []]} id
       s.blk.up = true ∧ (s.blk.intake 1).items = [] ++ [bodyI []] ∧ (bodyI []).last = false)
    ∧ (let s : State := ikSt {items := [bodyI (List.replicate 32 7)]} id
       s.blk.ikReady 1 = true ∧ (s.blk.intake 1).items = [bodyI (List.replicate 32 7)] ∧ s.blk.binding 1 = some ikRec
         ∧ s.blk.destBusy 1 ikRec = false ∧ (bodyI (List.replicate 32 7)).phase = ItemPhase.body
         ∧ (bodyI (List.replicate 32 7)).packed = false ∧ ikRec.kind1 = false ∧ (bodyI (List.replicate 32 7)).last = false
         ∧ (bodyI (List.replicate 32 7)).overclaim = false ∧ staleNow s.env ikRec (bodyI (List.replicate 32 7)) = false
         ∧ (bodyI (List.replicate 32 7)).buffered.length = 32
         ∧ (bodyI (List.replicate 32 7)).written + 64 ≤ (bodyI (List.replicate 32 7)).extent)
    ∧ (let s : State := ikSt {items := [item0 .waiting]} id
       s.blk.running = true ∧ (s.blk.intake 1).items = [item0 ItemPhase.waiting] ∧ s.blk.binding 1 = some ikRec
         ∧ (item0 ItemPhase.waiting).phase = ItemPhase.waiting ∧ (s.blk.intake 1).stopped = false
         ∧ s.blk.destBusy 1 ikRec = false ∧ (item0 ItemPhase.waiting).last = false
         ∧ (item0 ItemPhase.waiting).buffered = [] ∧ (item0 ItemPhase.waiting).overclaim = false
         ∧ (item0 ItemPhase.waiting).packed = false)
    ∧ (let s : State := at1 4000 (ikSt {landing := [landing0]} id)
       s.blk.up = true ∧ (s.blk.intake 1).items = []
         ∧ List.find? (fun (l : Landing) => !l.dropped) (s.blk.intake 1).landing = some landing0 ∧ landing0.outst = []
         ∧ landing0.record = none) := by
  refine ⟨?_, ?_, ?_, ?_, ?_, ?_, ?_, ?_⟩
  · decide +kernel
  · decide +kernel
  · exact ⟨by decide +kernel, by decide +kernel, .inl (by decide +kernel)⟩
  · decide +kernel
  · decide +kernel
  · decide +kernel
  · decide +kernel
  · decide +kernel
theorem wit_BudgetFollows :
    (let s : State := pwrSt (fun p => {p with sample := 20}) id
     s.blk.start.poresetLow = false ∧ s.blk.pwr.window < 1000)
    ∧ (let s : State := pwrSt (fun p => {p with window := 1000, adopted := 20, budget := 40, estCnt := 3, estSum := 99999999}) id
       s.blk.start.poresetLow = false ∧ 1000 ≤ s.blk.pwr.window) := by
  refine ⟨?_, ?_⟩ <;> decide +kernel
theorem wit_LevelsMoveByOne :
    let s : State := st (fun b => {b with eng := [(0, {level := 3, target := 5}), (1, {level := 4, target := 32}), (2, {level := 9, target := 2})]})
    s.blk.up = true := by
  decide +kernel
theorem wit_SleepAndWake :
    (let s : State := pwrSt (fun p => {p with idleKeep := 100}) (fun b => { b with wv := {b.wv with cur := {}}, eng := [(1, {level := 4})], mem := {b.mem with ports := [(0, {link := .up})]} })
     s.blk.sleepOk = true ∧ s.blk.pwr.sleepDelay.toNat ≤ s.blk.pwr.idleKeep)
    ∧ (let s : State := pwrSt (fun p => {p with idleKeep := 100}) (fun b => { b with wv := {b.wv with cur := {}}, eng := [(1, {level := 4})], mem := {b.mem with ports := [(0, {link := .up})]} })
       s.blk.pwr.wakeFrom = none ∧ s.blk.start.began = false ∧ s.blk.pwr.ctlReq = true)
    ∧ (let s : State := pwrSt (fun p => {p with idleKeep := 100}) (fun b => { b with wv := {b.wv with cur := {}}, eng := [(1, {level := 4})], mem := {b.mem with ports := [(0, {link := .up})]} })
       s.blk.pwr.wakeFrom = none ∧ s.blk.start.began = false ∧ s.blk.pwr.ariReq = true)
    ∧ (let s : State := pwrSt (fun p => {p with asleep := true, ariReq := false, ctlReq := false}) id
       s.blk.start.poresetLow = false ∧ s.blk.start.sysLow = false ∧ s.blk.pwr.asleep = true ∧ s.blk.pwr.wakeFrom = none)
    ∧ (let s : State := at1 900 (pwrSt (fun p => {p with asleep := true, ariReq := true, ctlReq := true, ariAck := true, ctlAck := false, wakeFrom := some 5}) id)
       s.blk.start.poresetLow = false ∧ s.blk.pwr.asleep = true ∧ s.blk.pwr.wakeFrom = some 5 ∧ s.blk.pwr.ariReq = true
         ∧ s.blk.pwr.ctlReq = true ∧ (if true = true then s.blk.pwr.ariAck else s.blk.pwr.ctlAck) = true) := by
  refine ⟨?_, ?_, ?_, ?_, ?_⟩ <;> decide +kernel
theorem wit_DroopStretches :
    (let s : State := pwrSt id (fun b => {b with stand := [run0]})
     s.blk.start.poresetLow = false ∧ s.blk.start.sysLow = false ∧ s.blk.pwr.asleep = false
       ∧ s.blk.pwr.clock = ClockSt.full)
    ∧ (let s : State := pwrSt (fun p => {p with clock := .stretch}) id
       s.blk.start.poresetLow = false ∧ s.blk.start.sysLow = false ∧ s.blk.pwr.clock = ClockSt.stretch)
    ∧ (let s : State := pwrSt (fun p => {p with clock := .rampBack, divider := 30}) id
       s.blk.start.poresetLow = false ∧ s.blk.start.sysLow = false ∧ s.blk.pwr.clock = ClockSt.rampBack
         ∧ s.blk.pwr.asleep = false ∧ s.blk.pwr.divider < 31)
    ∧ (let s : State := pwrSt (fun p => {p with clock := .rampBack, divider := 31}) id
       s.blk.start.poresetLow = false ∧ s.blk.start.sysLow = false ∧ s.blk.pwr.clock = ClockSt.rampBack
         ∧ s.blk.pwr.asleep = false ∧ 31 ≤ s.blk.pwr.divider) := by
  refine ⟨?_, ?_, ?_, ?_⟩ <;> decide +kernel
theorem wit_StartsRun :
    (let s : State := State.reset
     s.blk.start.poresetLow = true ∧ s.blk.start.sysLow = false)
    ∧ (let s : State := startSt (fun t => {t with arrays := false, done := false}) id
       s.blk.start.began = true ∧ s.blk.start.kind = 1 ∧ s.blk.start.hrpUp = true ∧ s.blk.start.arrays = false
         ∧ s.blk.start.failed = false)
    ∧ (let s : State := startSt (fun t => {t with done := false, kind := 2}) (fun b => {b with flt := {b.flt with warden := .booting}})
       s.blk.start.began = true ∧ s.blk.start.hrpUp = true ∧ s.blk.start.failed = false
         ∧ s.blk.flt.warden = WardenSt.booting)
    ∧ (let s : State := startSt (fun t => {t with done := false, config := true, warden := true, kind := 2}) (fun b => {b with patch := {b.patch with st := .none, romDone := true}})
       s.blk.stepsDone = true)
    ∧ (let s : State := startSt2 (fun t => {t with poresetLow := true, done := false, sysLow := true, began := false}) id
       s.blk.start.poresetLow = true ∧ s.blk.start.sysLow = true) := by
  refine ⟨?_, ?_, ?_, ?_, ?_⟩ <;> decide +kernel
theorem wit_WarmReset :
    (let s : State := workSt {engW with lm := [(3,4),(70000, 5)]} id
     s.blk.start.poresetLow = false ∧ s.blk.start.failed = false ∧ s.blk.start.done = true ∧ s.blk.start.sysLow = false)
    ∧ (let s : State := startSt (fun t => {t with sysLow := true, kind := 2, done := false}) id
       s.blk.start.poresetLow = false ∧ s.blk.start.failed = false ∧ s.blk.start.waits = false
         ∧ (s.blk.start.kind ≠ 1 ∨ s.blk.start.done = true) ∧ s.blk.start.sysLow = true)
    ∧ (let s : State := startSt (fun t => {t with sysLow := true, kind := 1, done := false}) id
       s.blk.start.poresetLow = false ∧ s.blk.start.failed = false ∧ s.blk.start.waits = false ∧ s.blk.start.kind = 1
         ∧ s.blk.start.done = false ∧ s.blk.start.sysLow = true)
    ∧ (let s : State := startSt2 (fun t => {t with sysLow := true, kind := 1, done := false, waits := true, began := false}) id
       s.blk.start.poresetLow = false ∧ s.blk.start.failed = false ∧ s.blk.start.waits = true ∧ s.blk.start.sysLow = true) := by
  refine ⟨?_, ?_, ?_, ?_⟩ <;> decide +kernel
theorem wit_PatchLoads :
    (let s : State := patchSt {ready := true} id
     s.blk.patch.ready = true ∧ s.blk.patch.st = PatchSt.waiting ∧ s.blk.patch.cut = false)
    ∧ (let s : State := patchSt {ready := true} id
       s.blk.patch.ready = true ∧ (s.blk.patch.st = PatchSt.waiting ∨ s.blk.patch.st = PatchSt.receiving)
         ∧ s.blk.patch.cut = false ∧ s.blk.patch.len + 8 ≠ 64 ∧ s.blk.patch.len + 8 ≠ 65536)
    ∧ (let s : State := patchSt {ready := true, st := .receiving, len := 56, bytes := magicBad} id
       s.blk.patch.ready = true ∧ s.blk.patch.st = PatchSt.receiving ∧ s.blk.patch.cut = false ∧ s.blk.patch.len = 56
         ∧ s.blk.patch.bytes.length = 56 ∧ s.blk.patch.at32 0 ≠ 1263751504)
    ∧ (let s : State := patchSt {ready := true, st := .receiving, len := 80, bytes := magicBad} id
       s.blk.patch.ready = true ∧ s.blk.patch.st = PatchSt.receiving ∧ s.blk.patch.cut = false ∧ s.blk.patch.len + 8 ≠ 64)
    ∧ (let s : State := patchSt {ready := true, st := .verifying, len := 56, bytes := magicBad} id
       s.blk.patch.st = PatchSt.verifying ∧ s.blk.patch.hashed = false)
    ∧ (let s : State := patchSt {ready := true, st := .verifying, hashed := true, len := 80, bytes := goodLen} (fun b => {b with start := {b.start with done := false}})
       s.blk.patch.st = PatchSt.verifying ∧ s.blk.patch.hashed = true)
    ∧ (let s : State := patchSt {ready := true, st := .verifying, hashed := true, len := 80, bytes := goodLen} (fun b => {b with start := {b.start with done := false}})
       s.blk.start.arrays = true ∧ s.blk.start.began = true ∧ s.blk.start.failed = false ∧ s.blk.start.done = false)
    ∧ (let s : State := patchSt {ready := true, st := .decrypting, hashed := true, len := 80, bytes := goodLen, key := List.replicate 8 3} id
       s.blk.patch.st = PatchSt.decrypting ∧ s.blk.patch.keyReq = false ∧ s.blk.patch.key.length = 8)
    ∧ (let s : State := patchSt {ready := true, st := .decrypting, hashed := true, len := 80, bytes := goodLen, key := List.replicate 7 3, keyReq := true} id
       s.blk.patch.keyReq = true)
    ∧ (let s : State := patchSt {ready := true, st := .decrypting, hashed := true, romDone := true, checked := true, len := 80, bytes := goodLen, plain := [2,0,0,0,0,0,0,0]} id
       s.blk.patch.st = PatchSt.decrypting ∧ s.blk.patch.checked = true ∧ s.blk.patch.romDone = true
         ∧ s.blk.patch.records = some emptyRec) := by
  refine ⟨?_, ?_, ?_, ?_, ?_, ?_, ?_, ?_, ?_, ?_⟩ <;> decide +kernel
theorem wit_HangsAndRungs :
    (let s : State := at1 10000000000 (workSt engW fun b => { b with sb := [started1 lz] })
     s.blk.running = true ∧ Blk.hangDue s.env s.blk 1 = true ∧ (s.blk.engine 1).st = EngState.running
       ∧ (s.blk.engine 1).job = some (jobL 0) ∧ (jobL 0).run = false
       ∧ s.blk.entry (jobL 0).q (jobL 0).n = some (started1 lz) ∧ (started1 lz).prog = Prog.launch lz ∧ lz.twin = none
       ∧ (started1 lz).ending = none)
    ∧ (let s : State := workSt {engW with stop := some .ended} id
       s.blk.running = true ∧ ((s.blk.engine 1).stop = some StopKind.ended ∨ (s.blk.engine 1).stop = some StopKind.retire)
         ∧ (s.blk.engine 1).channelsIdle = true ∧ (s.blk.engine 1).job = some (jobL 0) ∧ (s.blk.engine 1).yieldTo = none)
    ∧ (let s : State := rgA
       s.blk.up = true ∧ s.blk.flt.warden = WardenSt.running ∧ 9 ≠ 8
         ∧ (∃ u ∈ s.blk.flt.called, (rungReq (Rung.engine 1) 9).same u = true)
         ∧ rungTarget s.blk.wv.cur (rungReq (Rung.engine 1) 9) = true ∧ s.blk.flt.pcycReq = false
         ∧ ((s.blk.flt.active ++ s.blk.flt.deferred ++ s.blk.flt.pending).all fun (a : RungReq) => !(rungReq (Rung.engine 1) 9).same a && !RungReq.covers s.blk.wv.cur a (rungReq (Rung.engine 1) 9)) = true)
    ∧ (let s : State := fltSt fun f => {f with active := [rungReq (.engine 1) 9]}
       s.blk.flt.called = [] ∧ s.blk.flt.deferred = [] ∧ s.blk.wv.cur.partOf 1 = some part0
         ∧ s.blk.flt.active = [rungReq (Rung.engine 1) 9])
    ∧ (let s : State := fltSt fun f => {f with active := [rungReq .block 9]}
       s.blk.flt.called = [] ∧ s.blk.flt.deferred = [] ∧ s.blk.flt.active = [rungReq Rung.block 9])
    ∧ (let s : State := fltSt fun f => {f with active := [rungReq (.partition 1) 9]}
       s.blk.flt.called = [] ∧ s.blk.flt.deferred = [] ∧ s.blk.flt.active = [rungReq (Rung.partition 1) 9]) := by
  refine ⟨?_, ?_, ?_, ?_, ?_, ?_⟩ <;> decide +kernel
theorem wit_RungsCarriedOut :
    (let s : State := base
     s.blk.Serves stew ∧ s.Steward stew)
    ∧ (let s : State := base
       s.blk.hrpReady stew3.seat = true ∧ (s.blk.seat stew3.seat).unfin = none ∧ s.blk.start.done = true ∧ s.Steward stew3
         ∧ stew3.be ≠ 15)
    ∧ (let s : State := ordSt (.engine 1) 9
       s.blk.running = true ∧ s.blk.orderedRung (rungReq (Rung.engine 1) 9) = some (rungReq (Rung.engine 1) 9))
    ∧ (let s : State := ordSt (.partition 0) 9
       s.blk.running = true ∧ s.blk.wv.st ≠ WvState.checking ∧ s.blk.wv.st ≠ WvState.waiting
         ∧ s.blk.wv.st ≠ WvState.pouring ∧ s.blk.wv.cur.part 0 = some part0
         ∧ s.blk.orderedRung (rungReq (Rung.partition 0) 9) = some (rungReq (Rung.partition 0) 9))
    ∧ (let s : State := ordSt .block 9
       s.blk.running = true ∧ s.blk.start.failed = false ∧ s.blk.start.poresetLow = false ∧ s.blk.start.sysLow = false
         ∧ s.blk.orderedRung (rungReq Rung.block 9) = some (rungReq Rung.block 9))
    ∧ (let s : State := ordSt .power 9
       s.blk.running = true ∧ s.blk.orderedRung (rungReq Rung.power 9) = some (rungReq Rung.power 9)) := by
  refine ⟨?_, ?_, ?_, ?_, ?_, ?_⟩ <;> decide +kernel
theorem wit_ErrorsNoted :
    (let s : State := errSt
     s.blk.running = true ∧ (s.blk.engine 1).st = EngState.resetting)
    ∧ (let s : State := errSt
       s.blk.flt.pcycReq = true ∧ s.blk.start.poresetLow = false)
    ∧ (let s : State := errSt
       s.blk.start.poresetLow = false ∧ s.blk.pwr.asleep = false)
    ∧ (let s : State := errSt
       s.blk.up = true ∧ 2 ≠ 0 ∧ s.blk.mayArrive (Instr.wbRefused 2 5 2) = true)
    ∧ (let s : State := errSt
       s.blk.flt.warden = WardenSt.running ∧ s.blk.pwr.asleep = false) := by
  refine ⟨?_, ?_, ?_, ?_, ?_⟩ <;> decide +kernel
theorem wit_BelayEntersAndLeaves :
    (let s : State := dbgSt (fun d => {d with belayInEn := true})
     s.blk.start.poresetLow = false ∧ s.blk.start.sysLow = false ∧ s.blk.dbg.belayInEn = true ∧ s.blk.start.done = true
       ∧ s.blk.pwr.asleep = false ∧ s.blk.dbg.belay = BelaySt.running)
    ∧ (let s : State := dbgSt (fun d => {d with belayInEn := true})
       s.blk.Serves stew ∧ s.Steward stew ∧ s.blk.pwr.asleep = false ∧ s.blk.dbg.belay = BelaySt.running)
    ∧ (let s : State := dbgSt (fun d => {d with belay := .stopping})
       s.blk.Serves stew ∧ s.Steward stew ∧ s.blk.pwr.asleep = false ∧ s.blk.dbg.belay = BelaySt.stopping)
    ∧ (let s : State := dbgSt (fun d => {d with belay := .stopping})
       s.blk.dbg.belay = BelaySt.stopping ∧ (∀ m ∈ s.blk.mem.ring, ringIdle m = true) ∧ s.blk.dbg.relHeld = false)
    ∧ (let s : State := dbgSt (fun d => {d with belay := .stopped})
       s.blk.Serves stew ∧ s.Steward stew ∧ s.blk.pwr.asleep = false ∧ s.blk.dbg.belay = BelaySt.stopped) := by
  refine ⟨?_, ?_, ?_, ?_, ?_⟩ <;> decide +kernel
theorem wit_BreaksAndTriggers :
    (let s : State := dbgSt (fun d => {d with tags := [(2, 5, 7)], units := [(0, unitTag), (9, unitTag)]})
     s.blk.running = true ∧ tag1 ∈ s.blk.dbg.tags ∧ tag1.1 = 2
       ∧ ∀ u ∈ s.blk.dbg.tags, u.1 = 2 → u.2.2 = tag1.2.2 → BitVec.ofNat 32 u.2.1 = BitVec.ofNat 32 tag1.2.1 → u = tag1)
    ∧ (let s : State := dbgSt (fun d => {d with tags := [(2, 5, 7)], units := [(0, unitTag), (9, unitTag)]})
       s.blk.Serves stew ∧ s.Steward stew)
    ∧ (let s : State := st (fun b => {b with qs := [(0, {held := [3,0]})], sq := [(1, {st := .broke})]})
       s.blk.Serves stew ∧ s.Steward stew ∧ (s.blk.seq 1).st = SeqState.broke)
    ∧ (let s : State := dbgSt (fun d => {d with trigs := [(2, {arm := true, thr := 0, src := false})]})
       s.blk.up = true ∧ (SMap.get { } s.blk.dbg.trigs 2).arm = true
         ∧ BitVec.toNat (SMap.get { } s.blk.dbg.trigs 2).thr ≤ BitVec.toNat (Trigger.value s.blk (SMap.get { } s.blk.dbg.trigs 2)))
    ∧ (let s : State := brkSt [(0, unitC 0)]
       s.blk.running = true ∧ (s.blk.heldLine 0 (s.blk.que 0).head).isSome = true
         ∧ s.blk.countUnits 0 (s.blk.que 0).head ≠ [])
    ∧ (let s : State := startSt2 (fun t => {t with done := false}) (fun b => {b with dbg := {b.dbg with trigs := [(2, {arm := true, thr := 0, src := false, action := true})]}})
       s.blk.start.done = false ∧ s.blk.start.poresetLow = false ∧ s.blk.start.sysLow = false ∧ s.blk.pwr.asleep = false
         ∧ (SMap.get { } s.blk.dbg.trigs 2).arm = true
         ∧ BitVec.toNat (SMap.get { } s.blk.dbg.trigs 2).thr ≤ BitVec.toNat (Trigger.value s.blk (SMap.get { } s.blk.dbg.trigs 2))
         ∧ (SMap.get { } s.blk.dbg.trigs 2).action = true) := by
  refine ⟨?_, ?_, ?_, ?_, ?_, ?_⟩ <;> decide +kernel
theorem wit_Snapshots :
    (let s : State := st (fun b => {b with qs := [(0, {st := .opened, tail := 3, ringSlots := 64}), (9, {st := .draining})]})
     s.blk.Serves stew ∧ s.Steward stew ∧ s.blk.dbg.tangle.st ≠ TangleSt.building)
    ∧ (let s : State := st (fun b => {b with qs := [(0, {st := .opened, tail := 3, ringSlots := 64}), (9, {st := .draining})]})
       s.blk.start.poresetLow = false ∧ s.blk.dbg.trstLow = false)
    ∧ (let s : State := dbgSt (fun d => {d with tangle := {base := 65, size := 128}, tapIr := 0x10})
       s.blk.start.poresetLow = false ∧ s.blk.dbg.trstLow = false ∧ s.blk.dbg.tapIr = 16
         ∧ s.blk.dbg.belay ≠ BelaySt.stopped ∧ s.blk.pwr.asleep = false)
    ∧ (let s : State := dbgSt (fun d => {d with tangle := {base := 64, size := 128, st := .building}, tapIr := 0x10})
       s.blk.dbg.tangle.st = TangleSt.building ∧ (s.blk.dbg.tangle.want = 0 ∨ s.blk.flt.warden ≠ WardenSt.running)) := by
  refine ⟨?_, ?_, ?_, ?_⟩ <;> decide +kernel
theorem wit_CountersAndTrace :
    (let s : State := base
     s.blk.Serves stew ∧ s.Steward stew)
    ∧ (let s : State := base
       s.blk.Serves stew
         ∧ (BitVec.getLsbD (s.blk.seat stew.seat).expert 2 = false ∨ s.blk.wv.cur.engOwners 1 ≠ [stew.seat]))
    ∧ (let s : State := workSt {engW with trace := {ctl := 4}} (fun b => {b with trc := {b.trc with interval := 5, ctl := 2}})
       s.blk.running = true ∧ s.blk.trc.interval ≠ 0)
    ∧ (let s : State := drSt false
       s.blk.running = true ∧ s.blk.drained none = some (16, drain0) ∧ s.blk.trc.caddy.recs = [trec] ∧ drain0.src = none
         ∧ drain0.copy = false ∧ drain0.item = trec ∧ trec.kind ≠ 16 ∧ (∀ i < 17, i ≠ 16 → (s.blk.ring i).en = false)
         ∧ drain0.bad = false)
    ∧ (let s : State := drSt true
       s.blk.running = true ∧ s.blk.drained none = some (16, drain1) ∧ s.blk.trc.caddy.recs = [trec] ∧ drain1.src = none
         ∧ drain1.copy = false ∧ drain1.item = trec ∧ trec.kind ≠ 16 ∧ (∀ i < 17, i ≠ 16 → (s.blk.ring i).en = false)
         ∧ drain1.bad = true)
    ∧ (let s : State := st (fun b => (b.setSeat 1 {b.seat 1 with expert := 4}))
       s.blk.Serves seat1 ∧ BitVec.getLsbD (s.blk.seat seat1.seat).expert 2 = true
         ∧ s.blk.wv.cur.engOwners 1 = [seat1.seat] ∧ (s.blk.engine 1).trace.caddy.recs = [])
    ∧ (let s : State := st (fun b => (b.setSeat 1 {b.seat 1 with expert := 4}).setEng 1 {trace := {owner := 1, ctl := 7}})
       s.blk.Serves seat1 ∧ (s.blk.engine 1).trace.owner = BitVec.ofNat 5 seat1.seat) := by
  refine ⟨?_, ?_, ?_, ?_, ?_, ?_, ?_⟩ <;> decide +kernel
theorem wit_RegisterCommands :
    (let s : State := st (fun b => {b with feat := {b.feat with accept := 7}})
     s.blk.Serves stew ∧ s.Steward stew)
    ∧ (let s : State := st (fun b => {b with host := {b.host with slowSel := [(1, 3)]}})
       s.blk.Serves seat1 ∧ s.blk.slowQueue (ownWindow s.env seat1) = some 3)
    ∧ (let s : State := base
       s.blk.Serves seat2 ∧ s.blk.slowQueue (ownWindow s.env seat2) = none) := by
  refine ⟨?_, ?_, ?_⟩ <;> decide +kernel
theorem wit_RegisterAccesses :
    (let s : State := at1 0x100000002 base
     s.blk.Serves stew ∧ s.Steward stew ∧ 0 < 8 ∧ s.blk.feat.committed = false)
    ∧ (let s : State := at1 0x100000002 base
       s.blk.PortQuiet)
    ∧ (let s : State := base
       s.blk.Serves seat1 ∧ placeOf 4096 = Place.steward (4096 / 4 * 4) ∧ ¬s.Steward seat1 ∧ s.blk.host.acc.valid = false)
    ∧ (let s : State := st (fun b => {b with host := {b.host with warden := [hop]}})
       s.blk.host.warden = [hop] ∧ s.blk.flt.warden = WardenSt.running ∧ hop.addr = 28672 ∧ hop.wdata = some 807)
    ∧ (let s : State := st (fun b => {b with host := {b.host with warden := [hop]}, flt := {b.flt with warden := .stopped}})
       s.blk.host.warden = [hop] ∧ s.blk.flt.warden ≠ WardenSt.running)
    ∧ (let s : State := base
       s.blk.hrpReady stew3.seat = true ∧ (s.blk.seat stew3.seat).unfin = none ∧ s.blk.start.done = true ∧ stew3.be ≠ 15) := by
  refine ⟨?_, ?_, ?_, ?_, ?_, ?_⟩ <;> decide +kernel

end Sys2Proof.Tests
end

/-! # The weave in force and the straps stand (02 R62, 01 R27); the steep buffer stays canonical

Every operation of the model on the block leaves the weave in force and its epoch as they are, but the pour edge and the resets that
begin the block anew: one lemma for each operation, in the model's order. Then the host port's rows, and the commands. -/

namespace Sys2Proof.Machine

/-! ## The weave in force -/

/-- The weave in force and its epoch (02 R62). -/
def Blk.inForce (b : Blk) : W32 × Weave := (b.wv.epoch, b.wv.cur)

/-! Lemmas that hold by computation are proved by `(rfl)`: simp takes one proved by `rfl` for a rewriting of its own, and then cannot
discharge the hypothesis of `Blk.foldl_inForce` with it. -/

@[simp] theorem Blk.inForce_mk (freeCtr ctlCycle host feat start patch wv qs kn sb stand dsp sq eng mem ik pwr flt dbg trc) :
    Blk.inForce ⟨freeCtr, ctlCycle, host, feat, start, patch, wv, qs, kn, sb, stand, dsp, sq, eng, mem, ik, pwr, flt, dbg, trc⟩
      = (wv.epoch, wv.cur) := (rfl)
@[simp] theorem Blk.inForce_eta (b : Blk) : (b.wv.epoch, b.wv.cur) = b.inForce := (rfl)
theorem Blk.inForce_eq_iff {b c : Blk} : c.inForce = b.inForce ↔ c.wv.epoch = b.wv.epoch ∧ c.wv.cur = b.wv.cur := Prod.mk_inj
@[simp] theorem Blk.ite_inForce (p : Prop) [Decidable p] (b c : Blk) :
    (if p then b else c).inForce = if p then b.inForce else c.inForce := apply_ite ..
@[simp] theorem Blk.dite_inForce (p : Prop) [Decidable p] (b : p → Blk) (c : ¬p → Blk) :
    (if h : p then b h else c h).inForce = if h : p then (b h).inForce else (c h).inForce := apply_dite ..
@[simp] theorem Blk.ite_fst_inForce {β : Type} (p : Prop) [Decidable p] (y z : Blk × β) :
    (if p then y else z).1.inForce = if p then y.1.inForce else z.1.inForce := apply_ite (fun y : Blk × β => y.1.inForce) ..
theorem Blk.ite_keeps {p : Prop} [Decidable p] {b x y : Blk} (h : x.inForce = b.inForce) (k : y.inForce = b.inForce) :
    (if p then x else y).inForce = b.inForce := by split <;> assumption
theorem Blk.getD_inForce {o : Option Blk} {b : Blk} (h : ∀ c, o = some c → c.inForce = b.inForce) :
    (o.getD b).inForce = b.inForce := by
  cases o with
  | none => rfl
  | some c => exact h c rfl
@[simp] theorem Blk.foldl_inForce {α : Type} {f : Blk → α → Blk} (h : ∀ b x, (f b x).inForce = b.inForce) (l : List α) (b : Blk) :
    (l.foldl f b).inForce = b.inForce := by
  induction l generalizing b with
  | nil => rfl
  | cons x l ih => exact (ih _).trans (h b x)
/-- A fold that gathers results besides the block. -/
theorem Blk.foldl_fst_inForce {α β : Type} {f : Blk × β → α → Blk × β} (h : ∀ y x, (f y x).1.inForce = y.1.inForce)
    (l : List α) (y : Blk × β) : (l.foldl f y).1.inForce = y.1.inForce := by
  induction l generalizing y with
  | nil => rfl
  | cons x l ih => exact (ih _).trans (h y x)
theorem Blk.foldl_snd_inForce {α β : Type} {f : β × Blk → α → β × Blk} (h : ∀ y x, (f y x).2.inForce = y.2.inForce)
    (l : List α) (y : β × Blk) : (l.foldl f y).2.inForce = y.2.inForce := by
  induction l generalizing y with
  | nil => rfl
  | cons x l ih => exact (ih _).trans (h y x)
/-- The work of queues reaches no weave. -/
theorem Blk.QueueWork.inForce {b c : Blk} (h : b.QueueWork c) : c.inForce = b.inForce := by
  unfold Blk.QueueWork at h; rw [h]; rfl

/-! ### Shared operations -/

@[simp] theorem Blk.setQue_inForce (b q v) : (Blk.setQue b q v).inForce = b.inForce := (rfl)
@[simp] theorem Blk.setKnot_inForce (b k v) : (Blk.setKnot b k v).inForce = b.inForce := (rfl)
@[simp] theorem Blk.setEng_inForce (b e v) : (Blk.setEng b e v).inForce = b.inForce := (rfl)
@[simp] theorem Blk.modEng_inForce (e f b) : (Blk.modEng e f b).inForce = b.inForce := (rfl)
@[simp] theorem Blk.setSeq_inForce (b s v) : (Blk.setSeq b s v).inForce = b.inForce := (rfl)
@[simp] theorem Blk.setPort_inForce (b p v) : (Blk.setPort b p v).inForce = b.inForce := (rfl)
@[simp] theorem Blk.setIntake_inForce (b p v) : (Blk.setIntake b p v).inForce = b.inForce := (rfl)
@[simp] theorem Blk.setSeat_inForce (b s v) : (Blk.setSeat b s v).inForce = b.inForce := (rfl)
@[simp] theorem Blk.setTieRegs_inForce (b s v) : (Blk.setTieRegs b s v).inForce = b.inForce := (rfl)
@[simp] theorem Blk.setRing_inForce (b r v) : (Blk.setRing b r v).inForce = b.inForce := (rfl)
@[simp] theorem Blk.drawFree_inForce (b) : (Blk.drawFree b).2.inForce = b.inForce := (rfl)
@[simp] theorem Blk.bump_inForce (b key n) : (Blk.bump b key n).inForce = b.inForce := (rfl)
@[simp] theorem Blk.bumpAll_inForce (b ev arg) : (Blk.bumpAll b ev arg).inForce = b.inForce := (rfl)
@[simp] theorem Blk.staleMsg_inForce (b) : (Blk.staleMsg b).inForce = b.inForce := (rfl)
@[simp] theorem Blk.traceBlk_inForce (x kind body b) : (Blk.traceBlk x kind body b).inForce = b.inForce := (rfl)
@[simp] theorem Blk.traceEvent_inForce (x kind body b) : (Blk.traceEvent x kind body b).inForce = b.inForce := by
  simp [Blk.traceEvent]
@[simp] theorem Blk.setSeatLog_inForce (b s v) : (Blk.setSeatLog b s v).inForce = b.inForce := (rfl)
@[simp] theorem Blk.logSeat_inForce (e s b) : (Blk.logSeat e s b).inForce = b.inForce := by simp [Blk.logSeat]
@[simp] theorem Blk.log_inForce (x e b) : (Blk.log x e b).inForce = b.inForce := by unfold Blk.log; (repeat' split) <;> simp
@[simp] theorem Blk.callRung_inForce (step target cause b) : (Blk.callRung step target cause b).inForce = b.inForce := by
  simp [Blk.callRung]
@[simp] theorem Blk.queErr_inForce (b q code) : (Blk.queErr b q code).inForce = b.inForce := (rfl)
@[simp] theorem Blk.refuse_inForce (a addr write kind b) : (Blk.refuse a addr write kind b).inForce = b.inForce := (rfl)
@[simp] theorem Blk.send_inForce (m b) : (Blk.send m b).inForce = b.inForce := (rfl)
@[simp] theorem Blk.arrived_inForce (m b) : (Blk.arrived m b).inForce = b.inForce := (rfl)

/-! ### Host accesses -/

@[simp] theorem Blk.respond_inForce (s write rdata b) : (Blk.respond s write rdata b).inForce = b.inForce := (rfl)
@[simp] theorem Blk.freshResp_inForce (b) : (Blk.freshResp b).inForce = b.inForce := (rfl)
@[simp] theorem Blk.toWarden_inForce (op b) : (Blk.toWarden op b).inForce = b.inForce := (rfl)
theorem Blk.hostWrite_inForce (a addr judge) {eff : Blk → Blk} (h : ∀ b, (eff b).inForce = b.inForce) (b) :
    (Blk.hostWrite a addr judge eff b).inForce = b.inForce := by
  unfold Blk.hostWrite; split <;> simp [h]

/-! ### Caching agents -/

@[simp] theorem Blk.putCopy_inForce (a line c b) : (Blk.putCopy a line c b).inForce = b.inForce := (rfl)
@[simp] theorem Blk.stamp_inForce (b) : (Blk.stamp b).inForce = b.inForce := (rfl)
@[simp] theorem Blk.addMiss_inForce (m b) : (Blk.addMiss m b).inForce = b.inForce := (rfl)
@[simp] theorem Blk.delMiss_inForce (a line b) : (Blk.delMiss a line b).inForce = b.inForce := (rfl)
@[simp] theorem Blk.askLine_inForce (a line q b) : (Blk.askLine a line q b).inForce = b.inForce := by simp [Blk.askLine]
@[simp] theorem Blk.dropCopy_inForce (a line b) : (Blk.dropCopy a line b).inForce = b.inForce := (rfl)
@[simp] theorem Blk.forget_inForce (a line b) : (Blk.forget a line b).inForce = b.inForce := by simp [Blk.forget]
@[simp] theorem Blk.touch_inForce (a line b) : (Blk.touch a line b).inForce = b.inForce := by unfold Blk.touch; split <;> simp
@[simp] theorem Blk.answerInv_inForce (a line c b) : (Blk.answerInv a line c b).inForce = b.inForce := by simp [Blk.answerInv]
@[simp] theorem Blk.answerFwdInv_inForce (a line c b) : (Blk.answerFwdInv a line c b).inForce = b.inForce := by
  simp [Blk.answerFwdInv]
@[simp] theorem Blk.evictLine_inForce (a line c b) : (Blk.evictLine a line c b).inForce = b.inForce := by
  unfold Blk.evictLine; split <;> simp
@[simp] theorem Blk.invalidate_inForce (a line b) : (Blk.invalidate a line b).inForce = b.inForce := by
  unfold Blk.invalidate; (repeat' split) <;> simp
@[simp] theorem Blk.emptyCache_inForce (a b) : (Blk.emptyCache a b).inForce = b.inForce := by simp [Blk.emptyCache]
@[simp] theorem Blk.install_inForce (a line d st who taut b) : (Blk.install a line d st who taut b).inForce = b.inForce := by
  unfold Blk.install; (repeat' split) <;> simp
@[simp] theorem Blk.receive_inForce (a line d st who taut b) : (Blk.receive a line d st who taut b).inForce = b.inForce := by
  simp [Blk.receive]

/-! ### Work of queues -/

@[simp] theorem Blk.modEntry_inForce (b q n f) : (Blk.modEntry b q n f).inForce = b.inForce := (rfl)
@[simp] theorem Blk.park_inForce (w b) : (Blk.park w b).inForce = b.inForce := (rfl)
@[simp] theorem Blk.unpark_inForce (stand q n b) : (Blk.unpark stand q n b).inForce = b.inForce := (rfl)
@[simp] theorem Blk.unwake_inForce (stand q n b) : (Blk.unwake stand q n b).inForce = b.inForce := (rfl)
@[simp] theorem Blk.modStand_inForce (b q n f) : (Blk.modStand b q n f).inForce = b.inForce := (rfl)
@[simp] theorem Blk.evalTrigger_inForce (q n b) : (Blk.evalTrigger q n b).inForce = b.inForce := by
  unfold Blk.evalTrigger; (repeat' split) <;> simp
@[simp] theorem Blk.evalWaiting_inForce (q n b) : (Blk.evalWaiting q n b).inForce = b.inForce := by
  unfold Blk.evalWaiting; dsimp only; (repeat' split) <;> simp
@[simp] theorem Blk.evalWaiters_inForce (k b) : (Blk.evalWaiters k b).inForce = b.inForce := by simp [Blk.evalWaiters]
@[simp] theorem Blk.markConcealed_inForce (k b) : (Blk.markConcealed k b).inForce = b.inForce := (rfl)
@[simp] theorem Blk.tieNow_inForce (t b) : (Blk.tieNow t b).inForce = b.inForce := by simp [Blk.tieNow]
@[simp] theorem Blk.applyTie_inForce (t b) : (Blk.applyTie t b).inForce = b.inForce := by simp [Blk.applyTie]
@[simp] theorem Blk.completionTie_inForce (t form epoch b) : (Blk.completionTie t form epoch b).inForce = b.inForce := by
  unfold Blk.completionTie; split <;> simp
@[simp] theorem Blk.freeOut_inForce (s i b) : (Blk.freeOut s i b).inForce = b.inForce := (rfl)
theorem Blk.seqAsk_inForce {s q what m b c} (h : Blk.seqAsk s q what m b = some c) : c.inForce = b.inForce := by
  obtain ⟨i, -, rfl⟩ := Option.map_eq_some_iff.1 h; simp
theorem Blk.askSlot_inForce {q n b c} (h : Blk.askSlot q n b = some c) : c.inForce = b.inForce :=
  (Blk.queueWork_askSlot h).inForce
@[simp] theorem Blk.seqAsk_getD_inForce (s q what m b) : ((Blk.seqAsk s q what m b).getD b).inForce = b.inForce :=
  Blk.getD_inForce fun _ h => Blk.seqAsk_inForce h
@[simp] theorem Blk.askSlot_getD_inForce (q n b) : ((Blk.askSlot q n b).getD b).inForce = b.inForce :=
  Blk.getD_inForce fun _ h => Blk.askSlot_inForce h
@[simp] theorem Blk.readSlot_inForce (q n b) : (Blk.readSlot q n b).inForce = b.inForce := (b.queueWork_readSlot q n).inForce
@[simp] theorem Blk.readOn_inForce (q b) : (Blk.readOn q b).inForce = b.inForce := by simp [Blk.readOn]
@[simp] theorem Blk.setBreakUnit_inForce (u v b) : (Blk.setBreakUnit u v b).inForce = b.inForce := (rfl)
@[simp] theorem Blk.unfire_inForce (u b) : (Blk.unfire u b).inForce = b.inForce := by simp [Blk.unfire]
@[simp] theorem Blk.noteTag_inForce (q n tag b) : (Blk.noteTag q n tag b).inForce = b.inForce := by simp [Blk.noteTag]
@[simp] theorem Blk.takeUp_inForce (s q b) : (Blk.takeUp s q b).inForce = b.inForce := (b.queueWork_takeUp s q).inForce
@[simp] theorem Blk.kick_inForce (s b) : (Blk.kick s b).inForce = b.inForce := (b.queueWork_kick s).inForce
@[simp] theorem Blk.advanceHead_inForce (q b) : (Blk.advanceHead q b).inForce = b.inForce := by
  unfold Blk.advanceHead; dsimp only; (repeat' split) <;> simp
@[simp] theorem Blk.pumpSr_inForce (q b) : (Blk.pumpSr q b).inForce = b.inForce := by
  unfold Blk.pumpSr; dsimp only; (repeat' split) <;> simp
@[simp] theorem Blk.noteDone_inForce (q n st opcode b) : (Blk.noteDone q n st opcode b).inForce = b.inForce := by
  simp [Blk.noteDone]
@[simp] theorem Blk.jobsDone_inForce (s b) : (Blk.jobsDone s b).inForce = b.inForce := (rfl)
@[simp] theorem Blk.jobsLaunched_inForce (s b) : (Blk.jobsLaunched s b).inForce = b.inForce := (rfl)
@[simp] theorem Blk.settle_inForce (q b) : (Blk.settle q b).inForce = b.inForce := by unfold Blk.settle; split <;> simp
@[simp] theorem Blk.complete_inForce (e st rel b) : (Blk.complete e st rel b).inForce = b.inForce := by simp [Blk.complete]
@[simp] theorem Blk.restIdle_inForce (e b) : (Blk.restIdle e b).inForce = b.inForce := by simp [Blk.restIdle]
@[simp] theorem Blk.unbind_inForce (q n b) : (Blk.unbind q n b).inForce = b.inForce := by simp [Blk.unbind]
@[simp] theorem Blk.unbindSoon_inForce (q n b) : (Blk.unbindSoon q n b).inForce = b.inForce := by
  unfold Blk.unbindSoon; split <;> simp
@[simp] theorem Blk.runTieFlag_inForce (s f b) : (Blk.runTieFlag s f b).inForce = b.inForce := by simp [Blk.runTieFlag]

/-! ### Launches and standing launches -/

@[simp] theorem Blk.modLaunch_inForce (j f b) : (Blk.modLaunch j f b).inForce = b.inForce := by simp [Blk.modLaunch]
@[simp] theorem Blk.unwait_inForce (e selected b) : (Blk.unwait e selected b).inForce = b.inForce := by
  unfold Blk.unwait; split <;> simp
@[simp] theorem Blk.selectBank_inForce (e p b) : (Blk.selectBank e p b).inForce = b.inForce := by
  unfold Blk.selectBank; split <;> simp
@[simp] theorem Blk.engIdle_inForce (e b) : (Blk.engIdle e b).inForce = b.inForce := by
  unfold Blk.engIdle; dsimp only; split <;> simp
@[simp] theorem Blk.readTdesc_inForce (e j l b) : (Blk.readTdesc e j l b).inForce = b.inForce := by simp [Blk.readTdesc]
@[simp] theorem Blk.begin_inForce (e j b) : (Blk.begin e j b).inForce = b.inForce := by unfold Blk.begin; split <;> simp
@[simp] theorem Blk.tileEv_inForce (x e what j tile b) : (Blk.tileEv x e what j tile b).inForce = b.inForce := by
  simp [Blk.tileEv]
@[simp] theorem Blk.leaveTile_inForce (x e b) : (Blk.leaveTile x e b).inForce = b.inForce := by
  unfold Blk.leaveTile; dsimp only; split <;> simp
@[simp] theorem Blk.idleIfDone_inForce (e b) : (Blk.idleIfDone e b).inForce = b.inForce := by simp [Blk.idleIfDone]
@[simp] theorem Blk.stopTile_inForce (k e b) : (Blk.stopTile k e b).inForce = b.inForce := (rfl)
@[simp] theorem Blk.dropQueued_inForce (j e b) : (Blk.dropQueued j e b).inForce = b.inForce := (rfl)
@[simp] theorem Blk.returnQueued_inForce (j e b) : (Blk.returnQueued j e b).inForce = b.inForce := by simp [Blk.returnQueued]
@[simp] theorem Blk.dropTiles_inForce (j b) : (Blk.dropTiles j b).inForce = b.inForce := by simp [Blk.dropTiles]
@[simp] theorem Blk.figures_inForce (q seqn l b) : (Blk.figures q seqn l b).inForce = b.inForce := (rfl)
@[simp] theorem Blk.jobOver_inForce (j b) : (Blk.jobOver j b).inForce = b.inForce := (rfl)
@[simp] theorem Blk.finishLaunch_inForce (q n b) : (Blk.finishLaunch q n b).inForce = b.inForce := by
  unfold Blk.finishLaunch; (repeat' split) <;> simp
@[simp] theorem Blk.runOver_inForce (q n st b) : (Blk.runOver q n st b).inForce = b.inForce := by
  unfold Blk.runOver; split <;> simp
@[simp] theorem Blk.sendRunRec_inForce (q n b) : (Blk.sendRunRec q n b).inForce = b.inForce := by
  unfold Blk.sendRunRec; (repeat' split) <;> simp
@[simp] theorem Blk.runAcked_inForce (q n b) : (Blk.runAcked q n b).inForce = b.inForce := by unfold Blk.runAcked; split <;> simp
@[simp] theorem Blk.endRun_inForce (q n st b) : (Blk.endRun q n st b).inForce = b.inForce := by unfold Blk.endRun; split <;> simp
@[simp] theorem Blk.finishRun_inForce (q n b) : (Blk.finishRun q n b).inForce = b.inForce := by
  unfold Blk.finishRun; (repeat' split) <;> simp
@[simp] theorem Blk.finishJob_inForce (j b) : (Blk.finishJob j b).inForce = b.inForce := by simp [Blk.finishJob]
@[simp] theorem Blk.endJob_inForce (j st k b) : (Blk.endJob j st k b).inForce = b.inForce := by simp [Blk.endJob]
@[simp] theorem Blk.markStarted_inForce (j b) : (Blk.markStarted j b).inForce = b.inForce := by simp [Blk.markStarted]

/-! ### WATCH -/

@[simp] theorem Blk.nextWatch_inForce (e b) : (Blk.nextWatch e b).inForce = b.inForce := by
  unfold Blk.nextWatch; dsimp only
  split
  · split
    · rfl
    · split
      · rfl
      · rename_i h
        rw [Blk.modEntry_inForce]
        split at h <;> exact Blk.seqAsk_inForce h
  · rfl
@[simp] theorem Blk.startWatch_inForce (e b) : (Blk.startWatch e b).inForce = b.inForce := by simp [Blk.startWatch]
@[simp] theorem Blk.watchResp_inForce (x q n write d resp b) : (Blk.watchResp x q n write d resp b).inForce = b.inForce := by
  unfold Blk.watchResp; dsimp only; (repeat' split) <;> simp

/-! ### Commands -/

@[simp] theorem Blk.nextChunk_inForce (e b) : (Blk.nextChunk e b).inForce = b.inForce := by
  have went {r : Option Blk} (f : SbEntry → SbEntry) (h : ∀ c, r = some c → c.inForce = b.inForce) :
      (match r with | none => b | some c => c.modEntry e.q e.n f).inForce = b.inForce := by
    cases r with
    | none => rfl
    | some c => simp [h c rfl]
  unfold Blk.nextChunk; dsimp only
  split
  · split
    · rfl
    · split <;> split
      · rfl
      · exact went _ fun _ h => Blk.seqAsk_inForce h
      · rfl
      · exact went _ fun _ h => Blk.seqAsk_inForce h
  · rfl
@[simp] theorem Blk.loadNext_inForce (ord b) : (Blk.loadNext ord b).inForce = b.inForce := by
  unfold Blk.loadNext; (repeat' split) <;> simp
@[simp] theorem Blk.endLoad_inForce (e l st b) : (Blk.endLoad e l st b).inForce = b.inForce := by simp [Blk.endLoad]
@[simp] theorem Blk.loadData_inForce (ord tgt d resp b) : (Blk.loadData ord tgt d resp b).inForce = b.inForce := by
  unfold Blk.loadData; (repeat' split) <;> simp
@[simp] theorem Blk.startImem_inForce (e b) : (Blk.startImem e b).inForce = b.inForce := by
  unfold Blk.startImem; dsimp only; split <;> simp
@[simp] theorem Blk.startStream_inForce (e b) : (Blk.startStream e b).inForce = b.inForce := by
  unfold Blk.startStream; dsimp only; (repeat' split) <;> simp
@[simp] theorem Blk.startStand_inForce (e b) : (Blk.startStand e b).inForce = b.inForce := by
  unfold Blk.startStand; dsimp only; split <;> simp
@[simp] theorem Blk.bindStand_inForce (e b) : (Blk.bindStand e b).inForce = b.inForce := by unfold Blk.bindStand; split <;> simp
@[simp] theorem Blk.standLost_inForce (q n b) : (Blk.standLost q n b).inForce = b.inForce := by
  unfold Blk.standLost; split <;> simp
@[simp] theorem Blk.startUnstand_inForce (e b) : (Blk.startUnstand e b).inForce = b.inForce := by
  unfold Blk.startUnstand; dsimp only; split <;> simp
@[simp] theorem Blk.completeHitch_inForce (e b) : (Blk.completeHitch e b).inForce = b.inForce := by
  unfold Blk.completeHitch; split <;> simp
@[simp] theorem Blk.startMark_inForce (x e b) : (Blk.startMark x e b).inForce = b.inForce := by simp [Blk.startMark]
@[simp] theorem Blk.startXfer_inForce (e len b) : (Blk.startXfer e len b).inForce = b.inForce := by simp [Blk.startXfer]
@[simp] theorem Blk.startCmd_inForce (x e b) : (Blk.startCmd x e b).inForce = b.inForce := by
  unfold Blk.startCmd; dsimp only
  iterate 13 refine Blk.ite_keeps (by simp) ?_
  refine Blk.ite_keeps ?_ rfl
  split <;> simp
@[simp] theorem Blk.finishCmd_inForce (e b) : (Blk.finishCmd e b).inForce = b.inForce := by
  unfold Blk.finishCmd
  cases e.prog <;> dsimp only
  case hitch o => cases o <;> simp
  case unstand o => cases o <;> simp
  case launch l => simp
  case none => simp
  all_goals cases e.ending <;> simp
@[simp] theorem Blk.attempt_inForce (x q n b) : (Blk.attempt x q n b).inForce = b.inForce := by unfold Blk.attempt; split <;> simp
@[simp] theorem Blk.noteWait_inForce (x e l b) : (Blk.noteWait x e l b).inForce = b.inForce := by simp [Blk.noteWait]
@[simp] theorem Blk.pumpOne_inForce (x ord b) : (Blk.pumpOne x ord b).inForce = b.inForce := by
  unfold Blk.pumpOne; (repeat' split) <;> simp
@[simp] theorem Blk.startEligible_inForce (x b) : (Blk.startEligible x b).inForce = b.inForce := by simp [Blk.startEligible]
@[simp] theorem Blk.setHead_inForce (s d b) : (Blk.setHead s d b).inForce = b.inForce := (rfl)
@[simp] theorem Blk.askDesc_inForce (s q what line b) : (Blk.askDesc s q what line b).inForce = b.inForce := by
  unfold Blk.askDesc; split <;> simp
@[simp] theorem Blk.useDesc_inForce (s q line b) : (Blk.useDesc s q line b).inForce = b.inForce := by
  unfold Blk.useDesc; split <;> simp
@[simp] theorem Blk.readHalf_inForce (q n l half b) : (Blk.readHalf q n l half b).inForce = b.inForce := by
  unfold Blk.readHalf; dsimp only; (repeat' split) <;> simp
@[simp] theorem Blk.readHead_inForce (q b) : (Blk.readHead q b).inForce = b.inForce := by
  unfold Blk.readHead; dsimp only; split <;> simp
@[simp] theorem Blk.takeDesc_inForce (q n l b) : (Blk.takeDesc q n l b).inForce = b.inForce := by simp [Blk.takeDesc]
@[simp] theorem Blk.joinSb_inForce (e b) : (Blk.joinSb e b).inForce = b.inForce := by simp [Blk.joinSb]
@[simp] theorem Blk.addEntry_inForce (e b) : (Blk.addEntry e b).inForce = b.inForce := by simp [Blk.addEntry]
@[simp] theorem Blk.letIn_inForce (x e b) : (Blk.letIn x e b).inForce = b.inForce := by
  unfold Blk.letIn; dsimp only; (repeat' split) <;> simp
@[simp] theorem Blk.enterSlot_inForce (x q op d b) : (Blk.enterSlot x q op d b).inForce = b.inForce := by
  unfold Blk.enterSlot; split <;> simp
@[simp] theorem Blk.pauseAt_inForce (q b) : (Blk.pauseAt q b).inForce = b.inForce := by simp [Blk.pauseAt]
@[simp] theorem Blk.parseSlot_inForce (q l b) : (Blk.parseSlot q l b).inForce = b.inForce := by simp [Blk.parseSlot]
@[simp] theorem Blk.parseOnly_inForce (q l b) : (Blk.parseOnly q l b).inForce = b.inForce := by simp [Blk.parseOnly]
@[simp] theorem Blk.slotLost_inForce (q b) : (Blk.slotLost q b).inForce = b.inForce := by simp [Blk.slotLost]
@[simp] theorem Blk.passHead_inForce (x s n b) : (Blk.passHead x s n b).inForce = b.inForce := by
  induction n generalizing b with
  | zero => rfl
  | succ n ih =>
    unfold Blk.passHead; dsimp only
    refine Blk.ite_keeps rfl (Blk.ite_keeps (by simp [ih]) (Blk.ite_keeps rfl ?_))
    split <;> simp [ih]
@[simp] theorem Blk.enterDesc_inForce (x q op b) : (Blk.enterDesc x q op b).inForce = b.inForce := by
  unfold Blk.enterDesc; (repeat' split) <;> simp
@[simp] theorem Blk.leavePaused_inForce (s b) : (Blk.leavePaused s b).inForce = b.inForce := by simp [Blk.leavePaused]
@[simp] theorem Blk.serve_inForce (x s b) : (Blk.serve x s b).inForce = b.inForce := by simp [Blk.serve]
@[simp] theorem Blk.pump_inForce (x b) : (Blk.pump x b).inForce = b.inForce := by simp [Blk.pump]
@[simp] theorem Blk.enterWaiter_inForce (x q op b) : (Blk.enterWaiter x q op b).inForce = b.inForce := by simp [Blk.enterWaiter]

/-! ### Queues -/

@[simp] theorem Blk.doorbell_inForce (q v b) : (Blk.doorbell q v b).inForce = b.inForce := by simp [Blk.doorbell]
@[simp] theorem Blk.createQueue_inForce (q b) : (Blk.createQueue q b).inForce = b.inForce := by
  unfold Blk.createQueue; (repeat' split) <;> simp
@[simp] theorem Blk.drainStands_inForce (q b) : (Blk.drainStands q b).inForce = b.inForce := by simp [Blk.drainStands]
@[simp] theorem Blk.drainQueue_inForce (q b) : (Blk.drainQueue q b).inForce = b.inForce := by simp [Blk.drainQueue]
@[simp] theorem Blk.owedBy_inForce (q es b) : (Blk.owedBy q es b).inForce = b.inForce := (rfl)
@[simp] theorem Blk.oweEntry_inForce (e es st b) : (Blk.oweEntry e es st b).inForce = b.inForce := (rfl)
@[simp] theorem Blk.closeEntry_inForce (st n q b) : (Blk.closeEntry st n q b).inForce = b.inForce := by
  unfold Blk.closeEntry; dsimp only; (repeat' split) <;> simp
@[simp] theorem Blk.closeStand_inForce (st q n b) : (Blk.closeStand st q n b).inForce = b.inForce := by
  unfold Blk.closeStand; split <;> simp
@[simp] theorem Blk.trapServed_inForce (q cause b) : (Blk.trapServed q cause b).inForce = b.inForce := by simp [Blk.trapServed]
@[simp] theorem Blk.closeSteps_inForce (q b) : (Blk.closeSteps q b).inForce = b.inForce := by simp [Blk.closeSteps]
@[simp] theorem Blk.closeQueue_inForce (q stale b) : (Blk.closeQueue q stale b).inForce = b.inForce := by simp [Blk.closeQueue]
@[simp] theorem Blk.abortQueue_inForce (q b) : (Blk.abortQueue q b).inForce = b.inForce := by
  unfold Blk.abortQueue; split <;> simp
@[simp] theorem Blk.queCtrl_inForce (q create drain abort srEn irqEn b) :
    (Blk.queCtrl q create drain abort srEn irqEn b).inForce = b.inForce := by
  simp [Blk.queCtrl]
@[simp] theorem Blk.acknowledge_inForce (x q e b) : (Blk.acknowledge x q e b).inForce = b.inForce := by
  unfold Blk.acknowledge; dsimp only
  rw [Blk.foldl_inForce fun b n => by split <;> simp, Blk.setQue_inForce]
  split <;> simp
@[simp] theorem Blk.slotBack_inForce (q n line b) : (Blk.slotBack q n line b).inForce = b.inForce := by
  unfold Blk.slotBack; (repeat' split) <;> simp
@[simp] theorem Blk.dropDesc_inForce (q n b) : (Blk.dropDesc q n b).inForce = b.inForce := by
  unfold Blk.dropDesc; dsimp only; (repeat' split) <;> simp
@[simp] theorem Blk.compPass_inForce (q b) : (Blk.compPass q b).inForce = b.inForce := by
  unfold Blk.compPass; dsimp only; split <;> simp
@[simp] theorem Blk.recFailed_inForce (q b) : (Blk.recFailed q b).inForce = b.inForce := (rfl)

/-! ### Knots -/

@[simp] theorem Blk.hostTie_inForce (seat win w b) : (Blk.hostTie seat win w b).inForce = b.inForce := by
  unfold Blk.hostTie; split <;> simp
@[simp] theorem Blk.knotCapture_inForce (x a k b) : (Blk.knotCapture x a k b).inForce = b.inForce := by simp [Blk.knotCapture]
@[simp] theorem Blk.knotLoRead_inForce (x a k b) : (Blk.knotLoRead x a k b).inForce = b.inForce := by simp [Blk.knotLoRead]
@[simp] theorem Blk.peakClr_inForce (b) : (Blk.peakClr b).inForce = b.inForce := (rfl)
@[simp] theorem Blk.knotEcc_inForce (k b) : (Blk.knotEcc k b).inForce = b.inForce := by simp [Blk.knotEcc]

/-! ### Draws -/

@[simp] theorem Blk.cycles_inForce (e busy stall b) : (Blk.cycles e busy stall b).inForce = b.inForce := by
  unfold Blk.cycles; dsimp only; (repeat' split) <;> simp
@[simp] theorem Blk.bankWait_inForce (e n b) : (Blk.bankWait e n b).inForce = b.inForce := by simp [Blk.bankWait]
@[simp] theorem Blk.issueRow_inForce (e ch b) : (Blk.issueRow e ch b).inForce = b.inForce := by
  unfold Blk.issueRow; split <;> simp
@[simp] theorem Blk.drawResp_inForce (e ch line d bad b) : (Blk.drawResp e ch line d bad b).inForce = b.inForce := (rfl)
@[simp] theorem Blk.copyResp_inForce (e line d bad b) : (Blk.copyResp e line d bad b).inForce = b.inForce := (rfl)
@[simp] theorem Blk.resumeDraws_inForce (e b) : (Blk.resumeDraws e b).inForce = b.inForce := by simp [Blk.resumeDraws]

/-! ### Save areas -/

@[simp] theorem pendImage_inForce (step w b) : (pendImage step w b).1.inForce = b.inForce := (rfl)
@[simp] theorem pendImages_inForce (step l b) : (pendImages step l b).1.inForce = b.inForce := by
  unfold pendImages
  exact Blk.foldl_fst_inForce (fun y w => by simp) l (b, [])
@[simp] theorem Blk.saveImage_inForce (s b) : (Blk.saveImage s b).1.inForce = b.inForce := pendImages_inForce ..
@[simp] theorem Blk.writeSave_inForce (e s b) : (Blk.writeSave e s b).inForce = b.inForce := by
  unfold Blk.writeSave; split <;> simp

/-! ### Scheduling -/

@[simp] theorem Blk.spoil_inForce (t j l own b) : (Blk.spoil t j l own b).inForce = b.inForce := by
  unfold Blk.spoil; split <;> simp
@[simp] theorem Blk.give_inForce (x t j l rs own b) : (Blk.give x t j l rs own b).inForce = b.inForce := by simp [Blk.give]
@[simp] theorem Blk.resumeSave_inForce (x t j b) : (Blk.resumeSave x t j b).inForce = b.inForce := by simp [Blk.resumeSave]
@[simp] theorem Blk.assign_inForce (x e taut chosen b) : (Blk.assign x e taut chosen b).inForce = b.inForce := by
  unfold Blk.assign; dsimp only
  split
  · rfl
  · simp
    rw [Blk.foldl_fst_inForce]
    intro y t; split <;> simp
@[simp] theorem Blk.freeSaves_inForce (e es b) : (Blk.freeSaves e es b).inForce = b.inForce := by
  unfold Blk.freeSaves; split <;> simp
theorem Blk.assignTwin_inForce {x e l b c} (h : Blk.assignTwin x e l b = some c) : c.inForce = b.inForce := by
  unfold Blk.assignTwin at h; dsimp only at h
  split at h
  · cases h
  · cases h; simp
@[simp] theorem Blk.returnWork_inForce (j e b) : (Blk.returnWork j e b).inForce = b.inForce := by simp [Blk.returnWork]
@[simp] theorem Blk.yieldQueued_inForce (t b) : (Blk.yieldQueued t b).inForce = b.inForce := by
  unfold Blk.yieldQueued; split <;> simp
@[simp] theorem Blk.yieldNow_inForce (t b) : (Blk.yieldNow t b).inForce = b.inForce := by simp [Blk.yieldNow]
@[simp] theorem Blk.markYield_inForce (j t b) : (Blk.markYield j t b).inForce = b.inForce := by simp [Blk.markYield]
@[simp] theorem Blk.considerYield_inForce (e l b) : (Blk.considerYield e l b).inForce = b.inForce := by
  unfold Blk.considerYield; dsimp only; (repeat' split) <;> simp
@[simp] theorem Blk.preempt_inForce (t b) : (Blk.preempt t b).inForce = b.inForce := (rfl)
@[simp] theorem Blk.considerPreempt_inForce (e l b) : (Blk.considerPreempt e l b).inForce = b.inForce := by
  simp [Blk.considerPreempt]
@[simp] theorem Blk.tryCandidate_inForce (x taut e b) : (Blk.tryCandidate x taut e b).1.inForce = b.inForce := by
  unfold Blk.tryCandidate; dsimp only
  split
  · rfl
  · split <;> split <;> simp
    all_goals intros; split
    · rename_i h; exact Blk.assignTwin_inForce h
    · simp
    · rename_i h; exact Blk.assignTwin_inForce h
    · simp
@[simp] theorem Blk.selectFrom_inForce (x taut l b) : (Blk.selectFrom x taut l b).inForce = b.inForce := by
  induction l generalizing b with
  | nil => rfl
  | cons e r ih => simp [Blk.selectFrom, ih]
@[simp] theorem Blk.select_inForce (x taut b) : (Blk.select x taut b).inForce = b.inForce := by simp [Blk.select]
@[simp] theorem Blk.quantum_inForce (x b) : (Blk.quantum x b).inForce = b.inForce := by unfold Blk.quantum; split <;> simp
@[simp] theorem Blk.lostEngine_inForce (x j b) : (Blk.lostEngine x j b).inForce = b.inForce := by simp [Blk.lostEngine]
@[simp] theorem Blk.jobQueued_inForce (x t b) : (Blk.jobQueued x t b).inForce = b.inForce := by
  unfold Blk.jobQueued; split <;> simp
@[simp] theorem Blk.abandonRestore_inForce (x t b) : (Blk.abandonRestore x t b).inForce = b.inForce := by
  unfold Blk.abandonRestore; split <;> simp
@[simp] theorem Blk.preemptAt_inForce (x t b) : (Blk.preemptAt x t b).inForce = b.inForce := by simp [Blk.preemptAt]
@[simp] theorem Blk.saveDone_inForce (x t b) : (Blk.saveDone x t b).inForce = b.inForce := by
  unfold Blk.saveDone; dsimp only; split <;> simp
@[simp] theorem Blk.restartSaved_inForce (x t s b) : (Blk.restartSaved x t s b).inForce = b.inForce := by simp [Blk.restartSaved]
@[simp] theorem Blk.restoreDone_inForce (x t b) : (Blk.restoreDone x t b).inForce = b.inForce := by
  unfold Blk.restoreDone; split <;> simp
@[simp] theorem Blk.steal_inForce (t b) : (Blk.steal t b).inForce = b.inForce := by
  unfold Blk.steal; dsimp only; (repeat' split) <;> simp
@[simp] theorem Blk.stolen_inForce (x s b) : (Blk.stolen x s b).inForce = b.inForce := by
  unfold Blk.stolen; dsimp only; (repeat' split) <;> simp
@[simp] theorem Blk.sendRun_inForce (x q n b) : (Blk.sendRun x q n b).inForce = b.inForce := by
  unfold Blk.sendRun; (repeat' split) <;> simp
@[simp] theorem Blk.wakeOne_inForce (x w b) : (Blk.wakeOne x w b).inForce = b.inForce := by
  unfold Blk.wakeOne; dsimp only; (repeat' split) <;> simp
@[simp] theorem Blk.loadUpdate_inForce (x b) : (Blk.loadUpdate x b).inForce = b.inForce := (rfl)

/-! ### Sequencers -/

@[simp] theorem Blk.yarnMem_inForce (s f b) : (Blk.yarnMem s f b).inForce = b.inForce := by
  unfold Blk.yarnMem; dsimp only; (repeat' split) <;> simp
@[simp] theorem Blk.guard_inForce (s b) : (Blk.guard s b).inForce = b.inForce := (rfl)
@[simp] theorem Blk.sbiEnter_inForce (x s r b) : (Blk.sbiEnter x s r b).inForce = b.inForce := by
  unfold Blk.sbiEnter; dsimp only
  split <;> simp
@[simp] theorem Blk.sbiComplete_inForce (s b) : (Blk.sbiComplete s b).inForce = b.inForce := by
  unfold Blk.sbiComplete; dsimp only; split <;> simp
@[simp] theorem Blk.sbiHead_inForce (s b) : (Blk.sbiHead s b).inForce = b.inForce := by simp [Blk.sbiHead]
@[simp] theorem Blk.setZ_inForce (s z b) : (Blk.setZ s z b).inForce = b.inForce := (rfl)
@[simp] theorem Blk.sbiTake_inForce (s b) : (Blk.sbiTake s b).inForce = b.inForce := by unfold Blk.sbiTake; split <;> simp
@[simp] theorem Blk.leaveQueue_inForce (s b) : (Blk.leaveQueue s b).inForce = b.inForce := (rfl)
@[simp] theorem Blk.sbiSelect_inForce (s b) : (Blk.sbiSelect s b).inForce = b.inForce := by unfold Blk.sbiSelect; split <;> simp
@[simp] theorem Blk.sbiIdle_inForce (s b) : (Blk.sbiIdle s b).inForce = b.inForce := by simp [Blk.sbiIdle]
@[simp] theorem Blk.yarnSbi_inForce (x s f b) : (Blk.yarnSbi x s f b).inForce = b.inForce := by
  unfold Blk.yarnSbi; (repeat' split) <;> simp
@[simp] theorem Blk.yarnAlu_inForce (s f v b) : (Blk.yarnAlu s f v b).inForce = b.inForce := by
  unfold Blk.yarnAlu; dsimp only; (repeat' split) <;> simp
@[simp] theorem Blk.condTested_inForce (s n b) : (Blk.condTested s n b).inForce = b.inForce := by simp [Blk.condTested]
@[simp] theorem Blk.haltSeq_inForce (x s code strand b) : (Blk.haltSeq x s code strand b).inForce = b.inForce := by
  simp [Blk.haltSeq]
@[simp] theorem Blk.strandFault_inForce (x s cause b) : (Blk.strandFault x s cause b).inForce = b.inForce := by
  simp [Blk.strandFault]
@[simp] theorem Blk.goTo_inForce (s p jump b) : (Blk.goTo s p jump b).inForce = b.inForce := (rfl)
@[simp] theorem Blk.tret_inForce (s b) : (Blk.tret s b).inForce = b.inForce := by unfold Blk.tret; dsimp only; split <;> simp
@[simp] theorem Blk.choosesNext_inForce (x s w lcld v b) : (Blk.choosesNext x s w lcld v b).inForce = b.inForce := by
  unfold Blk.choosesNext; (repeat' split) <;> simp
@[simp] theorem Blk.runStrand_inForce (x s kind b) : (Blk.runStrand x s kind b).inForce = b.inForce := by simp [Blk.runStrand]
@[simp] theorem Blk.xferResp_inForce (q n off len write d resp b) :
    (Blk.xferResp q n off len write d resp b).inForce = b.inForce := by
  unfold Blk.xferResp; (repeat' split) <;> simp
@[simp] theorem Blk.seqResponse_inForce (x s place d resp b) : (Blk.seqResponse x s place d resp b).inForce = b.inForce := by
  unfold Blk.seqResponse; dsimp only; (repeat' split) <;> simp
@[simp] theorem Blk.microTrap_inForce (s b) : (Blk.microTrap s b).inForce = b.inForce := by
  unfold Blk.microTrap; dsimp only; (repeat' split) <;> simp

/-! ### Coherence -/

@[simp] theorem Blk.fwdAt_inForce (a line rq b) : (Blk.fwdAt a line rq b).inForce = b.inForce := by
  unfold Blk.fwdAt; split <;> simp
@[simp] theorem Blk.deferInv_inForce (a line c what b) : (Blk.deferInv a line c what b).inForce = b.inForce := (rfl)
@[simp] theorem Blk.invAt_inForce (a line b) : (Blk.invAt a line b).inForce = b.inForce := by unfold Blk.invAt; split <;> simp
@[simp] theorem Blk.fwdInvAt_inForce (a line b) : (Blk.fwdInvAt a line b).inForce = b.inForce := by
  unfold Blk.fwdInvAt; split <;> simp
@[simp] theorem Blk.setRc_inForce (rc b) : (Blk.setRc rc b).inForce = b.inForce := (rfl)
@[simp] theorem Blk.putRc_inForce (line l b) : (Blk.putRc line l b).inForce = b.inForce := (rfl)
@[simp] theorem Blk.queuePort_inForce (r b) : (Blk.queuePort r b).inForce = b.inForce := (rfl)
@[simp] theorem Blk.writeVictim_inForce (line l b) : (Blk.writeVictim line l b).inForce = b.inForce := (rfl)
@[simp] theorem Blk.notePoison_inForce (line b) : (Blk.notePoison line b).inForce = b.inForce := (rfl)
@[simp] theorem Blk.clearPoison_inForce (line b) : (Blk.clearPoison line b).inForce = b.inForce := (rfl)
theorem Blk.makeRoom_inForce {line ways b k c} (h : Blk.makeRoom line ways b = some (k, c)) : c.inForce = b.inForce := by
  unfold Blk.makeRoom at h; dsimp only at h
  split at h
  · cases h; rfl
  · split at h
    · cases h
    · cases h; simp
@[simp] theorem Blk.setDir_inForce (line e b) : (Blk.setDir line e b).inForce = b.inForce := (rfl)
@[simp] theorem Blk.addPresence_inForce (line a own b) : (Blk.addPresence line a own b).inForce = b.inForce := (rfl)
@[simp] theorem Blk.delPresence_inForce (line a b) : (Blk.delPresence line a b).inForce = b.inForce := by
  unfold Blk.delPresence; split <;> simp
@[simp] theorem Blk.freeEntry_inForce (line b) : (Blk.freeEntry line b).inForce = b.inForce := by simp [Blk.freeEntry]
@[simp] theorem Blk.failRead_inForce (line req b) : (Blk.failRead line req b).inForce = b.inForce := by
  unfold Blk.failRead; split <;> simp
@[simp] theorem Blk.setBusy_inForce (line v b) : (Blk.setBusy line v b).inForce = b.inForce := (rfl)
@[simp] theorem Blk.predict_inForce (line inv b) : (Blk.predict line inv b).inForce = b.inForce := (rfl)
@[simp] theorem Blk.supply_inForce (line req d excl b) : (Blk.supply line req d excl b).inForce = b.inForce := (rfl)
@[simp] theorem Blk.performAt_inForce (line v l b) : (Blk.performAt line v l b).inForce = b.inForce := by
  unfold Blk.performAt; split <;> simp
@[simp] theorem Blk.performWrite_inForce (x line v b) : (Blk.performWrite x line v b).1.inForce = b.inForce := by
  unfold Blk.performWrite; extract_lets h rq mask hit known miss cleared
  have hc : cleared.inForce = b.inForce := by simp [cleared, miss]
  clear_value known cleared
  split
  · simp [hit]
  · rw [Blk.ite_fst_inForce, Blk.ite_fst_inForce]
    cases known with
    | some d =>
      split
      · simp
      · split
        · simp [miss]
        · dsimp only
          split
          · rename_i h; simp [Blk.makeRoom_inForce h, hc]
          · simp [hc]
    | none =>
      simp [miss, hc]
      intros; split <;> simp [hc]
@[simp] theorem Blk.supplyData_inForce (line v d poison b) : (Blk.supplyData line v d poison b).1.inForce = b.inForce := by
  unfold Blk.supplyData; dsimp only; (repeat' split) <;> simp
@[simp] theorem Blk.homeRead_inForce (x line v b) : (Blk.homeRead x line v b).1.inForce = b.inForce := by
  unfold Blk.homeRead; dsimp only; (repeat' split) <;> simp
@[simp] theorem Blk.sendInvs_inForce (line hs b) : (Blk.sendInvs line hs b).inForce = b.inForce := by simp [Blk.sendInvs]
@[simp] theorem Blk.readNew_inForce (x line v b) : (Blk.readNew x line v b).1.inForce = b.inForce := by
  unfold Blk.readNew; split <;> simp
@[simp] theorem Blk.startReq_inForce (x line req b) : (Blk.startReq x line req b).1.inForce = b.inForce := by
  unfold Blk.startReq; dsimp only; (repeat' split) <;> simp
@[simp] theorem Blk.goOn_inForce (x line y) : (Blk.goOn x line y).1.inForce = y.1.inForce := by
  unfold Blk.goOn; dsimp only; split
  · rfl
  · split <;> simp
@[simp] theorem Blk.settleLine_inForce (x line n y) : (Blk.settleLine x line n y).inForce = y.1.inForce := by
  induction n generalizing y with
  | zero => simp [Blk.settleLine]
  | succ n ih =>
    unfold Blk.settleLine; dsimp only
    refine Blk.ite_keeps (by simp) (Blk.ite_keeps (by simp) ?_)
    split <;> simp [ih]
@[simp] theorem takeUpNext_inForce (x line b) : (takeUpNext x line b).inForce = b.inForce := by
  unfold takeUpNext; split
  · rfl
  · split <;> simp
@[simp] theorem Blk.dirRetry_inForce (x line b) : (Blk.dirRetry x line b).inForce = b.inForce := by
  unfold Blk.dirRetry; split <;> simp
@[simp] theorem afterLine_inForce (x line y) : (afterLine x line y).inForce = y.1.inForce := by simp [afterLine]
@[simp] theorem Blk.accept_inForce (x line req again b) : (Blk.accept x line req again b).inForce = b.inForce := by
  simp [Blk.accept]
@[simp] theorem Blk.writeBackHome_inForce (x line d b) : (Blk.writeBackHome x line d b).inForce = b.inForce := by
  unfold Blk.writeBackHome; dsimp only
  split
  · simp
  · split
    · rename_i h; simp [Blk.makeRoom_inForce h]
    · simp
@[simp] theorem Blk.recallAck_inForce (x n m v d b) : (Blk.recallAck x n m v d b).inForce = b.inForce := by
  unfold Blk.recallAck; (repeat' split) <;> simp
@[simp] theorem Blk.invAck_inForce (x a line d b) : (Blk.invAck x a line d b).inForce = b.inForce := by
  unfold Blk.invAck; dsimp only; (repeat' split) <;> simp
@[simp] theorem Blk.ackAt_inForce (x a line b) : (Blk.ackAt x a line b).inForce = b.inForce := by
  unfold Blk.ackAt; dsimp only; split <;> simp
@[simp] theorem Blk.readServed_inForce (x n rq b) : (Blk.readServed x n rq b).inForce = b.inForce := by
  unfold Blk.readServed; split <;> simp
@[simp] theorem Blk.fwdMissAt_inForce (x a line rq b) : (Blk.fwdMissAt x a line rq b).inForce = b.inForce := by
  unfold Blk.fwdMissAt; dsimp only; split <;> simp
@[simp] theorem Blk.fillDone_inForce (x line d resp b) : (Blk.fillDone x line d resp b).inForce = b.inForce := by
  unfold Blk.fillDone; dsimp only
  split
  · rfl
  · refine Blk.ite_keeps rfl (Blk.ite_keeps (by simp) ?_)
    split
    · rename_i h
      split <;> simp [Blk.makeRoom_inForce h]
    · split <;> simp
@[simp] theorem Blk.drainDone_inForce (x line resp b) : (Blk.drainDone x line resp b).inForce = b.inForce := by
  unfold Blk.drainDone; (repeat' split) <;> simp
@[simp] theorem Blk.farPump_inForce (b) : (Blk.farPump b).inForce = b.inForce := by
  refine Blk.foldl_inForce (fun b t => ?_) _ b
  split <;> simp
@[simp] theorem Blk.holdOver_inForce (a line b) : (Blk.holdOver a line b).inForce = b.inForce := by
  unfold Blk.holdOver; (repeat' split) <;> simp
@[simp] theorem Blk.dropCaches_inForce (line b) : (Blk.dropCaches line b).inForce = b.inForce := by
  unfold Blk.dropCaches; dsimp only; split <;> simp
@[simp] theorem Blk.joinWritebacks_inForce (q n b) : (Blk.joinWritebacks q n b).1.inForce = b.inForce :=
  Blk.foldl_fst_inForce (fun _ _ => by simp) _ (b, 0)
@[simp] theorem Blk.scan_inForce (q n b) : (Blk.scan q n b).inForce = b.inForce := by simp [Blk.scan]

/-! ### Levels -/

@[simp] theorem Blk.addEst_inForce (k b) : (Blk.addEst k b).inForce = b.inForce := (rfl)
@[simp] theorem Blk.noteUnder_inForce (x b) : (Blk.noteUnder x b).inForce = b.inForce := by simp [Blk.noteUnder]
@[simp] theorem Blk.setTarget_inForce (e t b) : (Blk.setTarget e t b).inForce = b.inForce := by simp [Blk.setTarget]
@[simp] theorem Blk.setTargets_inForce (b) : (Blk.setTargets b).inForce = b.inForce := by simp [Blk.setTargets]
@[simp] theorem Blk.passCredits_inForce (k b) : (Blk.passCredits k b).inForce = b.inForce := (rfl)
@[simp] theorem Blk.setLevel_inForce (x e k b) : (Blk.setLevel x e k b).inForce = b.inForce := (rfl)
@[simp] theorem Blk.levelStep_inForce (x b) : (Blk.levelStep x b).inForce = b.inForce := by
  unfold Blk.levelStep; dsimp only; (repeat' split) <;> simp
@[simp] theorem Blk.lowerToCap_inForce (x n b) : (Blk.lowerToCap x n b).inForce = b.inForce := by
  induction n generalizing b with
  | zero => rfl
  | succ n ih =>
    unfold Blk.lowerToCap; split
    · rfl
    · split <;> simp [ih]

/-! ### Engines -/

@[simp] theorem Blk.bumpEng_inForce (e evs b) : (Blk.bumpEng e evs b).inForce = b.inForce := by simp [Blk.bumpEng]
@[simp] theorem Blk.frozen_inForce (x e ev shared b) : (Blk.frozen x e ev shared b).inForce = b.inForce := by simp [Blk.frozen]
@[simp] theorem Blk.faultTile_inForce (e code bundle b) : (Blk.faultTile e code bundle b).inForce = b.inForce := (rfl)
@[simp] theorem Blk.tmark_inForce (x e b) : (Blk.tmark x e b).inForce = b.inForce := by
  unfold Blk.tmark; dsimp only; split <;> simp
@[simp] theorem Blk.issued_inForce (x e bd s nx b) : (Blk.issued x e bd s nx b).inForce = b.inForce := by simp [Blk.issued]
@[simp] theorem Blk.askGather_inForce (e n b) : (Blk.askGather e n b).inForce = b.inForce := by simp [Blk.askGather]
@[simp] theorem Blk.indexFetch_inForce (e g b) : (Blk.indexFetch e g b).inForce = b.inForce := by
  unfold Blk.indexFetch; dsimp only; split <;> simp
@[simp] theorem Blk.gatherMiss_inForce (x e lines b) : (Blk.gatherMiss x e lines b).inForce = b.inForce := by
  unfold Blk.gatherMiss; split <;> simp
@[simp] theorem Blk.bundle_inForce (x e b) : (Blk.bundle x e b).inForce = b.inForce := by
  unfold Blk.bundle; dsimp only; (repeat' split) <;> simp
@[simp] theorem Blk.landNext_inForce (e b) : (Blk.landNext e b).inForce = b.inForce := by
  unfold Blk.landNext; dsimp only; split <;> simp
@[simp] theorem Blk.gatherFill_inForce (e line d resp b) : (Blk.gatherFill e line d resp b).inForce = b.inForce := by
  simp [Blk.gatherFill]
@[simp] theorem Blk.rowDone_inForce (e ch b) : (Blk.rowDone e ch b).inForce = b.inForce := by simp [Blk.rowDone]
@[simp] theorem Blk.copyDone_inForce (e c b) : (Blk.copyDone e c b).inForce = b.inForce := by
  unfold Blk.copyDone; dsimp only; (repeat' split) <;> simp
@[simp] theorem Blk.startTile_inForce (x e b) : (Blk.startTile x e b).inForce = b.inForce := by
  unfold Blk.startTile; dsimp only; (repeat' split) <;> simp
@[simp] theorem Blk.tileDone_inForce (e j b) : (Blk.tileDone e j b).inForce = b.inForce := by simp [Blk.tileDone]
@[simp] theorem Blk.afterTile_inForce (x e b) : (Blk.afterTile x e b).inForce = b.inForce := by simp [Blk.afterTile]
@[simp] theorem Blk.completeTile_inForce (x e b) : (Blk.completeTile x e b).inForce = b.inForce := by
  unfold Blk.completeTile; dsimp only; (repeat' split) <;> simp
@[simp] theorem Blk.engLog_inForce (x kind code e j detail b) : (Blk.engLog x kind code e j detail b).inForce = b.inForce := by
  simp [Blk.engLog]
@[simp] theorem Blk.failTile_inForce (e j code detail fin b) : (Blk.failTile e j code detail fin b).inForce = b.inForce := by
  unfold Blk.failTile; split <;> simp
@[simp] theorem Blk.reportFault_inForce (x e b) : (Blk.reportFault x e b).inForce = b.inForce := by
  unfold Blk.reportFault; dsimp only; split <;> simp
@[simp] theorem Blk.faultStart_inForce (x e b) : (Blk.faultStart x e b).inForce = b.inForce := by
  unfold Blk.faultStart; dsimp only; (repeat' split) <;> simp

/-! ### Twins -/

@[simp] theorem Blk.setTwin_inForce (j t b) : (Blk.setTwin j t b).inForce = b.inForce := by simp [Blk.setTwin]
@[simp] theorem Blk.decideTwin_inForce (j t outcome a b' st b) : (Blk.decideTwin j t outcome a b' st b).inForce = b.inForce := by
  simp [Blk.decideTwin]
@[simp] theorem Blk.logTwin_inForce (x code j t b) : (Blk.logTwin x code j t b).inForce = b.inForce := by simp [Blk.logTwin]
@[simp] theorem Blk.unresolved_inForce (x j t b) : (Blk.unresolved x j t b).inForce = b.inForce := by simp [Blk.unresolved]
@[simp] theorem Blk.compareTwin_inForce (x j t b) : (Blk.compareTwin x j t b).inForce = b.inForce := by
  unfold Blk.compareTwin; (repeat' split) <;> simp
@[simp] theorem Blk.thirdIssue_inForce (x arb j t b) : (Blk.thirdIssue x arb j t b).inForce = b.inForce := by
  unfold Blk.thirdIssue; split <;> simp
@[simp] theorem Blk.dropStopped_inForce (x j b) : (Blk.dropStopped x j b).inForce = b.inForce := by simp [Blk.dropStopped]
@[simp] theorem Blk.retireLaunch_inForce (x j b) : (Blk.retireLaunch x j b).inForce = b.inForce := by simp [Blk.retireLaunch]
@[simp] theorem Blk.retireStand_inForce (x j b) : (Blk.retireStand x j b).inForce = b.inForce := by
  unfold Blk.retireStand; dsimp only; (repeat' split) <;> simp
@[simp] theorem Blk.retireNext_inForce (x b) : (Blk.retireNext x b).inForce = b.inForce := by
  unfold Blk.retireNext; split <;> simp

/-! ### The weave unit -/

@[simp] theorem Blk.wvFail_inForce (code off b) : (Blk.wvFail code off b).inForce = b.inForce := (rfl)
@[simp] theorem Blk.wvAbandon_inForce (b) : (Blk.wvAbandon b).inForce = b.inForce := (rfl)
@[simp] theorem Blk.wvFetch_inForce (b) : (Blk.wvFetch b).inForce = b.inForce := by simp [Blk.wvFetch]
@[simp] theorem Blk.wvCheck_inForce (act b) : (Blk.wvCheck act b).inForce = b.inForce := by simp [Blk.wvCheck]
@[simp] theorem Blk.wvCtrl_inForce (fetch check pour cancel quiet b) :
    (Blk.wvCtrl fetch check pour cancel quiet b).inForce = b.inForce := by
  simp [Blk.wvCtrl]
@[simp] theorem Blk.armPour_inForce (b) : (Blk.armPour b).inForce = b.inForce := by unfold Blk.armPour; split <;> simp
@[simp] theorem Blk.checkOver_inForce (x b) : (Blk.checkOver x b).inForce = b.inForce := by
  unfold Blk.checkOver; dsimp only; (repeat' split) <;> simp
@[simp] theorem Blk.dropClaims_inForce (b) : (Blk.dropClaims b).inForce = b.inForce := by simp [Blk.dropClaims]
@[simp] theorem Blk.switchSlots_inForce (b) : (Blk.switchSlots b).inForce = b.inForce := by simp [Blk.switchSlots]
@[simp] theorem Blk.clearEngine_inForce (x e b) : (Blk.clearEngine x e b).inForce = b.inForce := by simp [Blk.clearEngine]

/-! ### Recovery -/

@[simp] theorem Blk.restartTile_inForce (j tile b) : (Blk.restartTile j tile b).inForce = b.inForce := by simp [Blk.restartTile]
@[simp] theorem Blk.declareHang_inForce (x e b) : (Blk.declareHang x e b).inForce = b.inForce := by
  unfold Blk.declareHang; dsimp only; split <;> simp
@[simp] theorem Blk.stepDone_inForce (x e b) : (Blk.stepDone x e b).inForce = b.inForce := by
  unfold Blk.stepDone; dsimp only; split <;> simp
@[simp] theorem Blk.orderRung_inForce (r b) : (Blk.orderRung r b).inForce = b.inForce := by simp [Blk.orderRung]
@[simp] theorem Blk.holdRung_inForce (r b) : (Blk.holdRung r b).inForce = b.inForce := by simp [Blk.holdRung]
@[simp] theorem Blk.beginRung_inForce (r b) : (Blk.beginRung r b).inForce = b.inForce := (rfl)
@[simp] theorem Blk.noteRung_inForce (x r b) : (Blk.noteRung x r b).inForce = b.inForce := by simp [Blk.noteRung]
@[simp] theorem Blk.dropSteals_inForce (e b) : (Blk.dropSteals e b).inForce = b.inForce := by simp [Blk.dropSteals]
@[simp] theorem Blk.sendBack_inForce (e b) : (Blk.sendBack e b).inForce = b.inForce := by simp [Blk.sendBack]
@[simp] theorem Blk.ackAll_inForce (x e b) : (Blk.ackAll x e b).inForce = b.inForce := by simp [Blk.ackAll]
@[simp] theorem Blk.resetEngine_inForce (x e code b) : (Blk.resetEngine x e code b).inForce = b.inForce := by
  unfold Blk.resetEngine; dsimp only; split <;> simp
@[simp] theorem Blk.rungLog_inForce (x kind code unit part js b) :
    (Blk.rungLog x kind code unit part js b).inForce = b.inForce := by
  simp [Blk.rungLog]
@[simp] theorem Blk.engineReset_inForce (x r b) : (Blk.engineReset x r b).inForce = b.inForce := by simp [Blk.engineReset]
@[simp] theorem Blk.resetStand_inForce (q n b) : (Blk.resetStand q n b).inForce = b.inForce := by
  unfold Blk.resetStand; split <;> simp
@[simp] theorem Blk.partitionReset_inForce (x r b) : (Blk.partitionReset x r b).inForce = b.inForce := by
  unfold Blk.partitionReset; split <;> simp
@[simp] theorem Blk.resetOver_inForce (x e b) : (Blk.resetOver x e b).inForce = b.inForce := by
  unfold Blk.resetOver; dsimp only; split <;> simp
@[simp] theorem Blk.eccLog_inForce (x kind code u addr b) : (Blk.eccLog x kind code u addr b).inForce = b.inForce := by
  simp [Blk.eccLog]
@[simp] theorem Blk.bankLost_inForce (e i b) : (Blk.bankLost e i b).inForce = b.inForce := by simp [Blk.bankLost]
@[simp] theorem Blk.poison_inForce (line b) : (Blk.poison line b).inForce = b.inForce := by
  unfold Blk.poison; extract_lets dropped c
  have hc : c.inForce = b.inForce := by simp only [c]; split <;> simp [dropped]
  rw [← hc]; clear_value c
  split
  · simp
  · split
    · rename_i h; simp [Blk.makeRoom_inForce h]
    · simp
@[simp] theorem Blk.saveLost_inForce (x e b) : (Blk.saveLost x e b).inForce = b.inForce := by unfold Blk.saveLost; split <;> simp
@[simp] theorem Blk.eccEffect_inForce (x code u addr b) : (Blk.eccEffect x code u addr b).inForce = b.inForce := by
  unfold Blk.eccEffect; (repeat' split) <;> simp

/-! ### Power -/

@[simp] theorem Blk.sleep_inForce (b) : (Blk.sleep b).inForce = b.inForce := (rfl)
@[simp] theorem Blk.keepCycle_inForce (x budget b) : (Blk.keepCycle x budget b).inForce = b.inForce := by simp [Blk.keepCycle]
@[simp] theorem Blk.windowEnds_inForce (x b) : (Blk.windowEnds x b).inForce = b.inForce := by simp [Blk.windowEnds]
@[simp] theorem Blk.markStretched_inForce (b) : (Blk.markStretched b).inForce = b.inForce := (rfl)
@[simp] theorem Blk.stretch_inForce (x b) : (Blk.stretch x b).inForce = b.inForce := by unfold Blk.stretch; split <;> simp
@[simp] theorem Blk.stretchOver_inForce (x b) : (Blk.stretchOver x b).inForce = b.inForce := by simp [Blk.stretchOver]
@[simp] theorem Blk.raiseReqs_inForce (b) : (Blk.raiseReqs b).inForce = b.inForce := (rfl)
@[simp] theorem Blk.wake_inForce (x b) : (Blk.wake x b).inForce = b.inForce := by simp [Blk.wake]
@[simp] theorem Blk.ackChange_inForce (ctl level b) : (Blk.ackChange ctl level b).inForce = b.inForce := by simp [Blk.ackChange]
@[simp] theorem Blk.awake_inForce (x b) : (Blk.awake x b).inForce = b.inForce := by unfold Blk.awake; split <;> simp

/-! ### Debug -/

@[simp] theorem Blk.belayBegins_inForce (x causes b) : (Blk.belayBegins x causes b).inForce = b.inForce := by
  simp [Blk.belayBegins]
@[simp] theorem Blk.belayCause_inForce (x c b) : (Blk.belayCause x c b).inForce = b.inForce := by simp [Blk.belayCause]
@[simp] theorem Blk.belayHeld_inForce (x b) : (Blk.belayHeld x b).inForce = b.inForce := by simp [Blk.belayHeld]
@[simp] theorem Blk.resumeQueues_inForce (x p b) : (Blk.resumeQueues x p b).inForce = b.inForce := by simp [Blk.resumeQueues]
@[simp] theorem Blk.releaseBelay_inForce (x b) : (Blk.releaseBelay x b).inForce = b.inForce := by simp [Blk.releaseBelay]
@[simp] theorem Blk.belayRelease_inForce (x b) : (Blk.belayRelease x b).inForce = b.inForce := by
  unfold Blk.belayRelease; split <;> simp
@[simp] theorem Blk.belayStops_inForce (x b) : (Blk.belayStops x b).inForce = b.inForce := by simp [Blk.belayStops]
@[simp] theorem Blk.pendBreak_inForce (s b) : (Blk.pendBreak s b).inForce = b.inForce := (rfl)
@[simp] theorem Blk.holdQueue_inForce (u q b) : (Blk.holdQueue u q b).inForce = b.inForce := by simp [Blk.holdQueue]
@[simp] theorem Blk.breakRecord_inForce (x u act q n b) : (Blk.breakRecord x u act q n b).inForce = b.inForce := by
  unfold Blk.breakRecord; split <;> simp
@[simp] theorem Blk.unitFires_inForce (x act q n u b) : (Blk.unitFires x act q n u b).inForce = b.inForce := by
  simp [Blk.unitFires]
@[simp] theorem Blk.unitsFire_inForce (x us q n b) : (Blk.unitsFire x us q n b).inForce = b.inForce := by
  unfold Blk.unitsFire; dsimp only; (repeat' split) <;> simp
@[simp] theorem Blk.breakFires_inForce (x ev b) : (Blk.breakFires x ev b).inForce = b.inForce := by
  unfold Blk.breakFires; (repeat' split) <;> simp
@[simp] theorem Blk.unholdUnit_inForce (x u b) : (Blk.unholdUnit x u b).inForce = b.inForce := by simp [Blk.unholdUnit]
@[simp] theorem Blk.writeBreak_inForce (x u most d b) : (Blk.writeBreak x u most d b).inForce = b.inForce := by
  simp [Blk.writeBreak]
@[simp] theorem Blk.resumeSeq_inForce (x stepping s b) : (Blk.resumeSeq x stepping s b).inForce = b.inForce := by
  simp [Blk.resumeSeq]
@[simp] theorem Blk.seqCtrl_inForce (x resume step b) : (Blk.seqCtrl x resume step b).inForce = b.inForce := by simp [Blk.seqCtrl]
@[simp] theorem Blk.requestBelay_inForce (s b) : (Blk.requestBelay s b).inForce = b.inForce := by simp [Blk.requestBelay]
@[simp] theorem Blk.selectBlk_inForce (i d b) : (Blk.selectBlk i d b).inForce = b.inForce := by simp [Blk.selectBlk]
@[simp] theorem Blk.selectEng_inForce (e i d b) : (Blk.selectEng e i d b).inForce = b.inForce := by simp [Blk.selectEng]
@[simp] theorem Blk.sample_inForce (x b) : (Blk.sample x b).inForce = b.inForce := by simp [Blk.sample]
@[simp] theorem Blk.trigger_inForce (x u b) : (Blk.trigger x u b).inForce = b.inForce := by simp [Blk.trigger]
@[simp] theorem Blk.capture_inForce (x b) : (Blk.capture x b).inForce = b.inForce := (rfl)
@[simp] theorem Blk.writeGraph_inForce (t b) : (Blk.writeGraph t b).inForce = b.inForce := by simp [Blk.writeGraph]
@[simp] theorem Blk.tangleGo_inForce (x b) : (Blk.tangleGo x b).inForce = b.inForce := by simp [Blk.tangleGo]
@[simp] theorem Blk.tangleCtrl_inForce (x go all b) : (Blk.tangleCtrl x go all b).inForce = b.inForce := by simp [Blk.tangleCtrl]
@[simp] theorem Blk.setCaddy_inForce (c v b) : (Blk.setCaddy c v b).inForce = b.inForce := by unfold Blk.setCaddy; split <;> simp
@[simp] theorem Blk.beginDrain_inForce (ring b) : (Blk.beginDrain ring b).inForce = b.inForce := by
  unfold Blk.beginDrain; split <;> simp
@[simp] theorem Blk.beginDrains_inForce (b) : (Blk.beginDrains b).inForce = b.inForce := by simp [Blk.beginDrains]
@[simp] theorem Blk.copyMark_inForce (r b) : (Blk.copyMark r b).inForce = b.inForce := by unfold Blk.copyMark; split <;> simp
@[simp] theorem Blk.publish_inForce (x ring d b) : (Blk.publish x ring d b).inForce = b.inForce := by simp [Blk.publish]
@[simp] theorem Blk.claimEng_inForce (s e b) : (Blk.claimEng s e b).inForce = b.inForce := by simp [Blk.claimEng]
@[simp] theorem Blk.unclaimEng_inForce (s e b) : (Blk.unclaimEng s e b).inForce = b.inForce := by simp [Blk.unclaimEng]
@[simp] theorem Blk.seatClaim_inForce (s d b) : (Blk.seatClaim s d b).inForce = b.inForce := by simp [Blk.seatClaim]

/-! ### Memory ports -/

@[simp] theorem Blk.modPort_inForce (p f b) : (Blk.modPort p f b).inForce = b.inForce := (rfl)
@[simp] theorem Blk.writtenBack_inForce (q n b) : (Blk.writtenBack q n b).inForce = b.inForce := by
  unfold Blk.writtenBack; dsimp only; split <;> simp
@[simp] theorem Blk.portDone_inForce (x p r d resp link b) : (Blk.portDone x p r d resp link b).inForce = b.inForce := by
  unfold Blk.portDone; dsimp only; split <;> simp
@[simp] theorem Blk.response_inForce (x p tag write d resp b) : (Blk.response x p tag write d resp b).inForce = b.inForce := by
  unfold Blk.response; dsimp only; (repeat' split) <;> simp
@[simp] theorem Blk.failAll_inForce (x p rs b) : (Blk.failAll x p rs b).inForce = b.inForce := by simp [Blk.failAll]
@[simp] theorem Blk.linkDown_inForce (x p b) : (Blk.linkDown x p b).inForce = b.inForce := by simp [Blk.linkDown]
@[simp] theorem Blk.noteReplay_inForce (x p b) : (Blk.noteReplay x p b).inForce = b.inForce := by simp [Blk.noteReplay]
@[simp] theorem Blk.setInjector_inForce (u v b) : (Blk.setInjector u v b).inForce = b.inForce := (rfl)
@[simp] theorem Blk.injectUnit_inForce {n : Nat} (beat replay u) (y : List (BitVec n) × Blk) :
    (Blk.injectUnit beat replay u y).2.inForce = y.2.inForce := by
  unfold Blk.injectUnit; dsimp only
  split
  · simp
  · split
    · simp
    · split <;> simp
@[simp] theorem Blk.inject_inForce {n : Nat} (link dir beat replay) (f : BitVec n) (b) :
    (Blk.inject link dir beat replay f b).2.inForce = b.inForce :=
  Blk.foldl_snd_inForce (fun y u => by dsimp only; split <;> simp) _ ([f], b)
@[simp] theorem Blk.injectTx_inForce (p replay b) : (Blk.injectTx p replay b).inForce = b.inForce := by
  simp [Blk.injectTx]
  exact Blk.foldl_snd_inForce (fun y u => by simp) _ ([], b)
@[simp] theorem Blk.noteSlot_inForce (slot used b) : (Blk.noteSlot slot used b).inForce = b.inForce := by simp [Blk.noteSlot]
@[simp] theorem Blk.issueReq_inForce (p b) : (Blk.issueReq p b).1.inForce = b.inForce := by
  unfold Blk.issueReq; dsimp only; (repeat' split) <;> simp
@[simp] theorem Blk.issueSlot_inForce (x p b) : (Blk.issueSlot x p b).inForce = b.inForce := by
  unfold Blk.issueSlot; dsimp only; (repeat' split) <;> simp
@[simp] theorem Blk.replayFrom_inForce (x p n b) : (Blk.replayFrom x p n b).inForce = b.inForce := by simp [Blk.replayFrom]
@[simp] theorem Blk.sendNak_inForce (x p b) : (Blk.sendNak x p b).inForce = b.inForce := by simp [Blk.sendNak]
@[simp] theorem Blk.deliver_inForce (x p f b) : (Blk.deliver x p f b).inForce = b.inForce := by simp [Blk.deliver]
@[simp] theorem Blk.rxFlit_inForce (x p f b) : (Blk.rxFlit x p f b).inForce = b.inForce := by simp [Blk.rxFlit]
@[simp] theorem Blk.trainFlit_inForce (x p f b) : (Blk.trainFlit x p f b).inForce = b.inForce := by simp [Blk.trainFlit]
@[simp] theorem Blk.tetherFlit_inForce (x p f b) : (Blk.tetherFlit x p f b).inForce = b.inForce := by
  unfold Blk.tetherFlit; split <;> simp
@[simp] theorem Blk.setIntLink_inForce (n l b) : (Blk.setIntLink n l b).inForce = b.inForce := (rfl)
@[simp] theorem Blk.intReplay_inForce (x n unit b) : (Blk.intReplay x n unit b).inForce = b.inForce := by simp [Blk.intReplay]
@[simp] theorem Blk.intRx_inForce (x n unit good seq b) : (Blk.intRx x n unit good seq b).inForce = b.inForce := by
  simp [Blk.intRx]
@[simp] theorem Blk.internalFlit_inForce (x n good seq b) : (Blk.internalFlit x n good seq b).inForce = b.inForce := by
  unfold Blk.internalFlit; (repeat' split) <;> simp

/-! ### Intake ports -/

@[simp] theorem Blk.modIntake_inForce (p f b) : (Blk.modIntake p f b).inForce = b.inForce := (rfl)
@[simp] theorem Blk.modItem_inForce (p f b) : (Blk.modItem p f b).inForce = b.inForce := (rfl)
@[simp] theorem Blk.discardRest_inForce (p b) : (Blk.discardRest p b).inForce = b.inForce := (rfl)
@[simp] theorem Blk.rejectItem_inForce (p code off b) : (Blk.rejectItem p code off b).inForce = b.inForce := by
  simp [Blk.rejectItem]
@[simp] theorem Blk.dropItem_inForce (p b) : (Blk.dropItem p b).inForce = b.inForce := by simp [Blk.dropItem]
@[simp] theorem Blk.writeDest_inForce (p r addr bs b) : (Blk.writeDest p r addr bs b).inForce = b.inForce := by
  simp [Blk.writeDest]
@[simp] theorem Blk.placeData_inForce (x p r limit bs b) : (Blk.placeData x p r limit bs b).inForce = b.inForce := by
  unfold Blk.placeData; split <;> simp
@[simp] theorem Blk.placeZeros_inForce (x p r upTo n b) : (Blk.placeZeros x p r upTo n b).inForce = b.inForce := by
  induction n generalizing b with
  | zero => rfl
  | succ n ih => unfold Blk.placeZeros; split <;> simp [ih]
@[simp] theorem Blk.placeBody_inForce (x p r n b) : (Blk.placeBody x p r n b).inForce = b.inForce := by
  induction n generalizing b with
  | zero => rfl
  | succ n ih => unfold Blk.placeBody; split <;> simp [ih]
@[simp] theorem Blk.placeDamage_inForce (p r b) : (Blk.placeDamage p r b).inForce = b.inForce := by
  unfold Blk.placeDamage; split <;> simp
@[simp] theorem Blk.deliver'_inForce (p r short b) : (Blk.deliver' p r short b).inForce = b.inForce := by
  unfold Blk.deliver'; (repeat' split) <;> simp
@[simp] theorem Blk.finishItem_inForce (x p r b) : (Blk.finishItem x p r b).inForce = b.inForce := by
  unfold Blk.finishItem; split <;> simp
@[simp] theorem Blk.runZeros_inForce (x p r i b) : (Blk.runZeros x p r i b).inForce = b.inForce := by simp [Blk.runZeros]
@[simp] theorem Blk.writeBody_inForce (x p r b) : (Blk.writeBody x p r b).inForce = b.inForce := by
  unfold Blk.writeBody; dsimp only; split <;> simp
@[simp] theorem Blk.runBody_inForce (x p r b) : (Blk.runBody x p r b).inForce = b.inForce := by unfold Blk.runBody; split <;> simp
@[simp] theorem Blk.beginBody_inForce (x p r b) : (Blk.beginBody x p r b).inForce = b.inForce := by
  unfold Blk.beginBody; split <;> simp
@[simp] theorem Blk.awaitDest_inForce (x p r b) : (Blk.awaitDest x p r b).inForce = b.inForce := by simp [Blk.awaitDest]
@[simp] theorem Blk.afterChecks_inForce (x p r bad b) : (Blk.afterChecks x p r bad b).inForce = b.inForce := by
  unfold Blk.afterChecks; split <;> simp
@[simp] theorem Blk.bitmapIn_inForce (x p r b) : (Blk.bitmapIn x p r b).inForce = b.inForce := by
  unfold Blk.bitmapIn; split <;> simp
@[simp] theorem Blk.stageBitmap_inForce (x p r b) : (Blk.stageBitmap x p r b).inForce = b.inForce := by
  unfold Blk.stageBitmap; split <;> simp
@[simp] theorem Blk.headerIn_inForce (x p r b) : (Blk.headerIn x p r b).inForce = b.inForce := by
  unfold Blk.headerIn; (repeat' split) <;> simp
@[simp] theorem Blk.modLast_inForce (p f b) : (Blk.modLast p f b).inForce = b.inForce := (rfl)
@[simp] theorem Blk.openItem_inForce (p ts b) : (Blk.openItem p ts b).inForce = b.inForce := by
  unfold Blk.openItem; split <;> simp
@[simp] theorem Blk.runItem_inForce (x p r i b) : (Blk.runItem x p r i b).inForce = b.inForce := by
  unfold Blk.runItem; split <;> simp
@[simp] theorem Blk.runPort_inForce (x p n b) : (Blk.runPort x p n b).inForce = b.inForce := by
  induction n generalizing b with
  | zero => rfl
  | succ n ih =>
    unfold Blk.runPort; split
    · rfl
    · dsimp only; split <;> simp [ih]
@[simp] theorem Blk.portGoes_inForce (x p b) : (Blk.portGoes x p b).inForce = b.inForce := by simp [Blk.portGoes]
@[simp] theorem Blk.beatAge_inForce (x p last b) : (Blk.beatAge x p last b).inForce = b.inForce := by
  unfold Blk.beatAge; split <;> simp
@[simp] theorem Blk.takeBeat_inForce (x p d last b) : (Blk.takeBeat x p d last b).inForce = b.inForce := by simp [Blk.takeBeat]
@[simp] theorem Blk.landed_inForce (x p line resp b) : (Blk.landed x p line resp b).inForce = b.inForce := by
  unfold Blk.landed; dsimp only; (repeat' split) <;> simp
@[simp] theorem Blk.tieItem_inForce (x p resp b) : (Blk.tieItem x p resp b).inForce = b.inForce := by
  unfold Blk.tieItem; dsimp only; split <;> simp

/-! ### Fabric time -/

@[simp] theorem Blk.startEdge_inForce (b) : (Blk.startEdge b).inForce = b.inForce := by simp [Blk.startEdge]

/-! ### Resets and starts -/

@[simp] theorem Blk.completeHeld_inForce (line req b) : (Blk.completeHeld line req b).inForce = b.inForce := by
  unfold Blk.completeHeld
  split
  · simp
  · refine Blk.ite_keeps rfl ?_
    split
    · rename_i h; simp [Blk.makeRoom_inForce h]
    · simp
  · simp
  · rfl
@[simp] theorem Blk.settleHomes_inForce (x b) : (Blk.settleHomes x b).inForce = b.inForce := by
  unfold Blk.settleHomes; dsimp only
  rw [Blk.foldl_inForce fun b p => by simp, Blk.foldl_inForce fun b p => by cases p.2.wait <;> simp]
  simp
@[simp] theorem Blk.warmReset_inForce (x cause b) : (Blk.warmReset x cause b).inForce = b.inForce := by
  unfold Blk.warmReset
  rw [Blk.switchSlots_inForce]
  exact Blk.settleHomes_inForce x b
@[simp] theorem Blk.startClocked_inForce (b) : (Blk.startClocked b).inForce = b.inForce := by simp [Blk.startClocked]
@[simp] theorem Blk.startBegins_inForce (kind b) : (Blk.startBegins kind b).inForce = b.inForce := by simp [Blk.startBegins]
@[simp] theorem Blk.sysReset_inForce (x cause b) : (Blk.sysReset x cause b).inForce = b.inForce := by simp [Blk.sysReset]
@[simp] theorem Blk.selfTest_inForce (fail b) : (Blk.selfTest fail b).inForce = b.inForce := by
  unfold Blk.selfTest; (repeat' split) <;> simp
@[simp] theorem Blk.wardenUp_inForce (x b) : (Blk.wardenUp x b).inForce = b.inForce := by simp [Blk.wardenUp]
@[simp] theorem Blk.startOver_inForce (x b) : (Blk.startOver x b).inForce = b.inForce := by simp [Blk.startOver]
@[simp] theorem Blk.powerOff_inForce (x r b) : (Blk.powerOff x r b).inForce = b.inForce := by simp [Blk.powerOff]
@[simp] theorem Blk.carryOut_inForce (x r b) : (Blk.carryOut x r b).inForce = b.inForce := by unfold Blk.carryOut; split <;> simp
@[simp] theorem Blk.wardenRung_inForce (x r b) : (Blk.wardenRung x r b).inForce = b.inForce := by
  unfold Blk.wardenRung; split <;> simp

/-! ### The patch unit -/

@[simp] theorem Blk.modPatch_inForce (f b) : (Blk.modPatch f b).inForce = b.inForce := (rfl)

/-! ### The host memory window -/

@[simp] theorem Blk.modSeat_inForce (s f b) : (Blk.modSeat s f b).inForce = b.inForce := (rfl)
@[simp] theorem Blk.aperRead_inForce (s o b) : (Blk.aperRead s o b).inForce = b.inForce := (rfl)
@[simp] theorem Blk.aperWrite_inForce (s o d be b) : (Blk.aperWrite s o d be b).inForce = b.inForce := (rfl)
@[simp] theorem Blk.performFar_inForce (t line c b) : (Blk.performFar t line c b).inForce = b.inForce := (rfl)
@[simp] theorem Blk.atomGo_inForce (s w b) : (Blk.atomGo s w b).1.inForce = b.inForce := by
  unfold Blk.atomGo; dsimp only; (repeat' split) <;> simp
@[simp] theorem Blk.farAt_inForce (line b) : (Blk.farAt line b).1.inForce = b.inForce :=
  Blk.foldl_fst_inForce (fun y t => by dsimp only; split <;> simp) _ (b, [])

/-! ### Registers -/

@[simp] theorem Blk.grant_inForce (s d b) : (Blk.grant s d b).inForce = b.inForce := by simp [Blk.grant]
@[simp] theorem writeBlk_inForce (o d b) : (writeBlk o d b).inForce = b.inForce := by simp [writeBlk]
@[simp] theorem writeWv_inForce (o d b) : (writeWv o d b).inForce = b.inForce := by unfold writeWv; split <;> simp
@[simp] theorem writeTie_inForce (seat win i d b) : (writeTie seat win i d b).inForce = b.inForce := by
  unfold writeTie; split <;> simp
@[simp] theorem writeKnt_inForce (seat o d b) : (writeKnt seat o d b).inForce = b.inForce := by simp [writeKnt]
@[simp] theorem Blk.slowClear_inForce (win b) : (Blk.slowClear win b).inForce = b.inForce := by
  unfold Blk.slowClear; split <;> simp
@[simp] theorem writeSlow_inForce (win o d b) : (writeSlow win o d b).inForce = b.inForce := by simp [writeSlow]
@[simp] theorem writeDsp_inForce (o d b) : (writeDsp o d b).inForce = b.inForce := by simp [writeDsp]
@[simp] theorem Blk.predReset_inForce (b) : (Blk.predReset b).inForce = b.inForce := (rfl)
@[simp] theorem writeMem_inForce (o d b) : (writeMem o d b).inForce = b.inForce := by simp [writeMem]
@[simp] theorem writeIk_inForce (p o d b) : (writeIk p o d b).inForce = b.inForce := (rfl)
@[simp] theorem writePwr_inForce (o d b) : (writePwr o d b).inForce = b.inForce := by simp [writePwr]
@[simp] theorem writeUnit_inForce (x u most o d b) : (writeUnit x u most o d b).inForce = b.inForce := by simp [writeUnit]
@[simp] theorem writeTangle_inForce (x o d b) : (writeTangle x o d b).inForce = b.inForce := by simp [writeTangle]
@[simp] theorem writeDbg_inForce (x o d b) : (writeDbg x o d b).inForce = b.inForce := by simp [writeDbg]
@[simp] theorem writeTrc_inForce (o d b) : (writeTrc o d b).inForce = b.inForce := by simp [writeTrc]
@[simp] theorem writeTrcCtl_inForce (e d b) : (writeTrcCtl e d b).inForce = b.inForce := (rfl)
@[simp] theorem writeTrcEng_inForce (e o d b) : (writeTrcEng e o d b).inForce = b.inForce := by simp [writeTrcEng]
@[simp] theorem writeSeatDbg_inForce (x s o d b) : (writeSeatDbg x s o d b).inForce = b.inForce := by
  unfold writeSeatDbg; dsimp only
  iterate 4 refine Blk.ite_keeps (by simp) ?_
  refine Blk.ite_keeps (by split <;> simp) ?_
  iterate 3 refine Blk.ite_keeps (by simp) ?_
  rfl
@[simp] theorem writeEng_inForce (e expert o d b) : (writeEng e expert o d b).inForce = b.inForce := by simp [writeEng]
@[simp] theorem writeStewardBlk_inForce (x seat o d b) : (writeStewardBlk x seat o d b).inForce = b.inForce := by
  simp [writeStewardBlk]
@[simp] theorem writeBelay_inForce (x d b) : (writeBelay x d b).inForce = b.inForce := by simp [writeBelay]
@[simp] theorem writeWin_inForce (s o d b) : (writeWin s o d b).inForce = b.inForce := (rfl)
@[simp] theorem writeSeat_inForce (x s o d b) : (writeSeat x s o d b).inForce = b.inForce := by simp [writeSeat]
@[simp] theorem Blk.queConfig_inForce (q f b) : (Blk.queConfig q f b).inForce = b.inForce := by simp [Blk.queConfig]
@[simp] theorem writePage_inForce (q o d b) : (writePage q o d b).inForce = b.inForce := by unfold writePage; split <;> simp
@[simp] theorem Blk.hostRung_inForce (x d b) : (Blk.hostRung x d b).inForce = b.inForce := by
  unfold Blk.hostRung; dsimp only; (repeat' split) <;> simp
@[simp] theorem writeFlt_inForce (x o d b) : (writeFlt x o d b).inForce = b.inForce := by simp [writeFlt]
@[simp] theorem writeSeatLog_inForce (s o d b) : (writeSeatLog s o d b).inForce = b.inForce := by simp [writeSeatLog]

/-! ### Rows that let accesses go on -/

@[simp] theorem Blk.tieNext_inForce (b) : (Blk.tieNext b).inForce = b.inForce := by unfold Blk.tieNext; (repeat' split) <;> simp
@[simp] theorem Blk.toPlaces_inForce (i line d resp b) : (Blk.toPlaces i line d resp b).inForce = b.inForce := by
  simp [Blk.toPlaces]
@[simp] theorem Blk.fetchResp_inForce (line d b) : (Blk.fetchResp line d b).inForce = b.inForce := (rfl)
@[simp] theorem Blk.tangleAck_inForce (resp b) : (Blk.tangleAck resp b).inForce = b.inForce := (rfl)
@[simp] theorem Blk.engImage_inForce (e b) : (Blk.engImage e b).1.inForce = b.inForce := by simp [Blk.engImage]
@[simp] theorem Blk.tapRead_inForce (x op b) : (Blk.tapRead x op b).1.inForce = b.inForce := by
  unfold Blk.tapRead; dsimp only
  split <;> simp
@[simp] theorem Blk.tapEdge_inForce (tdi b) : (Blk.tapEdge tdi b).inForce = b.inForce := by
  unfold Blk.tapEdge; dsimp only; split <;> simp
@[simp] theorem Blk.tapFall_inForce (b) : (Blk.tapFall b).inForce = b.inForce := by unfold Blk.tapFall; dsimp only; split <;> simp
@[simp] theorem Blk.tapCycle_inForce (tms tdi b) : (Blk.tapCycle tms tdi b).inForce = b.inForce := by simp [Blk.tapCycle]
@[simp] theorem Blk.tap_inForce (x op b) : (Blk.tap x op b).inForce = b.inForce := by unfold Blk.tap; split <;> simp

/-! ## Rows of the machine -/

/-- What every command keeps but a pour and the resets that begin the block anew: the weave in force (02 R62), the straps
(01 R27), and the steep buffer's canonical form. -/
structure State.Keeps (s u : State) : Prop where
  inForce : u.blk.inForce = s.blk.inForce
  strap : u.env.strap = s.env.strap
  steep : s.SteepWf → u.SteepWf

theorem State.Keeps.refl (s : State) : s.Keeps s := ⟨rfl, rfl, id⟩
theorem State.Keeps.trans {s t u : State} (h : s.Keeps t) (k : t.Keeps u) : s.Keeps u :=
  ⟨k.inForce.trans h.inForce, k.strap.trans h.strap, k.steep ∘ h.steep⟩
theorem State.Keeps.ite {s t u : State} {p : Prop} [Decidable p] (h : s.Keeps t) (k : s.Keeps u) : s.Keeps (if p then t else u) := by
  split <;> assumption
theorem State.Keeps.foldl {α : Type} {f : State → α → State} (h : ∀ (s : State) x, s.Keeps (f s x)) (l : List α) (s : State) :
    s.Keeps (l.foldl f s) := by
  induction l generalizing s with
  | nil => exact .refl s
  | cons x l ih => exact (h s x).trans (ih _)
/-- A change of the block alone. -/
theorem State.Keeps.blk (s : State) {c : Blk} (h : c.inForce = s.blk.inForce) : s.Keeps { s with blk := c } := ⟨h, rfl, id⟩
theorem State.onBlock_keeps {f : Blk → Blk} (h : ∀ b, (f b).inForce = b.inForce) (s : State) : s.Keeps (s.onBlock f) := .blk s (h _)
theorem State.setTime_keeps (t : Time) (s : State) : s.Keeps (s.setTime t) := ⟨rfl, rfl, id⟩

/-! ### The steep buffer and fabric time -/

theorem State.steepStore_keeps (word : Nat) (d : W32) (s : State) : s.Keeps (s.steepStore word d) := by
  unfold State.steepStore; dsimp only
  split
  · exact .blk s (by simp)
  · exact ⟨rfl, rfl, fun h => Mem.writeMask_wf (m := s.env.steep) 4 h (4 * word) d.toNat 15⟩
theorem State.fetchDone_keeps (f : Fetch) (s : State) : s.Keeps (s.fetchDone f) := by
  unfold State.fetchDone; dsimp only
  split
  · exact .blk s (by simp)
  · split
    · exact .blk s (by simp)
    · exact ⟨rfl, rfl, f.land_wf⟩
theorem State.refEdge_keeps (s : State) : s.Keeps s.refEdge := by
  have h : s.Keeps { s.setTime s.env.time.edge with blk := s.blk.startEdge } := (s.setTime_keeps _).trans (.blk _ (by simp [State.setTime]))
  unfold State.refEdge; dsimp only
  split
  · exact .ite h (h.trans (.blk _ (by simp)))
  · exact h

/-! ### Host accesses -/

theorem State.respond_keeps (a : Acc) (write : Bool) (v : Nat) (s : State) : s.Keeps (s.respond a write v) := .blk s (by simp)
theorem State.finish_keeps (seat : Seat) (write : Bool) (v : Nat) (s : State) : s.Keeps (s.finish seat write v) :=
  s.onBlock_keeps fun b => by simp
theorem State.finishAll_keeps (l : List Seat) (s : State) : s.Keeps (s.finishAll l) := .foldl (fun s i => s.finish_keeps i true 0) l s
theorem State.access_keeps {go : State → State} (h : ∀ s : State, s.Keeps (go s)) (s : State) (a : Acc) (addr : BitVec 22) (wdata : Option W32) :
    s.Keeps (s.access a addr wdata go) := by
  have hf : s.Keeps { s with blk := s.blk.freshResp } := .blk s (by simp)
  unfold State.access; dsimp only
  exact .ite (.refl s) (.ite (.blk s (by simp)) (.ite (.blk s (by simp)) (hf.trans (h _))))
theorem State.readAt_keeps (op : HostOp) (p : Place) (s : State) : s.Keeps (s.readAt op p).1 := by
  unfold State.readAt; extract_lets x b seat a snap
  clear_value snap
  cases snap with
  | some v => exact .blk s (by simp [b])
  | none =>
    dsimp only
    split
    · exact .refl s
    · cases p with
      | steward o =>
        dsimp only
        split
        · exact .blk s (Blk.drawFree_inForce b)
        · exact .refl s
      | seat | page | knot => exact .refl s
theorem State.writeSteward_keeps (seat o : Nat) (d : W32) (s : State) : s.Keeps (s.writeSteward seat o d) :=
  .ite (s.setTime_keeps _) (.ite (s.steepStore_keeps _ _) (.ite (.blk s (by simp)) (.blk s (by simp))))
theorem State.writeAt_keeps (op : HostOp) (p : Place) (d : W32) (s : State) : s.Keeps (s.writeAt op p d) := by
  cases p with
  | steward o => exact s.writeSteward_keeps _ _ _
  | seat t o => exact .blk s (by simp)
  | page q o => exact .blk s (by simp)
  | knot k i => exact .refl s
theorem State.refused_keeps (op : HostOp) (k : BitVec 2) (p : Place) (s : State) : s.Keeps (s.refused op k p) :=
  State.Keeps.trans (.ite (s.onBlock_keeps fun b => by simp) (.refl s)) (State.respond_keeps ..)
theorem State.aperture_keeps (op : HostOp) (o : Nat) (s : State) : s.Keeps (s.aperture op o) := by
  unfold State.aperture
  refine .ite (s.onBlock_keeps fun b => by simp) ?_
  split
  · exact s.onBlock_keeps fun b => by simp
  · exact .ite (.blk s (by simp)) (s.onBlock_keeps fun b => by simp)
theorem State.atomic_keeps (op : HostOp) (d : W32) (s : State) : s.Keeps (s.atomic op d) := by
  have h : s.Keeps { s with blk := (s.blk.atomGo op.acc.seat d).1 } := .blk s (by simp)
  exact .ite (s.onBlock_keeps fun b => by simp) (.ite (h.trans (State.respond_keeps ..)) h)
theorem State.plain_keeps (op : HostOp) (p : Place) (s : State) : s.Keeps (s.plain op p) := by
  have hread (q : Place) : s.Keeps ((s.readAt op q).1.respond op.acc false (s.readAt op q).2) :=
    (s.readAt_keeps op q).trans (State.respond_keeps ..)
  unfold State.plain
  refine .ite (s.refused_keeps ..) (.ite (s.onBlock_keeps fun b => by simp) ?_)
  split
  · split
    · exact s.atomic_keeps ..
    · exact (s.writeAt_keeps ..).trans (State.respond_keeps ..)
  · split
    · exact s.onBlock_keeps fun b => by simp
    · exact hread _
theorem State.perform_keeps (op : HostOp) (s : State) : s.Keeps (s.perform op) := by
  unfold State.perform; dsimp only
  split
  · exact s.refused_keeps ..
  · split
    · exact .ite (s.aperture_keeps ..) (s.plain_keeps ..)
    · exact s.plain_keeps ..
theorem State.goOn_keeps {s u : State} (h : s.goOn = some u) : s.Keeps u := by
  unfold State.goOn at h
  split at h
  · cases h
    exact (s.onBlock_keeps fun b => by simp).trans (State.perform_keeps ..)
  · cases h
theorem State.drain_keeps (n : Nat) (s : State) : s.Keeps (s.drain n) := by
  induction n generalizing s with
  | zero => exact .refl s
  | succ n ih =>
    unfold State.drain
    split
    · rename_i h; exact (State.goOn_keeps h).trans (ih _)
    · exact .refl s
theorem State.settle_keeps (s : State) : s.Keeps s.settle := s.drain_keeps _
theorem State.serveWarden_keeps (s : State) : s.Keeps s.serveWarden := by
  unfold State.serveWarden
  split
  · exact .refl s
  · rename_i op rest _
    have h : s.Keeps (s.onBlock fun b => { b with host := { b.host with warden := rest } }) := s.onBlock_keeps fun b => by simp
    dsimp only
    refine .ite (h.trans (State.finish_keeps ..)) ?_
    split
    · exact (h.trans (State.onBlock_keeps (fun b => by simp) _)).trans (State.finish_keeps ..)
    · exact (h.trans (State.onBlock_keeps (fun b => by simp) _)).trans (State.finish_keeps ..)
    · exact (h.trans (State.readAt_keeps ..)).trans (State.finish_keeps ..)
    · exact h.trans (State.finish_keeps ..)

/-! ### Data and completions that arrive -/

theorem State.agentData_keeps (a : AgentId) (line : LineNo) (d : Line) (excl : Bool) (s : State) : s.Keeps (s.agentData a line d excl) := by
  unfold State.agentData; dsimp only
  split
  · exact s.onBlock_keeps fun b => by simp
  · split
    · exact s.onBlock_keeps fun b => by simp
    · split
      · exact s.onBlock_keeps fun b => by simp
      · exact State.Keeps.trans (.blk s (by simp)) (State.finishAll_keeps ..)
theorem State.dataAt_keeps (rq : Rq) (line : LineNo) (d : Line) (excl : Bool) (s : State) : s.Keeps (s.dataAt rq line d excl) := by
  cases rq with
  | agent a => exact s.agentData_keeps ..
  | window t =>
    unfold State.dataAt; dsimp only
    split
    · exact s.finish_keeps ..
    · exact .refl s
  | slot | seq | draw | tdesc | weave | image | stream => exact s.onBlock_keeps fun b => by simp
  | _ => exact .refl s
theorem State.windowDone_keeps (t : Seat) (old : W64) (resp : BitVec 2) (s : State) : s.Keeps (s.windowDone t old resp) := by
  unfold State.windowDone; extract_lets u
  have h : s.Keeps u := .ite (.refl s) (s.onBlock_keeps fun b => by simp)
  clear_value u
  split
  · exact h.trans (State.finish_keeps ..)
  · exact h.trans (State.finish_keeps ..)
  · exact (h.trans (.ite (u.onBlock_keeps fun b => by simp) (.refl u))).trans (State.finish_keeps ..)
  · exact h
theorem State.windowsDone_keeps (l : List AtomReq) (resp : BitVec 2) (s : State) :
    s.Keeps (l.foldl (fun s t => s.windowDone t.seat 0 resp) s) := by
  refine State.Keeps.foldl (fun s t => ?_) l s
  exact s.windowDone_keeps t.seat 0 resp
theorem State.agentError_keeps (a : AgentId) (line : LineNo) (resp : BitVec 2) (s : State) : s.Keeps (s.agentError a line resp) := by
  unfold State.agentError; extract_lets n t hit u
  have ht : s.Keeps t := s.onBlock_keeps fun b => by simp
  have hu : t.Keeps u := .blk _ rfl
  clear_value t u
  split
  · exact .refl s
  · split
    · exact ht.trans (t.onBlock_keeps fun b => by simp)
    · split
      · exact ht.trans (t.onBlock_keeps fun b => by simp)
      · exact ((ht.trans hu).trans (u.windowsDone_keeps hit resp)).trans (State.onBlock_keeps Blk.farPump_inForce _)
theorem State.cmpAt_keeps (rq : Rq) (line : LineNo) (old : W64) (resp : BitVec 2) (s : State) : s.Keeps (s.cmpAt rq line old resp) := by
  cases rq with
  | window t => exact s.windowDone_keeps ..
  | agent a => exact .ite (.refl s) (s.agentError_keeps ..)
  | slot | tdesc | weave | image | stream => exact .ite (.refl s) (s.onBlock_keeps fun b => by simp)
  | seq | draw | trace | tangle | record | runRecord | intake => exact .blk s (by simp)
  | membar | victim => exact .refl s

/-! ### Rows -/

/-- Every next state that the outcome gives keeps what `State.Keeps` says. -/
def State.Leads (s : State) (o : Host.Outcome State Fault Refusal) : Prop := ∀ u, o = .next u → s.Keeps u

theorem State.Keeps.leads {s u : State} (h : s.Keeps u) : s.Leads (.next u) := by rintro _ ⟨⟩; exact h
theorem State.onBlk_leads {f : Env → Blk → Blk} (s : State) (h : ∀ x b, (f x b).inForce = b.inForce) : s.Leads (s.onBlk f) :=
  (State.Keeps.blk s (h _ _)).leads
theorem State.onWork_leads {f : Env → Blk → Blk} (s : State) (h : ∀ x b, (f x b).inForce = b.inForce) : s.Leads (s.onWork f) :=
  s.onBlk_leads fun x b => by simp [h]
theorem State.onMessage_leads {ready : Blk → Bool} {m : Instr} {f : Env → Blk → Blk} (s : State) (h : ∀ x b, (f x b).inForce = b.inForce) :
    s.Leads (s.onMessage ready m f) := s.onBlk_leads fun x b => by simp [h]
theorem State.onArrival_leads {m : Instr} {f : Env → Blk → Blk} (s : State) (h : ∀ x b, (f x b).inForce = b.inForce) :
    s.Leads (s.onArrival m f) := s.onBlk_leads fun x b => by simp [h]
theorem State.writeRow_leads {a : Acc} {addr : Nat} {d : W32} {judge : Env → Blk → Option (BitVec 2)} {eff : Env → Blk → Blk} (s : State)
    (h : ∀ x b, (eff x b).inForce = b.inForce) : s.Leads (s.writeRow a addr d judge eff) :=
  (State.access_keeps (fun s => .blk s (Blk.hostWrite_inForce _ _ _ (h _) _)) ..).leads
theorem State.writeRowS_leads {a : Acc} {addr : Nat} {d : W32} {judge : Env → Blk → Option (BitVec 2)} {eff : State → State} (s : State)
    (h : ∀ s : State, s.Keeps (eff s)) : s.Leads (s.writeRowS a addr d judge eff) := by
  refine (State.access_keeps (fun s => ?_) ..).leads
  split
  · exact .blk s (by simp)
  · exact .ite (.blk s (by simp)) ((h s).trans (.blk _ (by simp)))
theorem State.hostRow_leads {f : State → State} (s : State) (h : ∀ s : State, s.Keeps (f s)) : s.Leads (s.hostRow f) :=
  (((State.onBlock_keeps (f := Blk.freshResp) (fun b => by simp) s).trans (h _)).trans (State.settle_keeps _)).leads
theorem State.arrivalRow_leads {m : Instr} {f : State → State} (s : State) (h : ∀ s : State, s.Keeps (f s)) : s.Leads (s.arrivalRow m f) :=
  s.hostRow_leads fun s =>
    .ite (((State.onBlock_keeps (f := (·.arrived m)) (fun b => by simp) s).trans (h _)).trans (State.onBlock_keeps (fun b => by simp) _)) (.refl s)
theorem State.accessSettled_leads {go : State → State} (s : State) (h : ∀ s : State, s.Keeps (go s)) (a : Acc) (addr : BitVec 22)
    (wdata : Option W32) : s.Leads (.next (s.access a addr wdata go).settle) :=
  ((State.access_keeps h ..).trans (State.settle_keeps _)).leads
theorem State.atomRow_leads (a : Acc) (op : AtomOp) (wide : Bool) (s : State) : s.Leads (s.atomRow a op wide) :=
  s.accessSettled_leads (State.perform_keeps _) _ _ _
theorem State.rungRow_leads (by' : OrderBy) (r : Rung) (s : State) : s.Leads (s.rungRow by' r) := by
  cases by' with
  | warden c => exact s.onWork_leads fun x b => by simp
  | host a =>
    refine (State.access_keeps (fun s => .blk s ?_) ..).leads
    split
    · simp
    · split <;> simp

/-! ### Every command -/

/-- A command other than a pour edge and the resets keeps the weave in force, the straps and the canonical form of the steep buffer. -/
theorem exec_leads (i : Instr) (s : State) (hreset : i ≠ .poresetN) (hpour : i ≠ .pourEdge)
    (hcold : ∀ n k, i ≠ .coldStart n k) (hwarm : i ≠ .warmStart) : s.Leads (exec i s) := by
  cases i with
  | poresetN => exact absurd rfl hreset
  | pourEdge => exact absurd rfl hpour
  | coldStart n k => exact absurd rfl (hcold n k)
  | warmStart => exact absurd rfl hwarm
  -- work after which commands may start
  | nop | launch | stand | unstand | hitch | tie | copy | fill | imemLoad | weightStream | watch | mark | tag | membar |
  engineAcknowledge | queueWake | commandComplete | compAdvance | tautSelection | slackSelection | stealRequest | tileComplete |
  tileFault | launchRetire | twinCompare | engineClearDone | hangDeclared | contextStepDone | engineResetDone | eccUe |
  breakUnitFire =>
    simp only [exec, execNop, execLaunch, execStand, execUnstand, execHitch, execTie, execCopy, execFill, execImemLoad,
      execWeightStream, execWatch, execMark, execTag, execMembar, execEngineAcknowledge, execQueueWake, execCommandComplete,
      execCompAdvance, execTautSelection, execSlackSelection, execStealRequest, execTileComplete, execTileFault, execLaunchRetire,
      execTwinCompare, execEngineClearDone, execHangDeclared, execContextStepDone, execEngineResetDone, execEccUe,
      execBreakUnitFire]
    exact s.onWork_leads fun x b => by simp
  -- work of the block alone
  | queueFree | next | jump | tret | branch | call | ret | loop | dispatch | wait | microTrap | storeEcc | knotEccError |
  quantumExpiry | preemptRequest | saveComplete | restoreComplete | tileStart | pendingWriteLand | indexFetchReturn |
  drawRowComplete | checkComplete | quietPourReady | slotAllocationSwitch | pourDone | holdEnd | rdata | rsp | creditReturn | nak
  | train | trainingTimeout | intakeBeat | damageEntry | destinationFree | itemWritesLanded | keepCycle | levelStep |
  capWindowBoundary | sleepEntry | wake | clockAcknowledge | droopWarn | rampBackStart | rampBackStep | selfTestComplete |
  wardenBooted | startDone | patchBeat | patchDigestDone | signatureVerified | keyBeat | decryptDone | romLoadDone | patchApplied
  | rungOrder | pcycAckTimeout | wardenStop | belayIn | triggerFire | tangleDone | counterSample | loadUpdate | issueSlot =>
    simp only [exec, execQueueFree, execNext, execJump, execTret, execBranch, execCall, execRet, execLoop, execDispatch, execWait,
      execMicroTrap, execStoreEcc, execKnotEccError, execQuantumExpiry, execPreemptRequest, execSaveComplete, execRestoreComplete,
      execTileStart, execPendingWriteLand, execIndexFetchReturn, execDrawRowComplete, execCheckComplete, execQuietPourReady,
      execSlotAllocationSwitch, execPourDone, execHoldEnd, execRdata, execRsp, execCreditReturn, execNak, execTrain,
      execTrainingTimeout, execIntakeBeat, execDamageEntry, execDestinationFree, execItemWritesLanded, execKeepCycle,
      execLevelStep, execCapWindowBoundary, execSleepEntry, execWake, execClockAcknowledge, execDroopWarn, execRampBackStart,
      execRampBackStep, execSelfTestComplete, execWardenBooted, execStartDone, execPatchBeat, execPatchDigestDone,
      execSignatureVerified, execKeyBeat, execDecryptDone, execRomLoadDone, execPatchApplied, execRungOrder, execPcycAckTimeout,
      execWardenStop, execBelayIn, execTriggerFire, execTangleDone, execCounterSample, execLoadUpdate, execIssueSlot]
    exact s.onBlk_leads fun x b => by simp
  -- messages of the ring
  | gatherFill | rds | rdonce | rdm | wr | atom | evict | wb | fwd | fwdinv | inv | fwdmiss | invack | ack | wbRefused =>
    simp only [exec, execGatherFill, execRds, execRdonce, execRdm, execWr, execAtom, execEvict, execWb, execFwd, execFwdinv,
      execInv, execFwdmiss, execInvack, execAck, execWbRefused]
    exact s.onMessage_leads fun x b => by simp
  -- messages to the sequencers
  | slotReadReturn | seqMemoryResponse =>
    simp only [exec, execSlotReadReturn, execSeqMemoryResponse]
    exact s.onArrival_leads fun x b => by simp
  -- writes of one register
  | queDoorbell | create | drain | abort | kntTieGo | kntPeakClr | fetch | check | pour | cancel | predReset | memPeakClr | unhold
  | resume | step | seatBelayRequest | capture | go | claim | claimRelease | commit | seatExpertEnable | clear | belayEnter =>
    simp only [exec, execQueDoorbell, execCreate, execDrain, execAbort, execKntTieGo, execKntPeakClr, execFetch, execCheck,
      execPour, execCancel, execPredReset, execMemPeakClr, execUnhold, execResume, execStep, execSeatBelayRequest, execCapture,
      execGo, execClaim, execClaimRelease, execCommit, execSeatExpertEnable, execClear, execBelayEnter]
    exact s.writeRow_leads fun x b => by simp
  -- atomics
  | atomicAdd | atomicSwap | atomicCas | atomicUmax | atomicAnd | atomicOr =>
    simp only [exec, execAtomicAdd, execAtomicSwap, execAtomicCas, execAtomicUmax, execAtomicAnd, execAtomicOr]
    exact s.atomRow_leads _ _ _
  -- rungs of recovery
  | engineReset | partitionReset | blockReset | powerCycle =>
    simp only [exec, execEngineReset, execPartitionReset, execBlockReset, execPowerCycle]
    exact s.rungRow_leads _ _
  -- reads of one register, accesses of the host port, and the rows of its end
  | kntWinValLoRead =>
    simp only [exec, execKntWinValLoRead]
    exact (State.access_keeps (fun s => .blk s (by simp)) ..).leads
  | registerWrite | snapshotRead | release =>
    simp only [exec, execRegisterWrite, execSnapshotRead, execRelease]
    exact s.accessSettled_leads (State.perform_keeps _) _ _ _
  | apertureRead | apertureWrite =>
    simp only [exec, execApertureRead, execApertureWrite]
    exact s.accessSettled_leads (fun s => s.aperture_keeps _ _) _ _ _
  | steepWrite =>
    simp only [exec, execSteepWrite]
    exact s.writeRowS_leads fun s => s.steepStore_keeps _ _
  | set =>
    simp only [exec, execSet]
    exact s.writeRowS_leads fun s => s.setTime_keeps _
  | data =>
    simp only [exec, execData]
    exact s.arrivalRow_leads fun s => s.dataAt_keeps _ _ _ _
  | cmpMessage =>
    simp only [exec, execCmpMessage]
    exact s.arrivalRow_leads fun s => s.cmpAt_keeps _ _ _ _
  | tieApply =>
    simp only [exec, execTieApply]
    exact s.hostRow_leads fun s => s.onBlock_keeps fun b => by simp
  | tapAccess =>
    simp only [exec, execTapAccess]
    exact s.hostRow_leads fun s => s.onBlock_keeps fun b => by simp
  | belayStopped =>
    simp only [exec, execBelayStopped]
    exact s.hostRow_leads fun s => s.onBlock_keeps fun b => by simp
  | emulatedAccessDone =>
    simp only [exec, execEmulatedAccessDone]
    exact s.hostRow_leads fun s => s.serveWarden_keeps.trans (State.onBlock_keeps (fun b => by simp) _)
  -- fabric time
  | refEdge =>
    simp only [exec, execRefEdge]
    exact (State.Keeps.ite (.refl s) s.refEdge_keeps).leads
  | timeLoad v =>
    simp only [exec, execTimeLoad]
    refine State.Keeps.leads ?_
    split
    · exact .refl s
    · exact ⟨Blk.startEdge_inForce s.blk, rfl, id⟩
  | timePps =>
    simp only [exec, execTimePps]
    exact (State.Keeps.ite (.refl s) (s.setTime_keeps _)).leads
  | holdover =>
    simp only [exec, execHoldover]
    exact (State.Keeps.ite (.refl s) (s.setTime_keeps _)).leads
  | fetchComplete =>
    simp only [exec, execFetchComplete]
    refine State.Keeps.leads ?_
    split
    · exact .ite (s.fetchDone_keeps _) (.refl s)
    · exact .refl s
  -- rows whose effect has cases
  | fencedComplete q =>
    simp only [exec, execFencedComplete]
    refine s.onWork_leads fun x b => Blk.ite_keeps rfl ?_
    split
    · rfl
    · split <;> simp
  | waiterWake =>
    simp only [exec, execWaiterWake]
    refine s.onWork_leads fun x b => ?_
    split <;> simp
  | stealComplete e =>
    simp only [exec, execStealComplete]
    refine s.onWork_leads fun x b => ?_
    split <;> simp
  | standingRunSend e =>
    simp only [exec, execStandingRunSend]
    refine s.onWork_leads fun x b => Blk.ite_keeps rfl ?_
    split <;> simp
  | descriptorCopyDone e =>
    simp only [exec, execDescriptorCopyDone]
    refine s.onWork_leads fun x b => ?_
    split <;> simp
  | thirdIssue t =>
    simp only [exec, execThirdIssue]
    refine s.onWork_leads fun x b => ?_
    split <;> simp
  | caddyDrainWrite c =>
    simp only [exec, execCaddyDrainWrite]
    refine s.onWork_leads fun x b => ?_
    split <;> simp
  | membarScanDone q n =>
    simp only [exec, execMembarScanDone]
    refine s.onWork_leads fun x b => ?_
    split
    · refine Blk.ite_keeps ?_ rfl
      split <;> simp
    · rfl
  | statusRecordAck k resp =>
    simp only [exec, execStatusRecordAck]
    refine s.onArrival_leads fun x b => ?_
    split
    · simp
    · split <;> simp
  | flitReceive f =>
    simp only [exec, execFlitReceive]
    refine s.onBlk_leads fun x b => Blk.ite_keeps rfl ?_
    split <;> simp
  | replayTimeout p =>
    simp only [exec, execReplayTimeout]
    refine s.onBlk_leads fun x b => ?_
    split <;> simp
  | rungTimeout r =>
    simp only [exec, execRungTimeout]
    refine s.onBlk_leads fun x b => Blk.ite_keeps rfl ?_
    split
    · split <;> simp
    · simp
    · simp
    · rfl
  | eccCe code unit addr =>
    simp only [exec, execEccCe]
    refine s.onBlk_leads fun x b => Blk.ite_keeps rfl ?_
    cases unitEngine unit <;> simp
  | counterSelect a e =>
    simp only [exec, execCounterSelect]
    cases e with
    | none => exact s.writeRow_leads fun x b => by simp
    | some e => exact s.writeRow_leads fun x b => by simp
  | bundleIssue e =>
    simp only [exec, execBundleIssue]
    exact s.onBlk_leads fun x b => by simp
  | sysResetN =>
    simp only [exec, execSysResetN]
    exact s.onBlk_leads fun x b => by simp

/-! ### Resets and the pour edge -/

theorem State.cold_inForce (n : Nat) (k : BitVec 256) (s : State) : (s.cold n k).blk.inForce = s.blk.inForce := by
  unfold State.cold; dsimp only
  split
  · rfl
  · split
    · rfl
    · simp
theorem State.cold_steepWf (n : Nat) (k : BitVec 256) {s : State} (h : s.SteepWf) : (s.cold n k).SteepWf := by
  unfold State.cold
  split
  · exact h
  · exact Memory.wf_empty
theorem State.sysRelease_strap (s : State) : s.sysRelease.env.strap = s.env.strap := by
  unfold State.sysRelease; dsimp only
  (repeat' split) <;> rfl
theorem State.sysRelease_steepWf {s : State} (h : s.SteepWf) : s.sysRelease.SteepWf := by
  unfold State.sysRelease; dsimp only
  split
  · exact h
  · split
    · exact h
    · split
      · exact h
      · split
        · exact Memory.wf_empty
        · exact h
/-- But for a cold start that SYS_RESET_N cut short, which begins again from its first step. -/
theorem State.sysRelease_inForce {s : State}
    (h : s.blk.start.kind ≠ 1 ∨ s.blk.start.done = true ∨ s.blk.start.waits = true ∨ s.blk.start.sysLow = false) :
    s.sysRelease.blk.inForce = s.blk.inForce := by
  unfold State.sysRelease; dsimp only
  split
  · rfl
  · split
    · rfl
    · split
      · simp
      · split
        · simp_all
        · simp

/-! ### The statements -/

/-- Settles O58: every command but a pour and the resets keeps the weave in force and the straps. -/
theorem weaveAndStrapsStand : Obligations.WeaveAndStrapsStand := by
  intro i s u hu hreset
  refine ⟨fun hpour hwarm => Blk.inForce_eq_iff.1 ?_, fun hcold => ?_⟩
  · by_cases hw : i = .warmStart
    · subst hw; cases hu; exact State.sysRelease_inForce (hwarm rfl)
    · by_cases hc : ∃ n k, i = .coldStart n k
      · obtain ⟨n, k, rfl⟩ := hc; cases hu; exact State.cold_inForce ..
      · exact (exec_leads i s hreset hpour (fun n k h => hc ⟨n, k, h⟩) hw u hu).inForce
  · by_cases hw : i = .warmStart
    · subst hw; cases hu; exact State.sysRelease_strap s
    · by_cases hp : i = .pourEdge
      · subst hp; cases hu; rfl
      · exact (exec_leads i s hreset hp hcold hw u hu).strap

/-- Every command keeps the steep buffer in its canonical form. -/
theorem exec_keeps_steepWf {i : Instr} {s u : State} (h : s.SteepWf) (hu : exec i s = .next u) : u.SteepWf := by
  by_cases hw : i = .warmStart
  · subst hw; cases hu; exact State.sysRelease_steepWf h
  by_cases hc : ∃ n k, i = .coldStart n k
  · obtain ⟨n, k, rfl⟩ := hc; cases hu; exact State.cold_steepWf _ _ h
  by_cases hp : i = .pourEdge
  · subst hp; cases hu; exact h
  by_cases hr : i = .poresetN
  · subst hr; cases hu; exact Memory.wf_empty
  exact (exec_leads i s hr hp (fun n k h => hc ⟨n, k, h⟩) hw u hu).steep h

/-- Settles O59: by cases over the commands; with none waiting the steep buffer does not change. -/
theorem steepStaysCanonical : Obligations.SteepStaysCanonical := by
  intro s u h hu
  unfold step at hu
  split at hu
  · cases hu
    unfold tick
    split <;> exact h
  · rename_i c rest _
    exact exec_keeps_steepWf (s := { s with pending := rest }) h hu

end Sys2Proof.Machine

/-! # After a pour, and the reset state

O60 is read off the reset state. O29 fails for a state no run reaches; its counterexample needs that nothing starts in a
block without commands and queues. -/

namespace Sys2Proof.Machine

/-- Settles O60: the reset state is given field by field, and a unit without an entry in its map has its default. -/
theorem resetState : Obligations.ResetState :=
  ⟨rfl, Memory.wf_empty, rfl, rfl, fun _ => rfl, rfl, rfl, rfl, rfl, rfl, fun _ => rfl, fun _ => rfl⟩

/-- With no command entered and no queue to serve, nothing starts (07 R227). -/
theorem Blk.Rests.pump_eq {b : Blk} (h : b.Rests) (x : Env) : b.pump x = b := by
  obtain ⟨hsb, hseq⟩ := h
  have hstart : b.startEligible x = b := by simp [Blk.startEligible, hsb]
  have hserve : ∀ s < 4, b.serve x s = b := fun s hs => b.serve_rests x s (hseq s hs).1 (hseq s hs).2
  simp [Blk.pump, hstart, range, List.range_succ, hserve]

/-- A running block whose engine 1 waits to be cleared. Its gather cache holds, with a deferred invalidation, a line under
a number that no address has: the answer to that invalidation names line 0, and drops the copy of line 0. -/
def oddLineBlk : Blk :=
  { start := { poresetLow := false, done := true }
    wv := { clearing := [1] }
    mem := { agents := [(1, [(2 ^ 58, { st := .s, data := 0, hold := false, defer := some none, used := 0 })])] } }
def oddLineState : State := { State.reset with blk := oddLineBlk }

/-- Clearing engine 1 leaves the odd line in its cache. -/
theorem oddLineState_clear {u : State} (h : exec (.engineClearDone 1) oddLineState = .next u) : u.blk.mem.copies 1 ≠ [] := by
  cases h
  decide +kernel

/-- Refutes O29, for a state that no run reaches: a cache may hold a line under a number of 2^58 or more, which the answer to
its deferred invalidation does not drop, so the gather cache of a cleared engine is not empty. -/
theorem not_afterPour : ¬ Obligations.AfterPour := by
  unfold Obligations.AfterPour
  intro h
  obtain ⟨c, hexec, -, -, -, -, hcopies, -, -, hc⟩ :=
    (h oddLineState).2 1 (by decide) (by decide) (by decide) (by decide) (by decide)
  have hrests : c.Rests := by
    rw [hc]
    exact ⟨rfl, fun _ _ => ⟨rfl, rfl⟩⟩
  refine oddLineState_clear hexec ?_
  rw [hrests.pump_eq]
  exact hcopies

end Sys2Proof.Machine

/-! # Served writes and the slots of a memory port

A whole write of the steward to a started port comes down to its effect and one response. A slot of a port that is up is
cut in three: the request that may leave (`Blk.issueReq`), the port after its flit (`MPort.passSlot`), and the injection
units, which do nothing here. -/

namespace Sys2Proof.Machine

/-! ### Writes that are served -/

section
variable {s : State} {a : Acc}

/-- A served access is performed on the block that shows no response yet. -/
theorem State.access_served (hb : s.blk.Serves a) (addr : BitVec 22) (w : Option W32) (go : State → State) :
    s.access a addr w go = go { s with blk := s.blk.freshResp } := by
  obtain ⟨hready, hunfin, hdone, -⟩ := hb
  simp [State.access, hready, hunfin, hdone]

/-- A whole write of the steward to a served port has its effect and is answered (12 R303 to R305). -/
theorem State.writeRow_served (hb : s.blk.Serves a) (hs : s.Steward a) (addr : Nat) (d : W32) (eff : Env → Blk → Blk) :
    s.writeRow a addr d (onSteward · a) eff = .next { s with blk := (eff s.env s.blk.freshResp).respond a.seat true 0 } := by
  have hjudge : onSteward s.env a s.blk.freshResp = none := hs
  simp [State.writeRow, State.access_served hb, Blk.hostWrite, hjudge, hb.2.2.2]

/-- The same for a register whose write reaches beyond the block. -/
theorem State.writeRowS_served (hb : s.blk.Serves a) (hs : s.Steward a) (addr : Nat) (d : W32) (eff : State → State) :
    let u := eff { s with blk := s.blk.freshResp }
    s.writeRowS a addr d (onSteward · a) eff = .next { u with blk := u.blk.respond a.seat true 0 } := by
  have hjudge : onSteward s.env a s.blk.freshResp = none := hs
  simp [State.writeRowS, State.access_served hb, hjudge, hb.2.2.2]

end

/-- The response of a write to a port that showed none is the only one. -/
theorem Blk.respond_wrote (b : Blk) (a : Acc) {c : Blk} (h : c.host.resp = []) : b.Wrote a (c.respond a.seat true 0) := by
  simp [Blk.Wrote, Blk.respond, h]

/-! ### Injection units that do nothing (17 R451) -/

/-- Between the two blocks only the counters of injection units differ, and in the second no unit damages, drops or holds a
flit. -/
def Blk.InjIdle (b c : Blk) : Prop := c = { b with dbg := { b.dbg with injs := c.dbg.injs } } ∧ c.NoInjection

theorem Blk.NoInjection.idle {b : Blk} (h : b.NoInjection) : b.InjIdle b := ⟨rfl, h⟩

theorem Blk.InjIdle.trans {b c d : Blk} (h : b.InjIdle c) (k : c.InjIdle d) : b.InjIdle d := by
  obtain ⟨hc, -⟩ := h
  obtain ⟨hd, hn⟩ := k
  rw [hc] at hd
  exact ⟨hd, hn⟩

theorem Blk.InjIdle.port {b c : Blk} (h : b.InjIdle c) (p : Nat) : c.port p = b.port p := by
  rw [h.1]
  rfl

/-- A unit that holds no flit, with injection off, only counts. -/
theorem Blk.injectUnit_idle {n u : Nat} (hu : u < 4) (beat replay : Bool) {y : List (BitVec n) × Blk} (h : y.2.NoInjection) :
    (Blk.injectUnit beat replay u y).1 = y.1 ∧ y.2.InjIdle (Blk.injectUnit beat replay u y).2 := by
  obtain ⟨hen, hheld⟩ := h
  have hnext : ((y.2.injector u).next false).held = none := by
    rw [← hheld u hu]
    unfold Injector.next
    split <;> rfl
  have heq : Blk.injectUnit beat replay u y = (y.1, y.2.setInjector u ((y.2.injector u).next false)) := by
    simp [Blk.injectUnit, hheld u hu, hen]
  rw [heq]
  refine ⟨rfl, rfl, hen, fun j hj => ?_⟩
  by_cases hju : j = u
  · subst hju
    simpa [Blk.injector, Blk.setInjector] using hnext
  · simpa [Blk.injector, Blk.setInjector, SMap.get_set_ne _ _ _ hju] using hheld j hj

/-- A flit meets units that do nothing, and goes on as it is. -/
theorem Blk.inject_idle {n : Nat} (link : Nat) (dir : Option Bool) (beat replay : Bool) (f : BitVec n) {b : Blk}
    (h : b.NoInjection) : (b.inject link dir beat replay f).1 = [f] ∧ b.InjIdle (b.inject link dir beat replay f).2 := by
  unfold Blk.inject
  refine List.foldlRecOn (range 4) _ (motive := fun (y : List (BitVec n) × Blk) => y.1 = [f] ∧ b.InjIdle y.2) ⟨rfl, h.idle⟩ fun y hy u hu => ?_
  obtain ⟨hflits, hidle⟩ := hy
  obtain ⟨hflits', hidle'⟩ := Blk.injectUnit_idle (List.mem_range.1 hu) beat replay (y := y) hidle.2
  dsimp only
  split
  · exact ⟨hflits, hidle⟩
  · exact ⟨hflits'.trans hflits, hidle.trans hidle'⟩

/-- The flit of a port on MPn_TX meets units that do nothing, and the port is set as it was. -/
theorem Blk.injectTx_idle (p : Nat) (replay : Bool) {b : Blk} (h : b.NoInjection) {f : BitVec 736} (hf : (b.port p).tx = [f]) :
    ∃ d, b.InjIdle d ∧ b.injectTx p replay = d.setPort p (b.port p) := by
  obtain ⟨hflits, hidle⟩ := Blk.inject_idle (0x300 + p) (some false) (bit f 0 || bit f 78) replay f h
  refine ⟨_, hidle, ?_⟩
  have hport : (b.inject (0x300 + p) (some false) (bit f 0 || bit f 78) replay f).2.port p = b.port p := hidle.port p
  have hsame : ({ b.port p with tx := [f] } : MPort) = b.port p := by rw [← hf]
  simp [Blk.injectTx, hf, hflits, Blk.modPort, hport, hsame]

/-! ### A slot of a port passes (02 R48, 10 R278) -/

/-- What a slot of port p leaves: the other ports, and besides the ports the counts of load, of injection units and of events. -/
def Blk.PortWork (b : Blk) (p : Nat) (c : Blk) : Prop :=
  c = { b with
      mem := { b.mem with ports := c.mem.ports }, dsp := { b.dsp with loadNow := c.dsp.loadNow }
      dbg := { b.dbg with injs := c.dbg.injs }, trc := { b.trc with tally := c.trc.tally } }
    ∧ ∀ j, j ≠ p → c.port j = b.port j

section
variable {b c d : Blk} {p : Nat}

theorem Blk.PortWork.refl (b : Blk) (p : Nat) : b.PortWork p b := ⟨rfl, fun _ _ => rfl⟩
theorem Blk.PortWork.trans (h : b.PortWork p c) (k : c.PortWork p d) : b.PortWork p d := by
  obtain ⟨hc, hcj⟩ := h
  obtain ⟨hd, hdj⟩ := k
  refine ⟨?_, fun j hj => (hdj j hj).trans (hcj j hj)⟩
  rw [hc] at hd
  exact hd
theorem Blk.portWork_setPort (b : Blk) (p : Nat) (v : MPort) : b.PortWork p (b.setPort p v) :=
  ⟨rfl, fun _ hj => b.setPort_port_ne v hj⟩
theorem Blk.portWork_bump (b : Blk) (p key n : Nat) : b.PortWork p (b.bump key n) := ⟨rfl, fun _ _ => rfl⟩
theorem Blk.portWork_noteSlot (b : Blk) (p slot : Nat) (used : Bool) : b.PortWork p (b.noteSlot slot used) := by
  unfold Blk.noteSlot
  split <;> exact ⟨rfl, fun _ _ => rfl⟩
theorem Blk.InjIdle.portWork (h : b.InjIdle c) (p : Nat) : b.PortWork p c := by
  refine ⟨?_, fun j _ => h.port j⟩
  obtain ⟨hc, -⟩ := h
  rw [hc]

@[simp] theorem Blk.noteSlot_port (slot : Nat) (used : Bool) : (b.noteSlot slot used).port p = b.port p := by
  unfold Blk.noteSlot
  split <;> rfl
@[simp] theorem Blk.noteSlot_trc (slot : Nat) (used : Bool) : (b.noteSlot slot used).trc = b.trc := by
  unfold Blk.noteSlot
  split <;> rfl
@[simp] theorem Blk.noteSlot_dbg (slot : Nat) (used : Bool) : (b.noteSlot slot used).dbg = b.dbg := by
  unfold Blk.noteSlot
  split <;> rfl

/-- A port whose request r has left with tag t. -/
def MPort.issue (v : MPort) (t : Nat) (r : PortReq) : MPort :=
  let h := v.holderOf r
  let tags := PMap.put t { r with holder := h } v.tags
  { v with
    reqCred := v.reqCred - 1, queue := v.queue.erase r, tags := tags, peak := max v.peak (tags.length + v.stale.length)
    wdQueue := if r.write then v.wdQueue ++ [(t, r.data, r.mask)] else v.wdQueue
    rr := SMap.set 0 v.rr h (if 16 ≤ h then (r.turn + 1) % 64 else (r.unit + 1) % 8) }

/-- A request of the slot leaves with a tag and a credit. -/
theorem Blk.issueReq_some {r : PortReq} {t : Nat} (hr : (b.port p).slotRequest (b.port p).slot = some r)
    (ht : (b.port p).freeTag = some t) (hrun : b.running = true) (hcred : (b.port p).reqCred ≠ 0)
    (hlim : (b.port p).tagsOf ((b.port p).holderOf r) < (b.port p).tagLimit ((b.port p).holderOf r)) :
    (b.issueReq p).2 = some (t, r) ∧ (b.issueReq p).1.port p = (b.port p).issue t r ∧ b.PortWork p (b.issueReq p).1
      ∧ (b.issueReq p).1.dbg = b.dbg := by
  have hbump : ∀ c : Blk, c.port p = (b.port p).issue t r → b.PortWork p c → c.dbg = b.dbg →
      let d := if (b.port p).slot < 56 then c.bump (evBlk 0x12 p) 1 else c
      d.port p = (b.port p).issue t r ∧ b.PortWork p d ∧ d.dbg = b.dbg := by
    intro c hport hwork hdbg d
    simp only [d]
    split
    · exact ⟨hport, hwork.trans (c.portWork_bump _ _ _), hdbg⟩
    · exact ⟨hport, hwork, hdbg⟩
  simp only [Blk.issueReq, hr, ht, hrun, hcred, Nat.not_le.2 hlim, Bool.not_true, decide_false, Bool.or_false,
    Bool.false_eq_true, if_false]
  refine ⟨trivial, hbump _ ?_ ?_ ?_⟩
  · rw [Blk.noteSlot_port]
    exact b.setPort_port p _
  · exact (((b.portWork_setPort p _).trans (Blk.portWork_bump _ _ _ _))).trans (Blk.portWork_noteSlot _ _ _ _)
  · simp

/-- With no request, no tag or no credit nothing leaves. -/
theorem Blk.issueReq_none (h : b.running = false ∨ (b.port p).slotRequest (b.port p).slot = none ∨ (b.port p).freeTag = none
      ∨ (b.port p).reqCred = 0 ∨ ∀ r, (b.port p).slotRequest (b.port p).slot = some r →
          (b.port p).tagLimit ((b.port p).holderOf r) ≤ (b.port p).tagsOf ((b.port p).holderOf r)) :
    b.issueReq p = (b.noteSlot (b.port p).slot false, none) := by
  unfold Blk.issueReq
  dsimp only
  split
  · rfl
  next r hr =>
    split
    · rfl
    next t ht =>
      refine if_pos ?_
      simp only [hr, ht, reduceCtorEq, false_or, Option.some.injEq, forall_eq'] at h
      simpa [or_assoc] using h

/-- A WDATA beat that leaves takes a credit and its place in the queue, and nothing else of the port. -/
theorem MPort.takeWd_eq (v : MPort) : v.takeWd.1 = { v with wdCred := v.takeWd.1.wdCred, wdQueue := v.takeWd.1.wdQueue } := by
  unfold MPort.takeWd
  split
  · split <;> rfl
  · rfl
theorem MPort.takeWd_nil {v : MPort} (h : v.wdQueue = []) : v.takeWd = (v, none) := by
  unfold MPort.takeWd
  rw [h]
theorem MPort.takeWd_cons {v : MPort} {w : Nat × Line × W64} {ws : List (Nat × Line × W64)} (h : v.wdQueue = w :: ws)
    (hcred : v.wdCred ≠ 0) : v.takeWd = ({ v with wdCred := v.wdCred - 1, wdQueue := ws }, some w) := by
  unfold MPort.takeWd
  rw [h]
  exact if_neg hcred

/-- The port after its slot: a WDATA beat and a flit have left, and the next slot is due. -/
def MPort.passSlot (v : MPort) (req : Option (Nat × PortReq)) : MPort :=
  { v.takeWd.1.sendFlit req v.takeWd.2 with slot := (v.slot + 1) % 64 }

section
variable (v : MPort) (req : Option (Nat × PortReq))

@[simp] theorem MPort.passSlot_tags : (v.passSlot req).tags = v.tags := by rw [MPort.passSlot, v.takeWd_eq]; rfl
@[simp] theorem MPort.passSlot_queue : (v.passSlot req).queue = v.queue := by rw [MPort.passSlot, v.takeWd_eq]; rfl
@[simp] theorem MPort.passSlot_reqCred : (v.passSlot req).reqCred = v.reqCred := by rw [MPort.passSlot, v.takeWd_eq]; rfl
@[simp] theorem MPort.passSlot_slot : (v.passSlot req).slot = (v.slot + 1) % 64 := rfl
@[simp] theorem MPort.passSlot_txSeq : (v.passSlot req).lnk.txSeq = v.lnk.txSeq + 1 := by rw [MPort.passSlot, v.takeWd_eq]; rfl

end

/-- A slot of a port that is up passes, whatever was issued in it. -/
theorem Blk.issueSlot_up (x : Env) {p : Fin 4} (hup : (b.port p).link = .up) (hno : b.NoInjection)
    (hwork : b.PortWork p (b.issueReq p).1) (hdbg : (b.issueReq p).1.dbg = b.dbg)
    (hslot : ((b.issueReq p).1.port p).slot = (b.port p).slot) :
    (b.issueSlot x p).port p = ((b.issueReq p).1.port p).passSlot (b.issueReq p).2 ∧ b.PortWork p (b.issueSlot x p)
      ∧ (b.issueSlot x p).trc = (b.issueReq p).1.trc := by
  generalize hy : b.issueReq p = y at *
  have heq : b.issueSlot x p = (y.1.setPort p ((y.1.port p).passSlot y.2)).injectTx p false := by
    simp only [Blk.issueSlot, hup, hy, MPort.passSlot, hslot]
  have hno' : (y.1.setPort p ((y.1.port p).passSlot y.2)).NoInjection := by
    simpa only [Blk.NoInjection, Blk.injector, Blk.setPort_dbg, hdbg] using hno
  obtain ⟨d, hidle, hset⟩ := Blk.injectTx_idle p false hno' (f := _) (by rw [Blk.setPort_port]; rfl)
  rw [heq, hset, Blk.setPort_port, Blk.setPort_port]
  refine ⟨rfl, ?_, ?_⟩
  · exact ((hwork.trans (y.1.portWork_setPort p _)).trans (hidle.portWork p)).trans (d.portWork_setPort p _)
  · rw [Blk.setPort_trc, hidle.1, Blk.setPort_trc]

end

/-- Settles O37: a slot with a request, a tag and a credit issues it and passes; one without passes alone; a port that trains
sends its training flit; and the peak register is cleared by a served write. -/
theorem portIssue : Obligations.PortIssue := by
  unfold Obligations.PortIssue
  intro s p b v
  have hexec : b.linksRun = true → exec (.issueSlot p) s = .next { s with blk := b.issueSlot s.env p } := by
    intro hrun
    simp only [exec, execIssueSlot, State.onBlk]
    rw [if_pos hrun]
  refine ⟨?_, ?_, ?_, ?_⟩
  · intro r t h hrun hup hrunning hno hr ht hcred hlim
    obtain ⟨hreq, hport, hwork, hdbg⟩ := Blk.issueReq_some hr ht hrunning hcred hlim
    obtain ⟨hport', hwork', -⟩ := Blk.issueSlot_up s.env hup hno hwork hdbg (by rw [hport]; rfl)
    rw [hport, hreq] at hport'
    refine ⟨b.issueSlot s.env p, hexec hrun, ?_, ?_, ?_, ?_, ?_, ?_, ?_, hwork'.1, fun j => hwork'.2 j⟩
    all_goals rw [hport']
    · simp [MPort.issue, v, h, b]
    · intro u hu
      simp [MPort.issue, PMap.find_put_ne _ _ hu, v, b]
    · simp [MPort.issue, v, b]
    · simp [MPort.issue, v, b]
    · simp [MPort.issue, v, b]
    · simp [MPort.issue, v, b]
    · intro hempty hwrite hwd
      have hq : ((b.port p).issue t r).wdQueue = [(t, r.data, r.mask)] := by simp [MPort.issue, hwrite, show (b.port p).wdQueue = [] from hempty]
      rw [MPort.passSlot, MPort.takeWd_cons hq hwd]
      exact ⟨rfl, rfl⟩
  · intro hrun hup hno hnone
    have hissue := Blk.issueReq_none hnone
    have hwork : b.PortWork p (b.issueReq p).1 := by rw [hissue]; exact b.portWork_noteSlot _ _ _
    obtain ⟨hport, hwork', htrc⟩ := Blk.issueSlot_up s.env hup hno hwork (by simp [hissue]) (by simp [hissue])
    rw [hissue] at hport htrc
    simp only [Blk.noteSlot_port, Blk.noteSlot_trc] at hport htrc
    refine ⟨b.issueSlot s.env p, hexec hrun, ?_, ?_, ?_, ?_, ?_, ?_, ?_, fun j => hwork'.2 j⟩
    · simp [hport, v]
    · simp [hport, v]
    · simp [hport, v]
    · simp [hport, v]
    · simp [hport, v]
    · intro hempty
      rw [hport, MPort.passSlot, MPort.takeWd_nil hempty]
      exact ⟨rfl, hempty, rfl⟩
    · have h := hwork'.1
      rw [htrc] at h
      exact h
  · intro hrun htrain hcount
    rw [hexec hrun]
    simp [Blk.issueSlot, show (b.port p).link = .training from htrain, MPort.trainSlot, show (b.port p).training < 32 from hcount, v]
  · intro a hb hs
    have hexec : exec (.memPeakClr a p) s
        = .next { s with blk := (s.blk.freshResp.modPort p MPort.clearPeak).respond a.seat true 0 } := by
      simp only [exec, execMemPeakClr]
      exact State.writeRow_served hb hs _ _ _
    exact ⟨_, hexec, rfl, Blk.respond_wrote _ _ rfl⟩

end Sys2Proof.Machine

/-! # Loading the weave

A write of WV_CTRL or of the steep window is a served write (`State.writeRow_served`), and each has one lemma that says what
it makes of the weave unit in a busy state and outside one. What a fetch and a window write leave in the steep buffer is read
byte by byte. -/

namespace Sys2Proof.Machine

/-! ### Bytes read after writes -/

/-- A write of n whole bytes is read back inside them and leaves the others. -/
theorem Mem.read_writeMask (n : Nat) (m : Mem) (a v x : Nat) :
    Mem.read (Mem.writeMask m a v (2 ^ n - 1) n) x
      = if a ≤ x ∧ x < a + n then BitVec.ofNat 8 (v / 256 ^ (x - a)) else Mem.read m x := by
  induction n generalizing m a v with
  | zero => simp [Mem.writeMask, show ¬ (a ≤ x ∧ x < a) by omega]
  | succ n ih =>
    have hodd : (2 ^ (n + 1) - 1) % 2 = 1 := by have := Nat.one_le_two_pow (n := n); omega
    have hhalf : (2 ^ (n + 1) - 1) / 2 = 2 ^ n - 1 := by omega
    simp only [Mem.writeMask, hodd, if_true, hhalf, ih]
    by_cases hx : x = a
    · subst hx
      simp
    · rw [Mem.read_write_ne _ _ hx]
      refine ite_congr (by simp only [eq_iff_iff]; omega) (fun h => ?_) fun _ => rfl
      have hexp : x - a = x - (a + 1) + 1 := by omega
      rw [hexp, pow_succ', Nat.div_div_eq_div_mul]

/-- A filter by address finds what it keeps. -/
theorem PMap.find_filter {α : Type} (p : Nat → Bool) (m : PMap α) (k : Nat) :
    PMap.find k (m.filter fun c => p c.1) = if p k then PMap.find k m else none := by
  induction m with
  | nil => simp [PMap.find]
  | cons c m ih =>
    obtain ⟨i, v⟩ := c
    rw [List.filter_cons]
    by_cases hk : i = k
    · subst hk
      cases hp : p i <;> simp [PMap.find, hp, ih]
    · split <;> simp [PMap.find, hk, ih]

theorem PMap.find_append {α : Type} (m n : PMap α) (k : Nat) : PMap.find k (m ++ n) = (PMap.find k m).or (PMap.find k n) := by
  induction m with
  | nil => rfl
  | cons c m ih =>
    obtain ⟨i, v⟩ := c
    simp only [List.cons_append, PMap.find, ih]
    split <;> rfl

/-- A fetch gives the bytes below its length and leaves the others (R55). -/
theorem Fetch.read_land (f : Fetch) (m : Mem) (x : Nat) :
    Mem.read (f.land m) x = if x < f.len then Mem.read (Mem.landLines [] f.src 0 f.got) x else Mem.read m x := by
  simp only [Mem.read, SMap.get, Fetch.land, PMap.find_append]
  rw [PMap.find_filter fun i => decide (i < f.len), PMap.find_filter fun i => decide (f.len ≤ i)]
  by_cases h : x < f.len
  · simp [h, Nat.not_le.2 h]
  · simp [h, Nat.not_lt.1 h]

/-! ### WV_CTRL (02 R55 to R58, R469) -/

section
variable {b : Blk}

/-- Several messages, which may be made of the weave unit, enter the ring one after the other. -/
theorem Blk.foldl_send {α : Type} (m : WeaveUnit → α → Instr) (l : List α) (b : Blk) :
    ∃ t, l.foldl (fun b i => b.send (m b.wv i)) b
      = { b with mem := { b.mem with ring := b.mem.ring ++ l.map (m b.wv) }, trc := { b.trc with tally := t } } := by
  induction l generalizing b with
  | nil => exact ⟨b.trc.tally, by simp⟩
  | cons i l ih =>
    obtain ⟨t, ht⟩ := ih (b.send (m b.wv i))
    refine ⟨t, ht.trans ?_⟩
    simp [Blk.send]

theorem fetchBad_iff (src : W64) (len : BitVec 19) : fetchBad src len = true ↔
    src.toNat % 64 ≠ 0 ∨ len.toNat % 8 ≠ 0 ∨ len.toNat < 72 ∨ 262144 < len.toNat := by
  simp [fetchBad, or_assoc]

/-- The block once a fetch of a good source has asked for its lines, but for tallies. -/
def Blk.fetchAsked (b : Blk) : Blk :=
  let src := b.wv.src.toNat
  let len := b.wv.srcLen.toNat
  { b with
    wv := { b.wv with st := .fetching, fetch := some { src := src, len := len, want := (len + 63) / 64 } }
    mem := { b.mem with ring := b.mem.ring ++ (List.range ((len + 63) / 64)).map fun i => .rdonce .weave (lineOf (src + 64 * i)) } }

theorem Blk.wvFetch_eq (b : Blk) : ∃ t, b.wvFetch =
    if fetchBad b.wv.src b.wv.srcLen then b.wvFail 0x1C 0 else { b.fetchAsked with trc := { b.trc with tally := t } } := by
  unfold Blk.wvFetch
  split
  · exact ⟨[], rfl⟩
  · exact Blk.foldl_send (fun v i => .rdonce .weave (lineOf (v.src.toNat + 64 * i))) _ _

/-- A CHECK or POUR begins the check, or fails where nothing is loaded (R57, R58). -/
theorem Blk.wvCheck_eq (act : WvAction) (b : Blk) : b.wvCheck act = { b with wv :=
    if b.wv.st = .empty then { b.wv with st := .failed, errCode := 0x01, errOff := 0, action := none }
    else { b.wv with st := .checking, action := some act } } := by
  unfold Blk.wvCheck
  split <;> rfl

/-- The weave unit with a new QUIET. -/
def Blk.setQuiet (quiet : Bool) (b : Blk) : Blk := { b with wv := { b.wv with quiet := quiet } }

theorem Blk.wvCtrl_fetch (h : b.wv.st.busy = false) (quiet : Bool) :
    b.wvCtrl true false false false quiet = (b.setQuiet quiet).wvFetch := by
  simp [Blk.wvCtrl, Blk.setQuiet, h]
theorem Blk.wvCtrl_fetch_busy (h : b.wv.st.busy = true) (quiet : Bool) :
    b.wvCtrl true false false false quiet = { b with wv := { b.wv with quiet := quiet, wrIgnored := true } } := by
  simp [Blk.wvCtrl, h]
theorem Blk.wvCtrl_check (h : b.wv.st.busy = false) (quiet : Bool) :
    b.wvCtrl false true false false quiet = (b.setQuiet quiet).wvCheck .check := by
  simp [Blk.wvCtrl, Blk.setQuiet, h]
theorem Blk.wvCtrl_pour (h : b.wv.st.busy = false) (quiet : Bool) :
    b.wvCtrl false false true false quiet = (b.setQuiet quiet).wvCheck (.pour quiet) := by
  simp [Blk.wvCtrl, Blk.setQuiet, h]
theorem Blk.wvCtrl_cancel (h : b.wv.st = .waiting) (quiet : Bool) :
    b.wvCtrl false false false true quiet = (b.setQuiet quiet).wvAbandon := by
  simp [Blk.wvCtrl, Blk.setQuiet, h]


end

/-- A write of WV_CTRL that is served takes effect on the block, which shows its response. -/
theorem exec_wvCtrl_fetch {s : State} {a : Acc} (hb : s.blk.Serves a) (hs : s.Steward a) (quiet : Bool) :
    exec (.fetch a quiet) s
      = .next { s with blk := (s.blk.freshResp.wvCtrl true false false false quiet).respond a.seat true 0 } := by
  simp only [exec, execFetch]
  exact State.writeRow_served hb hs _ _ _
theorem exec_wvCtrl_check {s : State} {a : Acc} (hb : s.blk.Serves a) (hs : s.Steward a) (quiet : Bool) :
    exec (.check a quiet) s
      = .next { s with blk := (s.blk.freshResp.wvCtrl false true false false quiet).respond a.seat true 0 } := by
  simp only [exec, execCheck]
  exact State.writeRow_served hb hs _ _ _
theorem exec_wvCtrl_pour {s : State} {a : Acc} (hb : s.blk.Serves a) (hs : s.Steward a) (quiet : Bool) :
    exec (.pour a quiet) s
      = .next { s with blk := (s.blk.freshResp.wvCtrl false false true false quiet).respond a.seat true 0 } := by
  simp only [exec, execPour]
  exact State.writeRow_served hb hs _ _ _
theorem exec_wvCtrl_cancel {s : State} {a : Acc} (hb : s.blk.Serves a) (hs : s.Steward a) (quiet : Bool) :
    exec (.cancel a quiet) s
      = .next { s with blk := (s.blk.freshResp.wvCtrl false false false true quiet).respond a.seat true 0 } := by
  simp only [exec, execCancel]
  exact State.writeRow_served hb hs _ _ _
theorem exec_steepWrite {s : State} {a : Acc} (hb : s.blk.Serves a) (hs : s.Steward a) (word : BitVec 16) (d : W32) :
    let u := State.steepStore word.toNat d { s with blk := s.blk.freshResp }
    exec (.steepWrite a word d) s = .next { u with blk := u.blk.respond a.seat true 0 } := by
  simp only [exec, execSteepWrite]
  exact State.writeRowS_served hb hs _ _ _

/-- A fetch whose lines have all come ends. -/
theorem exec_fetchComplete {s : State} {f : Fetch} (hrun : s.blk.running = true) (hf : s.blk.wv.fetch = some f) (hwant : f.want = 0) :
    exec .fetchComplete s = .next (s.fetchDone f) := by
  simp [exec, execFetchComplete, hf, hrun, hwant]

section
variable {s : State}

theorem State.steepStore_busy (h : s.blk.wv.st.busy = true) (word : Nat) (d : W32) :
    s.steepStore word d = { s with blk := { s.blk with wv := { s.blk.wv with wrIgnored := true } } } := by
  simp [State.steepStore, h]
theorem State.steepStore_idle (h : s.blk.wv.st.busy = false) (word : Nat) (d : W32) :
    s.steepStore word d = { s with
      env := { s.env with steep := Mem.writeMask s.env.steep (4 * word) d.toNat 15 4 }
      blk := { s.blk with
        wv := { s.blk.wv with
          st := .loaded, wrote := true, extent := max (if s.blk.wv.st = .empty then 0 else s.blk.wv.extent) (4 * word + 4) }
        flt := { s.blk.flt with steepBad := s.blk.flt.steepBad.filter fun a => a != 4 * word } } } := by
  simp [State.steepStore, h]

theorem State.fetchDone_bad {f : Fetch} (hst : s.blk.wv.st = .fetching) (hbad : f.bad = true) :
    s.fetchDone f = { s with blk := Blk.wvFail 0x1C 0 { s.blk with wv := { s.blk.wv with fetch := none } } } := by
  simp [State.fetchDone, hst, hbad]
theorem State.fetchDone_good {f : Fetch} (hst : s.blk.wv.st = .fetching) (hgood : f.bad = false) :
    s.fetchDone f = { s with
      env := { s.env with steep := f.land s.env.steep }
      blk := { s.blk with
        wv := { s.blk.wv with fetch := none, st := .loaded, extent := f.len, wrote := true }
        flt := { s.blk.flt with steepBad := s.blk.flt.steepBad.filter fun a => decide (f.len ≤ a) } } } := by
  simp [State.fetchDone, hst, hgood]

end

/-! ### The weave loads -/

/-- Settles O27: each write of WV_CTRL and of the steep window comes down to its effect on the block, and a fetch ends with its
bytes read back. -/
theorem weaveLoads : Obligations.WeaveLoads := by
  unfold Obligations.WeaveLoads
  refine ⟨fun s a quiet => ?_, fun s => ⟨fun a word d => ?_, fun f => ?_⟩⟩
  · intro b v hb hs
    refine ⟨fun hidle => ?_, fun hbusy => ?_, fun hidle => ?_, fun hidle => ?_, fun hwait => ?_⟩
    · refine ⟨_, exec_wvCtrl_fetch hb hs quiet, ?_⟩
      obtain ⟨t, ht⟩ := (s.blk.freshResp.setQuiet quiet).wvFetch_eq
      rw [Blk.wvCtrl_fetch (b := s.blk.freshResp) hidle, ht]
      by_cases hbad : fetchBad (s.blk.freshResp.setQuiet quiet).wv.src (s.blk.freshResp.setQuiet quiet).wv.srcLen = true
      · rw [if_pos hbad, if_pos ((fetchBad_iff v.src v.srcLen).1 hbad)]
        exact ⟨Blk.respond_wrote _ _ rfl, ⟨rfl, rfl⟩, rfl⟩
      · rw [if_neg hbad, if_neg (mt (fetchBad_iff v.src v.srcLen).2 hbad)]
        exact ⟨Blk.respond_wrote _ _ rfl, ⟨rfl, rfl⟩, rfl⟩
    · refine ⟨_, exec_wvCtrl_fetch hb hs quiet, ?_⟩
      rw [Blk.wvCtrl_fetch_busy (b := s.blk.freshResp) hbusy]
      exact ⟨rfl, Blk.respond_wrote _ _ rfl⟩
    · refine ⟨_, exec_wvCtrl_check hb hs quiet, ?_⟩
      rw [Blk.wvCtrl_check (b := s.blk.freshResp) hidle, Blk.wvCheck_eq]
      exact ⟨rfl, Blk.respond_wrote _ _ rfl⟩
    · refine ⟨_, exec_wvCtrl_pour hb hs quiet, ?_⟩
      rw [Blk.wvCtrl_pour (b := s.blk.freshResp) hidle, Blk.wvCheck_eq]
      exact ⟨rfl, Blk.respond_wrote _ _ rfl⟩
    · refine ⟨_, exec_wvCtrl_cancel hb hs quiet, ?_⟩
      rw [Blk.wvCtrl_cancel (b := s.blk.freshResp) hwait]
      exact ⟨Blk.respond_wrote _ _ rfl, rfl, rfl⟩
  · intro hb hs
    refine ⟨_, exec_steepWrite hb hs word d, ?_⟩
    by_cases hbusy : s.blk.wv.st.busy = true
    · rw [State.steepStore_busy (s := { s with blk := s.blk.freshResp }) hbusy]
      exact ⟨Blk.respond_wrote _ _ rfl, rfl, rfl, rfl, rfl, fun _ => ⟨rfl, rfl⟩, fun h => by simp [hbusy] at h⟩
    · rw [State.steepStore_idle (s := { s with blk := s.blk.freshResp }) (by simpa using hbusy)]
      refine ⟨Blk.respond_wrote _ _ rfl, rfl, rfl, rfl, rfl, fun h => absurd h hbusy, fun _ => ⟨rfl, fun i hi => ?_, fun x hx => ?_⟩⟩
      · exact (Mem.read_writeMask 4 _ _ _ _).trans (by simp [hi])
      · exact (Mem.read_writeMask 4 _ _ _ _).trans (if_neg (by omega))
  · intro hst hrun hf hwant
    rw [exec_fetchComplete hrun hf hwant]
    refine ⟨fun hgood => ⟨_, rfl, ?_⟩, fun hbad => ?_⟩
    · rw [State.fetchDone_good hst hgood]
      refine ⟨rfl, rfl, rfl, fun x hx => ?_, fun x hx => ?_, rfl⟩
      · exact (f.read_land _ x).trans (if_pos hx)
      · exact (f.read_land _ x).trans (if_neg (Nat.not_lt.2 hx))
    · rw [State.fetchDone_bad hst hbad]
      rfl

end Sys2Proof.Machine

/-! # The edge of a pour

At P every unit whose role changes does its part. `Blk.pourFixed` is the block without what those parts reach; each of them
leaves it as it was, so after P it is that of the block that has adopted the weave. -/

namespace Sys2Proof.Machine

/-- The block without what the edge of a pour reaches, apart from the weave it puts in force. -/
def Blk.pourFixed (b : Blk) : Blk :=
  { b with
    eng := [], sb := [], stand := [], dsp := {}, qs := [], sq := [], kn := {}, ik := [], freeCtr := 0
    wv := { b.wv with staleCnt := 0, retiring := [], roleQ := [], roleE := [], roleI := [], roleS := [], clearing := [] }
    flt := { b.flt with log := [], logCnt := 0, logNext := 0, logMs := 0, dropped := 0, irqLog := false, seatLogs := [], twins := [] }
    pwr := { b.pwr with under := false, evUnder := false }
    host := { b.host with seats := [] }
    mem := { b.mem with ring := [], saves := [] }
    trc := { b.trc with tally := [] } }

/-- The block takes from c what the edge of a pour reaches. -/
def Blk.pourTaken (b c : Blk) : Blk :=
  { b with
    eng := c.eng, sb := c.sb, stand := c.stand, dsp := c.dsp, qs := c.qs, sq := c.sq, kn := c.kn, ik := c.ik, freeCtr := c.freeCtr
    wv := { b.wv with
      staleCnt := c.wv.staleCnt, retiring := c.wv.retiring, roleQ := c.wv.roleQ, roleE := c.wv.roleE, roleI := c.wv.roleI
      roleS := c.wv.roleS, clearing := c.wv.clearing }
    flt := { b.flt with
      log := c.flt.log, logCnt := c.flt.logCnt, logNext := c.flt.logNext, logMs := c.flt.logMs, dropped := c.flt.dropped
      irqLog := c.flt.irqLog, seatLogs := c.flt.seatLogs, twins := c.flt.twins }
    pwr := { b.pwr with under := c.pwr.under, evUnder := c.pwr.evUnder }
    host := { b.host with seats := c.host.seats }
    mem := { b.mem with ring := c.mem.ring, saves := c.mem.saves }
    trc := { b.trc with tally := c.trc.tally } }

/-- Two blocks that agree in the rest differ only in what the edge of a pour reaches. -/
theorem Blk.eq_pourTaken {b c : Blk} (h : c.pourFixed = b.pourFixed) : c = b.pourTaken c :=
  calc
    c = c.pourFixed.pourTaken c := rfl
    _ = b.pourFixed.pourTaken c := by rw [h]
    _ = b.pourTaken c := rfl

@[simp] theorem Blk.foldl_pourFixed {α : Type} {f : Blk → α → Blk} (h : ∀ b x, (f b x).pourFixed = b.pourFixed) (l : List α)
    (b : Blk) : (l.foldl f b).pourFixed = b.pourFixed := by
  induction l generalizing b with
  | nil => rfl
  | cons x l ih => exact (ih _).trans (h b x)
@[simp] theorem Blk.ite_pourFixed (p : Prop) [Decidable p] (b c : Blk) :
    (if p then b else c).pourFixed = if p then b.pourFixed else c.pourFixed := apply_ite ..
theorem Blk.QueueWork.pourFixed {b c : Blk} (h : b.QueueWork c) : c.pourFixed = b.pourFixed := by
  unfold Blk.QueueWork at h
  rw [h]
  rfl

/-! ### Shared operations -/

@[simp] theorem Blk.setQue_pourFixed (b q v) : (Blk.setQue b q v).pourFixed = b.pourFixed := (rfl)
@[simp] theorem Blk.setKnot_pourFixed (b k v) : (Blk.setKnot b k v).pourFixed = b.pourFixed := (rfl)
@[simp] theorem Blk.setEng_pourFixed (b e v) : (Blk.setEng b e v).pourFixed = b.pourFixed := (rfl)
@[simp] theorem Blk.modEng_pourFixed (e f b) : (Blk.modEng e f b).pourFixed = b.pourFixed := (rfl)
@[simp] theorem Blk.setSeq_pourFixed (b s v) : (Blk.setSeq b s v).pourFixed = b.pourFixed := (rfl)
@[simp] theorem Blk.setSeat_pourFixed (b s v) : (Blk.setSeat b s v).pourFixed = b.pourFixed := (rfl)
@[simp] theorem Blk.setIntake_pourFixed (b p v) : (Blk.setIntake b p v).pourFixed = b.pourFixed := (rfl)
@[simp] theorem Blk.bump_pourFixed (b key n) : (Blk.bump b key n).pourFixed = b.pourFixed := (rfl)
@[simp] theorem Blk.staleMsg_pourFixed (b) : (Blk.staleMsg b).pourFixed = b.pourFixed := (rfl)
@[simp] theorem Blk.modEntry_pourFixed (b q n f) : (Blk.modEntry b q n f).pourFixed = b.pourFixed := (rfl)
@[simp] theorem Blk.modStand_pourFixed (b q n f) : (Blk.modStand b q n f).pourFixed = b.pourFixed := (rfl)
@[simp] theorem Blk.unpark_pourFixed (st q n b) : (Blk.unpark st q n b).pourFixed = b.pourFixed := (rfl)
@[simp] theorem Blk.unwake_pourFixed (st q n b) : (Blk.unwake st q n b).pourFixed = b.pourFixed := (rfl)
@[simp] theorem Blk.park_pourFixed (w b) : (Blk.park w b).pourFixed = b.pourFixed := (rfl)
@[simp] theorem Blk.complete_pourFixed (e st rel b) : (Blk.complete e st rel b).pourFixed = b.pourFixed :=
  (b.queueWork_complete e st rel).pourFixed
@[simp] theorem Blk.evalTrigger_pourFixed (q n b) : (Blk.evalTrigger q n b).pourFixed = b.pourFixed :=
  (b.queueWork_evalTrigger q n).pourFixed

/-! ### What a queue that closes does to its commands -/

@[simp] theorem Blk.modLaunch_pourFixed (j f b) : (Blk.modLaunch j f b).pourFixed = b.pourFixed := by simp [Blk.modLaunch]
@[simp] theorem Blk.restIdle_pourFixed (e b) : (Blk.restIdle e b).pourFixed = b.pourFixed := by simp [Blk.restIdle]
@[simp] theorem Blk.unbind_pourFixed (q n b) : (Blk.unbind q n b).pourFixed = b.pourFixed :=
  Blk.foldl_pourFixed (fun c e => c.restIdle_pourFixed e) _ _
@[simp] theorem Blk.unbindSoon_pourFixed (q n b) : (Blk.unbindSoon q n b).pourFixed = b.pourFixed := by
  unfold Blk.unbindSoon
  split <;> simp
@[simp] theorem Blk.unwait_pourFixed (e selected b) : (Blk.unwait e selected b).pourFixed = b.pourFixed := by
  unfold Blk.unwait
  split <;> simp
@[simp] theorem Blk.engIdle_pourFixed (e b) : (Blk.engIdle e b).pourFixed = b.pourFixed := by
  unfold Blk.engIdle
  dsimp only
  split <;> simp
@[simp] theorem Blk.idleIfDone_pourFixed (e b) : (Blk.idleIfDone e b).pourFixed = b.pourFixed := by simp [Blk.idleIfDone]
@[simp] theorem Blk.dropTiles_pourFixed (j b) : (Blk.dropTiles j b).pourFixed = b.pourFixed := by
  unfold Blk.dropTiles
  extract_lets on c drop steals d
  have hc : c.pourFixed = b.pourFixed := Blk.foldl_pourFixed (by simp [Blk.dropQueued]) _ _
  have hd : d.pourFixed = c.pourFixed := by simp only [d]; split <;> rfl
  simp [hd, hc]
@[simp] theorem Blk.figures_pourFixed (q n l b) : (Blk.figures q n l b).pourFixed = b.pourFixed := (rfl)
@[simp] theorem Blk.jobOver_pourFixed (j b) : (Blk.jobOver j b).pourFixed = b.pourFixed := (rfl)
@[simp] theorem Blk.finishLaunch_pourFixed (q n b) : (Blk.finishLaunch q n b).pourFixed = b.pourFixed := by
  unfold Blk.finishLaunch
  repeat' split
  all_goals simp
@[simp] theorem Blk.endLoad_pourFixed (e l st b) : (Blk.endLoad e l st b).pourFixed = b.pourFixed := by simp [Blk.endLoad]
@[simp] theorem Blk.bindStand_pourFixed (e b) : (Blk.bindStand e b).pourFixed = b.pourFixed := by
  unfold Blk.bindStand
  split <;> simp
@[simp] theorem Blk.completeHitch_pourFixed (e b) : (Blk.completeHitch e b).pourFixed = b.pourFixed := by
  unfold Blk.completeHitch
  split <;> simp
@[simp] theorem Blk.finishCmd_pourFixed (e b) : (Blk.finishCmd e b).pourFixed = b.pourFixed := by
  unfold Blk.finishCmd
  cases e.prog <;> dsimp only
  case hitch o => cases o <;> simp
  case unstand o => cases o <;> simp
  case launch l => simp
  case none => simp
  all_goals cases e.ending <;> simp
@[simp] theorem Blk.oweEntry_pourFixed (e es st b) : (Blk.oweEntry e es st b).pourFixed = b.pourFixed := (rfl)
@[simp] theorem Blk.owedBy_pourFixed (q es b) : (Blk.owedBy q es b).pourFixed = b.pourFixed := (rfl)
@[simp] theorem Blk.stopTile_pourFixed (k e b) : (Blk.stopTile k e b).pourFixed = b.pourFixed := (rfl)
@[simp] theorem Blk.closeEntry_pourFixed (st n q b) : (Blk.closeEntry st n q b).pourFixed = b.pourFixed := by
  unfold Blk.closeEntry
  dsimp only
  repeat' split
  all_goals simp
@[simp] theorem Blk.closeStand_pourFixed (st q n b) : (Blk.closeStand st q n b).pourFixed = b.pourFixed := by
  unfold Blk.closeStand
  split <;> simp
@[simp] theorem Blk.trapServed_pourFixed (q cause b) : (Blk.trapServed q cause b).pourFixed = b.pourFixed := by simp [Blk.trapServed]
@[simp] theorem Blk.closeSteps_pourFixed (q b) : (Blk.closeSteps q b).pourFixed = b.pourFixed := by simp [Blk.closeSteps]
@[simp] theorem Blk.closeQueue_pourFixed (q stale b) : (Blk.closeQueue q stale b).pourFixed = b.pourFixed := by simp [Blk.closeQueue]

/-! ### Log and levels -/

@[simp] theorem Blk.logSeat_pourFixed (e s b) : (Blk.logSeat e s b).pourFixed = b.pourFixed := (rfl)
@[simp] theorem Blk.log_pourFixed (x e b) : (Blk.log x e b).pourFixed = b.pourFixed := by
  unfold Blk.log
  split
  · rfl
  · split
    · rfl
    · extract_lets ms cnt c
      split
      · rfl
      · split
        · exact Blk.foldl_pourFixed (fun c s => Blk.logSeat_pourFixed e s c) _ _
        · split <;> rfl
@[simp] theorem Blk.noteUnder_pourFixed (x b) : (Blk.noteUnder x b).pourFixed = b.pourFixed := by
  unfold Blk.noteUnder
  extract_lets u rise pwr c
  have hc : c.pourFixed = b.pourFixed := rfl
  simp [hc]
@[simp] theorem Blk.setLevel_pourFixed (x e k b) : (Blk.setLevel x e k b).pourFixed = b.pourFixed := (rfl)
@[simp] theorem Blk.setTarget_pourFixed (e t b) : (Blk.setTarget e t b).pourFixed = b.pourFixed := by simp [Blk.setTarget]
@[simp] theorem Blk.setTargets_pourFixed (b) : (Blk.setTargets b).pourFixed = b.pourFixed := by simp [Blk.setTargets]
@[simp] theorem Blk.pourLevels_pourFixed (x b) : (Blk.pourLevels x b).pourFixed = b.pourFixed := by simp [Blk.pourLevels]

/-! ### Units whose role changes -/

@[simp] theorem Blk.reindexTwins_pourFixed (o n b) : (Blk.reindexTwins o n b).pourFixed = b.pourFixed := (rfl)
@[simp] theorem Blk.releaseWaiter_pourFixed (w b) : (Blk.releaseWaiter w b).pourFixed = b.pourFixed := by
  unfold Blk.releaseWaiter
  split <;> rfl
@[simp] theorem Blk.pourKnot_pourFixed (o epoch k b) : (Blk.pourKnot o epoch k b).pourFixed = b.pourFixed := (rfl)
@[simp] theorem Blk.pourKnots_pourFixed (o n epoch b) : (Blk.pourKnots o n epoch b).pourFixed = b.pourFixed := by simp [Blk.pourKnots]
@[simp] theorem Blk.pourQueue_pourFixed (o n epoch q b) : (Blk.pourQueue o n epoch q b).pourFixed = b.pourFixed := by
  have htrap : (Blk.trapServed q 3 { b with wv := { b.wv with roleQ := SMap.set 0 b.wv.roleQ q epoch } }).pourFixed = b.pourFixed :=
    Blk.trapServed_pourFixed ..
  unfold Blk.pourQueue
  split
  · rfl
  · extract_lets c d
    split
    · exact htrap
    · split
      · exact (Blk.closeQueue_pourFixed ..).trans htrap
      · exact (Blk.closeQueue_pourFixed ..).trans htrap
      · exact htrap
@[simp] theorem Blk.pourEngine_pourFixed (o n epoch e b) : (Blk.pourEngine o n epoch e b).pourFixed = b.pourFixed := by
  unfold Blk.pourEngine
  split <;> rfl
@[simp] theorem Blk.pourPort_pourFixed (o old epoch p b) : (Blk.pourPort o old epoch p b).pourFixed = b.pourFixed := by
  unfold Blk.pourPort
  extract_lets v open' late gone' gone ties c d wv mem kn e f
  have hd : d.pourFixed = b.pourFixed := by simp only [d]; split <;> rfl
  have he : e.pourFixed = d.pourFixed := rfl
  have hf : f.pourFixed = e.pourFixed := Blk.foldl_pourFixed (fun c _ => c.staleMsg_pourFixed) _ _
  split <;> exact hf.trans (he.trans hd)
@[simp] theorem Blk.pourGrants_pourFixed (n b) : (Blk.pourGrants n b).pourFixed = b.pourFixed := by simp [Blk.pourGrants]
@[simp] theorem Blk.dropClaims_pourFixed (b) : (Blk.dropClaims b).pourFixed = b.pourFixed := by simp [Blk.dropClaims]

end Sys2Proof.Machine

/-! # The pour

The check and the arming, and the edge of the pour as the adoption of the weave (`Blk.adopt`). -/

namespace Sys2Proof.Machine

/-! ### Adopting the weave (R62, R63) -/

section
variable (x : Env) (w : Weave) (b : Blk)

/-- The block whose weave unit has put w in force. -/
def Blk.adopt : Blk :=
  { b with wv := { b.wv with
      epoch := b.wv.epoch + 1, cur := w, next := none, pourTime := x.now, configCrc := crc32c (configBytes w)
      retire := b.wv.retire ++ b.toRetire b.weave? (some w) } }

/-- The edge of a pour adopts the weave; what else it does, it does to units whose role changes. -/
theorem Blk.pourEdge_eq : ∃ d : Blk, d.pourFixed = (b.adopt x w).pourFixed
    ∧ b.pourEdge x w = { d with wv := { d.wv with changing := d.wv.clearing } } := by
  refine ⟨_, ?_, rfl⟩
  have hsaves : ∀ (c : Blk) (r : Nat),
      ({ c with wv := { c.wv with roleS := SMap.set 0 c.wv.roleS r (b.wv.epoch + 1) } } : Blk).pourFixed = c.pourFixed :=
    fun _ _ => rfl
  simp only [Blk.pourLevels_pourFixed, Blk.dropClaims_pourFixed, Blk.pourGrants_pourFixed, Blk.foldl_pourFixed hsaves,
    Blk.foldl_pourFixed (fun c p => Blk.pourPort_pourFixed _ _ _ p c),
    Blk.foldl_pourFixed (fun c e => Blk.pourEngine_pourFixed _ _ _ e c),
    Blk.foldl_pourFixed (fun c q => Blk.pourQueue_pourFixed _ _ _ q c), Blk.pourKnots_pourFixed]
  rfl

end

/-! ### Check and arming (R58 to R62) -/

section
variable {b : Blk}

/-- Ports whose binding a pour changes stop between items' beats. -/
def Blk.stopPorts (ps : List Nat) (b : Blk) : Blk := ps.foldl (fun b p => b.setIntake p { b.intake p with stopped := true }) b

theorem Blk.stopPorts_eq (ps : List Nat) (b : Blk) : b.stopPorts ps = { b with ik := (b.stopPorts ps).ik } := by
  induction ps generalizing b with
  | nil => rfl
  | cons p ps ih => exact ih (b.setIntake p { b.intake p with stopped := true })

theorem Blk.setIntake_stopped {p : Nat} (h : (b.intake p).stopped = true) (j : Nat) :
    ((b.setIntake j { b.intake j with stopped := true }).intake p).stopped = true := by
  by_cases hj : p = j
  · subst hj
    simp
  · rwa [Blk.setIntake_intake_ne _ _ hj]

theorem Blk.stopPorts_keeps {p : Nat} (ps : List Nat) (h : (b.intake p).stopped = true) :
    ((b.stopPorts ps).intake p).stopped = true := by
  induction ps generalizing b with
  | nil => exact h
  | cons j ps ih => exact ih (Blk.setIntake_stopped h j)

theorem Blk.stopPorts_stopped {p : Nat} {ps : List Nat} (h : p ∈ ps) : ((b.stopPorts ps).intake p).stopped = true := by
  induction ps generalizing b with
  | nil => simp at h
  | cons j ps ih =>
    rcases List.mem_cons.1 h with rfl | h
    · exact Blk.stopPorts_keeps ps (by simp)
    · exact ih h

theorem Blk.armPour_eq {w : Weave} (h : b.wv.next = some w) : b.armPour
    = ({ b with wv := { b.wv with st := .pouring } } : Blk).stopPorts (changedPorts b.weave? (some w)) := by
  unfold Blk.armPour
  rw [h]
  rfl

/-- What the check finds in the steep buffer; `last` says that no epoch is left for a pour. -/
def Blk.verdict (x : Env) (last : Bool) (b : Blk) : WvOutcome :=
  weaveCheck x.steep false b.wv.extent b.flt.steepBad b.feat.confirmed last

theorem Blk.checkOver_check (x : Env) (hact : b.wv.action = some .check) : b.checkOver x =
    match b.verdict x false with
    | .good _ => { b with wv := { b.wv with st := .checked, action := none } }
    | .bad code off => b.wvFail code off := by
  simp only [Blk.checkOver, hact, bne_self_eq_false, Bool.and_false, Blk.verdict]
  cases weaveCheck x.steep false b.wv.extent b.flt.steepBad b.feat.confirmed false <;> rfl
theorem Blk.checkOver_pour (x : Env) {quiet : Bool} (hact : b.wv.action = some (.pour quiet)) : b.checkOver x =
    match b.verdict x (decide (b.wv.epoch = 0xFFFFFFFF)) with
    | .good w =>
      let c : Blk := { b with wv := { b.wv with
        action := none, next := some w, changing := changedEngines b.weave? (some w) ++ b.wv.clearing } }
      if quiet then { c with wv := { c.wv with st := .waiting } } else c.armPour
    | .bad code off => b.wvFail code off := by
  have hlast : (WvAction.pour quiet != .check) = true := by simp
  simp only [Blk.checkOver, hact, hlast, Bool.and_true, Blk.verdict]
  cases weaveCheck x.steep false b.wv.extent b.flt.steepBad b.feat.confirmed (decide (b.wv.epoch = 0xFFFFFFFF)) <;> rfl

end

/-- Settles O28: the check and the arming are followed through the cases of the action and of what the check finds, and the
edge of the pour is the adoption of the weave, but for what it does to units whose role changes. -/
theorem pourSteps : Obligations.PourSteps := by
  unfold Obligations.PourSteps
  intro s b v
  have hcheck : b.running = true → v.st = .checking → exec .checkComplete s = .next { s with blk := b.checkOver s.env } := by
    intro hrun hst
    simp [exec, execCheckComplete, State.onBlk, hrun, hst, b, v]
  refine ⟨fun hrun hst hact => ?_, fun quiet hrun hst hact => ?_, fun w hrun hst hnext hready => ?_, fun w hrun hst hnext => ?_,
    fun hrun hst hnext hretire hretiring => ?_⟩
  · refine ⟨_, hcheck hrun hst, ?_⟩
    rw [Blk.checkOver_check _ hact, ← Blk.verdict]
    cases b.verdict s.env false with
    | good w => exact ⟨rfl, rfl⟩
    | bad code off => exact ⟨rfl, rfl⟩
  · refine ⟨_, hcheck hrun hst, ?_⟩
    rw [Blk.checkOver_pour _ hact, ← Blk.verdict]
    cases b.verdict s.env (decide (b.wv.epoch = 0xFFFFFFFF)) with
    | bad code off => exact ⟨rfl, rfl⟩
    | good w =>
      cases quiet with
      | true => exact ⟨rfl, rfl⟩
      | false =>
        dsimp only
        rw [if_neg Bool.false_ne_true, Blk.armPour_eq rfl, Blk.stopPorts_eq]
        exact ⟨rfl, rfl⟩
  · have hexec : exec .quietPourReady s = .next { s with blk := b.armPour } := by
      simp [exec, execQuietPourReady, State.onBlk, hrun, hst, hready, b, v]
    rw [Blk.armPour_eq hnext] at hexec
    exact ⟨_, hexec, Blk.stopPorts_eq _ _, fun p hp => Blk.stopPorts_stopped hp⟩
  · have hexec : exec .pourEdge s = .next { s with blk := (b.pourEdge s.env w).pump s.env } := by
      simp [exec, execPourEdge, State.onWork, State.onBlk, hrun, hst, hnext, b, v]
    obtain ⟨d, hfixed, hedge⟩ := b.pourEdge_eq s.env w
    rw [hedge] at hexec
    refine ⟨_, hexec, ?_⟩
    rw [Blk.eq_pourTaken hfixed]
    exact ⟨rfl, rfl, rfl, rfl, hst, rfl, rfl, rfl, rfl, rfl, rfl⟩
  · simp [exec, execPourDone, State.onBlk, hrun, hst, hnext, hretire, hretiring, b, v]

end Sys2Proof.Machine

/-! # Work of one engine

The frame of what an engine does by itself, its cycle counts, and the landing of a pending write. -/

namespace Sys2Proof.Machine

/-! ### The frame -/

/-- Between the two blocks only engine e differs, besides draws of free values, the load of the window (09 R247), messages sent and
tallies. -/
def Blk.EngAlone (b : Blk) (e : Nat) (c : Blk) : Prop :=
  c = { b with
      eng := c.eng, freeCtr := c.freeCtr, dsp := { b.dsp with loadNow := c.dsp.loadNow }
      mem := { b.mem with ring := c.mem.ring }, trc := { b.trc with tally := c.trc.tally } }
    ∧ ∀ j, j ≠ e → c.engine j = b.engine j

section
variable {b c d : Blk} {e : Nat}

@[simp] theorem Blk.modEng_engine (b : Blk) (e : Nat) (f : Eng → Eng) : (b.modEng e f).engine e = f (b.engine e) := b.setEng_engine e _
theorem Blk.modEng_engine_ne (b : Blk) {e j : Nat} (f : Eng → Eng) (h : j ≠ e) : (b.modEng e f).engine j = b.engine j :=
  b.setEng_engine_ne _ h
@[simp] theorem Blk.bump_engine (b : Blk) (key n j : Nat) : (b.bump key n).engine j = b.engine j := rfl
@[simp] theorem Blk.send_engine (b : Blk) (m : Instr) (j : Nat) : (b.send m).engine j = b.engine j := rfl

theorem Blk.EngAlone.refl (b : Blk) (e : Nat) : b.EngAlone e b := ⟨rfl, fun _ _ => rfl⟩
theorem Blk.EngAlone.trans (h : b.EngAlone e c) (k : c.EngAlone e d) : b.EngAlone e d := by
  obtain ⟨hc, hcj⟩ := h
  obtain ⟨hd, hdj⟩ := k
  refine ⟨?_, fun j hj => (hdj j hj).trans (hcj j hj)⟩
  rw [hc] at hd
  exact hd
theorem Blk.EngAlone.ite {p : Prop} [Decidable p] (h : b.EngAlone e c) (k : b.EngAlone e d) : b.EngAlone e (if p then c else d) := by
  split <;> assumption
theorem Blk.engAlone_setEng (b : Blk) (e : Nat) (v : Eng) : b.EngAlone e (b.setEng e v) := ⟨rfl, fun _ hj => b.setEng_engine_ne v hj⟩
theorem Blk.engAlone_modEng (b : Blk) (e : Nat) (f : Eng → Eng) : b.EngAlone e (b.modEng e f) := b.engAlone_setEng e _
theorem Blk.engAlone_bump (b : Blk) (e key n : Nat) : b.EngAlone e (b.bump key n) := ⟨rfl, fun _ _ => rfl⟩
theorem Blk.engAlone_send (b : Blk) (e : Nat) (m : Instr) : b.EngAlone e (b.send m) := ⟨rfl, fun _ _ => rfl⟩
theorem Blk.engAlone_drawFree (b : Blk) (e : Nat) : b.EngAlone e b.drawFree.2 := ⟨rfl, fun _ _ => rfl⟩
theorem Blk.engAlone_foldl {α : Type} {f : Blk → α → Blk} (h : ∀ (b : Blk) x, b.EngAlone e (f b x)) (l : List α) (b : Blk) :
    b.EngAlone e (l.foldl f b) :=
  List.foldlRecOn l f (motive := b.EngAlone e) (.refl b e) fun c hc x _ => hc.trans (h c x)

/-- The work of one engine is work of engines. -/
theorem Blk.EngAlone.engineWork (h : b.EngAlone e c) : b.EngineWork c := by
  unfold Blk.EngineWork
  rw [h.1]

/-! ### Cycles (R244) -/

/-- The engine with other figures of its tile: busy cycles, and stalls among them. -/
def Eng.counted (busy stall : Nat) (v : Eng) : Eng := { v with busy := busy, stall := stall }

section
variable (b : Blk) (e busy stall : Nat)

theorem Blk.engAlone_cycles : b.EngAlone e (b.cycles e busy stall) := by
  unfold Blk.cycles
  extract_lets c disp load d v
  have hd : b.EngAlone e d := .ite (b.engAlone_bump _ _ _) ⟨rfl, fun _ _ => rfl⟩
  refine hd.trans (.ite (.refl _ _) ?_)
  exact ((d.engAlone_setEng e _).trans (Blk.engAlone_bump _ _ _ _)).trans (Blk.engAlone_bump _ _ _ _)
/-- The engine's own figures alone change. -/
theorem Blk.cycles_engine : ∃ m n, (b.cycles e busy stall).engine e = (b.engine e).counted m n := by
  unfold Blk.cycles
  extract_lets c disp load d v
  have hv : v = b.engine e := by simp only [v, d]; split <;> rfl
  split
  · exact ⟨(b.engine e).busy, (b.engine e).stall, hv⟩
  · exact ⟨(b.engine e).busy + busy, (b.engine e).stall + stall, by
      rw [Blk.bump_engine, Blk.bump_engine, Blk.setEng_engine]
      exact congrArg (fun v : Eng => v.counted (v.busy + busy) (v.stall + stall)) hv⟩
theorem Blk.cycles_freeCtr : (b.cycles e busy stall).freeCtr = b.freeCtr := by
  unfold Blk.cycles
  dsimp only
  split <;> split <;> rfl
theorem Blk.cycles_mem : (b.cycles e busy stall).mem = b.mem := by
  unfold Blk.cycles
  dsimp only
  split <;> split <;> rfl

end

/-! ### A pending write lands (R86) -/

/-- The engine with its pending write w landed. -/
def Eng.takeWrite (w : PendW) (v : Eng) : Eng :=
  Eng.landOne w { v with arch := { v.arch with pend := v.arch.pend.erase w }, step := max v.step w.land }

variable {v : Eng} {w : PendW} {r : List PendW}

theorem Eng.landOne_pend : (v.landOne w).arch.pend = v.arch.pend := by
  unfold Eng.landOne
  split <;> rfl
theorem Eng.takeWrite_pend : (v.takeWrite w).arch.pend = v.arch.pend.erase w := Eng.landOne_pend
theorem Eng.takeWrite_v {i : Nat} (h : w.dest = .v i) :
    SMap.get 0 (v.takeWrite w).arch.v i = BitVec.ofNat 512 w.data.toNat ∧ (v.takeWrite w).lm = v.lm := by
  simp [Eng.takeWrite, Eng.landOne, h]
theorem Eng.takeWrite_wb {i : Nat} (h : w.dest = .wb i) :
    SMap.get 0 (v.takeWrite w).arch.wb i = BitVec.ofNat 512 w.data.toNat ∧ (v.takeWrite w).lm = v.lm := by
  simp [Eng.takeWrite, Eng.landOne, h]
theorem Eng.takeWrite_acc {i : Nat} (h : w.dest = .acc i) :
    SMap.get 0 (v.takeWrite w).arch.acc i = w.data ∧ (v.takeWrite w).lm = v.lm := by
  simp [Eng.takeWrite, Eng.landOne, h]
theorem Eng.takeWrite_lm {i : Nat} (h : w.dest = .lm i) :
    (v.takeWrite w).lm = Mem.writeMask v.lm (64 * i) w.data.toNat w.mask.toNat 64 := by
  simp [Eng.takeWrite, Eng.landOne, h]

/-- The earliest pending write lands once it is due; the cycles up to its step are busy ones. -/
theorem Blk.landNext_due (hord : orderBy landKey (b.engine e).arch.pend = w :: r)
    (hdue : w.land ≤ (b.engine e).step ∨ (b.engine e).ended = true) :
    b.landNext e = (b.cycles e (w.land - (b.engine e).step) 0).modEng e (Eng.takeWrite w) := by
  have hgo : (!(decide (w.land ≤ (b.engine e).step) || (b.engine e).ended)) = false := by
    rcases hdue with h | h <;> simp [h]
  simp only [Blk.landNext, hord, hgo, Bool.false_eq_true, if_false]
  rfl

end

/-- Settles O23: the earliest write that is due is taken by the engine (`Blk.landNext_due`), and each kind of destination has its
equation. -/
theorem pendingWriteLands : Obligations.PendingWriteLands := by
  unfold Obligations.PendingWriteLands
  intro s e w r i b v hrun hclk hjob hstop hpf hst hord hdue
  obtain ⟨m, n, hcyc⟩ := b.cycles_engine e (w.land - v.step) 0
  have hexec : exec (.pendingWriteLand e) s = .next { s with blk := b.landNext e } := by
    have hgo : (v.st == .running || v.st == .frozen) = true := by simpa using hst
    simp [exec, execPendingWriteLand, State.onBlk, hrun, hclk, hjob, hstop, hpf, hgo, b, v]
  rw [Blk.landNext_due hord hdue] at hexec
  have hv : ((b.cycles e (w.land - v.step) 0).modEng e (Eng.takeWrite w)).engine e
      = (v.counted m n).takeWrite w := by rw [Blk.modEng_engine, hcyc]
  obtain ⟨hframe, hothers⟩ := (b.engAlone_cycles e (w.land - v.step) 0).trans (Blk.engAlone_modEng _ e (Eng.takeWrite w))
  rw [Blk.modEng_freeCtr, Blk.cycles_freeCtr, Blk.modEng_mem, Blk.cycles_mem] at hframe
  refine ⟨_, hexec, hframe, fun j hj => hothers j hj, ?_, fun hd => ?_, fun hd => ?_, fun hd => ?_, fun hd => ?_⟩ <;> rw [hv]
  · exact Eng.takeWrite_pend
  · exact Eng.takeWrite_v hd
  · exact Eng.takeWrite_wb hd
  · exact Eng.takeWrite_acc hd
  · exact Eng.takeWrite_lm hd

end Sys2Proof.Machine

/-! # What an engine reads

Gather lines, index entries and the rows of draws as they come in. -/

namespace Sys2Proof.Machine

section
variable {b c d : Blk} {e : EngineId} {v : Eng}

/-! ### Gather lines (R94, R106) -/

theorem Eng.mayIssue_noFault (h : v.mayIssue = true) : v.pendFault = none := by
  simp only [Eng.mayIssue, Bool.and_eq_true, Option.isNone_iff_eq_none] at h
  exact h.1.2

/-- A fault is noted for TILE_FAULT when none is pending. -/
theorem Blk.faultTile_none {n : Nat} (h : (b.engine n).pendFault = none) (code : W8) (bundle : Nat) :
    b.faultTile n code bundle = b.setEng n { b.engine n with pendFault := some (code, bundle) } := by
  simp only [Blk.faultTile, Blk.modEng, h]
  rfl

theorem Blk.gatherFill_good {line : LineNo} (h : line ∈ (b.engine e).needs) (x : Line) : b.gatherFill e line x 0
    = b.setEng e { b.engine e with
        needs := (b.engine e).needs.erase line, got := (b.engine e).got.filter (fun g => g.1 != line) ++ [(line, x)] } := by
  simp [Blk.gatherFill, Blk.modEng, h]
theorem Blk.gatherFill_error {line : LineNo} (h : line ∈ (b.engine e).needs) (x : Line) {resp : BitVec 2} (hresp : resp ≠ 0)
    (hmay : (b.engine e).mayIssue = true) : b.gatherFill e line x resp
    = (b.delMiss e line.toNat).setEng e { b.engine e with pendFault := some (Code.engGather, (b.engine e).ptr) } := by
  have hfault : ((b.delMiss e line.toNat).engine e).pendFault = none := Eng.mayIssue_noFault hmay
  have hgo : (((b.engine e).needs.contains line || (b.engine e).idxNeeds line.toNat) && (b.engine e).mayIssue) = true := by
    simp [h, hmay]
  unfold Blk.gatherFill
  dsimp only
  rw [if_pos hresp, if_pos hgo, Blk.faultTile_none hfault]
  rfl

/-! ### Index entries (R90) -/

/-- An entry whose lines were read joins the buffer. -/
theorem Eng.mem_putIdx {g k : Nat} {ls : List Nat} (line : Nat → Line) (hk : k ∈ v.idxWindow (v.ag g))
    (hl : ∀ n ∈ (v.ag g).idxLines k, n ∈ ls) :
    (k, (v.ag g).idxEntry line k) ∈ SMap.get [] (v.putIdx g ls line).idxBuf g := by
  have hall : (((v.ag g).idxLines k).all ls.contains) = true := by simpa using hl
  simp only [Eng.putIdx, SMap.get_set_self]
  exact List.mem_append_right _ (List.mem_map_of_mem (List.mem_filter.2 ⟨hk, hall⟩))

theorem Blk.touch_eq (b : Blk) (a n : Nat) : b.touch a n
    = { b with mem := { b.mem with agents := (b.touch a n).mem.agents, clock := (b.touch a n).mem.clock } } := by
  unfold Blk.touch
  split <;> rfl
theorem Blk.foldl_touch_eq (a : Nat) (ls : List Nat) (b : Blk) : let c := ls.foldl (fun b n => b.touch a n) b
    c = { b with mem := { b.mem with agents := c.mem.agents, clock := c.mem.clock } } := by
  induction ls generalizing b with
  | nil => rfl
  | cons n ls ih =>
    have h := ih (b.touch a n)
    rw [b.touch_eq a n] at h
    rw [List.foldl_cons, b.touch_eq a n]
    exact h

/-- With every line at hand the entries they hold are taken; which lines of the gather cache were used last, it notes. -/
theorem Blk.indexFetch_read {g p : Nat} (hwant : (b.engine e).idxWant g = some p)
    (hfault : (b.engine e).idxFault ((b.engine e).ag g) p = none)
    (hall : ∀ n ∈ ((b.engine e).ag g).idxLines p, (b.idxLine e ((b.engine e).ag g) n).isSome = true) :
    let a := (b.engine e).ag g
    let c := b.indexFetch e g
    c.engine e = (b.engine e).putIdx g (a.idxLines p) (fun n => (b.idxLine e a n).getD 0)
      ∧ (∀ j, j ≠ e.val → c.engine j = b.engine j)
      ∧ c = { b with eng := c.eng, mem := { b.mem with agents := c.mem.agents, clock := c.mem.clock } } := by
  have hnone : ((((b.engine e).ag g).idxLines p).any fun n => (b.idxLine e ((b.engine e).ag g) n).isNone) = false := by
    simpa [Option.isSome_iff_ne_none] using hall
  simp only [Blk.indexFetch, hwant, hfault, hnone, Option.isSome_none, Bool.false_eq_true, if_false]
  split
  · rw [Blk.foldl_touch_eq]
    exact ⟨b.setEng_engine e _, fun j hj => b.setEng_engine_ne _ hj, rfl⟩
  · exact ⟨b.setEng_engine e _, fun j hj => b.setEng_engine_ne _ hj, rfl⟩

/-- Between the two blocks only the lines asked for differ, with the messages that ask. -/
def Blk.AskedLines (b c : Blk) : Prop :=
  c = { b with mem := { b.mem with misses := c.mem.misses, ring := c.mem.ring }, trc := { b.trc with tally := c.trc.tally } }

theorem Blk.AskedLines.refl (b : Blk) : b.AskedLines b := rfl
theorem Blk.AskedLines.trans (h : b.AskedLines c) (k : c.AskedLines d) : b.AskedLines d := by
  unfold Blk.AskedLines at *
  rw [h] at k
  exact k
theorem Blk.AskedLines.copy (h : b.AskedLines c) (a n : Nat) : c.copy a n = b.copy a n := by
  rw [h]
  rfl
theorem Blk.askLine_asked (a : AgentId) (n : Nat) (q : Option Nat) (b : Blk) : b.AskedLines (b.askLine a n q) := by
  unfold Blk.askLine
  split <;> rfl
theorem Blk.askGather_asked (e : EngineId) (n : Nat) (b : Blk) : b.AskedLines (b.askGather e n) := by
  unfold Blk.askGather
  split
  · rfl
  · exact (Blk.askLine_asked _ _ _ b).trans rfl

/-- What is asked for stays so, and a line that the cache lacks is asked for. -/
theorem Blk.askGather_missing {n m : Nat} (h : b.missing e m = true ∨ m = n ∧ b.copy e n = none) :
    (b.askGather e n).missing e m = true := by
  by_cases hm : b.missing e n = true
  · have hsame : b.askGather e n = b := by simp [Blk.askGather, hm]
    rcases h with h | ⟨rfl, -⟩
    · rwa [hsame]
    · rwa [hsame]
  by_cases hc : (b.copy e n).isSome = true
  · have hsame : b.askGather e n = b := by simp [Blk.askGather, hc]
    rw [hsame]
    rcases h with h | ⟨-, hnone⟩
    · exact h
    · simp [hnone] at hc
  have hmiss : (b.askGather e n).mem.misses
      = b.mem.misses ++ [{ agent := e.val, line := n, queue := (b.engine e).job.map (·.q), seat := 0 }] := by
    simp [Blk.askGather, Blk.askLine, hc, hm, Blk.addMiss, Blk.send]
  simp only [Blk.missing, Blk.missOf, hmiss, List.find?_isSome] at h ⊢
  rcases h with ⟨x, hx, hp⟩ | ⟨rfl, -⟩
  · exact ⟨x, by simp [hx], hp⟩
  · exact ⟨_, List.mem_append_right _ (List.mem_singleton_self _), by simp⟩

theorem Blk.foldl_askGather (e : EngineId) (ls : List Nat) (b : Blk) : let c := ls.foldl (fun b n => b.askGather e n) b
    b.AskedLines c ∧ ∀ m, b.missing e m = true ∨ m ∈ ls ∧ b.copy e m = none → c.missing e m = true := by
  induction ls generalizing b with
  | nil => simp [Blk.AskedLines.refl]
  | cons n ls ih =>
    have hask := b.askGather_asked e n
    obtain ⟨hframe, hmissing⟩ := ih (b.askGather e n)
    refine ⟨hask.trans hframe, fun m hm => hmissing m ?_⟩
    rw [hask.copy]
    rcases hm with hm | ⟨hm, hnone⟩
    · exact .inl (Blk.askGather_missing (.inl hm))
    · rcases List.mem_cons.1 hm with rfl | hm
      · exact .inl (Blk.askGather_missing (.inr ⟨rfl, hnone⟩))
      · exact .inr ⟨hm, hnone⟩

/-- Only a line of SoC memory can be lacking. -/
theorem Blk.copy_of_idxLine_none {a : AddrGen} {n : Nat} (h : b.idxLine e a n = none) : b.copy e n = none := by
  unfold Blk.idxLine at h
  split at h
  · simpa using h
  · simp at h

/-- With a line lacking every line is asked for. -/
theorem Blk.indexFetch_asks {g p n : Nat} (hwant : (b.engine e).idxWant g = some p)
    (hfault : (b.engine e).idxFault ((b.engine e).ag g) p = none) (hn : n ∈ ((b.engine e).ag g).idxLines p)
    (hnone : b.idxLine e ((b.engine e).ag g) n = none) :
    b.indexFetch e g = (((b.engine e).ag g).idxLines p).foldl (fun b n => b.askGather e n) b := by
  have hany : ((((b.engine e).ag g).idxLines p).any fun n => (b.idxLine e ((b.engine e).ag g) n).isNone) = true :=
    List.any_eq_true.2 ⟨n, hn, by simp [hnone]⟩
  simp only [Blk.indexFetch, hwant, hfault, hany, Option.isSome_none, Bool.false_eq_true, if_false, if_true]

/-! ### Rows drawn inward (R93, R96) -/

theorem Blk.engAlone_faultTile (b : Blk) (e : Nat) (code : W8) (bundle : Nat) : b.EngAlone e (b.faultTile e code bundle) :=
  b.engAlone_modEng e _
theorem Blk.engAlone_bankWait (b : Blk) (e n : Nat) : b.EngAlone e (b.bankWait e n) := by
  unfold Blk.bankWait
  refine .ite (.refl _ _) ?_
  exact ((b.engAlone_drawFree e).trans (Blk.engAlone_cycles _ _ _ _)).trans (Blk.engAlone_bump _ _ _ _)
/-- A wait for a bank changes the engine's own figures alone. -/
theorem Blk.bankWait_engine (b : Blk) (e n : Nat) :
    ∃ k m, (b.bankWait e n).engine e = (b.engine e).counted k m := by
  unfold Blk.bankWait
  split
  · exact ⟨(b.engine e).busy, (b.engine e).stall, rfl⟩
  · exact b.drawFree.2.cycles_engine e (b.drawFree.1.toNat % (n + 1)) 0

/-- What the issue of a row can do: nothing, a fault for a bad line, or the row is noted on its channel, an outward one waits
for its banks, and its requests go out. -/
theorem Blk.issueRow_cases (b : Blk) (e ch : Nat) : b.issueRow e ch = b
    ∨ (∃ p, b.issueRow e ch = b.setEng e { b.engine e with pendFault := p })
    ∨ ∃ k n ms c, (c = b.setEng e ((b.engine e).setChan ch k) ∨ c = (b.setEng e ((b.engine e).setChan ch k)).bankWait e n)
        ∧ b.issueRow e ch = List.foldl (fun c m => c.send m) c ms := by
  unfold Blk.issueRow
  extract_lets v k f a n c d
  split
  · exact .inl rfl
  split
  · exact .inr (.inl ⟨_, rfl⟩)
  refine .inr (.inr ?_)
  have hd : d = c ∨ d = c.bankWait e n := by
    simp only [d]
    split
    · exact .inr rfl
    · exact .inl rfl
  split
  next h =>
    let id : Rq := .draw ⟨e, h⟩ ⟨ch % 4, Nat.mod_lt _ (by decide)⟩
    refine ⟨_, n, (range n).map fun i => if f.out then .wr id (lineOf (a.1 + 64 * i)) (v.lm.readLine (a.2 + 64 * i)) (BitVec.allOnes 64)
      else .rdonce id (lineOf (a.1 + 64 * i)), d, hd, ?_⟩
    rw [List.foldl_map]
    refine congrFun (congrFun (congrArg List.foldl ?_) d) (range n)
    funext c i
    split <;> rfl
  · exact ⟨_, n, [], d, hd, rfl⟩

theorem Blk.engAlone_issueRow (b : Blk) (e ch : Nat) : b.EngAlone e (b.issueRow e ch) := by
  obtain h | ⟨p, h⟩ | ⟨k, n, ms, c, hc, h⟩ := b.issueRow_cases e ch
  · rw [h]
    exact .refl _ _
  · rw [h]
    exact b.engAlone_setEng e _
  · have hset := b.engAlone_setEng e ((b.engine e).setChan ch k)
    have hc' : b.EngAlone e c := by
      rcases hc with rfl | rfl
      · exact hset
      · exact hset.trans (Blk.engAlone_bankWait _ e n)
    rw [h]
    exact hc'.trans (Blk.engAlone_foldl (fun c m => c.engAlone_send e m) ms c)
theorem Blk.issueRow_rests {b : Blk} {e ch : Nat} (h : ((b.engine e).chan ch).busy = false) : b.issueRow e ch = b := by
  simp [Blk.issueRow, h]
theorem Blk.foldl_send_engine (ms : List Instr) (b : Blk) (j : Nat) :
    (ms.foldl (fun c m => c.send m) b).engine j = b.engine j :=
  List.foldlRecOn ms _ (motive := fun c : Blk => c.engine j = b.engine j) rfl fun _ hc _ _ => hc
/-- Issuing a row leaves local memory as it is. -/
theorem Blk.issueRow_lm (b : Blk) (e ch : Nat) : ((b.issueRow e ch).engine e).lm = (b.engine e).lm := by
  obtain h | ⟨p, h⟩ | ⟨k, n, ms, c, hc, h⟩ := b.issueRow_cases e ch
  · rw [h]
  · rw [h, Blk.setEng_engine]
  · rw [h, Blk.foldl_send_engine]
    rcases hc with rfl | rfl
    · rw [Blk.setEng_engine]
      rfl
    · obtain ⟨i, j, hwait⟩ := Blk.bankWait_engine (b.setEng e ((b.engine e).setChan ch k)) e n
      rw [hwait, Blk.setEng_engine]
      rfl

/-- The engine that takes the row outstanding on a channel: its lines land, or its error is noted. -/
def Eng.takeRow (ch : Nat) (v : Eng) : Eng :=
  let k := v.chan ch
  if k.bad then
    if v.job.isSome && v.stop.isNone then { v with pendFault := v.pendFault.orElse fun _ => some (Code.engDraw, k.bundle) } else v
  else v.landRow k.soc k.lm k.got
/-- A channel whose row outstanding is over: free after the last one. -/
def DrawChan.next (k : DrawChan) : DrawChan :=
  if k.done + 1 = k.rows then {} else { k with done := k.done + 1, got := [], bad := false }

section
variable {ch : Nat}

@[simp] theorem Eng.chan_setChan (v : Eng) (k : DrawChan) : (v.setChan ch k).chan ch = k := by simp [Eng.chan, Eng.setChan]
theorem Eng.takeRow_good (h : (v.chan ch).bad = false) :
    (v.takeRow ch).lm = v.lm.landLines (v.chan ch).soc (v.chan ch).lm (v.chan ch).got := by
  simp [Eng.takeRow, h, Eng.landRow]
theorem Eng.takeRow_bad (h : (v.chan ch).bad = true) : (v.takeRow ch).lm = v.lm := by
  simp only [Eng.takeRow, h, if_true]
  split <;> rfl
theorem Eng.takeRow_fault (h : (v.chan ch).bad = true) (hjob : v.job.isSome = true) (hstop : v.stop = none)
    (hpf : v.pendFault = none) : (v.takeRow ch).pendFault = some (Code.engDraw, (v.chan ch).bundle) := by
  simp [Eng.takeRow, h, hjob, hstop, hpf]

/-- A row drawn inward is over: the engine takes it, and goes on with the next row unless a fault is pending. -/
theorem Blk.rowDone_inward {b : Blk} {e : Nat} (hout : (drawFields ((b.engine e).chan ch).desc).out = false) :
    ∃ d m n, b.EngAlone e d
      ∧ d.engine e = (((b.engine e).takeRow ch).counted m n).setChan ch ((b.engine e).chan ch).next
      ∧ (b.rowDone e ch = d ∨ (d.engine e).pendFault = none ∧ b.rowDone e ch = d.issueRow e ch) := by
  generalize hr : b.rowDone e ch = r
  unfold Blk.rowDone at hr
  extract_lets v k f n y b1 b2 b3 b4 w at hr
  subst hr
  have h1 : b.EngAlone e b1 ∧ ∃ i j, b1.engine e = v.counted i j := by
    simp only [b1]
    split
    · exact ⟨((b.engAlone_drawFree e).trans (Blk.engAlone_cycles _ _ _ _)).trans (Blk.engAlone_bump _ _ _ _),
        y.2.cycles_engine e y.1.toNat y.1.toNat⟩
    · exact ⟨.refl _ _, v.busy, v.stall, rfl⟩
  obtain ⟨hf1, m1, n1, he1⟩ := h1
  have h2 : b1.EngAlone e b2 ∧ b2.engine e = (v.takeRow ch).counted m1 n1 := by
    have hf : f.out = false := hout
    simp only [b2, Eng.takeRow, hf, Bool.false_eq_true, if_false]
    split
    · split
      · refine ⟨Blk.engAlone_faultTile _ _ _ _, ?_⟩
        rw [Blk.faultTile, Blk.modEng_engine, he1]
        rfl
      · exact ⟨.refl _ _, he1⟩
    · refine ⟨(Blk.engAlone_modEng _ _ _).trans (Blk.engAlone_bump _ _ _ _), ?_⟩
      rw [Blk.bump_engine, Blk.modEng_engine, he1]
      rfl
  obtain ⟨hf2, he2⟩ := h2
  have h3 : b2.EngAlone e b3 ∧ ∃ i j, b3.engine e = (v.takeRow ch).counted i j := by
    have hb3 : b3 = b2.bankWait e n := if_neg (by rw [show f.out = false from hout]; decide)
    obtain ⟨i, j, h⟩ := b2.bankWait_engine e n
    rw [hb3]
    exact ⟨Blk.engAlone_bankWait _ _ _, i, j, by rw [h, he2]; rfl⟩
  obtain ⟨hf3, m, n3, he3⟩ := h3
  have he4 : b4.engine e = ((v.takeRow ch).counted m n3).setChan ch k.next := by
    rw [Blk.modEng_engine, he3]
    rfl
  refine ⟨b4, m, n3, ((hf1.trans hf2).trans hf3).trans (Blk.engAlone_modEng _ _ _), he4, ?_⟩
  split
  next h =>
    simp only [Bool.and_eq_true, Option.isNone_iff_eq_none] at h
    exact .inr ⟨h.2, rfl⟩
  · exact .inl rfl

end

theorem exec_gatherFill {s : State} {line : LineNo} {x : Line} {resp : BitVec 2} (hup : s.blk.up = true)
    (hmay : s.blk.mayArrive (.gatherFill e line x resp) = true) : exec (.gatherFill e line x resp) s
    = .next { s with blk := (s.blk.arrived (.gatherFill e line x resp)).gatherFill e line x resp } := by
  simp [exec, execGatherFill, State.onMessage, State.onBlk, hup, hmay]

end

/-- Settles O24: each read comes down to the operation on the engine, the cache or the channel that its lemma gives. -/
theorem engineReads : Obligations.EngineReads := by
  unfold Obligations.EngineReads
  intro s e b v
  refine ⟨?_, ?_, ?_, ?_⟩
  · intro line d m hup hmay hneed
    have hexec := exec_gatherFill hup hmay
    rw [Blk.gatherFill_good (b := b.arrived m) hneed] at hexec
    refine ⟨_, hexec, ?_, ?_, fun j hj => Blk.setEng_engine_ne _ _ hj, rfl⟩ <;> rw [Blk.setEng_engine]
    · rfl
    · simp
  · intro line d resp m hup hmay hneed hresp hissue
    have hexec := exec_gatherFill hup hmay
    rw [Blk.gatherFill_error (b := b.arrived m) hneed d hresp hissue] at hexec
    refine ⟨_, hexec, ?_, fun j hj => Blk.setEng_engine_ne _ _ hj, rfl⟩
    rw [Blk.setEng_engine]
    rfl
  · intro g p a ls hrun hclk hissue hwant hfault
    have hexec : exec (.indexFetchReturn e g) s = .next { s with blk := b.indexFetch e g } := by
      simp [exec, execIndexFetchReturn, State.onBlk, hrun, hclk, hissue, b, v]
    refine ⟨fun hall => ?_, fun n hn hnone => ?_⟩
    · obtain ⟨hv, hothers, hframe⟩ := Blk.indexFetch_read hwant hfault hall
      refine ⟨_, hexec, fun k hk hl => ?_, ?_, ?_, hothers, hframe⟩ <;> rw [hv]
      · exact Eng.mem_putIdx _ hk hl
      · rfl
      · rfl
    · rw [Blk.indexFetch_asks hwant hfault hn hnone] at hexec
      obtain ⟨hframe, hmissing⟩ := Blk.foldl_askGather e ls b
      exact ⟨_, hexec, hmissing n (.inr ⟨hn, Blk.copy_of_idxLine_none hnone⟩), hframe⟩
  · intro ch k f hup hover hout
    have hexec : exec (.drawRowComplete e ch) s = .next { s with blk := b.rowDone e ch } := by
      simp [exec, execDrawRowComplete, State.onBlk, hup, hover, b, v, k]
    obtain ⟨d, i, j, hd, hde, hlast⟩ := b.rowDone_inward (e := e) hout
    have hrow : b.EngAlone e (b.rowDone e ch) ∧ ((b.rowDone e ch).engine e).lm = (v.takeRow ch).lm := by
      rcases hlast with h | ⟨-, h⟩ <;> rw [h]
      · exact ⟨hd, by rw [hde]; rfl⟩
      · exact ⟨hd.trans (d.engAlone_issueRow e ch), by rw [Blk.issueRow_lm, hde]; rfl⟩
    obtain ⟨⟨hframe, hothers⟩, hlm⟩ := hrow
    refine ⟨_, hexec, fun hgood => ?_, fun hbad => ⟨?_, fun hjob hstop hpf => ?_⟩, fun hend => ?_, hothers, hframe⟩
    · rw [hlm, Eng.takeRow_good hgood]
    · rw [hlm, Eng.takeRow_bad hbad]
    · have hfault : (d.engine e).pendFault = some (Code.engDraw, k.bundle) := by
        rw [hde]
        exact Eng.takeRow_fault hbad hjob hstop hpf
      rcases hlast with h | ⟨hnone, -⟩
      · rw [h, hfault]
      · rw [hfault] at hnone
        cases hnone
    · have hfree : (d.engine e).chan ch = {} := by
        rw [hde, Eng.chan_setChan, DrawChan.next, if_pos hend]
      rcases hlast with h | ⟨-, h⟩ <;> rw [h]
      · exact hfree
      · rw [Blk.issueRow_rests (by rw [hfree]), hfree]

end Sys2Proof.Machine

/-! # The life of a tile

Start, completion, fault, and the tensor descriptors of its launch. -/

namespace Sys2Proof.Machine

/-! ### Engines alone -/

/-- Between the two blocks only engines differ. -/
def Blk.EngsOnly (b c : Blk) : Prop := c = { b with eng := c.eng }
/-- Between the two blocks only engine e differs. -/
def Blk.EngOnly (b : Blk) (e : Nat) (c : Blk) : Prop := b.EngsOnly c ∧ ∀ j, j ≠ e → c.engine j = b.engine j

section
variable {b c d : Blk} {e : Nat}

theorem Blk.EngsOnly.refl (b : Blk) : b.EngsOnly b := rfl
theorem Blk.EngsOnly.trans (h : b.EngsOnly c) (k : c.EngsOnly d) : b.EngsOnly d := by
  unfold Blk.EngsOnly at *
  rw [h] at k
  exact k
theorem Blk.EngsOnly.engineWork (h : b.EngsOnly c) : b.EngineWork c := by
  unfold Blk.EngineWork
  rw [show c = _ from h]
theorem Blk.EngsOnly.foldl {α : Type} {f : Blk → α → Blk} (h : ∀ (b : Blk) x, b.EngsOnly (f b x)) (l : List α) (b : Blk) :
    b.EngsOnly (l.foldl f b) :=
  List.foldlRecOn l f (motive := b.EngsOnly) rfl fun c hc x _ => hc.trans (h c x)
theorem Blk.engsOnly_modEng (b : Blk) (e : Nat) (f : Eng → Eng) : b.EngsOnly (b.modEng e f) := rfl

theorem Blk.EngOnly.refl (b : Blk) (e : Nat) : b.EngOnly e b := ⟨rfl, fun _ _ => rfl⟩
theorem Blk.EngOnly.trans (h : b.EngOnly e c) (k : c.EngOnly e d) : b.EngOnly e d :=
  ⟨h.1.trans k.1, fun j hj => (k.2 j hj).trans (h.2 j hj)⟩
theorem Blk.engOnly_setEng (b : Blk) (e : Nat) (v : Eng) : b.EngOnly e (b.setEng e v) := ⟨rfl, fun _ hj => b.setEng_engine_ne v hj⟩
theorem Blk.engOnly_modEng (b : Blk) (e : Nat) (f : Eng → Eng) : b.EngOnly e (b.modEng e f) := b.engOnly_setEng e _
theorem Blk.EngOnly.engAlone (h : b.EngOnly e c) : b.EngAlone e c := by
  obtain ⟨hc, hj⟩ := h
  refine ⟨?_, hj⟩
  rw [show c = _ from hc]

theorem Blk.EngineWork.trans (h : b.EngineWork c) (k : c.EngineWork d) : b.EngineWork d := by
  unfold Blk.EngineWork at *
  rw [h] at k
  exact k

/-- A trace record of the tile changes the engine's trace alone. -/
theorem Blk.engOnly_tileEv (x : Env) (e what : Nat) (j : Job) (tile : Nat) (b : Blk) : b.EngOnly e (b.tileEv x e what j tile) := by
  unfold Blk.tileEv
  dsimp only
  split
  · exact b.engOnly_setEng e _
  · exact .refl b e
theorem Blk.tileEv_engine (x : Env) (e what : Nat) (j : Job) (tile : Nat) (b : Blk) :
    ∃ t, (b.tileEv x e what j tile).engine e = { b.engine e with trace := t } := by
  unfold Blk.tileEv
  dsimp only
  split
  · rw [Blk.setEng_engine]
    exact ⟨_, rfl⟩
  · exact ⟨_, rfl⟩

end

/-! ### A tile starts (R71, R132) -/

section
variable {b : Blk} {e : Nat}

/-- An engine at rest that begins a tile: what R71 clears is cleared. -/
theorem Eng.beginTile_rested {v : Eng} (h : v.st = .idle ∨ v.st = .standing) (x : Env) (j : Job) (t : Nat) (ar : EngArch) :
    v.beginTile x j t ar = { v with
      arch := ar, job := some j, tile := t, started := true, ptr := 0, step := 0, ended := false, mmFree := 0, bubble := false
      numeric := 0, digest := 0, apos := false, busy := 0, stall := 0, needs := [], got := [], idxBuf := [], idxLm := []
      ran := false, st := .running, last := x.now } := by
  rcases h with h | h <;> simp [Eng.beginTile, Eng.enter, h, EngState.known]

/-- The first tile of the only range starts on the bank that holds its program. -/
theorem Blk.startTile_ready {j : Job} {r : Range} {l : Launch} (x : Env) (hdeque : (b.engine e).deque = [(j, r)])
    (hl : b.launch? j = some l) (hrun : j.run = false)
    (hst : ((b.engine e).bank (b.engine e).active).st = .ready ∨ ((b.engine e).bank (b.engine e).active).st = .waiting)
    (hprog : ((b.engine e).bank (b.engine e).active).prog = l.prog) :
    b.startTile x e = (b.modEng e fun v =>
      ({ v with deque := if r.lo + 1 < r.hi then [(j, { lo := r.lo + 1, hi := r.hi })] else [] } : Eng).beginTile x j r.lo
        (tileArch l r.lo none)).tileEv x e 0 j r.lo := by
  have hready : ((((b.engine e).bank (b.engine e).active).st == .ready || ((b.engine e).bank (b.engine e).active).st == .waiting)
      && ((b.engine e).bank (b.engine e).active).prog == l.prog) = true := by simpa [hprog] using hst
  simp [Blk.startTile, hdeque, popTile, hl, hrun, hready]

/-- An engine that may start a tile is at rest. -/
theorem Blk.mayStartTile_rests (h : b.mayStartTile e = true) : (b.engine e).st = .idle ∨ (b.engine e).st = .standing := by
  simp only [Blk.mayStartTile, Bool.and_eq_true, Bool.or_eq_true, beq_iff_eq] at h
  tauto

/-- Tiles are numbered by B, M and N, N fastest (05 R132). -/
theorem Launch.coords_of {l : Launch} {t tm tn tb : Nat} (hm : tm < l.tm) (hn : tn < l.tn) (ht : t = (tb * l.tm + tm) * l.tn + tn) :
    l.coords t = (tm, tn, tb) := by
  have hdiv : t / l.tn = tb * l.tm + tm := by
    rw [ht, Nat.mul_comm, Nat.mul_add_div (by omega), Nat.div_eq_of_lt hn, Nat.add_zero]
  have hmod : t % l.tn = tn := by rw [ht, Nat.mul_add_mod_self_right, Nat.mod_eq_of_lt hn]
  have hdiv' : (tb * l.tm + tm) / l.tm = tb := by
    rw [Nat.mul_comm, Nat.mul_add_div (by omega), Nat.div_eq_of_lt hm, Nat.add_zero]
  simp [Launch.coords, hdiv, hmod, hdiv', Nat.mod_eq_of_lt hm]

end

/-! ### Entries and standing launches changed in place -/

/-- The first element of a kind, after every element of that kind has been changed within it. -/
theorem find?_map_ite {α : Type} {p : α → Bool} {f : α → α} (h : ∀ x, p x = true → p (f x) = true) (l : List α) :
    (l.map fun x => if p x then f x else x).find? p = (l.find? p).map f := by
  induction l with
  | nil => rfl
  | cons x l ih =>
    by_cases hx : p x = true
    · simp [hx, h x hx]
    · simpa [hx] using ih

section
variable {b c : Blk} {q n : Nat}

theorem Blk.modEntry_entry {f : SbEntry → SbEntry} (h : ∀ x, (f x).q = x.q ∧ (f x).n = x.n) :
    (b.modEntry q n f).entry q n = (b.entry q n).map f :=
  find?_map_ite (p := fun e : SbEntry => e.q == q && e.n == n) (fun x hx => by rwa [(h x).1, (h x).2]) b.sb
theorem Blk.modStand_findStand {f : Standing → Standing} (h : ∀ x, (f x).q = x.q ∧ (f x).n = x.n) :
    (b.modStand q n f).findStand q n = (b.findStand q n).map f :=
  find?_map_ite (p := fun s : Standing => s.q == q && s.n == n) (fun x hx => by rwa [(h x).1, (h x).2]) b.stand

variable {j : Job}

/-- The entry of a launch with its figures changed. -/
def SbEntry.setLaunch (f : Launch → Launch) (x : SbEntry) : SbEntry :=
  match x.prog with
  | .launch l => { x with prog := .launch (f l) }
  | _ => x

theorem SbEntry.setLaunch_eq (f : Launch → Launch) (x : SbEntry) : x.setLaunch f = { x with prog := (x.setLaunch f).prog } := by
  unfold SbEntry.setLaunch
  split <;> rfl
theorem SbEntry.setLaunch_launch? (f : Launch → Launch) (x : SbEntry) : (x.setLaunch f).launch? = x.launch?.map f := by
  cases h : x.prog <;> simp [SbEntry.setLaunch, SbEntry.launch?, h]
theorem Blk.modLaunch_eq (hrun : j.run = false) (f : Launch → Launch) : b.modLaunch j f = b.modEntry j.q j.n (·.setLaunch f) := by
  simp only [Blk.modLaunch, hrun, Bool.false_eq_true, if_false]
  rfl
theorem Blk.modLaunch_entry (hrun : j.run = false) (f : Launch → Launch) :
    (b.modLaunch j f).entry j.q j.n = (b.entry j.q j.n).map (·.setLaunch f) := by
  rw [Blk.modLaunch_eq hrun]
  refine Blk.modEntry_entry fun x => ?_
  rw [x.setLaunch_eq f]
  exact ⟨rfl, rfl⟩
theorem Blk.modLaunch_launch? (hrun : j.run = false) (f : Launch → Launch) :
    (b.modLaunch j f).launch? j = (b.launch? j).map f := by
  simp only [Blk.launch?, hrun, Bool.false_eq_true, if_false, Blk.modLaunch_entry hrun]
  cases b.entry j.q j.n with
  | none => rfl
  | some x => exact x.setLaunch_launch? f
theorem Blk.launch?_of_sb (hrun : j.run = false) (h : c.sb = b.sb) : c.launch? j = b.launch? j := by
  simp [Blk.launch?, hrun, Blk.entry, h]
theorem Blk.launch?_of_entry {x : SbEntry} {l : Launch} (hrun : j.run = false) (hx : b.entry j.q j.n = some x)
    (hl : x.prog = .launch l) : b.launch? j = some l := by
  simp [Blk.launch?, hrun, hx, SbEntry.launch?, hl]

end

/-! ### The engine falls idle (R99) -/

section
variable (b : Blk) (e : Nat)

/-- Waiting banks that begin to load change nothing else of the engine. -/
theorem Blk.unwait_engine (sel : Option Bool) :
    ∃ k0 k1 n, (b.unwait e sel).engine e = { b.engine e with bank0 := k0, bank1 := k1, bankClk := n } := by
  unfold Blk.unwait
  split
  · exact ⟨_, _, _, rfl⟩
  next x l _ =>
    extract_lets go
    have hgo : ∀ i v, ∃ k0 k1 n, go i v = { v with bank0 := k0, bank1 := k1, bankClk := n } := by
      intro i v
      simp only [go, Eng.setBank]
      split
      · cases i <;> exact ⟨_, _, _, rfl⟩
      · exact ⟨_, _, _, rfl⟩
    rw [Blk.modEng_engine]
    obtain ⟨i0, i1, m, h⟩ := hgo false (b.engine e)
    obtain ⟨k0, k1, n, h'⟩ := hgo true (go false (b.engine e))
    exact ⟨k0, k1, n, by rw [h', h]⟩
theorem Blk.engOnly_unwait (sel : Option Bool) : b.EngOnly e (b.unwait e sel) := by
  unfold Blk.unwait
  split
  · exact .refl b e
  · exact b.engOnly_modEng e _
theorem Blk.engOnly_engIdle : b.EngOnly e (b.engIdle e) := by
  unfold Blk.engIdle
  extract_lets v c
  have hc : b.EngOnly e c := b.engOnly_setEng e _
  split
  · split
    · exact hc
    · exact (hc.trans (c.engOnly_modEng e _)).trans (Blk.engOnly_unwait _ _ _)
  · exact hc
/-- An engine that falls idle keeps its job and its deque. -/
theorem Blk.engIdle_engine : ((b.engIdle e).engine e).job = (b.engine e).job ∧ ((b.engIdle e).engine e).deque = (b.engine e).deque := by
  unfold Blk.engIdle
  extract_lets v c
  have hc : (c.engine e).job = v.job ∧ (c.engine e).deque = v.deque := by simp [c]
  split
  · split
    · exact hc
    · obtain ⟨k0, k1, n, h⟩ := Blk.unwait_engine (c.modEng e fun v => { v with lastJob := none }) e none
      rw [h, Blk.modEng_engine]
      exact hc
  · exact hc

end

/-! ### A tile completes (R133, R149) -/

section
variable {b : Blk} {e : Nat} {j : Job}

theorem Eng.landUpTo_empty {v : Eng} (h : v.arch.pend = []) (t : Nat) : v.landUpTo t = v := by
  unfold Eng.landUpTo
  rw [h]
  change { v with arch := { v.arch with pend := [] } } = v
  rw [← h]

/-- The tile's figures join its launch. -/
theorem Blk.tileDone_launch {l : Launch} (hret : b.retired j = false) (hrun : j.run = false) (hl : b.launch? j = some l)
    (htwin : l.twin = none) :
    ((b.tileDone e j).launch? j).map (·.doneTiles) = some (l.doneTiles + 1)
      ∧ ((b.tileDone e j).launch? j).map (·.digest) = some (l.digest + (b.engine e).digest)
      ∧ b.tileDone e j = { b with sb := (b.tileDone e j).sb } := by
  unfold Blk.tileDone
  extract_lets v
  rw [if_neg (by simp [hret]), Blk.modLaunch_launch? hrun, hl]
  simp only [Option.map_some, htwin]
  refine ⟨trivial, rfl, ?_⟩
  rw [Blk.modLaunch_eq hrun]
  rfl

theorem Eng.enter_eq (v : Eng) (x : Env) (st : EngState) : v.enter x st = { v with st := st, last := (v.enter x st).last } := by
  unfold Eng.enter
  split
  next h => rw [← h]
  · rfl
theorem Blk.markOf_none (h : (b.engine e).yieldTo = none) : b.markOf e = none := by simp [Blk.markOf, h]

/-- Without a mark to yield the engine drops its tile and keeps its deque. -/
theorem Blk.afterTile_unmarked (x : Env) (h : (b.engine e).yieldTo = none) :
    ((b.afterTile x e).engine e).job = none ∧ ((b.afterTile x e).engine e).deque = (b.engine e).deque
      ∧ (∀ i, i ≠ e → (b.afterTile x e).engine i = b.engine i)
      ∧ b.afterTile x e = { b with eng := (b.afterTile x e).eng, dsp := { b.dsp with preempts := (b.afterTile x e).dsp.preempts } } := by
  generalize hr : b.afterTile x e = r
  unfold Blk.afterTile at hr
  extract_lets v none' b1 disp b2 marked b3 y at hr
  have hrest : (b1.engine e).job = none ∧ (b1.engine e).deque = v.deque ∧ (b1.engine e).yieldTo = none := by
    rw [Blk.modEng_engine, Eng.enter_eq]
    exact ⟨rfl, rfl, h⟩
  have hothers : ∀ i, i ≠ e → b1.engine i = b.engine i := fun i hi => b.modEng_engine_ne _ hi
  have hb2 : b2 = { b1 with dsp := { b1.dsp with preempts := b2.dsp.preempts } } := by
    simp only [b2]
    split <;> rfl
  have heng : ∀ i, b2.engine i = b1.engine i := fun i => by rw [hb2]; rfl
  rw [← heng] at hrest
  obtain ⟨hjob, hdeque, hyield⟩ := hrest
  have hb3 : b3 = b2 := by
    have hmark : marked = false := by simp [marked, Blk.markOf_none hyield]
    simp [b3, hmark]
  rw [hb3] at hr
  have hgo : b2.EngOnly e r ∧ (r.engine e).job = none ∧ (r.engine e).deque = v.deque := by
    rw [← hr]
    split
    · exact ⟨.refl _ _, hjob, hdeque⟩
    split
    · rw [show y = b2.modEng e fun v => { v with ran := true } from congrArg (Blk.modEng e _) hb3, Blk.modEng_engine]
      exact ⟨b2.engOnly_modEng e _, hjob, hdeque⟩
    · obtain ⟨hj, hd⟩ := b2.engIdle_engine e
      exact ⟨b2.engOnly_engIdle e, hj.trans hjob, hd.trans hdeque⟩
  obtain ⟨⟨hr2, hr2'⟩, hrjob, hrdeque⟩ := hgo
  refine ⟨hrjob, hrdeque, fun i hi => (hr2' i hi).trans ((heng i).trans (hothers i hi)), ?_⟩
  rw [Blk.EngsOnly, hb2] at hr2
  rw [hr2]
  rfl

/-- The bundles' last writes have landed, and the tile's figures join its launch before the engine goes on. -/
theorem Blk.completeTile_eq (x : Env) (hpend : (b.engine e).arch.pend = []) (hjob : (b.engine e).job = some j) (hrun : j.run = false) :
    ∃ d m n t, b.EngAlone e d ∧ d.engine e = { (b.engine e).counted m n with trace := t }
      ∧ b.completeTile x e = (d.tileDone e j).afterTile x e := by
  obtain ⟨m, n, hcyc⟩ := b.cycles_engine e 0 0
  let c := (b.cycles e 0 0).modEng e fun v => { (v.landUpTo (b.engine e).step) with step := (b.engine e).step }
  have hc : c.engine e = (b.engine e).counted m n := by
    rw [Blk.modEng_engine, hcyc, Eng.landUpTo_empty (v := (b.engine e).counted m n) hpend]
    rfl
  obtain ⟨t, ht⟩ := c.tileEv_engine x e 1 j (b.engine e).tile
  refine ⟨(c.tileEv x e 1 j (b.engine e).tile).bump (evEng e 0x15) 1, m, n, t, ?_, ?_, ?_⟩
  · exact (((b.engAlone_cycles e 0 0).trans (Blk.engAlone_modEng _ e _)).trans (c.engOnly_tileEv x e 1 j _).engAlone).trans
      (Blk.engAlone_bump _ _ _ _)
  · rw [Blk.bump_engine, ht, hc]
  · simp only [Blk.completeTile, hpend, List.map_nil, List.foldl_nil, Nat.sub_self, hjob, hrun, Bool.false_and, Bool.false_eq_true,
      if_false]
    split <;> rfl

end

/-! ### A launch ends while an engine runs a tile of it (R412) -/

section
variable {b c : Blk} {e : Nat} {j : Job}

/-- The error log's entries change, and nothing of the block besides. -/
def Blk.Logged (b c : Blk) : Prop := c = { b with flt := c.flt } ∧ b.flt.LogOnly c.flt

theorem Blk.Logged.trans {d : Blk} (h : b.Logged c) (k : c.Logged d) : b.Logged d := by
  obtain ⟨hc, hf⟩ := h
  obtain ⟨hd, hg⟩ := k
  refine ⟨?_, ?_⟩
  · rw [hc] at hd
    exact hd
  · unfold Faults.LogOnly at *
    rw [hf] at hg
    exact hg
theorem Faults.logOnly_set (f : Faults) (log next ms cnt irq) : f.LogOnly
    { f with log := log, logNext := next, logMs := ms, logCnt := cnt, irqLog := irq } := rfl
theorem Blk.logSeat_logged (en : LogEntry) (i : Nat) (b : Blk) : b.Logged (b.logSeat en i) := ⟨rfl, rfl⟩
theorem Blk.log_logged (x : Env) (en : LogEntry) (b : Blk) : b.Logged (b.log x en) := by
  unfold Blk.log
  split
  · exact ⟨rfl, rfl⟩
  split
  · exact ⟨rfl, rfl⟩
  extract_lets ms cnt f c
  split
  · exact ⟨rfl, rfl⟩
  have hc : b.Logged c := ⟨rfl, b.flt.logOnly_set _ _ _ _ _⟩
  split
  · exact List.foldlRecOn (range 16) _ (motive := b.Logged) hc fun d hd i _ => hd.trans (d.logSeat_logged en i)
  split
  · exact hc.trans (c.logSeat_logged en _)
  · exact hc

/-- What an engine that stops a tile of job j after a fault shows. -/
def Eng.Stopped (j : Job) (r : BitVec 19) (v : Eng) : Prop :=
  v.job = some j ∧ v.stop = some .ended ∧ v.pendFault = none ∧ v.faultReg = r

/-- One engine's queued and saved tiles of a job go. -/
def Blk.dropOn (j : Job) (b : Blk) (t : Nat) : Blk :=
  let b := b.dropQueued j t
  let rest := b.restState t
  (b.modEng t fun v => if !v.savedOf j then v else
    { v with save := none, restore := false, st := if v.restore then rest else v.st }).idleIfDone t

theorem Blk.engOnly_idleIfDone (b : Blk) (e : Nat) : b.EngOnly e (b.idleIfDone e) := by
  unfold Blk.idleIfDone
  dsimp only
  split
  · exact b.engOnly_engIdle e
  · exact .refl b e
theorem Blk.engOnly_dropOn (j : Job) (b : Blk) (t : Nat) : b.EngOnly t (b.dropOn j t) :=
  ((b.engOnly_modEng t _).trans (Blk.engOnly_modEng _ t _)).trans (Blk.engOnly_idleIfDone _ t)
/-- An engine that runs a tile keeps it. -/
theorem Blk.dropOn_stopped {r : BitVec 19} (i : Job) (t : Nat) (h : (b.engine e).Stopped j r) :
    ((b.dropOn i t).engine e).Stopped j r := by
  by_cases ht : e = t
  · subst ht
    have hmid : ∀ f : Eng → Eng, (∀ v : Eng, v.Stopped j r → (f v).Stopped j r) →
        (((b.dropQueued i e).modEng e f).engine e).Stopped j r := by
      intro f hf
      rw [Blk.modEng_engine, Blk.dropQueued, Blk.modEng_engine]
      exact hf _ h
    unfold Blk.dropOn
    extract_lets c rest
    generalize hd' : c.modEng e _ = d
    have hd : (d.engine e).Stopped j r := by
      rw [← hd']
      refine hmid _ fun v hv => ?_
      split <;> exact hv
    have hidle : d.idleIfDone e = d := by simp [Blk.idleIfDone, hd.1]
    rw [hidle]
    exact hd
  · rw [(Blk.engOnly_dropOn i b t).2 e ht]
    exact h

/-- Dropping a launch's tiles reaches engines, steals and the launch; one that is running stays. -/
theorem Blk.dropTiles_spec (hrun : j.run = false) (b : Blk) : b.EngineWork (b.dropTiles j)
    ∧ ((b.dropTiles j).entry j.q j.n).map (·.ending) = (b.entry j.q j.n).map (·.ending)
    ∧ ∀ e r, (b.engine e).Stopped j r → ((b.dropTiles j).engine e).Stopped j r := by
  unfold Blk.dropTiles
  extract_lets on c drop disp d
  have hc : b.EngsOnly c := Blk.EngsOnly.foldl (fun b t => (b.engOnly_dropOn j t).1) on b
  have hd : d = { c with dsp := { c.dsp with steals := d.dsp.steals } } := by
    simp only [d]
    split <;> rfl
  have hsb : d.sb = b.sb := by rw [hd, hc]
  refine ⟨?_, ?_, fun e r h => ?_⟩
  · refine hc.engineWork.trans ?_
    rw [Blk.modLaunch_eq hrun, hd]
    rfl
  · rw [Blk.modLaunch_entry hrun, Option.map_map, Blk.entry, hsb, Blk.entry]
    congr 1
    funext x
    rw [Function.comp, x.setLaunch_eq]
  · rw [Blk.modLaunch_eq hrun, hd]
    exact List.foldlRecOn on (Blk.dropOn j) (motive := fun c : Blk => (c.engine e).Stopped j r) h
      fun c hc t _ => Blk.dropOn_stopped j t hc

/-- An engine whose state is not that after reset is listed. -/
theorem Blk.mem_engIds {p : Nat → Eng → Bool} (hne : b.engine e ≠ {}) (hp : p e (b.engine e) = true) : e ∈ b.engIds p := by
  refine List.mem_filter.2 ⟨?_, hp⟩
  have hfind : ∀ m : SMap Eng, SMap.get {} m e ≠ {} → e ∈ m.map (·.1) := by
    intro m
    induction m with
    | nil => exact fun h => absurd rfl h
    | cons y m ih =>
      intro h
      by_cases hy : y.1 = e
      · simp [hy]
      · refine List.mem_cons_of_mem _ (ih ?_)
        simpa [SMap.get, PMap.find, hy] using h
  exact hfind b.eng hne
/-- A launch that an engine runs does not complete yet. -/
theorem Blk.finishLaunch_held {q n : Nat} (h : (b.engine e).job = some { run := false, q := q, n := n }) : b.finishLaunch q n = b := by
  unfold Blk.finishLaunch
  cases hx : b.entry q n with
  | none => rfl
  | some x =>
    have hxq : x.q = q ∧ x.n = n := by simpa using List.find?_some hx
    have hmem : e ∈ b.holders x.job := by
      refine Blk.mem_engIds (fun h0 => ?_) ?_
      · rw [h0] at h
        cases h
      · simp [Eng.holds, h, SbEntry.job, hxq]
    have hheld : (b.holders x.job).isEmpty = false := by
      rw [List.isEmpty_eq_false_iff]
      exact List.ne_nil_of_mem hmem
    dsimp only
    split
    · rw [if_pos (by simp [hheld])]
    · rfl

/-- A launch that ends while an engine has stopped a tile of it keeps the status, and waits for that engine. -/
theorem Blk.endJob_stopped {x : SbEntry} {r : BitVec 19} (hrun : j.run = false) (hx : b.entry j.q j.n = some x)
    (hend : x.ending = none) (h : (b.engine e).Stopped j r) (st : Stat) :
    b.EngineWork (b.endJob j st .retire) ∧ ((b.endJob j st .retire).engine e).Stopped j r
      ∧ ((b.endJob j st .retire).entry j.q j.n).map (·.ending) = some (some st) := by
  generalize hr : b.endJob j st .retire = c
  unfold Blk.endJob at hr
  extract_lets b1 b2 b3 at hr
  have h1 : (b1.entry j.q j.n).map (·.ending) = some (some st) := by
    simp only [b1, hrun, Bool.false_eq_true, if_false]
    rw [Blk.modEntry_entry, hx]
    · simp [hend, endingOf]
    · exact fun _ => ⟨rfl, rfl⟩
  have hw1 : b.EngineWork b1 ∧ b1.eng = b.eng := by
    simp only [b1, hrun, Bool.false_eq_true, if_false]
    exact ⟨rfl, rfl⟩
  obtain ⟨hw2, h2, hs2⟩ := Blk.dropTiles_spec hrun b1
  have hs : (b2.engine e).Stopped j r := hs2 e r (by rw [Blk.engine, hw1.2]; exact h)
  have hw3 : b2.EngsOnly b3 := Blk.EngsOnly.foldl (fun c t => c.engsOnly_modEng t _) _ b2
  have hs3 : (b3.engine e).Stopped j r := by
    refine List.foldlRecOn _ _ (motive := fun c : Blk => (c.engine e).Stopped j r) hs fun c hc t ht => ?_
    have hte : e ≠ t := by
      rintro rfl
      have hnone := (List.mem_filter.1 ht).2
      simp [hs.2.1] at hnone
    rw [Blk.stopTile, c.modEng_engine_ne _ hte]
    exact hc
  have hdone : b3.finishJob j = b3 := by
    obtain ⟨run, q, n⟩ := j
    cases hrun
    exact Blk.finishLaunch_held hs3.1
  rw [← hr, hdone]
  refine ⟨(hw1.1.trans hw2).trans hw3.engineWork, hs3, ?_⟩
  have hsb : b3.sb = b2.sb := by rw [hw3]
  rw [Blk.entry, hsb]
  exact h2.trans h1

/-- A fault stops the tile, shows in ENG_FAULT, is logged, and ends the launch. -/
theorem Blk.reportFault_spec (x : Env) {en : SbEntry} {l : Launch} {code : W8} {bundle : Nat} (hjob : (b.engine e).job = some j)
    (hrun : j.run = false) (hpf : (b.engine e).pendFault = some (code, bundle)) (hen : b.entry j.q j.n = some en)
    (hl : en.prog = .launch l) (htwin : l.twin = none) (hend : en.ending = none) :
    let v := b.engine e
    let c := b.reportFault x e
    (c.engine e).Stopped j (BitVec.ofNat 19 (code.toNat + 2 ^ 8 * (bundle % 1024) + 2 ^ 18 * b2n v.active))
      ∧ (c.entry j.q j.n).map (·.ending) = some (some (Stat.err code (engDetail e bundle v.active v.tile)))
      ∧ ({ b with flt := c.flt } : Blk).EngineWork c ∧ b.flt.LogOnly c.flt := by
  intro v
  let reg := BitVec.ofNat 19 (code.toNat + 2 ^ 8 * (bundle % 1024) + 2 ^ 18 * b2n v.active)
  let c := b.setEng e { v with faultReg := reg, pendFault := none, stop := some .ended }
  let d := c.engLog x 5 code e (some j) (engDetail e bundle v.active v.tile)
  obtain ⟨hd, hlog⟩ : c.Logged d := c.log_logged x _
  have hreport : b.reportFault x e
      = (d.stopTile .ended e).endJob j (Stat.err code (engDetail e bundle v.active v.tile)) .retire := by
    have hlaunch : (d.launch? j).bind (·.twin) = none := by
      rw [Blk.launch?_of_sb (b := b) hrun (by rw [hd]; rfl), Blk.launch?_of_entry hrun hen hl]
      exact htwin
    have hfail : b.reportFault x e
        = d.failTile e j code (engDetail e bundle v.active v.tile) (.fault code bundle v.active v.tile) := by
      unfold Blk.reportFault
      dsimp only
      split
      next j' code' bundle' hj hp =>
        cases hjob.symm.trans hj
        cases hpf.symm.trans hp
        rw [hrun]
        rfl
      next hno => exact absurd hpf (hno j code bundle hjob)
    rw [hfail, Blk.failTile, hlaunch]
  have hstop : ((d.stopTile .ended e).engine e).Stopped j reg := by
    have hde : d.engine e = { v with faultReg := reg, pendFault := none, stop := some .ended } := by
      rw [hd]
      exact b.setEng_engine e _
    rw [Blk.stopTile, Blk.modEng_engine, hde]
    simp [Eng.Stopped, v, hjob]
  have hen' : (d.stopTile .ended e).entry j.q j.n = some en := by
    rw [← hen, hd]
    rfl
  obtain ⟨hwork, hs, hending⟩ := Blk.endJob_stopped hrun hen' hend hstop (Stat.err code (engDetail e bundle v.active v.tile))
  have hflt : ((d.stopTile .ended e).endJob j (Stat.err code (engDetail e bundle v.active v.tile)) .retire).flt = d.flt := by
    rw [hwork]
    rfl
  rw [hreport]
  refine ⟨hs, hending, ?_, ?_⟩
  · rw [hflt]
    refine Blk.EngineWork.trans ?_ hwork
    rw [hd]
    rfl
  · rw [hflt]
    exact hlog

/-! ### Tensor descriptors come in (R186, R188) -/

theorem Eng.landRow_eq (v : Eng) (soc lm : Nat) (got : List (LineNo × Line)) :
    v.landRow soc lm got = { v with lm := v.lm.landLines soc lm got, badLm := (v.landRow soc lm got).badLm } := rfl

variable {k : DescCopy} {l : Launch}

/-- The engine whose copy k of tensor descriptors is complete and no longer awaited. -/
def Eng.copied (k : DescCopy) (v : Eng) : Eng := { v with copies := v.copies.erase k, descWait := false }

/-- A copy that the engine's tile waits for lets it go on, or faults it. -/
theorem Blk.copyDone_waited (hlast : lastCopy k.job (b.engine e).copies = some k) (hl : b.launch? k.job = some l)
    (hwait : (b.engine e).descWait = true) (hfor : (b.engine e).descFor = some k.job) :
    b.EngOnly e (b.copyDone e k)
      ∧ (k.bad = false →
          (b.copyDone e k).engine e = ((b.engine e).copied k).landRow (l.addr.toNat + 128) l.descLm k.got)
      ∧ (k.bad = true → (b.engine e).pendFault = none →
          (b.copyDone e k).engine e = { (b.engine e).copied k with pendFault := some (Code.engDraw, 0) }) := by
  let d := (b.setEng e { b.engine e with copies := (b.engine e).copies.erase k }).modEng e fun v => { v with descWait := false }
  have heq : b.copyDone e k = if k.bad then d.faultTile e Code.engDraw 0
      else d.modEng e fun v => v.landRow (l.addr.toNat + 128) l.descLm k.got := by
    have hl' : ∀ v, (b.setEng e v).launch? k.job = some l := fun _ => hl
    simp only [Blk.copyDone, hlast, ne_eq, not_true_eq_false, if_false, hl', hwait, hfor, BEq.rfl, Bool.and_self, if_true, d]
  have hd : b.EngOnly e d := (b.engOnly_setEng e _).trans (Blk.engOnly_modEng _ e _)
  have hde : d.engine e = (b.engine e).copied k := by
    rw [Blk.modEng_engine, Blk.setEng_engine]
    rfl
  rw [heq]
  refine ⟨?_, fun hgood => ?_, fun hbad hpf => ?_⟩
  · split
    · exact hd.trans (d.engOnly_modEng e _)
    · exact hd.trans (d.engOnly_modEng e _)
  · rw [hgood, if_neg Bool.false_ne_true, Blk.modEng_engine, hde]
  · rw [hbad, if_pos rfl, Blk.faultTile_none (by rw [hde]; exact hpf), Blk.setEng_engine, hde]

/-- A copy of a binding counts for its standing launch. -/
theorem Blk.copyDone_binding {st : Standing} (hlast : lastCopy k.job (b.engine e).copies = some k) (hl : b.launch? k.job = some l)
    (hwait : (b.engine e).descWait = false) (hgood : k.bad = false) (hrun : k.job.run = true)
    (hst : b.findStand k.job.q k.job.n = some st) (hbound : st.bound = false) (hnew : st.copied.contains e = false) :
    b.copyDone e k = ((b.setEng e { b.engine e with copies := (b.engine e).copies.erase k }).modStand st.q st.n
      fun s => { s with copied := s.copied ++ [e] }).modEng e fun v => v.landRow (l.addr.toNat + 128) l.descLm k.got := by
  have hl' : ∀ v, (b.setEng e v).launch? k.job = some l := fun _ => hl
  have hst' : ∀ v, (b.setEng e v).findStand k.job.q k.job.n = some st := fun _ => hst
  simp only [Blk.copyDone, hlast, ne_eq, not_true_eq_false, if_false, hl', hwait, Bool.false_and, Bool.false_eq_true, hst', hrun,
    hbound, hnew, hgood, Bool.not_true, Bool.or_self]

end

/-- Settles O25: the start, the completion and the fault of a tile, and the copies of tensor descriptors, each by the lemma that
says what its operation leaves. -/
theorem tileLife : Obligations.TileLife := by
  unfold Obligations.TileLife
  intro s e b v
  refine ⟨?_, ?_, ?_, ?_⟩
  · intro j r l k hrun hclk hmay hdeque hl hst hprog hj
    have hexec : exec (.tileStart e) s = .next { s with blk := b.startTile s.env e } := by
      simp [exec, execTileStart, State.onBlk, hrun, hclk, hmay, b]
    rw [Blk.startTile_ready s.env hdeque hl hj hst hprog] at hexec
    have hbegin := fun (d : List (Job × Range)) (ar : EngArch) =>
      Eng.beginTile_rested (v := { v with deque := d }) (Blk.mayStartTile_rests hmay) s.env j r.lo ar
    obtain ⟨t, ht⟩ := Blk.tileEv_engine s.env e 0 j r.lo (b.modEng e fun v =>
      ({ v with deque := if r.lo + 1 < r.hi then [(j, { lo := r.lo + 1, hi := r.hi })] else [] } : Eng).beginTile s.env j r.lo
        (tileArch l r.lo none))
    rw [Blk.modEng_engine, hbegin] at ht
    obtain ⟨hframe, hothers⟩ := (b.engOnly_modEng e _).trans (Blk.engOnly_tileEv s.env e 0 j r.lo _)
    refine ⟨_, hexec, hframe, ?_, fun tm tn tb hm hn hlo => Launch.coords_of hm hn hlo, hothers⟩
    rw [ht]
    rfl
  · intro j x l hrun hclk hjob hended hstop hpf hst hidle hpend hj hret hx hl htwin hyield
    have hexec : exec (.tileComplete e) s = .next { s with blk := (b.completeTile s.env e).pump s.env } := by
      simp [exec, execTileComplete, State.onWork, State.onBlk, hrun, hclk, hjob, hended, hstop, hpf, hst, hidle, b, v]
    obtain ⟨d, m, n, t, hd, hde, heq⟩ := Blk.completeTile_eq s.env hpend hjob hj
    rw [heq] at hexec
    have hl' : d.launch? j = some l := by
      rw [Blk.launch?_of_sb (b := b) hj (by rw [hd.1]), Blk.launch?_of_entry hj hx hl]
    have hret' : d.retired j = false := by
      rw [← hret, hd.1]
      rfl
    obtain ⟨htiles, hdigest, hdone⟩ := Blk.tileDone_launch (e := e) hret' hj hl' htwin
    have heng : ∀ i, (d.tileDone e j).engine i = d.engine i := fun i => by
      rw [hdone]
      rfl
    obtain ⟨hnone, hdeque, hothers, hafter⟩ := Blk.afterTile_unmarked (b := d.tileDone e j) (e := e) s.env (by
      rw [heng, hde]
      exact hyield)
    have hsame : ((d.tileDone e j).afterTile s.env e).launch? j = (d.tileDone e j).launch? j :=
      Blk.launch?_of_sb hj (by rw [hafter])
    refine ⟨_, hexec, hnone, ?_, ?_, ?_, fun i hi => ?_, ?_, ?_, ?_⟩
    · rw [hdeque, heng, hde]
      rfl
    · rw [hsame, htiles]
    · rw [hsame, hdigest, hde]
      rfl
    · rw [hothers i hi, heng, hd.2 i hi]
    · refine hd.engineWork.trans (Blk.EngineWork.trans (c := d.tileDone e j) ?_ ?_)
      · rw [hdone]
        rfl
      · rw [hafter]
        rfl
    · rw [hafter, hdone, hd.1]
    · rw [hafter, hdone, hd.1]
  · intro j x l code bundle hup hjob hj hpf hx hl htwin hend
    have hexec : exec (.tileFault e) s = .next { s with blk := (b.reportFault s.env e).pump s.env } := by
      have hstart : b.faultStart s.env e = b := by
        simp [Blk.faultStart, show (b.engine e).job = some j from hjob]
      simp [exec, execTileFault, State.onWork, State.onBlk, hup, hpf, hstart, b, v]
    obtain ⟨⟨-, hstop, hnone, hreg⟩, hending, hwork, hlog⟩ := Blk.reportFault_spec s.env hjob hj hpf hx hl htwin hend
    exact ⟨_, hexec, hnone, hstop, hreg, hending, hwork, hlog⟩
  · intro k l landed sound hrun hfind hlast hl
    have hexec : exec (.descriptorCopyDone e) s = .next { s with blk := (b.copyDone e k).pump s.env } := by
      simp [exec, execDescriptorCopyDone, State.onWork, State.onBlk, hrun, hfind, b, v]
    refine ⟨fun hwait hfor => ?_, fun st hwait hgood hj hst hq hn hbound hnew => ?_⟩
    · obtain ⟨⟨hframe, hothers⟩, hgood, hbad⟩ := Blk.copyDone_waited hlast hl hwait hfor
      exact ⟨_, hexec, hframe, hgood, hbad, hothers⟩
    · rw [Blk.copyDone_binding hlast hl hwait hgood hj hst hbound hnew] at hexec
      have hcopied := Blk.modStand_findStand (b := b) (q := st.q) (n := st.n) (f := fun s => { s with copied := s.copied ++ [e.val] })
        fun _ => ⟨rfl, rfl⟩
      rw [hq, hn, hst] at hcopied
      refine ⟨_, hexec, rfl, ?_, ?_, fun i hi => ?_⟩
      · rw [Blk.modEng_engine]
        exact congrArg (Eng.landRow · _ _ _) (b.setEng_engine e _)
      · rw [hq, hn]
        exact congrArg (Option.map (·.copied)) hcopied
      · rw [Blk.modEng_engine_ne _ _ hi]
        exact b.setEng_engine_ne _ hi

end Sys2Proof.Machine

/-! # Loads start

IMEM_LOAD and WEIGHT_STREAM as they enter: what joining the scoreboard leaves alone, the banks that begin to load, and the
first lines asked for. -/

namespace Sys2Proof.Machine

/-! ### Reading on after a slot (06 R157, 14 R361) -/

/-- Between the two blocks only queues, sequencers, messages sent and tallies differ. -/
def Blk.SlotWork (b c : Blk) : Prop :=
  c = { b with qs := c.qs, sq := c.sq, mem := { b.mem with ring := c.mem.ring }, trc := { b.trc with tally := c.trc.tally } }

section
variable {b c d : Blk}

theorem Blk.SlotWork.refl (b : Blk) : b.SlotWork b := rfl
theorem Blk.SlotWork.trans (h : b.SlotWork c) (k : c.SlotWork d) : b.SlotWork d := by
  unfold Blk.SlotWork at *
  rw [h] at k
  exact k
theorem Blk.SlotWork.ite {p : Prop} [Decidable p] (h : b.SlotWork c) (k : b.SlotWork d) : b.SlotWork (if p then c else d) := by
  split <;> assumption
theorem Blk.slotWork_askSlot {q n : Nat} (h : b.askSlot q n = some c) : b.SlotWork c := by
  unfold Blk.askSlot at h
  split at h
  · cases h
    rfl
  split at h
  · simp only [Blk.seqAsk, Option.map_eq_some_iff] at h
    obtain ⟨i, -, rfl⟩ := h
    rfl
  · cases h
    rfl
theorem Blk.slotWork_readSlot (q n : Nat) (b : Blk) : b.SlotWork (b.readSlot q n) := by
  refine .ite rfl ?_
  cases h : b.askSlot q n with
  | none => rfl
  | some c => exact Blk.slotWork_askSlot h
theorem Blk.slotWork_readOn (q : Nat) (b : Blk) : b.SlotWork (b.readOn q) :=
  List.foldlRecOn _ _ (motive := b.SlotWork) rfl fun c hc _ _ => hc.trans (c.slotWork_readSlot _ _)
theorem Blk.slotWork_takeUp (s q : Nat) (b : Blk) : b.SlotWork (b.takeUp s q) := by
  unfold Blk.takeUp
  dsimp only
  split
  · rfl
  · refine Blk.SlotWork.trans ?_ (Blk.slotWork_readOn _ _)
    rfl
theorem Blk.slotWork_kick (s : Nat) (b : Blk) : b.SlotWork (b.kick s) := by
  unfold Blk.kick
  split
  · rfl
  split
  · rfl
  · exact b.slotWork_takeUp _ _
theorem Blk.slotWork_advanceHead (q : Nat) (b : Blk) : b.SlotWork (b.advanceHead q) := by
  refine .ite rfl (.ite ?_ (.ite ?_ ?_))
  · refine Blk.SlotWork.trans ?_ (Blk.slotWork_kick _ _)
    rfl
  · refine Blk.SlotWork.trans ?_ (Blk.slotWork_kick _ _)
    rfl
  · refine Blk.SlotWork.trans ?_ (Blk.slotWork_readOn _ _)
    rfl

/-- A command without a descriptor joins the scoreboard, and is counted. -/
theorem Blk.joinSb_plain {e : SbEntry} (h : hasDesc e.opcode = false) (b : Blk) : b.joinSb e
    = ({ b with sb := b.sb ++ [e], dsp := { b.dsp with nextOrd := b.dsp.nextOrd + 1 } } : Blk).bumpAll 0x03
        ((b.wv.cur.owner e.q).getD 0) := by
  have hlaunch : e.opcode ≠ opLAUNCH := by
    intro hop
    rw [hop] at h
    cases h
  simp only [Blk.joinSb, h, hlaunch, Bool.false_eq_true, if_false]
/-- Besides queues and sequencers, only the scoreboard changes as the command enters. -/
theorem Blk.addEntry_plain {e : SbEntry} (h : hasDesc e.opcode = false) (b : Blk) :
    ({ b with sb := b.sb ++ [e], dsp := { b.dsp with nextOrd := b.dsp.nextOrd + 1 } } : Blk).SlotWork (b.addEntry e) := by
  refine Blk.SlotWork.trans ?_ (Blk.slotWork_advanceHead _ _)
  rw [Blk.joinSb_plain h]
  rfl
theorem Blk.addEntry_head {e : SbEntry} (h : hasDesc e.opcode = false) (b : Blk) :
    ((b.addEntry e).que e.q).head = (b.que e.q).head + 1 := by
  have hnear := b.addEntry_near e e.q
  rw [if_pos rfl, Blk.joinSb_que h] at hnear
  rw [hnear]

end

/-! ### Entries at the end of the scoreboard -/

section
variable {b : Blk} {x : SbEntry} {l : List SbEntry}

theorem Blk.modEntry_sb_last (h : b.sb = l ++ [x]) (hl : ∀ f ∈ l, f.q ≠ x.q) (f : SbEntry → SbEntry) :
    (b.modEntry x.q x.n f).sb = l ++ [f x] := by
  have hsame : l.map (fun y => if y.q == x.q && y.n == x.n then f y else y) = l :=
    (List.map_congr_left fun y hy => by simp [hl y hy]).trans (List.map_id' l)
  simp only [Blk.modEntry, h, List.map_append, hsame]
  simp
theorem Blk.find_ord_last (h : b.sb = l ++ [x]) (hl : ∀ f ∈ l, f.ord ≠ x.ord) :
    b.sb.find? (fun e => e.ord == x.ord) = some x := by
  have hnone : l.find? (fun e => e.ord == x.ord) = none := by simpa using hl
  simp [h, List.find?_append, hnone]
/-- An entry without a launch at the end of the scoreboard adds no launch. -/
theorem Blk.launch?_of_append {c : Blk} (hsb : c.sb = b.sb ++ [x]) (hstand : c.stand = b.stand) (hx : x.launch? = none) (j : Job) :
    c.launch? j = b.launch? j := by
  have hentry : (c.entry j.q j.n).bind SbEntry.launch? = (b.entry j.q j.n).bind SbEntry.launch? := by
    rw [Blk.entry, Blk.entry, hsb, List.find?_append]
    cases b.sb.find? fun e => e.q == j.q && e.n == j.n with
    | some y => rfl
    | none =>
      rw [Option.none_or, List.find?_singleton]
      split
      · exact hx
      · rfl
  simp only [Blk.launch?, hentry, Blk.findStand, hstand]

end

/-! ### The checks of a load (R181, R197) -/

theorem orBad_none {a b : Option Bad} (h : orBad a b = none) : a = none ∧ b = none := by
  cases a with
  | none => exact ⟨rfl, h⟩
  | some x => cases h
theorem firstBad_none {l : List (Nat × Bad)} (h : firstBad l = none) : l = [] := by
  cases l with
  | nil => rfl
  | cons x l => cases h
/-- An IMEM_LOAD that passes its checks has an image. -/
theorem imemLen_pos {w : Weave} {grants : W32} {q : Nat} {l : Line} {d : Option Desc} (hop : Slot.opcode l = opIMEM)
    (h : checkSlot w grants q l d = none) : 0 < imemLen l := by
  have hearly : checkEarly w grants q l = none := (orBad_none h).1
  have hrange : checkRange w q l = none := by
    unfold checkEarly at hearly
    split at hearly
    · cases hearly
    · exact (orBad_none (orBad_none hearly).2).2
  have hlen := firstBad_none hrange
  simp [hop, opIMEM, opLAUNCH, opSTAND, opUNSTAND, opCOPY, opFILL, badIf] at hlen
  obtain ⟨-, -, ⟨⟨hne, -⟩, -⟩, -⟩ := hlen
  exact Nat.pos_of_ne_zero hne

/-! ### Banks that begin to load (R97, R98) -/

/-- An engine whose bank begins to load program `id`. -/
def Eng.loading (on act : Bool) (id : W16) (v : Eng) : Eng :=
  v.setBank (v.loadTarget on act) { v.bank (v.loadTarget on act) with st := if act && on then .waiting else .loading, newProg := id }
/-- The bank an IMEM_LOAD chooses on engine t begins to load. -/
def Blk.loadBank (act : Bool) (id : W16) (b : Blk) (t : Nat) : Blk := b.modEng t (Eng.loading (b.launchOn t) act id)

section
variable {b c : Blk} {t : Nat}

theorem Blk.launchOn_congr (he : c.engine t = b.engine t) (hs : c.dsp.steals = b.dsp.steals) : c.launchOn t = b.launchOn t := by
  simp only [Blk.launchOn, he, hs]

/-- Each target's bank begins to load, once. -/
theorem Blk.foldl_loadBank (act : Bool) (id : W16) {ts : List Nat} (hnd : ts.Nodup) (b : Blk) : let c := ts.foldl (Blk.loadBank act id) b
    b.EngsOnly c ∧ (∀ t ∈ ts, c.engine t = (b.engine t).loading (b.launchOn t) act id) ∧ ∀ t, t ∉ ts → c.engine t = b.engine t := by
  induction ts generalizing b with
  | nil => exact ⟨rfl, by simp, fun _ _ => rfl⟩
  | cons t ts ih =>
    obtain ⟨ht, hnd⟩ := List.nodup_cons.1 hnd
    obtain ⟨hframe, hmem, hnot⟩ := ih hnd (b.loadBank act id t)
    have hsame : ∀ u, u ≠ t → (b.loadBank act id t).engine u = b.engine u := fun u hu => b.modEng_engine_ne _ hu
    refine ⟨(b.engsOnly_modEng t _).trans hframe, fun u hu => ?_, fun u hu => ?_⟩
    · rcases List.mem_cons.1 hu with rfl | hu
      · exact (hnot u ht).trans (b.modEng_engine u _)
      · have hut : u ≠ t := fun h => ht (h ▸ hu)
        rw [List.foldl_cons, hmem u hu, hsame u hut, Blk.launchOn_congr (hsame u hut) rfl]
    · rw [List.mem_cons, not_or] at hu
      exact (hnot u hu.2).trans (hsame u hu.1)

theorem loadTargets_nodup (b : Blk) (q : Nat) (l : Line) : (loadTargets b q l).Nodup := by
  unfold loadTargets
  split
  · unfold Weave.queueEngines
    split
    · exact List.nodup_range.filter _
    · exact List.nodup_nil
  · exact List.nodup_singleton _
theorem SMap.get_nil (t : Nat) : SMap.get 0 ([] : SMap Nat) t = 0 := rfl
theorem SMap.get_foldl_set (f : Nat → Nat) {ts : List Nat} {t : Nat} (m : SMap Nat)
    (h : t ∈ ts ∨ SMap.get 0 m t = f t) : SMap.get 0 (ts.foldl (fun m t => SMap.set 0 m t (f t)) m) t = f t := by
  induction ts generalizing m with
  | nil => simpa using h
  | cons u ts ih =>
    refine ih _ ?_
    by_cases hu : t = u
    · subst hu
      exact .inr (SMap.get_set_self 0 m t _)
    · rw [SMap.get_set_ne _ _ _ hu]
      rcases h with h | h
      · exact .inl ((List.mem_cons.1 h).resolve_left hu)
      · exact .inr h

end

/-! ### The first lines of a load (R197, R198) -/

section
variable {b c d : Blk} {x : SbEntry} {k : LoadSt} {t0 : EngineId} {r : List Nat}

/-- The load of entry x is to ask for what it needs. -/
def Blk.Loading (b : Blk) (x : SbEntry) (k : LoadSt) : Prop :=
  b.sb.find? (fun e => e.ord == x.ord) = some x ∧ x.prog = .load k ∧ x.ending = none ∧ b.running = true
/-- An IMEM_LOAD asks for its first line, for the first of its targets. -/
theorem Blk.loadNext_imem (h : b.Loading x k) (hop : x.opcode = opIMEM) (hts : k.targets = t0.val :: r) (hout : k.outst = [])
    (hgot : k.got = []) (hlen : 0 < imemLen x.slot) : b.loadNext x.ord
    = (b.modEntry x.q x.n fun e => { e with prog := .load { k with outst := [(0, 1)] } }).send
        (.rdonce (.image x.ord t0) (lineOf (Slot.q64 x.slot 8))) := by
  obtain ⟨hfind, hprog, hend, hrun⟩ := h
  have hlt : t0.val < 64 := t0.isLt
  simp [Blk.loadNext, hfind, hprog, hend, hrun, hop, hts, hout, hgot, hlen, hlt, SMap.get_nil]
  rfl

/-- One message for each of the engines. -/
def Blk.sendEach (m : EngineId → Instr) (ts : List Nat) (b : Blk) : Blk :=
  ts.foldl (fun b t => if h : t < 64 then b.send (m ⟨t, h⟩) else b) b
theorem Blk.sendEach_cons (m : EngineId → Instr) (u : Nat) (ts : List Nat) (b : Blk) :
    b.sendEach m (u :: ts) = if h : u < 64 then (b.send (m ⟨u, h⟩)).sendEach m ts else b.sendEach m ts := by
  by_cases h : u < 64 <;> simp [Blk.sendEach, h]
/-- Only messages are added, one for each of the engines among them. -/
theorem Blk.sendEach_spec (m : EngineId → Instr) (ts : List Nat) (b : Blk) : b.QueueWork (b.sendEach m ts)
    ∧ (b.sendEach m ts).qs = b.qs ∧ (b.sendEach m ts).sb = b.sb ∧ (∀ i ∈ b.mem.ring, i ∈ (b.sendEach m ts).mem.ring)
    ∧ ∀ t : EngineId, t.val ∈ ts → m t ∈ (b.sendEach m ts).mem.ring := by
  induction ts generalizing b with
  | nil => exact ⟨rfl, rfl, rfl, fun _ h => h, by simp⟩
  | cons u ts ih =>
    rw [Blk.sendEach_cons]
    split
    · next hu =>
      obtain ⟨hwork, hqs, hsb, hold, hnew⟩ := ih (b.send (m ⟨u, hu⟩))
      refine ⟨(b.queueWork_send _).trans hwork, hqs, hsb, fun i hi => hold i (by simp [hi]), fun t ht => ?_⟩
      rcases List.mem_cons.1 ht with rfl | ht
      · exact hold _ (by simp)
      · exact hnew t ht
    · next hu =>
      obtain ⟨hwork, hqs, hsb, hold, hnew⟩ := ih b
      exact ⟨hwork, hqs, hsb, hold, fun t ht => hnew t ((List.mem_cons.1 ht).resolve_left fun h => hu (h ▸ t.isLt))⟩
/-- A WEIGHT_STREAM asks for the first line of each of its targets. -/
theorem Blk.loadNext_stream (h : b.Loading x k) (hop : x.opcode = opWS) (hts : k.targets ≠ []) (hout : k.outst = [])
    (hgot : k.got = []) (hlen : Slot.d32 x.slot 0x14 ≠ 0) : b.loadNext x.ord
    = (b.modEntry x.q x.n fun e => { e with prog := .load { k with outst := k.targets.foldl (fun m t => SMap.set 0 m t 1) [] } }).sendEach
        (fun t => .rdonce (.stream x.ord t) (lineOf (Slot.q64 x.slot 8))) k.targets := by
  obtain ⟨hfind, hprog, hend, hrun⟩ := h
  have hpos : 0 < Slot.d32 x.slot 0x14 := Nat.pos_of_ne_zero hlen
  have himem : ¬ opWS = opIMEM := by decide
  simp [Blk.loadNext, hfind, hprog, hend, hrun, hop, himem, hts, hpos, hout, hgot, SMap.get_nil, Blk.sendEach]

end

/-! ### Entering (06 R157, R177) -/

section
variable {b c d : Blk} {q : Queue} {l : Line} {op : W8} {x : SbEntry} {k : LoadSt}

theorem Blk.QueueWork.running (h : b.QueueWork c) : c.running = b.running := by
  rw [h]
  rfl
theorem Blk.QueueWork.engine (h : b.QueueWork c) (t : Nat) : c.engine t = b.engine t := by
  rw [h]
  rfl
theorem Blk.QueueWork.loadTargets (h : b.QueueWork c) (q : Nat) (l : Line) :
    Machine.loadTargets c q l = Machine.loadTargets b q l := by
  rw [h]
  rfl
theorem Blk.QueueWork.launchOn (h : b.QueueWork c) (t : Nat) : c.launchOn t = b.launchOn t :=
  Blk.launchOn_congr (h.engine t) (by rw [h])
/-- Engines that change before the rest of the work change in all of it. -/
theorem Blk.QueueWork.afterEngs (h : b.QueueWork c) (k : c.EngsOnly d) {f : Blk} (m : d.QueueWork f) :
    ({ b with eng := f.eng } : Blk).QueueWork f := by
  have heng : f.eng = d.eng := by rw [m]
  rw [heng]
  unfold Blk.QueueWork Blk.EngsOnly at *
  rw [k, h] at m
  exact m
/-- An entry without a descriptor leaves the standing launches as they are. -/
theorem Blk.addEntry_stand {e : SbEntry} (h : hasDesc e.opcode = false) (b : Blk) : (b.addEntry e).stand = b.stand := by
  rw [Blk.addEntry_plain h b]
theorem Blk.newEntry_launch? (h : Slot.opcode l = op) (h1 : op ≠ opHITCH) (h2 : op ≠ opLAUNCH) (b : Blk) (q : Nat) :
    (b.newEntry q l none).launch? = none := by
  subst h
  simp [Blk.newEntry, Blk.mkEntry, SbEntry.launch?, h1, h2]
theorem Blk.pinned_congr (hs : c.stand = b.stand) (hw : c.wv.cur = b.wv.cur) (t : Nat) (k : Bank) : c.pinned t k = b.pinned t k := by
  simp only [Blk.pinned, hs, hw]
theorem Blk.winOn_congr (he : ∀ t, c.engine t = b.engine t) (hj : ∀ j, c.launch? j = b.launch? j) (hs : c.stand = b.stand)
    (hw : c.wv.cur = b.wv.cur) (t base size : Nat) : c.winOn t base size = b.winOn t base size := by
  simp only [Blk.winOn, Blk.jobsOn, Blk.standOn, he, hj, hs, hw]

/-- Entry e is the last of the scoreboard after `l`, alone in its queue and under its identifier; the block runs. -/
def Blk.LastEntry (b : Blk) (l : List SbEntry) (e : SbEntry) : Prop :=
  b.sb = l ++ [e] ∧ (∀ f ∈ l, f.q ≠ e.q) ∧ (∀ f ∈ l, f.ord ≠ e.ord) ∧ e.ending = none ∧ b.running = true
/-- Entry e, started with load k. -/
def SbEntry.load (k : LoadSt) (e : SbEntry) : SbEntry := { e with started := true, prog := .load k }
/-- The IMEM_LOAD of entry e, before its first line is asked for. -/
def Blk.imemLoad (b : Blk) (e : SbEntry) : LoadSt where
  targets := loadTargets b e.q e.slot
  banks := (loadTargets b e.q e.slot).foldl (fun m t => SMap.set 0 m t
    (1 + b2n ((b.engine t).loadTarget (b.launchOn t) (Slot.flag17 e.slot)))) []
/-- The banks that the IMEM_LOAD of entry e chooses begin to load. -/
def Blk.imemBanks (e : SbEntry) (b : Blk) : Blk :=
  (loadTargets b e.q e.slot).foldl (Blk.loadBank (Slot.flag17 e.slot) (BitVec.ofNat 16 (fAt e.slot 0x10 16 16))) b
theorem Blk.imemBanks_spec (b : Blk) (e : SbEntry) : b.EngsOnly (b.imemBanks e)
    ∧ (∀ t ∈ loadTargets b e.q e.slot, (b.imemBanks e).engine t
        = (b.engine t).loading (b.launchOn t) (Slot.flag17 e.slot) (BitVec.ofNat 16 (fAt e.slot 0x10 16 16)))
    ∧ ∀ t, t ∉ loadTargets b e.q e.slot → (b.imemBanks e).engine t = b.engine t :=
  Blk.foldl_loadBank _ _ (loadTargets_nodup b e.q e.slot) b

/-- An IMEM_LOAD starts when each target can take it. -/
theorem Blk.startImem_free {e : SbEntry} (h : ∀ t ∈ loadTargets b e.q e.slot, (b.engine t).loadPending = false
      ∧ b.pinned t ((b.engine t).bank ((b.engine t).loadTarget (b.launchOn t) (Slot.flag17 e.slot))) = false) :
    b.startImem e = ((b.imemBanks e).modEntry e.q e.n (SbEntry.load (b.imemLoad e))).loadNext e.ord := by
  have hbad : ((loadTargets b e.q e.slot).findSome? fun t => if (b.engine t).loadPending then some t
      else if b.pinned t ((b.engine t).bank ((b.engine t).loadTarget (b.launchOn t) (Slot.flag17 e.slot))) then some (t + 2 ^ 12)
      else none) = none := List.findSome?_eq_none_iff.2 fun t ht => by simp [h t ht]
  unfold Blk.startImem
  dsimp only
  rw [hbad]
  rfl
/-- A WEIGHT_STREAM with lines to copy starts when it meets no window of its targets. -/
theorem Blk.startStream_free {e : SbEntry} (hlen : Slot.d32 e.slot 0x14 ≠ 0)
    (h : ∀ t ∈ loadTargets b e.q e.slot, b.winOn t (fAt e.slot 0x10 0 20) (Slot.d32 e.slot 0x14) = false) :
    b.startStream e = (b.modEntry e.q e.n (SbEntry.load { targets := loadTargets b e.q e.slot })).loadNext e.ord := by
  have hmeet : ((loadTargets b e.q e.slot).find? fun t => b.winOn t (fAt e.slot 0x10 0 20) (Slot.d32 e.slot 0x14)) = none :=
    List.find?_eq_none.2 fun t ht => by simp [h t ht]
  unfold Blk.startStream
  simp only [hlen, if_false, hmeet]
  rfl

/-- Started, the last entry is still the last, and is to ask for the lines of its load. -/
theorem Blk.LastEntry.load {e : SbEntry} {l : List SbEntry} (h : b.LastEntry l e) (k : LoadSt) :
    (b.modEntry e.q e.n (SbEntry.load k)).LastEntry l (e.load k) ∧ (b.modEntry e.q e.n (SbEntry.load k)).Loading (e.load k) k := by
  obtain ⟨hsb, hq, hord, hend, hrun⟩ := h
  have hsb1 := Blk.modEntry_sb_last hsb hq (SbEntry.load k)
  exact ⟨⟨hsb1, hq, hord, hend, hrun⟩, Blk.find_ord_last (x := e.load k) hsb1 hord, rfl, hend, hrun⟩
theorem Blk.startLoad_imem {e : SbEntry} {l : List SbEntry} {t0 : EngineId} {r : List Nat} (h : b.LastEntry l e)
    (hop : e.opcode = opIMEM) (hts : k.targets = t0.val :: r) (hout : k.outst = []) (hgot : k.got = [])
    (hlen : 0 < imemLen e.slot) : let c := (b.modEntry e.q e.n (SbEntry.load k)).loadNext e.ord
    b.QueueWork c ∧ c.qs = b.qs ∧ c.sb = l ++ [e.load { k with outst := [(0, 1)] }]
    ∧ c.mem.ring.getLast? = some (.rdonce (.image e.ord t0) (lineOf (Slot.q64 e.slot 8))) := by
  obtain ⟨⟨hsb, hq, -⟩, hload⟩ := h.load k
  have hnext : (b.modEntry e.q e.n (SbEntry.load k)).loadNext e.ord = _ :=
    Blk.loadNext_imem (x := e.load k) hload hop hts hout hgot hlen
  dsimp only
  rw [hnext]
  exact ⟨rfl, rfl, Blk.modEntry_sb_last hsb hq _, by simp [SbEntry.load]⟩
theorem Blk.startLoad_stream {e : SbEntry} {l : List SbEntry} (h : b.LastEntry l e)
    (hop : e.opcode = opWS) (hts : k.targets ≠ []) (hout : k.outst = []) (hgot : k.got = [])
    (hlen : Slot.d32 e.slot 0x14 ≠ 0) : let c := (b.modEntry e.q e.n (SbEntry.load k)).loadNext e.ord
    b.QueueWork c ∧ c.qs = b.qs
    ∧ c.sb = l ++ [e.load { k with outst := k.targets.foldl (fun m t => SMap.set 0 m t 1) [] }]
    ∧ ∀ t : EngineId, t.val ∈ k.targets → Instr.rdonce (.stream e.ord t) (lineOf (Slot.q64 e.slot 8)) ∈ c.mem.ring := by
  obtain ⟨⟨hsb, hq, -⟩, hload⟩ := h.load k
  have hnext : (b.modEntry e.q e.n (SbEntry.load k)).loadNext e.ord = _ :=
    Blk.loadNext_stream (x := e.load k) hload hop hts hout hgot hlen
  dsimp only
  rw [hnext]
  obtain ⟨hwork, hqs, hsbs, -, hring⟩ := Blk.sendEach_spec (fun t => .rdonce (.stream (e.load k).ord t)
    (lineOf (Slot.q64 (e.load k).slot 8))) k.targets ((b.modEntry e.q e.n (SbEntry.load k)).modEntry (e.load k).q (e.load k).n
      fun e => { e with prog := .load { k with outst := k.targets.foldl (fun m t => SMap.set 0 m t 1) [] } })
  exact ⟨(b.queueWork_modEntry _ _ _).trans ((Blk.queueWork_modEntry _ _ _ _).trans hwork), hqs,
    hsbs.trans (Blk.modEntry_sb_last hsb hq _), hring⟩
theorem Blk.LastEntry.engs {e : SbEntry} {l : List SbEntry} (h : b.LastEntry l e) (k : b.EngsOnly c) : c.LastEntry l e := by
  unfold Blk.EngsOnly at k
  rw [k]
  exact h
theorem Blk.startCmd_imem {e : SbEntry} (hop : e.opcode = opIMEM) (hcode : e.code = 0) (x : Env) : b.startCmd x e = b.startImem e := by
  unfold Blk.startCmd
  rw [hop, hcode]
  rfl
theorem Blk.startCmd_stream {e : SbEntry} (hop : e.opcode = opWS) (hcode : e.code = 0) (x : Env) : b.startCmd x e = b.startStream e := by
  unfold Blk.startCmd
  rw [hop, hcode]
  rfl
/-- A clear slot without a descriptor joins the scoreboard as its last entry, and starts there. -/
theorem Blk.Clear.joins (h : b.Clear q op l none) (hord : ∀ f ∈ b.sb, f.ord ≠ b.dsp.nextOrd) (hhitch : op ≠ opHITCH)
    (hlaunch : op ≠ opLAUNCH) (hdesc : hasDesc op = false) : let e := b.newEntry q l none; let c := b.addEntry e
    c.LastEntry b.sb e ∧ (c.que q).head = (b.que q).head + 1 ∧ c.stand = b.stand ∧ ∀ j, c.launch? j = b.launch? j := by
  intro e c
  obtain ⟨hready, -, hq, -⟩ := h
  obtain ⟨hrun, -, -, -, -, -, -, -, -, -, -, -, hop⟩ := Blk.slotReady_spec hready
  have hd : hasDesc e.opcode = false := by rwa [← hop] at hdesc
  have hstand := Blk.addEntry_stand hd b
  exact ⟨⟨b.addEntry_sb e, hq, hord, rfl, (b.queueWork_addEntry e).running.trans hrun⟩, Blk.addEntry_head hd b, hstand,
    Blk.launch?_of_append (b.addEntry_sb e) hstand (Blk.newEntry_launch? hop hhitch hlaunch b q)⟩
theorem Blk.que_congr (h : c.qs = b.qs) (q : Nat) : c.que q = b.que q := by
  simp only [Blk.que, h]

end

/-- Settles O3: the entry joins as the last of the scoreboard, where its load starts and finds itself. -/
theorem loadsStart : Obligations.LoadsStart := by
  intro s q t0 r l b n e ts act side hts hord
  have hwork := b.queueWork_addEntry e
  have hcur : (b.addEntry e).wv.cur = b.wv.cur := by rw [hwork]
  have htargets : loadTargets (b.addEntry e) e.q e.slot = ts := hwork.loadTargets q l
  refine ⟨fun hclear hfree => ?_, fun hclear hlen hfree => ?_⟩
  · obtain ⟨hlast, hhead, hstand, -⟩ := hclear.joins hord (by decide) (by decide) (by decide)
    obtain ⟨henter, hop, hcode⟩ := hclear.enter s.env (by decide)
    have hside : ∀ t, ((b.addEntry e).engine t).loadTarget ((b.addEntry e).launchOn t) (Slot.flag17 e.slot) = side t := fun t => by
      rw [hwork.engine, hwork.launchOn]
      rfl
    have hstart := Blk.startImem_free (b := b.addEntry e) (e := e) fun t ht => by
      rw [hside, hwork.engine, Blk.pinned_congr hstand hcur]
      exact hfree t (htargets ▸ ht)
    obtain ⟨hengs, hin, hout⟩ := (b.addEntry e).imemBanks_spec e
    rw [htargets] at hin hout
    have hk : ((b.addEntry e).imemLoad e).targets = t0.val :: r := htargets.trans hts
    obtain ⟨hload, hqs, hsb, hring⟩ := Blk.startLoad_imem (hlast.engs hengs) hop hk rfl rfl (imemLen_pos hop hclear.2.1)
    have hexec : exec (.imemLoad q) s = .next { s with blk := ((b.addEntry e).startImem e).pump s.env } := by
      rw [← Blk.startCmd_imem hop hcode s.env, ← henter]
      rfl
    rw [hstart] at hexec
    refine ⟨_, _, hexec, hwork.afterEngs hengs hload, ?_, hsb, htargets, rfl, rfl, rfl, fun t ht => ?_,
      fun t ht => ?_, fun t ht => ?_, hring⟩
    · rw [Blk.que_congr hqs, hengs]
      exact hhead
    · rw [← htargets] at ht
      exact (SMap.get_foldl_set _ _ (.inl ht)).trans (by rw [hside])
    · rw [hload.engine, hin t ht, hwork.engine, hwork.launchOn]
      rfl
    · rw [hload.engine, hout t ht, hwork.engine]
  · obtain ⟨hlast, hhead, hstand, hlaunch⟩ := hclear.joins hord (by decide) (by decide) (by decide)
    obtain ⟨henter, hop, hcode⟩ := hclear.enter s.env (by decide)
    have hstart := Blk.startStream_free (b := b.addEntry e) (e := e) hlen fun t ht => by
      rw [Blk.winOn_congr hwork.engine hlaunch hstand hcur]
      exact hfree t (htargets ▸ ht)
    have hne : ts ≠ [] := by simp [hts]
    obtain ⟨hload, hqs, hsb, hring⟩ := Blk.startLoad_stream (k := { targets := ts }) hlast hop hne rfl rfl hlen
    have hexec : exec (.weightStream q) s = .next { s with blk := ((b.addEntry e).startStream e).pump s.env } := by
      rw [← Blk.startCmd_stream hop hcode s.env, ← henter]
      rfl
    rw [hstart, htargets] at hexec
    exact ⟨_, _, hexec, hwork.trans hload, (congrArg Que.head (Blk.que_congr hqs q)).trans hhead, hsb, rfl, rfl, rfl, rfl,
      fun t ht => SMap.get_foldl_set (fun _ => 1) _ (.inl ht), hring⟩

end Sys2Proof.Machine

/-! # Writes of a queue's page

A doorbell and a write of QUE_CTRL change the queue they name and no other. -/

namespace Sys2Proof.Machine

/-! ### Writes of a queue's page that are served (06 R159) -/

section
variable {b c d : Blk} {q : Nat}

/-- Between the two blocks only queue q differs, and tallies. -/
def Blk.QueOnly (b : Blk) (q : Nat) (c : Blk) : Prop :=
  c = { b with qs := c.qs, trc := { b.trc with tally := c.trc.tally } } ∧ ∀ r, r ≠ q → c.que r = b.que r

theorem Blk.QueOnly.refl (b : Blk) (q : Nat) : b.QueOnly q b := ⟨rfl, fun _ _ => rfl⟩
theorem Blk.QueOnly.trans (h : b.QueOnly q c) (k : c.QueOnly q d) : b.QueOnly q d := by
  obtain ⟨hc, hcr⟩ := h
  obtain ⟨hd, hdr⟩ := k
  refine ⟨?_, fun r hr => (hdr r hr).trans (hcr r hr)⟩
  rw [hc] at hd
  exact hd
theorem Blk.queOnly_setQue (b : Blk) (q : Nat) (v : Que) : b.QueOnly q (b.setQue q v) := ⟨rfl, fun _ hr => b.setQue_que_ne v hr⟩
theorem Blk.queOnly_queErr (b : Blk) (q : Nat) (code : W8) : b.QueOnly q (b.queErr q code) := b.queOnly_setQue q _
theorem Blk.queOnly_bumpAll (b : Blk) (q ev arg : Nat) : b.QueOnly q (b.bumpAll ev arg) := ⟨rfl, fun _ _ => rfl⟩
theorem Blk.queErr_que (b : Blk) (q : Nat) (code : W8) : (b.queErr q code).que q = (b.que q).after (.error code) := b.setQue_que q _
/-- Answered, a write that changes queue q alone is a page write. -/
theorem Blk.QueOnly.answered (h : b.freshResp.QueOnly q c) (a : Acc) : let d := c.respond a.seat true 0
    b.PageWrite a d ∧ d.que q = c.que q ∧ ∀ r, r ≠ q → d.que r = b.que r := by
  obtain ⟨hc, hr⟩ := h
  have hresp : c.host.resp = [] := by rw [hc]; rfl
  refine ⟨⟨?_, b.respond_wrote a hresp⟩, rfl, hr⟩
  rw [hc]
  rfl

end

/-- A whole write of a queue's page by its owner or the steward has its effect and is answered (12 R303 to R305). -/
theorem State.pageRow_served {s : State} {a : Acc} {q : Nat} (hb : s.blk.Serves a) (hj : judgePage s.env s.blk q a = none)
    (addr : Nat) (d : W32) (eff : Env → Blk → Blk) :
    s.writeRow a addr d (fun x b => judgePage x b q a) eff
      = .next { s with blk := (eff s.env s.blk.freshResp).respond a.seat true 0 } := by
  have hjudge : judgePage s.env s.blk.freshResp q a = none := hj
  obtain ⟨-, -, -, hbe⟩ := id hb
  simp [State.writeRow, State.access_served hb, Blk.hostWrite, hjudge, hbe]

/-- SR_EN and IRQ_EN of queue q take their written values (R468). -/
def Blk.enable (q : Nat) (srEn irqEn : Bool) (b : Blk) : Blk :=
  b.setQue q { b.que q with srEn := srEn, err := { (b.que q).err with irqEn := irqEn } }

section
variable {s : State} {a : Acc} {q : Queue}

theorem exec_queDoorbell (hb : s.blk.Serves a) (hj : judgePage s.env s.blk q a = none) (v : W32) :
    exec (.queDoorbell a q v) s = .next { s with blk := (s.blk.freshResp.doorbell q v).respond a.seat true 0 } := by
  simp only [exec, execQueDoorbell]
  exact State.pageRow_served hb hj _ _ _
theorem exec_create (hb : s.blk.Serves a) (hj : judgePage s.env s.blk q a = none) (srEn irqEn : Bool) :
    exec (.create a q srEn irqEn) s
      = .next { s with blk := ((s.blk.freshResp.enable q srEn irqEn).createQueue q).respond a.seat true 0 } := by
  simp only [exec, execCreate]
  exact State.pageRow_served hb hj _ _ _
theorem exec_drain (hb : s.blk.Serves a) (hj : judgePage s.env s.blk q a = none) (srEn irqEn : Bool) :
    exec (.drain a q srEn irqEn) s = .next { s with
      blk := (((s.blk.freshResp.enable q srEn irqEn).drainQueue q).pump s.env).respond a.seat true 0 } := by
  simp only [exec, execDrain]
  exact State.pageRow_served hb hj _ _ _
theorem exec_abort (hb : s.blk.Serves a) (hj : judgePage s.env s.blk q a = none) (srEn irqEn : Bool) :
    exec (.abort a q srEn irqEn) s = .next { s with
      blk := (((s.blk.freshResp.enable q srEn irqEn).abortQueue q).pump s.env).respond a.seat true 0 } := by
  simp only [exec, execAbort]
  exact State.pageRow_served hb hj _ _ _

end

/-! ### Doorbells (R163) -/

theorem Blk.doorbell_spec (b : Blk) (q : Nat) (v : W32) : b.QueOnly q (b.doorbell q v)
    ∧ (b.doorbell q v).que q = (b.que q).after (doorbellCase (b.que q) v) := by
  unfold Blk.doorbell doorbellCase
  dsimp only
  split
  · exact ⟨b.queOnly_queErr q 5, b.queErr_que q 5⟩
  split
  · exact ⟨b.queOnly_queErr q 6, b.queErr_que q 6⟩
  split
  · exact ⟨b.queOnly_queErr q 7, b.queErr_que q 7⟩
  split
  · next hv => exact ⟨.refl b q, by simp [Que.after, ← hv]⟩
  · next hv => exact ⟨(b.queOnly_setQue q _).trans (Blk.queOnly_bumpAll _ q _ _), (b.setQue_que q _).trans (by simp [Que.after, hv])⟩

/-- Settles O7: the doorbell's tests are those of R163, in their order. -/
theorem doorbellJudged : Obligations.DoorbellJudged := by
  intro s a q v b hb hj
  obtain ⟨hwork, hque⟩ := b.freshResp.doorbell_spec q v
  obtain ⟨hpage, hq, hother⟩ := hwork.answered a
  exact ⟨_, exec_queDoorbell hb hj v, hpage, hq.trans hque, hother⟩

/-! ### QUE_CTRL (R162, R468) -/

/-- The first check after that of the state that fails, as R162 orders them (`createCase`). -/
theorem Blk.createCheck_case {b : Blk} {q : Nat} (h : (b.que q).st = .free) :
    createCase (b.que q) (decide (b.wv.epoch ≠ 0) && (b.wv.cur.queuePart q).isSome)
      = (match b.createCheck q with
        | some code => .error code
        | none => .ok (b.que q).opened') := by
  have hmapped : (decide (b.wv.epoch = 0) || (b.wv.cur.queuePart q).isNone)
      = !(decide (b.wv.epoch ≠ 0) && (b.wv.cur.queuePart q).isSome) := by
    cases b.wv.cur.queuePart q <;> simp
  unfold createCase Blk.createCheck
  dsimp only
  rw [hmapped, if_neg (by simp [h])]
  cases hm : (decide (b.wv.epoch ≠ 0) && (b.wv.cur.queuePart q).isSome)
  · rfl
  have hbase : ((b.que q).srBase.toNat % 64 != 0) = decide ((b.que q).srBase.toNat % 64 ≠ 0) := Bool.eq_iff_iff.2 (by simp)
  simp only [Bool.not_true, Bool.false_eq_true, if_false, ringSizeBad, hbase]
  split
  · rfl
  split <;> rfl
theorem Blk.createQueue_spec (b : Blk) (q : Nat) : b.QueOnly q (b.createQueue q) ∧ (b.createQueue q).que q
    = (b.que q).after (createCase (b.que q) (decide (b.wv.epoch ≠ 0) && (b.wv.cur.queuePart q).isSome)) := by
  unfold Blk.createQueue
  split
  · next h =>
    have hcase : createCase (b.que q) (decide (b.wv.epoch ≠ 0) && (b.wv.cur.queuePart q).isSome) = .error 0x01 := if_pos h
    rw [hcase]
    exact ⟨b.queOnly_queErr q 1, b.queErr_que q 1⟩
  · next h =>
    rw [Blk.createCheck_case (not_not.1 h)]
    cases b.createCheck q with
    | some code => exact ⟨b.queOnly_queErr q code, b.queErr_que q code⟩
    | none => exact ⟨b.queOnly_setQue q _, b.setQue_que q _⟩

/-- Settles O8: CREATE runs its checks on the queue with SR_EN and IRQ_EN as written. -/
theorem createChecked : Obligations.CreateChecked := by
  intro s a q srEn irqEn b u hb hj
  have henable : b.freshResp.QueOnly q (b.freshResp.enable q srEn irqEn) := b.freshResp.queOnly_setQue q _
  have hu : (b.freshResp.enable q srEn irqEn).que q = u := b.freshResp.setQue_que q u
  obtain ⟨hwork, hque⟩ := (b.freshResp.enable q srEn irqEn).createQueue_spec q
  rw [hu, show (b.freshResp.enable q srEn irqEn).wv = b.wv from rfl] at hque
  obtain ⟨hpage, hq, hother⟩ := (henable.trans hwork).answered a
  exact ⟨_, exec_create hb hj srEn irqEn, hpage, hq.trans hque, hother⟩

end Sys2Proof.Machine

/-! # What commands and closing queues reach

Frames for the engines' and the dispatcher's part of queue work, and what of a queue each of them leaves. -/

namespace Sys2Proof.Machine

/-! ### Frames -/

/-- Between the two blocks only engines differ, and what the work of queues reaches. -/
def Blk.CmdWork (b c : Blk) : Prop := ({ b with eng := c.eng } : Blk).QueueWork c
/-- Between the two blocks only what unbinding a standing launch reaches differs. -/
def Blk.StandWork (b c : Blk) : Prop := c = { b with eng := c.eng, stand := c.stand, kn := c.kn }
/-- Between the two blocks only engines, launches, waiters and messages of the dispatcher differ. -/
def Blk.JobWork (b c : Blk) : Prop := c = { b with eng := c.eng, sb := c.sb, stand := c.stand, kn := c.kn, dsp := c.dsp }

section
variable {b c d : Blk}

theorem Blk.CmdWork.refl (b : Blk) : b.CmdWork b := rfl
theorem Blk.CmdWork.trans (h : b.CmdWork c) (k : c.CmdWork d) : b.CmdWork d := by
  unfold Blk.CmdWork Blk.QueueWork at *
  rw [h] at k
  exact k
theorem Blk.CmdWork.ite {p : Prop} [Decidable p] (h : b.CmdWork c) (k : b.CmdWork d) : b.CmdWork (if p then c else d) := by
  split <;> assumption
theorem Blk.QueueWork.cmdWork (h : b.QueueWork c) : b.CmdWork c := by
  unfold Blk.CmdWork Blk.QueueWork at *
  rw [h]
theorem Blk.EngsOnly.cmdWork (h : b.EngsOnly c) : b.CmdWork c := by
  unfold Blk.CmdWork
  rw [show c = _ from h]
  rfl
theorem Blk.CmdWork.engineWork (h : b.CmdWork c) : b.EngineWork c := by
  unfold Blk.EngineWork
  rw [show c = _ from h]
theorem Blk.CmdWork.pumpWork (h : b.CmdWork c) : b.PumpWork c := by
  unfold Blk.PumpWork
  rw [show c = _ from h]

theorem Blk.StandWork.refl (b : Blk) : b.StandWork b := rfl
theorem Blk.StandWork.trans (h : b.StandWork c) (k : c.StandWork d) : b.StandWork d := by
  unfold Blk.StandWork at *
  rw [h] at k
  exact k
theorem Blk.EngsOnly.standWork (h : b.EngsOnly c) : b.StandWork c := by
  unfold Blk.StandWork
  rw [show c = _ from h]
theorem Blk.StandWork.cmdWork (h : b.StandWork c) : b.CmdWork c := by
  unfold Blk.CmdWork
  rw [show c = _ from h]
  rfl
theorem Blk.StandWork.qs (h : b.StandWork c) : c.qs = b.qs := by rw [h]

theorem Blk.JobWork.refl (b : Blk) : b.JobWork b := rfl
theorem Blk.JobWork.trans (h : b.JobWork c) (k : c.JobWork d) : b.JobWork d := by
  unfold Blk.JobWork at *
  rw [h] at k
  exact k
theorem Blk.EngsOnly.jobWork (h : b.EngsOnly c) : b.JobWork c := by
  unfold Blk.JobWork
  rw [show c = _ from h]
theorem Blk.StandWork.jobWork (h : b.StandWork c) : b.JobWork c := by
  unfold Blk.JobWork
  rw [show c = _ from h]
theorem Blk.JobWork.engineWork (h : b.JobWork c) : b.EngineWork c := by
  unfold Blk.EngineWork
  rw [show c = _ from h]
theorem Blk.JobWork.qs (h : b.JobWork c) : c.qs = b.qs := by rw [h]

end

/-! ### Standing launches (R173, R191) -/

section
variable (b : Blk) (q n : Nat)

theorem Blk.engsOnly_restIdle (e : Nat) : b.EngsOnly (b.restIdle e) := by
  unfold Blk.restIdle
  split <;> rfl
theorem Blk.standWork_unbind : b.StandWork (b.unbind q n) := by
  unfold Blk.unbind
  extract_lets es c
  have hes : c.StandWork (es.foldl (fun b e => b.restIdle e) c) :=
    (Blk.EngsOnly.foldl (fun b e => b.engsOnly_restIdle e) es c).standWork
  have hc : b.StandWork c := rfl
  exact (hc.trans hes).trans rfl
theorem Blk.standWork_unbindSoon : b.StandWork (b.unbindSoon q n) := by
  unfold Blk.unbindSoon
  split
  · exact .refl b
  split
  · rfl
  · exact b.standWork_unbind q n
theorem Blk.standWork_drainStands : b.StandWork (b.drainStands q) := by
  unfold Blk.drainStands
  dsimp only
  split
  · exact List.foldlRecOn _ _ (motive := b.StandWork) rfl fun c hc n _ => hc.trans (c.standWork_unbindSoon q n)
  · exact .refl b

end

/-! ### Tiles of a job -/

section
variable (b : Blk) (j : Job) (e : Nat)

theorem Blk.jobWork_modEntry (q n : Nat) (f : SbEntry → SbEntry) : b.JobWork (b.modEntry q n f) := rfl
theorem Blk.jobWork_modLaunch (f : Launch → Launch) : b.JobWork (b.modLaunch j f) := by
  unfold Blk.modLaunch
  split <;> rfl
theorem Blk.jobWork_dropTiles : b.JobWork (b.dropTiles j) := by
  unfold Blk.dropTiles
  extract_lets on c drop steals d
  have hc : b.EngsOnly c := Blk.EngsOnly.foldl (fun b t => (b.engOnly_dropOn j t).1) on b
  have hd : c.JobWork d := by
    simp only [d]
    split <;> rfl
  exact (hc.jobWork.trans hd).trans (d.jobWork_modLaunch j _)
theorem Blk.jobWork_leaveTile (x : Env) : b.JobWork (b.leaveTile x e) := by
  unfold Blk.leaveTile
  extract_lets v
  split
  · exact .refl b
  next j _ =>
  extract_lets c d f disp g
  have hc : b.JobWork c := (b.engOnly_tileEv x e 5 j _).1.jobWork
  have hd : c.JobWork d := c.jobWork_modLaunch j _
  have hg : d.JobWork g := rfl
  have hall := (hc.trans hd).trans hg
  split
  · exact hall.trans (g.engOnly_engIdle e).1.jobWork
  · exact hall

end

/-! ### What is left of a queue -/

/-- What R172 calls the state of a queue, with STALE_CLOSE. -/
def Que.phase (u : Que) : QState × Bool := (u.st, u.staleClose)
/-- The same, with the engines that owe an acknowledgement. -/
def Que.owing (u : Que) : (QState × Bool) × List Nat := (u.phase, u.owed)
/-- Between the two blocks only what the dispatcher and the engines reach differs, and no queue's `f`. -/
def Blk.Leaves {α : Type} (f : Que → α) (b c : Blk) : Prop := b.EngineWork c ∧ ∀ r, f (c.que r) = f (b.que r)

section
variable {α : Type} {f : Que → α} {b c d : Blk}

theorem Blk.Leaves.refl (b : Blk) : b.Leaves f b := ⟨rfl, fun _ => rfl⟩
theorem Blk.Leaves.trans (h : b.Leaves f c) (k : c.Leaves f d) : b.Leaves f d :=
  ⟨h.1.trans k.1, fun r => (k.2 r).trans (h.2 r)⟩
theorem Blk.Leaves.ite {p : Prop} [Decidable p] (h : b.Leaves f c) (k : b.Leaves f d) : b.Leaves f (if p then c else d) := by
  split <;> assumption
theorem Blk.Leaves.foldl {β : Type} {g : Blk → β → Blk} (h : ∀ (b : Blk) x, b.Leaves f (g b x)) (l : List β) (b : Blk) :
    b.Leaves f (l.foldl g b) :=
  List.foldlRecOn l g (motive := b.Leaves f) (.refl b) fun c hc x _ => hc.trans (h c x)
theorem Blk.Leaves.phase (h : b.Leaves Que.owing c) : b.Leaves Que.phase c := ⟨h.1, fun r => congrArg Prod.fst (h.2 r)⟩
theorem Blk.EngineWork.leaves (h : b.EngineWork c) (hqs : c.qs = b.qs) : b.Leaves f c :=
  ⟨h, fun r => by rw [Blk.que_congr hqs]⟩
theorem Blk.JobWork.leaves (h : b.JobWork c) : b.Leaves f c := h.engineWork.leaves h.qs
theorem Blk.StandWork.leaves (h : b.StandWork c) : b.Leaves f c := h.jobWork.leaves
theorem Blk.EngsOnly.leaves (h : b.EngsOnly c) : b.Leaves f c := h.jobWork.leaves
theorem Blk.leaves_setQue (b : Blk) (q : Nat) {v : Que} (h : f v = f (b.que q)) : b.Leaves f (b.setQue q v) := by
  refine ⟨rfl, fun r => ?_⟩
  by_cases hr : r = q
  · subst hr
    rw [b.setQue_que]
    exact h
  · rw [b.setQue_que_ne v hr]

end

/-! ### Completion (R166, R168) -/

section
variable (b : Blk) (e : SbEntry)

theorem Blk.complete_leaves (st : Stat) (rel : BitVec 4) : b.Leaves Que.owing (b.complete e st rel) := by
  refine ⟨(b.queueWork_complete e st rel).cmdWork.engineWork, fun r => ?_⟩
  have hnear := b.complete_near e st rel r
  dsimp only at hnear
  rw [show (b.complete e st rel).que r = _ from hnear]
  split <;> rfl
theorem Blk.evalTrigger_leaves (q n : Nat) : b.Leaves Que.owing (b.evalTrigger q n) := by
  obtain ⟨hqs, -⟩ := b.evalTrigger_qs q n
  exact (b.queueWork_evalTrigger q n).cmdWork.engineWork.leaves hqs
theorem Blk.finishLaunch_leaves (q n : Nat) : b.Leaves Que.owing (b.finishLaunch q n) := by
  unfold Blk.finishLaunch
  split
  · exact .refl b
  split
  · split
    · exact .refl b
    next x _ _ _ st l _ _ _ =>
    extract_lets c
    have hc : b.Leaves Que.owing c := .ite (b.leaves_setQue q rfl) (.refl b)
    have hover : ∀ d : Blk, d.Leaves Que.owing (d.jobOver x.job) := fun _ => ⟨rfl, fun _ => rfl⟩
    exact (hc.trans (c.complete_leaves x _ 0)).trans (hover _)
  · exact .refl b
/-- A STAND binds, waits, or fails; its completion comes after what it does to engines and waiters (R188). -/
theorem Blk.bindStand_cases : ∃ c, b.StandWork c ∧ (b.bindStand e = c ∨ (∃ st, b.bindStand e = c.complete e st 0)
    ∨ b.bindStand e = (c.complete e .ok 0).evalTrigger e.q e.n) := by
  unfold Blk.bindStand
  split
  · exact ⟨b, .refl b, .inl rfl⟩
  next s _ =>
  extract_lets es c d f
  split
  · exact ⟨_, b.standWork_unbind e.q e.n, .inr (.inl ⟨_, rfl⟩)⟩
  split
  · have hd : c.StandWork d := (Blk.EngsOnly.foldl (fun b t => b.engsOnly_modEng t _) es c).standWork
    have hc : b.StandWork c := rfl
    exact ⟨f, (hc.trans hd).trans rfl, .inr (.inr rfl)⟩
  · exact ⟨b, .refl b, .inl rfl⟩
theorem Blk.bindStand_cmdWork : b.CmdWork (b.bindStand e) := by
  obtain ⟨c, hc, h | ⟨st, h⟩ | h⟩ := b.bindStand_cases e <;> rw [h]
  · exact hc.cmdWork
  · exact hc.cmdWork.trans (c.queueWork_complete e st 0).cmdWork
  · exact hc.cmdWork.trans ((c.queueWork_complete e .ok 0).trans (Blk.queueWork_evalTrigger _ _ _)).cmdWork
theorem Blk.bindStand_leaves : b.Leaves Que.owing (b.bindStand e) := by
  obtain ⟨c, hc, h | ⟨st, h⟩ | h⟩ := b.bindStand_cases e <;> rw [h]
  · exact hc.leaves
  · exact hc.leaves.trans (c.complete_leaves e st 0)
  · exact (hc.leaves.trans (c.complete_leaves e .ok 0)).trans (Blk.evalTrigger_leaves _ _ _)
theorem Blk.queueWork_completeHitch : b.QueueWork (b.completeHitch e) := by
  unfold Blk.completeHitch
  split
  · refine Blk.queueWork_ite (.refl b) (Blk.queueWork_ite (b.queueWork_complete _ _ _) ?_)
    exact (b.queueWork_setQue _ _).trans (Blk.queueWork_complete _ _ _ _)
  · exact .refl b
theorem Blk.completeHitch_leaves : b.Leaves Que.owing (b.completeHitch e) := by
  unfold Blk.completeHitch
  split
  · refine .ite (.refl b) (.ite (b.complete_leaves _ _ _) (Blk.Leaves.trans ?_ (Blk.complete_leaves _ _ _ _)))
    exact b.leaves_setQue e.q rfl
  · exact .refl b

/-- What a started command's event can bring it to. -/
theorem Blk.finishCmd_cases : b.finishCmd e = b ∨ (∃ st, b.finishCmd e = b.complete e st 0) ∨ b.finishCmd e = b.completeHitch e
    ∨ b.finishCmd e = b.bindStand e ∨ (∃ l, e.prog = .launch l ∧ (b.finishCmd e = b.finishLaunch e.q e.n
      ∨ b.finishCmd e = (b.modEntry e.q e.n fun e => { e with ending := some l.stat }).finishLaunch e.q e.n)) := by
  have hdone : ∀ {p r : Prop} [Decidable p] {st : Stat}, (if p then b.complete e st 0 else b) = b
      ∨ (∃ st', (if p then b.complete e st 0 else b) = b.complete e st' 0) ∨ r := by
    intro p r _ st
    split
    · exact .inr (.inl ⟨st, rfl⟩)
    · exact .inl rfl
  unfold Blk.finishCmd
  cases hp : e.prog with
  | none =>
    dsimp only
    split
    · exact .inr (.inr (.inr (.inl rfl)))
    · exact .inl rfl
  | hitch o =>
    cases o with
    | none => exact .inl rfl
    | some r =>
      dsimp only
      split
      · exact .inr (.inr (.inl rfl))
      · exact .inl rfl
  | unstand w =>
    cases w with
    | false => exact .inl rfl
    | true =>
      dsimp only
      split
      · exact .inl rfl
      · exact .inr (.inl ⟨_, rfl⟩)
  | launch l =>
    dsimp only
    split
    · exact .inr (.inr (.inr (.inr ⟨l, rfl, .inl rfl⟩)))
    split
    · exact .inr (.inr (.inr (.inr ⟨l, rfl, .inr rfl⟩)))
    · exact .inl rfl
  | xfer asked done outst err =>
    cases e.ending with
    | none => exact .inl rfl
    | some st => exact hdone
  | watch w outst err =>
    cases e.ending with
    | none => exact .inl rfl
    | some st => exact hdone
  | membar y wbs => cases e.ending <;> exact hdone
  | load k => cases e.ending <;> exact hdone

theorem Blk.finishCmd_leaves : b.Leaves Que.owing (b.finishCmd e) := by
  obtain h | ⟨st, h⟩ | h | h | ⟨l, -, h | h⟩ := b.finishCmd_cases e <;> rw [h]
  · exact .refl b
  · exact b.complete_leaves e st 0
  · exact b.completeHitch_leaves e
  · exact b.bindStand_leaves e
  · exact b.finishLaunch_leaves _ _
  · exact (b.jobWork_modEntry e.q e.n _).leaves.trans (Blk.finishLaunch_leaves _ _ _)
/-- Of launches alone a completion tells the dispatcher that a retirement is over. -/
theorem Blk.finishCmd_cmdWork (he : e.launch? = none) : b.CmdWork (b.finishCmd e) := by
  obtain h | ⟨st, h⟩ | h | h | ⟨l, hl, -⟩ := b.finishCmd_cases e
  · rw [h]
    exact .refl b
  · rw [h]
    exact (b.queueWork_complete e st 0).cmdWork
  · rw [h]
    exact (b.queueWork_completeHitch e).cmdWork
  · rw [h]
    exact b.bindStand_cmdWork e
  · simp [SbEntry.launch?, hl] at he

end

end Sys2Proof.Machine

/-! # Queues that drain, close and become free

DRAIN, ABORT with what a closing does to the queue's commands, and the way to FREE. -/

namespace Sys2Proof.Machine

/-! ### What a closing does (R174, R466) -/

section
variable (b : Blk) (q n : Nat) (st : Stat)

theorem Blk.owedBy_leaves (es : List Nat) : b.Leaves Que.phase (b.owedBy q es) := b.leaves_setQue q rfl
theorem Blk.oweEntry_leaves (e : SbEntry) (es : List Nat) : b.Leaves Que.phase (b.oweEntry e es st) :=
  (b.jobWork_modEntry e.q e.n _).leaves.trans (Blk.owedBy_leaves _ e.q es)
theorem Blk.jobWork_endLoad (e : SbEntry) (l : LoadSt) : b.JobWork (b.endLoad e l st) := by
  unfold Blk.endLoad
  extract_lets undo c
  have hc : b.EngsOnly c := by
    simp only [c]
    split
    · exact Blk.EngsOnly.foldl (fun b x => b.engsOnly_modEng x.1 _) l.banks b
    · rfl
  exact hc.jobWork.trans (c.jobWork_modEntry e.q e.n _)
theorem Blk.closeEntry_leaves : b.Leaves Que.phase (b.closeEntry st n q) := by
  have hcomplete : ∀ (c : Blk) (e : SbEntry), c.Leaves Que.phase (c.complete e st 0) := fun c e => (c.complete_leaves e st 0).phase
  have hlater : ∀ f : SbEntry → SbEntry, b.Leaves Que.phase (b.modEntry q n f) := fun f => (b.jobWork_modEntry q n f).leaves
  unfold Blk.closeEntry
  split
  · exact .refl b
  next e _ =>
  split
  · extract_lets es c d f
    have hc : b.Leaves Que.phase c := b.oweEntry_leaves st e es
    have hd : c.Leaves Que.phase d := (c.jobWork_dropTiles e.job).leaves
    have hf : d.Leaves Que.phase f := by
      refine .ite (.refl d) (Blk.EngsOnly.foldl (fun c t => ?_) es d).leaves
      split
      · exact c.engsOnly_modEng t _
      · exact .refl c
    exact ((hc.trans hd).trans hf).trans (f.finishLaunch_leaves q n).phase
  · exact .ite (hcomplete b e) (hlater _)
  · exact .ite (hcomplete b e) (hlater _)
  · exact .ite (hcomplete b e) (hlater _)
  · next l _ =>
    extract_lets c d
    refine .ite (.refl b) ?_
    have hd : b.Leaves Que.phase d := (b.jobWork_endLoad st e l).leaves.trans (c.oweEntry_leaves st e l.targets)
    split
    · exact hd.trans (d.finishCmd_leaves _).phase
    · exact hd
  · exact (Blk.Leaves.ite (b.standWork_unbind q n).leaves (.refl b)).trans (hcomplete _ e)
theorem Blk.closeStand_leaves : b.Leaves Que.phase (b.closeStand st q n) := by
  unfold Blk.closeStand
  split
  · exact .refl b
  next s _ =>
  refine (Blk.Leaves.ite ?_ (.refl b)).trans (Blk.standWork_unbindSoon _ q n).leaves
  exact (b.owedBy_leaves q _).trans (Blk.EngineWork.leaves rfl rfl)
theorem Blk.closeSteps_leaves : b.Leaves Que.phase (b.closeSteps q) := by
  unfold Blk.closeSteps
  extract_lets stale u c st d
  have hc : b.Leaves Que.phase c := b.leaves_setQue q rfl
  have hd : c.Leaves Que.phase d := .foldl (fun c n => c.closeEntry_leaves q n st) _ c
  refine (hc.trans hd).trans (.ite (d.owedBy_leaves q _) (.foldl (fun c n => c.closeStand_leaves q n st) _ d))
theorem Blk.trapServed_leaves (cause : Nat) : b.Leaves Que.phase (b.trapServed q cause) :=
  Blk.Leaves.ite (Blk.EngineWork.leaves rfl rfl) (.refl b)
/-- A queue that closes enters CLOSING, and its commands and standing launches are dealt with. -/
theorem Blk.closeQueue_spec (stale : Bool) : b.EngineWork (b.closeQueue q stale)
    ∧ ((b.closeQueue q stale).que q).phase = (.closing, stale) := by
  unfold Blk.closeQueue
  extract_lets u c
  have hc : b.EngineWork c := rfl
  have hsteps : c.Leaves Que.phase (if c.running then c.closeSteps q else c) := .ite (c.closeSteps_leaves q) (.refl c)
  obtain ⟨hwork, hphase⟩ := hsteps.trans (Blk.trapServed_leaves _ q 4)
  refine ⟨hc.trans hwork, (hphase q).trans ?_⟩
  rw [b.setQue_que q _]
  rfl

end

/-! ### DRAIN, ABORT and FREE (R172) -/

theorem Blk.drainQueue_spec (b : Blk) (q : Nat) : b.CmdWork (b.drainQueue q) ∧ (b.drainQueue q).que q
    = if (b.que q).st = .opened then { b.que q with st := .draining } else (b.que q).after (.error 0x01) := by
  unfold Blk.drainQueue
  dsimp only
  by_cases h : (b.que q).st = .opened
  · rw [if_neg (not_not.2 h), if_pos h]
    have hstand := (b.setQue q { b.que q with st := .draining }).standWork_drainStands q
    exact ⟨(b.queueWork_setQue q _).cmdWork.trans hstand.cmdWork, (Blk.que_congr hstand.qs q).trans (b.setQue_que q _)⟩
  · rw [if_pos h, if_neg h]
    exact ⟨(b.queueWork_queErr q 1).cmdWork, b.queErr_que q 1⟩
theorem Blk.abortQueue_close {b : Blk} {q : Nat} (h : (b.que q).st = .opened ∨ (b.que q).st = .draining) :
    b.abortQueue q = b.closeQueue q false := by
  unfold Blk.abortQueue
  rcases h with h | h <;> rw [h]
theorem Blk.abortQueue_ignored {b : Blk} {q : Nat} (h : (b.que q).st = .free ∨ (b.que q).st = .closing) : b.abortQueue q = b := by
  unfold Blk.abortQueue
  rcases h with h | h <;> rw [h]
theorem Blk.mayFree_of {b : Blk} {q : Nat} (hcomp : (b.que q).comp = (b.que q).tail) (hstand : b.standingCount q = 0)
    (hdue : (b.que q).closeDue = false)
    (hst : (b.que q).st = .draining ∨ ((b.que q).st = .closing ∧ (b.que q).owed = [])) : b.mayFree q = true := by
  rcases hst with h | ⟨h, howed⟩
  · simp [Blk.mayFree, hcomp, hstand, hdue, h]
  · simp [Blk.mayFree, hcomp, hstand, hdue, h, howed]

/-- Settles O9: a drained queue keeps its state while its standing launches are unbound, and a closing one while its commands end. -/
theorem queueStates : Obligations.QueueStates := by
  intro s a q srEn irqEn b u answered
  let v := b.freshResp.enable q srEn irqEn
  have hv : b.freshResp.QueueWork v := b.freshResp.queueWork_setQue q _
  have hu : v.que q = u := b.freshResp.setQue_que q u
  refine ⟨fun hb hj => ?_, fun hb hj => ?_, fun hrun hcomp hstand hdue hst => ?_⟩
  · obtain ⟨hwork, hque⟩ := v.drainQueue_spec q
    rw [hu] at hque
    exact ⟨_, exec_drain hb hj srEn irqEn, hv.cmdWork.trans hwork, hque⟩
  · refine ⟨_, exec_abort hb hj srEn irqEn, ?_, fun hopen => ?_, fun hother => ?_⟩
    · refine hv.cmdWork.engineWork.trans ?_
      unfold Blk.abortQueue
      split
      · exact (v.closeQueue_spec q false).1
      · exact (v.closeQueue_spec q false).1
      · rfl
    · have hphase := (v.closeQueue_spec q false).2
      rw [← Blk.abortQueue_close (by rwa [hu])] at hphase
      exact ⟨congrArg Prod.fst hphase, congrArg Prod.snd hphase⟩
    · have hsame : v.abortQueue q = v := Blk.abortQueue_ignored (by rwa [hu])
      change (v.abortQueue q).que q = u ∧ (v.abortQueue q).sb = b.sb ∧ (v.abortQueue q).eng = b.eng
      rw [hsame]
      exact ⟨hu, rfl, rfl⟩
  · let v := b.setQue q { b.que q with st := .free, fence := none, lost := [] }
    let w := { b.seq (seqOf q) with lines := (b.seq (seqOf q)).lines.filter fun l => l.1 != q.val }
    have hmay : (b.running && b.mayFree q) = true := by
      rw [hrun, Blk.mayFree_of hcomp hstand hdue hst]
      rfl
    have hexec : exec (.queueFree q) s = .next { s with blk := v.setSeq (seqOf q) w } := by
      simp only [exec, execQueueFree, State.onBlk]
      rw [if_pos hmay]
    refine ⟨_, hexec, b.setQue_que q _, fun r hr => b.setQue_que_ne _ hr, rfl, fun i => ?_⟩
    by_cases hi : i = seqOf q
    · subst hi
      rw [v.setSeq_seq]
    · rw [v.setSeq_seq_ne w hi]
      rfl

end Sys2Proof.Machine

/-! # What a command lets start

`Blk.pump` carries out what has become eligible (07 R227). Each part of it stays within `Blk.PumpWork`. -/

namespace Sys2Proof.Machine

/-! ### Requests of commands under way -/

section
variable {b c : Blk} {e : SbEntry}

theorem Blk.PumpWork.ite {d : Blk} {p : Prop} [Decidable p] (h : b.PumpWork c) (k : b.PumpWork d) :
    b.PumpWork (if p then c else d) := by
  split <;> assumption
theorem Blk.queueWork_seqAsk {s q : Nat} {what : SeqReq} {m : Fin 32 → Instr} (h : b.seqAsk s q what m = some c) :
    b.QueueWork c := by
  simp only [Blk.seqAsk, Option.map_eq_some_iff] at h
  obtain ⟨i, -, rfl⟩ := h
  rfl
/-- A request that went out is noted in its command. -/
theorem Blk.queueWork_asked {s q : Nat} {what : SeqReq} {m : Fin 32 → Instr} (f : SbEntry → SbEntry) :
    b.QueueWork (match b.seqAsk s q what m with
      | none => b
      | some d => d.modEntry e.q e.n f) := by
  cases h : b.seqAsk s q what m with
  | none => exact .refl b
  | some d => exact (Blk.queueWork_seqAsk h).trans (d.queueWork_modEntry _ _ _)
theorem Blk.queueWork_nextChunk (e : SbEntry) (b : Blk) : b.QueueWork (b.nextChunk e) := by
  unfold Blk.nextChunk
  split
  · extract_lets
    exact Blk.queueWork_ite (.refl b) (Blk.queueWork_ite
      (Blk.queueWork_ite (.refl b) (Blk.queueWork_asked _)) (Blk.queueWork_ite (.refl b) (Blk.queueWork_asked _)))
  · exact .refl b
theorem Blk.queueWork_nextWatch (e : SbEntry) (b : Blk) : b.QueueWork (b.nextWatch e) := by
  unfold Blk.nextWatch
  split
  · refine Blk.queueWork_ite (.refl b) ?_
    extract_lets s a asked
    have hasked : ∀ d, asked = some d → b.QueueWork d := by
      intro d hd
      simp only [asked] at hd
      split at hd <;> exact Blk.queueWork_seqAsk hd
    cases h : asked with
    | none => exact .refl b
    | some d => exact (hasked d h).trans (d.queueWork_modEntry _ _ _)
  · exact .refl b
theorem Blk.queueWork_loadNext (ord : Nat) (b : Blk) : b.QueueWork (b.loadNext ord) := by
  unfold Blk.loadNext
  split
  · exact .refl b
  next e _ =>
  split
  · extract_lets src put len need k
    refine Blk.queueWork_ite (.refl b) (Blk.queueWork_ite (Blk.queueWork_ite ?_ (.refl b)) (Blk.queueWork_ite (.refl b) ?_))
    · split
      · exact .refl b
      · split <;> rfl
    · refine Blk.QueueWork.trans (c := put k b) rfl (Blk.QueueWork.foldl _ (fun c t => ?_) need _)
      split <;> rfl
  · exact .refl b

end

/-! ### Commands that start (R213, R227) -/

section
variable (b : Blk) (e : SbEntry)

theorem Blk.cmdWork_readTdesc (t : Nat) (j : Job) (l : Launch) : b.CmdWork (b.readTdesc t j l) := by
  unfold Blk.readTdesc
  split
  · exact (b.engsOnly_modEng t _).cmdWork.trans (Blk.QueueWork.foldl _ (fun c i => c.queueWork_send _) _ _).cmdWork
  · exact .refl b
theorem Blk.cmdWork_startImem : b.CmdWork (b.startImem e) := by
  unfold Blk.startImem
  extract_lets act ts bad banks id c
  have hc : b.EngsOnly c := Blk.EngsOnly.foldl (fun d t => d.engsOnly_modEng t _) ts b
  cases bad with
  | some d => exact (b.queueWork_complete _ _ _).cmdWork
  | none => exact hc.cmdWork.trans ((c.queueWork_modEntry _ _ _).trans (Blk.queueWork_loadNext _ _)).cmdWork
theorem Blk.queueWork_startStream : b.QueueWork (b.startStream e) := by
  unfold Blk.startStream
  extract_lets base len ts
  refine Blk.queueWork_ite (b.queueWork_complete _ _ _) ?_
  split
  · exact Blk.queueWork_ite (b.queueWork_complete _ _ _) (.refl b)
  · exact (b.queueWork_modEntry _ _ _).trans (Blk.queueWork_loadNext _ _)
theorem Blk.cmdWork_startStand : b.CmdWork (b.startStand e) := by
  unfold Blk.startStand
  extract_lets s te l st c d
  split
  · exact (b.queueWork_complete _ _ _).cmdWork
  refine .ite (b.queueWork_complete _ _ _).cmdWork ?_
  have hd : b.CmdWork d := rfl
  refine .ite hd (hd.trans ?_)
  exact List.foldlRecOn te.2 _ (motive := d.CmdWork) (.refl d) fun f hf t _ => hf.trans (f.cmdWork_readTdesc t _ l)
theorem Blk.cmdWork_startUnstand : b.CmdWork (b.startUnstand e) := by
  unfold Blk.startUnstand
  extract_lets t mine
  cases mine with
  | none => exact (b.queueWork_complete _ _ _).cmdWork
  | some s =>
    refine .ite ((b.standWork_unbindSoon _ _).cmdWork.trans (Blk.queueWork_modEntry _ _ _ _).cmdWork) ?_
    exact (b.standWork_unbind _ _).cmdWork.trans (Blk.queueWork_complete _ _ _ _).cmdWork
theorem Blk.queueWork_startXfer (len : Nat) : b.QueueWork (b.startXfer e len) :=
  Blk.queueWork_ite (b.queueWork_complete _ _ _) ((b.queueWork_modEntry _ _ _).trans (Blk.queueWork_nextChunk _ _))
theorem Blk.queueWork_startWatch : b.QueueWork (b.startWatch e) := by
  unfold Blk.startWatch
  exact (b.queueWork_modEntry _ _ _).trans (Blk.queueWork_nextWatch _ _)
theorem Blk.pumpWork_noteTag (q n : Nat) (tag : W32) : b.PumpWork (b.noteTag q n tag) := .ite (.refl b) rfl
theorem Blk.pumpWork_startMark (x : Env) : b.PumpWork (b.startMark x e) :=
  .ite (b.queueWork_complete _ _ _).pumpWork
    (.ite (Blk.PumpWork.trans (c := b.traceBlk x 0x10 (markBody e)) rfl (Blk.queueWork_complete _ _ _ _).pumpWork) (.refl b))
theorem Blk.pumpWork_startCmd (x : Env) : b.PumpWork (b.startCmd x e) := by
  have hcomplete : ∀ st, b.PumpWork (b.complete e st 0) := fun st => (b.queueWork_complete e st 0).pumpWork
  unfold Blk.startCmd
  extract_lets op
  refine .ite (hcomplete _) (.ite (hcomplete _) (.ite ?_ (.ite (b.pumpWork_startMark e x) (.ite ?_ (.ite ?_
    (.ite (b.cmdWork_startUnstand e).pumpWork (.ite (b.queueWork_startXfer e _).pumpWork (.ite (b.queueWork_startXfer e _).pumpWork
    (.ite (b.queueWork_startWatch e).pumpWork (.ite (b.cmdWork_startImem e).pumpWork (.ite (b.queueWork_startStream e).pumpWork
    (.ite (b.cmdWork_startStand e).pumpWork (.ite ?_ (.refl b))))))))))))))
  · exact (b.pumpWork_noteTag _ _ _).trans (Blk.queueWork_complete _ _ _ _).pumpWork
  · exact ((b.queueWork_applyTie _).trans (Blk.queueWork_complete _ _ _ _)).pumpWork
  · exact (b.queueWork_modEntry _ _ _).pumpWork
  · split
    · exact .ite (hcomplete _) (.refl b)
    · exact .refl b

/-- A command that is not a LAUNCH starts, finishes, or waits. -/
theorem Blk.pumpWork_attempt {b : Blk} {q n : Nat} {e : SbEntry} (he : b.entry q n = some e) (hl : e.launch? = none) (x : Env) :
    b.PumpWork (b.attempt x q n) := by
  unfold Blk.attempt
  rw [he]
  exact .ite (b.pumpWork_startCmd e x) (.ite (.refl b) (b.finishCmd_cmdWork e hl).pumpWork)

/-! ### Commands that become eligible -/

theorem Blk.queueWork_noteWait (x : Env) (l : Launch) : b.QueueWork (b.noteWait x e l) := by
  unfold Blk.noteWait
  extract_lets w
  refine Blk.queueWork_ite (.refl b) (Blk.queueWork_ite (.refl b) ?_)
  rw [Blk.modLaunch_eq rfl]
  rfl
theorem Blk.pumpWork_pumpOne (x : Env) (ord : Nat) : b.PumpWork (b.pumpOne x ord) := by
  unfold Blk.pumpOne
  split
  · exact .refl b
  next e _ =>
  extract_lets c
  have hc : b.PumpWork c := by
    simp only [c]
    split
    · exact (b.queueWork_noteWait e x _).pumpWork
    · exact .refl b
  refine hc.trans (.ite (c.pumpWork_startCmd e x) (.ite (c.queueWork_completeHitch e).pumpWork (.ite (.refl c) ?_)))
  exact ((c.queueWork_nextChunk e).trans ((Blk.queueWork_nextWatch e _).trans (Blk.queueWork_loadNext ord _))).pumpWork
theorem Blk.pumpWork_startEligible (x : Env) : b.PumpWork (b.startEligible x) :=
  List.foldlRecOn _ _ (motive := b.PumpWork) (.refl b) fun c hc o _ => hc.trans (c.pumpWork_pumpOne x o)

end

/-! ### Slots that enter by themselves (06 R171, R174) -/

section
variable (b : Blk) (q : Nat)

theorem slotDefined_launch_hitch {op : W8} (h : slotDefined op = none) : op ≠ opLAUNCH ∧ op ≠ opHITCH := by
  constructor <;> (rintro rfl; cases h)
/-- A slot with an undefined opcode enters, fails its check and completes. -/
theorem Blk.pumpWork_enterSlot (x : Env) {op : W8} (hop : slotDefined op = none) : b.PumpWork (b.enterSlot x q op none) := by
  obtain ⟨hlaunch, hhitch⟩ := slotDefined_launch_hitch hop
  unfold Blk.enterSlot
  cases hready : b.slotReady q op with
  | none => exact .refl b
  | some l =>
    obtain ⟨-, -, -, -, -, -, -, -, -, hentry, -, -, hl⟩ := Blk.slotReady_spec hready
    have hnew : (b.addEntry (b.newEntry q l none)).entry q (b.que q).head = some (b.newEntry q l none) := by
      have hold : b.sb.find? (fun e => e.q == q && e.n == (b.que q).head) = none := hentry
      have hself : (b.newEntry q l none).q = q ∧ (b.newEntry q l none).n = (b.que q).head := ⟨rfl, rfl⟩
      simp [Blk.entry, b.addEntry_sb, List.find?_append, hold, hself]
    have hwait : ¬ ((b.newEntry q l none).opcode = opHITCH && (b.newEntry q l none).code == 0) = true := by
      simp [show (b.newEntry q l none).opcode = op from hl, hhitch]
    dsimp only
    unfold Blk.letIn
    rw [if_neg hwait]
    exact (b.queueWork_addEntry _).pumpWork.trans (Blk.pumpWork_attempt hnew (Blk.newEntry_launch? hl hhitch hlaunch b q) x)
theorem Blk.queueWork_parseOnly (l : Line) : b.QueueWork (b.parseOnly q l) := by
  unfold Blk.parseOnly Blk.parseSlot
  refine Blk.QueueWork.trans ?_ (Blk.queueWork_advanceHead q _)
  extract_lets u owner st st' c tie d
  have hc : b.QueueWork c := Blk.queueWork_ite (b.queueWork_takeDesc q _ l) (.refl b)
  have htie : ∀ (t : W64) (f : Blk), f.QueueWork (tie t f) := fun t f => Blk.queueWork_ite (f.queueWork_completionTie _ _ _) (.refl f)
  have hd : c.QueueWork d := (htie _ c).trans (htie _ _)
  exact (hc.trans hd).trans ((d.queueWork_bumpAll _ _).trans (Blk.queueWork_noteDone _ _ _ _ _))
theorem Blk.queueWork_slotLost : b.QueueWork (b.slotLost q) := by
  unfold Blk.slotLost
  extract_lets u c d
  have hc : b.QueueWork c := b.queueWork_setQue q _
  have hd : c.QueueWork d := (c.queueWork_queErr q 8).trans (Blk.queueWork_bumpAll _ _ _)
  exact (hc.trans hd).trans ((d.queueWork_noteDone _ _ _ _).trans (Blk.queueWork_advanceHead q _))
theorem Blk.pumpWork_passHead (x : Env) (s n : Nat) (b : Blk) : b.PumpWork (b.passHead x s n) := by
  induction n generalizing b with
  | zero => exact .refl b
  | succ n ih =>
    unfold Blk.passHead
    extract_lets v q u
    refine .ite (.refl b) (.ite ((b.queueWork_slotLost q).pumpWork.trans (ih _)) (.ite (.refl b) ?_))
    split
    · exact .refl b
    next l _ =>
    refine .ite ((b.queueWork_parseOnly q l).pumpWork.trans (ih _)) ?_
    split
    · next h => exact (b.pumpWork_enterSlot q x (by simp_all)).trans (ih _)
    · exact .refl b

/-! ### Descriptors at HEAD (14 R361) -/

theorem Blk.pumpWork_askDesc (s : Nat) (what : SeqReq) (line : LineNo) : b.PumpWork (b.askDesc s q what line) := by
  unfold Blk.askDesc
  split
  · exact .refl b
  · exact .ite rfl rfl
theorem Blk.pumpWork_useDesc (s line : Nat) : b.PumpWork (b.useDesc s q line) := by
  unfold Blk.useDesc
  split
  · next k _ =>
    rw [Blk.touch_eq]
    rfl
  · exact .refl b
theorem Blk.pumpWork_readHalf (n : Nat) (l : Line) (half : Bool) : b.PumpWork (b.readHalf q n l half) := by
  unfold Blk.readHalf
  extract_lets s line d
  refine .ite (.refl b) ?_
  split
  · exact (b.pumpWork_useDesc q s _).trans rfl
  · exact (Blk.PumpWork.ite (.refl b) (b.pumpWork_askDesc q s _ _)).trans rfl
theorem Blk.pumpWork_readHead : b.PumpWork (b.readHead q) := by
  unfold Blk.readHead
  extract_lets u
  split
  · exact .refl b
  · exact .ite ((b.pumpWork_readHalf q _ _ _).trans (Blk.pumpWork_readHalf _ q _ _ _)) (.refl b)

/-! ### The sequencers (R158, R210, R360) -/

theorem Blk.queueWork_leavePaused (s : Nat) : b.QueueWork (b.leavePaused s) := by
  unfold Blk.leavePaused
  extract_lets v k c
  have hc : b.QueueWork c := Blk.queueWork_ite rfl (.refl b)
  exact Blk.queueWork_ite (hc.trans ((c.queueWork_setSeq s _).trans (Blk.queueWork_kick s _))) (.refl b)
theorem Blk.pumpWork_serve (x : Env) (s : Nat) : b.PumpWork (b.serve x s) := by
  unfold Blk.serve
  extract_lets c v d v'
  have hc : b.PumpWork c := ((b.queueWork_leavePaused s).trans (Blk.queueWork_kick s _)).pumpWork
  have hd : c.PumpWork d := (Blk.pumpWork_passHead x s _ c).trans (Blk.queueWork_leavePaused _ s).pumpWork
  refine hc.trans (.ite (hd.trans (.ite ?_ (.refl d))) (.refl c))
  exact (d.queueWork_readOn v'.queue).pumpWork.trans (Blk.pumpWork_readHead _ _)
/-- What becomes eligible starts within `Blk.PumpWork`. -/
theorem Blk.pumpWork_pump (x : Env) : b.PumpWork (b.pump x) :=
  .ite ((b.pumpWork_startEligible x).trans
    (List.foldlRecOn _ _ (motive := (b.startEligible x).PumpWork) (.refl _) fun c hc s _ => hc.trans (c.pumpWork_serve x s))) (.refl b)
theorem Blk.pump_stopped (x : Env) (h : b.running = false) : b.pump x = b := by simp [Blk.pump, h]

end

end Sys2Proof.Machine

/-! # Acknowledgements, and queues taken up -/

namespace Sys2Proof.Machine

/-! ### Acknowledgements (06 R174) -/

section
variable (b : Blk) (q e : Nat)

/-- A command of the queue hears that engine e has stopped. -/
def Blk.unowe (q e : Nat) (b : Blk) (n : Nat) : Blk :=
  let b := b.modEntry q n fun f => { f with owes := f.owes.erase e }
  match b.entry q n with
  | some f => b.finishCmd f
  | none => b
theorem Blk.unowe_leaves (n : Nat) : b.Leaves Que.owing (b.unowe q e n) := by
  unfold Blk.unowe
  extract_lets c
  have hc : b.Leaves Que.owing c := (b.jobWork_modEntry q n _).leaves
  split
  · exact hc.trans (c.finishCmd_leaves _)
  · exact hc
theorem Blk.acknowledge_spec (x : Env) : b.EngineWork (b.acknowledge x q e)
    ∧ ((b.acknowledge x q e).que q).owed = (b.que q).owed.erase e := by
  unfold Blk.acknowledge
  extract_lets v c u d ns
  have hc : b.JobWork c := by
    simp only [c]
    split
    · split
      · exact b.jobWork_leaveTile e x
      · exact .refl b
    · exact .refl b
  have hd : c.EngineWork d := (c.queueWork_setQue q _).cmdWork.engineWork
  obtain ⟨hwork, howing⟩ : d.Leaves Que.owing (ns.foldl (Blk.unowe q e) d) := .foldl (fun f n => f.unowe_leaves q e n) ns d
  refine ⟨(hc.engineWork.trans hd).trans hwork, (congrArg Prod.snd (howing q)).trans ?_⟩
  change (d.que q).owed = _
  rw [c.setQue_que, ← Blk.que_congr hc.qs]

end

/-! ### Reading slots on (14 R361) -/

section
variable {b c d : Blk} {q n : Nat}

/-- Two views of a sequencer that differ in its outstanding requests at most. -/
def Seq.Asks (v w : Seq) : Prop := w = { v with outs := w.outs }
/-- Between the two blocks slots are asked for: sequencers differ in their outstanding requests alone, and messages are added. -/
def Blk.SlotsAsked (b c : Blk) : Prop := (∀ s, (b.seq s).Asks (c.seq s)) ∧ b.mem.ring ⊆ c.mem.ring

theorem Blk.SlotsAsked.refl (b : Blk) : b.SlotsAsked b := ⟨fun _ => rfl, List.Subset.refl _⟩
theorem Blk.SlotsAsked.trans (h : b.SlotsAsked c) (k : c.SlotsAsked d) : b.SlotsAsked d := by
  refine ⟨fun s => ?_, List.Subset.trans h.2 k.2⟩
  have hd : d.seq s = _ := k.1 s
  rw [show c.seq s = _ from h.1 s] at hd
  exact hd
theorem Blk.setSeq_asks {i : Nat} {v : Seq} (h : (b.seq i).Asks v) (s : Nat) : (b.seq s).Asks ((b.setSeq i v).seq s) := by
  by_cases hs : s = i
  · subst hs
    rwa [b.setSeq_seq]
  · rw [b.setSeq_seq_ne _ hs]
    rfl
theorem Blk.slotsAsked_askSlot (h : b.askSlot q n = some c) : b.SlotsAsked c := by
  unfold Blk.askSlot at h
  split at h
  · cases h
    exact .refl b
  split at h
  · simp only [Blk.seqAsk, Option.map_eq_some_iff] at h
    obtain ⟨i, -, rfl⟩ := h
    exact ⟨Blk.setSeq_asks rfl, fun m hm => List.mem_append_left _ hm⟩
  · cases h
    exact .refl b
theorem Blk.slotsAsked_readSlot (q n : Nat) (b : Blk) : b.SlotsAsked (b.readSlot q n) := by
  unfold Blk.readSlot
  split
  · exact .refl b
  · cases h : b.askSlot q n with
    | none => exact .refl b
    | some c => exact Blk.slotsAsked_askSlot h
theorem Blk.slotsAsked_readOn (q : Nat) (b : Blk) : b.SlotsAsked (b.readOn q) :=
  List.foldlRecOn _ _ (motive := b.SlotsAsked) (.refl b) fun c hc _ _ => hc.trans (c.slotsAsked_readSlot q _)

/-- The first slot read on is the one at HEAD. -/
theorem Blk.readOn_head (hslots : 0 < min (min 4 ((b.que q).tail - (b.que q).head)) (b.burstMax q - (b.seq (seqOf q)).burst)) :
    (b.readSlot q (b.que q).head).SlotsAsked (b.readOn q) := by
  unfold Blk.readOn
  extract_lets u k
  obtain ⟨m, hm⟩ : ∃ m, k = m + 1 := Nat.exists_eq_add_of_lt hslots |>.imp fun m h => by simpa [k, u] using h
  rw [hm, range, List.range_succ_eq_map, List.foldl_cons]
  exact List.foldlRecOn _ _ (motive := (b.readSlot q u.head).SlotsAsked) (.refl _) fun c hc _ _ => hc.trans (c.slotsAsked_readSlot q _)
/-- A slot that is neither held, lost nor asked for is asked for when a place is free. -/
theorem Blk.readSlot_asks {q : Queue} {i : Fin 32} (hheld : b.heldLine q n = none) (hlost : n ∉ (b.que q).lost)
    (hasked : b.slotAsked q n = false) (hplace : (b.seq (seqOf q)).freePlace = some i) :
    Instr.rdonce (.slot q (BitVec.ofNat 32 n)) (lineOf (slotAddr (b.que q) n)) ∈ (b.readSlot q n).mem.ring := by
  have hq : q.val < 1024 := q.isLt
  simp [Blk.readSlot, Blk.askSlot, Blk.seqAsk, hheld, hlost, hasked, hplace, hq, Blk.send]

@[simp] theorem Blk.setQue_seq (b : Blk) (q : Nat) (v : Que) (s : Nat) : (b.setQue q v).seq s = b.seq s := rfl
/-- Sequencer s serves queue q, and has read none of its slots yet. -/
def Blk.serving (s q : Nat) (ptrs : SMap Nat) (b : Blk) : Blk :=
  (b.setSeq s { b.seq s with st := .running, queue := q, serving := true, burst := 0, ptrs := ptrs }).setQue q
    { b.que q with wake := false, idle := false }
theorem Blk.serving_seq (s q : Nat) (ptrs : SMap Nat) : (b.serving s q ptrs).seq s
    = { b.seq s with st := .running, queue := q, serving := true, burst := 0, ptrs := ptrs } := by
  rw [Blk.serving, Blk.setQue_seq, Blk.setSeq_seq]
theorem Blk.serving_que (s q : Nat) (ptrs : SMap Nat) : (b.serving s q ptrs).que q = { b.que q with wake := false, idle := false } :=
  Blk.setQue_que _ q _
theorem Blk.takeUp_eq (s : Nat) (h : (b.que q).head ≠ (b.que q).tail) : ∃ ptrs, b.takeUp s q = (b.serving s q ptrs).readOn q :=
  ⟨_, if_neg h⟩
/-- A queue with a slot to read is taken up: its sequencer serves it, and asks for the slot at HEAD (R165 step 5). -/
theorem Blk.takeUp_asks {q : Queue} {i : Fin 32} (hslot : (b.que q).head < (b.que q).tail) (hplace : (b.seq (seqOf q)).freePlace = some i)
    (hasked : b.slotAsked q (b.que q).head = false) (hheld : b.heldLine q (b.que q).head = none)
    (hlost : (b.que q).head ∉ (b.que q).lost) : let c := b.takeUp (seqOf q) q
    c.que q = { b.que q with wake := false, idle := false }
      ∧ (c.seq (seqOf q)).st = .running ∧ (c.seq (seqOf q)).serving = true ∧ (c.seq (seqOf q)).queue = q.val
      ∧ Instr.rdonce (.slot q (BitVec.ofNat 32 (b.que q).head)) (lineOf (slotAddr (b.que q) (b.que q).head)) ∈ c.mem.ring := by
  obtain ⟨ptrs, htake⟩ := b.takeUp_eq (seqOf q) (Nat.ne_of_lt hslot)
  dsimp only
  rw [htake]
  have hseq := b.serving_seq (seqOf q) q ptrs
  have hque := b.serving_que (seqOf q) q ptrs
  generalize b.serving (seqOf q) q ptrs = d at *
  have hburst : 0 < d.burstMax q := by
    unfold Blk.burstMax
    split <;> decide
  have hfirst : (d.readSlot q (d.que q).head).SlotsAsked (d.readOn q) := by
    refine Blk.readOn_head ?_
    simp only [hque, hseq]
    omega
  have hsent := Blk.readSlot_asks (b := d) (n := (b.que q).head) (q := q) (i := i) (by simpa [Blk.heldLine, hseq] using hheld)
    (by simpa [hque] using hlost) (by simpa [Blk.slotAsked, hseq] using hasked) (by simpa [hseq, Seq.freePlace] using hplace)
  have hsame : (d.readOn q).seq (seqOf q) = _ := (d.slotsAsked_readOn q).1 (seqOf q)
  rw [hseq] at hsame
  rw [hque] at hfirst hsent
  rw [hsame]
  exact ⟨(d.readOn_que q q).trans hque, rfl, rfl, rfl, hfirst.2 hsent⟩

end

/-! ### What the events do -/

theorem exec_engineAcknowledge {s : State} {q : Queue} {e : EngineId} (hrun : s.blk.running = true)
    (howed : e.val ∈ (s.blk.que q).owed) (hstop : s.blk.hasStopped q e = true) :
    exec (.engineAcknowledge q e) s = .next { s with blk := (s.blk.acknowledge s.env q e).pump s.env } := by
  simp [exec, execEngineAcknowledge, State.onWork, State.onBlk, hrun, howed, hstop]
theorem exec_queueWake {s : State} {q : Queue} (hrun : s.blk.running = true) (hwake : (s.blk.que q).wake = true)
    (hidle : (s.blk.que q).idle = true) (hwork : s.blk.wantsService q = true) (hfree : (s.blk.seq (seqOf q)).free = true) :
    exec (.queueWake q) s = .next { s with blk := (s.blk.takeUp (seqOf q) q).pump s.env } := by
  simp [exec, execQueueWake, State.onWork, State.onBlk, hrun, hwake, hidle, hwork, hfree]

/-- Settles O10: what an acknowledging engine's commands do leaves the queue's other debts; a queue taken up has its slot at HEAD
asked for first. -/
theorem acknowledgeAndWake : Obligations.AcknowledgeAndWake := by
  refine ⟨?_, fun b x => ⟨b.pumpWork_pump x, b.pump_stopped x, fun h => h.pump_eq x⟩⟩
  intro s q e b u v
  refine ⟨fun hrun howed hstop => ?_, fun i hrun hwake hidle hwork hfree hslot hplace hasked hheld hlost => ?_⟩
  · obtain ⟨hwork, hdebt⟩ := b.acknowledge_spec q e s.env
    exact ⟨_, exec_engineAcknowledge hrun howed hstop, hdebt, hwork⟩
  · obtain ⟨hque, hst, hserving, hqueue, hring⟩ := Blk.takeUp_asks hslot hplace hasked hheld hlost
    exact ⟨_, exec_queueWake hrun hwake hidle hwork hfree, b.queueWork_takeUp _ _, hque, hst, hserving, hqueue, hring⟩

end Sys2Proof.Machine

/-! # Slots that come back

A slot line is held until HEAD reaches it; one that could not be read is passed by its sequencer. -/

namespace Sys2Proof.Machine

/-! ### The slot returns (06 R157, R171) -/

section
variable {b : Blk} {q i n : Nat}

theorem Blk.running_up (h : b.running = true) : b.up = true := by
  unfold Blk.running at h
  exact (Bool.and_eq_true_iff.1 h).1
/-- An index of the 2^32 from HEAD on is known by its low 32 bits. -/
theorem Blk.fullIndex_ofNat (hle : (b.que q).head ≤ n) (hlt : n < (b.que q).head + 2 ^ 32) :
    b.fullIndex q (BitVec.ofNat 32 n) = n := by
  unfold Blk.fullIndex
  rw [BitVec.toNat_sub, BitVec.toNat_ofNat, BitVec.toNat_ofNat]
  omega
theorem exec_slotReadReturn {s : State} {q : Queue} {line : Option Line} (hup : s.blk.up = true) (hle : (s.blk.que q).head ≤ n)
    (hlt : n < (s.blk.que q).head + 2 ^ 32) (harrive : s.blk.mayArrive (.slotReadReturn q (BitVec.ofNat 32 n) line) = true) :
    exec (.slotReadReturn q (BitVec.ofNat 32 n) line) s = .next { s with
      blk := ((s.blk.arrived (.slotReadReturn q (BitVec.ofNat 32 n) line)).slotBack q n line).pump s.env } := by
  have hindex : (s.blk.arrived (.slotReadReturn q (BitVec.ofNat 32 n) line)).fullIndex q (BitVec.ofNat 32 n) = n :=
    Blk.fullIndex_ofNat hle hlt
  simp only [exec, execSlotReadReturn, State.onArrival, State.onBlk]
  rw [hup, harrive, hindex]
  rfl

/-- Between the two blocks only sequencer i differs. -/
def Blk.OneSeq (b : Blk) (i : Nat) (c : Blk) : Prop := c = { b with sq := c.sq } ∧ ∀ j, j ≠ i → c.seq j = b.seq j
theorem Blk.OneSeq.trans {c d : Blk} (h : b.OneSeq i c) (k : c.OneSeq i d) : b.OneSeq i d := by
  obtain ⟨hc, hcj⟩ := h
  obtain ⟨hd, hdj⟩ := k
  refine ⟨?_, fun j hj => (hdj j hj).trans (hcj j hj)⟩
  rw [hc] at hd
  exact hd
theorem Blk.oneSeq_setSeq (b : Blk) (i : Nat) (v : Seq) : b.OneSeq i (b.setSeq i v) := ⟨rfl, fun _ hj => b.setSeq_seq_ne v hj⟩

variable (hplace : b.slotPlace q n = some i) (hst : (b.que q).st ≠ .free) (hhead : (b.que q).head ≤ n)
include hplace hst hhead

theorem Blk.slotBack_line (l : Line) : let c := b.slotBack q n (some l)
    b.OneSeq (seqOf q) c ∧ c.heldLine q n = some l ∧ (c.seq (seqOf q)).outs = PMap.del i (b.seq (seqOf q)).outs := by
  have hopen : ¬ ((b.freeOut (seqOf q) i).que q).st = .free ∧ ¬ n < ((b.freeOut (seqOf q) i).que q).head :=
    ⟨hst, Nat.not_lt.2 hhead⟩
  unfold Blk.slotBack
  simp only [hplace, Option.isNone_some, Bool.false_eq_true, if_false, hopen, decide_false, Bool.or_self]
  refine ⟨(b.oneSeq_setSeq _ _).trans (Blk.oneSeq_setSeq _ _ _), ?_, ?_⟩
  · have hold : ∀ ls : List (Nat × Nat × Line),
        (ls.filter fun l => !(l.1 == q && l.2.1 == n)).find? (fun l => l.1 == q && l.2.1 == n) = none :=
      fun ls => List.find?_eq_none.2 fun y hy => by
        simpa only [Bool.not_eq_true, Bool.not_eq_true'] using (List.mem_filter.1 hy).2
    rw [Blk.heldLine, Blk.setSeq_seq, List.find?_append, hold]
    simp
  · simp [Blk.freeOut]
theorem Blk.slotBack_none (hlost : n ∉ (b.que q).lost) : let c := b.slotBack q n none
    c = { b with qs := c.qs, sq := c.sq } ∧ c.que q = { b.que q with lost := (b.que q).lost ++ [n] }
      ∧ c.seq (seqOf q) = ({ b.seq (seqOf q) with outs := PMap.del i (b.seq (seqOf q)).outs } : Seq).respError
      ∧ (∀ r, r ≠ q → c.que r = b.que r) ∧ ∀ j, j ≠ seqOf q → c.seq j = b.seq j := by
  let v : Seq := { b.seq (seqOf q) with outs := PMap.del i (b.seq (seqOf q)).outs }
  let d := (b.freeOut (seqOf q) i).setSeq (seqOf q) v.respError
  have hfree : (b.freeOut (seqOf q) i).seq (seqOf q) = v := b.setSeq_seq _ _
  have hopen : ¬ (b.que q).st = .free ∧ ¬ n < (b.que q).head := ⟨hst, Nat.not_lt.2 hhead⟩
  have hque : d.que q = b.que q := rfl
  have hback : b.slotBack q n none = d.setQue q { b.que q with lost := (b.que q).lost ++ [n] } := by
    unfold Blk.slotBack
    simp only [hplace, hfree, Option.isNone_none, if_true]
    change (if (d.que q).st = .free || decide (n < (d.que q).head) then d else _) = _
    rw [hque, if_neg (by simp [hopen])]
    rw [if_neg (by simpa using hlost)]
  obtain ⟨hframe, hseq⟩ : b.OneSeq (seqOf q) d := (b.oneSeq_setSeq _ _).trans (Blk.oneSeq_setSeq _ _ _)
  dsimp only
  rw [hback]
  refine ⟨?_, d.setQue_que q _, ?_, fun r hr => d.setQue_que_ne _ hr, hseq⟩
  · rw [hframe]
    rfl
  · rw [Blk.setQue_seq]
    exact Blk.setSeq_seq _ _ _

end

/-! ### Sequencers that find nothing to serve (R360) -/

section
variable {b c : Blk} {q s : Nat}

theorem Blk.selectQueue_none (h : ∀ r, seqOf r = s → b.wantsService r = false) : b.selectQueue s = none := by
  have hcand : ((b.qs.map (·.1)).filter fun r => seqOf r == s && b.wantsService r) = [] :=
    List.filter_eq_nil_iff.2 fun r _ hr => by
      obtain ⟨hrs, hr⟩ := by simpa using hr
      rw [h r hrs] at hr
      cases hr
  unfold Blk.selectQueue
  rw [hcand]
  rfl
theorem Blk.kick_none (h : b.selectQueue s = none) : b.kick s = b := by
  unfold Blk.kick
  rw [h]
  split <;> rfl
/-- What decides whether a queue wants service (R158, R210, R360): not which of its slots were lost. -/
theorem Blk.wantsService_congr (hque : c.que q = { b.que q with lost := (c.que q).lost })
    (hheld : c.heldLine q (b.que q).head = b.heldLine q (b.que q).head) (hsb : c.sb = b.sb) (hkn : c.kn = b.kn) (hwv : c.wv = b.wv) (hflt : c.flt = b.flt) : c.wantsService q = b.wantsService q := by
  have hsbAvail : c.sbAvail q = b.sbAvail q := by simp only [Blk.sbAvail, Blk.sbUse, Blk.partNo, hsb, hwv]
  have hwait : c.waitAvail q = b.waitAvail q := by simp only [Blk.waitAvail, Blk.waitUse, Blk.partNo, hsb, hwv, hkn]
  unfold Blk.wantsService Blk.waitPaused
  rw [hque, hsbAvail, hwait, hflt]
  simp only [hheld]
/-- Of a sequence of steps the one that changes the block decides the outcome. -/
theorem foldl_range_once {α : Type} {f : α → Nat → α} {b c : α} {k : Nat} (n : Nat) (hk : k < n)
    (hbefore : ∀ i, i < n → i ≠ k → f b i = b) (hat : f b k = c) (hafter : ∀ i, i < n → i ≠ k → f c i = c) :
    (List.range n).foldl f b = c := by
  have hrest : ∀ m ≤ n, (List.range m).foldl f b = if k < m then c else b := by
    intro m hm
    induction m with
    | zero => rfl
    | succ m ih =>
      rw [List.range_succ, List.foldl_append, ih (by omega), List.foldl_cons, List.foldl_nil]
      rcases Nat.lt_trichotomy k m with hlt | heq | hgt
      · rw [if_pos hlt, if_pos (by omega), hafter m hm (by omega)]
      · rw [if_neg (by omega), if_pos (by omega), ← heq, hat]
      · rw [if_neg (by omega), if_neg (by omega), hbefore m hm (by omega)]
  rw [hrest n (Nat.le_refl n), if_pos hk]

end

/-! ### A slot that was lost (06 R171) -/

/-- Between the two blocks only queue q differs, with messages sent and tallies. -/
def Blk.QueSent (b : Blk) (q : Nat) (c : Blk) : Prop :=
  b.SlotWork c ∧ c.sq = b.sq ∧ ∀ r, r ≠ q → c.que r = b.que r

section
variable {b c d : Blk} {q : Nat}

theorem Blk.slotWork_setQue (b : Blk) (q : Nat) (v : Que) : b.SlotWork (b.setQue q v) := rfl
theorem Blk.slotWork_setSeq (b : Blk) (s : Nat) (v : Seq) : b.SlotWork (b.setSeq s v) := rfl
theorem Blk.QueSent.refl (b : Blk) (q : Nat) : b.QueSent q b := ⟨rfl, rfl, fun _ _ => rfl⟩
theorem Blk.QueSent.trans (h : b.QueSent q c) (k : c.QueSent q d) : b.QueSent q d :=
  ⟨h.1.trans k.1, k.2.1.trans h.2.1, fun r hr => (k.2.2 r hr).trans (h.2.2 r hr)⟩
theorem Blk.QueOnly.queSent (h : b.QueOnly q c) : b.QueSent q c := by
  obtain ⟨hc, hr⟩ := h
  refine ⟨?_, by rw [hc], hr⟩
  unfold Blk.SlotWork
  rw [hc]
/-- The record of command COMP may be sent, and the queue waits for its acknowledgement then. -/
theorem Blk.pumpSr_spec (b : Blk) (q : Nat) : b.QueSent q (b.pumpSr q)
    ∧ ∃ w, (b.pumpSr q).que q = { b.que q with srWait := w } := by
  have hwait : b.QueSent q (b.setQue q { b.que q with srWait := true }) := (b.queOnly_setQue q _).queSent
  have hque : (b.setQue q { b.que q with srWait := true }).que q = { b.que q with srWait := true } := b.setQue_que q _
  have hsend : ∀ (c : Blk) (m : Instr), c.QueSent q (c.send m) := fun _ _ => ⟨rfl, rfl, fun _ _ => rfl⟩
  unfold Blk.pumpSr
  dsimp only
  split
  · exact ⟨.refl b q, _, rfl⟩
  split
  · exact ⟨.refl b q, _, rfl⟩
  split
  · exact ⟨.refl b q, _, rfl⟩
  split
  · exact ⟨hwait.trans (hsend _ _), true, hque⟩
  · exact ⟨hwait, true, hque⟩
theorem Blk.noteDone_spec (b : Blk) (q n : Nat) (st : Stat) (op : W8) : b.QueSent q (b.noteDone q n st op)
    ∧ ∃ w, (b.noteDone q n st op).que q = { b.que q with done := PMap.put n (st.record n op) (b.que q).done, srWait := w } := by
  unfold Blk.noteDone
  extract_lets u
  obtain ⟨hsent, w, hque⟩ := (b.setQue q { u with done := PMap.put n (st.record n op) u.done }).pumpSr_spec q
  rw [b.setQue_que] at hque
  exact ⟨(b.queOnly_setQue q _).queSent.trans hsent, w, hque⟩

/-- HEAD passes the last slot of the served queue: its sequencer leaves it idle, and looks for another. -/
theorem Blk.advanceHead_leaves (hserving : (b.seq (seqOf q)).serving = true) (hqueue : (b.seq (seqOf q)).queue = q)
    (hlast : (b.que q).tail = (b.que q).head + 1) : ∃ w : Blk, b.advanceHead q = w.kick (seqOf q) ∧ b.SlotWork w
      ∧ w.que q = { b.que q with head := (b.que q).head + 1, idle := true } ∧ (∀ r, r ≠ q → w.que r = b.que r)
      ∧ (w.seq (seqOf q)).serving = false
      ∧ (w.seq (seqOf q)).lines = ((b.seq (seqOf q)).lines.filter fun l => !(l.1 == q && l.2.1 == (b.que q).head))
      ∧ ∀ j, j ≠ seqOf q → w.seq j = b.seq j := by
  unfold Blk.advanceHead
  extract_lets s u v d u1 f mine taut work g leave
  have hseq : f.seq s = _ := b.setSeq_seq s _
  have hmine : ¬ (!mine) = true := by simp [mine, hseq, v, s, hserving, hqueue]
  rw [if_neg hmine, if_pos hlast.symm]
  have hleft : leave.seq s = _ := f.setSeq_seq s _
  have hwork : b.SlotWork leave :=
    ((b.slotWork_setSeq s _).trans (d.slotWork_setQue q u1)).trans (f.slotWork_setSeq s _)
  refine ⟨_, rfl, hwork.trans (leave.slotWork_setQue q _), leave.setQue_que q _, fun r hr => ?_, ?_, ?_, fun j hj => ?_⟩
  · exact (leave.setQue_que_ne _ hr).trans (d.setQue_que_ne _ hr)
  · rw [Blk.setQue_seq, hleft]
  · rw [Blk.setQue_seq, hleft]
    exact congrArg Seq.lines hseq
  · rw [Blk.setQue_seq]
    exact (f.setSeq_seq_ne _ hj).trans (b.setSeq_seq_ne _ hj)
/-- With no other queue to serve, no queue wants service then. -/
theorem Blk.advanceHead_last (hserving : (b.seq (seqOf q)).serving = true) (hqueue : (b.seq (seqOf q)).queue = q)
    (hlast : (b.que q).tail = (b.que q).head + 1) (hwake : (b.que q).wake = false)
    (hother : ∀ r, r ≠ q → b.wantsService r = false) : let c := b.advanceHead q
    c.que q = { b.que q with head := (b.que q).head + 1, idle := true } ∧ (c.seq (seqOf q)).serving = false
      ∧ (∀ j, j ≠ seqOf q → c.seq j = b.seq j) ∧ ∀ r, c.wantsService r = false := by
  obtain ⟨w, hleave, hwork, hque, hque', hserv, hlines, hseq⟩ := Blk.advanceHead_leaves hserving hqueue hlast
  have hheld : ∀ r, r ≠ q → ∀ n, w.heldLine r n = b.heldLine r n := by
    intro r hr n
    unfold Blk.heldLine
    by_cases hs : seqOf r = seqOf q
    · have hkeep : ∀ l : Nat × Nat × Line,
          decide ((!(l.1 == q && l.2.1 == (b.que q).head)) = true ∧ (l.1 == r && l.2.1 == n) = true) = (l.1 == r && l.2.1 == n) := by
        intro l
        have hne : l.1 = r → ¬ l.1 = q := fun hl => hl ▸ hr
        refine Bool.eq_iff_iff.2 ?_
        simp
        tauto
      rw [hs, hlines, List.find?_filter]
      simp only [hkeep]
    · rw [hseq _ hs]
  have hnone : ∀ r, w.wantsService r = false := by
    intro r
    by_cases hr : r = q
    · subst hr
      simp [Blk.wantsService, hque, hwake, hlast]
    · refine (Blk.wantsService_congr (by rw [hque' r hr]) (hheld r hr _) ?_ ?_ ?_ ?_).trans (hother r hr)
      all_goals rw [show w = _ from hwork]
  have hstay : w.kick (seqOf q) = w := Blk.kick_none (Blk.selectQueue_none fun r _ => hnone r)
  dsimp only
  rw [hleave, hstay]
  exact ⟨hque, hserv, hseq, hnone⟩

theorem Blk.bumpAll_que (b : Blk) (ev arg r : Nat) : (b.bumpAll ev arg).que r = b.que r := rfl
/-- What of a slot that could not be read is noted in its queue before HEAD passes it (R170, R171). -/
def Que.lose (u : Que) (w : Bool) : Que :=
  { u with
    lost := u.lost.filter fun n => n != u.head, err := u.err.record 8
    done := PMap.put u.head ((Stat.err Code.queFetch 0).record u.head 0xFF) u.done, srWait := w }
theorem Blk.slotLost_eq (b : Blk) (q : Nat) : ∃ c w, b.slotLost q = c.advanceHead q ∧ b.QueSent q c
    ∧ c.que q = (b.que q).lose w := by
  unfold Blk.slotLost
  extract_lets u d f
  have hd : b.QueOnly q d := b.queOnly_setQue q _
  have hdq : d.que q = { u with lost := u.lost.filter fun n => n != u.head } := b.setQue_que q _
  have hf : d.QueOnly q f := (d.queOnly_queErr q 8).trans (Blk.queOnly_bumpAll _ _ _ _)
  have hfq : f.que q = (d.que q).after (.error 8) := (Blk.bumpAll_que _ _ _ _).trans (d.queErr_que q 8)
  obtain ⟨hsent, w, hque⟩ := f.noteDone_spec q u.head (Stat.err Code.queFetch 0) 0xFF
  rw [hfq, hdq] at hque
  exact ⟨_, w, rfl, (hd.trans hf).queSent.trans hsent, hque⟩
/-- The last slot of the served queue, which could not be read, completes with QUE_FETCH; with no other queue to serve, no queue
wants service then. -/
theorem Blk.slotLost_last (hserving : (b.seq (seqOf q)).serving = true) (hqueue : (b.seq (seqOf q)).queue = q)
    (hlast : (b.que q).tail = (b.que q).head + 1) (hwake : (b.que q).wake = false)
    (hother : ∀ r, r ≠ q → b.wantsService r = false) : let c := b.slotLost q
    b.SlotWork c ∧ (∃ w, c.que q = { (b.que q).lose w with head := (b.que q).head + 1, idle := true })
      ∧ (c.seq (seqOf q)).serving = false ∧ (∀ j, j ≠ seqOf q → c.seq j = b.seq j) ∧ ∀ r, c.wantsService r = false := by
  obtain ⟨g, w, hlost, ⟨hwork, hsq, hque⟩, hgq⟩ := b.slotLost_eq q
  have hseq : ∀ j, g.seq j = b.seq j := fun j => by rw [Blk.seq, hsq, Blk.seq]
  have hsame : ∀ r, r ≠ q → g.wantsService r = false := by
    intro r hr
    refine (Blk.wantsService_congr (by rw [hque r hr]) (by simp only [Blk.heldLine, hseq]) ?_ ?_ ?_ ?_).trans (hother r hr)
    all_goals rw [show g = _ from hwork]
  obtain ⟨hcq, hserv, hcseq, hnone⟩ := Blk.advanceHead_last (b := g) (by rwa [hseq]) (by rwa [hseq])
    (by rw [hgq]; exact hlast) (by rw [hgq]; exact hwake) hsame
  rw [hgq] at hcq
  dsimp only
  rw [hlost]
  exact ⟨hwork.trans (g.slotWork_advanceHead q), ⟨w, hcq⟩, hserv, fun j hj => (hcseq j hj).trans (hseq j), hnone⟩

/-- A sequencer that serves no queue has none to leave. -/
theorem Blk.leavePaused_idle {s : Nat} (h : (b.seq s).serving = false) : b.leavePaused s = b := by
  simp [Blk.leavePaused, h]
theorem Blk.passHead_idle {s : Nat} (x : Env) (n : Nat) (h : (b.seq s).serving = false) : b.passHead x s n = b := by
  cases n with
  | zero => rfl
  | succ n => simp [Blk.passHead, h]
/-- The sequencer passes the lost slot at HEAD, and serves nothing after it. -/
theorem Blk.serve_lost (x : Env) (hrun : b.running = true) (hst : (b.seq (seqOf q)).st = .running)
    (hserving : (b.seq (seqOf q)).serving = true) (hqueue : (b.seq (seqOf q)).queue = q) (hwants : b.wantsService q = true)
    (hslot : (b.que q).head < (b.que q).tail) (hlost : (b.que q).head ∈ (b.que q).lost)
    (hserved : ((b.slotLost q).seq (seqOf q)).serving = false) : b.serve x (seqOf q) = b.slotLost q := by
  have hleave : b.leavePaused (seqOf q) = b := by simp [Blk.leavePaused, hqueue, hwants]
  have hkick : b.kick (seqOf q) = b := by simp [Blk.kick, Seq.free, hserving]
  have hpass : ∀ n, b.passHead x (seqOf q) (1 + n) = b.slotLost q := by
    intro n
    rw [Nat.add_comm, Blk.passHead, ← Blk.passHead_idle x n hserved]
    simp [hserving, hst, hqueue, hlost, Nat.not_le.2 hslot]
  simp [Blk.serve, hleave, hkick, hrun, hst, hserving, hpass, Blk.leavePaused_idle hserved, hserved]

/-- A block whose only served queue stands at its last slot, which was lost, passes it, and nothing else starts. -/
theorem Blk.pump_lost (x : Env) (hq : seqOf q < 4) (hrun : b.running = true) (hsb : b.sb = []) (hst : (b.seq (seqOf q)).st = .running)
    (hserving : (b.seq (seqOf q)).serving = true) (hqueue : (b.seq (seqOf q)).queue = q) (hwants : b.wantsService q = true)
    (hlast : (b.que q).tail = (b.que q).head + 1) (hwake : (b.que q).wake = false) (hlost : (b.que q).head ∈ (b.que q).lost)
    (hother : ∀ r, r ≠ q → b.wantsService r = false) (hidle : ∀ j, j < 4 → j ≠ seqOf q → (b.seq j).serving = false) :
    b.pump x = b.slotLost q := by
  obtain ⟨-, -, hserved, hseq, hnone⟩ := Blk.slotLost_last hserving hqueue hlast hwake hother
  have hstart : b.startEligible x = b := by simp [Blk.startEligible, hsb]
  simp only [Blk.pump, hrun, if_true, hstart]
  refine foldl_range_once 4 hq (fun s hs hne => ?_) ?_ (fun s hs hne => ?_)
  · refine b.serve_rests x s (hidle s hs hne) (Blk.selectQueue_none fun r hr => hother r ?_)
    rintro rfl
    exact hne hr.symm
  · exact Blk.serve_lost x hrun hst hserving hqueue hwants (by omega) hlost hserved
  · exact Blk.serve_rests x s ((congrArg Seq.serving (hseq s hne)).trans (hidle s hs hne)) (Blk.selectQueue_none fun r _ => hnone r)

end

/-- Settles O11: what comes back frees its place and reaches its sequencer alone; a lost slot at HEAD is passed by `Blk.pump`. -/
theorem slotReadReturns : Obligations.SlotReadReturns := by
  refine ⟨?_, ?_⟩
  · intro s q i n b u v hup hst hle hlt hplace
    have hfree : u.st ≠ .free := by simp [hst]
    refine ⟨?_, ?_⟩
    · intro l m harrive
      obtain ⟨⟨hframe, hother⟩, hheld, houts⟩ := Blk.slotBack_line (b := b.arrived m) hplace hfree hle l
      exact ⟨_, exec_slotReadReturn hup hle hlt harrive, hframe, hheld, houts, hother⟩
    · intro m harrive hlost
      obtain ⟨hframe, hque, hseq, hques, hseqs⟩ := Blk.slotBack_none (b := b.arrived m) hplace hfree hle hlost
      refine ⟨_, exec_slotReadReturn hup hle hlt harrive, hframe, hque, ?_, hques, hseqs⟩
      rw [hseq]
      rfl
  · intro s q i b u v m hrun hst hlast hwake hplace hsb hlost hvst hserving hqueue hwants hother hidle harrive
    have hup : b.up = true := Blk.running_up hrun
    have hfree : u.st ≠ .free := by simp [hst]
    have hnext : u.head < u.head + 2 ^ 32 := Nat.lt_add_of_pos_right (by decide)
    obtain ⟨hframe, hque, hseq, hques, hseqs⟩ :=
      Blk.slotBack_none (b := b.arrived m) hplace hfree (Nat.le_refl u.head) hlost
    have hexec := exec_slotReadReturn hup (Nat.le_refl u.head) hnext harrive
    generalize (b.arrived m).slotBack q u.head none = c at *
    have hlines : ∀ j, (c.seq j).lines = (b.seq j).lines := by
      intro j
      by_cases hj : j = seqOf q
      · rw [hj, hseq]
        rfl
      · rw [hseqs j hj]
        rfl
    have hsame : ∀ r, c.wantsService r = b.wantsService r := by
      intro r
      refine Blk.wantsService_congr ?_ (by simp only [Blk.heldLine, hlines]) ?_ ?_ ?_ ?_
      · by_cases hr : r = q
        · rw [hr, hque]
          rfl
        · rw [hques r hr]
          rfl
      all_goals
        rw [hframe]
        rfl
    have hcrun : c.running = true := by
      rw [hframe]
      exact hrun
    have hcsb : c.sb = [] := by
      rw [hframe]
      exact hsb
    have hcserving : (c.seq (seqOf q)).serving = true := by rw [hseq]; exact hserving
    have hcqueue : (c.seq (seqOf q)).queue = q := by rw [hseq]; exact hqueue
    have hclast : (c.que q).tail = (c.que q).head + 1 := by rw [hque]; exact hlast
    have hcwake : (c.que q).wake = false := by rw [hque]; exact hwake
    have hclost : (c.que q).head ∈ (c.que q).lost := by
      rw [hque]
      exact List.mem_append_right _ (List.mem_singleton.2 rfl)
    have hcother : ∀ r, r ≠ q.val → c.wantsService r = false := fun r hr => (hsame r).trans (hother r hr)
    have hpump : c.pump s.env = c.slotLost q :=
      Blk.pump_lost s.env (Nat.mod_lt _ (by decide)) hcrun hcsb (by rw [hseq]; exact hvst) hcserving hcqueue
        ((hsame q).trans hwants) hclast hcwake hclost hcother
        fun j hj hne => (congrArg Seq.serving (hseqs j hne)).trans (hidle j hj hne)
    rw [hpump] at hexec
    obtain ⟨hwork, ⟨w, hcq⟩, -⟩ := Blk.slotLost_last hcserving hcqueue hclast hcwake hcother
    rw [hque] at hcq
    have hbc : b.QueueWork c := by
      rw [hframe]
      rfl
    refine ⟨_, hexec, hbc.trans (c.queueWork_slotLost q), ?_, ?_, ?_, ?_⟩
    · rw [hcq]
      rfl
    · rw [Blk.Ended, hcq]
      exact PMap.find_put_self _ _ _
    · rw [hcq]
      rfl
    · rw [show c.slotLost q = _ from hwork, hframe]
      rfl

end Sys2Proof.Machine

/-! # Completion

What a completion event brings a command to, COMP, and the answers to status records. -/

namespace Sys2Proof.Machine

/-! ### Started commands (06 R166, R174) -/

section
variable {b : Blk} {q n : Nat} {e : SbEntry}

theorem Blk.entry_spec (h : b.entry q n = some e) : e.q = q ∧ e.n = n := by
  simpa using List.find?_some h

/-- A started command that no fence holds is finished when it can be. -/
theorem Blk.attempt_started (x : Env) (he : b.entry q n = some e) (hstart : e.started = true)
    (hfence : e.ending.isSome = true ∨ b.fenced e = none) : b.attempt x q n = b.finishCmd e := by
  have hnew : b.mayStart e = false := by simp [Blk.mayStart, hstart]
  have hfree : ((b.fenced e).isSome && e.ending.isNone) = false := by
    rcases hfence with h | h
    · cases hend : e.ending <;> simp [hend] at h ⊢
    · simp [h]
  unfold Blk.attempt
  rw [he]
  simp [hnew, hfree]

theorem exec_commandComplete {s : State} {q : Queue} (hrun : s.blk.running = true) (he : s.blk.entry q n = some e)
    (hstart : e.started = true) (hfence : e.ending.isSome = true ∨ s.blk.fenced e = none) :
    exec (.commandComplete q n) s = .next { s with blk := (s.blk.finishCmd e).pump s.env } := by
  simp only [exec, execCommandComplete, State.onWork, State.onBlk, hrun, if_true]
  rw [Blk.attempt_started s.env he hstart hfence]

/-- A command that completes has its record among the completed ones (R166); a LAUNCH shows a stretch in it (R400). -/
theorem Blk.complete_ended (b : Blk) (e : SbEntry) (st : Stat) (rel : BitVec 4) : (b.complete e st rel).Ended e.q e.n
    (if e.opcode = opLAUNCH then { st with stretched := b.stretchSeen e.q e.n } else st) e.opcode := by
  have hnear : (b.complete e st rel).que e.q = _ := b.complete_near e st rel e.q
  unfold Blk.Ended
  rw [hnear, if_pos rfl]
  exact PMap.find_put_self _ _ _
theorem Blk.complete_ended_plain (b : Blk) {e : SbEntry} (h : e.opcode ≠ opLAUNCH) (st : Stat) (rel : BitVec 4) :
    (b.complete e st rel).Ended e.q e.n st e.opcode := by
  have hend := b.complete_ended e st rel
  rwa [if_neg h] at hend

/-- Its requests answered, a command completes with the status decided for it (R174). -/
theorem Blk.finishCmd_decided {st : Stat} (hend : e.ending = some st)
    (hidle : (∃ asked done err, e.prog = .xfer asked done 0 err) ∨ (∃ k r, e.prog = .watch k 0 r) ∨ (∃ y, e.prog = .membar y 0)
      ∨ ∃ k, e.prog = .load k ∧ k.outst = [] ∧ e.owes = []) : b.finishCmd e = b.complete e st 0 := by
  rcases hidle with ⟨asked, done, err, h⟩ | ⟨k, r, h⟩ | ⟨y, h⟩ | ⟨k, h, hout, howes⟩
  · simp [Blk.finishCmd, h, hend]
  · simp [Blk.finishCmd, h, hend]
  · simp [Blk.finishCmd, h, hend]
  · simp [Blk.finishCmd, h, hend, hout, howes]
/-- A load that has delivered everything completes OK (07 R197, R198). -/
theorem Blk.finishCmd_load {k : LoadSt} (hend : e.ending = none) (hprog : e.prog = .load k) (hout : k.outst = [])
    (himem : e.opcode = opIMEM → imemLen e.slot ≤ 64 * SMap.get 0 k.got 0
      ∧ ∀ y ∈ k.banks, ((b.engine y.1).bank (y.2 == 2)).st ≠ .waiting ∧ ((b.engine y.1).bank (y.2 == 2)).st ≠ .loading)
    (hws : e.opcode ≠ opIMEM → ∀ t ∈ k.targets, Slot.d32 e.slot 0x14 ≤ 64 * SMap.get 0 k.got t) :
    b.finishCmd e = b.complete e .ok 0 := by
  unfold Blk.finishCmd
  rw [hprog]
  dsimp only
  rw [hend]
  dsimp only
  refine if_pos ?_
  by_cases hop : e.opcode = opIMEM
  · obtain ⟨hlen, hbanks⟩ := himem hop
    simpa [hout, hop, hlen] using fun x y hy => hbanks (x, y) hy
  · simpa [hout, hop] using hws hop

/-! ### A LAUNCH (R168, R400) -/

theorem Blk.jobOver_que (j : Job) (r : Nat) : (b.jobOver j).que r = b.que r := rfl
/-- A LAUNCH that no engine holds completes with what its tiles reported. -/
theorem Blk.finishLaunch_ended {l : Launch} {st : Stat} (he : b.entry q n = some e) (hstart : e.started = true)
    (hend : e.ending = some st) (hprog : e.prog = .launch l) (hop : e.opcode = opLAUNCH) (hheld : b.holders e.job = [])
    (howes : e.owes = []) :
    (b.finishLaunch q n).Ended q n { st.withReport l with stretched := b.stretchSeen q n } opLAUNCH := by
  obtain ⟨hq, hn⟩ := Blk.entry_spec he
  have hstretch : (b.figures q n l).stretchSeen q n = b.stretchSeen q n := by
    unfold Blk.stretchSeen Blk.figures
    rw [Blk.setQue_que]
    rfl
  have hended := (b.figures q n l).complete_ended e (st.withReport l) 0
  rw [if_pos hop, hop, hq, hn, hstretch] at hended
  have hfinish : b.finishLaunch q n = ((b.figures q n l).complete e (st.withReport l) 0).jobOver e.job := by
    unfold Blk.finishLaunch
    rw [he]
    simp [hend, SbEntry.launch?, hprog, hheld, howes, hstart]
  rw [hfinish, Blk.Ended, Blk.jobOver_que]
  exact hended
/-- A LAUNCH completes with the status decided for it, or with that of its tiles once every tile is done (R168). -/
theorem Blk.finishCmd_launch {l : Launch} {st : Stat} (he : b.entry q n = some e) (hstart : e.started = true)
    (hprog : e.prog = .launch l) (hop : e.opcode = opLAUNCH) (hheld : b.holders e.job = []) (howes : e.owes = [])
    (hst : e.ending = some st ∨ (e.ending = none ∧ b.fenced e = none ∧ l.twin = none ∧ l.doneTiles = l.tiles ∧ st = l.stat)) :
    (b.finishCmd e).Ended q n { st.withReport l with stretched := b.stretchSeen q n } opLAUNCH := by
  obtain ⟨hq, hn⟩ := Blk.entry_spec he
  unfold Blk.finishCmd
  rw [hprog, hq, hn]
  rcases hst with hend | ⟨hend, -, htwin, hdone, rfl⟩
  · simp only [hend, Option.isSome_some, if_true]
    exact Blk.finishLaunch_ended he hstart hend hprog hop hheld howes
  · have hmod : (b.modEntry q n fun x => { x with ending := some l.stat }).entry q n = some { e with ending := some l.stat } := by
      refine (Blk.modEntry_entry (f := fun x => { x with ending := some l.stat }) fun _ => ⟨rfl, rfl⟩).trans ?_
      rw [he]
      rfl
    simp only [hend, Option.isSome_none, Bool.false_eq_true, if_false, htwin, hdone, hheld]
    exact Blk.finishLaunch_ended hmod hstart rfl hprog hop hheld howes

end

/-! ### COMP (R156, R166) -/

/-- Between the two blocks only engines, lines that leave a cache, and what the work of queues reaches differ. -/
def Blk.PassWork (b c : Blk) : Prop :=
  ({ b with eng := c.eng, mem := { b.mem with agents := c.mem.agents, cohFwd := c.mem.cohFwd } } : Blk).QueueWork c

section
variable {b c d : Blk} {q : Nat}

theorem Blk.PassWork.refl (b : Blk) : b.PassWork b := rfl
theorem Blk.PassWork.trans (h : b.PassWork c) (k : c.PassWork d) : b.PassWork d := by
  unfold Blk.PassWork Blk.QueueWork at *
  rw [h] at k
  exact k
theorem Blk.CmdWork.passWork (h : b.CmdWork c) : b.PassWork c := by
  unfold Blk.PassWork
  rw [show c = _ from h]
  rfl
theorem Blk.passWork_send (m : Instr) (b : Blk) : b.PassWork (b.send m) := (b.queueWork_send m).cmdWork.passWork
theorem Blk.passWork_dropCopy (a line : Nat) (b : Blk) : b.PassWork (b.dropCopy a line) := rfl
theorem Blk.engsOnly_forget (a line : Nat) (b : Blk) : b.EngsOnly (b.forget a line) := by
  unfold Blk.forget
  split
  · exact b.engsOnly_modEng a _
  · exact .refl b
theorem Blk.passWork_forget (a line : Nat) (b : Blk) : b.PassWork (b.forget a line) := (b.engsOnly_forget a line).cmdWork.passWork
theorem Blk.forget_qs (a line : Nat) (b : Blk) : (b.forget a line).qs = b.qs := (b.engsOnly_forget a line).standWork.qs
/-- A line that leaves a cache leaves every queue as it was. -/
theorem Blk.passWork_evictLine (a : AgentId) (line : Nat) (k : Copy) (b : Blk) :
    b.PassWork (b.evictLine a line k) ∧ (b.evictLine a line k).qs = b.qs := by
  have hleave : ∀ (c : Blk) (l : Nat) (m : Instr), c.PassWork (((c.dropCopy a l).forget a l).send m)
      ∧ (((c.dropCopy a l).forget a l).send m).qs = c.qs := fun c l m =>
    ⟨((c.passWork_dropCopy a l).trans (Blk.passWork_forget _ _ _)).trans (Blk.passWork_send _ _), (c.dropCopy a l).forget_qs a l⟩
  unfold Blk.evictLine
  split
  · exact hleave b _ _
  · have hfwd : b.PassWork { b with mem := { b.mem with cohFwd := satInc b.mem.cohFwd } } := rfl
    obtain ⟨hwork, hqs⟩ := hleave (Blk.send (.data (some a) (.agent 68) (lineNo line) k.data true)
      { b with mem := { b.mem with cohFwd := satInc b.mem.cohFwd } }) (lineNo line).toNat (.invack a (lineNo line) none)
    exact ⟨(hfwd.trans (Blk.passWork_send _ _)).trans hwork, hqs⟩
  · exact ⟨(b.passWork_dropCopy a line).trans (Blk.passWork_send _ _), rfl⟩
theorem Blk.dropDesc_spec (b : Blk) (q n : Nat) : b.PassWork (b.dropDesc q n)
    ∧ ∃ m, (b.dropDesc q n).que q = { b.que q with descAt := m } := by
  unfold Blk.dropDesc
  extract_lets u a drop c
  split
  · exact ⟨.refl b, _, rfl⟩
  next line _ =>
  have hc : b.PassWork c := (b.queueWork_setQue q _).cmdWork.passWork
  have hdrop : ∀ (d : Blk) (l : Nat), d.PassWork (drop d l) ∧ (drop d l).qs = d.qs := by
    intro d l
    simp only [drop]
    split
    · split
      · exact d.passWork_evictLine _ _ _
      · exact ⟨.refl d, rfl⟩
    · exact ⟨.refl d, rfl⟩
  obtain ⟨hwork, hqs⟩ := hdrop c line
  obtain ⟨hwork', hqs'⟩ := hdrop (drop c line) ((line + 1) % 2 ^ 58)
  exact ⟨(hc.trans hwork).trans hwork', _, (Blk.que_congr (hqs'.trans hqs) q).trans (b.setQue_que q _)⟩
/-- A queue whose COMP has passed the command of record r. -/
def Que.passed (r : BitVec 128) (u : Que) : Que :=
  { u with lastRec := r, statusAcc := u.statusAcc ||| recFlags r, comp := u.comp + 1, done := PMap.del u.comp u.done
           srWait := false, srAcked := false }
theorem Blk.compPass_some {r : BitVec 128} (hr : PMap.find (b.que q).comp (b.que q).done = some r)
    (hhead : (b.que q).comp < (b.que q).head) (hsr : (b.que q).srOn = false ∨ (b.que q).srAcked = true) :
    b.compPass q = (((b.dropDesc q (b.que q).comp).setQue q
      (((b.dropDesc q (b.que q).comp).que q).passed r)).pumpSr q).drainStands q := by
  have hpass : ¬ (((b.que q).srOn && !(b.que q).srAcked) || decide ((b.que q).head ≤ (b.que q).comp)) = true := by
    have : ¬ (b.que q).head ≤ (b.que q).comp := Nat.not_le.2 hhead
    rcases hsr with h | h <;> simp [h, this]
  unfold Blk.compPass
  dsimp only
  rw [hr]
  exact if_neg hpass
theorem Blk.compPass_spec {r : BitVec 128} (hr : PMap.find (b.que q).comp (b.que q).done = some r)
    (hhead : (b.que q).comp < (b.que q).head) (hsr : (b.que q).srOn = false ∨ (b.que q).srAcked = true) :
    let c := b.compPass q; let u := b.que q
    b.PassWork c ∧ (c.que q).comp = u.comp + 1 ∧ (c.que q).lastRec = r ∧ (c.que q).statusAcc = u.statusAcc ||| recFlags r
      ∧ (c.que q).head = u.head ∧ (c.que q).tail = u.tail := by
  obtain ⟨hdrop, m, hdropped⟩ := b.dropDesc_spec q (b.que q).comp
  rw [Blk.compPass_some hr hhead hsr]
  generalize b.dropDesc q (b.que q).comp = c at hdrop hdropped ⊢
  have hpass : b.PassWork (c.setQue q ((c.que q).passed r)) := hdrop.trans (c.queueWork_setQue q _).cmdWork.passWork
  have hque : (c.setQue q ((c.que q).passed r)).que q = _ := c.setQue_que q _
  generalize c.setQue q ((c.que q).passed r) = d at hpass hque ⊢
  obtain ⟨-, w, hsent⟩ := d.pumpSr_spec q
  have hdrain := (d.pumpSr q).standWork_drainStands q
  dsimp only
  rw [Blk.que_congr hdrain.qs, hsent, hque, hdropped]
  exact ⟨(hpass.trans (d.queueWork_pumpSr q).cmdWork.passWork).trans hdrain.cmdWork.passWork, rfl, rfl, rfl, rfl, rfl⟩

end

/-! ### Status records (R169) -/

theorem exec_compAdvance {s : State} {q : Queue} (hrun : s.blk.running = true) (hst : (s.blk.seq (seqOf q)).st ≠ .broke) :
    exec (.compAdvance q) s = .next { s with blk := (s.blk.compPass q).pump s.env } := by
  simp [exec, execCompAdvance, State.onWork, State.onBlk, hrun, hst]


/-- The answer to the record of a queue's command is noted there, and an error is recorded (14 R370). -/
def Blk.recAnswered (b : Blk) (q : Nat) (resp : BitVec 2) : Blk :=
  if resp = 0 then b.setQue q { b.que q with srAcked := true }
  else (b.setQue q { b.que q with srAcked := true }).recFailed q

section
variable {b : Blk} {q : Nat} {resp : BitVec 2}

theorem exec_statusRecordAck {s : State} {q : Queue} (hup : s.blk.up = true)
    (harrive : s.blk.mayArrive (.statusRecordAck (.ring q) resp) = true) (hwait : (s.blk.que q).srWait = true)
    (hacked : (s.blk.que q).srAcked = false) : exec (.statusRecordAck (.ring q) resp) s = .next { s with
      blk := ((s.blk.arrived (.statusRecordAck (.ring q) resp)).recAnswered q resp).pump s.env } := by
  have hfirst : ((s.blk.que q).srWait && !(s.blk.que q).srAcked) = true := by simp [hwait, hacked]
  have hque : (s.blk.arrived (.statusRecordAck (.ring q) resp)).que q = s.blk.que q := rfl
  simp only [exec, execStatusRecordAck, State.onArrival, State.onBlk, hup, harrive, hque]
  rw [if_pos hfirst]
  rfl
theorem Blk.recFailed_spec (b : Blk) (q : Nat) : let c := b.recFailed q
    c = { b with qs := c.qs, sq := c.sq } ∧ c.que q = { b.que q with err := (b.que q).err.record 9 }
      ∧ (∀ r, r ≠ q → c.que r = b.que r) ∧ c.seq (seqOf q) = (b.seq (seqOf q)).respError
      ∧ ∀ j, j ≠ seqOf q → c.seq j = b.seq j :=
  ⟨rfl, b.setQue_que q _, fun _ hr => b.setQue_que_ne _ hr, (b.queErr q 9).setSeq_seq _ _,
    fun _ hj => (b.queErr q 9).setSeq_seq_ne _ hj⟩
theorem Blk.recAnswered_spec (b : Blk) (q : Nat) (resp : BitVec 2) : let c := b.recAnswered q resp; let u := b.que q
    c.que q = { u with srAcked := true, err := if resp = 0 then u.err else
        { u.err with code := 0x09, count := satInc u.err.count, valid := true } }
      ∧ c = { b with qs := c.qs, sq := c.sq } ∧ (∀ r, r ≠ q → c.que r = b.que r) ∧ (resp = 0 → c.sq = b.sq)
      ∧ (resp ≠ 0 → (c.seq (seqOf q)).errRec = true) ∧ ∀ j, j ≠ seqOf q → c.seq j = b.seq j := by
  have hacked : (b.setQue q { b.que q with srAcked := true }).que q = _ := b.setQue_que q _
  have hother : ∀ r, r ≠ q → (b.setQue q { b.que q with srAcked := true }).que r = b.que r := fun r hr => b.setQue_que_ne _ hr
  have hframe : b.setQue q { b.que q with srAcked := true } =
      { b with qs := (b.setQue q { b.que q with srAcked := true }).qs } := rfl
  unfold Blk.recAnswered
  by_cases hresp : resp = 0
  · simp only [if_pos hresp]
    exact ⟨hacked, rfl, hother, fun _ => rfl, fun h => absurd hresp h, fun _ _ => rfl⟩
  · simp only [if_neg hresp]
    generalize b.setQue q { b.que q with srAcked := true } = c at hacked hother hframe ⊢
    obtain ⟨hfailed, hque, hques, hseq, hseqs⟩ := c.recFailed_spec q
    refine ⟨?_, ?_, fun r hr => (hques r hr).trans (hother r hr), fun h => absurd h hresp, fun _ => ?_, fun j hj => ?_⟩
    · rw [hque, hacked]
      rfl
    · rw [hfailed, hframe]
    · rw [hseq]
      rfl
    · rw [hseqs j hj, hframe]
      rfl

end

/-- Settles O12: what completes goes through `Blk.complete`, and COMP through `Blk.compPass`. -/
theorem completionCounts : Obligations.CompletionCounts := by
  intro s q b u
  refine ⟨?_, ?_, ?_, ?_, ?_⟩
  · intro n e st hrun he hstart hend hop hidle
    obtain ⟨hq, hn⟩ := Blk.entry_spec he
    have hexec := exec_commandComplete hrun he hstart (.inl (by rw [hend]; rfl))
    rw [Blk.finishCmd_decided hend hidle] at hexec
    refine ⟨_, hexec, b.queueWork_complete e st 0, ?_⟩
    rw [← hq, ← hn]
    exact b.complete_ended_plain hop st 0
  · intro n e k hrun he hstart hend hop hfence hprog hout himem hws
    obtain ⟨hq, hn⟩ := Blk.entry_spec he
    have hexec := exec_commandComplete hrun he hstart (.inr hfence)
    rw [Blk.finishCmd_load hend hprog hout himem hws] at hexec
    refine ⟨_, hexec, b.queueWork_complete e .ok 0, ?_⟩
    rw [← hq, ← hn]
    exact b.complete_ended_plain hop .ok 0
  · intro n e l st hrun he hstart hprog hop hheld howes hst
    have hfence : e.ending.isSome = true ∨ b.fenced e = none := by
      rcases hst with hend | ⟨-, hfence, -⟩
      · exact .inl (by rw [hend]; rfl)
      · exact .inr hfence
    exact ⟨_, exec_commandComplete hrun he hstart hfence, (b.finishCmd_leaves e).1,
      Blk.finishCmd_launch he hstart hprog hop hheld howes hst⟩
  · intro r hrun hseq hr hhead hsr
    exact ⟨_, exec_compAdvance hrun hseq, Blk.compPass_spec hr hhead hsr⟩
  · intro resp m hup harrive hwait hacked
    obtain ⟨hque, hframe, hspec⟩ := (b.arrived m).recAnswered_spec q resp
    exact ⟨_, exec_statusRecordAck hup harrive hwait hacked, hque, hframe, hspec⟩

end Sys2Proof.Machine

/-! # What a completion leaves alone

The ties of a completion stay within `Blk.TieWork`, so a completion keeps what its queue holds but the record, and the
standing launches bound or not as they were. -/

namespace Sys2Proof.Machine

/-! ### Ties (08 R206, R207) -/

/-- Between the two blocks only entries, standing launches, knots, the stale count and tallies differ. -/
def Blk.TieFrame (b c : Blk) : Prop :=
  c = { b with sb := c.sb, stand := c.stand, kn := c.kn, wv := { b.wv with staleCnt := c.wv.staleCnt },
               trc := { b.trc with tally := c.trc.tally } }
/-- The same standing launches stand, bound or not as before, and none that is parked has left its knot. -/
def Blk.StandsOn (b c : Blk) : Prop :=
  (∀ q n, (c.findStand q n).map (·.bound) = (b.findStand q n).map (·.bound))
    ∧ ∀ w ∈ b.kn.waiters, w.stand = true → w ∈ c.kn.waiters
/-- What a tie can do to the block. -/
def Blk.TieWork (b c : Blk) : Prop := b.TieFrame c ∧ b.StandsOn c

section
variable {b c d : Blk} {q n : Nat}

theorem Blk.TieFrame.trans (h : b.TieFrame c) (k : c.TieFrame d) : b.TieFrame d := by
  unfold Blk.TieFrame at *
  rw [h] at k
  exact k
theorem Blk.StandsOn.trans (h : b.StandsOn c) (k : c.StandsOn d) : b.StandsOn d :=
  ⟨fun q n => (k.1 q n).trans (h.1 q n), fun w hw hs => k.2 w (h.2 w hw hs) hs⟩
theorem Blk.StandsOn.of_eq (hstand : c.stand = b.stand) (hkn : c.kn.waiters = b.kn.waiters) : b.StandsOn c :=
  ⟨fun q n => by rw [Blk.findStand, hstand]; rfl, fun w hw _ => hkn ▸ hw⟩
theorem Blk.TieWork.refl (b : Blk) : b.TieWork b := ⟨rfl, .of_eq rfl rfl⟩
theorem Blk.TieWork.trans (h : b.TieWork c) (k : c.TieWork d) : b.TieWork d := ⟨h.1.trans k.1, h.2.trans k.2⟩
theorem Blk.TieWork.ite {p : Prop} [Decidable p] (h : b.TieWork c) (k : b.TieWork d) : b.TieWork (if p then c else d) := by
  split <;> assumption
theorem Blk.TieWork.foldl {α : Type} {f : Blk → α → Blk} (h : ∀ (b : Blk) x, b.TieWork (f b x)) (l : List α) (b : Blk) :
    b.TieWork (l.foldl f b) :=
  List.foldlRecOn l f (motive := b.TieWork) (.refl b) fun c hc x _ => hc.trans (h c x)
theorem Blk.TieWork.host (h : b.TieWork c) : c.host = b.host := by rw [h.1]
theorem Blk.TieWork.qs (h : b.TieWork c) : c.qs = b.qs := by rw [h.1]

/-- Standing launches changed one by one are found as before. -/
theorem Blk.findStand_map {f : Standing → Standing} (h : ∀ x, (f x).q = x.q ∧ (f x).n = x.n) :
    ({ b with stand := b.stand.map f } : Blk).findStand q n = (b.findStand q n).map f := by
  have hkey : ((fun s : Standing => s.q == q && s.n == n) ∘ f) = fun s => s.q == q && s.n == n := by
    funext x
    obtain ⟨hq, hn⟩ := h x
    simp only [Function.comp_apply, hq, hn]
  exact List.find?_map.trans (by rw [hkey]; rfl)
theorem Standing.trigger'_spec {x y : Standing} {v : W64} (h : x.trigger' v = some y) :
    y.q = x.q ∧ y.n = x.n ∧ y.bound = x.bound := by
  unfold Standing.trigger' at h
  split at h
  · cases h
  · extract_lets k t hit z at h
    rw [Option.some.injEq] at h
    subst h
    split <;> exact ⟨rfl, rfl, rfl⟩
theorem Blk.findStand_spec {x : Standing} (h : b.findStand q n = some x) : x.q = q ∧ x.n = n := by
  simpa using List.find?_some h

theorem Blk.tieWork_evalTrigger (q n : Nat) (b : Blk) : b.TieWork (b.evalTrigger q n) := by
  unfold Blk.evalTrigger
  split
  · exact .refl b
  next x hx =>
  split
  · exact .refl b
  next y hy =>
  obtain ⟨hxq, hxn⟩ := Blk.findStand_spec hx
  obtain ⟨hq, hn, hbound⟩ := Standing.trigger'_spec hy
  refine ⟨rfl, fun r m => ?_, fun w hw _ => hw⟩
  change ((b.modStand q n fun _ => y).findStand r m).map (·.bound) = _
  have hfind := Blk.findStand_map (b := b) (q := r) (n := m) (f := fun x => if x.q == q && x.n == n then y else x) fun z => by
    split
    · next hz =>
      simp only [Bool.and_eq_true, beq_iff_eq] at hz
      exact ⟨(hq.trans hxq).trans hz.1.symm, (hn.trans hxn).trans hz.2.symm⟩
    · exact ⟨rfl, rfl⟩
  refine (congrArg _ hfind).trans ?_
  cases hz : b.findStand r m with
  | none => rfl
  | some z =>
    obtain ⟨rfl, rfl⟩ := Blk.findStand_spec hz
    by_cases hsame : z.q = q ∧ z.n = n
    · obtain ⟨rfl, rfl⟩ := hsame
      obtain rfl : x = z := Option.some.inj (hx.symm.trans hz)
      simp [hbound]
    · have hne : ¬ (z.q == q && z.n == n) = true := by simpa using hsame
      simp only [Option.map_some, if_neg hne]
theorem Blk.tieWork_unpark (q n : Nat) (b : Blk) : b.TieWork (b.unpark false q n) :=
  ⟨rfl, fun _ _ => rfl, fun w hw hs => List.mem_filter.2 ⟨hw, by simp [Waiter.is, hs]⟩⟩
theorem Blk.tieWork_evalWaiting (q n : Nat) (b : Blk) : b.TieWork (b.evalWaiting q n) := by
  unfold Blk.evalWaiting
  split
  · exact .refl b
  split
  · exact .refl b
  dsimp only
  split
  · exact .refl b
  next e _ _ r _ =>
  have hmod : b.TieWork (b.modEntry q n fun e => { e with prog := .hitch (some r) }) := ⟨rfl, .of_eq rfl rfl⟩
  exact (hmod.trans (Blk.tieWork_unpark q n _)).trans ⟨rfl, .of_eq rfl rfl⟩
theorem Blk.tieWork_evalWaiters (k : Nat) (b : Blk) : b.TieWork (b.evalWaiters k) :=
  Blk.TieWork.foldl (fun b _ => .ite (b.tieWork_evalTrigger _ _) (b.tieWork_evalWaiting _ _)) _ b
theorem Blk.tieWork_markConcealed (k : Nat) (b : Blk) : b.TieWork (b.markConcealed k) := by
  refine ⟨rfl, fun q n => ?_, fun w hw _ => hw⟩
  have hfind := Blk.findStand_map (b := b) (q := q) (n := n) (f := fun s =>
      if s.bound && s.trigger == k && decide (s.thr.toNat ≤ (b.knot k).val.toNat) then
        { s with conceal := addNew s.conceal (b.knot k).val.toNat } else s) fun x => by split <;> exact ⟨rfl, rfl⟩
  refine (congrArg _ hfind).trans ?_
  rw [Option.map_map]
  refine congrArg (Option.map · _) (funext fun x => ?_)
  rw [Function.comp_apply]
  split <;> rfl
theorem Blk.tieWork_tieNow (t : Tie) (b : Blk) : b.TieWork (b.tieNow t) := by
  unfold Blk.tieNow
  have hset : b.TieWork (b.setKnot t.knot ((b.knot t.knot).tied t)) := ⟨rfl, .of_eq rfl rfl⟩
  have hbump : ∀ (c : Blk) (ev arg : Nat), c.TieWork (c.bumpAll ev arg) := fun _ _ _ => ⟨rfl, .of_eq rfl rfl⟩
  refine .ite ⟨rfl, .of_eq rfl rfl⟩ (Blk.TieWork.trans ?_ (Blk.tieWork_evalWaiters _ _))
  exact (hset.trans (.ite (Blk.tieWork_markConcealed _ _) (.refl _))).trans (hbump _ _ _)
theorem Blk.tieWork_applyTie (t : Tie) (b : Blk) : b.TieWork (b.applyTie t) := by
  have htaken : b.TieWork { b with kn := { b.kn with tieQ := b.kn.tieQ.filter fun u => u.knot != t.knot } } := ⟨rfl, .of_eq rfl rfl⟩
  exact (htaken.trans (Blk.TieWork.foldl (fun b u => b.tieWork_tieNow u) _ _)).trans (Blk.tieWork_tieNow t _)
theorem Blk.tieWork_completionTie (t : W64) (form : Option (BitVec 4) × BitVec 4) (ep : W32) (b : Blk) :
    b.TieWork (b.completionTie t form ep) := by
  unfold Blk.completionTie
  split <;> exact Blk.tieWork_applyTie _ _
theorem Blk.tieWork_settle (q : Nat) (b : Blk) : b.TieWork (b.settle q) := by
  unfold Blk.settle
  split
  · exact .ite (b.tieWork_evalWaiting _ _) (.refl b)
  · exact .refl b
theorem Blk.settle_tab (q : Nat) (b : Blk) : (b.settle q).kn.tab = b.kn.tab := by
  unfold Blk.settle
  split
  · split
    · obtain ⟨-, -, -, htab⟩ := b.evalWaiting_qs q _
      exact htab
    · rfl
  · rfl

/-- A tie that no other waits before, and that is not older than its knot's role, takes effect on its knot alone (R205, R206). -/
theorem Blk.applyTie_fresh {t : Tie} (halone : ∀ u ∈ b.kn.tieQ, u.knot ≠ t.knot) (hrole : (b.knot t.knot).role.toNat ≤ t.epoch.toNat) :
    (b.applyTie t).knot t.knot = (b.knot t.knot).tied t ∧ ∀ k, k ≠ t.knot → (b.applyTie t).knot k = b.knot k := by
  have hahead : (b.kn.tieQ.filter fun u => u.knot == t.knot) = [] := by simpa using halone
  have hlater : (b.kn.tieQ.filter fun u => u.knot != t.knot) = b.kn.tieQ := by simpa using halone
  have happly : b.applyTie t = b.tieNow t := by
    unfold Blk.applyTie
    rw [hahead, hlater]
    rfl
  have htab : (b.tieNow t).kn.tab = (b.setKnot t.knot ((b.knot t.knot).tied t)).kn.tab := by
    unfold Blk.tieNow
    rw [if_neg (Nat.not_lt.2 hrole)]
    obtain ⟨-, -, -, h⟩ := Blk.evalWaiters_qs t.knot ((if t.concealed = true then
      (b.setKnot t.knot ((b.knot t.knot).tied t)).markConcealed t.knot else b.setKnot t.knot ((b.knot t.knot).tied t)).bumpAll 0x0A t.src.arg)
    refine h.trans ?_
    split <;> rfl
  have hknot : ∀ k, (b.tieNow t).knot k = (b.setKnot t.knot ((b.knot t.knot).tied t)).knot k := fun k => by
    rw [Blk.knot, Blk.knot, htab]
  rw [happly]
  exact ⟨(hknot _).trans (b.setKnot_knot _ _), fun k hk => (hknot k).trans (b.setKnot_knot_ne _ hk)⟩

end

/-! ### Completions (06 R166) -/

section
variable (b : Blk) (e : SbEntry) (st : Stat) (rel : BitVec 4)

/-- A completion applies its ties, if it has any, counts a LAUNCH that is done, and notes its record. -/
theorem Blk.complete_eq : ∃ c d st', b.TieWork c ∧ (e.okA = false → e.okB = false → c.kn.tab = b.kn.tab)
    ∧ d = (if e.opcode = opLAUNCH then c.jobsDone e.seat else c).bumpAll 0x04 ((c.wv.cur.owner e.q).getD 0)
    ∧ b.complete e st rel = (d.noteDone e.q e.n st' e.opcode).settle e.q := by
  unfold Blk.complete
  extract_lets st' form c0 c1 c2 bound c3 c4
  have h1 : b.TieWork c1 :=
    (Blk.TieWork.trans (c := c0) ⟨rfl, .of_eq rfl rfl⟩ (c0.tieWork_unpark e.q e.n)).trans ⟨rfl, .of_eq rfl rfl⟩
  have h2 : b.TieWork c2 := h1.trans (.ite (Blk.tieWork_completionTie _ _ _ _) (.refl c1))
  have h3 : b.TieWork c3 := h2.trans (.ite (Blk.tieWork_completionTie _ _ _ _) (.refl c2))
  refine ⟨c3, _, st', h3, fun hA hB => ?_, rfl, ?_⟩
  · have hc2 : c2 = c1 := by simp [c2, hA]
    have hc3 : c3 = c2 := by simp [c3, hB]
    rw [hc3, hc2]
    rfl
  · have hwv : c4.wv = c3.wv := by
      simp only [c4]
      split <;> rfl
    rw [hwv]

theorem Blk.complete_standsOn : b.StandsOn (b.complete e st rel) := by
  obtain ⟨c, d, st', hc, -, hd, h⟩ := b.complete_eq e st rel
  have hcd : c.StandsOn d := by
    rw [hd]
    split <;> exact .of_eq rfl rfl
  obtain ⟨⟨hframe, -⟩, -⟩ := d.noteDone_spec e.q e.n st' e.opcode
  have hnote : d.StandsOn (d.noteDone e.q e.n st' e.opcode) := .of_eq (by rw [hframe]) (by rw [hframe])
  rw [h]
  exact ((hc.2.trans hcd).trans hnote).trans (Blk.tieWork_settle _ _).2
/-- Without a completion tie no knot changes. -/
theorem Blk.complete_untied {e : SbEntry} (hA : e.okA = false) (hB : e.okB = false) (k : Nat) :
    (b.complete e st rel).knot k = b.knot k := by
  obtain ⟨c, d, st', -, htab, hd, h⟩ := b.complete_eq e st rel
  have hcd : d.kn.tab = c.kn.tab := by
    rw [hd]
    split <;> rfl
  obtain ⟨⟨hframe, -⟩, -⟩ := d.noteDone_spec e.q e.n st' e.opcode
  have hnote : (d.noteDone e.q e.n st' e.opcode).kn.tab = d.kn.tab := by rw [hframe]
  rw [Blk.knot, Blk.knot, h, Blk.settle_tab, hnote, hcd, htab hA hB]
/-- A LAUNCH that completes is counted with its seat, and nothing else of the host ports changes (R177). -/
theorem Blk.complete_launch_host {e : SbEntry} (h : e.opcode = opLAUNCH) : (b.complete e st rel).host = (b.jobsDone e.seat).host := by
  obtain ⟨c, d, st', hc, -, hd, hcomplete⟩ := b.complete_eq e st rel
  obtain ⟨⟨hframe, -⟩, -⟩ := d.noteDone_spec e.q e.n st' e.opcode
  have hnote : (d.noteDone e.q e.n st' e.opcode).host = d.host := by rw [hframe]
  rw [hcomplete, (Blk.tieWork_settle _ _).host, hnote, hd, if_pos h]
  have hseat : (c.jobsDone e.seat).host = (b.jobsDone e.seat).host := by simp only [Blk.jobsDone, Blk.setSeat, Blk.seat, hc.host]
  exact hseat
/-- Of its queue a completion changes the records and the marks of service alone. -/
theorem Blk.complete_que (r : Nat) : ∃ m w i s, (b.complete e st rel).que r
    = { b.que r with done := m, wake := w, idle := i, srWait := s } := by
  have hnear := b.complete_near e st rel r
  dsimp only at hnear
  refine ⟨((b.complete e st rel).que r).done, ((b.complete e st rel).que r).wake, ((b.complete e st rel).que r).idle,
    ((b.complete e st rel).que r).srWait, ?_⟩
  rw [show (b.complete e st rel).que r = _ from hnear]
  split <;> rfl

end

end Sys2Proof.Machine

/-! # Commands that complete as they enter

NOP, TAG, MARK and TIE: a clear slot joins the scoreboard, starts there and completes. -/

namespace Sys2Proof.Machine

/-! ### Entering (06 R157, R177) -/

/-- The block with entry e in the scoreboard, a LAUNCH counted with its seat (R177). -/
def Blk.joined (e : SbEntry) (b : Blk) : Blk :=
  let c : Blk := { b with sb := b.sb ++ [e], dsp := { b.dsp with nextOrd := b.dsp.nextOrd + 1 } }
  if e.opcode = opLAUNCH then c.jobsLaunched e.seat else c

section
variable {b c : Blk} {e : SbEntry} {q : Nat} {op : W8} {l : Line} {d : Option Desc}

theorem Blk.slotWork_takeDesc (q n : Nat) (l : Line) (b : Blk) : b.SlotWork (b.takeDesc q n l) := by
  unfold Blk.takeDesc
  extract_lets s v c
  have hc : b.SlotWork c := .ite rfl rfl
  exact .ite hc (hc.trans rfl)
theorem Blk.SlotWork.jobsLaunched (h : b.SlotWork c) (i : Nat) : (b.jobsLaunched i).SlotWork (c.jobsLaunched i) := by
  unfold Blk.SlotWork at *
  rw [h]
  rfl
/-- Besides queues and sequencers, only the scoreboard and the count of launches change as a command enters. -/
theorem Blk.slotWork_addEntry (e : SbEntry) (b : Blk) : (b.joined e).SlotWork (b.addEntry e) := by
  refine Blk.SlotWork.trans ?_ (Blk.slotWork_advanceHead _ _)
  unfold Blk.joined Blk.joinSb
  extract_lets dsp c0 owner c1 c2
  have hc : c0.SlotWork c2 := Blk.SlotWork.trans (c := c1) rfl (.ite (Blk.slotWork_takeDesc _ _ _ _) (.refl c1))
  split
  · exact hc.jobsLaunched _
  · exact hc
theorem Blk.addEntry_keeps (hop : e.opcode ≠ opLAUNCH) (b : Blk) : let c := b.addEntry e
    c.kn = b.kn ∧ c.wv = b.wv ∧ c.host = b.host ∧ c.dbg = b.dbg ∧ c.stand = b.stand ∧ ∃ t, c.trc = { b.trc with tally := t } := by
  have hslot := b.slotWork_addEntry e
  rw [Blk.joined, if_neg hop] at hslot
  dsimp only
  rw [show b.addEntry e = _ from hslot]
  exact ⟨rfl, rfl, rfl, rfl, rfl, _, rfl⟩
/-- HEAD passes the slot that entered; its fence and its stretch stay. -/
theorem Blk.addEntry_que (e : SbEntry) (b : Blk) : ∃ a w i s, (b.addEntry e).que e.q
    = { b.que e.q with head := (b.que e.q).head + 1, descAt := a, wake := w, idle := i, srWait := s } := by
  have hnear := b.addEntry_near e e.q
  rw [if_pos rfl, b.joinSb_que_any e e.q] at hnear
  exact ⟨_, _, _, _, hnear⟩

/-- A clear slot joins the scoreboard as the only entry of its queue, and its sequencer may go on. -/
theorem Blk.Clear.entered (h : b.Clear q op l d) : let e := b.newEntry q l d; let c := b.addEntry e
    c.sb = b.sb ++ [e] ∧ (∀ f ∈ b.sb, f.q ≠ e.q) ∧ (c.que q).head = (b.que q).head + 1 ∧ (c.que q).fence = none
      ∧ c.running = true ∧ c.seqStopped q = false ∧ e.opcode = op ∧ e.code = 0 := by
  intro e c
  obtain ⟨hready, hcheck, hq, hfence⟩ := h
  obtain ⟨hrun, -, -, hst, -, -, -, -, -, -, -, -, hop⟩ := Blk.slotReady_spec hready
  obtain ⟨a, w, i, s, hque⟩ := b.addEntry_que e
  have hque : c.que q = _ := hque
  have hst : (b.seq (seqOf e.q)).st = .running := hst
  have hlive : (c.seq (seqOf q)).Live := Blk.addEntry_live e ⟨by simp [hst], by simp [hst]⟩
  have hcode : e.code = 0 := by
    simp only [e, Blk.newEntry, hcheck]
    rfl
  refine ⟨b.addEntry_sb e, hq, by rw [hque]; rfl, by rw [hque]; exact hfence, ?_, ?_, hop, hcode⟩
  · exact (b.queueWork_addEntry e).running.trans hrun
  · simp [Blk.seqStopped, hlive.1, hlive.2]
/-- A command whose slot is clear starts as it enters, and what that lets start starts with it (R227). -/
theorem Blk.Clear.exec {s : State} {i : Instr} (h : s.blk.Clear q op l d) (hop : op ≠ opHITCH)
    (hi : exec i s = s.onWork fun x b => b.enterSlot x q op d)
    (hstart : (s.blk.addEntry (s.blk.newEntry q l d)).startCmd s.env (s.blk.newEntry q l d) = c) :
    exec i s = .next { s with blk := c.pump s.env } := by
  obtain ⟨henter, -⟩ := h.enter s.env hop
  rw [hi, ← hstart, ← henter]
  rfl
/-- A command that has entered completes, once it has changed no queue. -/
theorem Blk.Clear.completes (h : b.Clear q op l d) (hop : op ≠ opLAUNCH) (hqs : c.qs = (b.addEntry (b.newEntry q l d)).qs)
    (st : Stat) (rel : BitVec 4) : let f := c.complete (b.newEntry q l d) st rel
    (f.que q).head = (b.que q).head + 1 ∧ (f.que q).fence = none ∧ f.Ended q (b.que q).head st op := by
  obtain ⟨-, -, hhead, hfence, -, -, hopcode, -⟩ := h.entered
  obtain ⟨m, w, i, s, hque⟩ := c.complete_que (b.newEntry q l d) st rel q
  have hended := c.complete_ended_plain (e := b.newEntry q l d) (by rwa [hopcode]) st rel
  rw [hopcode] at hended
  dsimp only
  rw [hque, Blk.que_congr hqs]
  exact ⟨hhead, hfence, hended⟩

end

/-! ### What starts (R194, R200) -/

section
variable {b : Blk} {e : SbEntry} (x : Env) (hcode : e.code = 0)
include hcode

theorem Blk.startCmd_nop (hop : e.opcode = opNOP) : b.startCmd x e = b.complete e .ok 0 := by
  unfold Blk.startCmd
  rw [hop, hcode]
  rfl
theorem Blk.startCmd_tag (hop : e.opcode = opTAG) :
    b.startCmd x e = (b.noteTag e.q e.n (BitVec.ofNat 32 (Slot.d32 e.slot 4))).complete e .ok 0 := by
  unfold Blk.startCmd
  rw [hop, hcode]
  rfl
theorem Blk.startCmd_mark (hop : e.opcode = opMARK) : b.startCmd x e = b.startMark x e := by
  unfold Blk.startCmd
  rw [hop, hcode]
  rfl
theorem Blk.startCmd_tie (hop : e.opcode = opTIE) : b.startCmd x e = (b.applyTie (tieOf e)).complete e .ok 0 := by
  unfold Blk.startCmd
  rw [hop, hcode]
  rfl

end

section
variable {b c : Blk}

theorem Blk.QueueWork.dbg (h : b.QueueWork c) : c.dbg = b.dbg := by rw [h]
theorem Blk.QueueWork.caddy (h : b.QueueWork c) : c.trc.caddy = b.trc.caddy := by rw [h]
/-- Presenting a TAG notes it in the debug unit, for what arms and grants say of it. -/
theorem Blk.QueueWork.noteTag (h : b.QueueWork c) (q n : Nat) (tag : W32) :
    ({ b with dbg := (c.noteTag q n tag).dbg } : Blk).QueueWork (c.noteTag q n tag) := by
  have hc : c.noteTag q n tag = { c with dbg := (c.noteTag q n tag).dbg } := by
    unfold Blk.noteTag
    split <;> rfl
  generalize c.noteTag q n tag = d at hc ⊢
  rw [hc]
  unfold Blk.QueueWork at *
  rw [h]
theorem Blk.noteTag_qs (q n : Nat) (tag : W32) : (b.noteTag q n tag).qs = b.qs := by
  unfold Blk.noteTag
  split <;> rfl
/-- Which break units a TAG meets is for their settings, the grants of seats and the weave to say (17 R433). -/
theorem Blk.noteTag_congr (hdbg : c.dbg = b.dbg) (hhost : c.host = b.host) (hwv : c.wv = b.wv) (q n : Nat) (tag : W32) :
    (c.noteTag q n tag).dbg = (b.noteTag q n tag).dbg := by
  have hunits : c.tagUnits q tag = b.tagUnits q tag := by
    simp only [Blk.tagUnits, Blk.unitFor, Blk.breakUnit, Blk.seat, hdbg, hhost, hwv]
  unfold Blk.noteTag
  rw [hunits]
  split <;> simp [hdbg]

/-- The caddy with the record of a MARK, when block trace is on. -/
def markedCaddy (x : Env) (e : SbEntry) (t : Trace) : Caddy :=
  if t.ctl.getLsbD 0 then t.caddy.offer blkCap 0x10 x.now (markBody e) else t.caddy
/-- The block with the record of a MARK in its caddy. -/
def Blk.marked (x : Env) (e : SbEntry) (b : Blk) : Blk := { b with trc := { b.trc with caddy := markedCaddy x e b.trc } }
theorem Blk.QueueWork.marked (h : b.QueueWork c) (x : Env) (e : SbEntry) :
    ({ b with trc := { b.trc with caddy := markedCaddy x e b.trc } } : Blk).QueueWork (c.marked x e) := by
  unfold Blk.QueueWork at *
  rw [h]
  rfl
theorem Blk.marked_qs (x : Env) (e : SbEntry) (b : Blk) : (b.marked x e).qs = b.qs := rfl
/-- A MARK completes with its record in the caddy, or without one while block trace is off. -/
theorem Blk.startMark_room {e : SbEntry} (x : Env) (h : b.trc.ctl.getLsbD 0 = false ∨ b.trc.caddy.room blkCap (markBody e) = true) :
    b.startMark x e = (b.marked x e).complete e .ok 0 := by
  unfold Blk.startMark Blk.marked markedCaddy
  cases hctl : b.trc.ctl.getLsbD 0 with
  | false => rfl
  | true =>
    have hroom : b.trc.caddy.room blkCap (markBody e) = true := h.resolve_left (by simp [hctl])
    rw [hroom]
    rfl
theorem tieGood_none {w : Weave} {o : Option Nat} {t : W64} (h : tieOpc t = 0) : tieGood w o t = false := by
  simp [tieGood, h]

end

/-- Settles O1: each of the four starts as it enters, and completes with `Blk.complete`. -/
theorem immediateCommands : Obligations.ImmediateCommands := by
  constructor
  · intro s q l b n e
    have hwork : b.QueueWork (b.addEntry e) := b.queueWork_addEntry e
    refine ⟨fun hclear => ?_, fun hclear => ?_, fun hclear hroom => ?_⟩
    · obtain ⟨-, -, -, -, -, -, hop, hcode⟩ := hclear.entered
      obtain ⟨hhead, -, hended⟩ := hclear.completes (c := b.addEntry e) (by decide) rfl .ok 0
      exact ⟨_, hclear.exec (by decide) rfl (Blk.startCmd_nop _ hcode hop), hwork.trans (Blk.queueWork_complete _ _ _ _), hhead,
        hended⟩
    · obtain ⟨-, -, -, -, -, -, hop, hcode⟩ := hclear.entered
      let tag := BitVec.ofNat 32 (Slot.d32 l 4)
      obtain ⟨-, hwv, hhost, hdbg, -⟩ := Blk.addEntry_keeps (e := e) (by rw [hop]; decide) b
      have hcomplete := Blk.queueWork_complete e .ok 0 ((b.addEntry e).noteTag q n tag)
      obtain ⟨hhead, -, hended⟩ := hclear.completes (c := (b.addEntry e).noteTag q n tag) (by decide)
        (Blk.noteTag_qs q n tag) .ok 0
      refine ⟨_, hclear.exec (by decide) rfl (Blk.startCmd_tag _ hcode hop), ?_,
        hcomplete.dbg.trans (Blk.noteTag_congr hdbg hhost hwv q n tag), hhead, hended⟩
      have htagged := (hwork.noteTag q n tag).trans hcomplete
      rwa [← hcomplete.dbg] at htagged
    · obtain ⟨-, -, -, -, -, -, hop, hcode⟩ := hclear.entered
      obtain ⟨-, -, -, -, -, t, htrc⟩ := Blk.addEntry_keeps (e := e) (by rw [hop]; decide) b
      have hcomplete := Blk.queueWork_complete e .ok 0 ((b.addEntry e).marked s.env e)
      have hcaddy : (((b.addEntry e).marked s.env e).complete e .ok 0).trc.caddy = markedCaddy s.env e b.trc :=
        hcomplete.caddy.trans (by rw [Blk.marked, htrc]; rfl)
      have hstart := Blk.startMark_room (b := b.addEntry e) (e := e) s.env (by rw [htrc]; exact hroom)
      obtain ⟨hhead, -, hended⟩ := hclear.completes (c := (b.addEntry e).marked s.env e) (by decide) (Blk.marked_qs _ _ _) .ok 0
      refine ⟨_, hclear.exec (by decide) rfl ((Blk.startCmd_mark _ hcode hop).trans hstart), ?_, hcaddy, hhead, hended⟩
      rw [hcaddy]
      exact (hwork.marked s.env e).trans hcomplete
  · intro s q l b n t hclear halone hrole
    obtain ⟨-, -, -, -, -, -, hop, hcode⟩ := hclear.entered
    let e := b.newEntry q l none
    obtain ⟨hkn, -⟩ := Blk.addEntry_keeps (e := e) (by rw [hop]; decide) b
    have hknot : ∀ k, (b.addEntry e).knot k = b.knot k := fun k => by rw [Blk.knot, hkn]; rfl
    obtain ⟨hqs, -⟩ := (b.addEntry e).applyTie_qs t
    obtain ⟨hhead, -, hended⟩ := hclear.completes (c := (b.addEntry e).applyTie t) (by decide) hqs .ok 0
    refine ⟨_, hclear.exec (by decide) rfl (Blk.startCmd_tie _ hcode hop), ?_, hhead, hended, fun hA hB => ?_⟩
    · exact ((b.queueWork_addEntry e).trans (Blk.queueWork_applyTie t _)).trans (Blk.queueWork_complete _ _ _ _)
    · obtain ⟨hown, hothers⟩ := Blk.applyTie_fresh (b := b.addEntry e) (t := t) (by rw [hkn]; exact halone)
        (by rw [hknot]; exact hrole)
      have huntied : ∀ k, (((b.addEntry e).applyTie t).complete e .ok 0).knot k = ((b.addEntry e).applyTie t).knot k :=
        Blk.complete_untied _ _ _ (tieGood_none hA) (tieGood_none hB)
      exact ⟨(huntied _).trans (hown.trans (by rw [hknot])), fun k hk => (huntied k).trans ((hothers k hk).trans (hknot k))⟩

end Sys2Proof.Machine

/-! # Transfers start

MEMBAR, COPY, FILL and WATCH as they enter: the entry is started where it joined, and its first request goes out. -/

namespace Sys2Proof.Machine

section
variable {b : Blk} {e : SbEntry} (x : Env) (hcode : e.code = 0)
include hcode

theorem Blk.startCmd_membar (hop : e.opcode = opMEMBAR) :
    b.startCmd x e = b.modEntry e.q e.n fun e => { e with started := true, prog := .membar false 0 } := by
  unfold Blk.startCmd
  rw [hop, hcode]
  rfl
theorem Blk.startCmd_copy (hop : e.opcode = opCOPY) : b.startCmd x e = b.startXfer e (Slot.q64 e.slot 0x18) := by
  unfold Blk.startCmd
  rw [hop, hcode]
  rfl
theorem Blk.startCmd_fill (hop : e.opcode = opFILL) : b.startCmd x e = b.startXfer e (Slot.q64 e.slot 0x10) := by
  unfold Blk.startCmd
  rw [hop, hcode]
  rfl
theorem Blk.startCmd_watch (hop : e.opcode = opWATCH) : b.startCmd x e = b.startWatch e := by
  unfold Blk.startCmd
  rw [hop, hcode]
  rfl

end

/-! ### Requests (14 R366, R368) -/

/-- The entry, at work with progress p. -/
def SbEntry.atWork (p : Prog) (e : SbEntry) : SbEntry := { e with started := true, prog := p }
/-- The sequencer of queue q may ask, from place i. -/
def Blk.MayAsk (b : Blk) (q : Nat) (i : Fin 32) : Prop :=
  b.running = true ∧ b.seqStopped q = false ∧ (b.seq (seqOf q)).freePlace = some i
/-- Sequencer s asks m from place i, for `what` of queue q. -/
def Blk.asks (s q : Nat) (i : Fin 32) (what : SeqReq) (m : Instr) (b : Blk) : Blk :=
  (b.setSeq s { b.seq s with outs := PMap.put i.val { q := q, what := what } (b.seq s).outs }).send m
/-- The same for entry e, whose progress is noted then. -/
def Blk.askFor (e : SbEntry) (note : SbEntry → Prog) (i : Fin 32) (what : SeqReq) (m : Instr) (b : Blk) : Blk :=
  (b.asks (seqOf e.q) e.q i what m).modEntry e.q e.n fun e => { e with prog := note e }
/-- Entry e begins at progress p, and its first request goes out. -/
def Blk.begun (e : SbEntry) (p : Prog) (note : SbEntry → Prog) (i : Fin 32) (what : SeqReq) (m : Instr) (b : Blk) : Blk :=
  (b.modEntry e.q e.n fun _ => e.atWork p).askFor e note i what m

section
variable {b : Blk} {e : SbEntry} {i : Fin 32} {l : List SbEntry} {k : Nat}

theorem Blk.begun_spec (hsb : b.sb = l ++ [e]) (hl : ∀ f ∈ l, f.q ≠ e.q) (p : Prog) (note : SbEntry → Prog) (i : Fin 32) (what : SeqReq)
    (m : Instr) : let c := b.begun e p note i what m
    b.QueueWork c ∧ c.qs = b.qs ∧ c.sb = l ++ [e.atWork (note (e.atWork p))] ∧ c.mem.ring.getLast? = some m := by
  have hfirst := Blk.modEntry_sb_last hsb hl fun _ => e.atWork p
  exact ⟨rfl, rfl, Blk.modEntry_sb_last (x := e.atWork p) hfirst hl fun e => { e with prog := note e },
    by simp [Blk.begun, Blk.askFor, Blk.asks]⟩
theorem Blk.modEntry_que (q n : Nat) (f : SbEntry → SbEntry) (b : Blk) (r : Nat) : (b.modEntry q n f).que r = b.que r := rfl
theorem Blk.MayAsk.modEntry {q : Nat} (h : b.MayAsk q i) (r n : Nat) (f : SbEntry → SbEntry) : (b.modEntry r n f).MayAsk q i := h
theorem Blk.seqAsk_place {s : Nat} (h : (b.seq s).freePlace = some i) (q : Nat) (what : SeqReq) (m : Fin 32 → Instr) :
    b.seqAsk s q what m = some (b.asks s q i what (m i)) := by
  rw [Blk.seqAsk, h]
  rfl
/-- A COPY asks for its first line: as much of it as crosses a line at neither end (07 R195). -/
theorem Blk.nextChunk_copy (h : b.MayAsk e.q i) (hop : e.opcode = opCOPY) (hlen : Slot.q64 e.slot 0x18 ≠ 0)
    (hk : k = min (min (64 - Slot.q64 e.slot 8 % 64) (64 - Slot.q64 e.slot 0x10 % 64)) (Slot.q64 e.slot 0x18)) :
    b.nextChunk (e.atWork (.xfer 0 0 0 none)) = b.askFor e (fun _ => .xfer k 0 1 none) i (.chunk e.n 0 k false)
      (.rdonce (.seq (seqId (seqOf e.q)) i) (lineOf (Slot.q64 e.slot 8))) := by
  obtain ⟨hrun, hstop, hplace⟩ := h
  simp [Blk.nextChunk, Blk.askFor, SbEntry.atWork, hrun, hstop, hop, hlen, Blk.seqAsk_place hplace, ← hk]
/-- A FILL writes its first line, as much of it as lies in its range (07 R196). -/
theorem Blk.nextChunk_fill (h : b.MayAsk e.q i) (hop : e.opcode = opFILL) (hlen : Slot.q64 e.slot 0x10 ≠ 0)
    (hk : k = min (64 - Slot.q64 e.slot 8 % 64) (Slot.q64 e.slot 0x10)) :
    b.nextChunk (e.atWork (.xfer 0 0 0 none)) = b.askFor e (fun _ => .xfer k 0 1 none) i (.chunk e.n 0 k true)
      (.wr (.seq (seqId (seqOf e.q)) i) (lineOf (Slot.q64 e.slot 8)) (fillLine (Slot.q64 e.slot 0x18))
        (maskOf (Slot.q64 e.slot 8 % 64) k)) := by
  obtain ⟨hrun, hstop, hplace⟩ := h
  have hcopy : ¬ opFILL = opCOPY := by decide
  simp [Blk.nextChunk, Blk.askFor, SbEntry.atWork, hrun, hstop, hop, hcopy, hlen, Blk.seqAsk_place hplace, ← hk]
/-- A WATCH whose first request is out; one without an element has asked to write its record. -/
def watchBegun (e : SbEntry) : Prog := .watch { written := decide (watchTotal e.slot ≤ 0) } 1 none
/-- A WATCH asks for the line of its first element (05 R150, 07 R199). -/
theorem Blk.nextWatch_first (h : b.MayAsk e.q i) (hsize : 0 < watchTotal e.slot) :
    b.nextWatch (e.atWork (.watch {} 0 none)) = b.askFor e watchBegun i (.chunk e.n 0 64 false)
      (.rdonce (.seq (seqId (seqOf e.q)) i) (lineOf (watchAddr e.slot 0))) := by
  obtain ⟨hrun, hstop, hplace⟩ := h
  simp only [Blk.nextWatch, SbEntry.atWork, hrun, hstop, hsize, Blk.seqAsk_place hplace, Bool.not_true,
    Bool.or_false, Bool.false_eq_true, if_true, if_false]
  rfl

end

section
variable {b : Blk} {q : Nat} {op : W8} {l : Line} {e : SbEntry} {i : Fin 32}

/-- A COPY or FILL of no byte completes at once. -/
theorem Blk.startXfer_empty (b : Blk) (e : SbEntry) : b.startXfer e 0 = b.complete e .ok 0 := if_pos rfl
theorem Blk.startXfer_some {len : Nat} (h : len ≠ 0) :
    b.startXfer e len = (b.modEntry e.q e.n fun _ => e.atWork (.xfer 0 0 0 none)).nextChunk (e.atWork (.xfer 0 0 0 none)) := if_neg h
/-- A clear slot whose command begins: what its entry, its queue and the ring are then. -/
theorem Blk.Clear.begins (h : b.Clear q op l none) (p : Prog) (note : SbEntry → Prog) (i : Fin 32) (what : SeqReq) (m : Instr) :
    let e := b.newEntry q l none; let c := (b.addEntry e).begun e p note i what m
    b.QueueWork c ∧ (c.que q).head = (b.que q).head + 1 ∧ c.sb = b.sb ++ [e.atWork (note (e.atWork p))] ∧ c.mem.ring.getLast? = some m := by
  intro e c
  obtain ⟨hsb, hq, hhead, -⟩ := h.entered
  obtain ⟨hbegun, hqs, hsbs, hring⟩ := Blk.begun_spec hsb hq p note i what m
  exact ⟨(b.queueWork_addEntry e).trans hbegun, (congrArg Que.head (Blk.que_congr hqs q)).trans hhead, hsbs, hring⟩
/-- Where it began, the entry may ask for its first line. -/
theorem Blk.Clear.mayAsk (h : b.Clear q op l none) (hplace : b.Place q (b.newEntry q l none) i) (f : SbEntry → SbEntry) :
    ((b.addEntry (b.newEntry q l none)).modEntry q (b.que q).head f).MayAsk q i := by
  obtain ⟨-, -, -, -, hrun, hstop, -⟩ := h.entered
  have hask : (b.addEntry (b.newEntry q l none)).MayAsk q i := ⟨hrun, hstop, hplace⟩
  exact hask.modEntry _ _ f

end

/-- Settles O2: `Blk.begun` is what a transfer has done when its first request is out. -/
theorem transfersStart : Obligations.TransfersStart := by
  intro s q l b n e sid src dst
  have hwork : b.QueueWork (b.addEntry e) := b.queueWork_addEntry e
  refine ⟨fun hclear => ?_, fun i hclear hlen hplace => ?_, fun hclear hlen => ?_, fun i hclear hlen hplace => ?_,
    fun hclear hlen => ?_, fun i hclear hsize hplace => ?_⟩
  · obtain ⟨hsb, hq, hhead, -, -, -, hop, hcode⟩ := hclear.entered
    exact ⟨_, hclear.exec (by decide) rfl (Blk.startCmd_membar _ hcode hop), hwork.trans (Blk.queueWork_modEntry _ _ _ _),
      (congrArg Que.head (Blk.modEntry_que _ _ _ _ _)).trans hhead, Blk.modEntry_sb_last hsb hq _⟩
  · obtain ⟨-, -, -, -, -, -, hop, hcode⟩ := hclear.entered
    have hask := Blk.nextChunk_copy (e := e) (hclear.mayAsk hplace fun _ => e.atWork (.xfer 0 0 0 none)) hop hlen rfl
    have hstart := (Blk.startCmd_copy s.env hcode hop).trans ((Blk.startXfer_some hlen).trans hask)
    obtain ⟨hbegun, hhead, hsb, hring⟩ := hclear.begins (.xfer 0 0 0 none)
      (fun _ => .xfer (min (min (64 - src % 64) (64 - dst % 64)) (Slot.q64 l 0x18)) 0 1 none) i
      (.chunk n 0 (min (min (64 - src % 64) (64 - dst % 64)) (Slot.q64 l 0x18)) false) (.rdonce (.seq sid i) (lineOf src))
    exact ⟨_, hclear.exec (by decide) rfl hstart, hbegun, hhead, hsb, hring⟩
  · obtain ⟨-, -, -, -, -, -, hop, hcode⟩ := hclear.entered
    obtain ⟨hhead, -, hended⟩ := hclear.completes (c := b.addEntry e) (by decide) rfl .ok 0
    have hstart := Blk.startCmd_copy (b := b.addEntry e) s.env hcode hop
    rw [show Slot.q64 e.slot 0x18 = 0 from hlen, Blk.startXfer_empty] at hstart
    exact ⟨_, hclear.exec (by decide) rfl hstart, hwork.trans (Blk.queueWork_complete _ _ _ _), hhead, hended⟩
  · obtain ⟨-, -, -, -, -, -, hop, hcode⟩ := hclear.entered
    have hask := Blk.nextChunk_fill (e := e) (hclear.mayAsk hplace fun _ => e.atWork (.xfer 0 0 0 none)) hop hlen rfl
    have hstart := (Blk.startCmd_fill s.env hcode hop).trans ((Blk.startXfer_some hlen).trans hask)
    obtain ⟨hbegun, hhead, hsb, hring⟩ := hclear.begins (.xfer 0 0 0 none)
      (fun _ => .xfer (min (64 - src % 64) dst) 0 1 none) i (.chunk n 0 (min (64 - src % 64) dst) true)
      (.wr (.seq sid i) (lineOf src) (fillLine (Slot.q64 l 0x18)) (maskOf (src % 64) (min (64 - src % 64) dst)))
    exact ⟨_, hclear.exec (by decide) rfl hstart, hbegun, hhead, hsb, hring⟩
  · obtain ⟨-, -, -, -, -, -, hop, hcode⟩ := hclear.entered
    obtain ⟨hhead, -, hended⟩ := hclear.completes (c := b.addEntry e) (by decide) rfl .ok 0
    have hstart := Blk.startCmd_fill (b := b.addEntry e) s.env hcode hop
    rw [show Slot.q64 e.slot 0x10 = 0 from hlen, Blk.startXfer_empty] at hstart
    exact ⟨_, hclear.exec (by decide) rfl hstart, hwork.trans (Blk.queueWork_complete _ _ _ _), hhead, hended⟩
  · obtain ⟨-, -, -, -, -, -, hop, hcode⟩ := hclear.entered
    have hask := Blk.nextWatch_first (e := e) (hclear.mayAsk hplace fun _ => e.atWork (.watch {} 0 none)) hsize
    have hstart := (Blk.startCmd_watch (b := b.addEntry e) s.env hcode hop).trans hask
    have hfirst : watchBegun (e.atWork (.watch {} 0 none)) = .watch {} 1 none := by
      have hmore : ¬ watchTotal l ≤ 0 := Nat.not_le.2 hsize
      exact congrArg (fun w => Prog.watch { written := w } 1 none) (decide_eq_false hmore)
    obtain ⟨hbegun, hhead, hsb, hring⟩ := hclear.begins (.watch {} 0 none) watchBegun i (.chunk n 0 64 false)
      (.rdonce (.seq sid i) (lineOf (watchAddr l 0)))
    refine ⟨_, hclear.exec (by decide) rfl hstart, hbegun, hhead, hsb.trans ?_, hring⟩
    rw [hfirst]
    rfl

end Sys2Proof.Machine

/-! # LAUNCH enters

A LAUNCH whose descriptor has been read joins the scoreboard, and is counted with its seat. -/

namespace Sys2Proof.Machine

/-! ### A slot with its descriptor (07 R181, 14 R361) -/

section
variable {b : Blk} {q : Nat} {op : W8} {l : Line} {d : Desc}

/-- A checked slot whose descriptor has been read enters with it. -/
theorem Blk.enterDesc_read (h : b.Clear q op l (some d)) (hd : b.HasDesc q d) (hop : hasDesc op = true) (x : Env) :
    b.enterDesc x q op = b.enterSlot x q op (some d) := by
  obtain ⟨hready, hcheck, -⟩ := h
  obtain ⟨f, hhead, h0, h1, hgood, rfl⟩ := hd
  have hearly : checkEarly b.wv.cur (b.seat ((b.wv.cur.owner q).getD 0)).expert q l = none := (orBad_none hcheck).1
  unfold Blk.enterDesc
  rw [hready]
  simp [hop, hearly, hhead, h0, h1, hgood]
/-- A slot that names no descriptor enters without one. -/
theorem Blk.enterDesc_plain (hop : hasDesc op = false) (x : Env) (b : Blk) : b.enterDesc x q op = b.enterSlot x q op none := by
  unfold Blk.enterDesc
  cases h : b.slotReady q op with
  | none =>
    unfold Blk.enterSlot
    rw [h]
  | some l => simp [hop]
theorem Blk.newEntry_launch (h : b.Clear q opLAUNCH l (some d)) :
    (b.newEntry q l (some d)).prog = .launch (launchOf d (BitVec.ofNat 64 (Slot.q64 l 8))).whole := by
  obtain ⟨hready, hcheck, -⟩ := h
  obtain ⟨-, -, -, -, -, -, -, -, -, -, -, -, hop⟩ := Blk.slotReady_spec hready
  have hhitch : ¬ opLAUNCH = opHITCH := by decide
  simp [Blk.newEntry, hcheck, Blk.mkEntry, hop, hhitch]

end

/-! ### Counts of launches (06 R177) -/

section
variable (b : Blk)

theorem Blk.jobsLaunched_seat (i : Nat) : (b.jobsLaunched i).seat i = { b.seat i with launched := (b.seat i).launched + 1 } :=
  b.setSeat_seat i _
theorem Blk.jobsDone_seat (i : Nat) : (b.jobsDone i).seat i = { b.seat i with done := (b.seat i).done + 1 } := b.setSeat_seat i _
theorem Blk.seat_congr {b c : Blk} (h : c.host = b.host) (i : Nat) : c.seat i = b.seat i := by rw [Blk.seat, h]; rfl
theorem Blk.addEntry_launched {e : SbEntry} (h : e.opcode = opLAUNCH) :
    (b.addEntry e).seat e.seat = { b.seat e.seat with launched := (b.seat e.seat).launched + 1 } := by
  have hslot := b.slotWork_addEntry e
  have hhost : (b.addEntry e).host = (b.joined e).host := by rw [hslot]
  rw [Blk.seat_congr hhost, Blk.joined, if_pos h]
  exact Blk.jobsLaunched_seat _ _
theorem Blk.complete_done {e : SbEntry} (h : e.opcode = opLAUNCH) (st : Stat) (rel : BitVec 4) :
    (b.complete e st rel).seat e.seat = { b.seat e.seat with done := (b.seat e.seat).done + 1 } := by
  rw [Blk.seat_congr (b.complete_launch_host st rel h)]
  exact b.jobsDone_seat _
theorem Blk.addEntry_stretchSeen (e : SbEntry) (n : Nat) : (b.addEntry e).stretchSeen e.q n = b.stretchSeen e.q n := by
  obtain ⟨_, _, _, _, hque⟩ := b.addEntry_que e
  have hpwr : (b.addEntry e).pwr = b.pwr := by rw [b.queueWork_addEntry e]
  simp only [Blk.stretchSeen, hque, hpwr]

end

/-- A LAUNCH with tiles waits for the dispatcher; one without completes (07 R201). -/
theorem Blk.startCmd_launch {b : Blk} {e : SbEntry} {k : Launch} (x : Env) (hcode : e.code = 0) (hop : e.opcode = opLAUNCH)
    (hprog : e.prog = .launch k) : b.startCmd x e = if k.tiles = 0 then b.complete e .ok 0 else b := by
  have hl : e.launch? = some k := by rw [SbEntry.launch?, hprog]
  unfold Blk.startCmd
  rw [hop, hcode, hl]
  rfl

/-- Settles O4: the entry counts with its seat as it joins, and completes there when it has no tile. -/
theorem launchEnters : Obligations.LaunchEnters := by
  intro s q l d b n e w k hclear hdesc
  obtain ⟨hsb, -, hhead, -, -, -, hop, hcode⟩ := hclear.entered
  have hprog : e.prog = .launch k := Blk.newEntry_launch hclear
  have hstart : (b.addEntry e).startCmd s.env e = _ := Blk.startCmd_launch s.env hcode hop hprog
  have hexec : exec (.launch q) s = .next { s with blk := (b.enterSlot s.env q opLAUNCH (some d)).pump s.env } := by
    rw [← Blk.enterDesc_read hclear hdesc rfl s.env]
    rfl
  obtain ⟨henter, -⟩ := hclear.enter s.env (by decide)
  rw [henter, hstart] at hexec
  have hwork : b.QueueWork (b.addEntry e) := b.queueWork_addEntry e
  have hlaunched : (b.addEntry e).seat w = { b.seat w with launched := (b.seat w).launched + 1 } := b.addEntry_launched hop
  by_cases htiles : k.tiles = 0
  · rw [if_pos htiles] at hexec
    have hdone : ((b.addEntry e).complete e .ok 0).seat w = _ := Blk.complete_done _ hop .ok 0
    obtain ⟨_, _, _, _, hque⟩ := (b.addEntry e).complete_que e .ok 0 q
    refine ⟨_, hexec, hwork.trans (Blk.queueWork_complete _ _ _ _), ?_, ?_, fun h => absurd htiles h, fun _ => ⟨?_, ?_⟩⟩
    · rw [hque]
      exact hhead
    · rw [hdone]
      exact congrArg SeatRegs.launched hlaunched
    · have hended := (b.addEntry e).complete_ended e .ok 0
      rw [if_pos hop, b.addEntry_stretchSeen, hop] at hended
      exact hended
    · rw [hdone]
      have hbefore : ((b.addEntry e).seat w).done = (b.seat w).done := by rw [hlaunched]
      exact congrArg (· + 1) hbefore
  · rw [if_neg htiles] at hexec
    exact ⟨_, hexec, hwork, hhead, congrArg SeatRegs.launched hlaunched, fun _ => ⟨hsb, hprog, rfl⟩, fun h => absurd h htiles⟩

end Sys2Proof.Machine

/-! # Standing launches

STAND joins the standing launches, is bound on its trigger knot when its engines are ready, and UNSTAND takes it away. -/

namespace Sys2Proof.Machine

/-! ### STAND starts (07 R188) -/

/-- Between the two blocks only engines, messages sent and tallies differ. -/
def Blk.DescWork (b c : Blk) : Prop :=
  c = { b with eng := c.eng, mem := { b.mem with ring := c.mem.ring }, trc := { b.trc with tally := c.trc.tally } }
/-- The standing launch that a STAND makes, not yet bound. -/
def SbEntry.standing (w : Weave) (e : SbEntry) : Standing :=
  let l := launchOf e.desc (BitVec.ofNat 64 (Slot.q64 e.slot 8))
  { ord := e.ord, q := e.q, n := e.n, eng := Slot.engine e.slot, twinRec := (standEngines w e.slot).1, l := l, epoch := e.epoch
    trigger := fAt e.slot 0x10 0 20, step := BitVec.ofNat 64 (Slot.q64 e.slot 0x18), thr := BitVec.ofNat 64 (Slot.q64 e.slot 0x20)
    catchup := Slot.flag17 e.slot, rrSlots := fAt e.slot 0x14 0 17, rrBase := BitVec.ofNat 64 (Slot.q64 e.slot 0x28)
    tieB := if e.okB then Slot.tieB e.slot else 0, tieA := if e.okA then Slot.tieA e.slot else 0
    copied := if l.ndesc = 0 then (standEngines w e.slot).2 else [] }
/-- The block with command e started, and its standing launch among the others. -/
def Blk.standing (e : SbEntry) (b : Blk) : Blk :=
  ({ b with stand := b.stand ++ [e.standing b.wv.cur] } : Blk).modEntry e.q e.n fun e => { e with started := true }

section
variable {b c d : Blk} {e : SbEntry}

theorem Blk.standing_stand (e : SbEntry) (b : Blk) : (b.standing e).stand = b.stand ++ [e.standing b.wv.cur] := rfl
theorem Blk.standing_que (e : SbEntry) (b : Blk) (r : Nat) : (b.standing e).que r = b.que r := rfl
theorem Blk.standing_kn (e : SbEntry) (b : Blk) : (b.standing e).kn = b.kn := rfl
theorem Blk.standing_sb {l : List SbEntry} (h : b.sb = l ++ [e]) (hl : ∀ f ∈ l, f.q ≠ e.q) :
    (b.standing e).sb = l ++ [{ e with started := true }] :=
  Blk.modEntry_sb_last (b := { b with stand := b.stand ++ [e.standing b.wv.cur] }) h hl _
theorem Blk.DescWork.refl (b : Blk) : b.DescWork b := rfl
theorem Blk.DescWork.trans (h : b.DescWork c) (k : c.DescWork d) : b.DescWork d := by
  unfold Blk.DescWork at *
  rw [h] at k
  exact k
theorem Blk.DescWork.qs (h : b.DescWork c) : c.qs = b.qs := by rw [h]
theorem Blk.DescWork.sb (h : b.DescWork c) : c.sb = b.sb := by rw [h]
theorem Blk.DescWork.stand (h : b.DescWork c) : c.stand = b.stand := by rw [h]
theorem Blk.DescWork.kn (h : b.DescWork c) : c.kn = b.kn := by rw [h]
theorem Blk.standOn_congr (hs : c.stand = b.stand) (hw : c.wv = b.wv) (t : Nat) : c.standOn t = b.standOn t := by
  simp only [Blk.standOn, hs, hw]
theorem Blk.descWork_readTdesc (t : Nat) (j : Job) (l : Launch) (b : Blk) : b.DescWork (b.readTdesc t j l) := by
  unfold Blk.readTdesc
  split
  · extract_lets a c
    have hc : b.DescWork c := rfl
    exact List.foldlRecOn _ _ (motive := b.DescWork) hc fun d hd _ _ => hd.trans rfl
  · exact .refl b
/-- Engines that hold a program READY do not lack it. -/
theorem Blk.not_absent {p : W16} {ts : List Nat} (h : ∀ t ∈ ts, ((b.engine t).bankFor p).isSome = true) :
    ¬ (ts.any fun t => ((b.engine t).bankFor p).isNone && !(b.engine t).bankComing p) = true := by
  simpa using fun t ht hnone => absurd hnone (Option.isSome_iff_ne_none.1 (h t ht))
/-- On free engines that hold its program a STAND is joined, and its descriptors are asked for. -/
theorem Blk.startStand_joins (hfree : ∀ t ∈ (standEngines b.wv.cur e.slot).2, b.standOn t = none)
    (hprog : ∀ t ∈ (standEngines b.wv.cur e.slot).2, ((b.engine t).bankFor (Desc.prog e.desc)).isSome = true) :
    (b.standing e).DescWork (b.startStand e) := by
  unfold Blk.startStand
  extract_lets s te l st c d
  have hbusy : (te.2.find? fun t => (b.standOn t).isSome) = none := List.find?_eq_none.2 fun t ht => by simp [hfree t ht]
  rw [hbusy]
  dsimp only
  rw [if_neg (Blk.not_absent (ts := te.2) (p := l.prog) hprog)]
  change d.DescWork _
  split
  · exact .refl d
  · exact List.foldlRecOn te.2 _ (motive := d.DescWork) (.refl d) fun f hf t _ => hf.trans (f.descWork_readTdesc t _ l)

end

/-- Whole 64-bit fields of a slot are 64-bit numbers. -/
theorem Slot.q64_toNat (s : Line) (off : Nat) : (BitVec.ofNat 64 (Slot.q64 s off)).toNat = Slot.q64 s off :=
  (BitVec.toNat_ofNat _ _).trans (Nat.mod_eq_of_lt (Nat.mod_lt _ (by decide)))

/-! ### A STAND is bound (08 R209) -/

/-- The standing launch st of command e is bound: its engines stand for it, and it is parked on its trigger knot. -/
def Blk.bound (e : SbEntry) (st : Standing) (b : Blk) : Blk :=
  ((st.engines b.wv.cur).foldl (fun b t => b.modEng t fun v => if v.st == .idle then { v with st := .standing } else v)
    (b.modStand e.q e.n fun s => { s with bound := true })).park { knot := st.trigger, stand := true, q := e.q, n := e.n }

section
variable {b : Blk} {e : SbEntry} {st : Standing}

theorem Blk.bound_spec (hst : b.findStand e.q e.n = some st) : (b.bound e st).qs = b.qs
    ∧ ((b.bound e st).findStand e.q e.n).map (·.bound) = some true
    ∧ { knot := st.trigger, stand := true, q := e.q, n := e.n } ∈ (b.bound e st).kn.waiters := by
  unfold Blk.bound
  have hengs := Blk.EngsOnly.foldl (fun b t => b.engsOnly_modEng t fun v => if v.st == .idle then { v with st := .standing } else v)
    (st.engines b.wv.cur) (b.modStand e.q e.n fun s => { s with bound := true })
  generalize (st.engines b.wv.cur).foldl _ _ = c at hengs ⊢
  rw [show c = _ from hengs]
  refine ⟨rfl, ?_, List.mem_append_right _ (List.mem_singleton.2 rfl)⟩
  have hfind := Blk.modStand_findStand (b := b) (q := e.q) (n := e.n) (f := fun s => { s with bound := true }) fun _ => ⟨rfl, rfl⟩
  rw [hst] at hfind
  exact congrArg (Option.map (·.bound)) hfind
/-- With the program READY and the descriptors copied on each of its engines a STAND is bound, completes, and is evaluated. -/
theorem Blk.bindStand_ready (hst : b.findStand e.q e.n = some st) (hready : ∀ t ∈ st.engines b.wv.cur,
      ((b.engine t).bankFor st.l.prog).isSome = true ∧ st.copied.contains t = true) :
    b.bindStand e = ((b.bound e st).complete e .ok 0).evalTrigger e.q e.n := by
  have hall : ((st.engines b.wv.cur).all fun t => ((b.engine t).bankFor st.l.prog).isSome && st.copied.contains t) = true :=
    List.all_eq_true.2 fun t ht => by rw [(hready t ht).1, (hready t ht).2]; rfl
  unfold Blk.bindStand
  rw [hst]
  dsimp only
  rw [if_neg (Blk.not_absent fun t ht => (hready t ht).1), if_pos hall]
  rfl
theorem Blk.finishCmd_stand (hprog : e.prog = .none) (hop : e.opcode = opSTAND) (hstart : e.started = true) :
    b.finishCmd e = b.bindStand e := by
  simp [Blk.finishCmd, hprog, hop, hstart]

/-! ### UNSTAND (07 R191) -/

theorem Blk.unbind_findStand (q n : Nat) (b : Blk) : (b.unbind q n).findStand q n = none := by
  unfold Blk.unbind
  extract_lets es c
  have hengs := Blk.EngsOnly.foldl (fun b t => b.engsOnly_restIdle t) es c
  generalize es.foldl _ c = d at hengs ⊢
  rw [show d = _ from hengs]
  exact List.find?_eq_none.2 fun x hx => by
    simpa only [Bool.not_eq_true', Bool.not_eq_true] using (List.mem_filter.1 hx).2
theorem Blk.startCmd_unstand (x : Env) (hcode : e.code = 0) (hop : e.opcode = opUNSTAND) : b.startCmd x e = b.startUnstand e := by
  unfold Blk.startCmd
  rw [hop, hcode]
  rfl
theorem Blk.startCmd_stand (x : Env) (hcode : e.code = 0) (hop : e.opcode = opSTAND) : b.startCmd x e = b.startStand e := by
  unfold Blk.startCmd
  rw [hop, hcode]
  rfl
/-- UNSTAND of a standing launch that waits. -/
theorem Blk.startUnstand_waits {z : Standing} (hz : (b.stand.find? fun s => (s.engines b.wv.cur).contains (Slot.engine e.slot)
      && s.bound && !s.unbind && b.wv.cur.owner s.q == b.wv.cur.owner e.q) = some z) (hrun : z.running = none) (hrec : z.recWait = none) :
    b.startUnstand e = (b.unbind z.q z.n).complete e .ok 0 := by
  unfold Blk.startUnstand
  dsimp only
  rw [hz]
  simp [hrun, hrec]

end

theorem Blk.ended_congr {b c : Blk} (h : c.qs = b.qs) (q n : Nat) (st : Stat) (op : W8) : c.Ended q n st op ↔ b.Ended q n st op := by
  rw [Blk.Ended, Blk.Ended, Blk.que_congr h]
/-- A command that waits for a waiter entry finds one free. -/
theorem Blk.enterWaiter_free {b : Blk} {q : Nat} (h : b.waitAvail q = true) (x : Env) (op : W8) :
    b.enterWaiter x q op = b.enterDesc x q op := by
  simp [Blk.enterWaiter, h]

/-- Settles O5: a STAND is joined by `Blk.startStand` and bound by `Blk.bindStand`; ties leave what is bound as it is. -/
theorem standAndUnstand : Obligations.StandAndUnstand := by
  intro s q l b n
  refine ⟨?_, ?_, ?_⟩
  · intro d e es hclear hdesc hwait hfree hprog
    obtain ⟨hsb, hq, hhead, -, -, -, hop, hcode⟩ := hclear.entered
    obtain ⟨hkn, hwv, -, -, hstand, -⟩ := Blk.addEntry_keeps (e := e) (by rw [hop]; decide) b
    have hwork : b.QueueWork (b.addEntry e) := b.queueWork_addEntry e
    have hjoins := Blk.startStand_joins (b := b.addEntry e) (e := e)
      (by rw [hwv]; exact fun t ht => (Blk.standOn_congr hstand hwv t).trans (hfree t ht))
      (by rw [hwv]; exact fun t ht => by rw [hwork.engine]; exact hprog t ht)
    have hexec : exec (.stand q) s = .next { s with blk := (b.enterSlot s.env q opSTAND (some d)).pump s.env } := by
      rw [← Blk.enterDesc_read hclear hdesc rfl s.env, ← Blk.enterWaiter_free hwait]
      rfl
    obtain ⟨henter, -⟩ := hclear.enter s.env (by decide)
    rw [henter, Blk.startCmd_stand _ hcode hop] at hexec
    refine ⟨_, e.standing b.wv.cur, hexec, hwork.cmdWork.trans (Blk.cmdWork_startStand _ _), ?_, ?_, rfl, rfl, rfl, rfl, rfl,
      Slot.q64_toNat l 0x18, Slot.q64_toNat l 0x20, ?_, ?_⟩
    · rw [Blk.que_congr hjoins.qs, Blk.standing_que]
      exact hhead
    · rw [hjoins.stand, Blk.standing_stand, hwv, hstand]
    · rw [hjoins.kn, Blk.standing_kn, hkn]
    · rw [hjoins.sb]
      exact Blk.standing_sb hsb hq
  · intro n e st es hrun he hop hstart hprog hfence hst hready
    obtain ⟨hq, hn⟩ := Blk.entry_spec he
    have hexec := exec_commandComplete hrun he hstart (.inr hfence)
    rw [Blk.finishCmd_stand hprog hop hstart] at hexec
    rw [← hq, ← hn] at hst
    obtain ⟨hqs, hbound, hparked⟩ := Blk.bound_spec hst
    obtain ⟨hfind, hwaiters⟩ := ((b.bound e st).complete_standsOn e .ok 0).trans (Blk.tieWork_evalTrigger e.q e.n _).2
    have hended := (b.bound e st).complete_ended_plain (e := e) (by rw [hop]; decide) .ok 0
    rw [← Blk.ended_congr (Blk.evalTrigger_qs e.q e.n _).1] at hended
    have hfound := (hfind _ _).trans hbound
    have hwaits := hwaiters _ hparked rfl
    rw [← Blk.bindStand_ready hst hready, hq, hn] at hended hfound hwaits
    exact ⟨_, hexec, b.bindStand_cmdWork e, hop ▸ hended, hfound, hwaits⟩
  · intro z hzmem hz hrun hrec hclear
    let e := b.newEntry q l none
    obtain ⟨-, -, -, -, -, -, hop, hcode⟩ := hclear.entered
    obtain ⟨-, hwv, -, -, hstand, -⟩ := Blk.addEntry_keeps (e := e) (by rw [hop]; decide) b
    have hunbind := (b.addEntry e).standWork_unbind z.q z.n
    obtain ⟨hhead, -, hended⟩ := hclear.completes (c := (b.addEntry e).unbind z.q z.n) (by decide) hunbind.qs .ok 0
    have hstart := Blk.startUnstand_waits (b := b.addEntry e) (e := e) (by rw [hstand, hwv]; exact hz) hrun hrec
    refine ⟨_, hclear.exec (by decide) rfl ((Blk.startCmd_unstand _ hcode hop).trans hstart),
      ((b.queueWork_addEntry e).cmdWork.trans hunbind.cmdWork).trans (Blk.queueWork_complete _ _ _ _).cmdWork, hhead, hended, ?_⟩
    have hgone := (((b.addEntry e).unbind z.q z.n).complete_standsOn e .ok 0).1 z.q z.n
    rw [Blk.unbind_findStand] at hgone
    exact Option.map_eq_none_iff.1 hgone

end Sys2Proof.Machine

/-! # HITCH and the fence

A HITCH that enters behind no command is evaluated at once: it parks, completes, or completes and fences its queue. -/

namespace Sys2Proof.Machine

/-! ### A HITCH enters (07 R192, 08 R209, R211) -/

section
variable {b : Blk} {q : Nat} {l : Line} {e : SbEntry}

theorem Blk.addEntry_knot (hop : e.opcode ≠ opLAUNCH) (b : Blk) (k : Nat) : (b.addEntry e).knot k = b.knot k := by
  obtain ⟨hkn, -⟩ := Blk.addEntry_keeps hop b
  rw [Blk.knot, hkn]
  rfl
/-- A checked HITCH is let in behind no command of its queue, so that its knot decides what it does. -/
theorem Blk.Clear.hitch (h : b.Clear q opHITCH l none) (x : Env) : let e := b.newEntry q l none
    e.opcode = opHITCH ∧ b.enterSlot x q opHITCH none = (b.addEntry e).letIn x e ∧ e.code = 0 ∧ (b.addEntry e).hitchOpen e = true := by
  intro e
  obtain ⟨hsb, hq, -, -, -, -, hop, hcode⟩ := h.entered
  obtain ⟨hready, -⟩ := h
  refine ⟨hop, ?_, hcode, ?_⟩
  · unfold Blk.enterSlot
    rw [hready]
  · have hlower : (b.addEntry e).lower e.q e.n = [] := Blk.lower_of_append hsb hq
    simp [Blk.hitchOpen, hlower]
theorem Blk.park_que (w : Waiter) (b : Blk) (r : Nat) : (b.park w).que r = b.que r := rfl
theorem Blk.park_waiters (w : Waiter) (b : Blk) : (b.park w).kn.waiters = b.kn.waiters ++ [w] := rfl
/-- Unsatisfied, a HITCH parks on its knot. -/
theorem Blk.letIn_parks {x : Env} (hop : e.opcode = opHITCH) (hcode : e.code = 0) (hopen : b.hitchOpen e = true)
    (heval : evalHitch e.slot (Slot.knot4 e.slot) (b.knot (Slot.knot4 e.slot)) = none) :
    b.letIn x e = b.park { knot := Slot.knot4 e.slot, stand := false, q := e.q, n := e.n } := by
  simp [Blk.letIn, hop, hcode, hopen, heval]
/-- The HITCH of entry e, decided. -/
def SbEntry.decided (r : BitVec 4 × W64) (e : SbEntry) : SbEntry := { e with prog := .hitch (some r) }
/-- The block with entry e decided. -/
def Blk.withDecided (e : SbEntry) (r : BitVec 4 × W64) (b : Blk) : Blk := b.modEntry e.q e.n fun _ => e.decided r
theorem Blk.withDecided_que (e : SbEntry) (x : BitVec 4 × W64) (b : Blk) (r : Nat) : (b.withDecided e x).que r = b.que r := rfl
theorem Blk.withDecided_lower {k : List SbEntry} (h : b.sb = k ++ [e]) (hk : ∀ f ∈ k, f.q ≠ e.q) (r : BitVec 4 × W64) :
    (b.withDecided e r).lower e.q e.n = [] :=
  Blk.lower_of_append (e := e.decided r) (Blk.modEntry_sb_last h hk fun _ => e.decided r) hk
theorem Blk.queueWork_withDecided (e : SbEntry) (x : BitVec 4 × W64) (b : Blk) : b.QueueWork (b.withDecided e x) := rfl
/-- Decided, a HITCH goes on to its completion. -/
theorem Blk.letIn_decided {x : Env} {r : BitVec 4 × W64} (hop : e.opcode = opHITCH) (hcode : e.code = 0) (hopen : b.hitchOpen e = true)
    (heval : evalHitch e.slot (Slot.knot4 e.slot) (b.knot (Slot.knot4 e.slot)) = some r) :
    b.letIn x e = (b.withDecided e r).completeHitch (e.decided r) := by
  simp [Blk.letIn, hop, hcode, hopen, heval, SbEntry.decided, Blk.withDecided]

/-! ### Its completion (R193, R211, R215) -/

/-- The fence that a HITCH released by flags puts its queue under. -/
def Blk.fence (e : SbEntry) (rel : BitVec 4) (det : W64) (b : Blk) : Blk :=
  b.setQue e.q { b.que e.q with fence := some { hitch := e.n, flags := rel, detail := det } }
theorem Blk.fence_que (e : SbEntry) (rel : BitVec 4) (det : W64) (b : Blk) :
    (b.fence e rel det).que e.q = { b.que e.q with fence := some { hitch := e.n, flags := rel, detail := det } } := b.setQue_que _ _
/-- With no command of its queue below it and no fence, a decided HITCH completes. -/
theorem Blk.completeHitch_free {rel : BitVec 4} {det : W64} (hlower : b.lower e.q e.n = []) (hfence : (b.que e.q).fence = none) :
    b.completeHitch (e.decided (rel, det)) = if rel = 0 then b.complete (e.decided (rel, det)) .ok 0
      else (b.fence e rel det).complete (e.decided (rel, det)) (Stat.err Code.hitchFlagged det.toNat) rel := by
  have hmay : b.hitchMayComplete (e.decided (rel, det)) = true := by
    have hlower' : b.lower (e.decided (rel, det)).q (e.decided (rel, det)).n = [] := hlower
    simp [Blk.hitchMayComplete, hlower']
  have hfree : b.fenced (e.decided (rel, det)) = none := by
    have hfence' : (b.que (e.decided (rel, det)).q).fence = none := hfence
    simp [Blk.fenced, hfence']
  unfold Blk.completeHitch
  simp only [hmay, hfree]
  rfl

/-- It completes OK when it was decided by value; by flags, it fails and its queue is fenced. -/
theorem Blk.completeHitch_spec {rel : BitVec 4} {det : W64} (hop : e.opcode = opHITCH) (hlower : b.lower e.q e.n = [])
    (hfence : (b.que e.q).fence = none) : let c := b.completeHitch (e.decided (rel, det))
    (c.que e.q).head = (b.que e.q).head
      ∧ (rel = 0 → c.Ended e.q e.n .ok opHITCH ∧ (c.que e.q).fence = none)
      ∧ (rel ≠ 0 → c.Ended e.q e.n (Stat.err Code.hitchFlagged det.toNat) opHITCH
        ∧ (c.que e.q).fence = some { hitch := e.n, flags := rel, detail := det }) := by
  have hplain : (e.decided (rel, det)).opcode ≠ opLAUNCH := by
    change e.opcode ≠ opLAUNCH
    rw [hop]
    decide
  dsimp only
  rw [Blk.completeHitch_free hlower hfence, ← hop]
  by_cases hrel : rel = 0
  · rw [if_pos hrel]
    obtain ⟨_, _, _, _, hque⟩ := b.complete_que (e.decided (rel, det)) .ok 0 e.q
    rw [hque]
    exact ⟨rfl, fun _ => ⟨b.complete_ended_plain hplain .ok 0, hfence⟩, fun hne => absurd hrel hne⟩
  · rw [if_neg hrel]
    obtain ⟨_, _, _, _, hque⟩ := (b.fence e rel det).complete_que (e.decided (rel, det)) (Stat.err Code.hitchFlagged det.toNat) rel e.q
    rw [hque, Blk.fence_que]
    exact ⟨rfl, fun hzero => absurd hzero hrel, fun _ => ⟨Blk.complete_ended_plain _ hplain _ rel, rfl⟩⟩

/-! ### Behind a fence (R215) -/

/-- A MEMBAR that completes behind the fence lifts it. -/
def Blk.lift (e : SbEntry) (q : Nat) (b : Blk) : Blk :=
  if e.opcode = opMEMBAR then b.setQue q { b.que q with fence := none } else b
theorem Blk.lift_que (e : SbEntry) (q : Nat) (b : Blk) :
    (b.lift e q).que q = { b.que q with fence := if e.opcode = opMEMBAR then none else (b.que q).fence } := by
  unfold Blk.lift
  split
  · exact b.setQue_que q _
  · rfl
theorem Blk.queueWork_lift (e : SbEntry) (q : Nat) (b : Blk) : b.QueueWork (b.lift e q) := Blk.queueWork_ite rfl (.refl b)
theorem Blk.lift_stretchSeen (e : SbEntry) (q n : Nat) (b : Blk) : (b.lift e q).stretchSeen q n = b.stretchSeen q n := by
  have hpwr : (b.lift e q).pwr = b.pwr := by rw [b.queueWork_lift e q]
  simp only [Blk.stretchSeen, hpwr, Blk.lift_que]
/-- Of the commands only a LAUNCH shows a stretch (R400). -/
theorem Stat.shown_eq {st : Stat} (h : st.stretched = false) {op : W8} {seen : Bool} :
    (if op = opLAUNCH then { st with stretched := seen } else st) = { st with stretched := op = opLAUNCH && seen } := by
  by_cases hop : op = opLAUNCH
  · simp [hop]
  · rw [if_neg hop, decide_eq_false hop, Bool.false_and, ← h]
theorem exec_fencedComplete {s : State} {q : Queue} {f : Fence} {e : SbEntry} {r : List SbEntry} (hrun : s.blk.running = true)
    (hfence : (s.blk.que q).fence = some f) (hmine : (s.blk.sb.filter fun e => e.q == q.val && decide (f.hitch < e.n)
      && e.opcode != opUNSTAND && e.ending.isNone) = e :: r) :
    exec (.fencedComplete q) s = .next { s with
      blk := ((s.blk.lift e q).complete e (Stat.err Code.hitchFlagged f.detail.toNat) f.flags).pump s.env } := by
  simp [exec, execFencedComplete, State.onWork, State.onBlk, hrun, hfence, hmine, Blk.lift]

end

/-- Settles O6: a HITCH is decided as it enters; the completion behind a fence is `Blk.complete` with the fence's flags. -/
theorem hitchAndFence : Obligations.HitchAndFence := by
  intro s q b n
  constructor
  · intro l e k hclear hwait
    obtain ⟨hop, henter, hcode, hopen⟩ := hclear.hitch s.env
    obtain ⟨hsb, hq, hhead, hfence, -⟩ := hclear.entered
    have hwork : b.QueueWork (b.addEntry e) := b.queueWork_addEntry e
    obtain ⟨hkn, -⟩ := Blk.addEntry_keeps (e := e) (by rw [hop]; decide) b
    have hknot : (b.addEntry e).knot k = b.knot k := Blk.addEntry_knot (by rw [hop]; decide) b k
    have hexec : exec (.hitch q) s = .next { s with blk := ((b.addEntry e).letIn s.env e).pump s.env } := by
      rw [← henter, ← Blk.enterDesc_plain rfl s.env b, ← Blk.enterWaiter_free hwait]
      rfl
    cases heval : evalHitch l k (b.knot k) with
    | none =>
      have hparks : evalHitch e.slot (Slot.knot4 e.slot) ((b.addEntry e).knot (Slot.knot4 e.slot)) = none :=
        (congrArg (evalHitch l k) hknot).trans heval
      rw [Blk.letIn_parks hop hcode hopen hparks] at hexec
      refine ⟨_, hexec, hwork.trans (Blk.queueWork_park _ _), ?_, fun _ => ⟨?_, ?_, ?_⟩, nofun, nofun⟩
      · rw [Blk.park_que]
        exact hhead
      · rw [Blk.park_sb]
        exact hsb
      · rw [Blk.park_waiters, hkn]
        rfl
      · rw [Blk.park_que]
        exact hfence
    | some r =>
      obtain ⟨rel, det⟩ := r
      have hdecided : evalHitch e.slot (Slot.knot4 e.slot) ((b.addEntry e).knot (Slot.knot4 e.slot)) = some (rel, det) :=
        (congrArg (evalHitch l k) hknot).trans heval
      rw [Blk.letIn_decided hop hcode hopen hdecided] at hexec
      obtain ⟨hpassed, hvalue, hflags⟩ := Blk.completeHitch_spec (rel := rel) (det := det) hop (Blk.withDecided_lower hsb hq (rel, det))
        (by rw [Blk.withDecided_que]; exact hfence)
      refine ⟨_, hexec, (hwork.trans (Blk.queueWork_withDecided _ _ _)).trans (Blk.queueWork_completeHitch _ _), ?_, nofun,
        fun _ h => ?_, fun _ _ h hne => ?_⟩
      · rw [Blk.withDecided_que] at hpassed
        exact hpassed.trans hhead
      · cases h
        exact hvalue rfl
      · cases h
        exact hflags hne
  · intro f e r hrun hfence hmine
    have hmem : e ∈ b.sb.filter fun e => e.q == q.val && decide (f.hitch < e.n) && e.opcode != opUNSTAND && e.ending.isNone := by
      rw [hmine]
      exact List.mem_cons_self
    have hq : e.q = q.val := by
      have hkeep := (List.mem_filter.1 hmem).2
      simp only [Bool.and_eq_true, beq_iff_eq] at hkeep
      exact hkeep.1.1.1
    have hended := (b.lift e q).complete_ended e (Stat.err Code.hitchFlagged f.detail.toNat) f.flags
    obtain ⟨_, _, _, _, hque⟩ := (b.lift e q).complete_que e (Stat.err Code.hitchFlagged f.detail.toNat) f.flags q
    refine ⟨_, exec_fencedComplete hrun hfence hmine, (b.queueWork_lift e q).trans (Blk.queueWork_complete _ _ _ _), ?_, ?_⟩
    · rw [hq, Blk.lift_stretchSeen, Stat.shown_eq rfl] at hended
      exact hended
    · rw [hque, Blk.lift_que, hfence]

end Sys2Proof.Machine

/-! # Ties applied, and the knots' registers

A tie either is stale or writes its knot and evaluates the knot's waiters. That evaluation reaches no knot and no tie on
its way, so what becomes of the knot table and of the ties is settled before it. -/

namespace Sys2Proof.Machine

/-! ### Ties on their way stay there while waiters are evaluated (08 R206, R207) -/

theorem Blk.evalTrigger_tieQ (q n : Nat) (b : Blk) : (b.evalTrigger q n).kn.tieQ = b.kn.tieQ := by
  unfold Blk.evalTrigger
  split
  · rfl
  · split <;> rfl
theorem Blk.evalWaiting_tieQ (q n : Nat) (b : Blk) : (b.evalWaiting q n).kn.tieQ = b.kn.tieQ := by
  unfold Blk.evalWaiting
  split
  · rfl
  split
  · rfl
  dsimp only
  split <;> rfl
theorem Blk.evalWaiters_tieQ (k : Nat) (b : Blk) : (b.evalWaiters k).kn.tieQ = b.kn.tieQ := by
  refine List.foldlRecOn _ _ (motive := fun c : Blk => c.kn.tieQ = b.kn.tieQ) rfl fun c hc w _ => ?_
  split
  · exact (c.evalTrigger_tieQ w.q w.n).trans hc
  · exact (c.evalWaiting_tieQ w.q w.n).trans hc
theorem Blk.evalWaiters_knot (k j : Nat) (b : Blk) : (b.evalWaiters k).knot j = b.knot j := by
  obtain ⟨-, -, -, htab⟩ := b.evalWaiters_qs k
  rw [Blk.knot, htab]
  rfl

/-! ### One tie at the knot table (R205, R206, R208) -/

/-- A tie that is not stale, before the waiters of its knot are evaluated: the knot is written, its concealed runs are marked,
and the tie is counted. -/
def Blk.tied (t : Tie) (b : Blk) : Blk :=
  let c := b.setKnot t.knot ((b.knot t.knot).tied t)
  (if t.concealed then c.markConcealed t.knot else c).bumpAll 0x0A t.src.arg

section
variable {b : Blk} {t : Tie}

theorem Blk.tied_kn (t : Tie) (b : Blk) : (b.tied t).kn = (b.setKnot t.knot ((b.knot t.knot).tied t)).kn := by
  unfold Blk.tied
  dsimp only
  split <;> rfl
theorem Blk.tied_knot (t : Tie) (b : Blk) (j : Nat) :
    (b.tied t).knot j = (b.setKnot t.knot ((b.knot t.knot).tied t)).knot j := by
  rw [Blk.knot, Blk.tied_kn]
  rfl
theorem Blk.tieNow_stale (h : t.epoch.toNat < (b.knot t.knot).role.toNat) : b.tieNow t = b.staleMsg := if_pos h
theorem Blk.tieNow_fresh (h : (b.knot t.knot).role.toNat ≤ t.epoch.toNat) : b.tieNow t = (b.tied t).evalWaiters t.knot :=
  if_neg (Nat.not_lt.2 h)
theorem Blk.tieNow_tieQ (t : Tie) (b : Blk) : (b.tieNow t).kn.tieQ = b.kn.tieQ := by
  rcases Nat.lt_or_ge t.epoch.toNat (b.knot t.knot).role.toNat with hstale | hfresh
  · rw [Blk.tieNow_stale hstale]
    rfl
  · rw [Blk.tieNow_fresh hfresh, Blk.evalWaiters_tieQ, Blk.tied_kn]
    rfl
theorem Blk.tieNow_knot (h : (b.knot t.knot).role.toNat ≤ t.epoch.toNat) : (b.tieNow t).knot t.knot = (b.knot t.knot).tied t := by
  rw [Blk.tieNow_fresh h, Blk.evalWaiters_knot, Blk.tied_knot, Blk.setKnot_knot]
theorem Blk.tieNow_knot_ne (h : (b.knot t.knot).role.toNat ≤ t.epoch.toNat) {j : Nat} (hj : j ≠ t.knot) :
    (b.tieNow t).knot j = b.knot j := by
  rw [Blk.tieNow_fresh h, Blk.evalWaiters_knot, Blk.tied_knot, b.setKnot_knot_ne _ hj]

end

/-- MAX keeps the greater value (R205). -/
theorem ofNat_max_toNat {w : Nat} (x y : BitVec w) :
    BitVec.ofNat w (max x.toNat y.toNat) = if x.toNat < y.toNat then y else x := by
  split
  · next h => rw [Nat.max_eq_right h.le, BitVec.ofNat_toNat, BitVec.setWidth_eq]
  · next h => rw [Nat.max_eq_left (Nat.not_lt.1 h), BitVec.ofNat_toNat, BitVec.setWidth_eq]
/-- The table of R205. -/
theorem Knot.tied_table (k : Knot) (t : Tie) : k.tied t = match t.op with
    | .set => { k with val := t.val, flags := t.flags }
    | .add => { k with val := k.val + t.val, flags := k.flags ||| t.flags }
    | .max => { k with val := BitVec.ofNat 64 (max k.val.toNat t.val.toNat), flags := k.flags ||| t.flags }
    | .flagOnly => { k with flags := k.flags ||| t.flags } := by
  rw [ofNat_max_toNat]
  rfl

/-- The block without the tie that has waited longest; `r` are the others. -/
def Blk.tieTaken (r : List Tie) (b : Blk) : Blk := { b with kn := { b.kn with tieQ := r } }
theorem Blk.tieNext_front {b : Blk} {t : Tie} {r : List Tie} (hrun : b.running = true) (hties : b.kn.tieQ = t :: r) :
    b.tieNext = (b.tieTaken r).tieNow t := by
  simp [Blk.tieNext, hrun, hties, Blk.tieTaken]
theorem exec_tieApply {s : State} {t : Tie} {r : List Tie} (hrun : s.blk.running = true) (hties : s.blk.kn.tieQ = t :: r) :
    exec .tieApply s = .next (State.settle { s with blk := ((s.blk.freshResp.tieTaken r).tieNow t).pump s.env }) := by
  rw [← Blk.tieNext_front (b := s.blk.freshResp) hrun hties]
  rfl

/-- Settles O17: the tie at the front is taken off and goes to the knot table (`Blk.tieNow`), stale or not. -/
theorem tieApplied : Obligations.TieApplied := by
  intro s t r b k hrun hties
  let c := b.freshResp.tieTaken r
  have hwork : b.freshResp.QueueWork (c.tieNow t) := (b.freshResp.queueWork_kn _).trans (c.queueWork_tieNow t)
  obtain ⟨hqs, hsq, hmem⟩ := c.tieNow_qs t
  refine ⟨c.tieNow t, exec_tieApply hrun hties, hwork, c.tieNow_tieQ t, hqs, hsq, hmem, fun hfresh => ?_, fun hstale => ?_⟩
  · exact ⟨fun j hj => Blk.tieNow_knot_ne (b := c) hfresh hj, (Blk.tieNow_knot (b := c) hfresh).trans (k.tied_table t)⟩
  · have hdiscard : c.tieNow t = c.staleMsg := Blk.tieNow_stale hstale
    rw [hdiscard]
    exact ⟨rfl, rfl⟩

/-! ### Served accesses -/

section
variable {s : State} {a : Acc}

/-- A whole write that its row's judge lets pass has its effect and is answered (12 R303 to R305). -/
theorem State.writeRow_passed {judge : Env → Blk → Option (BitVec 2)} (hb : s.blk.Serves a) (hj : judge s.env s.blk.freshResp = none)
    (addr : Nat) (d : W32) (eff : Env → Blk → Blk) :
    s.writeRow a addr d judge eff = .next { s with blk := (eff s.env s.blk.freshResp).respond a.seat true 0 } := by
  have ⟨_, _, _, hwhole⟩ := hb
  simp [State.writeRow, State.access_served hb, Blk.hostWrite, hj, hwhole]
/-- Answered, a write changes nothing besides its effect. -/
theorem Blk.wroteOnly_respond (b set : Blk) (a : Acc) : b.WroteOnly a set (Blk.respond a.seat true 0 set.freshResp) :=
  ⟨rfl, b.respond_wrote a rfl⟩

end

/-! ### Host ties (R224, R225) -/

section
variable {b : Blk} {seat win : Nat} {w : W32}

/-- The tie that a write of w to KNT_TIE_GO forms, with the value of window `win`. -/
def Blk.hostTieOf (seat win : Nat) (w : W32) (b : Blk) : Tie :=
  { knot := fld w 0 20, op := tieOpOf (fld w 20 2), val := (b.tieRegs win).val, flags := BitVec.ofNat 4 (fld w 22 4)
    epoch := b.wv.epoch, src := .host seat }
theorem Blk.hostTie_refused {code : W8} (h : tieCheck b seat (win == 16) w = some code) :
    b.hostTie seat win w = b.setTieRegs win { b.tieRegs win with err := (b.tieRegs win).err.record code } := by
  simp [Blk.hostTie, h]
theorem Blk.hostTie_formed (h : tieCheck b seat (win == 16) w = none) :
    b.hostTie seat win w = { b with kn := { b.kn with tieQ := b.kn.tieQ ++ [b.hostTieOf seat win w] } } := by
  simp [Blk.hostTie, h, Blk.hostTieOf]
/-- Whether a tie is refused does not depend on the responses shown. -/
theorem Blk.hostTie_freshResp (seat win : Nat) (w : W32) (b : Blk) :
    b.freshResp.hostTie seat win w = (b.hostTie seat win w).freshResp := by
  cases h : tieCheck b seat (win == 16) w with
  | some code =>
    rw [Blk.hostTie_refused h]
    exact Blk.hostTie_refused (b := b.freshResp) h
  | none =>
    rw [Blk.hostTie_formed h]
    exact Blk.hostTie_formed (b := b.freshResp) h
/-- The checks of a host tie, in order. -/
theorem tieCheck_eq : tieCheck b seat (win == 16) w =
    if 0xFFFF < fld w 0 20 then some 1
    else if win ≠ 16 ∧ (b.wv.epoch = 0 ∨ b.wv.cur.knotOwner (fld w 0 20) ≠ some seat) then some 2
    else if fld w 20 2 = 0 ∨ fld w 26 6 ≠ 0 then some 3
    else none := by
  simp [tieCheck]
theorem exec_kntTieGo {s : State} {a : Acc} (hb : s.blk.Serves a) (w : W32) :
    exec (.kntTieGo a w) s
      = .next { s with blk := (s.blk.hostTie a.seat.val (ownWindow s.env a) w).freshResp.respond a.seat true 0 } := by
  rw [← Blk.hostTie_freshResp]
  exact State.writeRow_passed (judge := fun _ _ => none) hb rfl
    (if ownWindow s.env a = 16 then 0x2008 else seatAddr a.seat.val 0x108) w fun _ b => b.hostTie a.seat.val (ownWindow s.env a) w
theorem Blk.hostTie_wroteOnly {set : Blk} (a : Acc) (h : b.hostTie a.seat.val win w = set) :
    b.WroteOnly a set ((b.hostTie a.seat.val win w).freshResp.respond a.seat true 0) := by
  rw [h]
  exact b.wroteOnly_respond set a

end

/-! ### A decided HITCH goes on at the dispatcher (R212, R193) -/

/-- The block without the waiter w on its way to the dispatcher. -/
def Blk.wakeTaken (w : Waiter) (b : Blk) : Blk := { b with kn := { b.kn with wakes := b.kn.wakes.erase w } }
theorem exec_waiterWake_hitch {s : State} {w : Waiter} {e : SbEntry} (hrun : s.blk.running = true) (hnext : s.blk.nextWake = some w)
    (hkind : w.stand = false) (hentry : s.blk.entry w.q w.n = some e) :
    exec .waiterWake s = .next { s with blk := ((s.blk.wakeTaken w).completeHitch e).pump s.env } := by
  have hentry' : (s.blk.wakeTaken w).entry w.q w.n = some e := hentry
  have hwake : s.blk.wakeOne s.env w = (s.blk.wakeTaken w).completeHitch e := by
    simp only [Blk.wakeTaken] at hentry' ⊢
    simp [Blk.wakeOne, hkind, hentry']
  simp [exec, execWaiterWake, State.onWork, State.onBlk, hnext, hrun, hwake]
/-- Released by value, with no earlier HITCH or MEMBAR and no fence, it completes OK. -/
theorem Blk.completeHitch_byValue {b : Blk} {e : SbEntry} {det : W64} (hprog : e.prog = .hitch (some (0, det)))
    (hmay : b.hitchMayComplete e = true) (hfree : b.fenced e = none) : b.completeHitch e = b.complete e .ok 0 := by
  simp [Blk.completeHitch, hprog, hmay, hfree]

/-! ### An error in a knot entry (R204) -/

theorem Blk.knotEcc_knot (k : Nat) (b : Blk) : (b.knotEcc k).knot k = { b.knot k with val := 0, flags := fFAULT } :=
  (Blk.evalWaiters_knot k k _).trans (b.setKnot_knot k _)
theorem Blk.knotEcc_knot_ne {j k : Nat} (h : j ≠ k) (b : Blk) : (b.knotEcc k).knot j = b.knot j :=
  (Blk.evalWaiters_knot k j _).trans (b.setKnot_knot_ne _ h)
theorem Blk.queueWork_knotEcc (k : Nat) (b : Blk) : b.QueueWork (b.knotEcc k) :=
  (b.queueWork_setKnot k _).trans (Blk.queueWork_evalWaiters k _)
theorem Blk.knotEcc_qs (k : Nat) (b : Blk) : (b.knotEcc k).qs = b.qs :=
  (Blk.evalWaiters_qs k _).1
theorem exec_knotEccError {s : State} (hup : s.blk.up = true) (k : BitVec 16) :
    exec (.knotEccError k) s = .next { s with blk := s.blk.knotEcc k.toNat } := by
  simp [exec, execKnotEccError, State.onBlk, hup]

/-! ### The knot window (R222, R223) -/

/-- The seat's registers after its read of knot k's low word. -/
def SeatRegs.captured (x : Env) (a : Acc) (k : Nat) (b : Blk) : SeatRegs :=
  { b.seat a.seat.val with knotCap := if knotReadable x b a k then some (k, b.knot k, b.waitersOn k) else none }
theorem Blk.knotCapture_eq (x : Env) (a : Acc) (k : Nat) (b : Blk) : b.knotCapture x a k =
    (b.setSeat a.seat.val (SeatRegs.captured x a k b)).respond a.seat false
      (if knotReadable x b a k then BitVec.ofNat 32 (b.knot k).val.toNat else 0) := by
  unfold Blk.knotCapture SeatRegs.captured
  split <;> rfl
/-- A read that no tie of its seat is ahead of is not held. -/
theorem Blk.knotLoRead_free {x : Env} {a : Acc} {k : Nat} {b : Blk} (h : b.tieAhead a.seat.val k = false) :
    b.knotLoRead x a k = b.knotCapture x a k := by
  simp [Blk.knotLoRead, h]
theorem exec_kntWinValLoRead {s : State} {a : Acc} {k : BitVec 16} (hb : s.blk.Serves a)
    (hahead : s.blk.tieAhead a.seat.val k.toNat = false) :
    exec (.kntWinValLoRead a k) s = .next { s with blk := s.blk.freshResp.knotCapture s.env a k.toNat } := by
  rw [← Blk.knotLoRead_free (b := s.blk.freshResp) hahead]
  exact congrArg Host.Outcome.next (State.access_served hb _ none _)

/-! ### The waiter list's peak (R226) -/

theorem exec_kntPeakClr {s : State} {a : Acc} (hb : s.blk.Serves a) (hs : s.Steward a) :
    exec (.kntPeakClr a) s = .next { s with blk := s.blk.peakClr.freshResp.respond a.seat true 0 } :=
  State.writeRow_served hb hs 0x2010 0x80000000 fun _ b => b.peakClr

/-! ### The statement -/

/-- Settles O16: each row is the operation of its section above, on the block that shows no response yet. -/
theorem knotRegisters : Obligations.KnotRegisters := by
  constructor
  · intro s a w b win r k hb
    refine ⟨_, exec_kntTieGo hb w, ?_⟩
    have hcheck : tieCheck b a.seat.val (win == 16) w = _ := tieCheck_eq
    split_ifs at hcheck ⊢
    · exact Blk.hostTie_wroteOnly a (Blk.hostTie_refused hcheck)
    · exact Blk.hostTie_wroteOnly a (Blk.hostTie_refused hcheck)
    · exact Blk.hostTie_wroteOnly a (Blk.hostTie_refused hcheck)
    · exact Blk.hostTie_wroteOnly a (Blk.hostTie_formed hcheck)
  · intro s b
    refine ⟨?_, ?_, ?_, ?_⟩
    · intro w e det hrun hnext hkind hentry hprog hmay hfree hop
      have hdone : (b.wakeTaken w).completeHitch e = (b.wakeTaken w).complete e .ok 0 := Blk.completeHitch_byValue hprog hmay hfree
      have hended : ((b.wakeTaken w).complete e .ok 0).Ended e.q e.n .ok e.opcode :=
        (b.wakeTaken w).complete_ended_plain (by rw [hop]; decide) .ok 0
      obtain ⟨hq, hn⟩ : e.q = w.q ∧ e.n = w.n := by simpa using List.find?_some hentry
      rw [hq, hn, hop, ← hdone] at hended
      exact ⟨_, exec_waiterWake_hitch hrun hnext hkind hentry, (b.queueWork_kn _).trans (Blk.queueWork_completeHitch _ e), hended⟩
    · intro k hup
      exact ⟨_, exec_knotEccError hup k, b.queueWork_knotEcc _, b.knotEcc_knot _, fun j hj => b.knotEcc_knot_ne hj, b.knotEcc_qs _⟩
    · intro a k hb hahead mine
      refine ⟨_, exec_kntWinValLoRead hb hahead, ?_⟩
      rw [Blk.knotCapture_eq]
      exact ⟨rfl, rfl, b.freshResp.setSeat_seat _ _, fun j hj => b.setSeat_seat_ne _ hj, rfl⟩
    · intro a hb hs
      exact ⟨_, exec_kntPeakClr hb hs, b.wroteOnly_respond b.peakClr a⟩

end Sys2Proof.Machine

/-! # Work at one engine

What dealing tiles to an engine reaches, and what of its work the boundary of a launch leaves as it is. -/

namespace Sys2Proof.Machine

/-! ### The frame -/

/-- Between the two blocks only engine e differs, besides commands and standing launches, draws of free values, save areas, messages
sent and tallies. -/
def Blk.WorkAt (b : Blk) (e : Nat) (c : Blk) : Prop :=
  c = { b with
      eng := c.eng, sb := c.sb, stand := c.stand, freeCtr := c.freeCtr
      mem := { b.mem with ring := c.mem.ring, saves := c.mem.saves }, trc := { b.trc with tally := c.trc.tally } }
    ∧ ∀ j, j ≠ e → c.engine j = b.engine j

section
variable {b c d : Blk} {e : Nat}

theorem Blk.WorkAt.refl (b : Blk) (e : Nat) : b.WorkAt e b := ⟨rfl, fun _ _ => rfl⟩
theorem Blk.WorkAt.trans (h : b.WorkAt e c) (k : c.WorkAt e d) : b.WorkAt e d := by
  obtain ⟨hc, hcj⟩ := h
  obtain ⟨hd, hdj⟩ := k
  refine ⟨?_, fun j hj => (hdj j hj).trans (hcj j hj)⟩
  rw [hc] at hd
  exact hd
theorem Blk.WorkAt.ite {p : Prop} [Decidable p] (h : b.WorkAt e c) (k : b.WorkAt e d) : b.WorkAt e (if p then c else d) := by
  split <;> assumption
theorem Blk.WorkAt.engineWork (h : b.WorkAt e c) : b.EngineWork c := by
  unfold Blk.EngineWork
  rw [h.1]
theorem Blk.WorkAt.qs (h : b.WorkAt e c) : c.qs = b.qs := by rw [h.1]
theorem Blk.WorkAt.kn (h : b.WorkAt e c) : c.kn = b.kn := by rw [h.1]
theorem Blk.WorkAt.sq (h : b.WorkAt e c) : c.sq = b.sq := by rw [h.1]
theorem Blk.WorkAt.dsp (h : b.WorkAt e c) : c.dsp = b.dsp := by rw [h.1]
theorem Blk.WorkAt.host (h : b.WorkAt e c) : c.host = b.host := by rw [h.1]
theorem Blk.EngOnly.workAt (h : b.EngOnly e c) : b.WorkAt e c := by
  obtain ⟨hc, hj⟩ := h
  refine ⟨?_, hj⟩
  rw [show c = _ from hc]
theorem Blk.workAt_modEng (b : Blk) (e : Nat) (f : Eng → Eng) : b.WorkAt e (b.modEng e f) := (b.engOnly_modEng e f).workAt
theorem Blk.workAt_bump (b : Blk) (e key n : Nat) : b.WorkAt e (b.bump key n) := ⟨rfl, fun _ _ => rfl⟩
theorem Blk.workAt_modEntry (b : Blk) (e q n : Nat) (f : SbEntry → SbEntry) : b.WorkAt e (b.modEntry q n f) := ⟨rfl, fun _ _ => rfl⟩
theorem Blk.workAt_modStand (b : Blk) (e q n : Nat) (f : Standing → Standing) : b.WorkAt e (b.modStand q n f) := ⟨rfl, fun _ _ => rfl⟩
theorem Blk.workAt_modLaunch (b : Blk) (e : Nat) (j : Job) (f : Launch → Launch) : b.WorkAt e (b.modLaunch j f) := by
  unfold Blk.modLaunch
  split
  · exact b.workAt_modStand e _ _ _
  · exact b.workAt_modEntry e _ _ _
theorem Blk.modLaunch_engine (b : Blk) (j : Job) (f : Launch → Launch) (t : Nat) : (b.modLaunch j f).engine t = b.engine t := by
  unfold Blk.modLaunch
  split <;> rfl

end

/-! ### A launch boundary (R97, R99, R186) -/

/-- What an engine has to do: the tile it runs, its queued tiles, its save. -/
def Eng.tasks (v : Eng) : Option Job × List (Job × Range) × Option SaveArea := (v.job, v.deque, v.save)

section
variable (b : Blk) (e : Nat) (j : Job)

theorem Blk.unwait_tasks (sel : Option Bool) : ((b.unwait e sel).engine e).tasks = (b.engine e).tasks := by
  obtain ⟨_, _, _, h⟩ := b.unwait_engine e sel
  rw [h]
  rfl
theorem Blk.engOnly_selectBank (p : W16) : b.EngOnly e (b.selectBank e p) := by
  unfold Blk.selectBank
  split
  · exact .refl b e
  · exact (b.engOnly_modEng e _).trans (Blk.engOnly_unwait _ e _)
theorem Blk.selectBank_tasks (p : W16) : ((b.selectBank e p).engine e).tasks = (b.engine e).tasks := by
  unfold Blk.selectBank
  split
  · rfl
  next i _ =>
    rw [Blk.unwait_tasks, Blk.modEng_engine]
    cases i <;> rfl
theorem Blk.readTdesc_engine (l : Launch) : (∀ i, i ≠ e → (b.readTdesc e j l).engine i = b.engine i)
    ∧ ((b.readTdesc e j l).engine e).tasks = (b.engine e).tasks := by
  unfold Blk.readTdesc
  split
  · extract_lets a c
    refine List.foldlRecOn _ _ (motive := fun d : Blk => (∀ i, i ≠ e → d.engine i = b.engine i)
      ∧ (d.engine e).tasks = (b.engine e).tasks) ⟨fun i hi => b.modEng_engine_ne _ hi, ?_⟩ fun d hd _ _ => hd
    rw [Blk.modEng_engine]
    rfl
  · exact ⟨fun _ _ => rfl, rfl⟩
/-- Only engine e, messages and tallies differ once it has begun work of a job; what it has to do stays. -/
theorem Blk.begin_spec : b.DescWork (b.begin e j) ∧ (∀ i, i ≠ e → (b.begin e j).engine i = b.engine i)
    ∧ ((b.begin e j).engine e).tasks = (b.engine e).tasks := by
  unfold Blk.begin
  split
  · exact ⟨.refl b, fun _ _ => rfl, rfl⟩
  next l _ =>
  split
  · exact ⟨.refl b, fun _ _ => rfl, rfl⟩
  extract_lets c d
  have hd : b.EngOnly e d := (b.engOnly_selectBank e l.prog).trans (c.engOnly_modEng e _)
  have hdesc : b.DescWork d := by
    unfold Blk.DescWork
    rw [show d = _ from hd.1]
  have htasks : (d.engine e).tasks = (b.engine e).tasks := by
    rw [Blk.modEng_engine]
    exact b.selectBank_tasks e l.prog
  split
  · exact ⟨hdesc, hd.2, htasks⟩
  · obtain ⟨hothers, hown⟩ := d.readTdesc_engine e j l
    exact ⟨hdesc.trans (d.descWork_readTdesc e j l), fun i hi => (hothers i hi).trans (hd.2 i hi), hown.trans htasks⟩
theorem Blk.workAt_begin : b.WorkAt e (b.begin e j) := by
  obtain ⟨hdesc, hothers, -⟩ := b.begin_spec e j
  refine ⟨?_, hothers⟩
  rw [show b.begin e j = _ from hdesc]

end

/-! ### Tiles are given (R231, R104, R298) -/

/-- Engine t with the ranges rs of job j among its queued tiles. -/
def Blk.deal (x : Env) (t : Nat) (j : Job) (rs : List Range) (b : Blk) : Blk :=
  b.modEng t fun v => { v with
    deque := orderBy (fun r => (r.2.lo, 0, 0)) (v.deque ++ rs.map fun r => (j, r)), yieldTo := none
    runFrom := if v.lastJob = some j then v.runFrom else x.now }
/-- A launch that joins a concealed item at engine t is concealed too. -/
def Blk.conceal (t : Nat) (j : Job) (b : Blk) : Blk :=
  if !j.run && (b.engine t).concealed then b.modLaunch j fun l => { l with concealed := true } else b

section
variable {b : Blk} {x : Env} {t : Nat} {j : Job} {l : Launch} {rs : List Range} {own : Bool}

theorem Blk.give_eq : b.give x t j l rs own = (((b.spoil t j l own).deal x t j rs).conceal t j).begin t j := rfl

theorem Blk.spoil_unsaved (h : (b.engine t).save = none) : b.spoil t j l own = b := by
  simp [Blk.spoil, h]
/-- A save is kept, or goes and its tile returns to its launch. -/
theorem Blk.spoil_cases : b.spoil t j l own = b
    ∨ ∃ i f, b.spoil t j l own = (b.modEng t fun v => { v with save := none }).modLaunch i f := by
  unfold Blk.spoil
  split
  · exact .inl rfl
  · dsimp only
    split
    · exact .inl rfl
    split
    · split
      · exact .inr ⟨_, _, rfl⟩
      · exact .inl rfl
    · split
      · exact .inr ⟨_, _, rfl⟩
      · exact .inl rfl
theorem Blk.workAt_spoil : b.WorkAt t (b.spoil t j l own) := by
  obtain h | ⟨i, f, h⟩ := b.spoil_cases (t := t) (j := j) (l := l) (own := own)
  · rw [h]
    exact .refl b t
  · rw [h]
    exact (b.workAt_modEng t _).trans (Blk.workAt_modLaunch _ t i f)
theorem Blk.spoil_deque : ((b.spoil t j l own).engine t).deque = (b.engine t).deque := by
  obtain h | ⟨i, f, h⟩ := b.spoil_cases (t := t) (j := j) (l := l) (own := own)
  · rw [h]
  · rw [h, Blk.modLaunch_engine, Blk.modEng_engine]
theorem Blk.workAt_conceal : b.WorkAt t (b.conceal t j) := .ite (b.workAt_modLaunch t j _) (.refl b t)
theorem Blk.conceal_engine (i : Nat) : (b.conceal t j).engine i = b.engine i := by
  unfold Blk.conceal
  split
  · exact b.modLaunch_engine j _ i
  · rfl
theorem Blk.workAt_give : b.WorkAt t (b.give x t j l rs own) :=
  ((Blk.workAt_spoil.trans (Blk.workAt_modEng _ t _)).trans Blk.workAt_conceal).trans (Blk.workAt_begin _ t j)
theorem Blk.give_tasks : ((b.give x t j l rs own).engine t).tasks = (((b.spoil t j l own).deal x t j rs).engine t).tasks := by
  obtain ⟨-, -, htasks⟩ := (((b.spoil t j l own).deal x t j rs).conceal t j).begin_spec t j
  rw [Blk.give_eq, htasks, Blk.conceal_engine]
/-- An engine without queued tiles holds just those of one range given to it. -/
theorem Blk.give_deque {r : Range} (h : (b.engine t).deque = []) : ((b.give x t j l [r] own).engine t).deque = [(j, r)] := by
  have htasks : ((b.give x t j l [r] own).engine t).deque = _ := congrArg (·.2.1) (Blk.give_tasks (b := b))
  rw [htasks, Blk.deal, Blk.modEng_engine]
  simp only [Eng.tasks, Blk.spoil_deque, h]
  rfl
theorem Blk.give_save (h : (b.engine t).save = none) : ((b.give x t j l rs own).engine t).save = none := by
  have htasks : ((b.give x t j l rs own).engine t).save = _ := congrArg (·.2.2) (Blk.give_tasks (b := b))
  rw [htasks, Blk.deal, Blk.modEng_engine, Blk.spoil_unsaved h]
  exact h

/-! ### Launches and runs under way stay so -/

theorem Blk.modLaunch_running (j : Job) (f : Launch → Launch) (q n : Nat) :
    ((b.modLaunch j f).findStand q n).map (·.running) = (b.findStand q n).map (·.running) := by
  unfold Blk.modLaunch
  split
  · refine (congrArg _ (Blk.findStand_map fun y => ?_)).trans ?_
    · split <;> exact ⟨rfl, rfl⟩
    · rw [Option.map_map]
      congr 1
      funext y
      simp only [Function.comp_apply]
      split <;> rfl
  · rfl
theorem Blk.give_running (q n : Nat) :
    ((b.give x t j l rs own).findStand q n).map (·.running) = (b.findStand q n).map (·.running) := by
  have hspoil : ((b.spoil t j l own).findStand q n).map (·.running) = (b.findStand q n).map (·.running) := by
    obtain h | ⟨i, f, h⟩ := b.spoil_cases (t := t) (j := j) (l := l) (own := own)
    · rw [h]
    · rw [h, Blk.modLaunch_running]
      rfl
  have hconceal : ∀ c : Blk, ((c.conceal t j).findStand q n).map (·.running) = (c.findStand q n).map (·.running) := by
    intro c
    unfold Blk.conceal
    split
    · exact c.modLaunch_running j _ q n
    · rfl
  obtain ⟨hbegin, -, -⟩ := (((b.spoil t j l own).deal x t j rs).conceal t j).begin_spec t j
  rw [Blk.give_eq, Blk.findStand, hbegin.stand]
  exact (hconceal _).trans hspoil
/-- The launch that tiles are given of is still there. -/
theorem Blk.give_launch? (hrun : j.run = false) (hsave : (b.engine t).save = none) :
    ((b.give x t j l rs own).launch? j).isSome = (b.launch? j).isSome := by
  obtain ⟨hbegin, -, -⟩ := (((b.spoil t j l own).deal x t j rs).conceal t j).begin_spec t j
  rw [Blk.give_eq, Blk.launch?_of_sb hrun hbegin.sb, Blk.spoil_unsaved hsave, Blk.conceal]
  split
  · rw [Blk.modLaunch_launch? hrun, Option.isSome_map]
    rfl
  · rfl

end

end Sys2Proof.Machine

/-! # Selection

The first candidate passes every test of a selection, and its one engine is chosen and given every tile. -/

namespace Sys2Proof.Machine

/-! ### Candidates (09 R228, R230) -/

theorem mem_insertKey {α : Type} {key : α → Nat × Nat × Nat} {v x : α} {l : List α} (h : x ∈ insertKey key v l) : x = v ∨ x ∈ l := by
  induction l with
  | nil => exact .inl (List.mem_singleton.1 h)
  | cons a l ih =>
    unfold insertKey at h
    split at h
    · exact List.mem_cons.1 h
    · rcases List.mem_cons.1 h with rfl | h
      · exact .inr List.mem_cons_self
      · exact (ih h).imp_right (List.mem_cons_of_mem a)
/-- Ordering adds no element. -/
theorem mem_orderBy {α : Type} {key : α → Nat × Nat × Nat} {x : α} {l : List α} (h : x ∈ orderBy key l) : x ∈ l := by
  refine List.foldlRecOn l _ (motive := fun s => x ∈ s → x ∈ l) (absurd · List.not_mem_nil) (fun s hs v hv hx => ?_) h
  rcases mem_insertKey hx with rfl | hx
  · exact hv
  · exact hs hx

section
variable {b : Blk} {e : SbEntry} {l : Launch} {taut : Bool} {t : Nat}

/-- A candidate without a twin has tiles to place. -/
theorem Blk.candidates_toPlace (h : e ∈ b.candidates taut) (hl : e.launch? = some l) (htwin : l.twin = none) : 0 < l.toPlace := by
  have hcand : b.candidate taut e = true := (List.mem_filter.1 (mem_orderBy h)).2
  simp only [Blk.candidate, hl, htwin, Bool.and_eq_true, decide_eq_true_eq] at hcand
  exact hcand.2

/-! ### The engine chosen (R97, R230) -/

theorem Blk.mem_allowedIdle (h : t ∈ b.allowedIdle e l) : t ∈ b.launchEngines e.q ∧ b.idleEng t e.job = true := by
  have hmem : t ∈ (b.launchEngines e.q).filter fun t => b.idleEng t e.job && b.standLets l t := by
    unfold Blk.allowedIdle at h
    dsimp only at h
    split at h
    · exact h
    · exact (List.mem_filter.1 h).1
  obtain ⟨heng, hidle⟩ := List.mem_filter.1 hmem
  exact ⟨heng, (Bool.and_eq_true _ _ ▸ hidle).1⟩
/-- An engine that is idle for a job no engine holds has no queued tile. -/
theorem Blk.idleEng_deque {j : Job} (hidle : b.idleEng t j = true) (hfree : t ∉ b.holders j) : (b.engine t).deque = [] := by
  have hall : (b.engine t).deque.all (·.1 == j) = true := by
    simp only [Blk.idleEng, Blk.freeFor, Bool.and_eq_true] at hidle
    tauto
  cases hdeque : (b.engine t).deque with
  | nil => rfl
  | cons r rs =>
    refine absurd (Blk.mem_engIds (fun h0 => ?_) ?_) hfree
    · rw [h0] at hdeque
      cases hdeque
    · rw [hdeque, List.all_cons, Bool.and_eq_true] at hall
      simp [Eng.holds, Eng.queuedOf, hdeque, hall.1]
theorem mem_foldl_addNew {l ts : List Nat} (h : t ∈ l) : t ∈ ts.foldl addNew l := by
  refine List.foldlRecOn ts _ (motive := fun l => t ∈ l) h fun l hl u _ => ?_
  unfold addNew
  split
  · exact hl
  · exact List.mem_append_left _ hl
theorem Blk.holders_of_holding {j : Job} (h : b.holding j = []) : t ∉ b.holders j := fun hmem => by
  have hheld : t ∈ b.holding j := mem_foldl_addNew hmem
  rw [h] at hheld
  cases hheld
theorem Blk.progSomewhere_of_ready (htwin : twinLaunch e = false) (heng : t ∈ b.launchEngines e.q) (hready : b.readyFor l t = true) :
    b.progSomewhere e l.prog = true := by
  have hbank : ((b.engine t).bankFor l.prog).isSome = true := (Bool.and_eq_true _ _ ▸ hready).1
  simp only [Blk.progSomewhere, Blk.targetsOf, htwin, Bool.false_eq_true, if_false]
  exact List.any_eq_true.2 ⟨t, heng, by rw [hbank, Bool.true_or]⟩
/-- A launch that holds no engine may take one. -/
theorem Blk.placeCap_pos (hplace : 0 < l.toPlace) (hnone : b.holding e.job = []) : 0 < b.placeCap e l taut := by
  unfold Blk.placeCap
  split
  · split
    · have hcap : ∀ w p, 0 < tautCap w p := fun w p => Nat.lt_of_lt_of_le Nat.one_pos (Nat.le_max_left _ _)
      rw [hnone]
      exact Nat.lt_min.2 ⟨hplace, hcap _ _⟩
    · exact hplace
  · exact hplace
theorem Blk.choose_one (hplace : 0 < l.toPlace) (hsaved : l.saved = []) (hnone : b.holding e.job = []) (hready : b.readyFor l t = true)
    (hsave : (b.engine t).save = none) : b.choose e l taut [t] = [t] := by
  have hlen : 0 < rangesLen l.unplaced := by simpa [Launch.toPlace, hsaved] using hplace
  have hown : (b.engine t).savedOf e.job = false := by simp [Eng.savedOf, hsave]
  have htake : ∀ k, 0 < k → [t].take k = [t] := fun k hk => List.take_of_length_le hk
  have hcap : 0 < min (rangesLen l.unplaced) (b.placeCap e l taut) := Nat.lt_min.2 ⟨hlen, Blk.placeCap_pos hplace hnone⟩
  simp [Blk.choose, hready, hown, htake _ hcap]

/-! ### Every tile goes on its deque (R231) -/

theorem share_one (n : Nat) : share n 1 0 = n := by simp [share, Nat.mod_one]
theorem takeTiles_whole {r : Range} (h : 0 < r.len) : takeTiles r.len [r] = ([r], []) := by
  simp [takeTiles, Nat.pos_iff_ne_zero.1 h]
/-- A slack selection moves its round-robin pointer past the queue (R230). -/
def Blk.turnOn (taut : Bool) (e : SbEntry) (b : Blk) : Blk :=
  if taut then b else { b with dsp := { b.dsp with rr := SMap.set 0 b.dsp.rr (8 * b.partNum e.q + b.levelOf e.q) ((e.q + 1) % 1024) } }
/-- The launch with every tile placed, which begins now. -/
def Launch.placed (now : W64) (l : Launch) : Launch := { l with unplaced := [], startAt := now }
/-- The launch of entry e has begun. -/
def Blk.launchBegun (x : Env) (taut : Bool) (e : SbEntry) (b : Blk) : Blk :=
  (((b.modLaunch e.job (Launch.placed x.now)).markStarted e.job).bump (evBlk 0x05 (if taut then 0 else 1)) 1).turnOn taut e

/-- One engine without queued tiles and without a save takes all of them. -/
theorem Blk.assign_one (x : Env) (hl : b.launch? e.job = some l) (hrange : l.unplaced = [{ lo := 0, hi := l.tiles }]) (hplace : 0 < l.tiles)
    (hstart : e.started = false) (hdeque : (b.engine t).deque = []) (hsave : (b.engine t).save = none) :
    b.assign x e taut [t] = (b.give x t e.job l [{ lo := 0, hi := l.tiles }] true).launchBegun x taut e := by
  let r : Range := { lo := 0, hi := l.tiles }
  have htake : takeTiles (share (rangesLen [r]) 1 0) [r] = ([r], []) := by
    rw [share_one]
    exact takeTiles_whole (r := r) hplace
  have hresume : (b.give x t e.job l [r] true).resumeSave x t e.job = b.give x t e.job l [r] true := by
    simp [Blk.resumeSave, Eng.savedOf, Blk.give_save hsave]
  simp only [Blk.assign, hl, hrange, List.length_singleton, List.zipIdx_singleton, List.foldl_cons, List.foldl_nil]
  rw [htake]
  simp [hdeque, hstart, hresume, r]
  rfl

theorem Blk.launchBegun_engine (x : Env) (i : Nat) : (b.launchBegun x taut e).engine i = b.engine i := by
  unfold Blk.launchBegun Blk.turnOn
  split <;> exact b.modLaunch_engine e.job (Launch.placed x.now) i
theorem Blk.launchBegun_spec (x : Env) : b.EngineWork (b.launchBegun x taut e) ∧ (b.launchBegun x taut e).qs = b.qs
    ∧ (b.launchBegun x taut e).kn = b.kn ∧ (b.launchBegun x taut e).sq = b.sq := by
  unfold Blk.launchBegun Blk.turnOn
  rw [Blk.modLaunch_eq rfl]
  cases taut <;> exact ⟨rfl, rfl, rfl, rfl⟩
theorem Blk.launchBegun_sb (x : Env) : (b.launchBegun x taut e).sb
    = ((b.modLaunch e.job (Launch.placed x.now)).modEntry e.q e.n fun e => { e with started := true }).sb := by
  unfold Blk.launchBegun Blk.turnOn
  split <;> rfl
/-- The launch has begun, with no tile left to place. -/
theorem Blk.launchBegun_launch (x : Env) (h : (b.launch? e.job).isSome = true) :
    ((b.launchBegun x taut e).entry e.q e.n).map (·.started) = some true
      ∧ ((b.launchBegun x taut e).launch? e.job).map (·.unplaced) = some [] := by
  let c := b.modLaunch e.job (Launch.placed x.now)
  have hentry : (b.launchBegun x taut e).entry e.q e.n = (c.entry e.q e.n).map fun e => { e with started := true } := by
    rw [Blk.entry, Blk.launchBegun_sb]
    exact Blk.modEntry_entry fun _ => ⟨rfl, rfl⟩
  obtain ⟨l, hl⟩ := Option.isSome_iff_exists.1 h
  have hc : (c.entry e.q e.n).bind SbEntry.launch? = some (l.placed x.now) := by
    have hplaced : c.launch? e.job = some (l.placed x.now) := by rw [Blk.modLaunch_launch? rfl, hl]; rfl
    exact hplaced
  obtain ⟨y, hy, hly⟩ := Option.bind_eq_some_iff.1 hc
  rw [hy] at hentry
  refine ⟨by rw [hentry]; rfl, ?_⟩
  have hlaunch : (b.launchBegun x taut e).launch? e.job = some (l.placed x.now) :=
    (congrArg (Option.bind · SbEntry.launch?) hentry).trans hly
  rw [hlaunch]
  rfl

/-! ### The statement -/

/-- A candidate that may start and has one idle allowed engine, READY with its program, is assigned there. -/
theorem Blk.tryCandidate_one (x : Env) (hl : e.launch? = some l) (hentry : b.entry e.q e.n = some e) (htwin : twinLaunch e = false)
    (hsaved : l.saved = []) (hplace : 0 < l.toPlace) (hnone : b.holding e.job = []) (hidle : b.allowedIdle e l = [t])
    (hready : b.readyFor l t = true) (hsave : (b.engine t).save = none)
    (hfull : ∀ p, b.wv.cur.queuePart e.q = some p → taut = true → b.runningOn p.num < p.maxInflight)
    (hpart : (b.wv.cur.queuePart e.q).isSome = true) :
    b.tryCandidate x taut e = (b.assign x e taut [t], true) := by
  obtain ⟨p, hp⟩ := Option.isSome_iff_exists.1 hpart
  have hroom : (taut && decide (p.maxInflight ≤ b.runningOn p.num)) = false := by simpa using hfull p hp
  have hprog : b.progSomewhere e l.prog = true :=
    Blk.progSomewhere_of_ready htwin (Blk.mem_allowedIdle (hidle ▸ List.mem_singleton_self t)).1 hready
  have hlaunch : b.launch? e.job = some l := (congrArg (Option.bind · SbEntry.launch?) hentry).trans hl
  have hsaves : b.freeSaves e [t] = b := by simp [Blk.freeSaves, hl, hsaved]
  have hchosen : b.choose e l taut [t] = [t] := Blk.choose_one hplace hsaved hnone hready hsave
  simp [Blk.tryCandidate, hl, hp, hnone, hroom, hprog, htwin, hidle, hready, hsaves, hlaunch, hchosen]

theorem exec_selection {s : State} {r : List SbEntry} {c : Blk} (hrun : s.blk.running = true) (hcands : s.blk.candidates taut = e :: r)
    (htry : s.blk.tryCandidate s.env taut e = (c, true)) :
    exec (if taut then .tautSelection else .slackSelection) s = .next { s with blk := c.pump s.env } := by
  have hselect : s.blk.select s.env taut = c := by simp [Blk.select, hrun, hcands, Blk.selectFrom, htry]
  cases taut <;> exact congrArg (fun c : Blk => Host.Outcome.next { s with blk := c.pump s.env }) hselect

end

/-- Settles O18: the first candidate passes each test of `Blk.tryCandidate`, and its one engine is given its one range of tiles. -/
theorem selectionAssigns : Obligations.SelectionAssigns := by
  intro s taut e r l t b hrun hcands hl hentry hstart htwin hltwin hsaved hrange hnone hidle hready hsave hfull hpart
  have hplace : 0 < l.toPlace := Blk.candidates_toPlace (hcands ▸ List.mem_cons_self) hl hltwin
  have htiles : 0 < l.tiles := by simpa [Launch.toPlace, hrange, hsaved, rangesLen, Range.len] using hplace
  have hdeque : (b.engine t).deque = [] :=
    Blk.idleEng_deque (Blk.mem_allowedIdle (hidle ▸ List.mem_singleton_self t)).2 (Blk.holders_of_holding hnone)
  have hlaunch : b.launch? e.job = some l := (congrArg (Option.bind · SbEntry.launch?) hentry).trans hl
  have hexec := exec_selection hrun hcands
    (Blk.tryCandidate_one s.env hl hentry htwin hsaved hplace hnone hidle hready hsave hfull hpart)
  rw [Blk.assign_one s.env hlaunch hrange htiles hstart hdeque hsave] at hexec
  let c := b.give s.env t e.job l [{ lo := 0, hi := l.tiles }] true
  have hgive : b.WorkAt t c := Blk.workAt_give
  obtain ⟨hwork, hqs, hkn, hsq⟩ := c.launchBegun_spec (taut := taut) (e := e) s.env
  have hstill : (c.launch? e.job).isSome = true := by
    rw [Blk.give_launch? rfl hsave, hlaunch]
    rfl
  obtain ⟨hstarted, hunplaced⟩ := Blk.launchBegun_launch (taut := taut) s.env hstill
  refine ⟨_, hexec, ?_, fun j hj => ?_, hstarted, hunplaced, hgive.engineWork.trans hwork, hqs.trans hgive.qs, hkn.trans hgive.kn,
    hsq.trans hgive.sq⟩
  · rw [Blk.launchBegun_engine]
    exact Blk.give_deque hdeque
  · rw [Blk.launchBegun_engine]
    exact hgive.2 j hj

end Sys2Proof.Machine

/-! # Preemption, saves and restores -/

namespace Sys2Proof.Machine

/-! ### A preemption request at the engine (09 R236) -/

/-- The request for engine t has come. -/
def Blk.preemptTaken (t : Nat) (b : Blk) : Blk := { b with dsp := { b.dsp with preempts := b.dsp.preempts.erase t } }

section
variable {b : Blk} {t : Nat} {j : Job} {x : Env}

theorem Blk.workAt_returnQueued (j : Job) (t : Nat) (b : Blk) : b.WorkAt t (b.returnQueued j t) :=
  (b.workAt_modEng t _).trans (Blk.workAt_modLaunch _ t j _)
theorem Blk.workAt_jobQueued (x : Env) (t : Nat) (b : Blk) : b.WorkAt t (b.jobQueued x t) := by
  unfold Blk.jobQueued
  split
  · exact (b.workAt_returnQueued _ t).trans (Blk.workAt_modLaunch _ t _ _)
  · exact .refl b t
/-- The engine gives its queued tiles back and keeps its job. -/
theorem Blk.jobQueued_job (x : Env) (t : Nat) (b : Blk) : ((b.jobQueued x t).engine t).job = (b.engine t).job := by
  unfold Blk.jobQueued
  split
  · rw [Blk.lostEngine, Blk.modLaunch_engine, Blk.returnQueued, Blk.modLaunch_engine, Blk.dropQueued, Blk.modEng_engine]
  · rfl
theorem Blk.preemptAt_running (x : Env) (hstop : (b.engine t).stop = none) (hjob : (b.engine t).job.isSome = true)
    (hended : (b.engine t).ended = false) (hst : (b.engine t).st ≠ .saving) :
    b.preemptAt x t = ((b.preemptTaken t).jobQueued x t).modEng t (·.enter x .saving) := by
  have heng : (b.preemptTaken t).engine t = b.engine t := rfl
  simp only [Blk.preemptTaken] at heng ⊢
  simp [Blk.preemptAt, heng, hstop, hjob, hended, hst]
theorem exec_preemptRequest {s : State} {e : EngineId} (hrun : s.blk.running = true) (hreq : e.val ∈ s.blk.dsp.preempts) :
    exec (.preemptRequest e) s = .next { s with blk := s.blk.preemptAt s.env e } := by
  simp [exec, execPreemptRequest, State.onBlk, hrun, hreq]

/-! ### The save is written (03 R102, R103) -/

theorem pendImages_eq (step : Nat) (l : List PendW) (b : Blk) :
    (pendImages step l b).1 = { b with freeCtr := (pendImages step l b).1.freeCtr } := by
  refine List.foldlRecOn l _ (motive := fun y : Blk × List W8 => y.1 = { b with freeCtr := y.1.freeCtr }) rfl fun y hy w _ => ?_
  simp only [pendImage, Blk.drawFree]
  rw [hy]
/-- Its bytes go to the save area, with draws of free values. -/
theorem Blk.writeSave_eq (e : Nat) (sv : SaveArea) (b : Blk) : b.writeSave e sv
    = { b with freeCtr := (b.writeSave e sv).freeCtr, mem := { b.mem with saves := (b.writeSave e sv).mem.saves } } := by
  unfold Blk.writeSave
  split
  · rfl
  · have himage : (b.saveImage sv).1 = { b with freeCtr := (b.saveImage sv).1.freeCtr } := pendImages_eq _ _ b
    dsimp only
    rw [himage]
theorem Blk.workAt_writeSave (e : Nat) (sv : SaveArea) (b : Blk) : b.WorkAt e (b.writeSave e sv) := by
  rw [Blk.writeSave_eq]
  exact ⟨rfl, fun _ _ => rfl⟩
theorem Blk.writeSave_engine (e : Nat) (sv : SaveArea) (b : Blk) (i : Nat) : (b.writeSave e sv).engine i = b.engine i := by
  rw [Blk.writeSave_eq]
  rfl

/-- The saved tile's launch waits for engines again, with the tile's figures. -/
def Launch.savedAt (now : W64) (t : Nat) (v : Eng) (l : Launch) : Launch :=
  { l with saved := l.saved ++ [(t, v.tile)], waitFrom := some now
           busy := SMap.set 0 l.busy t (SMap.get 0 l.busy t + v.busy), stall := SMap.set 0 l.stall t (SMap.get 0 l.stall t + v.stall) }
/-- The engine without the tile it has saved. -/
def Eng.afterSave (x : Env) (st : EngState) (v : Eng) : Eng :=
  ({ v.dropTile with preempt := false, busy := 0, stall := 0, lastJob := none } : Eng).enter x st
theorem Eng.afterSave_spec (x : Env) (st : EngState) (v : Eng) : (v.afterSave x st).tasks = (none, v.deque, v.save)
    ∧ (v.afterSave x st).preempt = false := by
  rw [Eng.afterSave, Eng.enter_eq]
  exact ⟨rfl, rfl⟩

/-- The save is written, and the engine has let its tile go. -/
theorem Blk.saveDone_spec (hjob : (b.engine t).job = some j) (hret : b.retired j = false) (x : Env) :
    ∃ d, ((b.saveDone x t).engine t).save = some ((b.engine t).saveOf d j) ∧ ((b.saveDone x t).engine t).job = none
      ∧ ((b.saveDone x t).engine t).preempt = false ∧ b.WorkAt t (b.saveDone x t) := by
  let d := b.tileEv x t 2 j (b.engine t).tile
  let sv := (b.engine t).saveOf d j
  let f := ((d.modEng t fun v => { v with save := some sv }).writeSave t sv).modLaunch j (Launch.savedAt x.now t (b.engine t))
  let g := (f.modEng t (Eng.afterSave x (f.restState t))).bump (evEng t 0x18) 1
  have hdone : b.saveDone x t = g.unwait t none := by
    simp only [Blk.saveDone, hjob, hret, Bool.false_eq_true, if_false]
    rfl
  have hwork : b.WorkAt t g :=
    (((((b.engOnly_tileEv x t 2 j _).workAt.trans (d.workAt_modEng t _)).trans (Blk.workAt_writeSave t sv _)).trans
      (Blk.workAt_modLaunch _ t j _)).trans (f.workAt_modEng t _)).trans (Blk.workAt_bump _ t _ _)
  have hsave : (f.engine t).save = some sv := by
    rw [Blk.modLaunch_engine, Blk.writeSave_engine, Blk.modEng_engine]
  obtain ⟨htasks, hpreempt⟩ := (f.engine t).afterSave_spec x (f.restState t)
  have hgeng : g.engine t = (f.engine t).afterSave x (f.restState t) := f.modEng_engine t _
  obtain ⟨_, _, _, hunwait⟩ := g.unwait_engine t none
  rw [hsave] at htasks
  simp only [Eng.tasks, Prod.mk.injEq] at htasks
  obtain ⟨hnone, -, hkept⟩ := htasks
  rw [hgeng] at hunwait
  rw [hdone, hunwait]
  exact ⟨d, hkept, hnone, hpreempt, hwork.trans (g.engOnly_unwait t none).workAt⟩
theorem exec_saveComplete {s : State} {e : EngineId} (hrun : s.blk.running = true) (hclk : s.blk.clocked e = true)
    (hst : (s.blk.engine e).st = .saving) (hstop : (s.blk.engine e).stop = none) (hfault : (s.blk.engine e).pendFault = none)
    (hidle : (s.blk.engine e).channelsIdle = true) : exec (.saveComplete e) s = .next { s with blk := s.blk.saveDone s.env e } := by
  simp [exec, execSaveComplete, State.onBlk, hrun, hclk, hst, hstop, hfault, hidle]

/-! ### The saved tile goes on (03 R104) -/

/-- The engine with the tile of a save as it was. -/
def Eng.restored (x : Env) (sv : SaveArea) (v : Eng) : Eng :=
  ({ v with
    arch := sv.arch, ptr := sv.ptr, step := sv.step, numeric := sv.numeric, digest := sv.digest, apos := sv.apos, mmFree := sv.mmFree
    job := some sv.job, tile := sv.tile, started := true, ended := false, save := none, restore := false } : Eng).enter x .running
/-- With no draw under way none goes on. -/
theorem Blk.resumeDraws_rests (h : (b.engine t).arch.chan = []) : b.resumeDraws t = b := by
  have hidle : ∀ c, b.issueRow t c = b := fun c => Blk.issueRow_rests (by simp [Eng.chan, h]; rfl)
  exact List.foldlRecOn _ _ (motive := (· = b)) rfl fun c hc i _ => by rw [hc, hidle]
theorem Blk.restoreDone_spec {sv : SaveArea} (hsave : (b.engine t).save = some sv)
    (hepoch : (SMap.get 0 b.wv.roleE t).toNat ≤ sv.epoch.toNat) (hret : b.retired sv.job = false) (hchan : sv.arch.chan = []) (x : Env) :
    b.WorkAt t (b.restoreDone x t) ∧ ∃ tr, (b.restoreDone x t).engine t = { (b.engine t).restored x sv with trace := tr } := by
  let c := b.modEng t (Eng.restored x sv)
  let d := (c.tileEv x t 3 sv.job sv.tile).bump (evEng t 0x19) 1
  obtain ⟨tr, htr⟩ := c.tileEv_engine x t 3 sv.job sv.tile
  rw [b.modEng_engine] at htr
  have hrest : d.resumeDraws t = d := by
    refine Blk.resumeDraws_rests ?_
    rw [Blk.bump_engine, htr, Eng.restored, Eng.enter_eq]
    exact hchan
  have hdone : b.restoreDone x t = d := by
    rw [← hrest]
    simp only [Blk.restoreDone, hsave, Nat.not_lt.2 hepoch, hret, decide_false, Bool.or_self, Bool.false_eq_true, if_false]
    rfl
  rw [hdone]
  exact ⟨((b.workAt_modEng t _).trans (c.engOnly_tileEv x t 3 _ _).workAt).trans (Blk.workAt_bump _ t _ _), tr, htr⟩
theorem exec_restoreComplete {s : State} {e : EngineId} (hrun : s.blk.running = true) (hclk : s.blk.clocked e = true)
    (hrestore : (s.blk.engine e).restore = true) (hdesc : (s.blk.engine e).descWait = false) (hjob : (s.blk.engine e).job = none) :
    exec (.restoreComplete e) s = .next { s with blk := s.blk.restoreDone s.env e } := by
  simp [exec, execRestoreComplete, State.onBlk, hrun, hclk, hrestore, hdesc, hjob]

end

/-- Settles O19: the request stops the tile (`Blk.preemptAt_running`), and the save and the restore are finished as
`Blk.saveDone_spec` and `Blk.restoreDone_spec` say. -/
theorem preemptSaveRestore : Obligations.PreemptSaveRestore := by
  intro s e b v
  refine ⟨fun hrun hreq hstop hjob hended hst => ?_, fun j hrun hclk hst hstop hfault hidle hjob hret => ?_,
    fun sv hrun hclk hrestore hdesc hjob hsave hepoch hret hchan => ?_⟩
  · have hexec := exec_preemptRequest hrun hreq
    rw [Blk.preemptAt_running s.env hstop hjob hended hst] at hexec
    have hqueued := (b.preemptTaken e).workAt_jobQueued s.env e
    have hwork := hqueued.trans (Blk.workAt_modEng _ e (·.enter s.env .saving))
    refine ⟨_, hexec, ?_, ?_, Blk.EngineWork.trans (c := b.preemptTaken e) rfl hwork.engineWork, ?_, hwork.qs, hwork.kn, hwork.2⟩
    · rw [Blk.modEng_engine, Eng.enter_eq]
    · rw [Blk.modEng_engine, Eng.enter_eq]
      exact (b.preemptTaken e).jobQueued_job s.env e
    · rw [hwork.dsp]
      rfl
  · obtain ⟨d, hkept, hnone, hpreempt, hwork⟩ := Blk.saveDone_spec hjob hret s.env
    exact ⟨_, _, exec_saveComplete hrun hclk hst hstop hfault hidle, hkept, rfl, rfl, rfl, rfl, rfl, rfl, rfl, hnone, hpreempt,
      hwork.engineWork, hwork.qs, hwork.kn, hwork.2⟩
  · obtain ⟨hwork, tr, heng⟩ := Blk.restoreDone_spec hsave hepoch hret hchan s.env
    rw [Eng.restored, Eng.enter_eq] at heng
    refine ⟨_, exec_restoreComplete hrun hclk hrestore hdesc hjob, ?_⟩
    rw [heng]
    exact ⟨rfl, rfl, rfl, rfl, rfl, rfl, rfl, rfl, hwork.engineWork, hwork.qs, hwork.kn, hwork.2⟩

end Sys2Proof.Machine

/-! # Quantum, stealing, standing runs

What the dispatcher's own events do. -/

namespace Sys2Proof.Machine

section
variable {b : Blk} {t : Nat} {x : Env}

/-! ### A quantum has passed (09 R235) -/

theorem Blk.preempt_spec (t : Nat) (b : Blk) : (b.preempt t).engine t = { b.engine t with preempt := true }
    ∧ (b.preempt t).dsp.preempts = b.dsp.preempts ++ [t] ∧ (∀ j, j ≠ t → (b.preempt t).engine j = b.engine j)
    ∧ b.EngineWork (b.preempt t) ∧ (b.preempt t).sb = b.sb ∧ (b.preempt t).qs = b.qs ∧ (b.preempt t).kn = b.kn :=
  let mark : Eng → Eng := fun v => { v with preempt := true }
  ⟨b.modEng_engine t mark, rfl, fun _ hj => b.modEng_engine_ne mark hj, rfl, rfl, rfl, rfl⟩
/-- A launch that has waited a quantum may take the engines of its priority that have run as long. -/
theorem Blk.quantumVictims_waited {f : SbEntry} {l : Launch} {w : W64} (hl : f.launch? = some l) (hwait : l.waitFrom = some w)
    (hq : (b.partCtl (b.partNum f.q)).quantum.toNat ≠ 0)
    (hlong : 1000 * (b.partCtl (b.partNum f.q)).quantum.toNat ≤ (x.now - w).toNat)
    (hmarked : ((b.launchEngines f.q).filter fun t => (b.engine t).preempt).length < l.toPlace) :
    b.quantumVictims x f = b.preemptees f.q fun t p => p == b.levelOf f.q
      && decide (1000 * (b.partCtl (b.partNum f.q)).quantum.toNat ≤ (x.now - (b.engine t).runFrom).toNat) && !((b.engine t).holds f.job) := by
  simp only [Blk.quantumVictims, hl, hwait]
  refine if_pos ?_
  simp only [Option.any_some, Bool.and_eq_true, decide_eq_true_eq]
  exact ⟨⟨Nat.mul_ne_zero (by decide) hq, hlong⟩, hmarked⟩
theorem exec_quantumExpiry {s : State} {f : SbEntry} {r : List Nat} (hrun : s.blk.running = true) (hcands : s.blk.candidates false = [f])
    (hvictims : s.blk.quantumVictims s.env f = t :: r) : exec .quantumExpiry s = .next { s with blk := s.blk.preempt t } := by
  simp [exec, execQuantumExpiry, State.onBlk, hrun, Blk.quantum, hcands, hvictims]

/-! ### A steal (R232, R234) -/

/-- The upper half of one range of tiles is taken. -/
theorem takeHigh_half {lo n : Nat} (h : 1 ≤ n) : takeHigh ((n + 1) / 2) [{ lo := lo, hi := lo + n }]
    = ([{ lo := lo + (n - (n + 1) / 2), hi := lo + n }], if n = 1 then [] else [{ lo := lo, hi := lo + (n - (n + 1) / 2) }]) := by
  have hlen : ({ lo := lo, hi := lo + n } : Range).len = n := Nat.add_sub_cancel_left lo n
  rcases Nat.eq_or_lt_of_le h with rfl | hmore
  · simp [takeHigh, takeTiles, rangesLen, hlen]
  · have hkeep : n - (n + 1) / 2 ≠ 0 := by omega
    have hless : n - (n + 1) / 2 < n := by omega
    simp [takeHigh, takeTiles, rangesLen, hlen, hkeep, hless, Nat.ne_of_gt hmore]
/-- Grant y is on its way, and its victim keeps the tiles d. -/
def Blk.granted (y : Steal) (d : List (Job × Range)) (b : Blk) : Blk :=
  let c := b.modEng y.victim fun v => { v with deque := d }
  ({ c with dsp := { c.dsp with steals := c.dsp.steals ++ [y] } } : Blk).bump (evEng y.victim 0x17) 1
theorem Blk.granted_spec (y : Steal) (d : List (Job × Range)) (b : Blk) : let c := b.granted y d
    (c.engine y.victim).deque = d ∧ c.dsp.steals = b.dsp.steals ++ [y] ∧ (∀ i, i ≠ y.victim → c.engine i = b.engine i)
      ∧ b.EngineWork c ∧ c.sb = b.sb ∧ c.qs = b.qs ∧ c.kn = b.kn :=
  let keep : Eng → Eng := fun v => { v with deque := d }
  ⟨congrArg Eng.deque (b.modEng_engine y.victim keep), rfl, fun _ hi => b.modEng_engine_ne keep hi, rfl, rfl, rfl, rfl⟩
/-- The victim v keeps the lower half of its one range, and a grant of the upper half is on its way to engine t. -/
theorem Blk.steal_one {v lo n : Nat} {j : Job} (hvictim : b.victim t = some v)
    (hdeque : (b.engine v).deque = [(j, { lo := lo, hi := lo + n })]) (hn : 1 ≤ n) : b.steal t = b.granted
      { thief := t, victim := v, epoch := b.wv.epoch, tiles := [(j, { lo := lo + (n - (n + 1) / 2), hi := lo + n })] }
      (if n = 1 then [] else [(j, { lo := lo, hi := lo + (n - (n + 1) / 2) })]) := by
  have hlen : rangesLen [({ lo := lo, hi := lo + n } : Range)] = n := Nat.add_sub_cancel_left lo n
  simp only [Blk.steal, hvictim, hdeque, List.head?_cons, List.filter_cons, List.filter_nil, beq_self_eq_true, bne_self_eq_false, if_true,
    Bool.false_eq_true, if_false, List.map_cons, List.map_nil, List.append_nil, hlen, takeHigh_half hn]
  split <;> rfl
theorem exec_stealRequest {s : State} {e : EngineId} {v : Nat} (hrun : s.blk.running = true) (hmay : s.blk.maySteal e = true)
    (hvictim : s.blk.victim e = some v) : exec (.stealRequest e) s = .next { s with blk := (s.blk.steal e).pump s.env } := by
  simp [exec, execStealRequest, State.onWork, State.onBlk, hrun, hmay, hvictim]

/-- The grant y has come. -/
def Blk.stealTaken (y : Steal) (b : Blk) : Blk := { b with dsp := { b.dsp with steals := b.dsp.steals.erase y } }
/-- A grant that no weave has made stale is dealt to the thief. -/
theorem Blk.stolen_fresh {y : Steal} {j : Job} {r : Range} {l : Launch} (htiles : y.tiles = [(j, r)]) (hl : b.launch? j = some l)
    (hret : b.retired j = false) (hthief : (SMap.get 0 b.wv.roleE y.thief).toNat ≤ y.epoch.toNat)
    (hvictim : (SMap.get 0 b.wv.roleE y.victim).toNat ≤ y.epoch.toNat) (x : Env) :
    b.stolen x y = (((b.stealTaken y).give x y.thief j l [r] false).tileEv x y.thief 4 j r.lo).bump (evEng y.thief 0x16) 1 := by
  have hl' : (b.stealTaken y).launch? j = some l := hl
  have hret' : (b.stealTaken y).retired j = false := hret
  have hold : (decide (y.epoch.toNat < (SMap.get 0 b.wv.roleE y.thief).toNat)
      || decide (y.epoch.toNat < (SMap.get 0 b.wv.roleE y.victim).toNat)) = false := by
    rw [decide_eq_false (Nat.not_lt.2 hthief), decide_eq_false (Nat.not_lt.2 hvictim), Bool.or_self]
  simp only [Blk.stealTaken] at hl' hret' ⊢
  simp only [Blk.stolen, htiles, hl', hret', hold, Bool.false_eq_true, if_false]
  rfl
theorem exec_stealComplete {s : State} {e : EngineId} {y : Steal} (hrun : s.blk.running = true)
    (hfind : (s.blk.dsp.steals.find? fun t => t.thief == e.val) = some y) :
    exec (.stealComplete e) s = .next { s with blk := (s.blk.stolen s.env y).pump s.env } := by
  simp [exec, execStealComplete, State.onWork, State.onBlk, hrun, hfind]

/-! ### A standing run is sent (R240) -/

/-- The standing launch while its run of sequence k is under way. -/
def Standing.underWay (k : Nat) (tw : Option Twin) (b : Blk) (st : Standing) : Standing :=
  { st with waiting := none, running := some k, stretched := st.stretched || b.pwr.clock != .full, epoch := b.wv.epoch
            l := { st.l with twin := tw } }
/-- The twin state that a run of the standing launch begins with (R242). -/
def Standing.newTwin (st : Standing) : Option Twin := st.twinRec.map fun i => { pairIx := i }
/-- The trigger of the run is taken, the run counted for the queue's owner (07 R177). -/
def Blk.runStarted (st : Standing) (k : Nat) (b : Blk) : Blk :=
  let w := (b.wv.cur.owner st.q).getD 0
  (((b.modStand st.q st.n (Standing.underWay k st.newTwin b)).unwake true st.q st.n).jobsLaunched w).modStand st.q st.n fun s => { s with seat := w }

variable {st : Standing} {k : Nat}

theorem Blk.runStarted_work (st : Standing) (k : Nat) (b : Blk) : b.EngineWork (b.runStarted st k)
    ∧ (∀ i, (b.runStarted st k).engine i = b.engine i) ∧ (b.runStarted st k).qs = b.qs
    ∧ (b.runStarted st k).kn.tab = b.kn.tab ∧ (b.runStarted st k).kn.waiters = b.kn.waiters :=
  ⟨rfl, fun _ => rfl, rfl, rfl, rfl⟩
theorem Blk.runStarted_running (hst : b.findStand st.q st.n = some st) :
    ((b.runStarted st k).findStand st.q st.n).map (·.running) = some (some k) := by
  let f := Standing.underWay k st.newTwin b
  have hran : (b.modStand st.q st.n f).findStand st.q st.n = some (f st) := by
    rw [Blk.modStand_findStand (f := f) fun _ => ⟨rfl, rfl⟩, hst]
    rfl
  rw [Blk.runStarted, Blk.modStand_findStand (f := fun s => { s with seat := (b.wv.cur.owner st.q).getD 0 }) fun _ => ⟨rfl, rfl⟩,
    Option.map_map]
  exact congrArg (Option.map (·.running)) hran
/-- The run of a standing launch whose engine can take it is one tile on its deque. -/
theorem Blk.sendRun_ready (hst : b.findStand st.q st.n = some st) (hwait : st.waiting = some k) (hret : b.retired st.job = false)
    (hrun : st.running = none) (hunbind : st.unbind = false) (heng : st.engines b.wv.cur = [t]) (hready : b.runReady t = true) (x : Env) :
    b.sendRun x st.q st.n = (b.runStarted st k).give x t st.job st.l [{ lo := 0, hi := 1 }] true := by
  simp only [Blk.sendRun, hst, hwait, hret, hrun, hunbind, heng, hready, Option.isSome_none, Bool.or_self, Bool.false_eq_true, if_false,
    List.all_cons, List.all_nil, Bool.and_self, if_true, List.foldl_cons, List.foldl_nil]
  rfl
theorem Blk.runReady_deque (h : b.runReady t = true) : (b.engine t).deque = [] := by
  simp only [Blk.runReady, Bool.and_eq_true, List.isEmpty_iff] at h
  tauto
theorem exec_standingRunSend {s : State} {e : EngineId} (hrun : s.blk.running = true) (hon : s.blk.standOn e = some st)
    (hturn : (∀ y ∈ s.blk.kn.wakes, y.is true st.q st.n = false) ∨ (s.blk.nextWake.any fun y => y.is true st.q st.n) = true) :
    exec (.standingRunSend e) s = .next { s with blk := (s.blk.sendRun s.env st.q st.n).pump s.env } := by
  have hgoes : ((s.blk.kn.wakes.any fun w => w.is true st.q st.n) && !s.blk.nextWake.any fun w => w.is true st.q st.n) = false := by
    rcases hturn with hnone | hnext
    · rw [List.any_eq_false.2 fun y hy => by rw [hnone y hy]; exact Bool.false_ne_true, Bool.false_and]
    · rw [hnext, Bool.not_true, Bool.and_false]
  simp [exec, execStandingRunSend, State.onWork, State.onBlk, hrun, hon, hgoes]

end

/-! ### The statement -/

/-- Settles O20: each event is the operation of its section above; the load figures are those of `Blk.loadUpdate`. -/
theorem dispatcherEvents : Obligations.DispatcherEvents := by
  intro s e b
  refine ⟨?_, ?_, ?_, ?_, ?_⟩
  · intro f l w t r q hrun hcands hl hwait hq hlong hmarked hvictims
    exact ⟨_, exec_quantumExpiry hrun hcands ((Blk.quantumVictims_waited hl hwait hq hlong hmarked).trans hvictims), b.preempt_spec t⟩
  · intro v j lo n hrun hmay hvictim hdeque hn
    have hexec := exec_stealRequest hrun hmay hvictim
    rw [Blk.steal_one hvictim hdeque hn] at hexec
    exact ⟨_, hexec, b.granted_spec _ _⟩
  · intro y j r l hrun hfind htiles hdeque hl hret hthief hvictim
    have hexec := exec_stealComplete hrun hfind
    have hmine : y.thief = e.val := by simpa using List.find?_some hfind
    rw [Blk.stolen_fresh htiles hl hret hthief hvictim, hmine] at hexec
    let c := (b.stealTaken y).give s.env e j l [r] false
    have hgive : (b.stealTaken y).WorkAt e c := Blk.workAt_give
    have hwork := (hgive.trans (c.engOnly_tileEv s.env e 4 j r.lo).workAt).trans (Blk.workAt_bump _ e (evEng e 0x16) 1)
    obtain ⟨tr, htr⟩ := c.tileEv_engine s.env e 4 j r.lo
    refine ⟨_, hexec, ?_, ?_, hwork.2, Blk.EngineWork.trans (c := b.stealTaken y) rfl hwork.engineWork, hwork.qs, hwork.kn⟩
    · rw [Blk.bump_engine, htr]
      exact Blk.give_deque hdeque
    · rw [hwork.dsp]
      rfl
  · intro st k w hrun hon hst hwait hidle hunbind hret heng hready hturn
    have hexec := exec_standingRunSend hrun hon hturn
    rw [Blk.sendRun_ready hst hwait hret hidle hunbind heng hready] at hexec
    let c := b.runStarted st k
    let d := c.give s.env e st.job st.l [{ lo := 0, hi := 1 }] true
    obtain ⟨hstarted, hsame, hqs, htab, hwaiters⟩ := b.runStarted_work st k
    have hgive : c.WorkAt e d := Blk.workAt_give
    have hrunning : (d.findStand st.q st.n).map (·.running) = some (some k) :=
      (Blk.give_running st.q st.n).trans (Blk.runStarted_running hst)
    refine ⟨d, hexec, ?_, ?_, ?_, fun i hi => (hgive.2 i hi).trans (hsame i), hstarted.trans hgive.engineWork, hgive.qs.trans hqs, ?_, ?_⟩
    · exact Blk.give_deque ((congrArg Eng.deque (hsame e)).trans (Blk.runReady_deque hready))
    · obtain ⟨z, hz, hzk⟩ := Option.map_eq_some_iff.1 hrunning
      rw [hz]
      exact hzk
    · rw [Blk.seat_congr hgive.host]
      exact congrArg SeatRegs.launched (Blk.jobsLaunched_seat _ w)
    · rw [hgive.kn]
      exact htab
    · rw [hgive.kn]
      exact hwaiters
  · intro hup past slack
    simp only [exec, execLoadUpdate, State.onBlk, show s.blk.up = true from hup, if_true]
    rfl

end Sys2Proof.Machine

/-! # What a home does with a line

A home's steps reach the data, the directory entry and the BUSY mark of one line, with what it counts (`Blk.HomeWork`). Where
nothing waits for the line, a step whose request is over clears the mark (`afterLine_over`), and one whose requester has yet to
answer leaves it (`afterLine_waits`). -/

namespace Sys2Proof.Machine

/-! ### The frame -/

section
variable {b c d : Blk} {n : Nat}

theorem Blk.HomeOnly.trans (h : b.HomeOnly c) (k : c.HomeOnly d) : b.HomeOnly d := by
  unfold Blk.HomeOnly at *
  rw [h] at k
  exact k
theorem Blk.HomeWork.trans (h : b.HomeWork n c) (k : c.HomeWork n d) : b.HomeWork n d := by
  obtain ⟨hc, hline⟩ := h
  obtain ⟨hd, hline'⟩ := k
  refine ⟨hc.trans hd, fun j hj => ?_⟩
  obtain ⟨hrc, hdir⟩ := hline j hj
  obtain ⟨hrc', hdir'⟩ := hline' j hj
  exact ⟨hrc'.trans hrc, hdir'.trans hdir⟩
theorem Blk.homeWork_arrived (m : Instr) : b.HomeWork n (b.arrived m) := ⟨rfl, fun _ _ => ⟨rfl, rfl⟩⟩
theorem Blk.HomeWork.send {m : Instr} (h : b.HomeWork n c) : b.HomeWork n (c.send m) := h.trans ⟨rfl, fun _ _ => ⟨rfl, rfl⟩⟩
theorem Blk.HomeWork.supply {req : HomeReq} {x : Line} {excl : Bool} (h : b.HomeWork n c) : b.HomeWork n (c.supply n req x excl) := h.send
theorem Blk.HomeWork.setBusy {v : Option Busy} (h : b.HomeWork n c) : b.HomeWork n (c.setBusy n v) :=
  h.trans ⟨rfl, fun _ _ => ⟨rfl, rfl⟩⟩
theorem Blk.HomeWork.predict {agents : Bool} (h : b.HomeWork n c) : b.HomeWork n (c.predict n agents) :=
  h.trans ⟨rfl, fun _ _ => ⟨rfl, rfl⟩⟩
theorem Blk.HomeWork.clearPoison (h : b.HomeWork n c) : b.HomeWork n (c.clearPoison n) := h.trans ⟨rfl, fun _ _ => ⟨rfl, rfl⟩⟩
theorem Blk.HomeWork.bump {key k : Nat} (h : b.HomeWork n c) : b.HomeWork n (c.bump key k) := h.trans ⟨rfl, fun _ _ => ⟨rfl, rfl⟩⟩
theorem Blk.HomeWork.near (h : b.HomeWork n c) : b.HomeWork n { c with mem := { c.mem with cohNear := satInc c.mem.cohNear } } :=
  h.trans ⟨rfl, fun _ _ => ⟨rfl, rfl⟩⟩
theorem Blk.HomeWork.putRc {l : RcLine} (h : b.HomeWork n c) : b.HomeWork n (c.putRc n l) :=
  h.trans ⟨rfl, fun _ hj => ⟨PMap.find_put_ne _ _ hj, rfl⟩⟩
theorem Blk.HomeWork.setDir {e : Option DirEnt} (h : b.HomeWork n c) : b.HomeWork n (c.setDir n e) := by
  refine h.trans ?_
  cases e with
  | none => exact ⟨rfl, fun _ hj => ⟨rfl, PMap.find_del_ne _ hj⟩⟩
  | some e => exact ⟨rfl, fun _ hj => ⟨rfl, PMap.find_put_ne _ _ hj⟩⟩
theorem Blk.HomeWork.addPresence {a : Nat} {own : Bool} (h : b.HomeWork n c) : b.HomeWork n (c.addPresence n a own) :=
  h.setDir (e := some _)
theorem Blk.HomeWork.delPresence {a : Nat} (h : b.HomeWork n c) : b.HomeWork n (c.delPresence n a) := by
  unfold Blk.delPresence
  split
  · exact h
  · exact h.setDir
theorem Blk.HomeWork.freeEntry (h : b.HomeWork n c) : b.HomeWork n (c.freeEntry n) := by
  unfold Blk.freeEntry
  split
  · exact h
  · exact h.setDir

/-! ### Directory entries and lines read after they are written (10 R260) -/

@[simp] theorem lineNo_toNat (l : LineNo) : lineNo l.toNat = l := by simp [lineNo]
@[simp] theorem Blk.setDir_dirEnt (n : Nat) (e : Option DirEnt) :
    (b.setDir n e).dirEnt n = e.map fun e => { e with used := b.mem.clock } := by
  cases e with
  | none => exact PMap.find_del_self _ _
  | some e => exact PMap.find_put_self _ _ _
@[simp] theorem Blk.putRc_rcLine (n : Nat) (l : RcLine) : (b.putRc n l).rcLine n = some { l with used := b.mem.clock } :=
  PMap.find_put_self _ _ _
@[simp] theorem Blk.addPresence_dirEnt (n a : Nat) (own : Bool) : let e := (b.dirEnt n).getD { isX := false, pres := 0, used := 0 }
    (b.addPresence n a own).dirEnt n = some { isX := e.isX || own, pres := setBit e.pres a true, used := b.mem.clock } :=
  Blk.setDir_dirEnt _ _

@[simp] theorem Blk.arrived_dirEnt (m : Instr) : (b.arrived m).dirEnt n = b.dirEnt n := rfl
@[simp] theorem Blk.putRc_dirEnt (k : Nat) (l : RcLine) : (b.putRc k l).dirEnt n = b.dirEnt n := rfl
@[simp] theorem Blk.clearPoison_dirEnt (k : Nat) : (b.clearPoison k).dirEnt n = b.dirEnt n := rfl
@[simp] theorem Blk.supply_dirEnt (k : Nat) (req : HomeReq) (x : Line) (excl : Bool) :
    (b.supply k req x excl).dirEnt n = b.dirEnt n := rfl
@[simp] theorem Blk.send_dirEnt (m : Instr) : (b.send m).dirEnt n = b.dirEnt n := rfl
@[simp] theorem Blk.setBusy_dirEnt (k : Nat) (v : Option Busy) : (b.setBusy k v).dirEnt n = b.dirEnt n := rfl
@[simp] theorem Blk.setBusy_rcLine (k : Nat) (v : Option Busy) : (b.setBusy k v).rcLine n = b.rcLine n := rfl
@[simp] theorem Blk.setBusy_some_busy (v : Busy) : PMap.find n (b.setBusy n (some v)).mem.busy = some v := PMap.find_put_self _ _ _
@[simp] theorem Blk.setBusy_none_busy : PMap.find n (b.setBusy n none).mem.busy = none := PMap.find_del_self _ _

/-! ### The ring (10 R262) -/

@[simp] theorem Blk.arrived_ring (m : Instr) : (b.arrived m).mem.ring = b.mem.ring.erase m := rfl
@[simp] theorem Blk.setBusy_ring (v : Option Busy) : (b.setBusy n v).mem.ring = b.mem.ring := rfl
@[simp] theorem Blk.setDir_ring (e : Option DirEnt) : (b.setDir n e).mem.ring = b.mem.ring := rfl
@[simp] theorem Blk.putRc_ring (l : RcLine) : (b.putRc n l).mem.ring = b.mem.ring := rfl
@[simp] theorem Blk.addPresence_ring (a : Nat) (own : Bool) : (b.addPresence n a own).mem.ring = b.mem.ring := rfl
@[simp] theorem Blk.supply_ring (req : HomeReq) (x : Line) (excl : Bool) :
    (b.supply n req x excl).mem.ring = b.mem.ring ++ [.data none req.rq (lineNo n) x excl] := rfl

/-! ### The BUSY mark (10 R264) -/

/-- No request waits for line n, and none for room in a directory set. -/
def Blk.NoneWaits (b : Blk) (n : Nat) : Prop := (∀ w ∈ b.mem.waitQ, w.1 ≠ n) ∧ ∀ w ∈ b.mem.busy, w.2.wait ≠ .room

theorem Blk.NoneWaits.congr (h : b.NoneWaits n) (hq : c.mem.waitQ = b.mem.waitQ) (hb : c.mem.busy = b.mem.busy) : c.NoneWaits n := by
  unfold Blk.NoneWaits
  rw [hq, hb]
  exact h
theorem Blk.dirRetry_none (x : Env) (h : ∀ w ∈ b.mem.busy, w.2.wait ≠ .room) : b.dirRetry x n = b := by
  have hfind : (b.mem.busy.find? fun v => v.2.wait == .room && sameDirSet v.1 n) = none :=
    List.find?_eq_none.2 fun w hw => by simp [h w hw]
  unfold Blk.dirRetry
  rw [hfind]
theorem Blk.isBusy_false (h : b.isBusy n = false) :
    PMap.find n b.mem.busy = none ∧ ∀ w ∈ b.mem.busy, w.2.recalls n = false := by
  simpa [Blk.isBusy] using h
/-- The line whose mark is cleared is not BUSY, unless it is recalled. -/
theorem Blk.setBusy_isBusy (h : ∀ w ∈ b.mem.busy, w.2.recalls n = false) : (b.setBusy n none).isBusy n = false := by
  have hrecalls : ∀ w ∈ PMap.del n b.mem.busy, w.2.recalls n = false := fun w hw => h w (PMap.mem_del hw)
  simpa [Blk.isBusy, Blk.setBusy] using hrecalls
/-- Nothing waits for a request whose last message has come: the mark is cleared. -/
theorem afterLine_over (x : Env) {y : HomeStep} (h : y.1.NoneWaits n) (hover : y.2.over = true) :
    afterLine x n y = y.1.setBusy n none := by
  obtain ⟨hq, hroom⟩ := h
  have hwait : y.2.wait = .none := by
    simp only [Busy.over, Bool.and_eq_true, beq_iff_eq] at hover
    exact hover.2
  have hgo : Blk.goOn x n y = y := by simp [Blk.goOn, hwait]
  have hnext : ((y.1.setBusy n none).mem.waitQ.find? fun w => w.1 == n) = none :=
    List.find?_eq_none.2 fun w hw => by simpa using hq w hw
  have hline : Blk.settleLine x n settleMax y = y.1.setBusy n none := by
    rw [settleMax, Blk.settleLine]
    dsimp only
    rw [hgo, hover, hnext]
    simp
  rw [afterLine, hline]
  exact Blk.dirRetry_none x fun w hw => hroom w (PMap.mem_del hw)
/-- A request that still waits, and not for InvAcks that have all come, leaves its line BUSY. -/
theorem afterLine_waits (x : Env) {y : HomeStep} (h : y.1.NoneWaits n) (hgrant : y.2.wait ≠ .grant) (hwaits : y.2.over = false)
    (hroom : y.2.wait ≠ .room) : afterLine x n y = y.1.setBusy n (some y.2) := by
  have hgo : Blk.goOn x n y = y := by simp [Blk.goOn, hgrant]
  have hline : Blk.settleLine x n settleMax y = y.1.setBusy n (some y.2) := by
    rw [settleMax, Blk.settleLine]
    dsimp only
    rw [hgo, hwaits]
    simp
  rw [afterLine, hline]
  refine Blk.dirRetry_none x fun w hw => ?_
  rcases PMap.mem_put hw with heq | hw
  · rw [heq]
    exact hroom
  · exact h.2 w hw

end

/-! ### Requests taken up (10 R254, R264) -/

section
variable {b c : Blk} {n : Nat} {l : RcLine}

/-- The row of a message that arrives. -/
theorem State.onMessage_arrives {s : State} {ready : Blk → Bool} {m : Instr} (hready : ready s.blk = true)
    (harrive : s.blk.mayArrive m = true) (f : Env → Blk → Blk) :
    s.onMessage ready m f = .next { s with blk := f s.env (s.blk.arrived m) } := by
  simp [State.onMessage, State.onBlk, hready, harrive]
/-- A request that arrives for a line that is not BUSY is taken up at once. -/
theorem State.onMessage_accepts {s : State} {m : Instr} {line : LineNo} (hrun : s.blk.running = true)
    (harrive : s.blk.mayArrive m = true) (hidle : s.blk.isBusy line.toNat = false) (req : HomeReq) :
    s.onMessage Blk.running m (fun x b => b.accept x line req m)
      = .next { s with blk := afterLine s.env line.toNat ((s.blk.arrived m).startReq s.env line.toNat req) } := by
  have hsame : (s.blk.arrived m).isBusy line.toNat = false := hidle
  rw [State.onMessage_arrives hrun harrive]
  simp [Blk.accept, hsame]

/-- The home has found line n in its array. -/
def Blk.hit (n : Nat) (l : RcLine) (b : Blk) : Blk := (b.bump (evBlk 0x0C (homeOf n)) 1).putRc n l
/-- A directory entry of line n in which no agent is marked. -/
def Blk.freshEntry (n : Nat) (b : Blk) : Blk := b.setDir n (some { isX := false, pres := 0, used := 0 })

@[simp] theorem Blk.hit_ring : (b.hit n l).mem.ring = b.mem.ring := rfl
@[simp] theorem Blk.hit_dirEnt (k : Nat) : (b.hit n l).dirEnt k = b.dirEnt k := rfl
@[simp] theorem Blk.freshEntry_ring : (b.freshEntry n).mem.ring = b.mem.ring := rfl
@[simp] theorem Blk.freshEntry_dirEnt : (b.freshEntry n).dirEnt n = some { isX := false, pres := 0, used := b.mem.clock } :=
  b.setDir_dirEnt n (some _)
theorem Blk.HomeWork.freshEntry (h : b.HomeWork n c) : b.HomeWork n (c.freshEntry n) := h.setDir (e := some _)
theorem Blk.HomeWork.hit (h : b.HomeWork n c) : b.HomeWork n (c.hit n l) := h.bump.putRc
theorem Blk.homeRead_hit (x : Env) (v : Busy) (hl : b.rcLine n = some l) (hpoison : l.poison = false) :
    b.homeRead x n v = (b.hit n l).supplyData n v l.data false := by
  unfold Blk.homeRead
  rw [hl]
  dsimp only
  rw [hpoison]
  rfl
theorem Blk.supplyData_rds {v : Busy} {a : AgentId} (h : v.req = .rds a) (x : Line) : b.supplyData n v x false
    = ((b.supply n (.rds a) x (!b.isHeld n)).addPresence n a false, { v with wait := .none, ack := true }) := by
  simp [Blk.supplyData, h]
theorem Blk.supplyData_rdm {v : Busy} (h : v.req = .rdm) (x : Line) : b.supplyData n v x false
    = ((b.supply n .rdm x true).addPresence n 68 true, { v with wait := .none, ack := true }) := by
  simp [Blk.supplyData, h]
theorem Blk.supplyData_rdonce {v : Busy} {rq : Rq} (h : v.req = .rdonce rq) (x : Line) : b.supplyData n v x false
    = (b.supply n (.rdonce rq) x false, { v with wait := .none }) := by
  simp [Blk.supplyData, h]
theorem Blk.startReq_rds (x : Env) (a : AgentId) (hdir : b.dirEnt n = none) (hroom : b.dirRoom n = .free) :
    b.startReq x n (.rds a) = (b.freshEntry n).homeRead x n { req := .rds a } := by
  simp [Blk.startReq, hdir, Blk.readNew, hroom, Blk.freshEntry]
theorem Blk.startReq_rdm (x : Env) (hdir : b.dirEnt n = none) (hroom : b.dirRoom n = .free) :
    b.startReq x n .rdm = (b.freshEntry n).homeRead x n { req := .rdm } := by
  simp [Blk.startReq, hdir, Blk.readNew, hroom, Blk.freshEntry]
theorem Blk.startReq_rdonce (x : Env) (rq : Rq) (hdir : b.dirEnt n = none) :
    b.startReq x n (.rdonce rq) = b.homeRead x n { req := .rdonce rq } := by
  simp [Blk.startReq, hdir]

@[simp] theorem Blk.freshEntry_isHeld : ((b.freshEntry n).hit n l).isHeld n = false := by
  simp [Blk.isHeld]

section
variable (x : Env) (hl : b.rcLine n = some l) (hpoison : l.poison = false) (hdir : b.dirEnt n = none) (hnone : b.NoneWaits n)
include hl hpoison hdir hnone

/-- RdS of a line that no agent holds: the agent gets it exclusively, and its Ack is awaited. -/
theorem Blk.serve_rds (a : AgentId) (hroom : b.dirRoom n = .free) : afterLine x n (b.startReq x n (.rds a))
    = ((((b.freshEntry n).hit n l).supply n (.rds a) l.data true).addPresence n a false).setBusy n (some { req := .rds a, ack := true }) := by
  rw [Blk.startReq_rds x a hdir hroom, Blk.homeRead_hit (b := b.freshEntry n) x _ hl hpoison, Blk.supplyData_rds rfl, Blk.freshEntry_isHeld]
  exact afterLine_waits x (hnone.congr rfl rfl) (by simp) (by simp [Busy.over]) (by simp)
/-- RdM of a line that no agent holds: the window gets it, and its Ack is awaited. -/
theorem Blk.serve_rdm (hroom : b.dirRoom n = .free) : afterLine x n (b.startReq x n .rdm)
    = ((((b.freshEntry n).hit n l).supply n .rdm l.data true).addPresence n 68 true).setBusy n (some { req := .rdm, ack := true }) := by
  rw [Blk.startReq_rdm x hdir hroom, Blk.homeRead_hit (b := b.freshEntry n) x _ hl hpoison, Blk.supplyData_rdm rfl]
  exact afterLine_waits x (hnone.congr rfl rfl) (by simp) (by simp [Busy.over]) (by simp)
/-- RdOnce of a line that no agent holds: its data goes out, and nothing is awaited. -/
theorem Blk.serve_rdonce (rq : Rq) : afterLine x n (b.startReq x n (.rdonce rq))
    = ((b.hit n l).supply n (.rdonce rq) l.data false).setBusy n none := by
  rw [Blk.startReq_rdonce x rq hdir, Blk.homeRead_hit x _ hl hpoison, Blk.supplyData_rdonce rfl]
  exact afterLine_over x (hnone.congr rfl rfl) (by simp [Busy.over])

end

end

/-- Settles O30: the home finds the line, supplies it (`Blk.supplyData`), and waits for the Ack of a reader that keeps a copy. -/
theorem homeReads : Obligations.HomeReads := by
  intro s line l b n hrun hidle hl hpoison hdir hroom hq hbusy
  obtain ⟨-, hrecalls⟩ := Blk.isBusy_false hidle
  have hnone : b.NoneWaits n := ⟨hq, hbusy⟩
  refine ⟨fun a harrive => ?_, fun rq harrive => ?_, fun harrive => ?_⟩
  · let d := b.arrived (.rds a line)
    have hexec : exec (.rds a line) s = _ := State.onMessage_accepts hrun harrive hidle (.rds a)
    rw [Blk.serve_rds (b := d) s.env hl hpoison hdir hnone a hroom] at hexec
    refine ⟨_, hexec, ?_, ?_, ?_, ?_, (Blk.homeWork_arrived _).freshEntry.hit.supply.addPresence.setBusy⟩
    · simp [HomeReq.rq, d, n]
    · simp
    · simp
    · simp
  · let d := b.arrived (.rdonce rq line)
    have hexec : exec (.rdonce rq line) s = _ := State.onMessage_accepts hrun harrive hidle (.rdonce rq)
    rw [Blk.serve_rdonce (b := d) s.env hl hpoison hdir hnone rq] at hexec
    refine ⟨_, hexec, ?_, ?_, ?_, (Blk.homeWork_arrived _).hit.supply.setBusy⟩
    · simp [HomeReq.rq, d, n]
    · simpa [d] using hdir
    · refine Blk.setBusy_isBusy ?_
      exact hrecalls
  · let d := b.arrived (.rdm line)
    have hexec : exec (.rdm line) s = _ := State.onMessage_accepts hrun harrive hidle .rdm
    rw [Blk.serve_rdm (b := d) s.env hl hpoison hdir hnone hroom] at hexec
    refine ⟨_, hexec, ?_, ?_, ?_, ?_, (Blk.homeWork_arrived _).freshEntry.hit.supply.addPresence.setBusy⟩
    · simp [HomeReq.rq, d, n]
    · simp
    · simp
    · simp


/-! ### Writes and near atomics performed (10 R255, R258, R268) -/

section
variable {b c : Blk} {n : Nat} {l : RcLine}

/-- A write that the home has performed on line n of its array, l, and acknowledges. -/
def Blk.wrote (n : Nat) (l : RcLine) (rq : Rq) (d : Line) (mask : W64) (b : Blk) : Blk :=
  (((b.bump (evBlk 0x0C (homeOf n)) 1).setDir n none).putRc n
    { l with data := mergeMask l.data d mask, dirty := true, poison := l.poison && mask != fullMask }).send
    (.cmpMessage rq (lineNo n) 0 0)
/-- A write without a byte: the line is found, and is as it was. -/
def Blk.wroteNone (n : Nat) (l : RcLine) (rq : Rq) (b : Blk) : Blk := ((b.hit n l).setDir n none).send (.cmpMessage rq (lineNo n) 0 0)
/-- A near atomic that the home has performed on line n of its array, l; its old word goes back. -/
def Blk.atomDone (n : Nat) (l : RcLine) (t : AtomReq) (agents : Bool) (b : Blk) : Blk :=
  let y := atomApply t l.data
  let c := (((b.bump (evBlk 0x0C (homeOf n)) 1).setDir n none).putRc n { l with data := y.2, dirty := true }).predict n agents
  ({ c with mem := { c.mem with cohNear := satInc c.mem.cohNear } } : Blk).send (.cmpMessage (.window t.seat) (lineNo n) y.1 0)

theorem Blk.HomeWork.wrote {rq : Rq} {d : Line} {mask : W64} (h : b.HomeWork n c) : b.HomeWork n (c.wrote n l rq d mask) :=
  h.bump.setDir.putRc.send
theorem Blk.HomeWork.wroteNone {rq : Rq} (h : b.HomeWork n c) : b.HomeWork n (c.wroteNone n l rq) := h.hit.setDir.send
theorem Blk.HomeWork.atomDone {t : AtomReq} {agents : Bool} (h : b.HomeWork n c) : b.HomeWork n (c.atomDone n l t agents) :=
  h.bump.setDir.putRc.predict.near.send

@[simp] theorem Blk.wrote_ring (rq : Rq) (d : Line) (mask : W64) :
    (b.wrote n l rq d mask).mem.ring = b.mem.ring ++ [.cmpMessage rq (lineNo n) 0 0] := rfl
@[simp] theorem Blk.wroteNone_ring (rq : Rq) : (b.wroteNone n l rq).mem.ring = b.mem.ring ++ [.cmpMessage rq (lineNo n) 0 0] := rfl
@[simp] theorem Blk.atomDone_ring (t : AtomReq) (agents : Bool) : (b.atomDone n l t agents).mem.ring
    = b.mem.ring ++ [.cmpMessage (.window t.seat) (lineNo n) (atomApply t l.data).1 0] := rfl
@[simp] theorem Blk.wrote_dirEnt (rq : Rq) (d : Line) (mask : W64) : (b.wrote n l rq d mask).dirEnt n = none := PMap.find_del_self _ _
@[simp] theorem Blk.wroteNone_dirEnt (rq : Rq) : (b.wroteNone n l rq).dirEnt n = none := PMap.find_del_self _ _
@[simp] theorem Blk.atomDone_dirEnt (t : AtomReq) (agents : Bool) : (b.atomDone n l t agents).dirEnt n = none := PMap.find_del_self _ _
theorem Blk.wrote_rcLine (rq : Rq) (d : Line) (mask : W64) : ((b.wrote n l rq d mask).rcLine n).map (·.data) = some (mergeMask l.data d mask)
    ∧ ((b.wrote n l rq d mask).rcLine n).map (·.dirty) = some true := by
  have hline : (b.wrote n l rq d mask).rcLine n = some _ := PMap.find_put_self _ _ _
  rw [hline]
  exact ⟨rfl, rfl⟩
theorem Blk.wroteNone_rcLine (rq : Rq) : ((b.wroteNone n l rq).rcLine n).map (·.data) = some l.data
    ∧ ((b.wroteNone n l rq).rcLine n).map (·.dirty) = some l.dirty := by
  have hline : (b.wroteNone n l rq).rcLine n = some _ := PMap.find_put_self _ _ _
  rw [hline]
  exact ⟨rfl, rfl⟩
theorem Blk.atomDone_rcLine (t : AtomReq) (agents : Bool) : ((b.atomDone n l t agents).rcLine n).map (·.data) = some (atomApply t l.data).2
    ∧ ((b.atomDone n l t agents).rcLine n).map (·.dirty) = some true := by
  have hline : (b.atomDone n l t agents).rcLine n = some _ := PMap.find_put_self _ _ _
  rw [hline]
  exact ⟨rfl, rfl⟩

section
variable (x : Env) {v : Busy} (hl : b.rcLine n = some l)
include hl

theorem Blk.performWrite_wr {rq : Rq} {d : Line} {mask : W64} (hreq : v.req = .wr rq d mask) (hmask : mask ≠ 0)
    (hwdata : v.wdata = none) (hpoison : l.poison = false) : b.performWrite x n v = (b.wrote n l rq d mask, v) := by
  have hbyte : mask ≠ 0#64 := hmask
  simp [Blk.performWrite, hl, hwdata, hreq, hbyte, hpoison, Blk.performAt, Blk.wrote]
theorem Blk.performWrite_none {rq : Rq} {d : Line} (hreq : v.req = .wr rq d 0) (hwdata : v.wdata = none) :
    b.performWrite x n v = (b.wroteNone n l rq, v) := by
  simp [Blk.performWrite, hl, hwdata, hreq, Blk.wroteNone, Blk.hit, HomeReq.rq]
theorem Blk.performWrite_atom {t : AtomReq} (hreq : v.req = .atom t) (hwdata : v.wdata = none) (hpoison : l.poison = false) :
    b.performWrite x n v = (b.atomDone n l t v.agents, v) := by
  simp [Blk.performWrite, hl, hwdata, hreq, hpoison, Blk.performAt, Blk.atomDone]

end

theorem Blk.startReq_wr (x : Env) (rq : Rq) (d : Line) (mask : W64) (hdir : b.dirEnt n = none) :
    b.startReq x n (.wr rq d mask) = b.performWrite x n { req := .wr rq d mask } := by
  simp [Blk.startReq, hdir]
theorem Blk.startReq_atom (x : Env) (t : AtomReq) (hdir : b.dirEnt n = none) :
    b.startReq x n (.atom t) = b.performWrite x n { req := .atom t } := by
  simp [Blk.startReq, hdir]

end

/-- Settles O31: the write or atomic is performed at once (`Blk.performWrite`), and its request is over. -/
theorem homeWrites : Obligations.HomeWrites := by
  intro s line l b n hrun hidle hl hpoison hdir hq hbusy
  have hnone : b.NoneWaits n := ⟨hq, hbusy⟩
  refine ⟨fun rq d mask harrive => ?_, fun t harrive => ?_⟩
  · let a := b.arrived (.wr rq line d mask)
    have hexec : exec (.wr rq line d mask) s = _ := State.onMessage_accepts hrun harrive hidle (.wr rq d mask)
    rw [Blk.startReq_wr (b := a) s.env rq d mask hdir] at hexec
    by_cases hmask : mask = 0
    · subst hmask
      rw [Blk.performWrite_none (b := a) s.env hl rfl rfl, afterLine_over s.env (hnone.congr rfl rfl) rfl] at hexec
      refine ⟨_, hexec, fun h => absurd rfl h, fun _ => ?_, ?_, (Blk.homeWork_arrived _).wroteNone.setBusy, ?_⟩
      · simpa only [Blk.setBusy_rcLine] using Blk.wroteNone_rcLine rq
      · simp
      · simp [a, n]
    · rw [Blk.performWrite_wr (b := a) s.env hl rfl hmask rfl hpoison, afterLine_over s.env (hnone.congr rfl rfl) rfl] at hexec
      refine ⟨_, hexec, fun _ => ?_, fun h => absurd h hmask, ?_, (Blk.homeWork_arrived _).wrote.setBusy, ?_⟩
      · simpa only [Blk.setBusy_rcLine] using Blk.wrote_rcLine rq d mask
      · simp
      · simp [a, n]
  · let a := b.arrived (.atom line t)
    have hexec : exec (.atom line t) s = _ := State.onMessage_accepts hrun harrive hidle (.atom t)
    rw [Blk.startReq_atom (b := a) s.env t hdir, Blk.performWrite_atom (b := a) s.env hl rfl rfl hpoison,
      afterLine_over s.env (hnone.congr rfl rfl) rfl] at hexec
    obtain ⟨hdata, hdirty⟩ := Blk.atomDone_rcLine (b := a) (n := n) (l := l) t false
    refine ⟨_, hexec, ?_, ?_, ?_, (Blk.homeWork_arrived _).atomDone.setBusy, ?_, rfl⟩
    · rwa [Blk.setBusy_rcLine]
    · rwa [Blk.setBusy_rcLine]
    · simp
    · simp [a, n]

end Sys2Proof.Machine

/-! # Answers at a home

Each answer takes one message of a request away; the last one clears the line's BUSY mark, as after a request (`afterLine_over`). -/

namespace Sys2Proof.Machine

section
variable {b c : Blk} {n a : Nat} {l : RcLine} {v : Busy} {e f : DirEnt}

/-! ### An agent that leaves the directory (10 R260) -/

@[simp] theorem Blk.delPresence_ring : (b.delPresence n a).mem.ring = b.mem.ring := by unfold Blk.delPresence; split <;> rfl
@[simp] theorem Blk.delPresence_rc : (b.delPresence n a).mem.rc = b.mem.rc := by unfold Blk.delPresence; split <;> rfl
@[simp] theorem Blk.delPresence_busy : (b.delPresence n a).mem.busy = b.mem.busy := by unfold Blk.delPresence; split <;> rfl
@[simp] theorem Blk.delPresence_waitQ : (b.delPresence n a).mem.waitQ = b.mem.waitQ := by unfold Blk.delPresence; split <;> rfl
@[simp] theorem Blk.delPresence_rcLine (k : Nat) : (b.delPresence n a).rcLine k = b.rcLine k := by simp [Blk.rcLine]
/-- The entry that is left names the agent no more; without the window it is no longer X. -/
theorem Blk.delPresence_dirEnt (hent : b.dirEnt n = some e) (h : (b.delPresence n a).dirEnt n = some f) :
    f.pres = setBit e.pres a false ∧ f.isX = (e.isX && a != 68) := by
  unfold Blk.delPresence at h
  rw [hent] at h
  simp only [Blk.setDir_dirEnt, Option.map_eq_some_iff] at h
  obtain ⟨g, hg, rfl⟩ := h
  obtain ⟨-, hleft⟩ := Option.ite_none_left_eq_some.1 hg
  obtain rfl := Option.some.inj hleft
  exact ⟨rfl, rfl⟩
theorem setBit_false (v : BitVec 69) (a : Nat) : (setBit v a false).getLsbD a = false := by
  simp [setBit, BitVec.getLsbD_twoPow]

/-! ### Ack (10 R264, R272) -/

/-- The end of an RdM moves the predictor. -/
def Blk.moved (n : Nat) (v : Busy) (b : Blk) : Blk := if v.req = .rdm then b.predict n v.agents else b

theorem Blk.moved_eq : b.moved n v = { b with mem := { b.mem with pred := (b.moved n v).mem.pred } } := by
  unfold Blk.moved
  split <;> rfl
theorem Blk.HomeWork.moved (h : b.HomeWork n c) : b.HomeWork n (c.moved n v) := by
  unfold Blk.moved
  split
  · exact h.predict
  · exact h
theorem Blk.freeEntry_held (h : b.isHeld n = true) : b.freeEntry n = b := by simp [Blk.freeEntry, h]
theorem Blk.freeEntry_free (h : b.isHeld n = false) : b.freeEntry n = b.setDir n none := by simp [Blk.freeEntry, h]
@[simp] theorem Blk.moved_ring : (b.moved n v).mem.ring = b.mem.ring := by rw [Blk.moved_eq]
theorem Blk.moved_isHeld : (b.moved n v).isHeld n = b.isHeld n := by
  rw [Blk.moved_eq]
  rfl
@[simp] theorem Blk.freeEntry_ring : (b.freeEntry n).mem.ring = b.mem.ring := by unfold Blk.freeEntry; split <;> rfl
@[simp] theorem Blk.freeEntry_busy : (b.freeEntry n).mem.busy = b.mem.busy := by unfold Blk.freeEntry; split <;> rfl
@[simp] theorem Blk.freeEntry_waitQ : (b.freeEntry n).mem.waitQ = b.mem.waitQ := by unfold Blk.freeEntry; split <;> rfl
@[simp] theorem Blk.freeEntry_pred : (b.freeEntry n).mem.pred = b.mem.pred := by unfold Blk.freeEntry; split <;> rfl
@[simp] theorem Blk.setBusy_pred (k : Nat) (u : Option Busy) : (b.setBusy k u).mem.pred = b.mem.pred := rfl
theorem Blk.freeEntry_dirEnt (h : b.isHeld n = false) : (b.freeEntry n).dirEnt n = none := by
  rw [Blk.freeEntry_free h, Blk.setDir_dirEnt]
  rfl
/-- The Ack that ends a request. -/
theorem Blk.ackAt_over (x : Env) {a : AgentId} {line : LineNo} (hbusy : PMap.find line.toNat b.mem.busy = some v)
    (hrq : v.req.rq = .agent a) (hack : v.ack = true) (hinvs : v.invs = 0) (hwait : v.wait = .none) (hnone : b.NoneWaits line.toNat) :
    b.ackAt x a line = ((b.moved line.toNat v).freeEntry line.toNat).setBusy line.toNat none := by
  have hquiet : ((b.moved line.toNat v).freeEntry line.toNat).NoneWaits line.toNat :=
    hnone.congr (by rw [Blk.freeEntry_waitQ, Blk.moved_eq]) (by rw [Blk.freeEntry_busy, Blk.moved_eq])
  have hover : ({ v with ack := false } : Busy).over = true := by simp [Busy.over, hinvs, hwait]
  unfold Blk.ackAt
  dsimp only
  rw [hbusy]
  simp only [hrq, hack, ne_eq, not_true_eq_false, decide_false, Bool.not_true, Bool.or_false, Bool.false_eq_true, if_false]
  exact afterLine_over x hquiet hover

/-! ### The last InvAck (10 R264) -/

/-- What a request does once it may go on. -/
theorem afterLine_goOn (x : Env) {y : HomeStep} (h : Blk.goOn x n (Blk.goOn x n y) = Blk.goOn x n y) :
    afterLine x n y = afterLine x n (Blk.goOn x n y) := by
  have hline : Blk.settleLine x n settleMax y = Blk.settleLine x n settleMax (Blk.goOn x n y) := by
    rw [settleMax, Blk.settleLine, Blk.settleLine, h]
  rw [afterLine, afterLine, hline]
/-- The last InvAck of a write lets it take place. -/
theorem Blk.invAck_wr (x : Env) {a : AgentId} {line : LineNo} {rq : Rq} {d : Line} {mask : W64}
    (hbusy : PMap.find line.toNat b.mem.busy = some v) (hreq : v.req = .wr rq d mask) (hinvs : v.invs = 1) (hack : v.ack = false)
    (hwait : v.wait = .grant) (hwdata : v.wdata = none) (hl : b.rcLine line.toNat = some l) (hpoison : l.poison = false)
    (hmask : mask ≠ 0) (hnone : b.NoneWaits line.toNat) :
    b.invAck x a line none = ((b.delPresence line.toNat a).wrote line.toNat l rq d mask).setBusy line.toNat none := by
  let c := b.delPresence line.toNat a
  let u : Busy := { v with invs := 0, wait := .none }
  have hc : c.NoneWaits line.toNat := hnone.congr Blk.delPresence_waitQ Blk.delPresence_busy
  have hperform : c.performWrite x line.toNat u = (c.wrote line.toNat l rq d mask, u) :=
    Blk.performWrite_wr x (by simpa [c] using hl) hreq hmask hwdata hpoison
  have hgo : Blk.goOn x line.toNat (c, { v with invs := 0 }) = (c.wrote line.toNat l rq d mask, u) := by
    rw [← hperform]
    simp [Blk.goOn, hwait, hreq, u]
  have hover : u.over = true := by simp [Busy.over, hack, u]
  have hstep : b.invAck x a line none = afterLine x line.toNat (c, { v with invs := 0 }) := by
    simp [Blk.invAck, hbusy, hinvs, c]
  rw [hstep, afterLine_goOn x (by rw [hgo]; simp [Blk.goOn, u]), hgo]
  exact afterLine_over x (hc.congr rfl rfl) hover

/-! ### FwdMiss (10 R269) -/

/-- The window that has missed leaves the directory. -/
def Blk.missed (n : Nat) (a : AgentId) (b : Blk) : Blk := if a.val = 68 then b.delPresence n 68 else b

theorem Blk.HomeWork.missed {a : AgentId} (h : b.HomeWork n c) : b.HomeWork n (c.missed n a) := by
  unfold Blk.missed
  split
  · exact h.delPresence
  · exact h
theorem Blk.missed_agent {a : AgentId} (h : a.val ≠ 68) : b.missed n a = b := if_neg h
@[simp] theorem Blk.missed_ring (a : AgentId) : (b.missed n a).mem.ring = b.mem.ring := by unfold Blk.missed; split <;> simp
@[simp] theorem Blk.missed_busy (a : AgentId) : (b.missed n a).mem.busy = b.mem.busy := by unfold Blk.missed; split <;> simp
@[simp] theorem Blk.missed_waitQ (a : AgentId) : (b.missed n a).mem.waitQ = b.mem.waitQ := by unfold Blk.missed; split <;> simp
@[simp] theorem Blk.missed_rcLine (a : AgentId) (k : Nat) : (b.missed n a).rcLine k = b.rcLine k := by unfold Blk.missed; split <;> simp

section
variable (x : Env) {a : AgentId} {line : LineNo} {rq : Rq} (hbusy : PMap.find line.toNat b.mem.busy = some v)
  (hl : b.rcLine line.toNat = some l) (hpoison : l.poison = false) (hnone : b.NoneWaits line.toNat)
include hbusy hl hpoison

/-- The home supplies the data in the agent's place. -/
theorem Blk.fwdMissAt_read (hrq : v.req.rq = rq) (hreq : v.req ≠ .rdm) : let n := line.toNat
    b.fwdMissAt x a line rq = afterLine x n (((b.missed n a).hit n l).supplyData n { v with wait := .none } l.data false) := by
  unfold Blk.fwdMissAt
  dsimp only
  rw [← Blk.missed, Blk.missed_busy, hbusy]
  simp only [hrq, hreq, if_true, if_false]
  rw [Blk.homeRead_hit x _ (by rwa [Blk.missed_rcLine]) hpoison]

include hnone

/-- A reader that keeps no copy is served, and its request is over. -/
theorem Blk.fwdMissAt_rdonce (hreq : v.req = .rdonce rq) (hinvs : v.invs = 0) (hack : v.ack = false) : let n := line.toNat
    b.fwdMissAt x a line rq = (((b.missed n a).hit n l).supply n (.rdonce rq) l.data false).setBusy n none := by
  intro n
  have hquiet : (b.missed n a).NoneWaits n := hnone.congr (by simp) (by simp)
  have hrq : v.req.rq = rq := by rw [hreq]; rfl
  rw [Blk.fwdMissAt_read x hbusy hl hpoison hrq (by simp [hreq]), Blk.supplyData_rdonce (v := { v with wait := .none }) hreq]
  exact afterLine_over x (hquiet.congr rfl rfl) (by simp [Busy.over, hinvs, hack])
/-- A reader that keeps a copy is served, and its Ack is still awaited. -/
theorem Blk.fwdMissAt_rds {r : AgentId} (ha : a.val ≠ 68) (hreq : v.req = .rds r) (hack : v.ack = true) (hwait : v.wait = .none) :
    let n := line.toNat
    b.fwdMissAt x a line (.agent r)
      = (((b.hit n l).supply n (.rds r) l.data (!b.isHeld n)).addPresence n r false).setBusy n (some v) := by
  intro n
  have hrq : v.req.rq = .agent r := by rw [hreq]; rfl
  have hsame : ({ v with wait := .none, ack := true } : Busy) = v := by rw [← hack, ← hwait]
  rw [Blk.fwdMissAt_read x hbusy hl hpoison hrq (by simp [hreq]), Blk.missed_agent ha, Blk.supplyData_rds (v := { v with wait := .none }) hreq, hsame]
  exact afterLine_waits x (hnone.congr rfl rfl) (by simp [hwait]) (by simp [Busy.over, hack]) (by simp [hwait])

end

/-! ### Window data that comes home (10 R268) -/

theorem Blk.writeBackHome_hit (x : Env) (d : Line) (hl : b.rcLine n = some l) :
    b.writeBackHome x n d = (b.clearPoison n).putRc n { l with data := d, dirty := true, poison := false } := by
  have hl' : (b.clearPoison n).rcLine n = some l := hl
  simp [Blk.writeBackHome, hl']
/-- The window, which owns the line, sends it home and leaves the directory. -/
def Blk.cameHome (n : Nat) (l : RcLine) (d : Line) (b : Blk) : Blk :=
  ((b.clearPoison n).putRc n { l with data := d, dirty := true, poison := false }).delPresence n 68
theorem Blk.HomeWork.cameHome {d : Line} (h : b.HomeWork n c) : b.HomeWork n (c.cameHome n l d) := h.clearPoison.putRc.delPresence
theorem Blk.cameHome_dirEnt {d : Line} (hent : b.dirEnt n = some e) (h : (b.cameHome n l d).dirEnt n = some f) :
    f.isX = false ∧ f.pres.getLsbD 68 = false := by
  obtain ⟨hpres, hX⟩ := Blk.delPresence_dirEnt (by simpa using hent) h
  rw [hpres, setBit_false, hX]
  simp
theorem exec_wb_owned {s : State} {line : LineNo} {d : Line} (hup : s.blk.up = true) (harrive : s.blk.mayArrive (.wb line d) = true)
    (hent : s.blk.dirEnt line.toNat = some e) (hX : e.isX = true) (hl : s.blk.rcLine line.toNat = some l)
    (hnone : s.blk.NoneWaits line.toNat) :
    exec (.wb line d) s = .next { s with blk := (s.blk.arrived (.wb line d)).cameHome line.toNat l d } := by
  let c := s.blk.arrived (.wb line d)
  have hown : (c.dirEnt line.toNat).any (·.isX) = true := by simp [c, hent, hX]
  have hretry : (c.cameHome line.toNat l d).dirRetry s.env line.toNat = c.cameHome line.toNat l d :=
    Blk.dirRetry_none s.env (by rw [Blk.cameHome, Blk.delPresence_busy]; exact hnone.2)
  have hback : (c.writeBackHome s.env line.toNat d).delPresence line.toNat 68 = c.cameHome line.toNat l d := by
    rw [Blk.writeBackHome_hit (b := c) s.env d hl]
    rfl
  simp only [exec, execWb]
  rw [State.onMessage_arrives hup harrive, if_pos hown, hback, hretry]
theorem exec_wb_ignored {s : State} {line : LineNo} {d : Line} (hup : s.blk.up = true) (harrive : s.blk.mayArrive (.wb line d) = true)
    (hent : s.blk.dirEnt line.toNat = some e) (hX : e.isX = false) :
    exec (.wb line d) s = .next { s with blk := s.blk.arrived (.wb line d) } := by
  simp only [exec, execWb]
  rw [State.onMessage_arrives hup harrive, if_neg (by simp [hent, hX])]

end

/-- Settles O33: each answer at its home. -/
theorem homeAnswers : Obligations.HomeAnswers := by
  intro s a line b n hup hq hbusy hrecalls
  have hnone : b.NoneWaits n := ⟨hq, hbusy⟩
  refine ⟨?_, ?_, ?_, ?_, ?_⟩
  · intro v harrive hv hrq hack hinvs hwait
    let c := (b.arrived (.ack a line)).moved n v
    have hexec : exec (.ack a line) s = _ := State.onMessage_arrives hup harrive fun x b => b.ackAt x a line
    rw [Blk.ackAt_over (b := b.arrived (.ack a line)) s.env hv hrq hack hinvs hwait (hnone.congr rfl rfl)] at hexec
    have hheld : c.isHeld n = b.isHeld n := Blk.moved_isHeld
    refine ⟨_, hexec, Blk.setBusy_none_busy, ?_, ?_, fun h => ?_, fun h => ⟨?_, (Blk.homeWork_arrived _).moved.freeEntry.setBusy⟩⟩
    · simp only [Blk.setBusy_pred, Blk.freeEntry_pred, Blk.moved]
      split <;> rfl
    · simp
    · rw [← hheld] at h
      rw [Blk.freeEntry_held h, show c = _ from Blk.moved_eq]
      rfl
    · rw [← hheld] at h
      rw [Blk.setBusy_dirEnt, Blk.freeEntry_dirEnt h]
  · intro v rq d mask l m harrive hv hreq hinvs hack hwait hwdata hl hpoison hmask
    have hexec : exec m s = _ := State.onMessage_arrives hup harrive fun x b => b.invAck x a line none
    rw [Blk.invAck_wr (b := b.arrived m) s.env hv hreq hinvs hack hwait hwdata hl hpoison hmask (hnone.congr rfl rfl)] at hexec
    refine ⟨_, hexec, Blk.setBusy_none_busy, ?_, ?_, (Blk.homeWork_arrived _).delPresence.wrote.setBusy, ?_⟩
    · rw [Blk.setBusy_dirEnt]
      exact Blk.wrote_dirEnt rq d mask
    · rw [Blk.setBusy_rcLine]
      exact (Blk.wrote_rcLine rq d mask).1
    · simp
  · intro e harrive hent
    let c := b.arrived (.evict a line)
    have hexec : exec (.evict a line) s = _ :=
      State.onMessage_arrives hup harrive fun x b => (b.delPresence line.toNat a).dirRetry x line.toNat
    rw [Blk.dirRetry_none (b := c.delPresence n a) s.env (by rw [Blk.delPresence_busy]; exact hbusy)] at hexec
    refine ⟨_, hexec, fun f hf => ?_, (Blk.homeWork_arrived _).delPresence, ?_, ?_⟩
    · obtain ⟨hpres, -⟩ := Blk.delPresence_dirEnt (b := c) hent hf
      rw [hpres, setBit_false]
    · rw [Blk.delPresence_rc]
      rfl
    · simp [c]
  · intro rq l m harrive hl hpoison
    let c := b.arrived m
    have hquiet : c.NoneWaits n := hnone.congr rfl rfl
    have hexec : exec m s = _ := State.onMessage_arrives hup harrive fun x b => b.fwdMissAt x a line rq
    refine ⟨fun v hagent hv hreq hinvs hack => ?_, fun r v hr ha hv hreq hinvs hack hwait => ?_⟩
    · rw [Blk.fwdMissAt_rdonce (b := c) s.env hv hl hpoison hquiet hreq hinvs hack] at hexec
      refine ⟨_, hexec, ?_, (Blk.homeWork_arrived _).missed.hit.supply.setBusy, ?_⟩
      · refine Blk.setBusy_isBusy ?_
        have hbusy : (c.missed n a).mem.busy = b.mem.busy := Blk.missed_busy a
        rw [← hbusy] at hrecalls
        exact hrecalls
      · simp [HomeReq.rq, c]
    · subst hr
      rw [Blk.fwdMissAt_rds (b := c) s.env hv hl hpoison hquiet ha hreq hack hwait] at hexec
      refine ⟨_, hexec, Blk.setBusy_some_busy v, (Blk.homeWork_arrived _).hit.supply.addPresence.setBusy, ?_⟩
      simp [HomeReq.rq, c]
      rfl
  · intro d e l m harrive hent hl
    let c := b.arrived m
    refine ⟨fun hX => ?_, fun hX => exec_wb_ignored hup harrive hent hX⟩
    have hline : (c.cameHome n l d).rcLine n = some { l with data := d, dirty := true, poison := false, used := c.mem.clock } := by
      simp [Blk.cameHome, Blk.clearPoison]
    refine ⟨_, exec_wb_owned hup harrive hent hX hl hnone, ?_, ?_, fun f hf => ?_, (Blk.homeWork_arrived _).cameHome, ?_⟩
    · exact congrArg (Option.map (·.data)) hline
    · exact congrArg (Option.map (·.dirty)) hline
    · exact Blk.cameHome_dirEnt (b := c) hent hf
    · simp [Blk.cameHome, Blk.clearPoison, b, m]

end Sys2Proof.Machine

/-! # Answers of an agent

O32 fails for a state no run reaches: a BUSY line that is recalled for another request at the same time. -/

namespace Sys2Proof.Machine

/-- A block in which agent 3, which holds line 5, has an RdOnce of seat 1's window sent on to it, while a request for line 6 waits
for the recall of line 5. -/
def recalledBlk : Blk :=
  { start := { poresetLow := false, done := true }
    mem := { agents := [(3, [(5, { st := .s, data := 0, hold := false, used := 0 })])]
             busy := [(5, { req := .rdonce (.window 1), wait := .forward }), (6, { req := .rdm, wait := .recall 5 1 })]
             ring := [.fwd 3 5 (.window 1)] } }
def recalledState : State := { State.reset with blk := recalledBlk }

/-- After the agent's answer line 5 is BUSY still: the recall has not ended. -/
theorem recalledState_fwd {u : State} (h : exec (.fwd 3 5 (.window 1)) recalledState = .next u) : u.blk.isBusy 5 = true := by
  cases h
  decide +kernel

/-- Refutes O32, for a state that no run reaches: the clause on an RdOnce sent on to an agent does not exclude that another
line's request recalls the line (as HomeAnswers does), and then the line is BUSY after the answer too. -/
theorem not_agentAnswers : ¬ Obligations.AgentAnswers := by
  unfold Obligations.AgentAnswers
  intro h
  obtain ⟨hfwd, -⟩ := h.1 recalledState 3 5 { st := .s, data := 0, hold := false, used := 0 } rfl rfl
  obtain ⟨-, hforward⟩ := hfwd (.window 1) (by decide)
  obtain ⟨c, hexec, -, hidle, -⟩ :=
    hforward { req := .rdonce (.window 1), wait := .forward } (by decide) rfl rfl rfl rfl (by decide) (by decide)
  have hbusy : c.isBusy 5 = true := recalledState_fwd hexec
  exact Bool.false_ne_true (hidle.symm.trans hbusy)

end Sys2Proof.Machine

/-! # Data and Cmp at their requesters

The row of an arriving Data or Cmp message is its effect at the requester, what that lets start, and the accesses that then go
on (`State.arrivalRow_arrives`). -/

namespace Sys2Proof.Machine

/-! ### A line comes to a cache (10 R267) -/

section
variable {b : Blk} {a n : Nat} {k : Copy}

@[simp] theorem Blk.putCopy_copy : (b.putCopy a n k).copy a n = some k := by
  simp [Blk.putCopy, Blk.setCopies, Blk.copy, MemState.copies]
theorem Blk.delMiss_missing : (b.delMiss a n).missing a n = false := by
  have hnone : (b.delMiss a n).missOf a n = none :=
    List.find?_eq_none.2 fun w hw => by simpa [imp_iff_not_or] using (List.mem_filter.1 hw).2
  simp [Blk.missing, hnone]

/-- Between the two blocks only the copies of agents, the lines asked for and the ring differ. -/
def Blk.CacheWork (b c : Blk) : Prop :=
  c = { b with
    mem := { b.mem with agents := c.mem.agents, misses := c.mem.misses, clock := c.mem.clock, ring := c.mem.ring }
    trc := { b.trc with tally := c.trc.tally } }
theorem Blk.CacheWork.trans {c d : Blk} (h : b.CacheWork c) (k : c.CacheWork d) : b.CacheWork d := by
  unfold Blk.CacheWork at *
  rw [h] at k
  exact k
theorem Blk.cacheWork_delMiss (b : Blk) (a n : Nat) : b.CacheWork (b.delMiss a n) := rfl
theorem Blk.cacheWork_putCopy (b : Blk) (a n : Nat) (k : Copy) : b.CacheWork (b.putCopy a n k) := rfl
theorem Blk.cacheWork_stamp (b : Blk) : b.CacheWork b.stamp := rfl
theorem Blk.cacheWork_send (b : Blk) (m : Instr) : b.CacheWork (b.send m) := rfl

/-- A line that agent a holds for 32 cycles from now on, in the way it takes. -/
def Blk.newCopy (a n : Nat) (d : Line) (st : CopySt) (b : Blk) : Copy :=
  { st := st, data := d, hold := true, used := b.mem.clock, way := (b.wayFor a n false).1 }
/-- The gather cache of engine e has installed the line it asked for, acknowledged it, and given it to the gathers that need it. -/
def Blk.gathered (e : EngineId) (line : LineNo) (d : Line) (st : CopySt) (b : Blk) : Blk :=
  let n := line.toNat
  ((((b.delMiss e n).putCopy e n (b.newCopy e n d st)).stamp).send (.ack ⟨e.val, by omega⟩ line)).send (.gatherFill e line d 0)

/-- A line that takes a free way of a cache is installed and acknowledged. -/
theorem Blk.receive_free {a : AgentId} (hcache : a.val < 64) (hvoid : ∀ w ∈ b.mem.misses, w.void = false)
    (hcopy : b.copy a n = none) (hway : (b.wayFor a n false).2 = none) (d : Line) (st : CopySt) :
    b.receive a n d st 0 false = (((b.delMiss a n).putCopy a n (b.newCopy a n d st)).stamp).send (.ack a (lineNo n)) := by
  have hkept : (b.mem.misses.any fun m => m.agent == a.val && m.line == n && m.void) = false :=
    List.any_eq_false.2 fun w hw => by simp [hvoid w hw]
  have hcopy' : (b.delMiss a n).copy a n = none := hcopy
  have hwayEq : (b.delMiss a n).wayFor a n false = ((b.wayFor a n false).1, none) := Prod.ext rfl hway
  have hwindow : a.val ≠ 68 := by omega
  unfold Blk.receive Blk.install
  simp only [hkept, hcopy', hwindow, hwayEq, Bool.false_eq_true, if_false]
  rfl
theorem Blk.gathered_ring (e : EngineId) (line : LineNo) (d : Line) (st : CopySt) : (b.gathered e line d st).mem.ring
    = b.mem.ring ++ [.ack ⟨e.val, by omega⟩ line, .gatherFill e line d 0] :=
  List.append_assoc _ _ _
theorem Blk.gathered_missing (e : EngineId) (line : LineNo) (d : Line) (st : CopySt) :
    (b.gathered e line d st).missing e line.toNat = false := by
  have hmisses : (b.gathered e line d st).mem.misses = (b.delMiss e line.toNat).mem.misses := rfl
  unfold Blk.missing Blk.missOf
  rw [hmisses]
  exact Blk.delMiss_missing
theorem Blk.gathered_cacheWork (e : EngineId) (line : LineNo) (d : Line) (st : CopySt) : b.CacheWork (b.gathered e line d st) :=
  (((Blk.cacheWork_delMiss b e _).trans (Blk.cacheWork_putCopy _ e _ _)).trans
    (Blk.cacheWork_stamp _)).trans ((Blk.cacheWork_send _ _).trans (Blk.cacheWork_send _ _))
theorem Blk.gathered_copy (e : EngineId) (line : LineNo) (d : Line) (st : CopySt) :
    (b.gathered e line d st).copy e line.toNat = some (b.newCopy e line.toNat d st) := Blk.putCopy_copy

end

/-! ### An access of a seat that completes (12 R303) -/

/-- The access of a seat is answered. -/
def Blk.finished (t : Seat) (write : Bool) (v : W32) (b : Blk) : Blk :=
  (b.modSeat t fun r => { r with unfin := none }).respond t write v
theorem State.finish_eq (t : Seat) (write : Bool) (v : Nat) (s : State) :
    s.finish t write v = { s with blk := s.blk.finished t write (BitVec.ofNat 32 v) } := rfl
@[simp] theorem Blk.finished_seat (t : Seat) (write : Bool) (v : W32) (b : Blk) :
    (b.finished t write v).seat t = { b.seat t with unfin := none } := b.setSeat_seat t _
theorem Blk.finished_seat_ne (t : Seat) (write : Bool) (v : W32) (b : Blk) {j : Nat} (h : j ≠ t.val) :
    (b.finished t write v).seat j = b.seat j := b.setSeat_seat_ne _ h
theorem Blk.finished_eq (t : Seat) (write : Bool) (v : W32) (b : Blk) : b.finished t write v
    = { b with host := { b.host with resp := (b.finished t write v).host.resp, seats := (b.finished t write v).host.seats } } := rfl
theorem Blk.finished_resp (t : Seat) (write : Bool) (v : W32) {b : Blk} (h : b.host.resp = []) :
    (b.finished t write v).host.resp = [{ seat := BitVec.ofNat 4 t.val, write := write, rdata := v }] := by
  simp [Blk.finished, Blk.respond, Blk.modSeat, Blk.setSeat, h]

/-! ### The rows -/

section
variable {s : State}

theorem State.arrivalRow_arrives {m : Instr} (hup : s.blk.up = true) (harrive : s.blk.mayArrive m = true) {f : State → State} {c : Blk}
    (hf : f { s with blk := s.blk.freshResp.arrived m } = { s with blk := c }) :
    s.arrivalRow m f = .next (State.settle { s with blk := c.pump s.env }) := by
  have hready : (s.blk.freshResp.up && s.blk.freshResp.mayArrive m) = true := by
    rw [Bool.and_eq_true]
    exact ⟨hup, harrive⟩
  simp only [State.arrivalRow, State.hostRow, State.onBlock, hready, if_true, hf]
theorem exec_data {src : Option AgentId} {rq : Rq} {line : LineNo} {d : Line} {excl : Bool} (hup : s.blk.up = true)
    (harrive : s.blk.mayArrive (.data src rq line d excl) = true) {c : Blk}
    (hdata : State.dataAt rq line d excl { s with blk := s.blk.freshResp.arrived (.data src rq line d excl) } = { s with blk := c }) :
    exec (.data src rq line d excl) s = .next (State.settle { s with blk := c.pump s.env }) := by
  simp only [exec, execData]
  exact State.arrivalRow_arrives hup harrive hdata
theorem exec_cmpMessage {rq : Rq} {line : LineNo} {old : W64} {resp : BitVec 2} (hup : s.blk.up = true)
    (harrive : s.blk.mayArrive (.cmpMessage rq line old resp) = true) {c : Blk}
    (hcmp : State.cmpAt rq line old resp { s with blk := s.blk.freshResp.arrived (.cmpMessage rq line old resp) } = { s with blk := c }) :
    exec (.cmpMessage rq line old resp) s = .next (State.settle { s with blk := c.pump s.env }) := by
  simp only [exec, execCmpMessage]
  exact State.arrivalRow_arrives hup harrive hcmp
/-- Data for an aperture read. -/
theorem State.dataAt_window {t : Seat} {o : BitVec 13} (hunfin : (s.blk.seat t).unfin = some (.aperRead o)) (line : LineNo) (d : Line)
    (excl : Bool) : s.dataAt (.window t) line d excl = { s with blk := s.blk.finished t false (aperWord (s.blk.seat t) o d) } := by
  unfold State.dataAt
  simp only [hunfin]
  rw [State.finish_eq, BitVec.ofNat_toNat, BitVec.setWidth_eq]
/-- Cmp for an aperture write. -/
theorem State.cmpAt_aperWrite {t : Seat} {o : BitVec 13} (hunfin : (s.blk.seat t).unfin = some (.aperWrite o)) (line : LineNo) (old : W64) :
    s.cmpAt (.window t) line old 0 = { s with blk := s.blk.finished t true 0 } := by
  unfold State.cmpAt State.windowDone
  simp only [hunfin, if_true]
  rfl
/-- Cmp for a near atomic: the seat has the old word. -/
theorem State.cmpAt_atomic {t : Seat} {r : AtomReq} {w : W64} (hunfin : (s.blk.seat t).unfin = some (.atomic r w)) (line : LineNo) (old : W64) :
    s.cmpAt (.window t) line old 0
      = { s with blk := (s.blk.modSeat t fun v => { v with atomRes := old }).finished t true 0 } := by
  unfold State.cmpAt State.windowDone
  simp only [hunfin, if_true]
  rfl
/-- Data for a gather cache that asked for the line. -/
theorem State.dataAt_gather {a : AgentId} {e : EngineId} (hae : a.val = e.val) {line : LineNo} (hmiss : s.blk.missing e line.toNat = true)
    (hvoid : ∀ w ∈ s.blk.mem.misses, w.void = false) (hcopy : s.blk.copy e line.toNat = none)
    (hway : (s.blk.wayFor e line.toNat false).2 = none) (d : Line) (excl : Bool) :
    s.dataAt (.agent a) line d excl = { s with blk := s.blk.gathered e line d (if excl then .e else .s) } := by
  obtain ⟨w, hw⟩ := Option.isSome_iff_exists.1 hmiss
  have hkept : w.void = false := hvoid w (List.mem_of_find?_eq_some hw)
  have hcache : a.val < 64 := by omega
  obtain rfl : e = ⟨a.val, hcache⟩ := Fin.ext hae.symm
  unfold State.dataAt State.agentData
  simp only [hw, hkept, hcache, State.onBlock, dif_pos, Bool.false_eq_true, if_false, Blk.receive_free hcache hvoid hcopy hway, lineNo_toNat]
  rfl

end

/-! ### MEMBAR (07 R219) -/

section
variable {b : Blk} {q n : Nat}

theorem Blk.joinWritebacks_eq (q n : Nat) (b : Blk) :
    (b.joinWritebacks q n).1 = { b with mem := { b.mem with ports := (b.joinWritebacks q n).1.mem.ports } } := by
  unfold Blk.joinWritebacks
  refine List.foldlRecOn (range 4) _ (motive := fun y : Blk × Nat => y.1 = { b with mem := { b.mem with ports := y.1.mem.ports } }) rfl
    fun y hy p _ => ?_
  dsimp only
  rw [hy]
  rfl
theorem Blk.joinWritebacks_sb (q n : Nat) (b : Blk) : (b.joinWritebacks q n).1.sb = b.sb := by rw [Blk.joinWritebacks_eq]
/-- A MEMBAR whose lines are scanned and written back. -/
def SbEntry.scanOver (e : SbEntry) : SbEntry := { e with prog := .membar true 0 }
/-- A scan that finds no line and no write-back under way is over at once. -/
theorem Blk.scan_clean (hclean : ∀ l ∈ b.mem.rc, scanned b.wv.cur (b.partNo q) l.1 l.2.way = false) (hwb : (b.joinWritebacks q n).2 = 0) :
    b.scan q n = (b.joinWritebacks q n).1.modEntry q n SbEntry.scanOver := by
  have hnone : (b.mem.rc.filter fun l => scanned b.wv.cur (b.partNo q) l.1 l.2.way) = [] :=
    List.filter_eq_nil_iff.2 fun l hl => by simp [hclean l hl]
  unfold Blk.scan
  dsimp only
  rw [hnone, hwb]
  rfl
theorem Blk.finishCmd_scanOver {e : SbEntry} (hend : e.ending = none) : b.finishCmd e.scanOver = b.complete e.scanOver .ok 0 := by
  have hend' : e.scanOver.ending = none := hend
  have hprog : e.scanOver.prog = .membar true 0 := rfl
  simp [Blk.finishCmd, hprog, hend']
theorem Blk.complete_scanOver {e : SbEntry} (hop : e.opcode = opMEMBAR) (hq : e.q = q) (hn : e.n = n) :
    (b.complete e.scanOver .ok 0).Ended q n .ok opMEMBAR := by
  have hlaunch : e.scanOver.opcode ≠ opLAUNCH := by
    rw [show e.scanOver.opcode = _ from hop]
    decide
  have hended := b.complete_ended_plain hlaunch .ok 0
  rwa [show e.scanOver.opcode = _ from hop, show e.scanOver.q = _ from hq, show e.scanOver.n = _ from hn] at hended
/-- The work of queues leaves the ports. -/
theorem Blk.QueueWork.ports {c : Blk} (h : b.QueueWork c) : c.mem.ports = b.mem.ports := by rw [h]

theorem exec_membarScanDone {s : State} {q : Queue} {e u : SbEntry} (hrun : s.blk.running = true) (he : s.blk.entry q n = some e)
    (hstart : e.started = true) (hprog : e.prog = .membar false 0) (hend : e.ending = none)
    (hscan : (s.blk.scan q n).entry q n = some u) :
    exec (.membarScanDone q n) s = .next { s with blk := ((s.blk.scan q n).finishCmd u).pump s.env } := by
  have hready : (s.blk.running && e.started && e.prog == .membar false 0 && e.ending.isNone) = true := by
    simp [hrun, hstart, hprog, hend]
  simp only [exec, execMembarScanDone, State.onWork, State.onBlk]
  rw [he]
  dsimp only
  rw [if_pos hready, hscan]

end

/-- Settles O34: each message at its requester, and the MEMBAR whose scan finds nothing. -/
theorem dataArrives : Obligations.DataArrives := by
  intro s b hup
  refine ⟨?_, ?_, ?_, ?_, ?_⟩
  · intro src e line d excl a m harrive hmiss hvoid hcopy hway
    let c := b.freshResp.arrived m
    have hdata := State.dataAt_gather (s := { s with blk := c }) (a := a) rfl hmiss hvoid hcopy hway d excl
    have hexec := exec_data (src := src) hup harrive hdata
    refine ⟨_, hexec, ?_, ?_, ?_, Blk.gathered_ring e line d _, Blk.gathered_missing e line d _, Blk.gathered_cacheWork e line d _⟩
    all_goals
      rw [Blk.gathered_copy]
      rfl
  · intro src t o line d m harrive hunfin
    let c := b.freshResp.arrived m
    have hdata := State.dataAt_window (s := { s with blk := c }) hunfin line d false
    have hexec := exec_data (src := src) hup harrive hdata
    exact ⟨_, hexec, Blk.finished_seat t _ _ c, fun _ hj => c.finished_seat_ne t _ _ hj, c.finished_eq t _ _, Blk.finished_resp t _ _ rfl⟩
  · intro t o line old m harrive hunfin
    let c := b.freshResp.arrived m
    have hcmp := State.cmpAt_aperWrite (s := { s with blk := c }) hunfin line old
    have hexec := exec_cmpMessage hup harrive hcmp
    exact ⟨_, hexec, Blk.finished_seat t _ _ c, fun _ hj => c.finished_seat_ne t _ _ hj, c.finished_eq t _ _, Blk.finished_resp t _ _ rfl⟩
  · intro t r at' line old m harrive hunfin
    let c := b.freshResp.arrived m
    let u := c.modSeat t fun v => { v with atomRes := old }
    have hcmp := State.cmpAt_atomic (s := { s with blk := c }) hunfin line old
    have hexec := exec_cmpMessage hup harrive hcmp
    have hseat : u.seat t = { b.seat t with atomRes := old } := c.setSeat_seat t _
    have hother : ∀ j, j ≠ t.val → u.seat j = b.seat j := fun j hj => c.setSeat_seat_ne _ hj
    refine ⟨_, hexec, ?_, fun j hj => (u.finished_seat_ne t _ _ hj).trans (hother j hj), u.finished_eq t _ _, Blk.finished_resp t _ _ rfl⟩
    exact (u.finished_seat t true 0).trans (congrArg (fun v : SeatRegs => { v with unfin := none }) hseat)
  · intro q n e hrun he hstart hprog hend hop hclean hwb
    let c := (b.joinWritebacks q n).1
    have hc : c = { b with mem := { b.mem with ports := c.mem.ports } } := b.joinWritebacks_eq q n
    have hentry : (c.modEntry q n SbEntry.scanOver).entry q n = some e.scanOver := by
      have hcentry : c.entry q n = some e := (congrArg _ (b.joinWritebacks_sb q n)).trans he
      rw [Blk.modEntry_entry (f := SbEntry.scanOver) fun _ => ⟨rfl, rfl⟩, hcentry]
      rfl
    have hscan : b.scan q n = c.modEntry q n SbEntry.scanOver := Blk.scan_clean hclean hwb
    have hexec := exec_membarScanDone hrun he hstart hprog hend ((congrArg (Blk.entry · q n) hscan).trans hentry)
    rw [Blk.finishCmd_scanOver hend, hscan] at hexec
    obtain ⟨hq, hn⟩ := Blk.entry_spec he
    have hwork := (c.queueWork_modEntry q n SbEntry.scanOver).trans (Blk.queueWork_complete e.scanOver .ok 0 _)
    refine ⟨_, hexec, ?_, Blk.complete_scanOver hop hq hn⟩
    rw [hwork.ports, ← hc]
    exact hwork

end Sys2Proof.Machine

/-! # Aperture accesses and atomics leave

A served access comes down to what the window does with it: `Blk.aperRead`, `Blk.aperWrite`, or `Blk.atomGo` of the word that the
row of an atomic writes. -/

namespace Sys2Proof.Machine

section
variable {s : State} {b : Blk} {a : Acc}

/-! ### The aperture (10 R256, R257) -/

theorem aperWord_index (o : BitVec 13) : BitVec.ofNat 13 ((0x8000 + 4 * o.toNat - 0x8000) / 4) = o := by
  have hword : (0x8000 + 4 * o.toNat - 0x8000) / 4 = o.toNat := by omega
  rw [hword, BitVec.ofNat_toNat, BitVec.setWidth_eq]
theorem exec_apertureRead (hb : s.blk.Serves a) (hbelay : s.blk.dbg.belay = .running) (o : BitVec 13) :
    exec (.apertureRead a o) s = .next (State.settle { s with blk := s.blk.freshResp.aperRead a.seat o }) := by
  have hfree : s.blk.freshResp.dbg.belay = .running := hbelay
  simp only [exec, execApertureRead, State.access_served hb, State.aperture, hfree, aperWord_index, State.onBlock, ne_eq,
    not_true_eq_false, if_false]
theorem exec_apertureWrite (hb : s.blk.Serves a) (hbelay : s.blk.dbg.belay = .running) (o : BitVec 13) (d : W32) :
    exec (.apertureWrite a o d) s = .next (State.settle { s with blk := s.blk.freshResp.aperWrite a.seat o d 15 }) := by
  have hfree : s.blk.freshResp.dbg.belay = .running := hbelay
  have ⟨_, _, _, hwhole⟩ := hb
  have hlane : (15 : BitVec 4) ≠ 0 := by decide
  simp only [exec, execApertureWrite, State.access_served hb, State.aperture, hfree, hwhole, hlane, aperWord_index, State.onBlock,
    ne_eq, not_true_eq_false, if_false]

/-- An access of a seat that has gone out as message m is unfinished as u. -/
def Blk.left (t : Seat) (u : Unfinished) (m : Instr) (b : Blk) : Blk := (b.setSeat t { b.seat t with unfin := some u }).send m

@[simp] theorem Blk.left_seat (t : Seat) (u : Unfinished) (m : Instr) : (b.left t u m).seat t = { b.seat t with unfin := some u } :=
  b.setSeat_seat t _
theorem Blk.left_seat_ne (t : Seat) (u : Unfinished) (m : Instr) {j : Nat} (h : j ≠ t.val) : (b.left t u m).seat j = b.seat j :=
  b.setSeat_seat_ne _ h
theorem Blk.left_eq (t : Seat) (u : Unfinished) (m : Instr) : let c := b.left t u m
    c = { b with host := { b.host with seats := c.host.seats }, mem := c.mem, trc := { b.trc with tally := c.trc.tally } } := rfl
theorem Blk.left_mem (t : Seat) (u : Unfinished) (m : Instr) : (b.left t u m).mem = { b.mem with ring := b.mem.ring ++ [m] } := rfl
theorem Blk.aperRead_left (t : Seat) (o : BitVec 13) : b.aperRead t o
    = b.left t (.aperRead o) (.rdonce (.window t) (lineOf ((b.seat t).winBase.toNat + 4 * o.toNat))) := rfl
theorem Blk.aperWrite_left (t : Seat) (o : BitVec 13) (d : W32) : let n := (b.seat t).winBase.toNat + 4 * o.toNat
    b.aperWrite t o d 15 = b.left t (.aperWrite o) (.wr (.window t) (lineOf n) (BitVec.ofNat 512 (d.toNat * 2 ^ (8 * (n % 64))))
      (BitVec.ofNat 64 (15 * 2 ^ (n % 64)))) := rfl

/-! ### Atomics (10 R258, R272) -/

theorem placeOf_seat (t : Seat) : placeOf (BitVec.ofNat 22 (seatAddr t.val 0x328)) = .seat t.val 0x328 := by
  have ht := t.isLt
  have haddr : (BitVec.ofNat 22 (seatAddr t.val 0x328)).toNat / 4 * 4 = 0x100328 + 0x10000 * t.val := by
    rw [BitVec.toNat_ofNat, seatAddr]
    omega
  have hsteward : ¬ 0x100328 + 0x10000 * t.val < 0x100000 := by omega
  have hseat : 0x100328 + 0x10000 * t.val < 0x200000 := by omega
  have hnum : (0x100328 + 0x10000 * t.val - 0x100000) / 0x10000 = t.val := by omega
  have hoff : (0x100328 + 0x10000 * t.val) % 0x10000 = 0x328 := by omega
  simp only [placeOf, haddr, hsteward, hseat, hnum, hoff, if_true, if_false]
theorem emulated_atom (t : Seat) : emulated (BitVec.ofNat 22 (seatAddr t.val 0x328)).toNat = false := by
  have ht := t.isLt
  have haddr : (BitVec.ofNat 22 (seatAddr t.val 0x328)).toNat = 0x100328 + 0x10000 * t.val := by
    rw [BitVec.toNat_ofNat, seatAddr]
    omega
  simp [emulated, haddr]
  omega
/-- What follows a write of MEM_ATOM_GO: it is answered at once when the atomic has been performed. -/
def State.atomWent (a : Acc) (y : Blk × Bool) (s : State) : State :=
  let s : State := { s with blk := y.1 }
  if y.2 then s.respond a true 0 else s
/-- A whole write of MEM_ATOM_GO is the register's own. -/
theorem State.perform_atom (hwhole : a.be = 15) (w : W32) :
    let op : HostOp := { acc := a, addr := BitVec.ofNat 22 (seatAddr a.seat.val 0x328), wdata := some w }
    s.perform op = s.atomic op w := by
  have hown : ¬ 0x8000 ≤ 0x328 := by decide
  simp only [State.perform, placeOf_seat, judge, judgeSeat, State.plain, hwhole, emulated_atom, hown, if_true, if_false,
    Option.isSome_some, bne_self_eq_false, Bool.and_false, Bool.false_eq_true]
theorem State.atomRow_served (hb : s.blk.Serves a) (hbelay : s.blk.dbg.belay = .running) (op : AtomOp) (wide : Bool) :
    s.atomRow a op wide = .next (State.settle (s.atomWent a (s.blk.freshResp.atomGo a.seat (atomWord op wide)))) := by
  have hfree : s.blk.freshResp.dbg.belay = .running := hbelay
  have ⟨_, _, _, hwhole⟩ := hb
  simp only [State.atomRow, State.access_served hb, State.perform_atom hwhole, State.atomic, hfree, ne_eq, not_true_eq_false,
    if_false, State.atomWent]

end

theorem atomWord_fields (op : AtomOp) (wide : Bool) : let w := atomWord op wide
    bit w 3 = wide ∧ atomOpOf (fld w 0 3) = some op ∧ fld w 4 28 = 0 := by
  cases op <;> cases wide <;> decide
/-- The atomic that a seat's registers describe. -/
def SeatRegs.atom (v : SeatRegs) (t : Seat) (op : AtomOp) (wide : Bool) : AtomReq :=
  { seat := t, op := op, wide := wide, off := BitVec.ofNat 6 (v.atomAddr.toNat % 64), opnd := v.atomOpnd, cmp := v.atomCmp }

section
variable {b : Blk} (r : AtomReq) (n : Nat) (k : Copy)

/-- A far atomic r has been performed on the copy k of line n, and the predictor has moved. -/
def Blk.farDone (b : Blk) : Blk := (b.performFar r n k).predict n false

theorem Blk.farDone_seat : (b.farDone r n k).seat r.seat = { b.seat r.seat with atomRes := (atomApply r k.data).1 } :=
  Blk.setSeat_seat _ _ _
theorem Blk.farDone_seat_ne {j : Nat} (h : j ≠ r.seat.val) : (b.farDone r n k).seat j = b.seat j := Blk.setSeat_seat_ne _ _ h
theorem Blk.farDone_copy : (b.farDone r n k).copy 68 n
    = some { k with data := (atomApply r k.data).2, st := .m, who := r.seat.val } :=
  Blk.putCopy_copy

end

section
variable {b : Blk} {t : Seat} {op : AtomOp} {wide : Bool}
variable (halign : (b.seat t).atomAddr.toNat % (if wide then 8 else 4) = 0)
include halign

theorem Blk.atomGo_near (hnear : b.goesNear ((b.seat t).atomAddr.toNat / 64) = true) : let r := (b.seat t).atom t op wide
    b.atomGo t (atomWord op wide)
      = (b.left t (.atomic r (b.seat t).atomAddr) (.atom (lineNo ((b.seat t).atomAddr.toNat / 64)) r), false) := by
  obtain ⟨hwide, hop, hrest⟩ := atomWord_fields op wide
  unfold Blk.atomGo
  simp only [hwide, hop, hrest, halign, hnear]
  rfl
theorem Blk.atomGo_far {k : Copy} (hfar : b.goesNear ((b.seat t).atomAddr.toNat / 64) = false)
    (hcopy : b.copy 68 ((b.seat t).atomAddr.toNat / 64) = some k) (hk : k.st = .m) : let n := (b.seat t).atomAddr.toNat / 64
    b.atomGo t (atomWord op wide) = (b.farDone ((b.seat t).atom t op wide) n k, true) := by
  obtain ⟨hwide, hop, hrest⟩ := atomWord_fields op wide
  unfold Blk.atomGo
  simp only [hwide, hop, hrest, halign, hfar, hcopy, hk]
  rfl

end

/-- Settles O35: an aperture access leaves as its message, and each atomic is `Blk.atomGo` of its word. -/
theorem windowLeaves : Obligations.WindowLeaves := by
  intro s a b v hb hbelay
  refine ⟨fun o => ⟨?_, fun d => ?_⟩, fun wide halign => ?_⟩
  · have hexec := exec_apertureRead hb hbelay o
    rw [Blk.aperRead_left] at hexec
    exact ⟨_, hexec, Blk.left_seat _ _ _, rfl, Blk.left_eq _ _ _, fun _ hj => Blk.left_seat_ne _ _ _ hj, Blk.left_mem _ _ _⟩
  · have hexec := exec_apertureWrite hb hbelay o d
    rw [Blk.aperWrite_left] at hexec
    exact ⟨_, hexec, Blk.left_seat _ _ _, rfl, Blk.left_eq _ _ _, fun _ hj => Blk.left_seat_ne _ _ _ hj, Blk.left_mem _ _ _⟩
  · intro n t others sent
    have hsent : ∀ (i : Instr) (op : AtomOp), exec i s = s.atomRow a op wide → sent i op := by
      intro i op hi
      rw [State.atomRow_served hb hbelay] at hi
      refine ⟨fun hnear => ?_, fun k hfar hcopy hk => ?_⟩
      · rw [Blk.atomGo_near (b := b.freshResp) halign hnear] at hi
        exact ⟨_, hi, Blk.left_seat _ _ _, Blk.left_mem _ _ _, Blk.left_eq _ _ _, fun _ hj => Blk.left_seat_ne _ _ _ hj⟩
      · rw [Blk.atomGo_far (b := b.freshResp) halign hfar hcopy hk] at hi
        let r := (b.seat a.seat).atom a.seat op wide
        have hresp : (b.freshResp.farDone r n k).host.resp = [] := rfl
        exact ⟨_, hi, Blk.respond_wrote b a hresp, Blk.farDone_seat r n k, congrArg (Option.map (·.data)) (Blk.farDone_copy (b := b.freshResp) r n k),
          rfl, rfl, fun _ hj => Blk.farDone_seat_ne r n k hj⟩
    exact ⟨hsent _ _ rfl, hsent _ _ rfl, hsent _ _ rfl, hsent _ _ rfl, hsent _ _ rfl, hsent _ _ rfl⟩

end Sys2Proof.Machine

/-! # Responses of the memory ports, and credits

A response frees its tag, and what its transaction was for goes on (`Blk.portDone`). None of that reaches the link or the tags of
any port (`Blk.linkTags`): only a slot gives a tag out. -/

namespace Sys2Proof.Machine

/-- The link and the tags of port p. -/
def Blk.linkTags (b : Blk) (p : Nat) : LinkSt × PMap PortReq := ((b.port p).link, (b.port p).tags)

/-! ### The link and the tags of a port stay (10 R277) -/

section
variable {b c : Blk} {p : Nat}

theorem Blk.linkTags_congr (h : c.mem.ports = b.mem.ports) : c.linkTags p = b.linkTags p := by
  unfold Blk.linkTags Blk.port
  rw [h]
theorem Blk.linkTags_setPort (q : Nat) {v : MPort} (hlink : v.link = (b.port q).link) (htags : v.tags = (b.port q).tags) :
    (b.setPort q v).linkTags p = b.linkTags p := by
  unfold Blk.linkTags
  by_cases hpq : p = q
  · subst hpq
    rw [Blk.setPort_port, hlink, htags]
  · rw [b.setPort_port_ne v hpq]
theorem Blk.linkTags_foldl {α : Type} {f : Blk → α → Blk} (h : ∀ b x, (f b x).linkTags p = b.linkTags p) (l : List α) (b : Blk) :
    (l.foldl f b).linkTags p = b.linkTags p :=
  List.foldlRecOn l f (motive := fun c => c.linkTags p = b.linkTags p) rfl fun c hc x _ => (h c x).trans hc
@[simp] theorem Blk.ite_fst_linkTags {β : Type} (P : Prop) [Decidable P] (y z : Blk × β) :
    (if P then y else z).1.linkTags p = if P then y.1.linkTags p else z.1.linkTags p := apply_ite (fun y : Blk × β => y.1.linkTags p) ..
theorem Blk.EngineWork.linkTags (h : b.EngineWork c) : c.linkTags p = b.linkTags p := Blk.linkTags_congr (by rw [h])
theorem Blk.PumpWork.linkTags (h : b.PumpWork c) : c.linkTags p = b.linkTags p := Blk.linkTags_congr (by rw [h])
theorem Blk.Logged.linkTags (h : b.Logged c) : c.linkTags p = b.linkTags p := by
  obtain ⟨hc, -⟩ := h
  exact Blk.linkTags_congr (by rw [hc])

/-! Each operation of a home. -/

@[simp] theorem Blk.send_linkTags (m : Instr) : (b.send m).linkTags p = b.linkTags p := rfl
@[simp] theorem Blk.bump_linkTags (key n : Nat) : (b.bump key n).linkTags p = b.linkTags p := rfl
@[simp] theorem Blk.setBusy_linkTags (line : Nat) (v : Option Busy) : (b.setBusy line v).linkTags p = b.linkTags p := rfl
@[simp] theorem Blk.setDir_linkTags (line : Nat) (e : Option DirEnt) : (b.setDir line e).linkTags p = b.linkTags p := rfl
@[simp] theorem Blk.putRc_linkTags (line : Nat) (l : RcLine) : (b.putRc line l).linkTags p = b.linkTags p := rfl
@[simp] theorem Blk.clearPoison_linkTags (line : Nat) : (b.clearPoison line).linkTags p = b.linkTags p := rfl
@[simp] theorem Blk.predict_linkTags (line : Nat) (agents : Bool) : (b.predict line agents).linkTags p = b.linkTags p := rfl
theorem Blk.near_linkTags (n : W32) : ({ b with mem := { b.mem with cohNear := n } } : Blk).linkTags p = b.linkTags p := rfl
@[simp] theorem Blk.addPresence_linkTags (line a : Nat) (own : Bool) : (b.addPresence line a own).linkTags p = b.linkTags p := rfl
@[simp] theorem Blk.supply_linkTags (line : Nat) (req : HomeReq) (d : Line) (excl : Bool) :
    (b.supply line req d excl).linkTags p = b.linkTags p := rfl
@[simp] theorem Blk.queuePort_linkTags (r : PortReq) : (b.queuePort r).linkTags p = b.linkTags p :=
  Blk.linkTags_setPort _ rfl rfl
@[simp] theorem Blk.writeVictim_linkTags (line : Nat) (l : RcLine) : (b.writeVictim line l).linkTags p = b.linkTags p :=
  Blk.queuePort_linkTags _
theorem Blk.makeRoom_linkTags {line : Nat} {ways : W16} {way : Nat} (h : b.makeRoom line ways = some (way, c)) :
    c.linkTags p = b.linkTags p := by
  unfold Blk.makeRoom at h
  dsimp only at h
  split at h
  · cases h
    rfl
  · split at h
    · cases h
    next v _ =>
      cases h
      split
      · rfl
      · split
        · exact Blk.writeVictim_linkTags v.1 v.2
        · rfl
@[simp] theorem Blk.delPresence_linkTags (line a : Nat) : (b.delPresence line a).linkTags p = b.linkTags p := by
  unfold Blk.delPresence
  split <;> rfl
@[simp] theorem Blk.freeEntry_linkTags (line : Nat) : (b.freeEntry line).linkTags p = b.linkTags p := by
  unfold Blk.freeEntry
  split <;> rfl
@[simp] theorem Blk.failRead_linkTags (line : Nat) (req : HomeReq) : (b.failRead line req).linkTags p = b.linkTags p := by
  unfold Blk.failRead
  split <;> simp
@[simp] theorem Blk.sendInvs_linkTags (line : Nat) (hs : List AgentId) : (b.sendInvs line hs).linkTags p = b.linkTags p :=
  Blk.linkTags_foldl (f := fun b a => b.send (.inv a (lineNo line))) (fun _ _ => rfl) hs b
@[simp] theorem Blk.performAt_linkTags (line : Nat) (v : Busy) (l : RcLine) : (b.performAt line v l).linkTags p = b.linkTags p := by
  unfold Blk.performAt
  dsimp only
  split
  · simp
  · rw [Blk.send_linkTags, Blk.near_linkTags, Blk.predict_linkTags, Blk.putRc_linkTags, Blk.setDir_linkTags]
  · rfl
@[simp] theorem Blk.supplyData_linkTags (line : Nat) (v : Busy) (d : Line) (poison : Bool) :
    (b.supplyData line v d poison).1.linkTags p = b.linkTags p := by
  unfold Blk.supplyData
  dsimp only
  split
  · simp
  · split <;> simp
@[simp] theorem Blk.homeRead_linkTags (x : Env) (line : Nat) (v : Busy) : (b.homeRead x line v).1.linkTags p = b.linkTags p := by
  unfold Blk.homeRead
  dsimp only
  split
  · split <;> simp
  · simp
@[simp] theorem Blk.performWrite_linkTags (x : Env) (line : Nat) (v : Busy) :
    (b.performWrite x line v).1.linkTags p = b.linkTags p := by
  unfold Blk.performWrite
  extract_lets h rq mask hit known miss cleared
  have hc : cleared.linkTags p = b.linkTags p := rfl
  clear_value known cleared
  split
  · simp [hit]
  · rw [Blk.ite_fst_linkTags, Blk.ite_fst_linkTags]
    split
    · rfl
    split
    · rfl
    cases known with
    | some d =>
      dsimp only
      split
      next h => simp [Blk.makeRoom_linkTags h, hc]
      · simp [hc]
    | none =>
      dsimp only
      split
      · simp [hc]
      · split <;> simp [hc]
@[simp] theorem Blk.readNew_linkTags (x : Env) (line : Nat) (v : Busy) : (b.readNew x line v).1.linkTags p = b.linkTags p := by
  unfold Blk.readNew
  split
  · simp
  · rfl
  · exact Blk.sendInvs_linkTags _ _
@[simp] theorem Blk.startReq_linkTags (x : Env) (line : Nat) (req : HomeReq) : (b.startReq x line req).1.linkTags p = b.linkTags p := by
  unfold Blk.startReq
  dsimp only
  (repeat' split) <;> simp
@[simp] theorem Blk.goOn_linkTags (x : Env) (line : Nat) (y : HomeStep) : (Blk.goOn x line y).1.linkTags p = y.1.linkTags p := by
  unfold Blk.goOn
  dsimp only
  split
  · rfl
  · split <;> simp
@[simp] theorem Blk.settleLine_linkTags (x : Env) (line n : Nat) (y : HomeStep) :
    (Blk.settleLine x line n y).linkTags p = y.1.linkTags p := by
  induction n generalizing y with
  | zero => rfl
  | succ n ih =>
    have hgo := Blk.goOn_linkTags (p := p) x line y
    unfold Blk.settleLine
    dsimp only
    split
    · exact hgo
    · split
      · exact hgo
      · split
        · exact hgo
        · rw [ih, Blk.startReq_linkTags]
          exact hgo
@[simp] theorem Blk.dirRetry_linkTags (x : Env) (line : Nat) : (b.dirRetry x line).linkTags p = b.linkTags p := by
  unfold Blk.dirRetry
  split <;> simp
@[simp] theorem afterLine_linkTags (x : Env) (line : Nat) (y : HomeStep) : (afterLine x line y).linkTags p = y.1.linkTags p := by
  simp [afterLine]
@[simp] theorem Blk.drainDone_linkTags (x : Env) (line : Nat) (resp : BitVec 2) : (b.drainDone x line resp).linkTags p = b.linkTags p := by
  unfold Blk.drainDone
  split
  · rfl
  · split
    · rw [afterLine_linkTags, Blk.send_linkTags]
      split
      · split <;> rfl
      · rfl
    · rfl
@[simp] theorem Blk.fillDone_linkTags (x : Env) (line : Nat) (d : Line) (resp : BitVec 2) :
    (b.fillDone x line d resp).linkTags p = b.linkTags p := by
  unfold Blk.fillDone
  split
  · rfl
  · dsimp only
    split
    · rfl
    split
    · simp
    split
    next h => split <;> simp [Blk.makeRoom_linkTags h]
    · split <;> simp

/-! A transaction that ends. -/

@[simp] theorem Blk.writtenBack_linkTags (q n : Nat) : (b.writtenBack q n).linkTags p = b.linkTags p := by
  unfold Blk.writtenBack
  dsimp only
  split
  · split
    · exact (Blk.finishCmd_leaves ..).1.linkTags
    · rfl
  · rfl
theorem MPort.noteErr_link (v : MPort) (r : PortReq) (resp : BitVec 2) (link : Bool) :
    (v.noteErr r resp link).link = v.link ∧ (v.noteErr r resp link).tags = v.tags := by
  unfold MPort.noteErr
  split <;> exact ⟨rfl, rfl⟩
@[simp] theorem Blk.portDone_linkTags (x : Env) (q : Fin 4) (r : PortReq) (d : Line) (resp : BitVec 2) (link : Bool) :
    (b.portDone x q r d resp link).linkTags p = b.linkTags p := by
  unfold Blk.portDone
  extract_lets noted refused
  have hnoted : noted.linkTags p = b.linkTags p := by
    simp only [noted]
    split
    · rfl
    · obtain ⟨hlink, htags⟩ := (b.port q).noteErr_link r resp link
      exact Blk.linkTags_setPort _ hlink htags
  have hrefused : ∀ c : Blk, (refused c).linkTags p = c.linkTags p := fun c => by
    simp only [refused]
    split <;> rfl
  clear_value noted refused
  split
  · split <;> simp [hnoted]
  · split
    · rw [hrefused, hnoted]
    next fors _ _ =>
      have hall := Blk.linkTags_foldl (p := p) (f := fun (b : Blk) (y : Nat × Nat) => b.writtenBack y.1 y.2)
        (fun _ y => Blk.writtenBack_linkTags y.1 y.2) fors (refused noted)
      rw [(Blk.pumpWork_pump _ x).linkTags, hall, hrefused, hnoted]

end

/-! ### A response with a tag (10 R275, 13 R343) -/

section
variable {s : State} {b : Blk} {p : Port} {tag : BitVec 9} {resp : BitVec 2} {t : Nat} {r : PortReq}

theorem exec_rdata (hup : s.blk.linkUp p = true) (d : Line) :
    exec (.rdata p tag d resp) s = .next { s with blk := s.blk.response s.env p tag.toNat false d resp } := by
  simp only [exec, execRdata, State.onBlk, hup, if_true]
theorem exec_rsp (hup : s.blk.linkUp p = true) :
    exec (.rsp p tag resp) s = .next { s with blk := s.blk.response s.env p tag.toNat true 0 resp } := by
  simp only [exec, execRsp, State.onBlk, hup, if_true]
theorem exec_creditReturn (hup : s.blk.linkUp p = true) (req wd : Bool) :
    exec (.creditReturn p req wd) s = .next { s with blk := s.blk.setPort p ((s.blk.port p).credit req wd) } := by
  simp only [exec, execCreditReturn, State.onBlk, hup, if_true, Blk.modPort]

/-- Port p without the transaction of tag t. -/
def Blk.freed (p : Port) (t : Nat) (b : Blk) : Blk := b.setPort p { b.port p with tags := PMap.del t (b.port p).tags }

@[simp] theorem Blk.send_port (m : Instr) (j : Nat) : (b.send m).port j = b.port j := rfl
theorem Blk.freed_port : (b.freed p t).port p = { b.port p with tags := PMap.del t (b.port p).tags } := b.setPort_port p _
theorem Blk.freed_port_ne {j : Nat} (h : j ≠ p.val) : (b.freed p t).port j = b.port j := b.setPort_port_ne _ h
theorem Blk.freed_tags : PMap.find t ((b.freed p t).port p).tags = none := by
  rw [Blk.freed_port]
  exact PMap.find_del_self _ _
theorem Blk.response_stale {l : LineNo} (x : Env) (hstale : PMap.find t (b.port p).stale = some l) (write : Bool) (d : Line) :
    b.response x p t write d resp = b.setPort p { b.port p with stale := PMap.del t (b.port p).stale } := by
  simp [Blk.response, hstale]
theorem Blk.response_tag (x : Env) (hstale : PMap.find t (b.port p).stale = none) (htag : PMap.find t (b.port p).tags = some r)
    (d : Line) : b.response x p t r.write d resp = (b.freed p t).portDone x p r d resp false := by
  simp [Blk.response, hstale, htag, Blk.freed]

end

/-! ### The line that a home read has come (10 R254, R264) -/

section
variable {b c : Blk} {n : Nat}

/-- Between the two blocks only a region cache differs, with what a line that leaves it takes along. -/
def Blk.RoomWork (b c : Blk) : Prop :=
  c = { b with
    mem := { b.mem with rc := c.mem.rc, clock := c.mem.clock, ports := c.mem.ports, bad := c.mem.bad }
    trc := { b.trc with tally := c.trc.tally } }

theorem Blk.RoomWork.homeOnly (h : b.RoomWork c) : b.HomeOnly c := by
  unfold Blk.RoomWork at h
  unfold Blk.HomeOnly
  rw [h]
theorem Blk.RoomWork.putRc (h : b.RoomWork c) (l : RcLine) : b.RoomWork (c.putRc n l) := by
  unfold Blk.RoomWork at *
  rw [h]
  rfl
theorem Blk.RoomWork.kept (h : b.RoomWork c) :
    c.mem.ring = b.mem.ring ∧ c.mem.busy = b.mem.busy ∧ c.mem.waitQ = b.mem.waitQ := by
  unfold Blk.RoomWork at h
  rw [h]
  exact ⟨rfl, rfl, rfl⟩
theorem Blk.makeRoom_roomWork {ways : W16} {way : Nat} (h : b.makeRoom n ways = some (way, c)) : b.RoomWork c := by
  unfold Blk.makeRoom at h
  dsimp only at h
  split at h
  · cases h
    rfl
  · split at h
    · cases h
    next v _ =>
      cases h
      split
      · rfl
      · split <;> rfl
/-- Data for a requester that keeps no copy: it is served, whether there is room for the line or not. -/
theorem Blk.fillDone_rdonce (x : Env) {k : Busy} {rq : Rq} (hbusy : PMap.find n b.mem.busy = some k) (hreq : k.req = .rdonce rq)
    (hwait : k.wait = .fill) (hinvs : k.invs = 0) (hack : k.ack = false) (hnone : b.NoneWaits n) (d : Line) :
    ∃ c, b.RoomWork c ∧ b.fillDone x n d 0 = (c.supply n (.rdonce rq) d false).setBusy n none := by
  have hserve : ∀ c, b.RoomWork c →
      afterLine x n (c.supplyData n k d false) = (c.supply n (.rdonce rq) d false).setBusy n none := by
    intro c hc
    obtain ⟨-, hcbusy, hcq⟩ := hc.kept
    rw [Blk.supplyData_rdonce hreq, afterLine_over x (hnone.congr hcq hcbusy) (by simp [Busy.over, hinvs, hack])]
  unfold Blk.fillDone
  simp only [hbusy, hwait, hreq, ne_eq, not_true_eq_false, if_false]
  split
  next way c hroom =>
    have hc := (Blk.makeRoom_roomWork hroom).putRc (n := n) { way := way, data := d, dirty := false, used := 0 }
    exact ⟨_, hc, hserve _ hc⟩
  · exact ⟨b, rfl, hserve b rfl⟩

end

/-! ### Write-backs (10 R275, 07 R219) -/

section
variable {b : Blk} {q n : Nat} {e : SbEntry} {p : Port} {r : PortReq} {resp : BitVec 2}

theorem Blk.portDone_homeRead (x : Env) (hwrite : r.write = false) (huse : r.use = .home n) (d : Line) (link : Bool) :
    b.portDone x p r d 0 link = b.fillDone x n d 0 := by
  simp [Blk.portDone, hwrite, huse]
/-- A write-back that no MEMBAR waits for leaves nothing. -/
theorem Blk.portDone_writeback (x : Env) (huse : r.use = .writeback []) (d : Line) : b.portDone x p r d 0 false = b := by
  simp [Blk.portDone, huse]
/-- One that is refused leaves the first error of its port, and word of it. -/
theorem Blk.portDone_refused (x : Env) (huse : r.use = .writeback []) (hresp : resp ≠ 0) (d : Line) : b.portDone x p r d resp false
    = (b.setPort p ((b.port p).noteErr r resp false)).send (.wbRefused p r.line resp) := by
  have hresp' : resp ≠ 0#2 := hresp
  simp [Blk.portDone, huse, hresp', Blk.modPort]
theorem Blk.portDone_awaited (x : Env) (huse : r.use = .writeback [(q, n)]) (d : Line) :
    b.portDone x p r d 0 false = (b.writtenBack q n).pump x := by
  simp [Blk.portDone, huse]
theorem MPort.noteErr_first {v : MPort} (h : v.errValid = false) (r : PortReq) (resp : BitVec 2) (link : Bool) :
    let u := v.noteErr r resp link
    u.errValid = true ∧ u.errResp = resp ∧ u.errSrc = r.src ∧ u.errSeat = r.seat ∧ u.errAddr = BitVec.ofNat 64 (64 * r.line.toNat) := by
  simp [MPort.noteErr, h]

/-- One of the write-backs that a MEMBAR waits for is over. -/
def SbEntry.oneBack (e : SbEntry) : SbEntry :=
  match e.prog with
  | .membar s k => { e with prog := .membar s (k - 1) }
  | _ => e
theorem SbEntry.oneBack_place (e : SbEntry) : e.oneBack.q = e.q ∧ e.oneBack.n = e.n := by
  unfold SbEntry.oneBack
  split <;> exact ⟨rfl, rfl⟩
theorem SbEntry.oneBack_last (h : e.prog = .membar true 1) : e.oneBack = e.scanOver := by
  unfold SbEntry.oneBack
  rw [h]
  rfl
/-- The last write-back of a MEMBAR completes it. -/
theorem Blk.writtenBack_last (hrun : b.running = true) (he : b.entry q n = some e) (hprog : e.prog = .membar true 1)
    (hend : e.ending = none) : b.writtenBack q n = (b.modEntry q n SbEntry.oneBack).complete e.scanOver .ok 0 := by
  have hentry : (b.modEntry q n SbEntry.oneBack).entry q n = some e.scanOver := by
    rw [Blk.modEntry_entry fun e => e.oneBack_place, he, Option.map_some, SbEntry.oneBack_last hprog]
  unfold Blk.writtenBack
  dsimp only
  split
  next u hu =>
    obtain rfl : u = e.scanOver := Option.some.inj (hu.symm.trans hentry)
    exact (if_pos hrun).trans (Blk.finishCmd_scanOver hend)
  next hu => exact absurd (hu.symm.trans hentry) (by simp)

end

/-- Settles O36: the tag is free (`Blk.freed`), and what the transaction was for goes on. -/
theorem portResponses : Obligations.PortResponses := by
  intro s p tag r b v t hup
  refine ⟨?_, ?_, ?_, ?_, ?_⟩
  · intro d rq k line hstale htag hwrite huse hbusy hreq hwait hinvs hack hq hothers
    have hnone : (b.freed p t).NoneWaits line.toNat := ⟨hq, fun w hw => (hothers w hw).2⟩
    obtain ⟨c, hc, hfill⟩ := Blk.fillDone_rdonce (b := b.freed p t) s.env hbusy hreq hwait hinvs hack hnone d
    obtain ⟨hring, hcbusy, -⟩ := hc.kept
    have hexec := exec_rdata (tag := tag) (resp := 0) hup d
    rw [← hwrite, Blk.response_tag s.env hstale htag, Blk.portDone_homeRead s.env hwrite huse, hfill] at hexec
    refine ⟨_, hexec, ?_, ?_, ?_, ?_⟩
    · have hkept := (b.freed p t).fillDone_linkTags (p := p) s.env line.toNat d 0
      rw [hfill] at hkept
      exact (congrArg (fun y => PMap.find t y.2) hkept).trans Blk.freed_tags
    · simp [hring, HomeReq.rq]
      rfl
    · refine Blk.setBusy_isBusy fun w hw => (hothers w ?_).1
      exact hcbusy ▸ hw
    · exact Blk.HomeOnly.trans (c := b.freed p t) rfl (hc.homeOnly.trans rfl)
  · intro resp hstale htag hwrite huse
    have hexec := exec_rsp (tag := tag) (resp := resp) hup
    rw [← hwrite, Blk.response_tag s.env hstale htag] at hexec
    by_cases hresp : resp = 0
    · subst hresp
      rw [Blk.portDone_writeback s.env huse] at hexec
      exact ⟨_, hexec, Blk.freed_tags, fun _ hj => b.setPort_port_ne _ hj, rfl, fun _ => rfl, fun h => absurd rfl h⟩
    · rw [Blk.portDone_refused s.env huse hresp] at hexec
      refine ⟨_, hexec, ?_, fun j hj => ?_, ?_, fun h => absurd h hresp, fun _ => ⟨rfl, fun hfirst => ?_⟩⟩
      · rw [Blk.send_port, Blk.setPort_port, ((b.freed p t).port p).noteErr_link r resp false |>.2]
        exact Blk.freed_tags
      · rw [Blk.send_port, Blk.setPort_port_ne _ _ hj]
        exact b.setPort_port_ne _ hj
      · rfl
      · rw [Blk.send_port, Blk.setPort_port]
        have hfirst' : ((b.freed p t).port p).errValid = false := by rwa [Blk.freed_port]
        exact MPort.noteErr_first hfirst' r resp false
  · intro q n e hstale htag hwrite huse hrun he hprog hend hop
    have hexec := exec_rsp (tag := tag) (resp := 0) hup
    let c := b.freed p t
    rw [← hwrite, Blk.response_tag s.env hstale htag, Blk.portDone_awaited s.env huse,
      Blk.writtenBack_last (b := c) hrun he hprog hend] at hexec
    obtain ⟨hq, hn⟩ := Blk.entry_spec he
    have hwork := (c.queueWork_modEntry q n SbEntry.oneBack).trans (Blk.queueWork_complete e.scanOver .ok 0 _)
    have hport : ∀ j, ((c.modEntry q n SbEntry.oneBack).complete e.scanOver .ok 0).port j = c.port j := fun j => by
      unfold Blk.port
      rw [hwork.ports]
    refine ⟨_, hexec, Blk.complete_scanOver hop hq hn, (hport p).trans Blk.freed_port,
      fun j hj => (hport j).trans (Blk.freed_port_ne hj), ?_⟩
    rw [hwork.ports]
    exact hwork
  · intro l d resp hstale
    exact ⟨by rw [exec_rdata hup, Blk.response_stale s.env hstale], by rw [exec_rsp hup, Blk.response_stale s.env hstale]⟩
  · intro req wd
    refine ⟨_, exec_creditReturn hup req wd, ?_⟩
    rw [Blk.setPort_port]
    refine ⟨rfl, ?_, ?_⟩
    · simp [MPort.credit, v, b]
    · simp [MPort.credit, v, b]

end Sys2Proof.Machine

/-! # The link layer of the memory ports and of internal links

A flit that meets no injection goes to the receiver as it is (`Blk.tetherFlit_up`, `Blk.internalFlit_idle`); a replay sends every
kept flit again (`Blk.replayFrom_again`), and a link that goes DOWN keeps no transaction (`Blk.linkDown_linkTags`). -/

namespace Sys2Proof.Machine

/-! ### What a flit of a Tether link reaches -/

/-- Between the two blocks only port p differs. -/
def Blk.PortAlone (b : Blk) (p : Nat) (c : Blk) : Prop :=
  c = { b with mem := { b.mem with ports := c.mem.ports } } ∧ ∀ j, j ≠ p → c.port j = b.port j
/-- Between the two blocks only port p, the error log and counters differ. -/
def Blk.LinkWork (b : Blk) (p : Nat) (c : Blk) : Prop :=
  b.flt.LogOnly c.flt
  ∧ c = { b with
      mem := { b.mem with ports := c.mem.ports }, flt := c.flt, trc := { b.trc with tally := c.trc.tally }
      dbg := { b.dbg with injs := c.dbg.injs } }
  ∧ ∀ j, j ≠ p → c.port j = b.port j

section
variable {b c d : Blk} {p : Nat}

@[simp] theorem Blk.modPort_port (f : MPort → MPort) : (b.modPort p f).port p = f (b.port p) := b.setPort_port p _
@[simp] theorem Blk.bump_port (key n j : Nat) : (b.bump key n).port j = b.port j := rfl
theorem Blk.portAlone_modPort (b : Blk) (p : Nat) (f : MPort → MPort) : b.PortAlone p (b.modPort p f) :=
  ⟨rfl, fun _ hj => b.setPort_port_ne _ hj⟩
theorem Blk.PortAlone.trans (h : b.PortAlone p c) (k : c.PortAlone p d) : b.PortAlone p d := by
  obtain ⟨hc, hcj⟩ := h
  obtain ⟨hd, hdj⟩ := k
  refine ⟨?_, fun j hj => (hdj j hj).trans (hcj j hj)⟩
  rw [hc] at hd
  exact hd
theorem Blk.PortAlone.modPort (h : b.PortAlone p c) (f : MPort → MPort) : b.PortAlone p (c.modPort p f) :=
  h.trans (c.portAlone_modPort p f)
theorem Blk.LinkWork.trans (h : b.LinkWork p c) (k : c.LinkWork p d) : b.LinkWork p d := by
  obtain ⟨hlog, hc, hcj⟩ := h
  obtain ⟨hlog', hd, hdj⟩ := k
  refine ⟨?_, ?_, fun j hj => (hdj j hj).trans (hcj j hj)⟩
  · unfold Faults.LogOnly at *
    rw [hlog] at hlog'
    exact hlog'
  · rw [hc] at hd
    exact hd
theorem Blk.PortAlone.linkWork (h : b.PortAlone p c) : b.LinkWork p c := by
  obtain ⟨hc, hj⟩ := h
  have hflt : c.flt = b.flt := by rw [hc]
  refine ⟨?_, ?_, hj⟩
  · rw [hflt]
    rfl
  · rw [hc]
theorem Blk.LinkWork.modPort (h : b.LinkWork p c) (f : MPort → MPort) : b.LinkWork p (c.modPort p f) :=
  h.trans (c.portAlone_modPort p f).linkWork
theorem Blk.LinkWork.bump (h : b.LinkWork p c) (key n : Nat) : b.LinkWork p (c.bump key n) := h.trans ⟨rfl, rfl, fun _ _ => rfl⟩
theorem Blk.Logged.port (h : b.Logged c) (p : Nat) : c.port p = b.port p := by
  obtain ⟨hc, -⟩ := h
  rw [hc]
  rfl
theorem Blk.Logged.linkWork (h : b.Logged c) : b.LinkWork p c := by
  obtain ⟨hc, hlog⟩ := h
  refine ⟨hlog, ?_, fun j _ => Blk.Logged.port ⟨hc, hlog⟩ j⟩
  rw [hc]
theorem Blk.InjIdle.linkWork (h : b.InjIdle c) : b.LinkWork p c := by
  have hport := h.port
  obtain ⟨hc, -⟩ := h
  refine ⟨?_, ?_, fun j _ => hport j⟩
  · rw [hc]
    rfl
  · rw [hc]
theorem Blk.NoInjection.congr (h : b.NoInjection) (hdbg : c.dbg = b.dbg) : c.NoInjection := by
  unfold Blk.NoInjection Blk.injector at *
  rwa [hdbg]

end

/-! ### The receiver (10 R279, 13 R333, R334) -/

section
variable {s : State} {b : Blk} {p : Port} {f : BitVec 608}

theorem exec_flitReceive_tether (hrun : s.blk.linksRun = true) :
    exec (.flitReceive (.tether p f)) s = .next { s with blk := s.blk.tetherFlit s.env p f } := by
  simp only [exec, execFlitReceive, State.onBlk, hrun, Bool.not_true, Bool.false_eq_true, if_false]
theorem exec_train (hrun : s.blk.linksRun = true) (htrain : (s.blk.port p).link = .training) :
    exec (.train p f) s = .next { s with blk := s.blk.trainFlit s.env p f } := by
  simp only [exec, execTrain, State.onBlk, hrun, if_true, Blk.tetherFlit, htrain]
/-- With no injection a flit reaches the receiver of a link that is up. -/
theorem Blk.tetherFlit_up (x : Env) (hup : (b.port p).link = .up) (hno : b.NoInjection) (f : BitVec 608) :
    ∃ c, b.InjIdle c ∧ b.tetherFlit x p f = c.rxFlit x p f := by
  let l := (b.port p).lnk
  let replay := if l.discard then rxSeqOf f == l.rxSeq else decide (0 < l.redo)
  obtain ⟨hflits, hidle⟩ := Blk.inject_idle (0x300 + p.val) (some true) (bit f 0 || bit f 524) replay f hno
  refine ⟨_, hidle, ?_⟩
  unfold Blk.tetherFlit
  simp only [hup]
  rw [hflits, List.foldl_cons, List.foldl_nil, hidle.port, hup, if_pos rfl]

/-- Flit f, the next in order, has been taken: what it acknowledges, its number passed, and its credits. -/
def MPort.takes (f : BitVec 608) (v : MPort) : MPort :=
  let l := v.lnk.ack (BitVec.ofNat 8 (fld f 546 8))
  ({ v with lnk := { l with rxSeq := v.lnk.rxSeq + 1, discard := false, rxBad := 0, redo := v.lnk.redo - 1 } } : MPort).credit (bit f 536)
    (bit f 537)
/-- The next flit in order, without beats and no NAK. -/
theorem Blk.rxFlit_next (x : Env) (hgood : rxGood f = true) (hdata : bit f 555 = false) (hseq : rxSeqOf f = (b.port p).lnk.rxSeq)
    (hread : bit f 0 = false) (hwrite : bit f 524 = false) (hnak : bit f 554 = false) :
    (b.rxFlit x p f).port p = (b.port p).takes f ∧ b.PortAlone p (b.rxFlit x p f) := by
  simp only [Blk.rxFlit, hgood, hdata, hseq, hnak, Blk.deliver, hread, hwrite, if_true, if_false, Bool.not_false, Bool.and_self,
    beq_self_eq_true, Bool.false_eq_true]
  exact ⟨by simp only [Blk.modPort_port]; rfl, ((b.portAlone_modPort p _).modPort _).modPort _⟩

theorem Blk.noteReplay_port (x : Env) : (b.noteReplay x p).port p = { b.port p with replay := satInc (b.port p).replay } := by
  unfold Blk.noteReplay
  rw [(Blk.log_logged x _ _).port, Blk.bump_port, Blk.modPort_port]
theorem Blk.noteReplay_dbg (x : Env) : (b.noteReplay x p).dbg = b.dbg := by
  unfold Blk.noteReplay
  obtain ⟨hc, -⟩ := Blk.log_logged x { kind := 3, code := 1, time := x.now, unit := BitVec.ofNat 12 (0x300 + p.val) }
    ((b.modPort p fun v => { v with replay := satInc v.replay }).bump (evBlk 0x16 p) 1)
  dsimp only
  rw [hc]
  rfl
theorem Blk.linkWork_noteReplay (x : Env) (b : Blk) (p : Port) : b.LinkWork p (b.noteReplay x p) :=
  ((b.portAlone_modPort p _).linkWork.bump _ _).trans (Blk.log_logged x _ _).linkWork
/-- A port that has asked for the expected number again. -/
def MPort.nakSent (v : MPort) : MPort :=
  { v with
    replay := satInc v.replay, lnk := { v.lnk with nakDue := true, discard := true, rxBad := v.lnk.rxBad + 1 } }
theorem Blk.sendNak_short (x : Env) (hbad : (b.port p).lnk.rxBad < 15) :
    (b.sendNak x p).port p = (b.port p).nakSent ∧ b.LinkWork p (b.sendNak x p) := by
  let u : MPort → MPort := fun v => { v with lnk := { v.lnk with nakDue := true, discard := true, rxBad := v.lnk.rxBad + 1 } }
  let c := (b.modPort p u).noteReplay x p
  have hport : c.port p = (b.port p).nakSent := by
    rw [Blk.noteReplay_port, Blk.modPort_port]
    rfl
  have hshort : ¬ 16 ≤ (c.port p).lnk.rxBad := by
    rw [hport]
    exact Nat.not_le.2 (Nat.succ_lt_succ hbad)
  have hnak : b.sendNak x p = c := if_neg hshort
  rw [hnak]
  exact ⟨hport, (b.portAlone_modPort p u).linkWork.trans (Blk.linkWork_noteReplay x _ p)⟩
/-- A flit with a bad CRC is counted, and the expected number asked for again. -/
theorem Blk.rxFlit_bad (x : Env) (hgood : rxGood f = false) (hdiscard : (b.port p).lnk.discard = false) (hbad : (b.port p).lnk.rxBad < 15) :
    let v := b.port p
    (b.rxFlit x p f).port p
        = ({ v with crcErr := satInc v.crcErr, lnk := { v.lnk with redo := v.lnk.redo + 1 } } : MPort).nakSent
      ∧ b.LinkWork p (b.rxFlit x p f) := by
  intro v
  let c := (b.modPort p fun v => { v with crcErr := satInc v.crcErr }).modPort p fun u => { u with lnk := { u.lnk with redo := v.lnk.redo + 1 } }
  have hport : c.port p = { v with crcErr := satInc v.crcErr, lnk := { v.lnk with redo := v.lnk.redo + 1 } } := by
    rw [Blk.modPort_port, Blk.modPort_port]
  have hrx : b.rxFlit x p f = c.sendNak x p := by
    simp only [Blk.rxFlit, hgood, hdiscard, Bool.false_and, Bool.false_eq_true, if_false]
    rfl
  obtain ⟨hnak, hwork⟩ := Blk.sendNak_short (b := c) x (by rw [hport]; exact hbad)
  rw [hrx]
  refine ⟨?_, ((b.portAlone_modPort p _).modPort _).linkWork.trans hwork⟩
  rw [hnak, hport]

end

/-! ### Training (13 R335) -/

section
variable {b : Blk} {p : Port} {f : BitVec 608}

/-- A training flit counts, and tells the grants. -/
theorem Blk.trainFlit_trains (x : Env) (hgot : (b.port p).got0 = false) (hgood : rxGood f = true) (hseq : rxSeqOf f = 0)
    (htrain : bit f 555 = true) (hread : bit f 0 = false) (hwrite : bit f 524 = false) (hreq : bit f 536 = false)
    (hwd : bit f 537 = false) (hgrant : (1 ≤ fld f 10 7 ∧ fld f 10 7 ≤ 64) ∧ 1 ≤ fld f 18 7 ∧ fld f 18 7 ≤ 64) :
    let v := b.port p
    b.trainFlit x p f = b.setPort p { v with
      training := v.training + 1, reqGrant := BitVec.ofNat 8 (fld f 10 7), wdGrant := BitVec.ofNat 8 (fld f 18 7) } := by
  obtain ⟨⟨hreq1, hreq64⟩, hwd1, hwd64⟩ := hgrant
  simp [Blk.trainFlit, hgot, hgood, hseq, htrain, hread, hwrite, hreq, hwd, hreq1, hreq64, hwd1, hwd64]
/-- A port that has the first data flit; its link is up if one has been sent too. -/
def MPort.firstData (v : MPort) : MPort := ({ v with got0 := true } : MPort).upIf
/-- The first data flit of a link that has trained is taken. -/
theorem Blk.trainFlit_data (x : Env) (hgot : (b.port p).got0 = false) (htrained : 32 ≤ (b.port p).training) (hgood : rxGood f = true)
    (hseq : rxSeqOf f = 0) (hdata : bit f 555 = false) :
    b.trainFlit x p f = (b.setPort p (b.port p).firstData).rxFlit x p f := by
  simp [Blk.trainFlit, hgot, hgood, hseq, hdata, htrained, MPort.firstData]

end

/-! ### Replays (10 R279, 13 R334) -/

section
variable {s : State} {b c : Blk} {p : Port} {n : W8}

theorem exec_nak (hup : s.blk.linkUp p = true) (n : W8) :
    exec (.nak p n) s = .next { s with blk := s.blk.replayFrom s.env p n } := by
  simp only [exec, execNak, State.onBlk, hup, if_true]
theorem exec_replayTimeout (hup : s.blk.linkUp p = true) {f : W8 × BitVec 736} {r : List (W8 × BitVec 736)}
    (hstore : (s.blk.port p).lnk.store = f :: r) :
    exec (.replayTimeout p) s = .next { s with blk := s.blk.replayFrom s.env p f.1 } := by
  simp only [exec, execReplayTimeout, State.onBlk, hstore, hup, if_true]
theorem exec_trainingTimeout (hrun : s.blk.linksRun = true) (htrain : (s.blk.port p).link = .training) :
    exec (.trainingTimeout p) s = .next { s with blk := s.blk.linkDown s.env p } := by
  simp [exec, execTrainingTimeout, State.onBlk, hrun, htrain]

/-- The next flit on MPn_TX meets the units of its direction. -/
def Blk.injectNext (p : Nat) (replay : Bool) (y : List (BitVec 736) × Blk) (f : BitVec 736) : List (BitVec 736) × Blk :=
  let z := y.2.inject (0x300 + p) (some false) (bit f 0 || bit f 78) replay f
  (y.1 ++ z.1, z.2)
theorem Blk.injectTx_eq (p : Nat) (replay : Bool) (b : Blk) : let y := (b.port p).tx.foldl (Blk.injectNext p replay) ([], b)
    b.injectTx p replay = y.2.modPort p fun v => { v with tx := y.1 } := rfl
theorem Blk.injectNext_idle (p : Nat) (replay : Bool) (y : List (BitVec 736) × Blk) (f : BitVec 736) (h : y.2.NoInjection) :
    (Blk.injectNext p replay y f).1 = y.1 ++ [f] ∧ y.2.InjIdle (Blk.injectNext p replay y f).2 := by
  obtain ⟨hflits, hidle⟩ := Blk.inject_idle (0x300 + p) (some false) (bit f 0 || bit f 78) replay f h
  unfold Blk.injectNext
  dsimp only
  rw [hflits]
  exact ⟨rfl, hidle⟩
/-- Flits meet units that do nothing, one after the other. -/
theorem Blk.injectNexts_idle (p : Nat) (replay : Bool) (l : List (BitVec 736)) (y : List (BitVec 736) × Blk) (h : y.2.NoInjection) :
    (l.foldl (Blk.injectNext p replay) y).1 = y.1 ++ l ∧ y.2.InjIdle (l.foldl (Blk.injectNext p replay) y).2 := by
  induction l generalizing y with
  | nil => exact ⟨(List.append_nil _).symm, h.idle⟩
  | cons f l ih =>
    obtain ⟨hnext, hidle⟩ := Blk.injectNext_idle p replay y f h
    obtain ⟨hrest, hidle'⟩ := ih (Blk.injectNext p replay y f) hidle.2
    rw [List.foldl_cons]
    exact ⟨by rw [hrest, hnext, List.append_assoc, List.singleton_append], hidle.trans hidle'⟩
/-- The flits on MPn_TX meet units that do nothing, and go out as they are. -/
theorem Blk.injectTx_all (p : Nat) (replay : Bool) (h : b.NoInjection) :
    (b.injectTx p replay).port p = b.port p ∧ b.LinkWork p (b.injectTx p replay) := by
  obtain ⟨hflits, hidle⟩ := Blk.injectNexts_idle p replay (b.port p).tx ([], b) h
  rw [Blk.injectTx_eq, hflits]
  refine ⟨?_, hidle.linkWork.modPort _⟩
  rw [Blk.modPort_port, hidle.port]
  rfl

/-- A port on which every flit that is kept, in l, is sent again. -/
def MPort.sendsAgain (l : Link) (v : MPort) : MPort :=
  { v with lnk := { l with replays := l.replays + 1 }, replay := satInc v.replay, tx := l.store.map (·.2) }
/-- A replay of flits that are kept: they are sent again, and after the 16th replay the link goes DOWN. -/
theorem Blk.replayFrom_again (x : Env) (hno : b.NoInjection) (hstore : ((b.port p).lnk.ack n).store ≠ []) :
    let l := (b.port p).lnk.ack n
    ∃ c, c.port p = (b.port p).sendsAgain l ∧ b.LinkWork p c
      ∧ b.replayFrom x p n = if 16 ≤ l.replays + 1 then c.linkDown x p else c := by
  intro l
  let c := ((b.modPort p fun v => { v with lnk := { l with replays := l.replays + 1 } }).noteReplay x p).modPort p
    fun v => { v with tx := l.store.map (·.2) }
  have hwork : b.LinkWork p c := ((b.portAlone_modPort p _).linkWork.trans (Blk.linkWork_noteReplay x _ p)).modPort _
  have hport : c.port p = (b.port p).sendsAgain l := by
    rw [Blk.modPort_port, Blk.noteReplay_port, Blk.modPort_port]
    rfl
  have hdbg : c.dbg = b.dbg := Blk.noteReplay_dbg x
  obtain ⟨hsame, hsent⟩ := Blk.injectTx_all (b := c) p true (hno.congr hdbg)
  refine ⟨_, hsame.trans hport, hwork.trans hsent, ?_⟩
  have hkept : l.store.isEmpty = false := by simpa using hstore
  unfold Blk.replayFrom
  exact if_neg (by rw [hkept]; exact Bool.false_ne_true)
/-- A NAK that leaves no flit unacknowledged. -/
theorem Blk.replayFrom_acked (x : Env) (hstore : ((b.port p).lnk.ack n).store = []) :
    b.replayFrom x p n = b.setPort p { b.port p with lnk := (b.port p).lnk.ack n } := by
  unfold Blk.replayFrom
  exact if_pos (by simp [hstore])

/-! ### A link that goes DOWN (10 R280) -/

theorem Blk.callRung_linkTags (step target : Nat) (cause : W8) (j : Nat) : (b.callRung step target cause).linkTags j = b.linkTags j := by
  unfold Blk.callRung
  dsimp only
  split <;> rfl
theorem Blk.failAll_linkTags (x : Env) (rs : List PortReq) (j : Nat) : (b.failAll x p rs).linkTags j = b.linkTags j :=
  Blk.linkTags_foldl (f := fun (b : Blk) r => b.portDone x p r 0 1 true) (fun _ r => Blk.portDone_linkTags x p r 0 1 true) rs b
/-- A link that has gone DOWN has no transaction. -/
theorem Blk.linkDown_linkTags (x : Env) : (b.linkDown x p).linkTags p = (.down, []) := by
  unfold Blk.linkDown
  dsimp only
  rw [Blk.callRung_linkTags, Blk.failAll_linkTags, (Blk.log_logged x _ _).linkTags, Blk.linkTags, Blk.setPort_port]
theorem Blk.linkDown_port (x : Env) : ((b.linkDown x p).port p).link = .down ∧ ((b.linkDown x p).port p).tags = [] :=
  ⟨congrArg Prod.fst (b.linkDown_linkTags x), congrArg Prod.snd (b.linkDown_linkTags x)⟩

end

/-! ### Internal links (16 R409) -/

section
variable (good : Bool) (seq : W8)

theorem intFlit_toNat : (intFlit good seq).toNat = seq.toNat + 256 * b2n good + 2 ^ 300 * seq.toNat := by
  have hseq := seq.isLt
  have hgood : b2n good ≤ 1 := by cases good <;> decide
  rw [intFlit, BitVec.toNat_ofNat]
  omega
theorem intFlit_seq : BitVec.ofNat 8 (fld (intFlit good seq) 0 8) = seq := by
  have hseq := seq.isLt
  refine BitVec.eq_of_toNat_eq ?_
  rw [BitVec.toNat_ofNat, fld, intFlit_toNat, Nat.shiftRight_zero]
  omega
theorem intFlit_good : (intFlit good seq == intFlit true seq) = good := by
  cases good with
  | true => exact beq_self_eq_true _
  | false =>
    refine beq_eq_false_iff_ne.2 fun h => ?_
    have hnat := congrArg BitVec.toNat h
    rw [intFlit_toNat, intFlit_toNat, b2n, b2n] at hnat
    generalize 2 ^ 300 * seq.toNat = high at hnat
    simp at hnat

end

section
variable {s : State} {b c d : Blk} {n u : Nat} {good : Bool} {seq : W8}

/-- Between the two blocks only the counters of injection units and the count of free values differ. -/
def Blk.InjectWork (b c : Blk) : Prop := c = { b with dbg := { b.dbg with injs := c.dbg.injs }, freeCtr := c.freeCtr }

theorem Blk.InjIdle.injectWork (h : b.InjIdle c) : b.InjectWork c := by
  obtain ⟨hc, -⟩ := h
  unfold Blk.InjectWork
  rw [hc]
theorem Blk.InjIdle.injectWork_drawn (h : b.drawFree.2.InjIdle c) : b.InjectWork c := by
  obtain ⟨hc, -⟩ := h
  unfold Blk.InjectWork
  rw [hc]
  rfl
theorem exec_flitReceive_internal (hrun : s.blk.linksRun = true) (i : BitVec 12) :
    exec (.flitReceive (.internal i good seq)) s = .next { s with blk := s.blk.internalFlit s.env i.toNat good seq } := by
  simp only [exec, execFlitReceive, State.onBlk, hrun, Bool.not_true, Bool.false_eq_true, if_false]
/-- With no injection an internal flit reaches the receiver of its link as it is. -/
theorem Blk.internalFlit_idle (x : Env) (hno : b.NoInjection) (hunit : linkUnit n = some u) (hdown : n ∉ b.flt.linksDown)
    (good : Bool) (seq : W8) : ∃ c, b.InjectWork c ∧ b.internalFlit x n good seq = c.intRx x n u good seq := by
  let l := b.intLink n
  let replay := if l.discard then seq == l.rxSeq else decide (0 < l.redo)
  have hrx : ∀ y : List (BitVec 608) × Blk, y.1 = [intFlit good seq] →
      y.1.foldl (fun b g => Blk.intRx x n u (g == intFlit true (BitVec.ofNat 8 (fld g 0 8))) (BitVec.ofNat 8 (fld g 0 8)) b) y.2
        = y.2.intRx x n u good seq := by
    intro y hy
    rw [hy, List.foldl_cons, List.foldl_nil, intFlit_seq, intFlit_good]
  have hopen : b.flt.linksDown.contains n = false := by simpa using hdown
  unfold Blk.internalFlit
  simp only [hunit, hopen, Bool.false_eq_true, if_false]
  split
  · have hno' : b.drawFree.2.NoInjection := hno
    obtain ⟨hflits, hidle⟩ := Blk.inject_idle n (some (bit b.drawFree.1 0)) true replay (intFlit good seq) hno'
    exact ⟨_, hidle.injectWork_drawn, hrx _ hflits⟩
  · obtain ⟨hflits, hidle⟩ := Blk.inject_idle n none true replay (intFlit good seq) hno
    exact ⟨_, hidle.injectWork, hrx _ hflits⟩

end

/-! ### The receiver of an internal link -/

/-- What of the error unit an internal link reaches besides the log: the links themselves and their counts. -/
def Faults.linkCounts (f : Faults) : SMap Link × W32 × W32 := (f.links, f.linkCrc, f.linkReplay)

theorem Faults.linkCounts_inj {f g : Faults} (h : g.linkCounts = f.linkCounts) :
    g.links = f.links ∧ g.linkCrc = f.linkCrc ∧ g.linkReplay = f.linkReplay := by
  simpa [Faults.linkCounts] using h
theorem Faults.LogOnly.linkCounts {f g : Faults} (h : f.LogOnly g) : g.linkCounts = f.linkCounts := by rw [h]; rfl
theorem Faults.LogOnly.linksDown {f g : Faults} (h : f.LogOnly g) : g.linksDown = f.linksDown := by rw [h]
theorem Faults.LogOnly.ofLinks {f g : Faults} {links : SMap Link} {crc rep : W32}
    (h : ({ f with links := links, linkCrc := crc, linkReplay := rep } : Faults).LogOnly g) :
    ({ f with links := g.links, linkCrc := g.linkCrc, linkReplay := g.linkReplay } : Faults).LogOnly g := by
  unfold Faults.LogOnly at *
  rw [h]

section
variable {b c d : Blk} {n u : Nat} {seq : W8}

/-- Between the two blocks only the error unit and counts of events differ. -/
def Blk.FaultWork (b c : Blk) : Prop := c = { b with flt := c.flt, trc := { b.trc with tally := c.trc.tally } }

theorem Blk.FaultWork.trans (h : b.FaultWork c) (k : c.FaultWork d) : b.FaultWork d := by
  unfold Blk.FaultWork at *
  rw [h] at k
  exact k
theorem Blk.Logged.faultWork (h : b.Logged c) : b.FaultWork c := by
  obtain ⟨hc, -⟩ := h
  unfold Blk.FaultWork
  rw [hc]
theorem Blk.faultWork_callRung (step target : Nat) (cause : W8) (b : Blk) : b.FaultWork (b.callRung step target cause) := by
  unfold Blk.callRung
  dsimp only
  split <;> rfl
theorem Blk.callRung_flt (step target : Nat) (cause : W8) (b : Blk) :
    (b.callRung step target cause).flt = { b.flt with called := (b.callRung step target cause).flt.called } := by
  unfold Blk.callRung
  dsimp only
  split <;> rfl
/-- A rung that is called for is called, ordered or in progress. -/
theorem Blk.callRung_called (step target : Nat) (cause : W8) (b : Blk) : let f := (b.callRung step target cause).flt
    ∃ r ∈ f.called ++ f.deferred ++ f.active, r.step = step ∧ r.target = target := by
  unfold Blk.callRung
  dsimp only
  split
  next h =>
    obtain ⟨r, hr, hsame⟩ := List.any_eq_true.1 h
    exact ⟨r, hr, by simpa using hsame⟩
  · exact ⟨{ step := step, target := target, cause := cause }, by simp, rfl, rfl⟩
theorem mem_addNew (l : List Nat) (e : Nat) : e ∈ addNew l e := by
  unfold addNew
  split
  next h => simpa using h
  · simp

/-- The flits of internal link n that are kept are sent again, and counted. -/
def Blk.intAgain (n : Nat) (b : Blk) : Blk :=
  let l := b.intLink n
  let c := (b.setIntLink n { l with discard := true, replays := l.replays + 1 }).bump (evBlk 0x16 4) 1
  { c with flt := { c.flt with linkReplay := satInc c.flt.linkReplay } }
/-- A replay that is not the 16th is logged. -/
theorem Blk.intReplay_logged (x : Env) (h : (b.intLink n).replays < 15) : (b.intAgain n).Logged (b.intReplay x n u) := by
  have hreplay : b.intReplay x n u = (b.intAgain n).log x { kind := 3, code := 0, time := x.now, unit := BitVec.ofNat 12 u } :=
    if_pos (Nat.succ_lt_succ h)
  rw [hreplay]
  exact Blk.log_logged x _ _
/-- The 16th takes the link DOWN and calls for a block reset. -/
theorem Blk.intReplay_down (x : Env) (h : 15 ≤ (b.intLink n).replays) : ∃ c d, (b.intAgain n).Logged c
    ∧ ({ c with flt := { c.flt with linksDown := addNew c.flt.linksDown n } } : Blk).Logged d
    ∧ b.intReplay x n u = d.callRung 3 0 4 := by
  have hlast : ¬ (b.intLink n).replays + 1 < 16 := by omega
  refine ⟨_, _, Blk.log_logged x { kind := 3, code := 0, time := x.now, unit := BitVec.ofNat 12 u } _,
    Blk.log_logged x { kind := 4, code := 0, time := x.now, unit := BitVec.ofNat 12 u } _, ?_⟩
  exact if_neg hlast
theorem Blk.intReplay_spec (x : Env) : (b.intAgain n).FaultWork (b.intReplay x n u)
    ∧ (b.intReplay x n u).flt.linkCounts = (b.intAgain n).flt.linkCounts := by
  rcases Nat.lt_or_ge (b.intLink n).replays 15 with h | h
  · have hlog := Blk.intReplay_logged (u := u) x h
    exact ⟨hlog.faultWork, hlog.2.linkCounts⟩
  · obtain ⟨c, d, hc, hd, heq⟩ := Blk.intReplay_down (u := u) x h
    rw [heq]
    have hdown : c.FaultWork { c with flt := { c.flt with linksDown := addNew c.flt.linksDown n } } := rfl
    refine ⟨((hc.faultWork.trans hdown).trans hd.faultWork).trans (d.faultWork_callRung 3 0 4), ?_⟩
    rw [d.callRung_flt]
    exact hd.2.linkCounts.trans hc.2.linkCounts

/-- The link after the next flit in order. -/
def Link.inOrder (l : Link) : Link := { l with rxSeq := l.rxSeq + 1, discard := false, replays := 0, redo := l.redo - 1 }
theorem Blk.intRx_next (x : Env) (hseq : seq = (b.intLink n).rxSeq) :
    b.intRx x n u true seq = b.setIntLink n (b.intLink n).inOrder := by
  simp [Blk.intRx, hseq, Link.inOrder]
/-- A bad flit of link n has been counted, and will come again. -/
def Blk.intBad (n : Nat) (b : Blk) : Blk :=
  let l := b.intLink n
  ({ b with flt := { b.flt with linkCrc := satInc b.flt.linkCrc } } : Blk).setIntLink n { l with redo := l.redo + 1 }
theorem Blk.intRx_bad (x : Env) (hdiscard : (b.intLink n).discard = false) :
    b.intRx x n u false seq = (b.intBad n).intReplay x n u := by
  simp [Blk.intRx, hdiscard, Blk.intBad]

@[simp] theorem Blk.setIntLink_intLink (l : Link) : (b.setIntLink n l).intLink n = l := by simp [Blk.setIntLink, Blk.intLink]
theorem Blk.setIntLink_intLink_ne {m : Nat} (l : Link) (h : m ≠ n) : (b.setIntLink n l).intLink m = b.intLink m := by
  simp [Blk.setIntLink, Blk.intLink, SMap.get_set_ne, h]
theorem Blk.intLink_congr {m : Nat} (h : c.flt.links = b.flt.links) : c.intLink m = b.intLink m := by
  unfold Blk.intLink
  rw [h]
theorem Blk.intBad_replays : ((b.intBad n).intLink n).replays = (b.intLink n).replays := by
  rw [Blk.intBad, Blk.setIntLink_intLink]
/-- Link n after a bad flit has been counted and the flits kept for it sent again; no other link changes. -/
theorem Blk.badAgain_intLink : let l := b.intLink n
    ((b.intBad n).intAgain n).intLink n = { l with discard := true, replays := l.replays + 1, redo := l.redo + 1 } := by
  refine (Blk.setIntLink_intLink _).trans ?_
  rw [Blk.intBad, Blk.setIntLink_intLink]
theorem Blk.badAgain_intLink_ne {m : Nat} (h : m ≠ n) : ((b.intBad n).intAgain n).intLink m = b.intLink m :=
  (Blk.setIntLink_intLink_ne _ h).trans (Blk.setIntLink_intLink_ne _ h)

theorem Blk.faultWork_setIntLink (b : Blk) (n : Nat) (l : Link) : b.FaultWork (b.setIntLink n l) := rfl
theorem Blk.faultWork_flt (b : Blk) (f : Faults) : b.FaultWork { b with flt := f } := rfl
theorem Blk.faultWork_bump (b : Blk) (key k : Nat) : b.FaultWork (b.bump key k) := rfl
theorem Blk.faultWork_intBad (b : Blk) (n : Nat) : b.FaultWork (b.intBad n) :=
  (b.faultWork_flt _).trans (Blk.faultWork_setIntLink _ _ _)
theorem Blk.faultWork_intAgain (b : Blk) (n : Nat) : b.FaultWork (b.intAgain n) :=
  ((b.faultWork_setIntLink _ _).trans (Blk.faultWork_bump _ _ _)).trans (Blk.faultWork_flt _ _)

/-- What an internal flit that meets no injection reaches. -/
theorem Blk.InjectWork.only (h : b.InjectWork c) (k : c.FaultWork d) : d = { b with
    flt := d.flt, dbg := { b.dbg with injs := d.dbg.injs }, freeCtr := d.freeCtr, trc := { b.trc with tally := d.trc.tally } } := by
  unfold Blk.InjectWork Blk.FaultWork at *
  rw [h] at k
  rw [k]
theorem Blk.InjectWork.kept (h : b.InjectWork c) : c.flt = b.flt ∧ c.trc = b.trc := by
  rw [h]
  exact ⟨rfl, rfl⟩

end

section
variable {b c d : Blk} {p : Nat}

theorem MPort.credit_req (v : MPort) (req wd : Bool) : (v.credit req wd).reqCred
    = if req = true ∧ v.reqCred.toNat < v.reqGrant.toNat then v.reqCred + 1 else v.reqCred := by simp [MPort.credit]
theorem MPort.credit_wd (v : MPort) (req wd : Bool) : (v.credit req wd).wdCred
    = if wd = true ∧ v.wdCred.toNat < v.wdGrant.toNat then v.wdCred + 1 else v.wdCred := by simp [MPort.credit]
theorem Blk.InjIdle.portAlone (h : b.InjIdle c) (k : c.PortAlone p d) : (∀ j : Nat, j ≠ p → d.port j = b.port j)
    ∧ d = { b with mem := { b.mem with ports := d.mem.ports }, dbg := { b.dbg with injs := d.dbg.injs } } := by
  have hport := h.port
  obtain ⟨hc, -⟩ := h
  obtain ⟨hd, hj⟩ := k
  refine ⟨fun j hne => (hj j hne).trans (hport j), ?_⟩
  rw [hc] at hd
  rw [hd]

end

/-- The first data flit brings a link up with its grants as credits, if one has been sent. -/
theorem MPort.firstData_up {v : MPort} (h : v.sent0 = true) :
    v.firstData = { v with got0 := true, link := .up, reqCred := v.reqGrant, wdCred := v.wdGrant } := by
  simp [MPort.firstData, MPort.upIf, h]
theorem MPort.firstData_waits {v : MPort} (h : v.sent0 = false) : v.firstData = { v with got0 := true } := by
  simp [MPort.firstData, MPort.upIf, h]
theorem MPort.firstData_kept (v : MPort) : v.firstData.got0 = true ∧ v.firstData.lnk = v.lnk ∧ v.firstData.tags = v.tags := by
  unfold MPort.firstData MPort.upIf
  split <;> exact ⟨rfl, rfl, rfl⟩

/-- At its grant a count of credits stays. -/
theorem MPort.takes_fullReq {v : MPort} (h : v.reqCred = v.reqGrant) (f : BitVec 608) : (v.takes f).reqCred = v.reqGrant := by
  refine (MPort.credit_req _ _ _).trans ?_
  dsimp only
  rw [h, if_neg fun hless => Nat.lt_irrefl _ hless.2]
theorem MPort.takes_fullWd {v : MPort} (h : v.wdCred = v.wdGrant) (f : BitVec 608) : (v.takes f).wdCred = v.wdGrant := by
  refine (MPort.credit_wd _ _ _).trans ?_
  dsimp only
  rw [h, if_neg fun hless => Nat.lt_irrefl _ hless.2]

/-- Settles O38: the receiver of a Tether link and its training, its replays, and internal links. -/
theorem linkLayer : Obligations.LinkLayer := by
  refine ⟨?_, ?_, ?_⟩
  · intro s p f b v l hrun
    refine ⟨?_, ?_, ?_, ?_⟩
    · intro hup hno hgood hdata hseq hread hwrite hnak
      obtain ⟨d, hidle, hflit⟩ := Blk.tetherFlit_up s.env hup hno f
      have hsame : d.port p = v := hidle.port p
      obtain ⟨hport, hwork⟩ := Blk.rxFlit_next (b := d) s.env hgood hdata (by rw [hsame]; exact hseq) hread hwrite hnak
      obtain ⟨hothers, heq⟩ := hidle.portAlone hwork
      have hexec := exec_flitReceive_tether (p := p) (f := f) hrun
      rw [hflit] at hexec
      refine ⟨_, hexec, ?_⟩
      rw [hport, hsame]
      exact ⟨rfl, rfl, rfl, rfl, MPort.credit_req _ _ _, MPort.credit_wd _ _ _, hothers, heq⟩
    · intro hup hno hgood hdiscard hbad
      obtain ⟨d, hidle, hflit⟩ := Blk.tetherFlit_up s.env hup hno f
      have hsame : d.port p = v := hidle.port p
      obtain ⟨hport, hwork⟩ := Blk.rxFlit_bad (b := d) s.env hgood (by rw [hsame]; exact hdiscard) (by rw [hsame]; exact hbad)
      obtain ⟨hlog, heq, hothers⟩ := (hidle.linkWork (p := p)).trans hwork
      have hexec := exec_flitReceive_tether (p := p) (f := f) hrun
      rw [hflit] at hexec
      refine ⟨_, hexec, ?_⟩
      rw [hport, hsame]
      exact ⟨rfl, rfl, rfl, rfl, rfl, rfl, hlog, hothers, heq⟩
    · intro htrain hgot hgood hseq hflit hread hwrite hreq hwd hreq1 hreq64 hwd1 hwd64
      rw [exec_train hrun htrain, Blk.trainFlit_trains s.env hgot hgood hseq hflit hread hwrite hreq hwd ⟨⟨hreq1, hreq64⟩, hwd1, hwd64⟩]
    · intro htrain hgot htrained hrx hgood hseq hdata hread hwrite hnak
      have hexec := exec_train (f := f) hrun htrain
      rw [Blk.trainFlit_data s.env hgot htrained hgood hseq hdata] at hexec
      let d := b.setPort p v.firstData
      have hsame : d.port p = v.firstData := b.setPort_port p _
      obtain ⟨hgot0, hlnk, htags⟩ := v.firstData_kept
      have hnext : rxSeqOf f = (d.port p).lnk.rxSeq := by rw [hsame, hlnk, hseq]; exact hrx.symm
      obtain ⟨hport, hwork⟩ := Blk.rxFlit_next (b := d) s.env hgood hdata hnext hread hwrite hnak
      obtain ⟨heq, hothers⟩ := Blk.PortAlone.trans (b := b) ⟨rfl, fun _ hj => b.setPort_port_ne _ hj⟩ hwork
      refine ⟨_, hexec, ?_⟩
      rw [hport, hsame]
      refine ⟨hgot0, ?_, fun hsent => ?_, fun hsent => ?_, htags, hothers, heq⟩
      · exact (congrArg (fun k : Link => k.rxSeq + 1) hlnk).trans (congrArg (· + 1) hrx)
      · rw [MPort.firstData_up hsent]
        exact ⟨rfl, MPort.takes_fullReq rfl f, MPort.takes_fullWd rfl f⟩
      · rw [MPort.firstData_waits hsent]
        exact htrain
  · intro s p b v again hno
    have hagain : ∀ (i : Instr) (n : W8), exec i s = .next { s with blk := b.replayFrom s.env p n } → again i n := by
      intro i n hi hstore
      obtain ⟨c, hport, hwork, hreplay⟩ := Blk.replayFrom_again (p := p) s.env hno hstore
      obtain ⟨hlog, heq, hothers⟩ := hwork
      rw [hreplay] at hi
      refine ⟨_, hi, fun hshort => ?_, fun hlast => ?_⟩
      · rw [if_neg (Nat.not_le.2 (Nat.succ_lt_succ hshort)), hport]
        exact ⟨rfl, rfl, rfl, rfl, rfl, hlog, heq, hothers⟩
      · rw [if_pos (Nat.succ_le_succ hlast)]
        exact c.linkDown_port s.env
    refine ⟨fun hup => ⟨fun n => ⟨hagain _ _ (exec_nak hup n), fun hstore => ?_⟩, fun f r hstore => ?_⟩, fun hrun htrain => ?_⟩
    · rw [exec_nak hup, Blk.replayFrom_acked s.env hstore]
    · exact hagain _ _ (exec_replayTimeout hup hstore)
    · exact ⟨_, exec_trainingTimeout hrun htrain, Blk.linkDown_port s.env⟩
  · intro s i u good seq b n l only hrun hno hunit hopen
    obtain ⟨d, hidle, hflit⟩ := Blk.internalFlit_idle s.env hno hunit hopen good seq
    have hexec := exec_flitReceive_internal (good := good) (seq := seq) hrun i
    rw [hflit] at hexec
    obtain ⟨hflt, htrc⟩ := hidle.kept
    have hlink : ∀ m, d.intLink m = b.intLink m := fun m => Blk.intLink_congr (by rw [hflt])
    refine ⟨?_, ?_⟩
    · rintro rfl hseq
      rw [Blk.intRx_next s.env (by rw [hlink]; exact hseq)] at hexec
      refine ⟨_, hexec, ⟨hidle.only rfl, fun m hm => ?_⟩, ?_, ?_, htrc⟩
      · rw [Blk.setIntLink_intLink_ne _ hm, hlink]
      · rw [Blk.setIntLink_intLink, hlink]
        rfl
      · rw [← hflt]
        rfl
    · rintro rfl hdiscard
      rw [Blk.intRx_bad s.env (by rw [hlink]; exact hdiscard)] at hexec
      obtain ⟨hwork, hcounts⟩ := (d.intBad n).intReplay_spec (n := n) (u := u) s.env
      obtain ⟨hlinks, hcrc, hrep⟩ := Faults.linkCounts_inj hcounts
      have hfault : d.FaultWork ((d.intBad n).intAgain n) := (d.faultWork_intBad n).trans (Blk.faultWork_intAgain _ n)
      refine ⟨_, hexec, ⟨hidle.only (hfault.trans hwork), fun m hm => ?_⟩, ?_, ?_, ?_, fun hshort => ?_, fun hlast => ?_⟩
      · rw [Blk.intLink_congr hlinks, Blk.badAgain_intLink_ne hm, hlink]
      · rw [Blk.intLink_congr hlinks, Blk.badAgain_intLink, hlink]
      · rw [hcrc, ← hflt]
        rfl
      · rw [hrep, ← hflt]
        rfl
      · have hlog := Blk.intReplay_logged (b := d.intBad n) (n := n) (u := u) s.env (by rw [Blk.intBad_replays, hlink]; exact hshort)
        have hlinks' := Faults.LogOnly.ofLinks (f := d.flt) hlog.2
        rwa [hflt] at hlinks'
      · obtain ⟨c, e, -, he, hreplay⟩ :=
          Blk.intReplay_down (b := d.intBad n) (n := n) (u := u) s.env (by rw [Blk.intBad_replays, hlink]; exact hlast)
        rw [hreplay]
        refine ⟨?_, e.callRung_called 3 0 4⟩
        rw [e.callRung_flt]
        exact he.2.linksDown ▸ mem_addNew c.flt.linksDown n

end Sys2Proof.Machine

/-! # Items at an intake port

A block that differs from another in one intake port alone (`Blk.IntakeAt`) has the same bindings and destinations, so the rows of
a port are followed operation by operation: how a beat is taken, how far the item at the front goes, and how it ends. -/

namespace Sys2Proof.Machine

/-! ### The frame -/

/-- Between the two blocks only intake port p, which stands at w afterwards, and counters differ. -/
def Blk.IntakeAt (b : Blk) (p : Nat) (w : Intake) (c : Blk) : Prop :=
  c = { b with ik := c.ik, trc := { b.trc with tally := c.trc.tally } } ∧ c.intake p = w ∧ ∀ j, j ≠ p → c.intake j = b.intake j

section
variable {b c d : Blk} {p : Nat} {v w : Intake} {i : Item} {front rest : List Item}

theorem Blk.intakeAt_refl (b : Blk) (p : Nat) : b.IntakeAt p (b.intake p) b := ⟨rfl, rfl, fun _ _ => rfl⟩
theorem Blk.intakeAt_setIntake (b : Blk) (p : Nat) (w : Intake) : b.IntakeAt p w (b.setIntake p w) :=
  ⟨rfl, b.setIntake_intake p w, fun _ hj => b.setIntake_intake_ne w hj⟩
theorem Blk.IntakeAt.trans (h : b.IntakeAt p v c) (k : c.IntakeAt p w d) : b.IntakeAt p w d := by
  obtain ⟨hc, -, hcj⟩ := h
  obtain ⟨hd, hw, hdj⟩ := k
  refine ⟨?_, hw, fun j hj => (hdj j hj).trans (hcj j hj)⟩
  rw [hc] at hd
  exact hd
theorem Blk.IntakeAt.setIntake (h : b.IntakeAt p v c) (w : Intake) : b.IntakeAt p w (c.setIntake p w) :=
  h.trans (c.intakeAt_setIntake p w)
theorem Blk.IntakeAt.intake (h : b.IntakeAt p w c) : c.intake p = w := h.2.1
theorem Blk.IntakeAt.bump (h : b.IntakeAt p w c) (key n : Nat) : b.IntakeAt p w (c.bump key n) :=
  h.trans ⟨rfl, h.intake, fun _ _ => rfl⟩
theorem Blk.IntakeAt.others (h : b.IntakeAt p w c) {j : Nat} (hj : j ≠ p) : c.intake j = b.intake j := h.2.2 j hj
theorem Blk.IntakeAt.modItem (h : b.IntakeAt p v c) (hitems : v.items = i :: rest) (f : Item → Item) :
    b.IntakeAt p { v with items := f i :: rest } (c.modItem p f) := by
  have hset := h.setIntake { v with items := f i :: rest }
  simpa only [Blk.modItem, Blk.modIntake, h.intake, hitems] using hset
theorem Blk.IntakeAt.modLast (h : b.IntakeAt p v c) (hitems : v.items = front ++ [i]) (f : Item → Item) :
    b.IntakeAt p { v with items := front ++ [f i] } (c.modLast p f) := by
  have hset := h.setIntake { v with items := front ++ [f i] }
  simpa [Blk.modLast, Blk.modIntake, h.intake, hitems] using hset

/-- What the two blocks share. -/
theorem Blk.IntakeAt.binding (h : b.IntakeAt p w c) (q : Nat) : c.binding q = b.binding q := by
  rw [h.1]
  rfl
theorem Blk.IntakeAt.running (h : b.IntakeAt p w c) : c.running = b.running := by
  rw [h.1]
  rfl
theorem Blk.IntakeAt.engine (h : b.IntakeAt p w c) (e : Nat) : c.engine e = b.engine e := by
  rw [h.1]
  rfl
theorem Blk.IntakeAt.engines (h : b.IntakeAt p w c) : c.wv.cur = b.wv.cur := by
  rw [h.1]
/-- A destination stays as busy as it was while the port's landings stand (R293). -/
theorem Blk.IntakeAt.destBusy {r : WvIntake} (h : b.IntakeAt p w c) (hland : w.landing = (b.intake p).landing) :
    c.destBusy p r = b.destBusy p r := by
  have hlands : (c.intake p).lands = (b.intake p).lands := by rw [h.intake, Intake.lands, Intake.lands, hland]
  unfold Blk.destBusy
  rw [hlands, h.1]
  rfl

end

/-! ### Beats (R284 to R287, 13 R338) -/

section
variable {x : Env} {b c : Blk} {p : IkPort} {v : Intake} {i : Item} {r : WvIntake} {front : List Item}

theorem Blk.ikReady_spec (h : b.ikReady p = true) : b.running = true ∧ (b.intake p).stopped = false := by
  simp only [Blk.ikReady, Bool.and_eq_true, Bool.not_eq_true'] at h
  exact ⟨h.1.1.1, h.1.2⟩
theorem Intake.opened_append (hitems : v.items = front ++ [i]) : v.opened = if i.last then none else some i := by
  simp only [Intake.opened, hitems, List.getLast?_concat]
  cases hlast : i.last <;> simp [hlast]

/-- The item that a first beat opens. -/
def Intake.newItem (v : Intake) (ts : W64) : Item :=
  { capture := ts, seq := v.seq, dmgMax := v.dmgMax.toNat, slotsLog2 := v.slotsLog2.toNat }
theorem Blk.openItem_open (ts : W64) (hopen : (b.intake p).opened.isSome = true) : b.openItem p ts = b := by
  simp [Blk.openItem, hopen]
theorem Blk.openItem_bound (ts : W64) (hopen : (b.intake p).opened = none) (hbind : b.binding p = some r) :
    b.openItem p ts = b.setIntake p { b.intake p with items := (b.intake p).items ++ [(b.intake p).newItem ts] } := by
  simp only [Blk.openItem, hopen, hbind]
  rfl
theorem Blk.openItem_unbound (ts : W64) (hopen : (b.intake p).opened = none) (hbind : b.binding p = none) :
    b.openItem p ts = (b.setIntake p { b.intake p with
      items := (b.intake p).items ++ [{ (b.intake p).newItem ts with phase := .discard }]
      dropUnb := satInc (b.intake p).dropUnb }).bump (evBlk 0x15 p) 1 := by
  simp only [Blk.openItem, hopen, hbind]
  rfl

theorem length_toBytes (n v : Nat) : (toBytes n v).length = n := by
  induction n generalizing v with
  | zero => rfl
  | succ n ih => rw [toBytes, List.length_cons, ih]
/-- A beat of an item that is kept adds its bytes. -/
theorem Item.beat_kept (hlast : i.last = false) (hphase : i.phase ≠ .discard) (d : BitVec 256) :
    i.beat d false = { i with got := i.got + 32, buffered := i.buffered ++ toBytes 32 d.toNat } := by
  rw [Item.beat, if_neg hphase, ← hlast]

/-- A port whose front item, if it is being written, is young (R296). -/
def Blk.FrontYoung (b : Blk) (x : Env) (p : IkPort) : Prop :=
  ∀ i r, (b.intake p).items.head? = some i → b.binding p = some r → i.phase = .body → staleNow x r i = false
/-- The age check of a beat leaves such an item. -/
theorem Blk.beatAge_young (last : Bool) (hyoung : b.FrontYoung x p) : b.beatAge x p last = b := by
  unfold Blk.beatAge
  split
  · rename_i i r hitem hbind
    refine if_neg fun h => ?_
    simp only [Bool.and_eq_true, beq_iff_eq] at h
    obtain ⟨⟨⟨hphase, -⟩, -⟩, hstale⟩ := h
    rw [hyoung i r hitem hbind hphase] at hstale
    exact absurd hstale (by decide)
  · rfl

end

/-! ### The item at the front (R288) -/

section
variable {x : Env} {b c : Blk} {p : IkPort} {i : Item} {r : WvIntake} {rest : List Item}

theorem Blk.portGoes_empty (hitems : (b.intake p).items = []) : b.portGoes x p = b := by
  unfold Blk.portGoes
  split
  · rw [hitems]
    rfl
  · rfl
/-- A port whose front item stays goes no further. -/
theorem Blk.portGoes_item (hrun : b.running = true) (hstop : (b.intake p).stopped = false)
    (hitems : (b.intake p).items = i :: rest) (hbind : b.binding p = some r) (hc : b.runItem x p r i = c)
    (hstays : (c.intake p).items.length = (b.intake p).items.length) : b.portGoes x p = c := by
  have hfront : (b.intake p).item = some i := by rw [Intake.item, hitems]; rfl
  have hlen : (b.intake p).items.length = rest.length + 1 := by rw [hitems]; rfl
  simp only [Blk.portGoes, hrun, hstop, hlen, Blk.runPort, hfront, hbind, hc, hstays, Nat.lt_irrefl, Bool.not_false,
    Bool.and_self, if_true, if_false]
/-- The only item of an unbound port goes once it has ended. -/
theorem Blk.portGoes_unbound (hrun : b.running = true) (hstop : (b.intake p).stopped = false)
    (hitems : (b.intake p).items = [i]) (hbind : b.binding p = none) :
    b.portGoes x p = if i.last then b.discardRest p else b := by
  have hfront : (b.intake p).item = some i := by rw [Intake.item, hitems]; rfl
  have hlen : (b.intake p).items.length = 1 := by rw [hitems]; rfl
  simp only [Blk.portGoes, hrun, hstop, hlen, Blk.runPort, hfront, hbind, Bool.not_false, Bool.and_self, if_true, ite_self]

/-- What is kept of an item whose rest is discarded (R287). -/
def Item.discarded (i : Item) : Item := { i with phase := .discard, staged := [], buffered := [], sent := [] }
theorem Blk.discardRest_spec (hitems : (b.intake p).items = i :: rest) :
    ∃ ls, b.IntakeAt p { b.intake p with items := if i.last then rest else i.discarded :: rest, landing := ls } (b.discardRest p) := by
  have heq : b.discardRest p = b.setIntake p { b.intake p with
      items := if i.last then rest else i.discarded :: rest
      landing := (b.intake p).landing ++ ({ b.intake p with items := [i], landing := [] } : Intake).dropped' [] } := by
    simp only [Blk.discardRest, Blk.modIntake, hitems]
    rfl
  exact ⟨_, heq ▸ b.intakeAt_setIntake p _⟩
/-- A stale item is counted and discarded (R290, R296). -/
theorem Blk.dropItem_spec (hitems : (b.intake p).items = i :: rest) :
    ∃ ls, b.IntakeAt p { b.intake p with
      items := if i.last then rest else i.discarded :: rest, dropStale := satInc (b.intake p).dropStale, landing := ls }
      (b.dropItem p) := by
  have hcount := (b.intakeAt_setIntake p { b.intake p with dropStale := satInc (b.intake p).dropStale }).bump (evBlk 0x15 p) 1
  obtain ⟨ls, hrest⟩ := Blk.discardRest_spec (p := p) (i := i) (rest := rest) (by rw [hcount.intake]; exact hitems)
  rw [hcount.intake] at hrest
  exact ⟨ls, hcount.trans hrest⟩

/-- A header that is not complete waits for its next beat (R285). -/
theorem Blk.runItem_header (hphase : i.phase = .header) (hshort : i.buffered.length < 64) (hlast : i.last = false) :
    b.runItem x p r i = b := by
  simp only [Blk.runItem, hphase, hlast, if_neg (Nat.not_le.2 hshort), Bool.false_eq_true, if_false]
theorem Blk.runItem_waiting (hphase : i.phase = .waiting) :
    b.runItem x p r i = if b.destBusy p r then b else b.beginBody x p r := by
  simp only [Blk.runItem, hphase]
theorem Blk.runItem_body (hphase : i.phase = .body) : b.runItem x p r i = b.runBody x p r := by
  simp only [Blk.runItem, hphase]

/-! ### Writing a body (R290, R292, 03 R93) -/

theorem Blk.beginBody_stale (hitems : (b.intake p).items = i :: rest) (hstale : staleNow x r i = true) :
    b.beginBody x p r = b.dropItem p := by
  simp only [Blk.beginBody, Intake.item, hitems, List.head?_cons, hstale, if_true]
theorem Blk.beginBody_young (hitems : (b.intake p).items = i :: rest) (hstale : staleNow x r i = false) :
    b.beginBody x p r = (b.modItem p fun i => { i with phase := .body, num := (b.intake p).seq }).runBody x p r := by
  simp only [Blk.beginBody, Intake.item, hitems, List.head?_cons, hstale, Bool.false_eq_true, if_false]
theorem Blk.runBody_free (hitems : (b.intake p).items = i :: rest) (hbusy : b.destBusy p r = false)
    (hstale : staleNow x r i = false) (hover : i.overclaim = false) :
    b.runBody x p r = (b.modItem p fun i => { i with held := false }).writeBody x p r := by
  simp only [Blk.runBody, Intake.item, hitems, List.head?_cons, hbusy, hstale, hover, Bool.and_false, Bool.false_eq_true, if_false]

/-- Less than a line is not written (R93, log 104). -/
theorem Blk.placeBody_short (hitems : (b.intake p).items = i :: rest) (hraw : i.packed = false) (hlast : i.last = false)
    (hshort : i.buffered.length < 64) (n : Nat) : b.placeBody x p r n = b := by
  cases n with
  | zero => rfl
  | succ n =>
    simp only [Blk.placeBody, Intake.item, hitems, List.head?_cons, hraw, hlast, hshort, Bool.false_and, Bool.not_false,
      Bool.and_self, decide_true, Bool.false_eq_true, if_false, if_true, ite_self]
/-- A whole line is written where the bytes before it end (R93). -/
theorem Blk.placeBody_line (hitems : (b.intake p).items = i :: rest) (hraw : i.packed = false)
    (hroom : i.written < i.extent) (hline : i.buffered.length = 64) (n : Nat) :
    b.placeBody x p r (n + 1)
      = ((b.modItem p fun i => { i with buffered := i.buffered.drop 64 }).placeData x p r i.extent i.buffered).placeBody x p r n := by
  simp only [Blk.placeBody, Intake.item, hitems, List.head?_cons, hraw, hline, if_neg (Nat.not_le.2 hroom), Bool.false_and,
    Nat.lt_irrefl, decide_false, Bool.false_eq_true, if_false, List.take_of_length_le (Nat.le_of_eq hline)]
/-- The item with n more bytes of its extent written at a fabric time. -/
def Item.placed (now : W64) (n : Nat) (i : Item) : Item := { i with written := i.written + n, wrote := some now }
theorem Blk.placeData_fits {limit : Nat} {bs : List W8} (hitems : (b.intake p).items = i :: rest)
    (hfits : i.written + bs.length ≤ limit) (hkind : r.kind1 = false) :
    b.placeData x p r limit bs = (b.writeDest p r (slotBase r i + 64 + i.dmgArea + i.written) bs).modItem p
      (Item.placed x.now bs.length) := by
  have hall : bs.take (limit - i.written) = bs := List.take_of_length_le (by omega)
  simp only [Blk.placeData, Intake.item, hitems, List.head?_cons, hall, hkind, Bool.false_eq_true, if_false]
  rfl

end

/-! ### Lines that local memory takes (R92, R93, R294) -/

/-- Memory m' is m with bytes bs from address a on. -/
def Mem.Took (m : Mem) (a : Nat) (bs : List W8) (m' : Mem) : Prop :=
  ∀ x, Mem.read m' x = if a ≤ x ∧ x < a + bs.length then bs.getD (x - a) 0 else Mem.read m x

theorem Mem.took_writeBytes (m : Mem) (a : Nat) (bs : List W8) : m.Took a bs (Mem.writeBytes m a bs) := by
  induction bs generalizing m a with
  | nil => exact fun x => (if_neg fun h => Nat.not_le.2 h.2 h.1).symm
  | cons v bs ih =>
    intro x
    rw [Mem.writeBytes, ih _ _ x, List.length_cons]
    by_cases hx : x = a
    · subst hx
      simp
    · rw [Mem.read_write_ne m v hx]
      refine ite_congr (by simp only [eq_iff_iff]; omega) (fun h => ?_) fun _ => rfl
      rw [show x - a = x - (a + 1) + 1 by omega, List.getD_cons_succ]
/-- The same bytes taken again change nothing more. -/
theorem Mem.Took.again {m m' m'' : Mem} {a : Nat} {bs : List W8} (h : m.Took a bs m') (k : m'.Took a bs m'') : m.Took a bs m'' := by
  intro x
  rw [k x, h x]
  split <;> rfl

/-- A line taken is read back, and the bytes around it stay. -/
theorem Mem.Took.line {m m' : Mem} {a : Nat} {bs : List W8} (h : m.Took a bs m') (hline : bs.length = 64) :
    (∀ k, k < 64 → Mem.read m' (a + k) = bs.getD k 0) ∧ ∀ x, (x < a ∨ a + 64 ≤ x) → Mem.read m' x = Mem.read m x := by
  refine ⟨fun k hk => ?_, fun x hx => ?_⟩
  · rw [h, if_pos (by omega), Nat.add_sub_cancel_left]
  · rw [h, if_neg (by omega)]

/-- Between the two blocks the local memory of engines es took bytes bs from address a on; their accesses may have waited for
a bank (R92, R294). -/
def Blk.EnginesTook (b : Blk) (es : List Nat) (a : Nat) (bs : List W8) (c : Blk) : Prop :=
  c = { b with
      eng := c.eng, freeCtr := c.freeCtr, dsp := { b.dsp with loadNow := c.dsp.loadNow }
      trc := { b.trc with tally := c.trc.tally } }
    ∧ (∀ e ∈ es, (b.engine e).lm.Took a bs (c.engine e).lm)
    ∧ ∀ e, e ∉ es → c.engine e = b.engine e
/-- Between the two blocks only intake ports and what engines take of their bodies differ. -/
def Blk.BodyWork (b c : Blk) : Prop :=
  c = { b with
    ik := c.ik, eng := c.eng, freeCtr := c.freeCtr, dsp := { b.dsp with loadNow := c.dsp.loadNow }
    trc := { b.trc with tally := c.trc.tally } }

section
variable {x : Env} {b c d : Blk} {p : IkPort} {i : Item} {r : WvIntake} {e a : Nat} {es : List Nat}
  {bs : List W8} {w : Intake}

theorem Blk.EnginesTook.cons (h : b.EnginesTook [e] a bs c) (k : c.EnginesTook es a bs d) : b.EnginesTook (e :: es) a bs d := by
  obtain ⟨hc, hlm, hsame⟩ := h
  obtain ⟨hd, hlm', hsame'⟩ := k
  refine ⟨?_, fun j hj => ?_, fun j hj => ?_⟩
  · rw [hc] at hd
    exact hd
  · by_cases hj' : j ∈ es
    · have hlast := hlm' j hj'
      by_cases hje : j = e
      · exact (hlm j (by simp [hje])).again hlast
      · rwa [hsame j (by simpa using hje)] at hlast
    · have hje : j = e := (List.mem_cons.1 hj).resolve_right hj'
      rw [hsame' j hj']
      exact hlm j (by simp [hje])
  · rw [List.mem_cons, not_or] at hj
    rw [hsame' j hj.2, hsame j (by simpa using hj.1)]

theorem Blk.EnginesTook.intake (h : b.EnginesTook es a bs c) (q : Nat) : c.intake q = b.intake q := by
  rw [h.1]
  rfl
theorem Blk.IntakeAt.bodyWork {q : Nat} (h : b.IntakeAt q w c) : b.BodyWork c := by
  unfold Blk.BodyWork
  rw [h.1]
theorem Blk.EnginesTook.bodyWork (h : b.EnginesTook es a bs c) : b.BodyWork c := by
  unfold Blk.BodyWork
  rw [h.1]
theorem Blk.BodyWork.trans (h : b.BodyWork c) (k : c.BodyWork d) : b.BodyWork d := by
  unfold Blk.BodyWork at *
  rw [h] at k
  exact k

/-- What the engines take while port q is followed, from before to after. -/
theorem Blk.EnginesTook.within {q : Nat} {v : Intake} {f : Blk} (k : c.EnginesTook es a bs d) (h : b.IntakeAt q v c)
    (l : d.IntakeAt q w f) :
    b.BodyWork f ∧ (∀ e ∈ es, (b.engine e).lm.Took a bs (f.engine e).lm) ∧ (∀ e, e ∉ es → f.engine e = b.engine e)
      ∧ ∀ j, j ≠ q → f.intake j = b.intake j := by
  have ⟨_, hlm, hsame⟩ := k
  refine ⟨h.bodyWork.trans (k.bodyWork.trans l.bodyWork), fun e he => ?_, fun e he => ?_, fun j hj => ?_⟩
  · rw [l.engine, ← h.engine]
    exact hlm e he
  · rw [l.engine, hsame e he, h.engine]
  · rw [l.others hj, k.intake, h.others hj]

theorem Blk.bankWait_mem (b : Blk) (e n : Nat) : (b.bankWait e n).mem = b.mem := by
  unfold Blk.bankWait
  split
  · rfl
  · exact Blk.cycles_mem _ _ _ _
/-- One engine takes bytes after it may have waited for their bank. -/
theorem Blk.enginesTook_write (b : Blk) {e a k n : Nat} {bs : List W8} {f : Eng → Eng}
    (hf : ∀ v, (f v).lm = Mem.writeBytes v.lm a bs) :
    b.EnginesTook [e] a bs (((b.bankWait e 1).modEng e f).bump k n) := by
  obtain ⟨busy, stall, hengine⟩ := b.bankWait_engine e 1
  obtain ⟨hframe, hothers⟩ := ((b.engAlone_bankWait e 1).trans (Blk.engAlone_modEng _ e f)).trans (Blk.engAlone_bump _ e k n)
  rw [Blk.bump_mem, Blk.modEng_mem, Blk.bankWait_mem] at hframe
  refine ⟨hframe, fun j hj => ?_, fun j hj => hothers j (by simpa using hj)⟩
  obtain rfl : j = e := by simpa using hj
  rw [Blk.bump_engine, Blk.modEng_engine, hf, hengine]
  exact Mem.took_writeBytes _ _ _
/-- A write to local memory lands in every destination engine (R294). -/
theorem Blk.writeDest_took (hkind : r.kind1 = false) (hbs : bs ≠ []) :
    b.EnginesTook (b.wv.cur.intakeEngines r) a bs (b.writeDest p r a bs) := by
  have hsome : bs.isEmpty = false := by simpa using hbs
  simp only [Blk.writeDest, hsome, hkind, Bool.false_eq_true, if_false]
  generalize b.wv.cur.intakeEngines r = es
  induction es generalizing b with
  | nil => exact ⟨rfl, fun _ h => absurd h List.not_mem_nil, fun _ _ => rfl⟩
  | cons e es ih => exact (b.enginesTook_write fun _ => rfl).cons ih
/-- An item without the bytes that follow its extent. -/
def Item.inExtent (i : Item) : Item := if i.extent ≤ i.written then { i with buffered := [] } else i
theorem Item.inExtent_kept (hkept : i.buffered = [] ∨ i.written < i.extent) : i.inExtent = i := by
  rcases hkept with hnone | hroom
  · rw [Item.inExtent, ← hnone, ite_self]
  · exact if_neg (Nat.not_le.2 hroom)
/-- A body whose end marker has not come is left as its bytes were placed. -/
theorem Blk.writeBody_open (hplaced : b.placeBody x p r ((((b.intake p).item.map Item.lines).getD 0) + 2) = c)
    (hitems : (c.intake p).items = [i]) (hlast : i.last = false) (hkept : i.buffered = [] ∨ i.written < i.extent) :
    c.IntakeAt p (c.intake p) (b.writeBody x p r) := by
  have hmod := c.intakeAt_refl p |>.modItem hitems Item.inExtent
  rw [Item.inExtent_kept hkept, ← hitems] at hmod
  have hitem : ((c.modItem p Item.inExtent).intake p).item = some i := by rw [hmod.intake, Intake.item, hitems]; rfl
  have hbody : b.writeBody x p r = c.modItem p Item.inExtent := by
    unfold Item.inExtent at hitem ⊢
    simp only [Blk.writeBody, hplaced, hitem, hlast, Bool.and_false, Bool.false_eq_true, if_false]
  rw [hbody]
  exact hmod
/-- Bytes that make no line are left to wait. -/
theorem Blk.writeBody_short (hitems : (b.intake p).items = [i]) (hraw : i.packed = false) (hlast : i.last = false)
    (hshort : i.buffered.length < 64) (hkept : i.buffered = [] ∨ i.written < i.extent) :
    b.IntakeAt p (b.intake p) (b.writeBody x p r) :=
  Blk.writeBody_open (Blk.placeBody_short hitems hraw hlast hshort _) hitems hlast hkept
/-- A whole line is written to every destination engine (R93, R292). -/
theorem Blk.writeBody_line (hitems : (b.intake p).items = [i]) (hraw : i.packed = false) (hlast : i.last = false)
    (hline : i.buffered.length = 64) (hroom : i.written + 64 ≤ i.extent) (hkind : r.kind1 = false) :
    ∃ c d, b.IntakeAt p { b.intake p with items := [{ i with buffered := [] }] } c
      ∧ c.EnginesTook (b.wv.cur.intakeEngines r) (slotBase r i + 64 + i.dmgArea + i.written) i.buffered d
      ∧ d.IntakeAt p { b.intake p with items := [{ i with
          buffered := [], written := i.written + 64, wrote := some x.now }] } (b.writeBody x p r) := by
  let taken : Item := { i with buffered := [] }
  let c := b.modItem p fun j => { j with buffered := j.buffered.drop 64 }
  let d := c.writeDest p r (slotBase r i + 64 + i.dmgArea + i.written) i.buffered
  let e := d.modItem p (Item.placed x.now 64)
  have hc : b.IntakeAt p { b.intake p with items := [taken] } c := by
    have hdrop := (b.intakeAt_refl p).modItem hitems fun j => { j with buffered := j.buffered.drop 64 }
    rwa [List.drop_of_length_le (Nat.le_of_eq hline)] at hdrop
  have hd : c.EnginesTook (b.wv.cur.intakeEngines r) (slotBase r i + 64 + i.dmgArea + i.written) i.buffered d := by
    rw [← hc.engines]
    exact Blk.writeDest_took hkind (List.ne_nil_of_length_pos (by omega))
  have hcitems : (c.intake p).items = [taken] := by rw [hc.intake]
  have he : d.IntakeAt p { b.intake p with items := [taken.placed x.now 64] } e := by
    have hmod := (d.intakeAt_refl p).modItem ((congrArg Intake.items (hd.intake p)).trans hcitems)
      (Item.placed x.now 64)
    rwa [hd.intake, hc.intake] at hmod
  have heitems : (e.intake p).items = [taken.placed x.now 64] := by rw [he.intake]
  have hplaced : ∀ n, b.placeBody x p r (n + 2) = e := fun n => by
    rw [Blk.placeBody_line hitems hraw (by omega) hline,
      Blk.placeData_fits hcitems (show i.written + i.buffered.length ≤ _ by omega) hkind, hline]
    exact Blk.placeBody_short heitems hraw hlast (show 0 < 64 by decide) _
  have hwritten := he.trans (Blk.writeBody_open (hplaced _) heitems hlast (.inl rfl))
  rw [he.intake] at hwritten
  exact ⟨c, d, hc, hd, hwritten⟩

end

/-! ### The rows -/

section
variable {x : Env} {b c : Blk} {s : State} {p : IkPort} {l : Landing}

/-- A beat that a ready port takes. -/
def Blk.beatIn (x : Env) (p : IkPort) (d : BitVec 256) (last : Bool) (ts : W64) (b : Blk) : Blk :=
  ((b.openItem p ts).bump (evBlk 0x14 p) 1).takeBeat x p d last
theorem exec_intakeBeat (d : BitVec 256) (last : Bool) (ts : W64) (hready : s.blk.ikReady p = true) :
    exec (.intakeBeat p d last ts) s = .next { s with blk := s.blk.beatIn s.env p d last ts } := by
  simp only [exec, execIntakeBeat, State.onBlk, hready, Bool.not_true, Bool.false_eq_true, if_false]
  rfl
theorem exec_damageEntry_opened (w : W32) (hup : s.blk.up = true) (hopen : (s.blk.intake p).opened.isNone = false) :
    exec (.damageEntry p w) s = .next { s with blk := s.blk.modLast p (Item.damage w) } := by
  simp only [exec, execDamageEntry, State.onBlk, hup, hopen, Bool.not_true, Bool.or_self, Bool.false_eq_true, if_false]
theorem exec_damageEntry_none (w : W32) (hopen : (s.blk.intake p).opened = none) : exec (.damageEntry p w) s = .next s := by
  simp only [exec, execDamageEntry, State.onBlk, hopen, Option.isNone_none, Bool.or_true, if_true]
theorem exec_destinationFree : exec (.destinationFree p) s = .next { s with blk := s.blk.portGoes s.env p } := rfl
theorem exec_itemWritesLanded (resp : BitVec 2) (hup : s.blk.up = true) :
    exec (.itemWritesLanded p resp) s = .next { s with blk := s.blk.tieItem s.env p resp } := by
  simp only [exec, execItemWritesLanded, State.onBlk, hup, if_true]

/-- The beat goes to the last item, and the port as far as it can. -/
theorem Blk.beatIn_young {d : BitVec 256} {last : Bool} {ts : W64}
    (hc : ((b.openItem p ts).bump (evBlk 0x14 p) 1).modLast p (Item.beat d last) = c) (hyoung : c.FrontYoung x p) :
    b.beatIn x p d last ts = c.portGoes x p := by
  rw [Blk.beatIn, Blk.takeBeat, hc, Blk.beatAge_young last hyoung]

theorem ageOf_eq_sub (now capture : W64) : ageOf now capture = now.toNat - capture.toNat := by
  unfold ageOf
  split <;> omega
theorem Intake.noteErr_items (v : Intake) (code : W8) (off : Nat) (seq : W32) : (v.noteErr code off seq).items = v.items := by
  unfold Intake.noteErr
  split <;> rfl
/-- The tie of a delivered item (R298). -/
def Landing.tie (l : Landing) (p : IkPort) (epoch : W32) : Tie :=
  { knot := l.knot, op := .add, val := 1, flags := 0, epoch := epoch, src := .intake p
    concealed := l.concealed && !l.engines.isEmpty }
/-- The port of an item that ties its knot (R298, R300). -/
def Intake.tied (v : Intake) (l : Landing) (now : W64) : Intake :=
  { v with
    landing := v.landing.erase l, seq := v.seq + 1, conceal := if l.concealed then satInc v.conceal else v.conceal
    lastAge := BitVec.ofNat 32 (min 0xFFFFFFFF (now.toNat - l.capture.toNat)) }

theorem Blk.tieItem_ties (hitems : (b.intake p).items = []) (hfind : (b.intake p).landing.find? (fun l => !l.dropped) = some l)
    (houtst : l.outst = []) (hrecord : l.record = none) (herr : l.err = false) :
    b.tieItem x p 0 = { b.setIntake p ((b.intake p).tied l x.now) with
      kn := { b.kn with tieQ := b.kn.tieQ ++ [l.tie p b.wv.epoch] } } := by
  simp only [Blk.tieItem, hfind, houtst, hrecord, herr, ageOf_eq_sub]
  refine Blk.portGoes_empty ?_
  exact (congrArg Intake.items (b.setIntake_intake p _)).trans hitems
/-- A write that was refused is noted and nothing is tied (R300). -/
theorem Blk.tieItem_refused (hitems : (b.intake p).items = [])
    (hfind : (b.intake p).landing.find? (fun l => !l.dropped) = some l)
    (houtst : l.outst = []) (hrecord : l.record = none) (herr : l.err = true) :
    b.tieItem x p 0
      = b.setIntake p (({ b.intake p with landing := (b.intake p).landing.erase l } : Intake).noteErr 4 0 l.seq) := by
  simp only [Blk.tieItem, hfind, houtst, hrecord, herr]
  refine Blk.portGoes_empty ?_
  rw [Blk.setIntake_intake, Intake.noteErr_items]
  exact hitems

end

/-! ### Beats and destinations, from the row to what the item comes to -/

section
variable {x : Env} {b : Blk} {p : IkPort} {i : Item} {r : WvIntake}

/-- A beat of the body that is being written comes to its writing. -/
theorem Blk.beatIn_writes (ts : W64) (d : BitVec 256) (hready : b.ikReady p = true) (hitems : (b.intake p).items = [i])
    (hbind : b.binding p = some r) (hbusy : b.destBusy p r = false) (hphase : i.phase = .body) (hlast : i.last = false)
    (hover : i.overclaim = false) (hstale : staleNow x r i = false) :
    ∃ c, b.IntakeAt p { b.intake p with
        items := [{ i with got := i.got + 32, buffered := i.buffered ++ toBytes 32 d.toNat, held := false }] } c
      ∧ (((c.writeBody x p r).intake p).items.length = 1 → b.beatIn x p d false ts = c.writeBody x p r) := by
  obtain ⟨hrun, hstop⟩ := Blk.ikReady_spec hready
  have hopen : (b.intake p).opened.isSome = true := by rw [Intake.opened_append (front := []) hitems, hlast]; rfl
  have hbeat := ((b.intakeAt_refl p).bump (evBlk 0x14 p) 1).modLast (front := []) hitems (Item.beat d false)
  rw [Item.beat_kept hlast (by rw [hphase]; decide), List.nil_append] at hbeat
  generalize hc : (b.bump (evBlk 0x14 p) 1).modLast p (Item.beat d false) = c at hbeat
  have hcitems : (c.intake p).items = [{ i with got := i.got + 32, buffered := i.buffered ++ toBytes 32 d.toNat }] := by
    rw [hbeat.intake]
  have hcbind : c.binding p = some r := (hbeat.binding p).trans hbind
  have hheld := hbeat.modItem rfl fun j => { j with held := false }
  refine ⟨_, hheld, fun hlen => ?_⟩
  have hyoung : c.FrontYoung x p := by
    unfold Blk.FrontYoung
    rw [hcitems, hcbind]
    rintro _ _ ⟨rfl⟩ ⟨rfl⟩ -
    exact hstale
  have hbody := Blk.runBody_free (x := x) hcitems ((hbeat.destBusy rfl).trans hbusy) hstale hover
  rw [Blk.beatIn_young (by rw [Blk.openItem_open ts hopen, hc]) hyoung]
  refine Blk.portGoes_item (hbeat.running.trans hrun) (by rw [hbeat.intake]; exact hstop) hcitems hcbind
    ((Blk.runItem_body (by exact hphase)).trans hbody) ?_
  rw [hcitems]
  exact hlen

/-- An item that waited and is young gets its number, and comes to its writing (R290, R296). -/
theorem Blk.portGoes_begins (hrun : b.running = true) (hitems : (b.intake p).items = [i]) (hbind : b.binding p = some r)
    (hphase : i.phase = .waiting) (hstop : (b.intake p).stopped = false) (hbusy : b.destBusy p r = false)
    (hover : i.overclaim = false) (hstale : staleNow x r i = false) :
    ∃ c, b.IntakeAt p { b.intake p with items := [{ i with phase := .body, num := (b.intake p).seq, held := false }] } c
      ∧ (((c.writeBody x p r).intake p).items.length = 1 → b.portGoes x p = c.writeBody x p r) := by
  have hnum := (b.intakeAt_refl p).modItem hitems fun j => { j with phase := .body, num := (b.intake p).seq }
  have hheld := hnum.modItem rfl fun j => { j with held := false }
  refine ⟨_, hheld, fun hlen => ?_⟩
  have hbegin : b.runItem x p r i = b.beginBody x p r := by
    rw [Blk.runItem_waiting hphase, hbusy]
    exact if_neg Bool.false_ne_true
  have hbody := Blk.runBody_free (x := x) (congrArg Intake.items hnum.intake) ((hnum.destBusy rfl).trans hbusy) hstale hover
  refine Blk.portGoes_item hrun hstop hitems hbind (hbegin.trans ((Blk.beginBody_young hitems hstale).trans hbody)) ?_
  rw [hitems]
  exact hlen
/-- One that has grown stale is counted and discarded (R290). -/
theorem Blk.portGoes_drops (hrun : b.running = true) (hitems : (b.intake p).items = [i]) (hbind : b.binding p = some r)
    (hphase : i.phase = .waiting) (hstop : (b.intake p).stopped = false) (hbusy : b.destBusy p r = false)
    (hlast : i.last = false) (hstale : staleNow x r i = true) :
    ∃ ls, b.IntakeAt p { b.intake p with
      items := [i.discarded], dropStale := satInc (b.intake p).dropStale, landing := ls } (b.portGoes x p) := by
  have hbegin : b.runItem x p r i = b.dropItem p := by
    rw [Blk.runItem_waiting hphase, hbusy, Blk.beginBody_stale hitems hstale]
    exact if_neg Bool.false_ne_true
  obtain ⟨ls, hdrop⟩ := Blk.dropItem_spec hitems
  rw [hlast, if_neg Bool.false_ne_true] at hdrop
  have hgo : b.portGoes x p = b.dropItem p :=
    Blk.portGoes_item hrun hstop hitems hbind hbegin (by rw [hdrop.intake, hitems]; rfl)
  exact ⟨ls, hgo ▸ hdrop⟩

/-- The first beat at a port without a binding: the item is counted and discarded (R287). -/
theorem Blk.beatIn_unbound (ts : W64) (d : BitVec 256) (last : Bool) (hready : b.ikReady p = true)
    (hitems : (b.intake p).items = []) (hbind : b.binding p = none) :
    ∃ w, b.IntakeAt p w (b.beatIn x p d last ts)
      ∧ w.dropUnb = satInc (b.intake p).dropUnb ∧ w.items.map (·.phase) = if last then [] else [.discard] := by
  obtain ⟨hrun, hstop⟩ := Blk.ikReady_spec hready
  have hopen : (b.intake p).opened = none := by rw [Intake.opened, hitems]; rfl
  have hbeat := (((b.intakeAt_setIntake p { b.intake p with
      items := (b.intake p).items ++ [{ (b.intake p).newItem ts with phase := .discard }]
      dropUnb := satInc (b.intake p).dropUnb }).bump (evBlk 0x15 p) 1).bump (evBlk 0x14 p) 1).modLast rfl (Item.beat d last)
  rw [← Blk.openItem_unbound ts hopen hbind, hitems, List.nil_append] at hbeat
  generalize hc : ((b.openItem p ts).bump (evBlk 0x14 p) 1).modLast p (Item.beat d last) = c at hbeat
  have hcbind : c.binding p = none := (hbeat.binding p).trans hbind
  have hcitems := congrArg Intake.items hbeat.intake
  have hyoung : c.FrontYoung x p := by
    unfold Blk.FrontYoung
    rw [hcbind]
    rintro _ _ - ⟨⟩
  rw [Blk.beatIn_young hc hyoung,
    Blk.portGoes_unbound (hbeat.running.trans hrun) (by rw [hbeat.intake]; exact hstop) hcitems hcbind]
  cases last with
  | false => exact ⟨_, hbeat, rfl, rfl⟩
  | true =>
    obtain ⟨ls, hrest⟩ := Blk.discardRest_spec hcitems
    rw [hbeat.intake] at hrest
    exact ⟨_, hbeat.trans hrest, rfl, rfl⟩

/-- The first beat at a bound port is staged, behind an item that still waits for its destination (R284, R285, 13 R338). -/
theorem Blk.beatIn_staged (ts : W64) (d : BitVec 256) (hready : b.ikReady p = true) (hbind : b.binding p = some r)
    (hitems : (b.intake p).items = []
      ∨ ∃ i : Item, (b.intake p).items = [i] ∧ i.last = true ∧ i.phase = .waiting ∧ b.destBusy p r = true) :
    b.IntakeAt p { b.intake p with items := (b.intake p).items ++ [{ (b.intake p).newItem ts with
      got := 32, buffered := toBytes 32 d.toNat }] } (b.beatIn x p d false ts) := by
  obtain ⟨hrun, hstop⟩ := Blk.ikReady_spec hready
  have hopen : (b.intake p).opened = none := by
    rcases hitems with hnone | ⟨i, hone, hlast, -⟩
    · rw [Intake.opened, hnone]
      rfl
    · rw [Intake.opened_append (front := []) hone, hlast]
      rfl
  have hbeat := ((b.intakeAt_setIntake p { b.intake p with
      items := (b.intake p).items ++ [(b.intake p).newItem ts] }).bump (evBlk 0x14 p) 1).modLast rfl (Item.beat d false)
  rw [← Blk.openItem_bound ts hopen hbind, Item.beat_kept rfl (by exact ItemPhase.noConfusion)] at hbeat
  generalize hc : ((b.openItem p ts).bump (evBlk 0x14 p) 1).modLast p (Item.beat d false) = c at hbeat
  have hcbind : c.binding p = some r := (hbeat.binding p).trans hbind
  have hcitems := congrArg Intake.items hbeat.intake
  have hcrun := hbeat.running.trans hrun
  have hcstop : (c.intake p).stopped = false := by rw [hbeat.intake]; exact hstop
  suffices hfront : ∃ i rest, (c.intake p).items = i :: rest ∧ i.phase ≠ .body ∧ c.runItem x p r i = c by
    obtain ⟨i, rest, hfirst, hphase, hstays⟩ := hfront
    have hyoung : c.FrontYoung x p := by
      unfold Blk.FrontYoung
      rw [hfirst]
      rintro _ _ ⟨rfl⟩ - hbody
      exact absurd hbody hphase
    rw [Blk.beatIn_young hc hyoung, Blk.portGoes_item hcrun hcstop hfirst hcbind hstays rfl]
    exact hbeat
  rcases hitems with hnone | ⟨i, hone, -, hphase, hbusy⟩
  · rw [hnone] at hcitems
    exact ⟨_, _, hcitems, ItemPhase.noConfusion, Blk.runItem_header rfl ((length_toBytes 32 _).trans_lt (by decide)) rfl⟩
  · rw [hone] at hcitems
    refine ⟨i, _, hcitems, by rw [hphase]; decide, ?_⟩
    rw [Blk.runItem_waiting hphase, (hbeat.destBusy rfl).trans hbusy]
    exact if_pos rfl

end

/-! ### The statement -/

/-- Settles O39: each row comes to the operation that decides what the item becomes (`Blk.beatIn_unbound`, `Blk.beatIn_staged`,
`Blk.beatIn_writes`, `Blk.portGoes_drops`, `Blk.portGoes_begins`, `Blk.tieItem_ties`), and the bytes of a body are placed line by line
(`Blk.writeBody_short`, `Blk.writeBody_line`). -/
theorem intakeItems : Obligations.IntakeItems := by
  unfold Obligations.IntakeItems
  refine ⟨?_, ?_⟩
  · intro s p b v only
    refine ⟨?_, ?_, ?_, ?_, ?_⟩
    · intro d last ts hready hitems hbind
      obtain ⟨w, ⟨hframe, hw, hothers⟩, hdrop, hphase⟩ := Blk.beatIn_unbound (x := s.env) ts d last hready hitems hbind
      refine ⟨_, exec_intakeBeat d last ts hready, ?_⟩
      rw [hw]
      exact ⟨hdrop, hphase, hframe, hothers⟩
    · intro d ts r hready hbind hitems
      obtain ⟨hframe, hw, hothers⟩ := Blk.beatIn_staged (x := s.env) ts d hready hbind hitems
      exact ⟨_, exec_intakeBeat d false ts hready, hw, hframe, hothers⟩
    · intro d ts r i hready hitems hbind hbusy hphase hraw hkind hlast hover hstale
      obtain ⟨c, hbeat, hgo⟩ := Blk.beatIn_writes ts d hready hitems hbind hbusy hphase hlast hover hstale
      have hcitems := congrArg Intake.items hbeat.intake
      have hexec := exec_intakeBeat d false ts hready
      refine ⟨fun hnone hroom => ?_, fun hhalf hroom => ?_⟩
      · rw [hnone, List.nil_append] at hbeat hcitems
        have hshort := hbeat.trans (Blk.writeBody_short (x := s.env) (r := r) hcitems hraw hlast
          ((length_toBytes 32 _).trans_lt (by decide)) (.inr hroom))
        rw [hbeat.intake] at hshort
        obtain ⟨hframe, hw, hothers⟩ := hshort
        rw [hgo (by rw [hw]; rfl)] at hexec
        exact ⟨_, hexec, ⟨hframe, hothers⟩, hw⟩
      · intro a
        have hline : (i.buffered ++ toBytes 32 d.toNat).length = 64 := by rw [List.length_append, hhalf, length_toBytes]
        obtain ⟨e, g, htake, htook, hplace⟩ := Blk.writeBody_line (x := s.env) hcitems hraw hlast hline hroom hkind
        rw [hbeat.engines] at htook
        rw [hbeat.intake] at hplace
        rw [hgo (by rw [hplace.intake]; rfl)] at hexec
        obtain ⟨hframe, hlm, hothers, hports⟩ := htook.within (hbeat.trans htake) hplace
        exact ⟨_, hexec, hplace.intake, fun n hn => (hlm n hn).line hline, hothers, hports, hframe⟩
    · intro w i front hup hitems hlast
      have hopen : (b.intake p).opened.isNone = false := by rw [Intake.opened_append hitems, hlast]; rfl
      obtain ⟨hframe, hw, hothers⟩ := (b.intakeAt_refl p).modLast hitems (Item.damage w)
      exact ⟨_, exec_damageEntry_opened w hup hopen, ⟨hframe, hothers⟩, hw⟩
    · exact fun w hopen => exec_damageEntry_none w hopen
  · intro s p b v
    refine ⟨?_, ?_⟩
    · intro r i hrun hitems hbind hphase hstop hbusy hlast hnone hover hraw
      refine ⟨_, exec_destinationFree, ?_⟩
      cases hstale : staleNow s.env r i with
      | true =>
        obtain ⟨ls, hframe, hw, hothers⟩ := Blk.portGoes_drops hrun hitems hbind hphase hstop hbusy hlast hstale
        rw [hw]
        exact ⟨fun _ => ⟨rfl, rfl⟩, fun h => absurd h (by decide), hothers, hframe⟩
      | false =>
        obtain ⟨c, hbegin, hgo⟩ := Blk.portGoes_begins hrun hitems hbind hphase hstop hbusy hover hstale
        have hshort := hbegin.trans (Blk.writeBody_short (x := s.env) (r := r) (congrArg Intake.items hbegin.intake) hraw hlast
          (by rw [hnone]; decide) (.inl hnone))
        rw [hbegin.intake] at hshort
        obtain ⟨hframe, hw, hothers⟩ := hshort
        rw [hgo (by rw [hw]; rfl)]
        exact ⟨fun h => absurd h (by decide), fun _ => hw, hothers, hframe⟩
    · intro l hup hitems hfind houtst hrecord
      refine ⟨_, exec_itemWritesLanded 0 hup, ?_⟩
      cases herr : l.err with
      | false =>
        rw [Blk.tieItem_ties hitems hfind houtst hrecord herr]
        obtain ⟨-, hw, hothers⟩ := b.intakeAt_setIntake p (v.tied l s.env.now)
        exact ⟨hothers, rfl, fun _ => ⟨hw, rfl⟩, fun h => absurd h (by decide)⟩
      | true =>
        rw [Blk.tieItem_refused hitems hfind houtst hrecord herr]
        obtain ⟨-, hw, hothers⟩ := b.intakeAt_setIntake p (({ v with landing := v.landing.erase l } : Intake).noteErr 4 0 l.seq)
        exact ⟨hothers, rfl, fun h => absurd h (by decide), fun _ => ⟨hw, rfl⟩⟩

end Sys2Proof.Machine

/-! # Registers of features, grants and figures

COMMIT, SEAT_EXPERT_ENABLE, PRED_RESET and SLOW_CLR have their effect and are answered. -/

namespace Sys2Proof.Machine

/-! ### Grants (12 R315) -/

section
variable (b : Blk)

theorem Blk.engsOnly_dropClaims : b.EngsOnly b.dropClaims := Blk.EngsOnly.foldl (fun c e => c.engsOnly_modEng e Eng.endClaim) _ b
/-- A grant gives the seat what it may be granted, reaches no other seat, and ends claims of engines. -/
theorem Blk.grant_spec (t : Nat) (d : W32) : ((b.grant t d).seat t).expert = d &&& b.grantable t
    ∧ (∀ j, j ≠ t → (b.grant t d).seat j = b.seat j)
    ∧ b.grant t d = { b with eng := (b.grant t d).eng, host := (b.grant t d).host } := by
  let c := b.modSeat t fun v => { v with expert := d &&& b.grantable t }
  have hclaims : b.grant t d = { c with eng := (b.grant t d).eng } := c.engsOnly_dropClaims
  have hseats : ∀ j, (b.grant t d).seat j = c.seat j := fun j => by
    rw [hclaims]
    rfl
  refine ⟨?_, fun j hj => (hseats j).trans (b.setSeat_seat_ne _ hj), ?_⟩
  · rw [hseats, show c.seat t = _ from b.setSeat_seat t _]
  · rw [hclaims]
    rfl

end

/-! ### The rows -/

section
variable {s : State} {a : Acc}

theorem exec_commit (hb : s.blk.Serves a) (hs : s.Steward a) :
    exec (.commit a) s = .next { s with blk := Blk.respond a.seat true 0 { s.blk.freshResp with feat := s.blk.feat.commit } } := by
  simp only [exec, execCommit]
  exact State.writeRow_served hb hs _ _ _
theorem exec_seatExpertEnable (hb : s.blk.Serves a) (hs : s.Steward a) (t : Seat) (d : W32) :
    exec (.seatExpertEnable a t d) s = .next { s with blk := (s.blk.freshResp.grant t d).respond a.seat true 0 } := by
  simp only [exec, execSeatExpertEnable]
  exact State.writeRow_served hb hs _ _ _
theorem exec_predReset (hb : s.blk.Serves a) (hs : s.Steward a) :
    exec (.predReset a) s = .next { s with blk := s.blk.freshResp.predReset.respond a.seat true 0 } := by
  simp only [exec, execPredReset]
  exact State.writeRow_served hb hs _ _ _
theorem exec_clear (hb : s.blk.Serves a) :
    exec (.clear a) s = .next { s with blk := (s.blk.freshResp.slowClear (ownWindow s.env a)).respond a.seat true 0 } := by
  simp only [exec, execClear]
  exact State.writeRow_passed hb rfl _ _ _

end

/-- Settles O54: each write is served, and its effect is that of the register alone; what a grant does to seats and claims is
`Blk.grant_spec`. -/
theorem registerCommands : Obligations.RegisterCommands := by
  intro s a b f hb
  refine ⟨fun hs => ⟨?_, fun t d => ?_, ?_⟩, fun q hq => ?_, fun hq => ?_⟩
  · exact ⟨_, exec_commit hb hs, b.wroteOnly_respond { b with feat := f.commit } a⟩
  · obtain ⟨hown, hothers, hwork⟩ := b.freshResp.grant_spec t d
    have hclaims : (b.freshResp.grant t d).host.resp = [] :=
      congrArg (·.host.resp) (Blk.engsOnly_dropClaims (b.freshResp.modSeat t fun v => { v with expert := d &&& b.grantable t }))
    refine ⟨_, exec_seatExpertEnable hb hs t d, b.respond_wrote a hclaims, hown, hothers, ?_⟩
    rw [hwork]
    rfl
  · exact ⟨_, exec_predReset hb hs, b.wroteOnly_respond { b with mem := { b.mem with pred := [] } } a⟩
  · have hfound : b.freshResp.slowQueue (ownWindow s.env a) = some q := hq
    refine ⟨_, exec_clear hb, ?_⟩
    rw [Blk.slowClear, hfound]
    exact b.wroteOnly_respond (b.setQue q { b.que q with stallSum := 0, busySum := 0 }) a
  · have hnone : b.freshResp.slowQueue (ownWindow s.env a) = none := hq
    refine ⟨_, exec_clear hb, ?_⟩
    rw [Blk.slowClear, hnone]
    exact b.wroteOnly_respond b a

end Sys2Proof.Machine

/-! # Accesses of registers

An access that the port takes is refused, partial, or done; what goes on after it, and what the warden core answers. -/

namespace Sys2Proof.Machine

/-! ### Accesses that have no effect (12 R303, R304) -/

section
variable {s : State} {a : Acc}

theorem judgeSteward_refused {x : Env} (h : judgeSteward x a ≠ none) : judgeSteward x a = some 0 := by
  unfold judgeSteward at *
  split at h
  · exact absurd rfl h
  next hc => exact if_neg hc
/-- The doorbell page of a queue is written by its owner and by the steward (R159). -/
theorem judgePage_passed {x : Env} {b : Blk} {q : Nat} (h : x.steward = a.seat.val ∨ b.wv.cur.owner q = some a.seat.val) :
    judgePage x b q a = none := by
  refine if_pos ?_
  rcases h with h | h <;> simp [fromSteward, h]
theorem judgePage_refused {x : Env} {b : Blk} {q : Nat} (h : ¬(x.steward = a.seat.val ∨ b.wv.cur.owner q = some a.seat.val)) :
    judgePage x b q a = some 2 := by
  refine if_neg fun hc => h ?_
  rw [Bool.or_eq_true, fromSteward, beq_iff_eq, beq_iff_eq] at hc
  exact hc.imp_left Eq.symm
/-- An access that nothing of its seat is before is performed on the block that shows no response yet. -/
theorem State.access_taken (hready : s.blk.hrpReady a.seat.val = true) (hunfin : (s.blk.seat a.seat.val).unfin = none)
    (hdone : s.blk.start.done = true) (addr : BitVec 22) (w : Option W32) (go : State → State) :
    s.access a addr w go = go { s with blk := s.blk.freshResp } := by
  simp [State.access, hready, hunfin, hdone]

theorem exec_registerWrite (hready : s.blk.hrpReady a.seat.val = true) (hunfin : (s.blk.seat a.seat.val).unfin = none)
    (hdone : s.blk.start.done = true) {addr : BitVec 22} {d : W32} {c : Blk}
    (h : State.perform { acc := a, addr := addr, wdata := some d } { s with blk := s.blk.freshResp } = { s with blk := c }) :
    exec (.registerWrite a addr d) s = .next (State.settle { s with blk := c }) := by
  simp only [exec, execRegisterWrite, State.access_taken hready hunfin hdone, h]
theorem exec_snapshotRead (hready : s.blk.hrpReady a.seat.val = true) (hunfin : (s.blk.seat a.seat.val).unfin = none)
    (hdone : s.blk.start.done = true) {addr : BitVec 22} {c : Blk}
    (h : State.perform { acc := a, addr := addr, wdata := none } { s with blk := s.blk.freshResp } = { s with blk := c }) :
    exec (.snapshotRead a addr) s = .next (State.settle { s with blk := c }) := by
  simp only [exec, execSnapshotRead, State.access_taken hready hunfin hdone, h]

/-- A write without effect: recorded under its KIND, and answered. -/
def Blk.writeLost (a : Acc) (addr : BitVec 22) (k : BitVec 2) (b : Blk) : Blk := (b.refuse a addr true k).respond a.seat true 0

theorem Blk.writeLost_spec (a : Acc) (addr : BitVec 22) (k : BitVec 2) (b : Blk) :
    let r := b.host.acc
    let c := b.freshResp.writeLost a addr k
    b.Wrote a c ∧ c = { b with host := { b.host with
      resp := c.host.resp
      acc := if r.valid then { r with count := satInc r.count } else {
        r with seat := BitVec.ofNat 4 a.seat.val, priv := a.priv, write := true, kind := k, count := 1, valid := true, addr := addr } } } :=
  ⟨b.respond_wrote a rfl, rfl⟩

/-- A refused write has no effect (R303). -/
theorem State.perform_refused {addr : BitVec 22} {k : BitVec 2} (h : judge s.env s.blk a (placeOf addr) = some k) (d : W32) :
    s.perform { acc := a, addr := addr, wdata := some d } = { s with blk := s.blk.writeLost a addr k } := by
  simp only [State.perform, h]
  rfl
/-- Outside the aperture a partial write has no effect (R304). -/
theorem State.plain_partial (hbe : a.be ≠ 15) (addr : BitVec 22) (d : W32) (p : Place) :
    s.plain { acc := a, addr := addr, wdata := some d } p = { s with blk := s.blk.writeLost a addr 3 } := by
  have hpartial : (true && a.be != 15) = true := by simpa using hbe
  simp only [State.plain, Option.isSome_some, hpartial, if_true]
  rfl
theorem State.perform_partial {addr : BitVec 22} (h : judge s.env s.blk a (placeOf addr) = none) (hbe : a.be ≠ 15)
    (hplace : ∀ t o, placeOf addr = .seat t o → o < 0x8000) (d : W32) :
    s.perform { acc := a, addr := addr, wdata := some d } = { s with blk := s.blk.writeLost a addr 3 } := by
  simp only [State.perform, h]
  split
  next t o hp =>
    rw [if_neg (Nat.not_le.2 (hplace t o hp))]
    exact State.plain_partial hbe addr d _
  · exact State.plain_partial hbe addr d _

end

/-! ### Registers of the steward window -/

section
variable {s : State} {a : Acc}

/-- An access of the steward, outside the warden core's registers, is performed on its register. -/
theorem State.perform_steward (hs : s.Steward a) (hbe : a.be = 15) {addr : BitVec 22} {o : Nat} (hplace : placeOf addr = .steward o)
    (hwarden : emulated addr.toNat = false) (d : W32) :
    s.perform { acc := a, addr := addr, wdata := some d } = (s.writeSteward a.seat.val o d).respond a true 0 := by
  have hjudge : judge s.env s.blk a (.steward o) = none := hs
  simp [State.perform, hplace, hjudge, State.plain, hbe, hwarden, State.writeAt]
/-- FEAT_ACCEPT0 to 7 (R320). -/
theorem placeOf_featAccept {i : Nat} (hi : i < 8) : placeOf (BitVec.ofNat 22 (0x60 + 4 * i)) = .steward (0x60 + 4 * i) := by
  have haddr : (BitVec.ofNat 22 (0x60 + 4 * i)).toNat / 4 * 4 = 0x60 + 4 * i := by
    rw [BitVec.toNat_ofNat]
    omega
  have hsteward : 0x60 + 4 * i < 0x100000 := by omega
  simp only [placeOf, haddr, hsteward, if_true]
theorem emulated_featAccept {i : Nat} (hi : i < 8) : emulated (BitVec.ofNat 22 (0x60 + 4 * i)).toNat = false := by
  have haddr : (BitVec.ofNat 22 (0x60 + 4 * i)).toNat = 0x60 + 4 * i := by
    rw [BitVec.toNat_ofNat]
    omega
  simp [emulated, haddr]
  omega
theorem State.writeSteward_featAccept {i : Nat} (hi : i < 8) (seat : Nat) (d : W32) :
    s.writeSteward seat (0x60 + 4 * i) d = { s with blk := { s.blk with feat := s.blk.feat.take i d } } := by
  have htime : ¬ 0x9100 ≤ 0x60 + 4 * i := by omega
  have hsteep : ¬ 0xC0000 ≤ 0x60 + 4 * i := by omega
  have hbelay : 0x60 + 4 * i ≠ 0xA004 := by omega
  have hblk : 0x60 + 4 * i < 0x1000 := by omega
  have herr : 0x60 + 4 * i ≠ 0x18 := by omega
  have hfeat : 0x60 ≤ 0x60 + 4 * i ∧ 0x60 + 4 * i < 0x80 := by omega
  have hword : (0x60 + 4 * i - 0x60) / 4 = i := by omega
  simp only [State.writeSteward, htime, hsteep, hbelay, false_and, if_false, writeStewardBlk, hblk, if_true, writeBlk, herr, hfeat,
    hword, and_self]

/-- The low word of TIM_NOW captures the whole of fabric time for the seat (R305). -/
def Blk.timeRead (a : Acc) (now : W64) (b : Blk) : Blk :=
  (b.modSeat a.seat fun v => { v with snaps := PMap.put 0x9108 (BitVec.ofNat 128 now.toNat) v.snaps }).respond a.seat false
    (BitVec.ofNat 32 now.toNat)
theorem Blk.timeRead_snaps (a : Acc) (now : W64) (b : Blk) :
    PMap.find 0x9108 ((b.timeRead a now).seat a.seat.val).snaps = some (BitVec.ofNat 128 now.toNat) := by
  rw [show (b.timeRead a now).seat a.seat.val = _ from b.setSeat_seat a.seat _]
  exact PMap.find_put_self _ _ _
theorem State.perform_timNow (hs : s.Steward a) :
    s.perform { acc := a, addr := 0x9108, wdata := none } = { s with blk := s.blk.timeRead a s.env.now } := by
  have hplace : placeOf 0x9108 = .steward 0x9108 := by decide
  have hjudge : judge s.env s.blk a (.steward 0x9108) = none := hs
  have hwarden : emulated (0x9108 : BitVec 22).toNat = false := by decide
  have haddr : (0x9108 : BitVec 22).toNat / 4 * 4 = 0x9108 := by decide
  have hsnap : snapSteward s.env s.blk 0x9108 = some (BitVec.ofNat 128 s.env.now.toNat) := rfl
  have hword : BitVec.ofNat 32 (fld (BitVec.ofNat 128 s.env.now.toNat) 0 32) = BitVec.ofNat 32 s.env.now.toNat := by
    apply BitVec.eq_of_toNat_eq
    simp [fld]
  simp only [State.perform, hplace, hjudge, State.plain, hwarden, State.readAt, haddr, hsnap, Option.isSome_none, Bool.false_and,
    Bool.false_eq_true, if_false, State.respond, hword]
  rfl

end

/-! ### Accesses that go on (12 R305) -/

theorem Blk.PortQuiet.nextHeld {b : Blk} (h : b.PortQuiet) {i : Nat} (hi : i < 16) : b.nextHeld i = none := by
  obtain ⟨hunfin, hheld⟩ := h i hi
  simp [Blk.nextHeld, hunfin, hheld]
theorem State.settle_quiet {s : State} (h : s.blk.PortQuiet) : s.settle = s := by
  have hnone : s.goOn = none := by
    have hfind : ((range 16).findSome? fun i => (s.blk.nextHeld i).map fun y => (i, y)) = none := by
      rw [List.findSome?_eq_none_iff]
      intro i hi
      rw [h.nextHeld (List.mem_range.1 hi)]
      rfl
    simp only [State.goOn, hfind]
  simp only [State.settle, drainMax, State.drain, hnone]

/-! ### The warden core (12 R318, R319) -/

section
variable {s : State} {op : HostOp} {rest : List HostOp}

/-- The warden core has the accesses that wait behind the first. -/
def Blk.wardenTakes (rest : List HostOp) (b : Blk) : Blk := { b with host := { b.host with warden := rest } }
/-- While it does not run, a read gives 0 and a write nothing (R319). -/
theorem State.serveWarden_stopped (hwait : s.blk.host.warden = op :: rest) (hstopped : s.blk.flt.warden ≠ .running) :
    s.serveWarden = { s with blk := (s.blk.wardenTakes rest).finished op.acc.seat op.wdata.isSome 0 } := by
  simp only [State.serveWarden, hwait, State.onBlock, hstopped, ne_eq, not_false_eq_true, if_true]
  rfl
/-- FLT_CTRL as the warden core writes it (16 R425). -/
def Faults.setCtrl (f : Faults) (d : W32) : Faults :=
  { f with auto := BitVec.ofNat 4 (fld d 0 4), engLimit := BitVec.ofNat 4 (fld d 8 4), blkLimit := BitVec.ofNat 4 (fld d 12 4) }
theorem State.serveWarden_fltCtrl (hwait : s.blk.host.warden = op :: rest) (hrun : s.blk.flt.warden = .running)
    (haddr : op.addr = 0x7000) {d : W32} (hdata : op.wdata = some d) :
    s.serveWarden = { s with blk :=
      ({ s.blk.wardenTakes rest with flt := s.blk.flt.setCtrl d } : Blk).finished op.acc.seat true 0 } := by
  have hplace : placeOf 0x7000 = .steward 0x7000 := by decide
  simp only [State.serveWarden, hwait, State.onBlock, hrun, ne_eq, not_true_eq_false, if_false, haddr, hdata, hplace]
  rfl
theorem exec_emulatedAccessDone {c : Blk} (h : State.serveWarden { s with blk := s.blk.freshResp } = { s with blk := c }) :
    exec .emulatedAccessDone s = .next (State.settle { s with blk := c.pump s.env }) := by
  simp only [exec, execEmulatedAccessDone, State.hostRow, State.onBlock, h]

end

/-- Settles O55: an access that is taken is performed at once (`State.access_taken`); what it comes to is decided by where it lies and
whether it is whole. -/
theorem registerAccesses : Obligations.RegisterAccesses := by
  refine ⟨fun s a => ?_, fun s h => State.settle_quiet h⟩
  intro b r
  let t : State := { s with blk := b.freshResp }
  refine ⟨fun ⟨hready, hunfin, hdone, hwhole⟩ => ⟨fun addr d hplace hother hvalid => ?_, fun d i hs hi hopen => ?_, fun hs => ?_⟩,
    fun addr d hready hunfin hdone hbe => ?_, fun op rest hwait hstopped => ?_, fun op rest d hwait hrun haddr hdata => ?_⟩
  · have hjudge : judge t.env t.blk a (placeOf addr) = some 0 := by
      rw [hplace]
      exact judgeSteward_refused hother
    obtain ⟨hwrote, hwork⟩ := b.writeLost_spec a addr 0
    rw [if_neg (by simp [show b.host.acc.valid = false from hvalid])] at hwork
    exact ⟨_, exec_registerWrite hready hunfin hdone (State.perform_refused hjudge d), hwrote, hwork⟩
  · have hwrote := b.wroteOnly_respond { b with feat := b.feat.take i d } a
    rw [Features.take, if_neg (by simp [hopen])] at hwrote
    have hperform := State.perform_steward (s := t) hs hwhole (placeOf_featAccept hi) (emulated_featAccept hi) d
    rw [State.writeSteward_featAccept hi, Features.take, if_neg (by simp [t, hopen])] at hperform
    exact ⟨_, exec_registerWrite hready hunfin hdone hperform, hwrote⟩
  · exact ⟨_, exec_snapshotRead hready hunfin hdone (State.perform_timNow (s := t) hs), rfl, b.freshResp.timeRead_snaps a _, rfl⟩
  · intro lost
    have hlost : ∀ k, t.perform { acc := a, addr := addr, wdata := some d } = { t with blk := t.blk.writeLost a addr k } → lost k := by
      intro k hk
      obtain ⟨hwrote, hwork⟩ := b.writeLost_spec a addr k
      exact ⟨_, exec_registerWrite hready hunfin hdone hk, hwrote, hwork⟩
    have hpart : judge t.env t.blk a (placeOf addr) = none → (∀ i o, placeOf addr = .seat i o → o < 0x8000) → lost 3 :=
      fun hj hplace => hlost 3 (State.perform_partial hj hbe hplace d)
    have hrefused : ∀ k, judge t.env t.blk a (placeOf addr) = some k → lost k := fun k hj => hlost k (State.perform_refused hj d)
    cases hp : placeOf addr with
    | steward o =>
      dsimp only
      rw [hp] at hpart hrefused
      by_cases hs : s.Steward a
      · rw [if_pos hs]
        exact hpart hs nofun
      · rw [if_neg hs]
        exact hrefused 0 (judgeSteward_refused hs)
    | seat i o =>
      dsimp only
      rw [hp] at hpart hrefused
      by_cases hi : i = a.seat.val
      · rw [if_pos hi]
        intro ho
        refine hpart (if_pos hi.symm) ?_
        rintro _ _ ⟨⟩
        exact ho
      · rw [if_neg hi]
        exact hrefused 1 (if_neg (Ne.symm hi))
    | page q o =>
      dsimp only
      rw [hp] at hpart hrefused
      by_cases hq : s.env.strap.steward = a.seat.val ∨ b.wv.cur.owner q = some a.seat.val
      · rw [if_pos hq]
        exact hpart (judgePage_passed hq) nofun
      · rw [if_neg hq]
        exact hrefused 2 (judgePage_refused hq)
    | knot k i =>
      rw [hp] at hpart
      exact hpart rfl nofun
  · refine ⟨_, exec_emulatedAccessDone (State.serveWarden_stopped (s := t) hwait hstopped), rfl, ?_, rfl, rfl⟩
    rw [Blk.finished_seat]
  · refine ⟨_, exec_emulatedAccessDone (State.serveWarden_fltCtrl (s := t) hwait hrun haddr hdata), rfl, ?_, rfl, rfl⟩
    rw [Blk.finished_seat]

end Sys2Proof.Machine

/-! # What a reset of engines reaches

The frame of a rung, and that each operation of a reset leaves the engines that are reset already as they are: RESETTING, without a
tile. -/

namespace Sys2Proof.Machine

/-! ### The frame -/

/-- Between the two blocks only the error unit, the engines' caches and what the dispatcher and the engines reach differs. -/
def Blk.RungWork (b c : Blk) : Prop :=
  ({ b with
    flt := c.flt
    mem := { b.mem with agents := c.mem.agents, misses := c.mem.misses, cohFwd := c.mem.cohFwd } } : Blk).EngineWork c
/-- What the engines of a reset are left with (16 R418): the state RESETTING, and no tile that runs or is being restored. -/
def Eng.AtReset (v : Eng) : Prop := v.st = .resetting ∧ v.job = none ∧ v.restore = false
/-- The same without the error unit, and an engine that is reset stays so. -/
structure Blk.ResetWork (b c : Blk) : Prop where
  work : b.RungWork c
  flt  : c.flt = b.flt
  keep : ∀ e, (b.engine e).AtReset → (c.engine e).AtReset

theorem Eng.AtReset.st {v : Eng} (h : v.AtReset) : v.st = .resetting := h.1
theorem Eng.AtReset.job {v : Eng} (h : v.AtReset) : v.job = none := h.2.1
theorem Eng.AtReset.restore {v : Eng} (h : v.AtReset) : v.restore = false := h.2.2

section
variable {b c d : Blk} {e : Nat}

theorem Blk.RungWork.trans (h : b.RungWork c) (k : c.RungWork d) : b.RungWork d := by
  unfold Blk.RungWork Blk.EngineWork at *
  rw [h] at k
  exact k
theorem Blk.EngineWork.rungWork (h : b.EngineWork c) : b.RungWork c := by
  unfold Blk.RungWork Blk.EngineWork
  rw [show c = _ from h]
theorem Blk.EngineWork.flt (h : b.EngineWork c) : c.flt = b.flt := by rw [show c = _ from h]

theorem Blk.ResetWork.refl (b : Blk) : b.ResetWork b := ⟨rfl, rfl, fun _ h => h⟩
theorem Blk.ResetWork.trans (h : b.ResetWork c) (k : c.ResetWork d) : b.ResetWork d := by
  obtain ⟨hwork, hflt, hkeep⟩ := h
  obtain ⟨kwork, kflt, kkeep⟩ := k
  exact ⟨hwork.trans kwork, kflt.trans hflt, fun e he => kkeep e (hkeep e he)⟩
theorem Blk.ResetWork.ite {p : Prop} [Decidable p] (h : b.ResetWork c) (k : b.ResetWork d) : b.ResetWork (if p then c else d) := by
  split <;> assumption
theorem Blk.ResetWork.foldl {α : Type} {f : Blk → α → Blk} (h : ∀ (b : Blk) x, b.ResetWork (f b x)) (l : List α) (b : Blk) :
    b.ResetWork (l.foldl f b) :=
  List.foldlRecOn l f (motive := b.ResetWork) (.refl b) fun c hc x _ => hc.trans (h c x)
/-- Work that reaches no engine. -/
theorem Blk.EngineWork.resetWork (h : b.EngineWork c) (heng : c.eng = b.eng) : b.ResetWork c :=
  ⟨h.rungWork, h.flt, fun e he => by rwa [Blk.engine, heng]⟩
theorem Blk.QueueWork.resetWork (h : b.QueueWork c) : b.ResetWork c := h.cmdWork.engineWork.resetWork (by rw [show c = _ from h])
/-- Work at one engine. -/
theorem Blk.WorkAt.resetWork (h : b.WorkAt e c) (k : (b.engine e).AtReset → (c.engine e).AtReset) : b.ResetWork c := by
  refine ⟨h.engineWork.rungWork, h.engineWork.flt, fun i hi => ?_⟩
  by_cases hie : i = e
  · subst hie
    exact k hi
  · rwa [h.2 i hie]
theorem Blk.EngOnly.resetWork (h : b.EngOnly e c) (k : (b.engine e).AtReset → (c.engine e).AtReset) : b.ResetWork c :=
  h.workAt.resetWork k
theorem Blk.resetWork_modEng (b : Blk) (e : Nat) {f : Eng → Eng} (h : ∀ v : Eng, v.AtReset → (f v).AtReset) :
    b.ResetWork (b.modEng e f) :=
  (b.engOnly_modEng e f).resetWork fun he => by
    rw [Blk.modEng_engine]
    exact h _ he
theorem Blk.resetWork_modEntry (b : Blk) (q n : Nat) (f : SbEntry → SbEntry) : b.ResetWork (b.modEntry q n f) :=
  (b.queueWork_modEntry q n f).resetWork
theorem Blk.resetWork_modStand (b : Blk) (q n : Nat) (f : Standing → Standing) : b.ResetWork (b.modStand q n f) :=
  (b.queueWork_modStand q n f).resetWork
theorem Blk.resetWork_modLaunch (b : Blk) (j : Job) (f : Launch → Launch) : b.ResetWork (b.modLaunch j f) :=
  .ite (b.resetWork_modStand j.q j.n _) (b.resetWork_modEntry j.q j.n _)

end

/-! ### Engines that fall idle -/

section
variable (b : Blk) (e : Nat)

/-- An engine that falls idle keeps its state. -/
theorem Blk.engIdle_atReset (h : (b.engine e).AtReset) : ((b.engIdle e).engine e).AtReset := by
  unfold Blk.engIdle
  extract_lets v c
  have hc : (c.engine e).AtReset := by
    rw [show c.engine e = _ from b.setEng_engine e _]
    exact h
  split
  · split
    · exact hc
    · obtain ⟨k0, k1, n, hidle⟩ := Blk.unwait_engine (c.modEng e fun v => { v with lastJob := none }) e none
      rw [hidle, Blk.modEng_engine]
      exact hc
  · exact hc
theorem Blk.resetWork_engIdle : b.ResetWork (b.engIdle e) := (b.engOnly_engIdle e).resetWork (b.engIdle_atReset e)
theorem Blk.resetWork_idleIfDone : b.ResetWork (b.idleIfDone e) := .ite (b.resetWork_engIdle e) (.refl b)
theorem Blk.resetWork_restIdle : b.ResetWork (b.restIdle e) := by
  unfold Blk.restIdle
  split
  next hst =>
    refine (b.engOnly_setEng e _).resetWork fun h => ?_
    rw [h.st] at hst
    cases hst
  · exact .refl b

end

/-! ### Standing launches (R173, R419) -/

section
variable (b : Blk) (q n : Nat)

theorem Blk.resetWork_unbind : b.ResetWork (b.unbind q n) := by
  unfold Blk.unbind
  extract_lets es c
  have hc : b.ResetWork c := Blk.EngineWork.resetWork rfl rfl
  have hes : c.ResetWork (es.foldl (fun b e => b.restIdle e) c) := .foldl (fun b e => b.resetWork_restIdle e) es c
  exact (hc.trans hes).trans (Blk.EngineWork.resetWork rfl rfl)
theorem Blk.resetWork_unbindSoon : b.ResetWork (b.unbindSoon q n) := by
  unfold Blk.unbindSoon
  split
  · exact .refl b
  · exact .ite (Blk.EngineWork.resetWork rfl rfl) (b.resetWork_unbind q n)
theorem Blk.resetWork_completionTie (t : W64) (form : Option (BitVec 4) × BitVec 4) (ep : W32) :
    b.ResetWork (b.completionTie t form ep) := (b.queueWork_completionTie t form ep).resetWork
theorem Blk.resetWork_runTieFlag (st : Standing) (f : BitVec 4) : b.ResetWork (b.runTieFlag st f) :=
  .ite (.refl b) (b.resetWork_completionTie _ _ _)
theorem Blk.resetWork_resetStand : b.ResetWork (b.resetStand q n) := by
  unfold Blk.resetStand
  split
  · exact .refl b
  · exact .ite (.refl b) (.ite (Blk.EngineWork.resetWork rfl rfl) ((b.resetWork_unbind q n).trans (Blk.resetWork_runTieFlag _ _ _)))

end

/-! ### The end of a job (R412) -/

section
variable (b : Blk) (j : Job) (q n : Nat) (st : Stat)

theorem Blk.resetWork_dropQueued (e : Nat) : b.ResetWork (b.dropQueued j e) := b.resetWork_modEng e fun _ h => h
theorem Blk.resetWork_stopTile (k : StopKind) (e : Nat) : b.ResetWork (b.stopTile k e) := by
  refine b.resetWork_modEng e fun v h => ?_
  rw [if_neg (by simp [h.job])]
  exact h
theorem Blk.resetWork_dropOn (e : Nat) : b.ResetWork (b.dropOn j e) := by
  unfold Blk.dropOn
  extract_lets c rest
  refine ((b.resetWork_dropQueued j e).trans (c.resetWork_modEng e fun v h => ?_)).trans (Blk.resetWork_idleIfDone _ e)
  obtain ⟨hst, hjob, hrestore⟩ := h
  split
  · exact ⟨hst, hjob, hrestore⟩
  · exact ⟨by simp [hrestore, hst], hjob, rfl⟩
theorem Blk.resetWork_dropTiles : b.ResetWork (b.dropTiles j) := by
  unfold Blk.dropTiles
  extract_lets on c drop steals d
  have hc : b.ResetWork c := .foldl (fun b t => b.resetWork_dropOn j t) on b
  have hd : c.ResetWork d := .ite (.refl c) (Blk.EngineWork.resetWork rfl rfl)
  exact (hc.trans hd).trans (d.resetWork_modLaunch j _)
theorem Blk.resetWork_complete (e : SbEntry) (rel : BitVec 4) : b.ResetWork (b.complete e st rel) :=
  (b.queueWork_complete e st rel).resetWork
theorem Blk.resetWork_figures (seqn : Nat) (l : Launch) : b.ResetWork (b.figures q seqn l) := (b.queueWork_setQue q _).resetWork
theorem Blk.resetWork_jobOver : b.ResetWork (b.jobOver j) := Blk.EngineWork.resetWork rfl rfl
theorem Blk.resetWork_finishLaunch : b.ResetWork (b.finishLaunch q n) := by
  unfold Blk.finishLaunch
  split
  · exact .refl b
  split
  · refine .ite (.refl b) ?_
    exact ((Blk.ResetWork.ite (b.resetWork_figures q n _) (.refl b)).trans (Blk.resetWork_complete _ _ _ 0)).trans
      (Blk.resetWork_jobOver _ _)
  · exact .refl b
theorem Blk.resetWork_runOver : b.ResetWork (b.runOver q n st) := by
  unfold Blk.runOver
  split
  · exact .refl b
  next s _ =>
  extract_lets c d form f
  have hc : b.ResetWork c := b.resetWork_modStand q n _
  have hd : c.ResetWork d := (c.queueWork_setSeat _ _).resetWork.trans (Blk.resetWork_jobOver _ _)
  have hf : d.ResetWork f := .ite (.refl d) (d.resetWork_completionTie _ _ _)
  exact ((hc.trans hd).trans hf).trans (.ite (f.resetWork_unbind q n) (f.queueWork_evalTrigger q n).resetWork)
theorem Blk.resetWork_sendRunRec : b.ResetWork (b.sendRunRec q n) := by
  unfold Blk.sendRunRec
  split
  · exact .refl b
  split
  · exact .refl b
  refine .ite (.refl b) ?_
  dsimp only
  split
  · exact (b.resetWork_modStand q n _).trans (Blk.queueWork_send _ _).resetWork
  · exact b.resetWork_modStand q n _
theorem Blk.resetWork_endRun : b.ResetWork (b.endRun q n st) := by
  unfold Blk.endRun
  split
  · exact .refl b
  next s _ =>
  extract_lets seqn sent st' c d
  have hd : b.ResetWork d := (b.resetWork_figures q seqn s.l).trans (c.resetWork_modStand q n _)
  exact hd.trans (.ite (d.resetWork_runOver q n _) ((d.resetWork_modStand q n _).trans (Blk.resetWork_sendRunRec _ q n)))
theorem Blk.resetWork_finishRun : b.ResetWork (b.finishRun q n) := by
  unfold Blk.finishRun
  split
  · exact .refl b
  split
  · exact .ite (b.resetWork_endRun q n _) (.refl b)
  · exact .refl b
theorem Blk.resetWork_finishJob : b.ResetWork (b.finishJob j) := .ite (b.resetWork_finishRun _ _) (b.resetWork_finishLaunch _ _)
theorem Blk.resetWork_endJob (k : StopKind) : b.ResetWork (b.endJob j st k) := by
  unfold Blk.endJob
  extract_lets c d f
  have hc : b.ResetWork c := .ite (b.resetWork_modStand _ _ _) (b.resetWork_modEntry _ _ _)
  have hf : d.ResetWork f := .foldl (fun b e => b.resetWork_stopTile k e) _ d
  exact ((hc.trans (c.resetWork_dropTiles j)).trans hf).trans (f.resetWork_finishJob j)
theorem Blk.resetWork_failTile (e : Nat) (code : W8) (detail : Nat) (fin : TwinEnd) : b.ResetWork (b.failTile e j code detail fin) := by
  unfold Blk.failTile
  split
  · exact (b.resetWork_stopTile .ended e).trans (Blk.resetWork_endJob _ j _ .retire)
  next t _ =>
    extract_lets side c
    exact ((b.resetWork_modLaunch j _).trans (c.resetWork_stopTile .ended e)).trans (Blk.resetWork_dropQueued _ j e)

end

/-! ### An engine leaves its tile; acknowledgements (06 R175) -/

section
variable (b : Blk) (q e : Nat)

/-- An engine without a tile has none to leave. -/
theorem Blk.leaveTile_idle (x : Env) (h : (b.engine e).job = none) : b.leaveTile x e = b := by simp [Blk.leaveTile, h]
theorem Blk.leaveTile_others (x : Env) {i : Nat} (hi : i ≠ e) : (b.leaveTile x e).engine i = b.engine i := by
  unfold Blk.leaveTile
  extract_lets v
  split
  · rfl
  next j _ =>
  extract_lets c d f disp g
  have hf : f.engine i = d.engine i := d.modEng_engine_ne _ hi
  have hg : g.engine i = b.engine i := (hf.trans (c.modLaunch_engine j _ i)).trans ((b.engOnly_tileEv x e 5 j _).2 i hi)
  split
  · exact ((g.engOnly_engIdle e).2 i hi).trans hg
  · exact hg
theorem Blk.resetWork_leaveTile (x : Env) : b.ResetWork (b.leaveTile x e) := by
  have hwork := (b.jobWork_leaveTile e x).engineWork
  refine ⟨hwork.rungWork, hwork.flt, fun i hi => ?_⟩
  by_cases hie : i = e
  · subst hie
    rwa [b.leaveTile_idle i x hi.job]
  · rwa [b.leaveTile_others e x hie]
/-- A restore that is given up was under way. -/
theorem Blk.resetWork_abandonRestore (x : Env) (h : (b.engine e).restore = true) : b.ResetWork (b.abandonRestore x e) := by
  have hwork : b.WorkAt e (b.abandonRestore x e) := by
    unfold Blk.abandonRestore
    split
    · exact (b.workAt_modEng e _).trans (Blk.workAt_modLaunch _ e _ _)
    · exact b.workAt_modEng e _
  refine hwork.resetWork fun hreset => ?_
  rw [hreset.restore] at h
  cases h
theorem Blk.resetWork_bindStand (f : SbEntry) : b.ResetWork (b.bindStand f) := by
  unfold Blk.bindStand
  split
  · exact .refl b
  next s _ =>
  extract_lets es c d g
  refine .ite ((b.resetWork_unbind _ _).trans (Blk.resetWork_complete _ _ _ 0)) (.ite ?_ (.refl b))
  have hd : c.ResetWork d := .foldl (fun c t => c.resetWork_modEng t fun v h => by
    rw [if_neg (by simp [h.st])]
    exact h) es c
  have hg : d.ResetWork g := (d.queueWork_park _).resetWork
  exact (((b.resetWork_modStand _ _ _).trans hd).trans hg).trans
    ((g.resetWork_complete .ok f 0).trans (Blk.queueWork_evalTrigger _ _ _).resetWork)
theorem Blk.resetWork_finishCmd (f : SbEntry) : b.ResetWork (b.finishCmd f) := by
  obtain h | ⟨st, h⟩ | h | h | ⟨l, -, h | h⟩ := b.finishCmd_cases f <;> rw [h]
  · exact .refl b
  · exact b.resetWork_complete st f 0
  · exact (b.queueWork_completeHitch f).resetWork
  · exact b.resetWork_bindStand f
  · exact b.resetWork_finishLaunch _ _
  · exact (b.resetWork_modEntry _ _ _).trans (Blk.resetWork_finishLaunch _ _ _)
theorem Blk.resetWork_unowe (n : Nat) : b.ResetWork (b.unowe q e n) := by
  unfold Blk.unowe
  extract_lets c
  have hc : b.ResetWork c := b.resetWork_modEntry q n _
  split
  · exact hc.trans (c.resetWork_finishCmd _)
  · exact hc
theorem Blk.resetWork_acknowledge (x : Env) : b.ResetWork (b.acknowledge x q e) := by
  unfold Blk.acknowledge
  extract_lets v c u d ns
  have hc : b.ResetWork c := by
    simp only [c]
    split
    · exact .ite (b.resetWork_leaveTile e x) (.refl b)
    · exact .refl b
  exact (hc.trans (c.queueWork_setQue q _).resetWork).trans (.foldl (fun b n => b.resetWork_unowe q e n) ns d)
theorem Blk.resetWork_ackAll (x : Env) : b.ResetWork (b.ackAll x e) := .foldl (fun b q => b.resetWork_acknowledge q e x) _ b

end

/-! ### The engine's cache (10 R267, log 152) -/

section
variable (b : Blk) (a line : Nat)

theorem Blk.resetWork_setCopies (c : PMap Copy) : b.ResetWork (b.setCopies a c) := ⟨rfl, rfl, fun _ h => h⟩
theorem Blk.resetWork_dropCopy : b.ResetWork (b.dropCopy a line) := b.resetWork_setCopies a _
theorem Blk.resetWork_send (m : Instr) : b.ResetWork (b.send m) := (b.queueWork_send m).resetWork
theorem Blk.resetWork_forget : b.ResetWork (b.forget a line) := .ite (b.resetWork_modEng a fun _ h => h) (.refl b)
theorem Blk.resetWork_evictLine (g : AgentId) (c : Copy) : b.ResetWork (b.evictLine g line c) := by
  have hgone : ∀ d : Blk, ∀ n m, d.ResetWork (((d.dropCopy g n).forget g n).send m) := fun d n m =>
    ((d.resetWork_dropCopy g n).trans (Blk.resetWork_forget _ g n)).trans (Blk.resetWork_send _ m)
  unfold Blk.evictLine
  split
  · exact hgone b _ _
  · unfold Blk.answerFwdInv
    extract_lets mem d
    have hd : b.ResetWork d := ⟨rfl, rfl, fun _ h => h⟩
    exact (hd.trans (d.resetWork_send _)).trans (hgone _ _ _)
  · exact (b.resetWork_dropCopy g line).trans (Blk.resetWork_send _ _)
theorem Blk.resetWork_invalidate : b.ResetWork (b.invalidate a line) := by
  unfold Blk.invalidate
  split
  · split
    · exact (b.resetWork_evictLine line _ _).trans (Blk.resetWork_forget _ a line)
    · exact .refl b
  · exact .refl b
theorem Blk.resetWork_emptyCache : b.ResetWork (b.emptyCache a) := .foldl (fun b l => b.resetWork_invalidate a l) _ b

end

/-! ### Queued tiles and steals go back (R418, R424) -/

section
variable (b : Blk) (e : Nat)

theorem Blk.resetWork_returnWork (j : Job) : b.ResetWork (b.returnWork j e) := by
  unfold Blk.returnWork
  split
  · exact (b.resetWork_dropQueued j e).trans (Blk.resetWork_modLaunch _ j _)
  · exact (b.resetWork_dropQueued j e).trans (Blk.resetWork_modLaunch _ j _)
theorem Blk.resetWork_sendBack : b.ResetWork (b.sendBack e) := .foldl (fun b j => b.resetWork_returnWork e j) _ b
theorem Blk.resetWork_dropSteals : b.ResetWork (b.dropSteals e) := by
  unfold Blk.dropSteals
  extract_lets mine disp c
  have hc : b.ResetWork c := Blk.EngineWork.resetWork rfl rfl
  refine hc.trans (.foldl (fun d y => ?_) mine c)
  exact d.queueWork_staleMsg.resetWork.trans (.foldl (fun f (t : Job × Range) => f.resetWork_modLaunch t.1 _) y.tiles _)

end

/-! ### An engine is reset (R418) -/

section
variable (b : Blk) (x : Env) (e : Nat) (code : W8)

theorem Eng.scrub_atReset (v : Eng) (x : Env) : (v.scrub x).AtReset := by
  unfold Eng.scrub
  rw [Eng.enter_eq]
  exact ⟨rfl, rfl, rfl⟩
/-- Responses still to come are void, and a preemption that waits is dropped. -/
theorem Blk.resetWork_void (misses : List Miss) (preempts : List Nat) : b.ResetWork { b with
    mem := { b.mem with misses := misses }, dsp := { b.dsp with preempts := preempts } } := ⟨rfl, rfl, fun _ h => h⟩
/-- The engine is RESETTING in the end: what follows its reset, acknowledgements and the end of its job, keeps it so. -/
theorem Blk.resetEngine_spec : b.ResetWork (b.resetEngine x e code) ∧ ((b.resetEngine x e code).engine e).AtReset := by
  generalize hc : b.resetEngine x e code = c
  unfold Blk.resetEngine at hc
  extract_lets v tile b1 b2 b3 b4 b5 mem disp b6 b7 b8 at hc
  have h1 : b.ResetWork b1 := by
    simp only [b1]
    split
    · exact .ite (b.resetWork_failTile _ e code _ _) (.refl b)
    · exact .refl b
  have h2 : b1.ResetWork b2 := by
    simp only [b2]
    split
    next h => exact b1.resetWork_abandonRestore e x h
    · exact .refl b1
  have h3 : b2.ResetWork b3 := b2.resetWork_leaveTile e x
  have h4 : b3.ResetWork b4 := (b3.resetWork_sendBack e).trans (Blk.resetWork_dropSteals _ e)
  have h5 : b4.ResetWork b5 := b4.resetWork_emptyCache e
  have h6 : b5.ResetWork b6 := b5.resetWork_void _ _
  have h7 : b6.ResetWork b7 := b6.resetWork_modEng e fun v _ => v.scrub_atReset x
  have h8 : b7.ResetWork b8 := b7.resetWork_ackAll e x
  have hend : b8.ResetWork c := by
    rw [← hc]
    split
    · exact b8.resetWork_finishJob _
    · exact .refl b8
  have hreset : (b7.engine e).AtReset := by
    rw [show b7.engine e = _ from b6.modEng_engine e _]
    exact Eng.scrub_atReset _ x
  have hleft : b.ResetWork b6 := ((((h1.trans h2).trans h3).trans h4).trans h5).trans h6
  have hrest : b7.ResetWork c := h8.trans hend
  exact ⟨(hleft.trans h7).trans hrest, hrest.keep e hreset⟩

/-- The engine is reset, and its save and its queued tiles go (R419, R421). -/
def Blk.resetWhole (b : Blk) (e : Nat) : Blk := (b.resetEngine x e Code.engReset).modEng e fun v => { v with save := none, deque := [] }
theorem Blk.resetWhole_spec : b.ResetWork (b.resetWhole x e) ∧ ((b.resetWhole x e).engine e).AtReset := by
  obtain ⟨hwork, hreset⟩ := b.resetEngine_spec x e Code.engReset
  have hclear := (b.resetEngine x e Code.engReset).resetWork_modEng e (f := fun v => { v with save := none, deque := [] }) fun _ h => h
  exact ⟨hwork.trans hclear, hclear.keep e hreset⟩
/-- Engines that are reset one after the other are all reset in the end. -/
theorem Blk.resetAll_spec (es : List Nat) : b.ResetWork (es.foldl (Blk.resetWhole x) b)
    ∧ ∀ e ∈ es, ((es.foldl (Blk.resetWhole x) b).engine e).AtReset := by
  induction es generalizing b with
  | nil => exact ⟨.refl b, nofun⟩
  | cons e es ih =>
    obtain ⟨hone, hreset⟩ := b.resetWhole_spec x e
    obtain ⟨hrest, hall⟩ := ih (b.resetWhole x e)
    refine ⟨hone.trans hrest, fun i hi => ?_⟩
    rcases List.mem_cons.1 hi with rfl | hi
    · exact hrest.keep i hreset
    · exact hall i hi

end

end Sys2Proof.Machine

/-! # Rungs carried out

FLT_RECOVER goes to the warden core; a rung that it has ordered is carried out. -/

namespace Sys2Proof.Machine

/-! ### The error unit (R404, R417, R422) -/

/-- The error unit alone changes, and not the rungs that are carried out. -/
structure Blk.Noted (b c : Blk) : Prop where
  eq     : c = { b with flt := c.flt }
  active : c.flt.active = b.flt.active

section
variable {b c d : Blk}

theorem Blk.Noted.trans (h : b.Noted c) (k : c.Noted d) : b.Noted d := by
  obtain ⟨hc, hactive⟩ := h
  obtain ⟨hd, kactive⟩ := k
  refine ⟨?_, kactive.trans hactive⟩
  rw [hc] at hd
  exact hd
theorem Blk.Noted.rungWork (h : b.Noted c) : b.RungWork c := by
  unfold Blk.RungWork Blk.EngineWork
  rw [show c = _ from h.eq]
theorem Blk.Noted.engine (h : b.Noted c) (e : Nat) : c.engine e = b.engine e := by
  rw [h.eq]
  rfl
theorem Blk.rungLog_noted (b : Blk) (x : Env) (kind code : W8) (unit : BitVec 12) (part : BitVec 4) (js : List Job) :
    b.Noted (b.rungLog x kind code unit part js) := by
  obtain ⟨hlog, hflt⟩ : b.Logged (b.rungLog x kind code unit part js) := b.log_logged x _
  exact ⟨hlog, by rw [hflt]⟩
theorem Blk.callRung_noted (b : Blk) (step target : Nat) (cause : W8) : b.Noted (b.callRung step target cause) := by
  unfold Blk.callRung
  dsimp only
  split <;> exact ⟨rfl, rfl⟩
theorem Blk.noteRung_noted (b : Blk) (x : Env) (r : RungReq) : b.Noted (b.noteRung x r) := by
  unfold Blk.noteRung
  extract_lets recent target h flt c count
  have hc : b.Noted c := ⟨rfl, rfl⟩
  split
  · exact hc.trans (c.callRung_noted _ _ _)
  split
  · exact hc.trans (c.callRung_noted _ _ _)
  · exact hc
theorem Blk.beginRung_spec (b : Blk) (r : RungReq) : b.RungWork (b.beginRung r) ∧ r ∈ (b.beginRung r).flt.active :=
  ⟨rfl, List.mem_append_right _ (List.mem_singleton.2 rfl)⟩

end

/-! ### Engine and partition reset (R418, R419) -/

section
variable (b : Blk) (x : Env) (r : RungReq)

theorem Blk.engineReset_spec : b.RungWork (b.engineReset x r) ∧ ((b.engineReset x r).engine r.target).AtReset
    ∧ r ∈ (b.engineReset x r).flt.active := by
  unfold Blk.engineReset
  extract_lets js c
  obtain ⟨hbegin, hactive⟩ := b.beginRung_spec r
  obtain ⟨⟨hwork, hflt, -⟩, hreset⟩ := (b.beginRung r).resetEngine_spec x r.target (rungCode r.cause)
  have hnoted := (c.rungLog_noted x 9 r.cause (BitVec.ofNat 12 r.target) (c.partField r.target) js).trans (Blk.noteRung_noted _ x r)
  refine ⟨(hbegin.trans hwork).trans hnoted.rungWork, ?_, ?_⟩
  · rw [hnoted.engine]
    exact hreset
  · rw [hnoted.active, hflt]
    exact hactive
theorem Blk.partitionReset_spec {p : WvPart} (hp : b.wv.cur.part r.target = some p) : b.RungWork (b.partitionReset x r)
    ∧ (∀ e ∈ engsOf p.mask, ((b.partitionReset x r).engine e).AtReset) ∧ r ∈ (b.partitionReset x r).flt.active := by
  unfold Blk.partitionReset
  rw [hp]
  split
  next hnone => cases hnone
  next y hy =>
  cases hy
  extract_lets es js b1 ss runs b2 b3 b4 b5
  obtain ⟨h1, hactive⟩ := b.beginRung_spec r
  have h2 : b1.ResetWork b2 := .foldl (fun c s => c.resetWork_resetStand s.q s.n) ss b1
  have h3 : b2.ResetWork b3 := .foldl (fun c j => c.resetWork_endJob j _ .retire) _ b2
  obtain ⟨h4, hall⟩ := b3.resetAll_spec x es
  have h5 : b4.ResetWork b5 := .foldl (fun c j => c.resetWork_finishJob j) _ b4
  have hwork : b1.ResetWork b5 := ((h2.trans h3).trans h4).trans h5
  have hnoted := (b5.rungLog_noted x 0x0A r.cause 0xFFF (BitVec.ofNat 4 r.target) js).trans (Blk.noteRung_noted _ x r)
  refine ⟨(Blk.RungWork.trans h1 hwork.work).trans hnoted.rungWork, fun e he => ?_, ?_⟩
  · rw [hnoted.engine]
    exact h5.keep e (hall e he)
  · rw [hnoted.active, hwork.flt]
    exact hactive

/-! ### The power cycle (R421) -/

theorem Blk.powerOff_spec : b.RungWork (b.powerOff x r) ∧ (b.powerOff x r).flt.pcycReq = true := by
  unfold Blk.powerOff
  extract_lets b1 flt b2 js b3 b4 b5 b6
  have h2 : b.RungWork b2 := by
    obtain ⟨hbegin, -⟩ := b.beginRung_spec r
    have hlog : (b.beginRung r).RungWork b1 := (Blk.rungLog_noted _ x 0x0C r.cause 0xFFF 0 []).rungWork
    exact (hbegin.trans hlog).trans rfl
  have h3 : b2.ResetWork b3 := .foldl (fun c j => c.resetWork_endJob j _ .retire) js b2
  have h4 : b3.ResetWork b4 := .foldl (fun c e => .ite (c.resetWhole_spec x e).1 (.refl c)) _ b3
  have h5 : b4.ResetWork b5 := .foldl (fun c j => c.resetWork_finishJob j) js b4
  have h6 : b5.EngineWork b6 := List.foldlRecOn _ _ (motive := b5.EngineWork) rfl fun c hc f _ => hc.trans (c.closeEntry_leaves f.q f.n _).1
  have hlast : ∀ l : List (Nat × Nat), b6.ResetWork (l.foldl (fun b y => b.unbindSoon y.1 y.2) b6) :=
    fun l => .foldl (fun c y => c.resetWork_unbindSoon y.1 y.2) l b6
  have hjobs := (h3.trans h4).trans h5
  refine ⟨((h2.trans hjobs.work).trans h6.rungWork).trans (hlast _).work, ?_⟩
  rw [(hlast _).flt, h6.flt, hjobs.flt]

end

/-! ### The block reset (R420, 13 R343) -/

/-- Every entry of a mapped table is the default or an image. -/
theorem SMap.get_mapAll {α : Type} [DecidableEq α] (d : α) (f : Nat → α → α) (m : SMap α) (k : Nat) :
    SMap.get d (SMap.mapAll d f m) k = d ∨ ∃ v, SMap.get d (SMap.mapAll d f m) k = f k v := by
  induction m with
  | nil => exact .inl rfl
  | cons y m ih =>
    rw [show SMap.mapAll d f (y :: m) = SMap.set d (SMap.mapAll d f m) y.1 (f y.1 y.2) from rfl]
    by_cases hk : k = y.1
    · subst hk
      exact .inr ⟨y.2, SMap.get_set_self _ _ _ _⟩
    · rw [SMap.get_set_ne _ _ _ hk]
      exact ih

section
variable (b : Blk) (x : Env) (cause : W8)

theorem Blk.switchSlots_eq : b.switchSlots = { b with mem := b.switchSlots.mem } :=
  List.foldlRecOn (range 4) _ (motive := fun c : Blk => c = { b with mem := c.mem }) rfl fun c hc p _ => by
    rw [hc]
    rfl
/-- A warm reset frees every queue and the scoreboard, and the weave in force stands. -/
theorem Blk.warmReset_spec : let c := b.warmReset x cause
    (c.start.sysLow = true ∧ c.start.kind = 2 ∧ c.start.cause = cause) ∧ (∀ q, (c.que q).st = .free) ∧ c.sb = []
      ∧ c.wv.cur = b.wv.cur := by
  intro c
  have hcur : c.wv.cur = b.wv.cur := (Blk.inForce_eq_iff.1 (b.warmReset_inForce x cause)).2
  obtain ⟨d, hd, hstart, hqs, hsb⟩ : ∃ d : Blk, c = d.switchSlots
      ∧ (d.start.sysLow = true ∧ d.start.kind = 2 ∧ d.start.cause = cause)
      ∧ d.qs = SMap.mapAll {} (fun _ u => u.warm) (b.settleHomes x).qs ∧ d.sb = [] := ⟨_, rfl, ⟨rfl, rfl, rfl⟩, rfl, rfl⟩
  rw [d.switchSlots_eq] at hd
  refine ⟨by rw [hd]; exact hstart, fun q => ?_, by rw [hd]; exact hsb, hcur⟩
  have hque : c.que q = SMap.get {} (SMap.mapAll {} (fun _ u => u.warm) (b.settleHomes x).qs) q := by
    rw [hd, ← hqs]
    rfl
  obtain h | ⟨u, h⟩ := SMap.get_mapAll {} (fun _ (u : Que) => u.warm) (b.settleHomes x).qs q
  · rw [hque, h]
  · rw [hque, h]
    rfl
/-- A block reset of a started block acts as SYS_RESET_N. -/
theorem Blk.sysReset_started (hfailed : b.start.failed = false) (hporeset : b.start.poresetLow = false)
    (hsys : b.start.sysLow = false) (hdone : b.start.done = true) : b.sysReset x cause = b.warmReset x cause := by
  have hdead : b.dead = false := by simp [Blk.dead, hfailed, hporeset]
  simp [Blk.sysReset, hdead, hsys, hdone]

end

/-! ### The warden core carries out what it has ordered -/

section
variable {b : Blk} {r : RungReq}

theorem Blk.wardenRung_ordered (x : Env) (h : b.orderedRung r = some r) (hmay : b.rungMayStart r = true) :
    b.wardenRung x r = b.carryOut x r := by
  simp [Blk.wardenRung, h, hmay]
theorem Blk.rungMayStart_running (hrun : b.running = true) (hstep : r.step ≠ 2) : b.rungMayStart r = true := by
  simp [Blk.rungMayStart, hrun, hstep]
/-- No partition is reset during a pour (R424). -/
theorem Blk.rungMayStart_partition (hrun : b.running = true) (hcheck : b.wv.st ≠ .checking) (hwait : b.wv.st ≠ .waiting)
    (hpour : b.wv.st ≠ .pouring) : b.rungMayStart r = true := by
  simp [Blk.rungMayStart, hrun, hcheck, hwait, hpour]
theorem Blk.running_done (h : b.running = true) : b.start.done = true := by
  simp only [Blk.running, Blk.up, Bool.and_eq_true] at h
  obtain ⟨⟨⟨⟨hdone, -⟩, -⟩, -⟩, -⟩ := h
  exact hdone

end

/-! ### FLT_RECOVER (12 R318, R304) -/

section
variable {s : State} {a : Acc}

/-- A whole write of the steward waits for the warden core. -/
theorem State.rungRow_sent (hb : s.blk.Serves a) (hs : s.Steward a) (r : Rung) : s.rungRow (.host a) r
    = .next { s with blk := s.blk.freshResp.toWarden { acc := a, addr := 0x7008, wdata := some (recoverWord (rungReq r 0)) } } := by
  have ⟨_, _, _, hwhole⟩ := hb
  have hjudge : judgeSteward s.env a = none := hs
  simp only [State.rungRow, State.access_served hb, hjudge, hwhole, if_true]
/-- A partial one orders nothing. -/
theorem State.rungRow_partial (hready : s.blk.hrpReady a.seat.val = true) (hunfin : (s.blk.seat a.seat.val).unfin = none)
    (hdone : s.blk.start.done = true) (hs : s.Steward a) (hbe : a.be ≠ 15) (r : Rung) :
    s.rungRow (.host a) r = .next { s with blk := s.blk.freshResp.writeLost a 0x7008 3 } := by
  have hjudge : judgeSteward s.env a = none := hs
  simp only [State.rungRow, State.access_taken hready hunfin hdone, hjudge, hbe, if_false]
  rfl

end

/-- Settles O48: `Blk.engineReset_spec`, `Blk.partitionReset_spec`, `Blk.warmReset_spec` and `Blk.powerOff_spec` say what each rung
does; the rung that is ordered is the one carried out, before anything starts. -/
theorem rungsCarriedOut : Obligations.RungsCarriedOut := by
  intro s b sent lost
  have hsent : ∀ i r a, exec i s = s.rungRow (.host a) r → sent i r a := fun i r a hrow hb hs =>
    ⟨_, hrow.trans (State.rungRow_sent hb hs r), rfl, rfl, rfl, fun t ht => b.setSeat_seat_ne _ ht⟩
  have hlost : ∀ i r a, exec i s = s.rungRow (.host a) r → lost i a := fun i r a hrow hready hunfin hdone hs hbe =>
    ⟨_, hrow.trans (State.rungRow_partial hready hunfin hdone hs hbe r), (b.writeLost_spec a _ 3).1, rfl, rfl⟩
  have hcarried : ∀ i r k, exec i s = s.rungRow (.warden k) r → b.orderedRung (rungReq r k) = some (rungReq r k) →
      b.rungMayStart (rungReq r k) = true →
      exec i s = .next { s with blk := (b.carryOut s.env (rungReq r k)).pump s.env } := fun i r k hrow hord hmay => by
    rw [hrow, ← Blk.wardenRung_ordered s.env hord hmay]
    rfl
  refine ⟨fun a e p => ⟨hlost _ (.engine e) a rfl, hlost _ (.partition p) a rfl, hlost _ .block a rfl, hlost _ .power a rfl⟩,
    fun a e p => ⟨hsent _ _ a rfl, hsent _ _ a rfl, hsent _ _ a rfl, hsent _ _ a rfl⟩,
    fun e k hrun hord => ?_, fun p k w hrun hcheck hwait hpour hp hord => ?_,
    fun k hrun hfailed hporeset hsys hord => ?_, fun k hrun hord => ?_⟩
  · obtain ⟨hwork, ⟨hst, hjob, -⟩, hactive⟩ := b.engineReset_spec s.env (rungReq (.engine e) k)
    exact ⟨_, hcarried _ _ k rfl hord (Blk.rungMayStart_running hrun (by simp [rungReq])), hst, hjob, hactive, hwork⟩
  · obtain ⟨hwork, hall, hactive⟩ := b.partitionReset_spec s.env (rungReq (.partition p) k) hp
    exact ⟨_, hcarried _ _ k rfl hord (Blk.rungMayStart_partition hrun hcheck hwait hpour), fun t ht => (hall t ht).st, hactive, hwork⟩
  · let r := rungReq .block k
    let d := (b.beginRung r).noteRung s.env r
    have hd : d.start = b.start ∧ d.wv = b.wv := by
      rw [show d = _ from ((b.beginRung r).noteRung_noted s.env r).eq]
      exact ⟨rfl, rfl⟩
    obtain ⟨hstart, hwv⟩ := hd
    have hreset : b.carryOut s.env r = d.warmReset s.env k :=
      d.sysReset_started s.env k (by rw [hstart, hfailed]) (by rw [hstart, hporeset]) (by rw [hstart, hsys])
        (by rw [hstart, Blk.running_done hrun])
    obtain ⟨⟨hlow, hkind, hcause⟩, hfree, hsb, hcur⟩ := d.warmReset_spec s.env k
    have hexec := hcarried (.blockReset (.warden k)) .block k rfl hord (Blk.rungMayStart_running hrun (by simp [rungReq]))
    have hstopped : (d.warmReset s.env k).running = false := by simp [Blk.running, Blk.up, hlow]
    rw [show b.carryOut s.env (rungReq .block k) = _ from hreset, Blk.pump_stopped _ s.env hstopped] at hexec
    exact ⟨_, hexec, hlow, hkind, hcause, hfree, hsb, hcur.trans (congrArg WeaveUnit.cur hwv)⟩
  · obtain ⟨hwork, hreq⟩ := b.powerOff_spec s.env (rungReq .power k)
    exact ⟨_, hcarried _ _ k rfl hord (Blk.rungMayStart_running hrun (by simp [rungReq])), hreq, hwork⟩

end Sys2Proof.Machine

/-! # The budget

The governor's figures change, and the levels go down to what the adopted budget allows or to their targets. -/

namespace Sys2Proof.Machine

/-! ### Order -/

theorem insertKey_ne_nil {α : Type} (key : α → Nat × Nat × Nat) (v : α) (l : List α) : insertKey key v l ≠ [] := by
  cases l with
  | nil => exact List.cons_ne_nil v []
  | cons a l =>
    unfold insertKey
    split <;> exact List.cons_ne_nil _ _
/-- Ordering loses no list: only the empty one is ordered to nothing. -/
theorem orderBy_eq_nil {α : Type} {key : α → Nat × Nat × Nat} {l : List α} (h : orderBy key l = []) : l = [] := by
  obtain hl | ⟨front, v, hl⟩ := List.eq_nil_or_concat l
  · exact hl
  · rw [hl, orderBy, List.concat_eq_append, List.foldl_concat] at h
    exact absurd h (insertKey_ne_nil key v _)

section
variable {b c d : Blk}

/-! ### UNDER (15 R391) -/

/-- UNDER shows whether the budget in force lies below the floor F. -/
def Blk.underShown (b : Blk) : Blk :=
  let u := decide (64000 * b.pwr.budget < b.floorUnits)
  { b with pwr := { b.pwr with under := u, evUnder := b.pwr.evUnder || (u && !b.pwr.under) } }

/-- The rise of UNDER is logged, and reaches nothing more. -/
theorem Blk.noteUnder_logged (b : Blk) (x : Env) : b.underShown.Logged (b.noteUnder x) := by
  unfold Blk.noteUnder
  extract_lets u rise p c
  split
  · exact c.log_logged x _
  · exact ⟨rfl, rfl⟩

/-- What the governor reaches when it takes up a budget: power, engines, the error log. -/
def Blk.Governed (b c : Blk) : Prop := c = { b with pwr := c.pwr, eng := c.eng, flt := c.flt } ∧ b.flt.LogOnly c.flt

/-- The power registers change to p, engines after them, and then UNDER is shown. -/
theorem Blk.noteUnder_governed {p : Power} (x : Env) (h : ({ b with pwr := p } : Blk).EngsOnly d) :
    (∃ ev, (d.noteUnder x).pwr = { p with under := decide (64000 * p.budget < b.floorUnits), evUnder := ev })
      ∧ (d.noteUnder x).eng = d.eng ∧ b.Governed (d.noteUnder x) := by
  obtain ⟨hc, hlog⟩ := d.noteUnder_logged x
  unfold Blk.EngsOnly at h
  generalize d.noteUnder x = c at *
  rw [h] at hc hlog
  refine ⟨⟨p.evUnder || (decide (64000 * p.budget < b.floorUnits) && !p.under), ?_⟩, ?_, ?_, hlog⟩
  · rw [hc]
    rfl
  · rw [hc]
    rfl
  · rw [hc]
    rfl

/-! ### Targets (15 R392) -/

/-- Between the two blocks only engines differ, and no level of an engine. -/
def Blk.LevelsStand (b c : Blk) : Prop := b.EngsOnly c ∧ ∀ j, (c.engine j).level = (b.engine j).level

theorem Blk.LevelsStand.refl (b : Blk) : b.LevelsStand b := ⟨rfl, fun _ => rfl⟩
theorem Blk.LevelsStand.trans (h : b.LevelsStand c) (k : c.LevelsStand d) : b.LevelsStand d := by
  obtain ⟨hc, hlevel⟩ := h
  obtain ⟨hd, klevel⟩ := k
  exact ⟨hc.trans hd, fun j => (klevel j).trans (hlevel j)⟩
theorem Blk.setTarget_levelsStand (b : Blk) (e t : Nat) : b.LevelsStand (b.setTarget e t) := by
  unfold Blk.setTarget
  split
  · exact .refl b
  · refine ⟨b.engsOnly_modEng e _, fun j => ?_⟩
    by_cases hj : j = e
    · rw [hj, Blk.modEng_engine]
    · rw [b.modEng_engine_ne _ hj]
theorem Blk.setTargets_levelsStand (b : Blk) : b.LevelsStand b.setTargets := by
  unfold Blk.setTargets
  extract_lets budget n ts
  split
  · exact .refl b
  · exact List.foldlRecOn (range 64) _ (motive := b.LevelsStand) (.refl b) fun c hc e _ => hc.trans (c.setTarget_levelsStand e _)
/-- A block in SLEEP keeps its targets too. -/
theorem Blk.levelsStand_retarget (b : Blk) (asleep : Bool) : b.LevelsStand (if asleep then b else b.setTargets) := by
  split
  · exact .refl b
  · exact b.setTargets_levelsStand

/-! ### Levels fall to the cap (15 R394) -/

/-- The engine to lower is above its target. -/
theorem Blk.toLower_some {e : Nat} (h : b.toLower = some e) : e < 64 ∧ (b.engine e).target < (b.engine e).level := by
  obtain ⟨he, habove⟩ := List.mem_filter.1 (mem_orderBy (List.mem_of_mem_head? h))
  exact ⟨List.mem_range.1 he, of_decide_eq_true habove⟩
/-- With none to lower every level is within its target. -/
theorem Blk.toLower_none (h : b.toLower = none) (j : Nat) (hj : j < 64) : (b.engine j).level ≤ (b.engine j).target := by
  have hempty := orderBy_eq_nil (List.head?_eq_none_iff.1 h)
  have hnot := List.filter_eq_nil_iff.1 hempty j (List.mem_range.2 hj)
  simpa using hnot

/-- Between the two blocks only engines differ, and no level is higher. -/
def Blk.LevelsFall (b c : Blk) : Prop := b.EngsOnly c ∧ ∀ j, (c.engine j).level ≤ (b.engine j).level
/-- The worst-case power is within the cap, or every level is within its target. -/
def Blk.CapMet (b : Blk) : Prop :=
  b.worstUnits ≤ max (64000 * b.pwr.budget) b.floorUnits ∨ ∀ j, j < 64 → (b.engine j).level ≤ (b.engine j).target
/-- The levels of the 64 engines, taken together. -/
def Blk.levelSum (b : Blk) : Nat := ∑ j ∈ Finset.range 64, (b.engine j).level

theorem Blk.LevelsStand.levelsFall (h : b.LevelsStand c) : b.LevelsFall c := by
  obtain ⟨hc, hlevel⟩ := h
  exact ⟨hc, fun j => (hlevel j).le⟩
theorem Blk.LevelsFall.trans (h : b.LevelsFall c) (k : c.LevelsFall d) : b.LevelsFall d := by
  obtain ⟨hc, hlevel⟩ := h
  obtain ⟨hd, klevel⟩ := k
  exact ⟨hc.trans hd, fun j => (klevel j).trans (hlevel j)⟩
theorem Blk.setLevel_engine (b : Blk) (x : Env) (e k j : Nat) :
    ((b.setLevel x e k).engine j).level = if j = e then k else (b.engine j).level := by
  unfold Blk.setLevel
  split
  case isTrue h => rw [h, Blk.modEng_engine]
  case isFalse h => rw [b.modEng_engine_ne _ h]
theorem Blk.setLevel_levelsFall (x : Env) {e k : Nat} (h : k ≤ (b.engine e).level) : b.LevelsFall (b.setLevel x e k) := by
  refine ⟨b.engsOnly_modEng e _, fun j => ?_⟩
  rw [b.setLevel_engine]
  split
  case isTrue hj => exact hj ▸ h
  case isFalse => exact le_rfl
theorem Blk.setLevel_levelSum_lt (x : Env) {e k : Nat} (he : e < 64) (h : k < (b.engine e).level) :
    (b.setLevel x e k).levelSum < b.levelSum := by
  obtain ⟨-, hfall⟩ := Blk.setLevel_levelsFall x h.le
  refine Finset.sum_lt_sum (fun j _ => hfall j) ⟨e, Finset.mem_range.2 he, ?_⟩
  rwa [b.setLevel_engine, if_pos rfl]
theorem Blk.levelSum_le (h : ∀ j, j < 64 → (b.engine j).level ≤ 16) : b.levelSum ≤ 1024 :=
  Finset.sum_le_card_nsmul (Finset.range 64) _ 16 fun j hj => h j (Finset.mem_range.1 hj)

theorem Blk.lowerToCap_levelsFall (x : Env) (n : Nat) (b : Blk) : b.LevelsFall (b.lowerToCap x n) := by
  induction n generalizing b with
  | zero => exact (Blk.LevelsStand.refl b).levelsFall
  | succ n ih =>
    unfold Blk.lowerToCap
    split
    · exact (Blk.LevelsStand.refl b).levelsFall
    split
    · exact (Blk.setLevel_levelsFall x (Nat.sub_le _ 1)).trans (ih _)
    · exact (Blk.LevelsStand.refl b).levelsFall
/-- As many steps as there are level steps left are enough: each takes one. -/
theorem Blk.lowerToCap_capMet (x : Env) (n : Nat) (b : Blk) (h : b.levelSum ≤ n) : (b.lowerToCap x n).CapMet := by
  induction n generalizing b with
  | zero =>
    refine .inr fun j hj => ?_
    have hzero := Finset.sum_eq_zero_iff.1 (Nat.le_zero.1 h) j (Finset.mem_range.2 hj)
    exact hzero.le.trans (Nat.zero_le _)
  | succ n ih =>
    unfold Blk.lowerToCap
    split
    case isTrue hcap => exact .inl hcap
    case isFalse =>
      split
      next e he =>
        obtain ⟨hlt, habove⟩ := Blk.toLower_some he
        have hless := Blk.setLevel_levelSum_lt (b := b) x hlt (show (b.engine e).level - 1 < (b.engine e).level by omega)
        exact ih _ (by omega)
      next he => exact .inr (Blk.toLower_none he)

/-! ### The keep cycle and the window boundary (13 R348, 15 R391, R394) -/

theorem Blk.engine_congr (h : c.eng = d.eng) (j : Nat) : c.engine j = d.engine j := by
  rw [Blk.engine, h, Blk.engine]
theorem Blk.levels_congr (h : c.eng = d.eng) : c.levels = d.levels := by rw [Blk.levels, h, Blk.levels]
/-- Whether the cap is met depends on engines, the budget in force and the weave alone. -/
theorem Blk.CapMet.congr (h : d.CapMet) (heng : c.eng = d.eng) (hbudget : c.pwr.budget = d.pwr.budget) (hwv : c.wv = d.wv) :
    c.CapMet := by
  have hworst : c.worstUnits = d.worstUnits := by rw [Blk.worstUnits, Blk.worstUnits, Blk.levels_congr heng]
  have hfloor : c.floorUnits = d.floorUnits := by rw [Blk.floorUnits, Blk.floorUnits, Blk.tauts, Blk.tauts, hwv]
  unfold Blk.CapMet at *
  rw [hworst, hfloor, hbudget]
  simpa only [Blk.engine_congr heng] using h
theorem Blk.Governed.wv (h : b.Governed c) : c.wv = b.wv := by
  obtain ⟨hc, -⟩ := h
  rw [hc]

/-- The power registers after a keep cycle that samples w, but for UNDER. -/
def Blk.sampled (w : W8) (b : Blk) : Power :=
  let p := b.pwr
  { p with
    sample := budgetOf w, adopted := if budgetOf w = p.sample then budgetOf w else p.adopted
    actEst := BitVec.ofNat 10 (min 1023 (b.meanEst / 4000)), estCnt := 0, estSum := 0
    paced := if p.pacedIn || b.pacedNow then satInc p.paced else p.paced, pacedIn := false
    idleKeep := if b.sleepOk && !p.busyIn then p.idleKeep + 1 else 0, busyIn := false
    window := p.window + 1 }

/-- Up to UNDER a keep cycle changes the registers it samples; targets move and no level does. -/
theorem Blk.keepCycle_spec (b : Blk) (x : Env) (w : W8) : ∃ u ev,
    (b.keepCycle x w).pwr = { b.sampled w with under := u, evUnder := ev }
      ∧ (∀ j, ((b.keepCycle x w).engine j).level = (b.engine j).level) ∧ b.Governed (b.keepCycle x w) := by
  let b' : Blk := { b with pwr := b.sampled w }
  obtain ⟨d, hd, hengs, hlevel⟩ : ∃ d, b.keepCycle x w = d.noteUnder x ∧ b'.LevelsStand d :=
    ⟨if b.pwr.asleep then b' else b'.setTargets, rfl, b'.levelsStand_retarget _⟩
  obtain ⟨⟨ev, hpwr⟩, heng, hgov⟩ := Blk.noteUnder_governed x hengs
  rw [hd]
  refine ⟨_, ev, hpwr, fun j => ?_, hgov⟩
  rw [Blk.engine_congr heng]
  exact hlevel j

/-- The power registers once the adopted budget is in force, but for UNDER. -/
def Power.windowOver (p : Power) : Power := { p with budget := p.adopted, window := p.window - 1000 }

/-- A window boundary brings the adopted budget into force; levels fall, in an awake block until the cap is met. -/
theorem Blk.windowEnds_spec (b : Blk) (x : Env) : let c := b.windowEnds x
    (∃ ev, c.pwr = { b.pwr.windowOver with under := decide (64000 * b.pwr.adopted < b.floorUnits), evUnder := ev })
      ∧ (∀ j, (c.engine j).level ≤ (b.engine j).level)
      ∧ (b.pwr.asleep = false → (∀ j, j < 64 → (b.engine j).level ≤ 16) → c.CapMet) ∧ b.Governed c := by
  intro c
  let b' : Blk := { b with pwr := b.pwr.windowOver }
  obtain ⟨d, hd, ⟨hengs, hlevel⟩, hcap⟩ : ∃ d : Blk, c = d.noteUnder x ∧ b'.LevelsFall d
      ∧ (b.pwr.asleep = false → (∀ j, j < 64 → (b.engine j).level ≤ 16) → d.CapMet) := by
    have hset := b'.setTargets_levelsStand
    refine ⟨if b.pwr.asleep then b' else b'.setTargets.lowerToCap x 1024, rfl, ?_, fun hawake hle => ?_⟩
    · split
      · exact (Blk.LevelsStand.refl b').levelsFall
      · exact hset.levelsFall.trans (Blk.lowerToCap_levelsFall x 1024 _)
    · obtain ⟨-, hstand⟩ := hset
      rw [if_neg (by simp [hawake])]
      exact Blk.lowerToCap_capMet x 1024 _ (Blk.levelSum_le fun j hj => (hstand j).le.trans (hle j hj))
  obtain ⟨⟨ev, hpwr⟩, heng, hgov⟩ := Blk.noteUnder_governed x hengs
  rw [← hd] at hpwr heng hgov
  refine ⟨⟨ev, hpwr⟩, fun j => ?_, fun hawake hle => ?_, hgov⟩
  · rw [Blk.engine_congr heng]
    exact hlevel j
  · have hd : d.pwr.budget = b.pwr.adopted ∧ d.wv = b.wv := by
      rw [hengs]
      exact ⟨rfl, rfl⟩
    obtain ⟨hbudget, hwv⟩ := hd
    refine (hcap hawake hle).congr heng ?_ (hgov.wv.trans hwv.symm)
    rw [hpwr, hbudget]
    rfl

end

/-! ### The rows -/

section
variable {s : State}

theorem exec_keepCycle (h : s.blk.start.poresetLow = false) (w : W8) :
    exec (.keepCycle w) s = .next { s with blk := s.blk.keepCycle s.env w } := by
  rw [show exec (.keepCycle w) s = .next { s with
    blk := if s.blk.start.poresetLow then s.blk else s.blk.keepCycle s.env w } from rfl, if_neg (by simp [h])]
theorem exec_capWindowBoundary (h : s.blk.start.poresetLow = false) : exec .capWindowBoundary s
    = .next (if s.blk.pwr.window < 1000 then s else { s with blk := s.blk.windowEnds s.env }) := by
  rw [show exec .capWindowBoundary s = .next { s with
    blk := if s.blk.start.poresetLow || decide (s.blk.pwr.window < 1000) then s.blk else s.blk.windowEnds s.env } from rfl, h]
  by_cases hw : s.blk.pwr.window < 1000 <;> simp [hw]

end

/-- Settles O40: a keep cycle is `Blk.keepCycle_spec` and a window boundary `Blk.windowEnds_spec`, where 1,024 steps are enough to
lower 64 levels of at most 16. -/
theorem budgetFollows : Obligations.BudgetFollows := by
  intro s b hup
  refine ⟨fun w => ?_, fun hw => ?_, fun hw => ?_⟩
  · obtain ⟨u, ev, hpwr, hlevel, hframe, hlog⟩ := b.keepCycle_spec s.env w
    refine ⟨_, exec_keepCycle hup w, ?_, ?_, ?_, ?_, ?_, ?_, ?_, hlevel, hframe, hlog⟩ <;> rw [hpwr] <;> rfl
  · rw [exec_capWindowBoundary hup, if_pos hw]
  · obtain ⟨⟨ev, hpwr⟩, hlevel, hcap, hframe, hlog⟩ := b.windowEnds_spec s.env
    have hexec := exec_capWindowBoundary hup
    rw [if_neg (Nat.not_lt.2 hw)] at hexec
    have hbudget : (b.windowEnds s.env).pwr.budget = b.pwr.adopted := by
      rw [hpwr]
      rfl
    refine ⟨_, hexec, hbudget, ?_, ?_, hlevel, fun hawake hle => ?_, hframe, hlog⟩
    · rw [hpwr]
      rfl
    · rw [hpwr]
      rfl
    · have hmet := hcap hawake hle
      rwa [Blk.CapMet, hbudget] at hmet

end Sys2Proof.Machine

/-! # Starts

PORESET_N falls and rises, and the steps of a cold or warm start up to DONE. -/

namespace Sys2Proof.Machine

/-! ### A start begins (13 R344, 18 R453) -/

section
variable {b c : Blk}

/-- A request that has been raised is not raised again. -/
theorem Blk.raiseReqs_raiseReqs (b : Blk) : b.raiseReqs.raiseReqs = b.raiseReqs := by
  simp [Blk.raiseReqs]
/-- A cold start goes on to the array tests once its clocks run, and asks for them until then. -/
theorem Blk.startClocked_cold (hkind : b.start.kind = 1) :
    b.startClocked = b ∨ b.startClocked = b.raiseReqs ∨ b.startClocked = { b with start := { b.start with hrpUp := true } } := by
  unfold Blk.startClocked
  split
  · exact .inl rfl
  split
  · exact .inr (.inl rfl)
  extract_lets t c
  exact .inr (.inr (if_pos hkind))
/-- A cold start begins: the clock requests rise, and the host register port serves if both clocks run already. -/
theorem Blk.startBegins_cold (b : Blk) : ∃ up, b.startBegins 1 = { b.raiseReqs with
    start := { b.start with poresetLow := false, sysLow := false, kind := 1, began := true, edges := 0, hrpUp := up } } := by
  let d : Blk := { b with start := { b.start with poresetLow := false, sysLow := false, kind := 1, began := true, edges := 0 } }
  have hbegin : b.startBegins 1 = d.raiseReqs.startClocked := rfl
  rw [hbegin]
  obtain h | h | h := d.raiseReqs.startClocked_cold rfl
  · exact ⟨_, h⟩
  · exact ⟨_, h.trans d.raiseReqs_raiseReqs⟩
  · exact ⟨_, h⟩

theorem State.cold_begins {s : State} (hlow : s.blk.start.poresetLow = true) (hsys : s.blk.start.sysLow = false) (n : Nat)
    (k : BitVec 256) : s.cold n k = { s with
      env := { strap := { steward := n, keyHash := k } }
      blk := ({ s.blk with start := { s.blk.start with poresetLow := false } } : Blk).startBegins 1 } := by
  simp [State.cold, hlow, hsys]
theorem State.cold_waits {s : State} (hlow : s.blk.start.poresetLow = true) (hsys : s.blk.start.sysLow = true) (n : Nat)
    (k : BitVec 256) : s.cold n k = { s with
      env := { strap := { steward := n, keyHash := k } }
      blk := { s.blk with start := { s.blk.start with poresetLow := false, waits := true } } } := by
  simp [State.cold, hlow, hsys]

/-! ### The array tests (18 R453) -/

/-- What step i establishes and the other steps keep holds of every number at the end. -/
theorem foldl_range_each {α : Type} {P : Nat → α → Prop} {f : α → Nat → α} (hat : ∀ y i, P i (f y i))
    (hkeep : ∀ y i j, j ≠ i → P j y → P j (f y i)) (y : α) (n i : Nat) (hi : i < n) : P i ((range n).foldl f y) := by
  induction n with
  | zero => exact absurd hi (Nat.not_lt_zero i)
  | succ n ih =>
    rw [range, List.range_succ, List.foldl_concat]
    by_cases h : i = n
    · exact h ▸ hat _ i
    · exact hkeep _ n i h (ih (by omega))

section
variable (hbegan : b.start.began = true) (hkind : b.start.kind = 1) (hup : b.start.hrpUp = true) (harrays : b.start.arrays = false)
  (hfailed : b.start.failed = false)
include hbegan hkind hup harrays hfailed

theorem Blk.selfTest_fails (k : BitVec 4) : b.selfTest (some k)
    = { b with start := { b.start with failed := true, failCode := BitVec.ofNat 8 k.toNat, failStep := 4 } } := by
  simp [Blk.selfTest, hbegan, hkind, hup, harrays, hfailed]
/-- The tests pass: the patch phase begins, and every link trains. -/
theorem Blk.selfTest_passes : let c := b.selfTest none
    c.start = { b.start with arrays := true } ∧ c.patch = { b.patch with ready := true }
      ∧ (∀ p : Nat, p < 4 → c.port p = { link := .training })
      ∧ c = { b with start := c.start, patch := c.patch, mem := { b.mem with ports := c.mem.ports } } := by
  intro c
  let d : Blk := { b with start := { b.start with arrays := true }, patch := { b.patch with ready := true } }
  have hc : c = (range 4).foldl (fun b p => b.setPort p { link := .training }) d :=
    if_neg (by simp [hbegan, hkind, hup, harrays, hfailed])
  have hframe : c = { d with mem := { d.mem with ports := c.mem.ports } } := by
    rw [hc]
    refine List.foldlRecOn (range 4) _ (motive := fun c : Blk => c = { d with mem := { d.mem with ports := c.mem.ports } }) rfl
      fun c hc p _ => ?_
    rw [hc]
    rfl
  refine ⟨?_, ?_, ?_, ?_⟩
  · rw [hframe]
  · rw [hframe]
  · rw [hc]
    exact foldl_range_each (P := fun p c => Blk.port c p = { link := .training }) (fun c p => c.setPort_port p _)
      (fun c p j hj hport => (c.setPort_port_ne _ hj).trans hport) d 4
  · rw [hframe]

end

/-! ### The warden core runs (18 R455) -/

/-- It logs its restart and the reset, after a warm start. -/
theorem Blk.wardenUp_spec (x : Env) (hbegan : b.start.began = true) (hup : b.start.hrpUp = true) (hfailed : b.start.failed = false)
    (hboot : b.flt.warden = .booting) :
    ({ b with flt := { b.flt with warden := .running }, start := { b.start with warden := true } } : Blk).Logged (b.wardenUp x) := by
  unfold Blk.wardenUp
  rw [if_neg (by simp [hbegan, hup, hfailed, hboot])]
  extract_lets f t c
  split
  · exact ⟨rfl, rfl⟩
  · exact (c.log_logged x _).trans (Blk.log_logged x _ _)

/-! ### DONE (18 R455, R461) -/

theorem Blk.traceEvent_eq (b : Blk) (x : Env) (kind : W8) (body : List W32) :
    b.traceEvent x kind body = { b with trc := { b.trc with caddy := (b.traceEvent x kind body).trc.caddy } } := by
  unfold Blk.traceEvent
  split <;> rfl
theorem Blk.belayBegins_belaid (b : Blk) (x : Env) (causes : BitVec 5) : b.Belaid (b.belayBegins x causes) := by
  unfold Blk.belayBegins
  extract_lets d c e
  have he : b.Belaid e := by
    simp only [e]
    split <;> rfl
  unfold Blk.Belaid at *
  rw [e.traceEvent_eq, he]
/-- A cause that was held begins a belay. -/
theorem Blk.belayHeld_belaid (b : Blk) (x : Env) : b.Belaid (b.belayHeld x) := by
  unfold Blk.belayHeld
  extract_lets causes
  split
  · rfl
  · exact Blk.belayBegins_belaid _ x causes

/-- A sequencer that was loading serves. -/
def Blk.seqServes (b : Blk) (i : Nat) : Blk := if (b.seq i).st = .loading then b.setSeq i { b.seq i with st := .idle } else b

theorem Blk.seqServes_eq (b : Blk) (i : Nat) : b.seqServes i = { b with sq := (b.seqServes i).sq } := by
  unfold Blk.seqServes
  split <;> rfl
theorem Blk.seqServes_seq (b : Blk) (i : Nat) : ((b.seqServes i).seq i).st ≠ .loading := by
  unfold Blk.seqServes
  split
  · rw [Blk.setSeq_seq]
    exact nofun
  · assumption
theorem Blk.seqServes_seq_ne {i j : Nat} (h : j ≠ i) : (b.seqServes i).seq j = b.seq j := by
  unfold Blk.seqServes
  split
  · exact b.setSeq_seq_ne _ h
  · rfl

/-- DONE and the start's time are shown, the patch port closes, and the block reset is no longer in progress. -/
def Blk.doneShown (b : Blk) : Blk :=
  { b with
    start := { b.start with done := true, us := BitVec.ofNat 32 (b.start.edges * 20 / 1000) }, patch := { b.patch with ready := false }
    flt := { b.flt with active := b.flt.active.filter fun r => r.step != 3 } }
/-- And the sequencers serve. -/
def Blk.seqsServing (b : Blk) : Blk := (range 4).foldl Blk.seqServes b.doneShown

theorem Blk.startOver_eq (b : Blk) (x : Env) : b.startOver x = b.seqsServing.setTargets.belayHeld x := rfl
theorem Blk.seqsServing_eq (b : Blk) : b.seqsServing = { b.doneShown with sq := b.seqsServing.sq } :=
  List.foldlRecOn (range 4) _ (motive := fun c : Blk => c = { b.doneShown with sq := c.sq }) rfl fun c hc i _ => by
    rw [c.seqServes_eq i, hc]
theorem Blk.seqsServing_seq (b : Blk) (i : Nat) (hi : i < 4) : (b.seqsServing.seq i).st ≠ .loading :=
  foldl_range_each (P := fun i c => (Blk.seq c i).st ≠ .loading) (fun c i => c.seqServes_seq i)
    (fun c i j hj h => by rwa [c.seqServes_seq_ne hj]) b.doneShown 4 i hi

/-- The end of a start, after which a belay that was held begins. -/
theorem Blk.startOver_spec (b : Blk) (x : Env) : let c := b.startOver x
    c.start.done = true ∧ c.start.us = BitVec.ofNat 32 (b.start.edges * 20 / 1000) ∧ c.patch = { b.patch with ready := false }
      ∧ (∀ i, i < 4 → (c.seq i).st ≠ .loading)
      ∧ ({ b with start := c.start, patch := c.patch, sq := c.sq, eng := c.eng, flt := { b.flt with active := c.flt.active } } : Blk).Belaid c := by
  obtain ⟨htargets, -⟩ := b.seqsServing.setTargets_levelsStand
  have hheld := b.seqsServing.setTargets.belayHeld_belaid x
  have hserve := b.seqsServing_seq
  have heq := b.seqsServing_eq
  rw [b.startOver_eq]
  unfold Blk.EngsOnly at htargets
  unfold Blk.Belaid at *
  generalize b.seqsServing.setTargets.belayHeld x = c at *
  generalize b.seqsServing.setTargets = d at *
  generalize b.seqsServing = f at *
  rw [htargets, heq] at hheld
  refine ⟨?_, ?_, ?_, fun i hi => ?_, ?_⟩
  · rw [hheld]
    rfl
  · rw [hheld]
    rfl
  · rw [hheld]
    rfl
  · rw [hheld]
    exact hserve i hi
  · rw [hheld]
    rfl

end

/-! ### The rows -/

section
variable {s : State}

theorem exec_coldStart (n : Seat) (k : BitVec 256) : exec (.coldStart n k) s = .next (s.cold n.val k) := rfl
theorem exec_selfTestComplete (fail : Option (BitVec 4)) :
    exec (.selfTestComplete fail) s = .next { s with blk := s.blk.selfTest fail } := rfl
theorem exec_wardenBooted : exec .wardenBooted s = .next { s with blk := s.blk.wardenUp s.env } := rfl
theorem exec_startDone (h : s.blk.stepsDone = true) : exec .startDone s = .next { s with blk := s.blk.startOver s.env } := by
  rw [show exec .startDone s = .next { s with blk := if s.blk.stepsDone then s.blk.startOver s.env else s.blk } from rfl, if_pos h]

end

/-- Settles O44: PORESET_N's fall is `State.poreset`; each step of a start is the operation of its section above. -/
theorem startsRun : Obligations.StartsRun := by
  refine ⟨fun s => ⟨rfl, fun n k hlow hsys => ?_⟩, fun s n k => ?_, fun s => ⟨?_, ?_, fun hdone => ?_⟩⟩
  · obtain ⟨up, hup⟩ := Blk.startBegins_cold { s.blk with start := { s.blk.start with poresetLow := false } }
    have hexec := (exec_coldStart n k).trans (congrArg Host.Outcome.next (State.cold_begins hlow hsys n.val k))
    rw [hup] at hexec
    refine ⟨_, hexec, rfl, rfl, ?_, rfl, rfl, rfl⟩
    simp [hsys]
  · intro b hlow hsys
    rw [exec_coldStart, State.cold_waits hlow hsys]
  · intro hbegan hkind hup harrays hfailed
    refine ⟨fun k => ?_, _, exec_selfTestComplete none, Blk.selfTest_passes hbegan hkind hup harrays hfailed⟩
    rw [exec_selfTestComplete, Blk.selfTest_fails hbegan hkind hup harrays hfailed]
  · intro hbegan hup hfailed hboot
    obtain ⟨hframe, hlog⟩ := Blk.wardenUp_spec s.env hbegan hup hfailed hboot
    refine ⟨_, exec_wardenBooted, ?_, ?_, ?_, hlog⟩
    · rw [hlog]
    · rw [hframe]
    · rw [hframe]
  · exact ⟨_, exec_startDone hdone, s.blk.startOver_spec s.env⟩

end Sys2Proof.Machine

/-! # A strand runs

The yarn at SPTR does its ALU operation and the strand chooses the next one: what stays, and what the sequencer holds then. -/

namespace Sys2Proof.Machine

/-! ### One sequencer changes -/

section
variable {b c d : Blk} {i : SeqId}

theorem Blk.SeqOnly.trans (h : b.SeqOnly i c) (k : c.SeqOnly i d) : b.SeqOnly i d := by
  obtain ⟨hc, hcj⟩ := h
  obtain ⟨hd, hdj⟩ := k
  refine ⟨?_, fun j hj => (hdj j hj).trans (hcj j hj)⟩
  rw [hc] at hd
  exact hd
theorem Blk.OneSeq.seqOnly (h : b.OneSeq i c) : b.SeqOnly i c := by
  obtain ⟨hc, hj⟩ := h
  refine ⟨?_, hj⟩
  rw [hc]
theorem Blk.seqOnly_setSeq (b : Blk) (i : SeqId) (v : Seq) : b.SeqOnly i (b.setSeq i v) := (b.oneSeq_setSeq i v).seqOnly
theorem Blk.seqOnly_bump (b : Blk) (i : SeqId) (key n : Nat) : b.SeqOnly i (b.bump key n) := ⟨rfl, fun _ _ => rfl⟩

end

/-! ### The ALU (14 R367) -/

/-- Between the two only what the ALU writes differs: working registers, record buffer, LC and flags. -/
def Seq.Computes (v w : Seq) : Prop := w = { v with w := w.w, recBuf := w.recBuf, lc := w.lc, z := w.z, c := w.c }

section
variable {b : Blk} {i : SeqId} {f : YarnF} {u v w : Seq}

theorem Seq.Computes.trans (h : u.Computes v) (k : v.Computes w) : u.Computes w := by
  unfold Seq.Computes at *
  rw [h] at k
  exact k
theorem Seq.Computes.ite {p : Prop} [Decidable p] (h : u.Computes v) (k : u.Computes w) : u.Computes (if p then v else w) := by
  split <;> assumption

/-- The ALU changes its sequencer alone, and draws free values at most; its result is in the destination register, and LC stays
where the yarn does not load it. -/
theorem Blk.yarnAlu_spec (i : SeqId) (f : YarnF) (v : Seq) (b : Blk) : let c := b.yarnAlu i f v
    b.SeqOnly i c ∧ (b.seq i).Computes (c.seq i) ∧ (∀ y, (aluOp f v).1 = some y → (c.seq i).wreg f.dst = y)
      ∧ (f.lcld = false → (c.seq i).lc = (b.seq i).lc) := by
  unfold Blk.yarnAlu
  extract_lets r fr c0 u0 u1 u2 u3 u4 c
  obtain ⟨honly, hseq⟩ : b.SeqOnly i c0 ∧ u0 = b.seq i := by
    simp only [u0, c0, fr]
    split
    · exact ⟨⟨rfl, fun _ _ => rfl⟩, rfl⟩
    split
    · exact ⟨⟨rfl, fun _ _ => rfl⟩, rfl⟩
    · exact ⟨⟨rfl, fun _ _ => rfl⟩, rfl⟩
  have hc : c.seq i = u4 := c0.setSeq_seq i u4
  have h1 : u0.Computes u1 := .ite rfl rfl
  have h2 : u0.Computes u2 := .ite (h1.trans rfl) h1
  have h3 : u0.Computes u3 := .ite (h2.trans rfl) h2
  have h4 : u0.Computes u4 := .ite (h3.trans rfl) h3
  rw [hc, ← hseq]
  refine ⟨honly.trans (c0.seqOnly_setSeq i u4), h4, fun y hy => ?_, fun hl => ?_⟩
  · have hy : r.1 = some y := hy
    have hu1 : u1 = u0.setW f.dst y := by simp [u1, fr, hy]
    have hw : u4.w = u1.w := by
      simp only [u4, u3, u2]
      split <;> split <;> split <;> rfl
    rw [Seq.wreg, hw, hu1]
    exact SMap.get_set_self _ _ _ _
  · have hu3 : u3 = u2 := by simp [u3, hl]
    have hlc : u4.lc = u3.lc := by
      simp only [u4]
      split <;> rfl
    rw [hlc, hu3]
    simp only [u2, u1]
    split <;> split <;> rfl
/-- An ALU without an operation, that loads nothing, leaves its sequencer as it is. -/
theorem Blk.yarnAlu_rests (h : f.AluRests) (i : SeqId) (v : Seq) (b : Blk) : b.yarnAlu i f v = b.setSeq i (b.seq i) := by
  obtain ⟨halu, hload, hflags⟩ := h
  simp [Blk.yarnAlu, aluOp, halu, hload, hflags]

end

/-! ### The yarn at SPTR runs (14 R363, R366) -/

/-- The block once the yarn's requests and interface operations are done. -/
def Blk.yarnDone (x : Env) (i : SeqId) (f : YarnF) (b : Blk) : Blk :=
  ((b.bump (evBlk 0x19 i) 1).yarnMem i f).yarnSbi x i f
/-- The sequencer as the strand's last edge sees it, with those operations done on an edge before it or not yet. -/
def Blk.edgeSees (i : SeqId) (w : W32) (f : YarnF) (v : Seq) (b : Blk) : Seq :=
  if (if f.sbi = 3 then 3 else 1) ≤ Strand.clen w then b.seq i else { b.seq i with w := v.w, z := v.z, c := v.c }
/-- Command `kind` is the one that runs strand w. -/
def Strand.runsAs (w : W32) (kind : Nat) : Bool :=
  let tret := Strand.seq w = 1 && Strand.target w = 0xFFF
  if kind = 8 then tret else Strand.seq w = kind && !tret

theorem Strand.runsAs_seq {w : W32} {kind : Nat} (h : Strand.seq w = kind) (hjump : kind ≠ 1) (htret : kind ≠ 8) :
    Strand.runsAs w kind = true := by
  simp [Strand.runsAs, h, hjump, htret]
theorem Strand.runsAs_jump {w : W32} (h : Strand.seq w = 1) (ht : Strand.target w ≠ 0xFFF) : Strand.runsAs w 1 = true := by
  simp [Strand.runsAs, h, ht]
theorem Strand.runsAs_tret {w : W32} (h : Strand.seq w = 1) (ht : Strand.target w = 0xFFF) : Strand.runsAs w 8 = true := by
  simp [Strand.runsAs, h, ht]

section
variable {s : State} {b : Blk} {i : SeqId} {w : W32} {f : YarnF} {kind : Nat} {v : Seq}

theorem Blk.YarnAt.runStrand (h : b.YarnAt i w f) (hkind : Strand.runsAs w kind = true) (hfree : b.yarnHolds i f = false) (x : Env) :
    let c := b.yarnDone x i f; let v := c.edgeSees i w f (b.seq i)
    b.runStrand x i kind = (c.yarnAlu i f v).choosesNext x i w f.lcld v := by
  obtain ⟨hruns, hwait, -, hsptr, hstrand, hf, hgood, hyarn⟩ := h
  simp only [Strand.runsAs] at hkind
  simp only [Blk.runStrand, hruns, hstrand, hkind, hwait, ← hf, hfree, hgood, hyarn, hsptr]
  rfl

/-! ### A strand without a request (14 R364, R365) -/

/-- Of the sequencer alone something has changed since b, and its ALU operation is done. -/
def Blk.Ran (b : Blk) (i : SeqId) (f : YarnF) (c : Blk) : Prop := b.SeqOnly i c ∧ b.AluDone i f c
/-- The block once the yarn at SPTR is done, before the strand chooses the next. -/
def Blk.computed (i : SeqId) (f : YarnF) (b : Blk) : Blk := (b.bump (evBlk 0x19 i) 1).yarnAlu i f (b.seq i)

theorem Blk.StrandAt.runStrand (h : b.StrandAt i w f) (hkind : Strand.runsAs w kind = true) (x : Env) :
    b.runStrand x i kind = (b.computed i f).choosesNext x i w f.lcld (b.seq i) := by
  obtain ⟨hyarn, hmem, hsbi⟩ := h
  have hfree : b.yarnHolds i f = false := by simp [Blk.yarnHolds, hmem, hsbi]
  have hdone : b.yarnDone x i f = b.bump (evBlk 0x19 i) 1 := by simp [Blk.yarnDone, Blk.yarnMem, Blk.yarnSbi, hmem, hsbi]
  have hsees : (b.bump (evBlk 0x19 i) 1).edgeSees i w f (b.seq i) = b.seq i := ite_self _
  have hrun := hyarn.runStrand hkind hfree x
  dsimp only at hrun
  rw [hdone, hsees] at hrun
  exact hrun
theorem Blk.computed_spec (i : SeqId) (f : YarnF) (b : Blk) : let c := b.computed i f
    b.Ran i f c ∧ (b.seq i).Computes (c.seq i) ∧ (f.lcld = false → (c.seq i).lc = (b.seq i).lc) := by
  obtain ⟨honly, hcomputes, hdone, hlc⟩ := (b.bump (evBlk 0x19 i) 1).yarnAlu_spec i f (b.seq i)
  exact ⟨⟨(b.seqOnly_bump i _ _).trans honly, hdone⟩, hcomputes, hlc⟩

section
variable {c d : Blk}

theorem Blk.Ran.onward (h : b.Ran i f c) (k : c.OneSeq i d) (hw : (d.seq i).w = (c.seq i).w) : b.Ran i f d := by
  obtain ⟨honly, hdone⟩ := h
  refine ⟨honly.trans k.seqOnly, fun y hy => ?_⟩
  rw [Seq.wreg, hw]
  exact hdone y hy
theorem Blk.Ran.setSeq (h : b.Ran i f c) (hw : v.w = (c.seq i).w) : b.Ran i f (c.setSeq i v) :=
  h.onward (c.oneSeq_setSeq i v) (by rw [Blk.setSeq_seq, hw])

/-- A sequencer that leaves a trap or ends a single step (14 R371, R372). -/
def Seq.Leaves (v w : Seq) : Prop := w = { v with st := w.st, shadow := w.shadow, stepping := w.stepping, pend := w.pend }
theorem Seq.Leaves.ite {p : Prop} [Decidable p] {u w : Seq} (h : u.Leaves v) (k : u.Leaves w) : u.Leaves (if p then v else w) := by
  split <;> assumption
/-- The sequencer that goes to strand p; it leaves its trap or its single step where it has to. -/
theorem Blk.goTo_spec (i : SeqId) (p : BitVec 12) (jump : Bool) (b : Blk) : let c := b.goTo i p jump
    b.OneSeq i c ∧ ({ b.seq i with sptr := p, inWait := false } : Seq).Leaves (c.seq i) := by
  unfold Blk.goTo
  extract_lets v out v1 v2 v3
  have h2 : v1.Leaves v2 := .ite rfl rfl
  have h3 : v2.Leaves v3 := .ite rfl rfl
  refine ⟨b.oneSeq_setSeq _ _, ?_⟩
  rw [Blk.setSeq_seq]
  unfold Seq.Leaves at *
  rw [h2] at h3
  exact h3
/-- The next strand in line, with no single step to end. -/
theorem Blk.goTo_falls (h : (b.seq i).stepping = false) (p : BitVec 12) :
    b.goTo i p false = b.setSeq i { b.seq i with sptr := p, inWait := false } := by
  simp [Blk.goTo, h]
theorem Blk.Ran.goTo (h : b.Ran i f c) (p : BitVec 12) (jump : Bool) : b.Ran i f (c.goTo i p jump) := by
  obtain ⟨hone, hseq⟩ := c.goTo_spec i p jump
  exact h.onward hone (by rw [hseq])

/-- Testing a condition clears at most the error record. -/
theorem Blk.condTested_spec (i : SeqId) (n : Nat) (b : Blk) : let c := b.condTested i n
    b.OneSeq i c ∧ c.seq i = { b.seq i with errRec := (c.seq i).errRec } := by
  unfold Blk.condTested
  dsimp only
  split
  · refine ⟨b.oneSeq_setSeq _ _, ?_⟩
    rw [Blk.setSeq_seq]
  · exact ⟨⟨rfl, fun _ _ => rfl⟩, rfl⟩
theorem Blk.Ran.condTested (h : b.Ran i f c) (n : Nat) : b.Ran i f (c.condTested i n) := by
  obtain ⟨hone, hseq⟩ := c.condTested_spec i n
  exact h.onward hone (by rw [hseq])

/-- What the ALU does changes no condition that an edge before it sees. -/
theorem Blk.cond_computed (i : SeqId) (f : YarnF) (n : Nat) (b : Blk) : (b.computed i f).cond i (b.seq i) n = b.cond i (b.seq i) n := by
  obtain ⟨⟨⟨hframe, hothers⟩, -⟩, hcomputes, -⟩ := b.computed_spec i f
  generalize b.computed i f = c at *
  have hque : ∀ q, c.que q = b.que q := fun q => Blk.que_congr (by rw [hframe]) q
  have hlines : ∀ j, (c.seq j).lines = (b.seq j).lines := fun j => by
    by_cases hj : j = i.val
    · rw [hj, hcomputes]
    · rw [hothers j hj]
  have hservice : ∀ q, c.wantsService q = b.wantsService q := fun q => by
    refine Blk.wantsService_congr (by rw [hque]) ?_ ?_ ?_ ?_ ?_
    · simp only [Blk.heldLine, hlines]
    all_goals rw [hframe]
  have hsb : c.sbAvail = b.sbAvail := by
    rw [hframe]
    rfl
  have hwait : c.waitAvail = b.waitAvail := by
    rw [hframe]
    rfl
  have hqs : c.qs = b.qs := by rw [hframe]
  have hwv : c.wv = b.wv := by rw [hframe]
  simp only [Blk.cond, hque, hsb, hwait, hservice, hqs, hwv]

end

/-! ### The strand chooses the next (14 R364) -/

section
variable (x : Env) (load : Bool)

theorem Blk.choosesNext_next (h : Strand.seq w = 0) : b.choosesNext x i w load v = b.goTo i (v.sptr + 1) false := by
  simp only [Blk.choosesNext, h]
theorem Blk.choosesNext_jump (h : Strand.seq w = 1) (ht : BitVec.ofNat 12 (Strand.target w) ≠ 0xFFF) :
    b.choosesNext x i w load v = b.goTo i (BitVec.ofNat 12 (Strand.target w)) true := by
  simp only [Blk.choosesNext, h, if_neg ht]
theorem Blk.choosesNext_tret (h : Strand.seq w = 1) (ht : Strand.target w = 0xFFF) (hshadow : v.shadow.isSome = true) :
    b.choosesNext x i w load v = b.tret i := by
  simp only [Blk.choosesNext, h, ht, hshadow]
  rfl
theorem Blk.choosesNext_branch (h : Strand.seq w = 2) : b.choosesNext x i w load v =
    (b.condTested i (Strand.cond w)).goTo i (if b.cond i v (Strand.cond w) then BitVec.ofNat 12 (Strand.target w) else v.sptr + 1)
      (b.cond i v (Strand.cond w)) := by
  simp only [Blk.choosesNext, h]
  cases b.cond i v (Strand.cond w) <;> rfl
theorem Blk.choosesNext_call (h : Strand.seq w = 3) (hroom : v.stack.length < 4) : b.choosesNext x i w load v =
    (b.setSeq i { b.seq i with stack := (v.sptr + 1) :: v.stack }).goTo i (BitVec.ofNat 12 (Strand.target w)) false := by
  simp only [Blk.choosesNext, h, if_neg (Nat.not_le.2 hroom)]
theorem Blk.choosesNext_ret {r : BitVec 12} {st : List (BitVec 12)} (h : Strand.seq w = 4) (hstack : v.stack = r :: st) :
    b.choosesNext x i w load v = (b.setSeq i { b.seq i with stack := st }).goTo i r true := by
  simp only [Blk.choosesNext, h, hstack]
theorem Blk.choosesNext_loop (h : Strand.seq w = 5) : b.choosesNext x i w false v =
    if v.lc = 0 then b.goTo i (v.sptr + 1) false
    else (b.setSeq i { b.seq i with lc := v.lc - 1 }).goTo i
      (if v.lc - 1 = 0 then v.sptr + 1 else BitVec.ofNat 12 (Strand.target w)) (v.lc - 1 != 0) := by
  simp only [Blk.choosesNext, h]
  rfl
theorem Blk.choosesNext_dispatch (h : Strand.seq w = 6) : b.choosesNext x i w load v =
    b.goTo i (BitVec.ofNat 12 (Strand.target w) + BitVec.ofNat 12 (min (Slot.opcode v.slotLine).toNat 0x20)) true := by
  simp only [Blk.choosesNext, h]
theorem Blk.choosesNext_wait (h : Strand.seq w = 7) : b.choosesNext x i w load v =
    let c := b.condTested i (Strand.cond w)
    if b.cond i v (Strand.cond w) then c.goTo i (v.sptr + 1) false else c.setSeq i { c.seq i with inWait := true } := by
  simp only [Blk.choosesNext, h]

end

/-- The strand that a command runs, with a yarn that makes no request. -/
theorem Blk.StrandAt.exec {m : Instr} (h : s.blk.StrandAt i w f) (hkind : Strand.runsAs w kind = true)
    (hm : exec m s = .next { s with blk := s.blk.runStrand s.env i kind }) :
    exec m s = .next { s with blk := (s.blk.computed i f).choosesNext s.env i w f.lcld (s.blk.seq i) } := by
  rw [hm, h.runStrand hkind]
theorem Blk.Ran.goes {c : Blk} (h : b.Ran i f c) (p : BitVec 12) (jump : Bool) : let d := c.goTo i p jump
    b.SeqOnly i d ∧ b.AluDone i f d ∧ (d.seq i).sptr = p := by
  obtain ⟨honly, hdone⟩ := h.goTo p jump
  obtain ⟨-, hseq⟩ := c.goTo_spec i p jump
  exact ⟨honly, hdone, by rw [hseq]⟩

end

end Sys2Proof.Machine

/-! # A NEXT strand with a request

The request goes out from the first free place, and the strand goes on. -/

namespace Sys2Proof.Machine

section
variable {s : State} {b c d : Blk} {i : SeqId} {w : W32} {f : YarnF} {p : Fin 32}

/-! ### The strand goes on (14 R364, R366) -/

/-- A NEXT strand, once its yarn's request and interface operation are done: the ALU, then the next strand. -/
def Blk.goesOn (i : SeqId) (w : W32) (f : YarnF) (v : Seq) (b : Blk) : Blk :=
  (b.yarnAlu i f (b.edgeSees i w f v)).goTo i ((b.seq i).sptr + 1) false

theorem Blk.edgeSees_sptr (i : SeqId) (w : W32) (f : YarnF) (v : Seq) (b : Blk) : (b.edgeSees i w f v).sptr = (b.seq i).sptr := by
  unfold Blk.edgeSees
  exact (apply_ite Seq.sptr ..).trans (ite_self _)
theorem exec_next_yarn (h : s.blk.YarnAt i w f) (hseq : Strand.seq w = 0) (hfree : s.blk.yarnHolds i f = false) :
    exec (.next i) s = .next { s with blk := (s.blk.yarnDone s.env i f).goesOn i w f (s.blk.seq i) } := by
  have hrun := h.runStrand (Strand.runsAs_seq hseq (by decide) (by decide)) hfree s.env
  dsimp only at hrun
  rw [Blk.choosesNext_next _ _ hseq, Blk.edgeSees_sptr] at hrun
  rw [show exec (.next i) s = .next { s with blk := s.blk.runStrand s.env i 0 } from rfl, hrun]
  rfl
/-- Going on changes of the sequencer what the ALU writes, and its strand. -/
theorem Blk.goesOn_spec (hstep : (b.seq i).stepping = false) (w : W32) (f : YarnF) (v : Seq) : let c := b.goesOn i w f v
    b.SeqOnly i c ∧ ∃ u, (b.seq i).Computes u ∧ c.seq i = { u with sptr := (b.seq i).sptr + 1, inWait := false } := by
  obtain ⟨honly, hcomputes, -⟩ := b.yarnAlu_spec i f (b.edgeSees i w f v)
  have hstep : ((b.yarnAlu i f (b.edgeSees i w f v)).seq i).stepping = false := by
    rw [hcomputes]
    exact hstep
  unfold Blk.goesOn
  rw [Blk.goTo_falls hstep]
  exact ⟨honly.trans (Blk.seqOnly_setSeq _ i _), _, hcomputes, Blk.setSeq_seq _ _ _⟩

/-! ### A request goes out (14 R366, R368) -/

/-- The request that has gone out stays as the strand goes on. -/
theorem Blk.asked_goesOn {q : Nat} {what : SeqReq} {m : Instr}
    (hframe : c = { b with sq := c.sq, mem := { b.mem with ring := b.mem.ring ++ [m] }, trc := { b.trc with tally := c.trc.tally } })
    (hothers : ∀ j : Nat, j ≠ i.val → c.seq j = b.seq j) (hstep : (c.seq i).stepping = false) (hsptr : (c.seq i).sptr = (b.seq i).sptr)
    (houts : (c.seq i).outs = PMap.put p.val { q := q, what := what } (b.seq i).outs) (w : W32) (f : YarnF) (v : Seq) :
    b.Asked i p q what m (c.goesOn i w f v) := by
  obtain ⟨⟨hc, hj⟩, u, hcomputes, hseq⟩ := Blk.goesOn_spec hstep w f v
  generalize c.goesOn i w f v = d at *
  refine ⟨?_, fun j h => (hj j h).trans (hothers j h), ?_, ?_⟩
  · rw [hframe] at hc
    exact hc
  · rw [hseq, hsptr]
  · rw [hseq, hcomputes]
    exact houts
theorem Blk.asks_seq (i : SeqId) (q : Nat) (p : Fin 32) (what : SeqReq) (m : Instr) (b : Blk) :
    (b.asks i q p what m).seq i = { b.seq i with outs := PMap.put p.val { q := q, what := what } (b.seq i).outs } := b.setSeq_seq _ _
theorem Blk.asks_seq_ne {j : Nat} (h : j ≠ i.val) (q : Nat) (p : Fin 32) (what : SeqReq) (m : Instr) (b : Blk) :
    (b.asks i q p what m).seq j = b.seq j := b.setSeq_seq_ne _ h
theorem Blk.asks_asked (hstep : (b.seq i).stepping = false) (key n q : Nat) (p : Fin 32) (what : SeqReq) (m : Instr) (w : W32) (f : YarnF)
    (v : Seq) : b.Asked i p q what m (((b.bump key n).asks i q p what m).goesOn i w f v) := by
  have hseq := (b.bump key n).asks_seq i q p what m
  exact Blk.asked_goesOn rfl (fun j hj => Blk.asks_seq_ne hj ..) (by rw [hseq]; exact hstep) (by rw [hseq]) (by rw [hseq]) w f v
/-- The record buffer is busy until its write is answered. -/
def Blk.recording (i : SeqId) (b : Blk) : Blk := b.setSeq i { b.seq i with recBusy := true }
theorem Blk.recording_asked (hstep : (b.seq i).stepping = false) (key n q : Nat) (p : Fin 32) (what : SeqReq) (m : Instr) (w : W32)
    (f : YarnF) (v : Seq) : let c := (((b.bump key n).asks i q p what m).recording i).goesOn i w f v
    (c.seq i).recBusy = true ∧ b.Asked i p q what m c := by
  have hseq : (((b.bump key n).asks i q p what m).recording i).seq i
      = { b.seq i with outs := PMap.put p.val { q := q, what := what } (b.seq i).outs, recBusy := true } := by
    rw [Blk.recording, Blk.setSeq_seq, Blk.asks_seq]
    rfl
  have hothers : ∀ j : Nat, j ≠ i.val → (((b.bump key n).asks i q p what m).recording i).seq j = b.seq j := fun j hj =>
    (Blk.setSeq_seq_ne _ _ hj).trans (Blk.asks_seq_ne hj ..)
  have hstep : ((((b.bump key n).asks i q p what m).recording i).seq i).stepping = false := by
    rw [hseq]
    exact hstep
  obtain ⟨-, u, hcomputes, hgone⟩ := Blk.goesOn_spec hstep w f v
  refine ⟨?_, Blk.asked_goesOn rfl hothers hstep (by rw [hseq]) (by rw [hseq]) w f v⟩
  rw [hgone, hcomputes, hseq]

/-! ### What a yarn asks for (14 R368) -/

variable {v : Seq}

theorem Blk.yarnDone_mem (h : f.sbi = 0) (x : Env) : b.yarnDone x i f = (b.bump (evBlk 0x19 i) 1).yarnMem i f := by
  simp only [Blk.yarnDone, Blk.yarnSbi, h]
/-- A slot of the served queue. -/
theorem Blk.yarnMem_slot {q : Queue} {n : Nat} (hmem : f.mem = 1) (hserving : (b.seq i).serving = true) (hqueue : (b.seq i).queue = q)
    (hq : seqOf q = i.val) (hplace : (b.seq i).freePlace = some p)
    (hn : b.fullIndex q (BitVec.ofNat 32 ((b.seq i).wreg f.maddr).toNat) = n) (hasked : b.slotAsked q n = false) :
    b.yarnMem i f = b.asks i q p (.slot n) (.rdonce (.slot q (BitVec.ofNat 32 n)) (lineOf (slotAddr (b.que q) n))) := by
  have hask : b.askSlot q n = some (b.asks i q p (.slot n) (.rdonce (.slot q (BitVec.ofNat 32 n)) (lineOf (slotAddr (b.que q) n)))) := by
    unfold Blk.askSlot
    rw [hasked, dif_pos q.isLt, hq, Blk.seqAsk_place hplace]
    rfl
  simp only [Blk.yarnMem, hmem, hserving, hqueue, if_true]
  rw [hn, hask]
  rfl
/-- A request in the sequencer's own name. -/
theorem seqId_val (i : SeqId) : seqId i = i := Fin.ext (Nat.mod_eq_of_lt i.isLt)
theorem Blk.seqAsk_getD (hplace : (b.seq i).freePlace = some p) (q : Nat) (what : SeqReq) (m : Fin 32 → Instr) :
    (b.seqAsk i q what m).getD b = b.asks i q p what (m p) := by
  rw [Blk.seqAsk_place hplace]
  rfl
/-- A descriptor line that the cache holds is used there, and nothing else changes. -/
theorem Blk.useDesc_eq (s q n : Nat) (b : Blk) : let c := b.useDesc s q n
    c = { b with mem := { b.mem with agents := c.mem.agents, clock := c.mem.clock } } := by
  unfold Blk.useDesc
  split
  · rw [Blk.touch_eq]
    rfl
  · rfl
/-- Half of the descriptor buffer takes a line that the cache holds. -/
theorem Blk.yarnMem_cached {l : Copy} (hmem : f.mem = 2)
    (hcopy : b.copy (64 + i.val % 4) (lineOf ((b.seq i).wreg f.maddr).toNat).toNat = some l) : let c := b.yarnMem i f
    ({ b with mem := { b.mem with agents := c.mem.agents, clock := c.mem.clock } } : Blk).OneSeq i c
      ∧ c.seq i = { b.seq i with descBuf := halfPut (b.seq i).descBuf (bit ((b.seq i).wreg f.maux) 0) l.data } := by
  have huse := b.useDesc_eq i (b.seq i).queue (lineOf ((b.seq i).wreg f.maddr).toNat).toNat
  simp only [Blk.yarnMem, hmem, hcopy]
  generalize b.useDesc i (b.seq i).queue (lineOf ((b.seq i).wreg f.maddr).toNat).toNat = d at *
  have hseq : ∀ j, d.seq j = b.seq j := fun j => by
    rw [huse]
    rfl
  refine ⟨⟨?_, fun j hj => (d.setSeq_seq_ne _ hj).trans (hseq j)⟩, ?_⟩
  · rw [huse]
    rfl
  · rw [Blk.setSeq_seq, hseq]
/-- The half is in the descriptor buffer as the strand goes on, and of the rest only the cache's order of use has changed. -/
theorem Blk.cached_goesOn {key n : Nat} {line : BitVec 1024} (hstep : (b.seq i).stepping = false)
    (hone : ({ b.bump key n with mem := { b.mem with agents := c.mem.agents, clock := c.mem.clock } } : Blk).OneSeq i c)
    (hseq : c.seq i = { b.seq i with descBuf := line }) : let d := c.goesOn i w f v
    (d.seq i).descBuf = line ∧ (d.seq i).sptr = (b.seq i).sptr + 1 ∧ (d.seq i).outs = (b.seq i).outs
      ∧ ({ b with mem := { b.mem with agents := d.mem.agents, clock := d.mem.clock } } : Blk).SeqOnly i d := by
  have hstep : (c.seq i).stepping = false := by
    rw [hseq]
    exact hstep
  obtain ⟨⟨hframe, hothers⟩, u, hcomputes, hgone⟩ := Blk.goesOn_spec hstep w f v
  obtain ⟨hc, hj⟩ := hone
  generalize c.goesOn i w f v = d at *
  refine ⟨by rw [hgone, hcomputes, hseq], by rw [hgone, hseq], by rw [hgone, hcomputes, hseq], ?_, fun j h => (hothers j h).trans (hj j h)⟩
  rw [hc] at hframe
  rw [hframe]
  rfl
/-- The cache asks for a descriptor line that it neither holds nor waits for. -/
theorem Blk.yarnMem_desc (hmem : f.mem = 2) (hplace : (b.seq i).freePlace = some p)
    (hcopy : b.copy (64 + i.val % 4) (lineOf ((b.seq i).wreg f.maddr).toNat).toNat = none)
    (hmiss : b.missing (64 + i.val % 4) (lineOf ((b.seq i).wreg f.maddr).toNat).toNat = false) :
    let n := lineOf ((b.seq i).wreg f.maddr).toNat
    b.yarnMem i f = (b.addMiss { agent := 64 + i.val % 4, line := n.toNat, queue := some (b.seq i).queue, seat := 0 }).asks i
      (b.seq i).queue p (.desc n (bit ((b.seq i).wreg f.maux) 0)) (.rds ⟨64 + i.val % 4, by omega⟩ n) := by
  intro n
  have hline : lineNo n.toNat = n := by simp [lineNo]
  have hnew : ((b.copy (64 + i.val % 4) n.toNat).isSome || b.missing (64 + i.val % 4) n.toNat) = false := by
    rw [hcopy, hmiss]
    rfl
  have hask : ∀ u : Seq, (b.setSeq i u).askLine ⟨64 + i.val % 4, by omega⟩ n.toNat (some (b.seq i).queue)
      = ((b.setSeq i u).addMiss { agent := 64 + i.val % 4, line := n.toNat, queue := some (b.seq i).queue, seat := 0 }).send
        (.rds ⟨64 + i.val % 4, by omega⟩ n) := fun u => by
    have hnone : ¬ (((b.setSeq i u).copy (64 + i.val % 4) n.toNat).isSome || (b.setSeq i u).missing (64 + i.val % 4) n.toNat) = true :=
      Bool.eq_false_iff.1 hnew
    rw [Blk.askLine, if_neg hnone, hline]
  simp only [Blk.yarnMem, hmem, hcopy, Blk.askDesc, hplace]
  exact hask _
theorem Blk.yarnMem_line (hmem : f.mem = 3) (hplace : (b.seq i).freePlace = some p) :
    b.yarnMem i f = b.asks i ((b.seq i).workQueue i) p (.line (bit ((b.seq i).wreg f.maux) 0))
      (.rdonce (.seq i p) (lineOf ((b.seq i).wreg f.maddr).toNat)) := by
  simp only [Blk.yarnMem, hmem, Blk.seqAsk_getD hplace, seqId_val]
theorem Blk.yarnMem_wrLine (hmem : f.mem = 4) (hplace : (b.seq i).freePlace = some p) :
    b.yarnMem i f = b.asks i ((b.seq i).workQueue i) p .wrLine (.wr (.seq i p) (lineOf ((b.seq i).wreg f.maddr).toNat)
      (rotLine (b.seq i).copyBuf (((b.seq i).wreg f.maux).toNat % 128)) ((b.seq i).wreg f.mmask)) := by
  simp only [Blk.yarnMem, hmem, Blk.seqAsk_getD hplace, seqId_val]
theorem Blk.yarnMem_wrRec (hmem : f.mem = 5) (hplace : (b.seq i).freePlace = some p) : let a := ((b.seq i).wreg f.maddr).toNat
    let c := b.asks i ((b.seq i).workQueue i) p .wrRec
      (.wr (.seq i p) (lineOf a) (BitVec.ofNat 512 ((b.seq i).recBuf.toNat * 2 ^ (8 * (a % 64)))) (maskOf (a % 64) 16))
    b.yarnMem i f = c.recording i := by
  intro a c
  simp only [Blk.yarnMem, hmem, Blk.seqAsk_getD hplace, seqId_val, a, c]
  rfl

end

/-- Settles O13: a strand without a request goes on from `Blk.computed`; one with a request from what its yarn asked for. -/
theorem strandsChooseNext : Obligations.StrandsChooseNext := by
  constructor
  · intro s i w f b v t h
    obtain ⟨hran, -, -⟩ := b.computed_spec i f
    refine ⟨fun hseq => ?_, fun hseq ht => ?_, fun hseq => ?_, fun hseq => ?_⟩
    · have hexec := h.exec (Strand.runsAs_seq hseq (by decide) (by decide)) (m := .next i) rfl
      rw [Blk.choosesNext_next _ _ hseq] at hexec
      exact ⟨_, hexec, hran.goes _ _⟩
    · have htarget : Strand.target w ≠ 0xFFF := fun ht' => ht (by simp only [t, ht']; rfl)
      have hexec := h.exec (Strand.runsAs_jump hseq htarget) (m := .jump i) rfl
      rw [Blk.choosesNext_jump _ _ hseq ht] at hexec
      exact ⟨_, hexec, hran.goes _ _⟩
    · have hexec := h.exec (Strand.runsAs_seq hseq (by decide) (by decide)) (m := .branch i) rfl
      rw [Blk.choosesNext_branch _ _ hseq, b.cond_computed] at hexec
      exact ⟨_, hexec, (hran.condTested _).goes _ _⟩
    · have hexec := h.exec (Strand.runsAs_seq hseq (by decide) (by decide)) (m := .dispatch i) rfl
      rw [Blk.choosesNext_dispatch _ _ hseq] at hexec
      exact ⟨_, hexec, hran.goes _ _⟩
  · intro s i w f p b v a half wq ag h hseq hsbi hplace
    have hfree : b.yarnHolds i f = false := by
      have hplace : (b.seq i).freePlace = some p := hplace
      simp [Blk.yarnHolds, hsbi, hplace]
    have hexec := exec_next_yarn h hseq hfree
    rw [Blk.yarnDone_mem hsbi] at hexec
    obtain ⟨-, -, hstep, -⟩ := h
    refine ⟨?_, ?_, ?_, fun hmem => ?_, fun hmem => ?_, fun hmem => ?_⟩
    · intro q hmem hserving hqueue hq n hasked
      rw [Blk.yarnMem_slot (b := b.bump (evBlk 0x19 i) 1) hmem hserving hqueue hq hplace rfl hasked] at hexec
      exact ⟨_, hexec, Blk.asks_asked hstep _ _ _ _ _ _ _ _ _⟩
    · intro l hmem hcopy
      obtain ⟨hone, hdesc⟩ := Blk.yarnMem_cached (b := b.bump (evBlk 0x19 i) 1) hmem hcopy
      exact ⟨_, hexec, Blk.cached_goesOn hstep hone hdesc⟩
    · intro hmem hcopy hmiss
      rw [Blk.yarnMem_desc (b := b.bump (evBlk 0x19 i) 1) hmem hplace hcopy hmiss] at hexec
      exact ⟨_, hexec, Blk.asks_asked (b := b.addMiss _) hstep _ _ _ _ _ _ _ _ _⟩
    · rw [Blk.yarnMem_line (b := b.bump (evBlk 0x19 i) 1) hmem hplace] at hexec
      exact ⟨_, hexec, Blk.asks_asked hstep _ _ _ _ _ _ _ _ _⟩
    · rw [Blk.yarnMem_wrLine (b := b.bump (evBlk 0x19 i) 1) hmem hplace] at hexec
      exact ⟨_, hexec, Blk.asks_asked hstep _ _ _ _ _ _ _ _ _⟩
    · rw [Blk.yarnMem_wrRec (b := b.bump (evBlk 0x19 i) 1) hmem hplace] at hexec
      exact ⟨_, hexec, Blk.recording_asked hstep _ _ _ _ _ _ _ _ _⟩

end Sys2Proof.Machine

/-! # Interface operations

CALL, RET, LOOP and WAIT; and the interface operations of a NEXT strand whose ALU rests. -/

namespace Sys2Proof.Machine

section
variable {s : State} {b c d : Blk} {i : SeqId} {w : W32} {f : YarnF} {v : Seq}

/-! ### What the next strand finds (14 R364) -/

theorem Blk.goTo_keeps (i : SeqId) (p : BitVec 12) (jump : Bool) (b : Blk) : let c := b.goTo i p jump
    (c.seq i).stack = (b.seq i).stack ∧ (c.seq i).lc = (b.seq i).lc ∧ (c.seq i).inWait = false := by
  obtain ⟨-, hseq⟩ := b.goTo_spec i p jump
  dsimp only
  rw [hseq]
  exact ⟨rfl, rfl, rfl⟩
/-- A sequencer that is changed, but for its working registers, and goes on. -/
theorem Blk.Ran.goes_with {u : Seq} (h : b.Ran i f c) (hw : u.w = (c.seq i).w) (p : BitVec 12) (jump : Bool) :
    let d := (c.setSeq i u).goTo i p jump
    b.SeqOnly i d ∧ b.AluDone i f d ∧ (d.seq i).sptr = p ∧ (d.seq i).stack = u.stack ∧ (d.seq i).lc = u.lc := by
  obtain ⟨honly, hdone, hsptr⟩ := (h.setSeq hw).goes p jump
  obtain ⟨hstack, hlc, -⟩ := (c.setSeq i u).goTo_keeps i p jump
  rw [Blk.setSeq_seq] at hstack hlc
  exact ⟨honly, hdone, hsptr, hstack, hlc⟩
/-- LOOP, where the yarn does not load LC. -/
theorem Blk.StrandAt.loop (h : s.blk.StrandAt i w f) (hseq : Strand.seq w = 5) (hload : f.lcld = false) :
    let b := s.blk; let v := b.seq i
    ∃ c : Blk, Machine.exec (.loop i) s = .next { s with blk := c } ∧ b.SeqOnly i c ∧ b.AluDone i f c
      ∧ (v.lc = 0 → (c.seq i).sptr = v.sptr + 1 ∧ (c.seq i).lc = 0)
      ∧ (v.lc ≠ 0 → (c.seq i).sptr = (if v.lc = 1 then v.sptr + 1 else BitVec.ofNat 12 (Strand.target w)) ∧ (c.seq i).lc = v.lc - 1) := by
  intro b v
  obtain ⟨hran, -, hlc⟩ := b.computed_spec i f
  have hexec := h.exec (Strand.runsAs_seq hseq (by decide) (by decide)) (m := .loop i) rfl
  rw [hload, Blk.choosesNext_loop _ hseq] at hexec
  by_cases hzero : v.lc = 0
  · rw [if_pos hzero] at hexec
    obtain ⟨honly, hdone, hsptr⟩ := hran.goes (v.sptr + 1) false
    obtain ⟨-, klc, -⟩ := (b.computed i f).goTo_keeps i (v.sptr + 1) false
    exact ⟨_, hexec, honly, hdone, fun _ => ⟨hsptr, klc.trans ((hlc hload).trans hzero)⟩, fun hne => absurd hzero hne⟩
  · rw [if_neg hzero] at hexec
    have hone : v.lc - 1 = 0 ↔ v.lc = 1 := sub_eq_zero
    obtain ⟨honly, hdone, hsptr, -, klc⟩ := hran.goes_with (u := { (b.computed i f).seq i with lc := v.lc - 1 }) rfl
      (if v.lc - 1 = 0 then v.sptr + 1 else BitVec.ofNat 12 (Strand.target w)) (v.lc - 1 != 0)
    exact ⟨_, hexec, honly, hdone, fun h => absurd h hzero, fun _ => ⟨hsptr.trans (if_congr hone rfl rfl), klc⟩⟩
theorem Blk.StrandAt.wait (h : s.blk.StrandAt i w f) (hseq : Strand.seq w = 7) : let b := s.blk; let v := b.seq i
    ∃ c : Blk, Machine.exec (.wait i) s = .next { s with blk := c } ∧ b.SeqOnly i c ∧ b.AluDone i f c
      ∧ (b.cond i v (Strand.cond w) = true → (c.seq i).sptr = v.sptr + 1 ∧ (c.seq i).inWait = false)
      ∧ (b.cond i v (Strand.cond w) = false → (c.seq i).sptr = v.sptr ∧ (c.seq i).inWait = true) := by
  intro b v
  obtain ⟨hran, hcomputes, -⟩ := b.computed_spec i f
  have hexec := h.exec (Strand.runsAs_seq hseq (by decide) (by decide)) (m := .wait i) rfl
  rw [Blk.choosesNext_wait _ _ hseq, b.cond_computed] at hexec
  have htested := hran.condTested (Strand.cond w)
  obtain ⟨-, hseen⟩ := (b.computed i f).condTested_spec i (Strand.cond w)
  dsimp only at hexec
  generalize (b.computed i f).condTested i (Strand.cond w) = d at *
  by_cases hcond : b.cond i v (Strand.cond w) = true
  · rw [if_pos hcond] at hexec
    obtain ⟨honly, hdone, hsptr⟩ := htested.goes (v.sptr + 1) false
    obtain ⟨-, -, hwait⟩ := d.goTo_keeps i (v.sptr + 1) false
    exact ⟨_, hexec, honly, hdone, fun _ => ⟨hsptr, hwait⟩, fun hno => absurd (hno.symm.trans hcond) (by decide)⟩
  · rw [if_neg hcond] at hexec
    obtain ⟨honly, hdone⟩ := htested.setSeq (v := { d.seq i with inWait := true }) rfl
    refine ⟨_, hexec, honly, hdone, fun hyes => absurd hyes hcond, fun _ => ?_⟩
    rw [Blk.setSeq_seq, hseen, hcomputes]
    exact ⟨rfl, rfl⟩
@[simp] theorem Blk.bump_seq (key n : Nat) (b : Blk) (j : Nat) : (b.bump key n).seq j = b.seq j := rfl

/-! ### A NEXT strand whose ALU rests (14 R364, R369) -/

/-- Sequencer i goes on to the next strand in line. -/
def Blk.passes (i : SeqId) (b : Blk) : Blk :=
  (b.setSeq i (b.seq i)).setSeq i { b.seq i with sptr := (b.seq i).sptr + 1, inWait := false }
/-- The sequencer is at the same strand, and as far in it. -/
def Seq.Stays (v u : Seq) : Prop := u.sptr = v.sptr ∧ u.stepping = v.stepping ∧ u.inWait = v.inWait

theorem Blk.goesOn_rests (h : f.AluRests) (hstep : (b.seq i).stepping = false) : b.goesOn i w f v = b.passes i := by
  have hsame : (b.setSeq i (b.seq i)).seq i = b.seq i := b.setSeq_seq _ _
  rw [Blk.goesOn, Blk.yarnAlu_rests h, Blk.goTo_falls (by rw [hsame]; exact hstep), hsame]
  rfl
theorem Blk.OneSeq.queueWork {n : Nat} (h : b.OneSeq n c) : b.QueueWork c := by
  obtain ⟨hc, -⟩ := h
  unfold Blk.QueueWork
  rw [hc]
theorem Blk.passes_spec (hwait : (b.seq i).inWait = false) : let c := b.passes i
    b.OneSeq i c ∧ c.seq i = { b.seq i with sptr := (b.seq i).sptr + 1 } := by
  refine ⟨(b.oneSeq_setSeq i _).trans (Blk.oneSeq_setSeq _ i _), ?_⟩
  rw [Blk.passes, Blk.setSeq_seq, ← hwait]
/-- Sequencer i is at a NEXT strand that makes no request and whose ALU rests, and nothing holds its interface operation. -/
def Blk.SbiAt (b : Blk) (i : SeqId) (w : W32) (f : YarnF) : Prop :=
  b.YarnAt i w f ∧ f.AluRests ∧ Strand.seq w = 0 ∧ f.mem = 0 ∧ b.yarnHolds i f = false
/-- Such a strand does its interface operation, and goes on to the next. -/
theorem Blk.SbiAt.runs (h : s.blk.SbiAt i w f) (hd : (s.blk.bump (evBlk 0x19 i) 1).yarnSbi s.env i f = d)
    (hstays : (s.blk.seq i).Stays (d.seq i)) : let c := d.passes i
    exec (.next i) s = .next { s with blk := c } ∧ d.OneSeq i c ∧ c.seq i = { d.seq i with sptr := (s.blk.seq i).sptr + 1 } := by
  obtain ⟨hyarn, hrest, hseq, hmem, hfree⟩ := h
  have hexec := exec_next_yarn hyarn hseq hfree
  obtain ⟨-, hwait, hstep, -⟩ := hyarn
  obtain ⟨ksptr, kstep, kwait⟩ := hstays
  have hdone : s.blk.yarnDone s.env i f = d := by
    rw [← hd]
    simp only [Blk.yarnDone, Blk.yarnMem, hmem]
  obtain ⟨hone, hnext⟩ := Blk.passes_spec (kwait.trans hwait)
  rw [hdone, Blk.goesOn_rests hrest (kstep.trans hstep)] at hexec
  rw [ksptr] at hnext
  exact ⟨hexec, hone, hnext⟩
/-- An operation on the sequencer alone, of a block that counts the strand. -/
theorem Blk.SbiAt.runs_seq {u : Seq} (h : s.blk.SbiAt i w f)
    (hd : (s.blk.bump (evBlk 0x19 i) 1).yarnSbi s.env i f = (s.blk.bump (evBlk 0x19 i) 1).setSeq i u) (hu : (s.blk.seq i).Stays u) :
    ∃ c : Blk, exec (.next i) s = .next { s with blk := c } ∧ s.blk.SeqOnly i c ∧ c.seq i = { u with sptr := (s.blk.seq i).sptr + 1 } := by
  have hset : ((s.blk.bump (evBlk 0x19 i) 1).setSeq i u).seq i = u := Blk.setSeq_seq _ _ _
  obtain ⟨hexec, hone, hnext⟩ := h.runs hd (by rw [hset]; exact hu)
  rw [hset] at hnext
  exact ⟨_, hexec, ((s.blk.seqOnly_bump i _ _).trans (Blk.seqOnly_setSeq _ i u)).trans hone.seqOnly, hnext⟩
/-- An operation that reaches queues. -/
theorem Blk.SbiAt.runs_queues (h : s.blk.SbiAt i w f) (hd : (s.blk.bump (evBlk 0x19 i) 1).yarnSbi s.env i f = d)
    (hwork : (s.blk.bump (evBlk 0x19 i) 1).QueueWork d) (hstays : (s.blk.seq i).Stays (d.seq i)) :
    ∃ c : Blk, exec (.next i) s = .next { s with blk := c } ∧ s.blk.QueueWork c ∧ c.qs = d.qs ∧ c.sb = d.sb ∧ c.kn = d.kn
      ∧ c.seq i = { d.seq i with sptr := (s.blk.seq i).sptr + 1 } := by
  obtain ⟨hexec, hone, hnext⟩ := h.runs hd hstays
  refine ⟨_, hexec, ((s.blk.queueWork_bump _ _).trans hwork).trans hone.queueWork, ?_, ?_, ?_, hnext⟩
  all_goals rw [hone.1]

/-! ### SELECT, IDLE and TAKE (14 R369) -/

theorem Blk.setZ_seq (i : SeqId) (z : Bool) (b : Blk) : (b.setZ i z).seq i = { b.seq i with z := z } := b.setSeq_seq _ _
theorem Blk.sbiSelect_none (h : b.selectQueue i = none) : b.sbiSelect i = b.setZ i true := by
  simp only [Blk.sbiSelect, h]
theorem Blk.sbiSelect_some {q : Nat} (h : b.selectQueue i = some q) : let d := b.sbiSelect i
    b.QueueWork d ∧ d.que q = { b.que q with wake := false, idle := false } ∧ (∀ r, r ≠ q → d.que r = b.que r) ∧ d.sb = b.sb
      ∧ d.kn = b.kn
      ∧ d.seq i = { (b.seq i).setW 0 (BitVec.ofNat 64 q) with
          queue := q, serving := true, burst := 0, z := false, st := (d.seq i).st, ptrs := (d.seq i).ptrs } := by
  simp only [Blk.sbiSelect, h]
  refine ⟨rfl, Blk.setQue_que _ _ _, fun r hr => Blk.setQue_que_ne _ _ hr, rfl, rfl, ?_⟩
  rw [Blk.setQue_seq, Blk.setSeq_seq]
  rfl
theorem Blk.sbiIdle_serving (h : (b.seq i).serving = true) : let d := b.sbiIdle i; let v := b.seq i; let u := b.que v.queue
    let same := u.tail % 2 ^ 32 = (v.wreg 1).toNat % 2 ^ 32
    b.QueueWork d ∧ d.que v.queue = { u with idle := decide same } ∧ (∀ r, r ≠ v.queue → d.que r = b.que r) ∧ d.sb = b.sb ∧ d.kn = b.kn
      ∧ v.Stays (d.seq i) ∧ (d.seq i).z = decide same ∧ (d.seq i).serving = !decide same := by
  intro d v u same
  have hserv : v.serving = true := h
  by_cases hsame : same
  · have hd : d = (((b.setQue v.queue { u with idle := true }).leaveQueue i).setZ i true) := by
      simp only [d, Blk.sbiIdle, h, Bool.not_true, Bool.false_eq_true, if_false]
      exact if_pos hsame
    have hseq : d.seq i = { v with serving := false, st := if v.shadow.isSome then v.st else .idle, z := true } := by
      rw [hd, Blk.setZ_seq, Blk.leaveQueue, Blk.setSeq_seq]
      rfl
    rw [hseq, hd, decide_eq_true hsame]
    exact ⟨rfl, Blk.setQue_que _ _ _, fun r hr => Blk.setQue_que_ne _ _ hr, rfl, rfl, ⟨rfl, rfl, rfl⟩, rfl, rfl⟩
  · have hd : d = (b.setQue v.queue { u with idle := false }).setZ i false := by
      simp only [d, Blk.sbiIdle, h, Bool.not_true, Bool.false_eq_true, if_false]
      exact if_neg hsame
    have hseq : d.seq i = { v with z := false } := by
      rw [hd, Blk.setZ_seq]
      rfl
    rw [hseq, hd, decide_eq_false hsame]
    exact ⟨rfl, Blk.setQue_que _ _ _, fun r hr => Blk.setQue_que_ne _ _ hr, rfl, rfl, ⟨rfl, rfl, rfl⟩, rfl, hserv⟩
/-- The other entries stay as one is changed in place. -/
theorem Blk.modEntry_entry_ne {q n r m : Nat} {g : SbEntry → SbEntry} (hg : ∀ e, (g e).q = e.q ∧ (g e).n = e.n) (hne : ¬(r = q ∧ m = n))
    (b : Blk) : (b.modEntry q n g).entry r m = b.entry r m := by
  let g' : SbEntry → SbEntry := fun e => if e.q == q && e.n == n then g e else e
  have hsame : ((fun e : SbEntry => e.q == r && e.n == m) ∘ g') = fun e : SbEntry => e.q == r && e.n == m := by
    funext e
    simp only [Function.comp_apply, g']
    split
    · rw [(hg e).1, (hg e).2]
    · rfl
  change (b.sb.map g').find? _ = b.sb.find? _
  rw [List.find?_map, hsame]
  cases he : b.sb.find? fun e => e.q == r && e.n == m with
  | none => rfl
  | some e =>
    obtain ⟨hq, hn⟩ := Blk.entry_spec he
    have hother : g' e = e := by
      simp only [g', hq, hn]
      exact if_neg (by simpa using hne)
    rw [Option.map_some, hother]
theorem Blk.sbiTake_none (h : ∀ e ∈ b.sb, seqOf e.q = i.val → seqCarries e.opcode = true → e.code = 0 → b.mayStart e = false) :
    b.sbiTake i = b.setZ i true := by
  have hnone : (b.sb.find? fun e => seqOf e.q == i.val && seqCarries e.opcode && e.code == 0 && b.mayStart e) = none := by
    refine List.find?_eq_none.2 fun e he => ?_
    have h := h e he
    simp only [Bool.and_eq_true, beq_iff_eq, not_and, Bool.not_eq_true]
    tauto
  simp only [Blk.sbiTake, hnone]
theorem Blk.sbiTake_some {e : SbEntry}
    (h : (b.sb.find? fun e => seqOf e.q == i.val && seqCarries e.opcode && e.code == 0 && b.mayStart e) = some e) :
    let c := b.modEntry e.q e.n fun e => { e with started := true }
    b.sbiTake i = c.setSeq i { ((b.seq i).setW 0 (BitVec.ofNat 64 e.q)).setW 2 (BitVec.ofNat 64 (e.n % 2 ^ 32)) with z := false } := by
  simp only [Blk.sbiTake, h]
  rfl

/-! ### ENTER and COMPLETE (14 R369) -/

/-- The commands of the scoreboard, in their order. -/
def Blk.ords (b : Blk) : List Nat := b.sb.map (·.ord)

theorem Blk.evalWaiting_ords (q n : Nat) (b : Blk) : (b.evalWaiting q n).ords = b.ords := by
  have hmod : ∀ g : SbEntry → SbEntry, (∀ e, (g e).ord = e.ord) → (b.modEntry q n g).ords = b.ords := fun g hg => by
    simp only [Blk.ords, Blk.modEntry, List.map_map]
    refine List.map_congr_left fun e _ => ?_
    simp only [Function.comp_apply]
    split
    · exact hg e
    · rfl
  unfold Blk.evalWaiting
  split
  · rfl
  split
  · rfl
  dsimp only
  split
  · rfl
  · exact hmod _ fun _ => rfl
theorem Blk.evalWaiters_ords (k : Nat) (b : Blk) : (b.evalWaiters k).ords = b.ords := by
  unfold Blk.evalWaiters
  refine List.foldlRecOn _ _ (motive := fun c : Blk => c.ords = b.ords) rfl fun c hc w _ => ?_
  split
  · obtain ⟨-, hsb, -⟩ := c.evalTrigger_qs w.q w.n
    rw [← hc, Blk.ords, hsb]
    rfl
  · exact (c.evalWaiting_ords _ _).trans hc
theorem Blk.tieNow_ords (t : Tie) (b : Blk) : (b.tieNow t).ords = b.ords := by
  unfold Blk.tieNow
  split
  · rfl
  · dsimp only
    rw [Blk.evalWaiters_ords]
    split <;> rfl
theorem Blk.applyTie_ords (t : Tie) (b : Blk) : (b.applyTie t).ords = b.ords := by
  unfold Blk.applyTie
  dsimp only
  rw [Blk.tieNow_ords]
  exact List.foldlRecOn _ _ (motive := fun c : Blk => c.ords = b.ords) rfl fun c hc u _ => (c.tieNow_ords u).trans hc
theorem Blk.completionTie_ords (t : W64) (form : Option (BitVec 4) × BitVec 4) (ep : W32) (b : Blk) :
    (b.completionTie t form ep).ords = b.ords := by
  unfold Blk.completionTie
  split <;> exact Blk.applyTie_ords _ _
theorem Blk.settle_ords (q : Nat) (b : Blk) : (b.settle q).ords = b.ords := by
  unfold Blk.settle
  split
  · split
    · exact b.evalWaiting_ords _ _
    · rfl
  · rfl
/-- A completion takes its command out of the scoreboard, and none else. -/
theorem Blk.complete_ords (e : SbEntry) (st : Stat) (rel : BitVec 4) (b : Blk) :
    (b.complete e st rel).ords = (b.sb.filter fun f => f.ord != e.ord).map (·.ord) := by
  unfold Blk.complete
  extract_lets st' form c0 c1 c2 bound c3 c4
  obtain ⟨⟨hframe, -⟩, -⟩ := (c4.bumpAll 4 ((c4.wv.cur.owner e.q).getD 0)).noteDone_spec e.q e.n st' e.opcode
  have h2 : c2.ords = c1.ords := by
    simp only [c2]
    split
    · exact Blk.completionTie_ords _ _ _ _
    · rfl
  have h3 : c3.ords = c2.ords := by
    simp only [c3]
    split
    · exact Blk.completionTie_ords _ _ _ _
    · rfl
  have h4 : c4.ords = c3.ords := by
    simp only [c4]
    split <;> rfl
  rw [Blk.settle_ords, hframe]
  exact h4.trans (h3.trans h2)
theorem Blk.ords_nil (h : b.ords = []) : b.sb = [] := List.map_eq_nil_iff.1 h
theorem Blk.startEligible_bare (h : b.ords = []) (x : Env) : b.startEligible x = b := by
  unfold Blk.startEligible
  rw [show b.sb.map (·.ord) = [] from h]
  rfl
theorem Blk.complete_sq (e : SbEntry) (st : Stat) (rel : BitVec 4) (b : Blk) : (b.complete e st rel).sq = b.sq := by
  obtain ⟨c, d, st', hc, -, hd, h⟩ := b.complete_eq e st rel
  obtain ⟨⟨-, hnote, -⟩, -⟩ := d.noteDone_spec e.q e.n st' e.opcode
  have hcd : d.sq = c.sq := by
    rw [hd]
    split <;> rfl
  rw [h, (Blk.tieWork_settle _ _).1]
  exact hnote.trans (hcd.trans (by rw [hc.1]))

/-- A sole command that completes leaves the scoreboard empty. -/
theorem Blk.complete_alone {e : SbEntry} (h : b.sb = [e]) (st : Stat) (rel : BitVec 4) : (b.complete e st rel).ords = [] := by
  rw [b.complete_ords, h]
  simp
theorem Blk.takeDesc_seq (q n : Nat) (l : Line) (b : Blk) (j : Nat) : (b.takeDesc q n l).seq j
    = { b.seq j with headDesc := ((b.takeDesc q n l).seq j).headDesc } := by
  unfold Blk.takeDesc
  extract_lets k v c
  have hc : c.seq j = { b.seq j with headDesc := (c.seq j).headDesc } := by
    simp only [c]
    split
    · by_cases hj : j = k
      · subst hj
        rw [Blk.setSeq_seq]
      · rw [Blk.setSeq_seq_ne _ _ hj]
    · rfl
  split <;> exact hc
/-- Of a sequencer a command that enters takes the descriptor at HEAD, and no more. -/
theorem Blk.joinSb_seq (e : SbEntry) (b : Blk) (j : Nat) : (b.joinSb e).seq j
    = { b.seq j with headDesc := ((b.joinSb e).seq j).headDesc } := by
  have hlaunch : ∀ c : Blk, (if e.opcode = opLAUNCH then c.jobsLaunched e.seat else c).seq j = c.seq j := fun c => by split <;> rfl
  unfold Blk.joinSb
  dsimp only
  rw [hlaunch]
  split
  · exact Blk.takeDesc_seq _ _ _ _ _
  · rfl
theorem Blk.joinSb_alone {e : SbEntry} (h : b.sb = []) : (b.joinSb e).sb = [e] := by
  have hadd := b.addEntry_sb e
  rw [Blk.addEntry, Blk.advanceHead_sb, h] at hadd
  exact hadd
/-- A command that fails a check completes with its code as it enters (07 R181, R203). -/
theorem Blk.letIn_fails {e : SbEntry} (hsb : b.sb = [e]) (hcode : e.code ≠ 0) (hstart : e.started = false) (hend : e.ending = none)
    (hfence : (b.que e.q).fence = none) (hopen : (b.que e.q).st = .opened ∨ (b.que e.q).st = .draining) (x : Env) :
    b.letIn x e = b.complete e { fault := true, code := e.code, detail := e.detail } 0 := by
  have hentry : b.entry e.q e.n = some e := Blk.entry_of_append (l := []) hsb (by simp)
  have hlower : b.lower e.q e.n = [] := Blk.lower_of_append (l := []) hsb (by simp)
  have hclose : (b.que e.q).st ≠ .closing := by rcases hopen with h | h <;> simp [h]
  have hcode' : ¬ e.code = 0#8 := hcode
  have hmay : b.mayStart e = true := by simp [Blk.mayStart, Blk.canStart, Blk.fenced, hstart, hend, hfence, hcode', hlower, hclose]
  have hhitch : ¬ (decide (e.opcode = opHITCH) && e.code == 0) = true := by simp [hcode']
  rw [Blk.letIn, if_neg hhitch]
  unfold Blk.attempt
  rw [hentry]
  simp only [hmay, if_true]
  rw [Blk.startCmd, if_pos hcode]

theorem Blk.joinSb_fails {e : SbEntry} (hsb : b.sb = []) (hcode : e.code ≠ 0) (hstart : e.started = false) (hend : e.ending = none)
    (hfence : (b.que e.q).fence = none) (hopen : (b.que e.q).st = .opened ∨ (b.que e.q).st = .draining) (x : Env) :
    let c := (b.joinSb e).letIn x e
    b.QueueWork c ∧ c.ords = [] ∧ (c.que e.q).head = (b.que e.q).head ∧ (∀ j, c.seq j = { b.seq j with headDesc := (c.seq j).headDesc })
      ∧ c.Ended e.q e.n { fault := true, code := e.code, detail := e.detail
                          stretched := e.opcode = opLAUNCH && b.stretchSeen e.q e.n } e.opcode := by
  have hjoined := b.joinSb_que_any e e.q
  have hwork := b.queueWork_joinSb e
  have hseq := b.joinSb_seq e
  have halone := Blk.joinSb_alone (e := e) hsb
  dsimp only
  generalize b.joinSb e = d at *
  have hstretch : d.stretchSeen e.q e.n = b.stretchSeen e.q e.n := by
    have hpwr : d.pwr = b.pwr := by rw [hwork]
    have hto : (d.que e.q).stretchTo = (b.que e.q).stretchTo := by rw [hjoined]
    simp only [Blk.stretchSeen, hpwr, hto]
  obtain ⟨m, w, y, z, hque⟩ := d.complete_que e { fault := true, code := e.code, detail := e.detail } 0 e.q
  have hended := d.complete_ended e { fault := true, code := e.code, detail := e.detail } 0
  rw [Stat.shown_eq rfl, hstretch] at hended
  have hsame : ∀ j, (d.complete e { fault := true, code := e.code, detail := e.detail } 0).seq j = d.seq j := fun j => by
    rw [Blk.seq, Blk.complete_sq]
    rfl
  rw [Blk.letIn_fails halone hcode hstart hend (by rw [hjoined]; exact hfence) (by rw [hjoined]; exact hopen) x]
  refine ⟨hwork.trans (Blk.queueWork_complete _ _ _ _), Blk.complete_alone halone _ _, ?_, fun j => ?_, hended⟩
  · rw [hque]
    change (d.que e.q).head = (b.que e.q).head
    rw [hjoined]
  · rw [hsame]
    exact hseq j
/-- ENTER of the slot at HEAD: the guard counts a passed outcome that hardware overrode, and the command enters. -/
theorem Blk.sbiEnter_enters {q : Nat} {l : Line} (hqueue : (b.seq i).queue = q) (hserving : (b.seq i).serving = true)
    (hline : (b.seq i).w2Line = some ((b.que q).head, l)) (htail : (b.que q).head < (b.que q).tail)
    (hnew : b.entered q (b.que q).head = false) (hparse : b.parsesOnly q = false)
    (hopen : (b.que q).st = .opened ∨ (b.que q).st = .draining) (hroom : b.sbAvail q = true) (hwait : b.waitAvail q = true)
    (x : Env) (r : W64) : let o := enterOutcome b q l (b.seq i).descBuf r; let e := b.mkEntry q l (some (b.seq i).descBuf) o.1
    b.sbiEnter x i r = ((if o.2 then b.guard i else b).joinSb e).letIn x e := by
  have hst : ((b.que q).st == .opened || (b.que q).st == .draining) = true := by rcases hopen with h | h <;> simp [h]
  have htail' : ¬ (b.que q).tail ≤ (b.que q).head := Nat.not_le.2 htail
  simp [Blk.sbiEnter, hqueue, hserving, hline, htail', hnew, hparse, hst, hroom, hwait]
/-- ENTER of a slot that fails a check. -/
theorem Blk.sbiEnter_fails {q : Nat} {l : Line} {code : W8} {det : Nat} {r : W64} (hqueue : (b.seq i).queue = q)
    (hserving : (b.seq i).serving = true) (hline : (b.seq i).w2Line = some ((b.que q).head, l))
    (htail : (b.que q).head < (b.que q).tail) (hnew : b.entered q (b.que q).head = false) (hparse : b.parsesOnly q = false)
    (hopen : (b.que q).st = .opened ∨ (b.que q).st = .draining) (hroom : b.sbAvail q = true) (hwait : b.waitAvail q = true)
    (hsb : b.sb = []) (hfence : (b.que q).fence = none)
    (hbad : (enterOutcome b q l (b.seq i).descBuf r).1 = some (code, det)) (hcode : code ≠ 0) (x : Env) : let c := b.sbiEnter x i r
    b.QueueWork c ∧ c.ords = [] ∧ (c.que q).head = (b.que q).head
      ∧ c.seq i = { b.seq i with
          headDesc := (c.seq i).headDesc
          guard := if (enterOutcome b q l (b.seq i).descBuf r).2 then satInc (b.seq i).guard else (b.seq i).guard }
      ∧ c.Ended q (b.que q).head { fault := true, code := code, detail := BitVec.ofNat 64 det
                                   stretched := Slot.opcode l = opLAUNCH && b.stretchSeen q (b.que q).head } (Slot.opcode l) := by
  have henter := Blk.sbiEnter_enters hqueue hserving hline htail hnew hparse hopen hroom hwait x r
  dsimp only at henter ⊢
  rw [henter]
  generalize hout : enterOutcome b q l (b.seq i).descBuf r = o at *
  obtain ⟨bad, passed⟩ := o
  have hbad : bad = some (code, det) := hbad
  have hguard : (if passed = true then b.guard i else b) = { b with sq := (if passed = true then b.guard i else b).sq } := by split <;> rfl
  have hseq : (if passed = true then b.guard i else b).seq i
      = { b.seq i with guard := if passed = true then satInc (b.seq i).guard else (b.seq i).guard } := by
    split
    · exact b.setSeq_seq _ _
    · rfl
  generalize (if passed = true then b.guard i else b) = d at *
  have hque : ∀ r, d.que r = b.que r := Blk.que_congr (by rw [hguard])
  have hd : d.sb = [] := by
    rw [hguard]
    exact hsb
  have hwork : b.QueueWork d := by
    unfold Blk.QueueWork
    rw [hguard]
  have hstretch : d.stretchSeen q (b.que q).head = b.stretchSeen q (b.que q).head := by
    rw [hguard]
    rfl
  have hecode : (b.mkEntry q l (some (b.seq i).descBuf) bad).code = code := by simp [Blk.mkEntry, hbad]
  have hedetail : (b.mkEntry q l (some (b.seq i).descBuf) bad).detail = BitVec.ofNat 64 det := by simp [Blk.mkEntry, hbad]
  have hq : (b.mkEntry q l (some (b.seq i).descBuf) bad).q = q := rfl
  obtain ⟨hjoin, hords, hhead, hseqs, hended⟩ := Blk.joinSb_fails (e := b.mkEntry q l (some (b.seq i).descBuf) bad) hd
    (by rw [hecode]; exact hcode) rfl rfl (by rw [hq, hque]; exact hfence) (by rw [hq, hque]; exact hopen) x
  rw [hecode, hedetail] at hended
  refine ⟨hwork.trans hjoin, hords, hhead.trans (congrArg Que.head (hque q)), ?_, ?_⟩
  · rw [hseqs, hseq]
  · rw [← hstretch]
    exact hended

theorem Blk.sbiComplete_alone {e : SbEntry} (hsb : b.sb = [e]) (hq : e.q = ((b.seq i).wreg 0).toNat % 1024)
    (hn : e.n % 2 ^ 32 = ((b.seq i).wreg 2).toNat % 2 ^ 32) (hseq : seqOf e.q = i.val) (hcarries : seqCarries e.opcode = true)
    (hstart : e.started = true) :
    b.sbiComplete i = b.complete e { statOfRecord (b.seq i).recBuf with stretched := false } 0 := by
  have hfind : (b.sb.find? fun e => e.q == ((b.seq i).wreg 0).toNat % 1024 && e.n % 2 ^ 32 == ((b.seq i).wreg 2).toNat % 2 ^ 32)
      = some e := by
    rw [hsb]
    exact List.find?_cons_of_pos (by simp only [hq, hn, beq_self_eq_true, Bool.and_self])
  unfold Blk.sbiComplete
  dsimp only
  rw [hfind]
  refine if_pos ?_
  rw [← hq, hseq, hcarries, hstart]
  simp

/-- A sequencer carries no LAUNCH. -/
theorem seqCarries_plain {op : W8} (h : seqCarries op = true) : op ≠ opLAUNCH := by
  rintro rfl
  exact absurd h (by decide)

/-! ### HEAD (14 R369) -/

theorem Blk.sbiHead_passes (hserving : (b.seq i).serving = true) (htail : (b.que (b.seq i).queue).head < (b.que (b.seq i).queue).tail)
    (hheld : ((b.seq i).lines.any fun y => y.1 == (b.seq i).queue && y.2.1 == (b.que (b.seq i).queue).head) = true) :
    let d := b.sbiHead i; let v := b.seq i; let u := b.que v.queue
    b.QueueWork d ∧ d.que v.queue = { u with head := u.head + 1 } ∧ (∀ r, r ≠ v.queue → d.que r = b.que r) ∧ d.sb = b.sb ∧ d.kn = b.kn
      ∧ d.seq i = { v with
          lines := v.lines.filter fun y => !(y.1 == v.queue && y.2.1 == u.head)
          burst := v.burst + 1, slots := satInc v.slots, fired := (d.seq i).fired } := by
  simp only [Blk.sbiHead, hserving, htail, hheld, decide_true, Bool.and_self, if_true]
  refine ⟨rfl, Blk.setQue_que _ _ _, fun r hr => Blk.setQue_que_ne _ _ hr, rfl, rfl, ?_⟩
  rw [Blk.setQue_seq, Blk.setSeq_seq]
theorem Blk.sbiHead_stays (h : ¬((b.seq i).serving = true ∧ (b.que (b.seq i).queue).head < (b.que (b.seq i).queue).tail
      ∧ ((b.seq i).lines.any fun y => y.1 == (b.seq i).queue && y.2.1 == (b.que (b.seq i).queue).head) = true)) :
    b.sbiHead i = b.guard i := by
  have hnot : ¬ ((b.seq i).serving && decide ((b.que (b.seq i).queue).head < (b.que (b.seq i).queue).tail)
      && (b.seq i).lines.any fun y => y.1 == (b.seq i).queue && y.2.1 == (b.que (b.seq i).queue).head) = true := by
    simpa only [Bool.and_eq_true, decide_eq_true_eq, and_assoc] using h
  exact if_neg hnot

/-! ### MARK and TAG (14 R369) -/

theorem Blk.noteTag_bump (key n q m : Nat) (tag : W32) (b : Blk) : (b.bump key n).noteTag q m tag = (b.noteTag q m tag).bump key n := by
  change (if (b.tagUnits q tag).isEmpty then b.bump key n else _) = _
  unfold Blk.noteTag
  split <;> rfl
theorem Blk.noteTag_seq (q m : Nat) (tag : W32) (b : Blk) (j : Nat) : (b.noteTag q m tag).seq j = b.seq j := by
  unfold Blk.noteTag
  split <;> rfl

/-! ### The operation of a yarn (14 R369) -/

variable {x : Env}

theorem Blk.yarnSbi_select (h : f.sbi = 1) : b.yarnSbi x i f = b.sbiSelect i := by simp only [Blk.yarnSbi, h]
theorem Blk.yarnSbi_tail (h : f.sbi = 2) : b.yarnSbi x i f
    = b.setSeq i ((b.seq i).setW 1 (BitVec.ofNat 64 ((b.que (b.seq i).queue).tail % 2 ^ 32))) := by simp only [Blk.yarnSbi, h]
theorem Blk.yarnSbi_idle (h : f.sbi = 3) : b.yarnSbi x i f = b.sbiIdle i := by simp only [Blk.yarnSbi, h]
theorem Blk.yarnSbi_enter (h : f.sbi = 4) : b.yarnSbi x i f = (b.sbiEnter x i ((b.seq i).wreg f.sbsrc)).startEligible x := by
  simp only [Blk.yarnSbi, h]
theorem Blk.yarnSbi_complete (h : f.sbi = 5) : b.yarnSbi x i f = (b.sbiComplete i).startEligible x := by simp only [Blk.yarnSbi, h]
theorem Blk.yarnSbi_head (h : f.sbi = 6) : b.yarnSbi x i f = b.sbiHead i := by simp only [Blk.yarnSbi, h]
theorem Blk.yarnSbi_leave (h : f.sbi = 7) : b.yarnSbi x i f = b.leaveQueue i := by simp only [Blk.yarnSbi, h]
theorem Blk.yarnSbi_take (h : f.sbi = 8) : b.yarnSbi x i f = b.sbiTake i := by simp only [Blk.yarnSbi, h]
theorem Blk.yarnSbi_mark {e : SbEntry} (h : f.sbi = 9) (he : b.named i opMARK = some e) (hctl : b.trc.ctl.getLsbD 0 = true) :
    b.yarnSbi x i f = b.traceBlk x 0x10 (markBody e) := by simp only [Blk.yarnSbi, h, he, hctl, if_true]
theorem Blk.yarnSbi_tag {e : SbEntry} (h : f.sbi = 10) (he : b.named i opTAG = some e) :
    b.yarnSbi x i f = b.noteTag e.q e.n (BitVec.ofNat 32 (Slot.d32 e.slot 4)) := by simp only [Blk.yarnSbi, h, he]

end

/-- Settles O14: CALL, RET, LOOP and WAIT go on from `Blk.computed`; of a NEXT strand whose ALU rests `Blk.SbiAt.runs` leaves the
interface operation, which is that of its section above. -/
theorem strandsCallLoopWait : Obligations.StrandsCallLoopWait := by
  constructor
  · intro s i w f b v t h
    obtain ⟨hran, -, -⟩ := b.computed_spec i f
    refine ⟨fun hseq hroom => ?_, fun r st hseq hstack => ?_, h.loop, h.wait⟩
    · have hexec := h.exec (Strand.runsAs_seq hseq (by decide) (by decide)) (m := .call i) rfl
      rw [Blk.choosesNext_call _ _ hseq hroom] at hexec
      obtain ⟨honly, hdone, hsptr, hstack, -⟩ :=
        hran.goes_with (u := { (b.computed i f).seq i with stack := (v.sptr + 1) :: v.stack }) rfl t false
      exact ⟨_, hexec, honly, hdone, hsptr, hstack⟩
    · have hexec := h.exec (Strand.runsAs_seq hseq (by decide) (by decide)) (m := .ret i) rfl
      rw [Blk.choosesNext_ret _ _ hseq hstack] at hexec
      obtain ⟨honly, hdone, hsptr, hstack, -⟩ := hran.goes_with (u := { (b.computed i f).seq i with stack := st }) rfl r true
      exact ⟨_, hexec, honly, hdone, hsptr, hstack⟩
  · intro s i w f b v u rest h hrest hseq hmem
    have hstays : v.Stays v := ⟨rfl, rfl, rfl⟩
    have hat : b.yarnHolds i f = false → b.SbiAt i w f := fun hfree => ⟨h, hrest, hseq, hmem, hfree⟩
    have hplain : ∀ {n}, f.sbi = n → n ≠ 4 → n ≠ 9 → b.SbiAt i w f := fun hn h4 h9 => hat (by simp [Blk.yarnHolds, hmem, hn, h4, h9])
    refine ⟨?_, ?_, ?_, ?_, ?_, ?_, ?_, ?_, ?_, ?_, ?_, ?_, ?_⟩
    · intro hsbi hnone
      exact (hplain hsbi (by decide) (by decide)).runs_seq (u := { v with z := true })
        ((Blk.yarnSbi_select hsbi).trans (Blk.sbiSelect_none hnone)) hstays
    · intro q hsbi hsome
      obtain ⟨hwork, hque, hothers, hsb, hkn, hd⟩ := Blk.sbiSelect_some (b := b.bump (evBlk 0x19 i) 1) hsome
      obtain ⟨c, hexec, kwork, kqs, ksb, kkn, kseq⟩ := (hplain hsbi (by decide) (by decide)).runs_queues
        (Blk.yarnSbi_select hsbi) hwork (by rw [hd]; exact hstays)
      have kque := Blk.que_congr kqs
      refine ⟨c, hexec, kwork, (kque q).trans hque, fun r hr => (kque r).trans (hothers r hr), ksb.trans hsb, kkn.trans hkn, ?_⟩
      rw [kseq, hd]
      exact ⟨rfl, rfl, rfl, rfl, SMap.get_set_self _ _ _ _, rfl⟩
    · intro hsbi
      exact (hplain hsbi (by decide) (by decide)).runs_seq (u := v.setW 1 (BitVec.ofNat 64 (u.tail % 2 ^ 32)))
        (Blk.yarnSbi_tail hsbi) hstays
    · intro hsbi hserving same
      obtain ⟨hwork, hque, hothers, hsb, hkn, kstays, hz, hserv⟩ := Blk.sbiIdle_serving (b := b.bump (evBlk 0x19 i) 1) hserving
      obtain ⟨c, hexec, kwork, kqs, ksb, kkn, kseq⟩ := (hplain hsbi (by decide) (by decide)).runs_queues
        (Blk.yarnSbi_idle hsbi) hwork kstays
      have kque := Blk.que_congr kqs
      refine ⟨c, hexec, kwork, (kque _).trans hque, fun r hr => (kque r).trans (hothers r hr), ksb.trans hsb, kkn.trans hkn, ?_⟩
      rw [kseq]
      exact ⟨hz, hserv, rfl⟩
    · intro l code det out hsbi hserving hline htail hnew hparse hopen hroom hwait hbreak hsb hfence hbad hcode
      have hfree : b.yarnHolds i f = false := by
        have hbreak : b.breakDue (b.seq i).queue (b.que (b.seq i).queue).head = false := hbreak
        simp [Blk.yarnHolds, hmem, hsbi, hbreak]
      obtain ⟨hwork, hords, hhead, hd, hended⟩ := Blk.sbiEnter_fails (b := b.bump (evBlk 0x19 i) 1) (r := v.wreg f.sbsrc) rfl hserving
        hline htail hnew hparse hopen hroom hwait hsb hfence hbad hcode s.env
      have hdone := Blk.yarnSbi_enter (b := b.bump (evBlk 0x19 i) 1) (x := s.env) (i := i) hsbi
      obtain ⟨c, hexec, kwork, kqs, -, -, kseq⟩ := (hat hfree).runs_queues (hdone.trans (Blk.startEligible_bare hords s.env)) hwork
        (by rw [hd]; exact hstays)
      refine ⟨c, hexec, kwork, (congrArg Que.head (Blk.que_congr kqs _)).trans hhead, (Blk.ended_congr kqs _ _ _ _).2 hended, ?_⟩
      rw [kseq, hd]
      exact ⟨rfl, rfl⟩
    · intro e hsbi hsb hq hn hs hcarries hstart
      have hdone := Blk.yarnSbi_complete (b := b.bump (evBlk 0x19 i) 1) (x := s.env) (i := i) hsbi
      rw [Blk.sbiComplete_alone (b := b.bump (evBlk 0x19 i) 1) hsb hq hn hs hcarries hstart] at hdone
      have hords := (b.bump (evBlk 0x19 i) 1).complete_alone hsb { statOfRecord v.recBuf with stretched := false } 0
      have hsq := (b.bump (evBlk 0x19 i) 1).complete_sq e { statOfRecord v.recBuf with stretched := false } 0
      have hended := (b.bump (evBlk 0x19 i) 1).complete_ended_plain (seqCarries_plain hcarries)
        { statOfRecord v.recBuf with stretched := false } 0
      have hwork := (b.bump (evBlk 0x19 i) 1).queueWork_complete e { statOfRecord v.recBuf with stretched := false } 0
      have hd : ((b.bump (evBlk 0x19 i) 1).complete e { statOfRecord v.recBuf with stretched := false } 0).seq i = v := by
        rw [Blk.seq, hsq]
        rfl
      obtain ⟨c, hexec, kwork, kqs, ksb, -, kseq⟩ := (hplain hsbi (by decide) (by decide)).runs_queues
        (hdone.trans (Blk.startEligible_bare hords s.env)) hwork (by rw [hd]; exact hstays)
      exact ⟨c, hexec, kwork, ksb.trans (Blk.ords_nil hords), (Blk.ended_congr kqs _ _ _ _).2 hended, by rw [kseq]⟩
    · intro hsbi hserving htail hheld
      obtain ⟨hwork, hque, hothers, hsb, hkn, hd⟩ := Blk.sbiHead_passes (b := b.bump (evBlk 0x19 i) 1) hserving htail hheld
      obtain ⟨c, hexec, kwork, kqs, ksb, kkn, kseq⟩ := (hplain hsbi (by decide) (by decide)).runs_queues
        (Blk.yarnSbi_head hsbi) hwork (by rw [hd]; exact hstays)
      have kque := Blk.que_congr kqs
      refine ⟨c, hexec, kwork, (kque _).trans hque, fun r hr => (kque r).trans (hothers r hr), ksb.trans hsb, kkn.trans hkn, ?_⟩
      rw [kseq, hd]
      exact ⟨rfl, rfl, rfl, rfl, rfl⟩
    · intro hsbi hnot
      exact (hplain hsbi (by decide) (by decide)).runs_seq (u := { v with guard := satInc v.guard })
        ((Blk.yarnSbi_head hsbi).trans (Blk.sbiHead_stays hnot)) hstays
    · intro hsbi
      exact (hplain hsbi (by decide) (by decide)).runs_seq
        (u := { v with serving := false, st := if v.shadow.isSome then v.st else .idle }) (Blk.yarnSbi_leave hsbi) hstays
    · intro hsbi hnone
      exact (hplain hsbi (by decide) (by decide)).runs_seq (u := { v with z := true })
        ((Blk.yarnSbi_take hsbi).trans (Blk.sbiTake_none hnone)) hstays
    · intro e hsbi hsome
      have hd : ∀ (c : Blk) (u : Seq), (c.setSeq i u).seq i = u := fun c u => c.setSeq_seq i u
      obtain ⟨c, hexec, kwork, kqs, ksb, kkn, kseq⟩ := (hplain hsbi (by decide) (by decide)).runs_queues
        ((Blk.yarnSbi_take hsbi).trans (Blk.sbiTake_some (b := b.bump (evBlk 0x19 i) 1) hsome)) rfl (by rw [hd]; exact hstays)
      rw [hd] at kseq
      refine ⟨c, hexec, kwork, kqs, kkn, ?_, fun q n hne => ?_, ?_⟩
      · rw [Blk.entry, ksb]
        exact Blk.modEntry_entry (f := fun e => { e with started := true }) fun _ => ⟨rfl, rfl⟩
      · rw [Blk.entry, ksb]
        exact Blk.modEntry_entry_ne (g := fun e => { e with started := true }) (fun _ => ⟨rfl, rfl⟩) hne (b.bump (evBlk 0x19 i) 1)
      · rw [kseq]
        exact ⟨(SMap.get_set_ne _ _ _ (by decide)).trans (SMap.get_set_self _ _ _ _), SMap.get_set_self _ _ _ _, rfl, rfl⟩
    · intro e hsbi hnamed hctl hroom
      have hfree : b.yarnHolds i f = false := by simp [Blk.yarnHolds, hmem, hsbi, hnamed, hroom]
      obtain ⟨hexec, ⟨hframe, hothers⟩, hnext⟩ := (hat hfree).runs
        (Blk.yarnSbi_mark (b := b.bump (evBlk 0x19 i) 1) (x := s.env) hsbi hnamed hctl) hstays
      refine ⟨_, hexec, ⟨?_, hothers⟩, hnext⟩
      rw [hframe]
      rfl
    · intro e hsbi hnamed
      have hdone := Blk.yarnSbi_tag (b := b.bump (evBlk 0x19 i) 1) (x := s.env) (i := i) hsbi hnamed
      rw [Blk.noteTag_bump] at hdone
      have hd := b.noteTag_seq e.q e.n (BitVec.ofNat 32 (Slot.d32 e.slot 4))
      generalize b.noteTag e.q e.n (BitVec.ofNat 32 (Slot.d32 e.slot 4)) = d at *
      obtain ⟨hexec, hone, hnext⟩ := (hplain hsbi (by decide) (by decide)).runs hdone (by rw [Blk.bump_seq, hd]; exact hstays)
      rw [Blk.bump_seq, hd] at hnext
      exact ⟨_, hexec, (d.seqOnly_bump i _ _).trans hone.seqOnly, hnext⟩

end Sys2Proof.Machine

/-! # Traps, halts and responses of a sequencer

The events of a sequencer: each changes it alone, and the error unit with a halt. -/

namespace Sys2Proof.Machine

section
variable {s : State} {b c : Blk} {i : SeqId} {w : W32} {f : YarnF}

/-! ### Traps (14 R371, R372, R435) -/

theorem Blk.microTrap_takes {k : Nat} (hrun : b.running = true) (hst : (b.seq i).st = .idle ∨ (b.seq i).st = .running)
    (hdue : (b.seq i).trapDue = some k) : let v := b.seq i; b.microTrap i = b.setSeq i { v with
      shadow := some v.shadowOf, pend := v.pend.erase k, trapCause := BitVec.ofNat 3 k, trapCount := satInc v.trapCount, inWait := false
      st := if k = 5 then .broke else .trapped
      sptr := if k = 5 then v.sptr else BitVec.ofNat 12 (0xFF0 + k) } := by
  have hidle : ((b.seq i).st == .idle || (b.seq i).st == .running) = true := by simpa using hst
  simp only [Blk.microTrap, hrun, hidle, hdue, Bool.not_true, Bool.or_self, Bool.false_eq_true, if_false]
  split <;> rfl
/-- TRET, from the block whose ALU operation is done. -/
theorem Blk.tret_restores {h : Shadow} (hshadow : (b.seq i).shadow = some h) : b.tret i = b.setSeq i { b.seq i with
    sptr := h.sptr, lc := h.lc, stack := h.stack, w := h.w, z := h.z, c := h.c, shadow := none, inWait := false
    st := if (b.seq i).serving then .running else .idle } := by
  simp only [Blk.tret, hshadow]

/-! ### Halts (14 R373) -/

theorem Blk.haltSeq_spec (x : Env) (i : SeqId) (code : W8) (strand : BitVec 12) (b : Blk) : let c := b.haltSeq x i code strand
    c = { b with sq := c.sq, flt := c.flt }
      ∧ c.seq i = { b.seq i with st := .halted, haltCode := code, haltSptr := strand, serving := false, inWait := false }
      ∧ ∀ j : Nat, j ≠ i.val → c.seq j = b.seq j := by
  unfold Blk.haltSeq
  extract_lets v d c
  obtain ⟨hlog, -⟩ : d.Logged c := d.log_logged x _
  have hseq : ∀ j, c.seq j = d.seq j := fun j => by
    rw [hlog]
    rfl
  refine ⟨?_, (hseq i).trans (b.setSeq_seq _ _), fun j hj => (hseq j).trans (b.setSeq_seq_ne _ hj)⟩
  rw [hlog]
  rfl
theorem exec_storeEcc (hup : s.blk.up = true) (hst : (s.blk.seq i).st ≠ .halted) (strand : BitVec 12) :
    exec (.storeEcc i strand) s = .next { s with blk := (s.blk.haltSeq s.env i 2 strand).callRung 3 0 0x0D } := by
  have hlive : (s.blk.up && (s.blk.seq i).st != .halted) = true := by simp [hup, hst]
  simp only [exec, execStoreEcc, State.onBlk, hlive, if_true]

/-! ### Memory responses (14 R366, R368, R370) -/

/-- What a copy-buffer read's answer does to its sequencer. -/
def Seq.answered (p : Fin 32) (half : Bool) (d : Line) (resp : BitVec 2) (v : Seq) : Seq :=
  if resp = 0 then { v with outs := PMap.del p.val v.outs, copyBuf := halfPut v.copyBuf half d }
  else ({ v with outs := PMap.del p.val v.outs } : Seq).respError

theorem Blk.seqResponse_line {p : Fin 32} {q : Nat} {half : Bool}
    (h : PMap.find p.val (b.seq i).outs = some { q := q, what := .line half }) (x : Env) (d : Line) (resp : BitVec 2) :
    let c := b.seqResponse x i p.val d resp
    b.OneSeq i c ∧ c.seq i = (b.seq i).answered p half d resp := by
  have hfreed := b.oneSeq_setSeq i { b.seq i with outs := PMap.del p.val (b.seq i).outs }
  have hfreedSeq : (b.freeOut i p.val).seq i = { b.seq i with outs := PMap.del p.val (b.seq i).outs } := b.setSeq_seq _ _
  by_cases hresp : resp = 0
  · have hok : (resp != 0) = false := by simp [hresp]
    have heq : b.seqResponse x i p.val d resp = (b.freeOut i p.val).setSeq i
        { (b.freeOut i p.val).seq i with copyBuf := halfPut ((b.freeOut i p.val).seq i).copyBuf half d } := by
      simp only [Blk.seqResponse, h, SeqReq.isSlot, hok, Bool.false_eq_true, if_false]
    dsimp only
    rw [heq, hfreedSeq, Seq.answered, if_pos hresp]
    exact ⟨hfreed.trans (Blk.oneSeq_setSeq _ _ _), Blk.setSeq_seq _ _ _⟩
  · have hbad : (resp != 0) = true := bne_iff_ne.2 hresp
    have heq : b.seqResponse x i p.val d resp = (b.freeOut i p.val).setSeq i ((b.freeOut i p.val).seq i).respError := by
      simp only [Blk.seqResponse, h, SeqReq.isSlot, hbad, Bool.false_eq_true, if_false, if_true]
    dsimp only
    rw [heq, hfreedSeq, Seq.answered, if_neg hresp]
    exact ⟨hfreed.trans (Blk.oneSeq_setSeq _ _ _), Blk.setSeq_seq _ _ _⟩
theorem exec_seqMemoryResponse {p : Fin 32} {d : Line} {resp : BitVec 2} (hup : s.blk.up = true)
    (harrive : s.blk.mayArrive (.seqMemoryResponse i p d resp) = true) :
    exec (.seqMemoryResponse i p d resp) s = .next { s with
      blk := ((s.blk.arrived (.seqMemoryResponse i p d resp)).seqResponse s.env i p.val d resp).pump s.env } := by
  simp only [exec, execSeqMemoryResponse, State.onArrival, State.onBlk]
  rw [hup, harrive]
  rfl
theorem Seq.answered_ok {v : Seq} {p : Fin 32} {half : Bool} {d : Line} {resp : BitVec 2} (h : resp = 0) :
    v.answered p half d resp = { v with outs := PMap.del p.val v.outs, copyBuf := halfPut v.copyBuf half d } := if_pos h
theorem Seq.answered_bad {v : Seq} {p : Fin 32} {half : Bool} {d : Line} {resp : BitVec 2} (h : resp ≠ 0) :
    v.answered p half d resp = { v with
      outs := PMap.del p.val v.outs, errRec := true
      pend := if v.shadow = none ∧ 2 ∉ v.pend then v.pend ++ [2] else v.pend } := by
  rw [Seq.answered, if_neg h]
  simp [Seq.respError]

end

/-- Settles O15: each event's own lemma gives the sequencer it leaves. -/
theorem sequencerEvents : Obligations.SequencerEvents := by
  unfold Obligations.SequencerEvents
  refine ⟨fun s i => ⟨?_, ?_, ?_⟩, ?_⟩
  · intro k hrun hst hdue
    have htakes := Blk.microTrap_takes hrun hst hdue
    refine ⟨s.blk.microTrap i, rfl, ?_, ?_⟩
    · rw [htakes]
      exact s.blk.seqOnly_setSeq i _
    · rw [htakes]
      exact s.blk.setSeq_seq _ _
  · intro w f h hstrand hseq ht hshadow
    obtain ⟨⟨honly, -⟩, hcomputes, -⟩ := Blk.computed_spec i f s.blk
    have hkept : ((s.blk.computed i f).seq i).shadow = some h := by
      rw [hcomputes]
      exact hshadow
    have hserving : ((s.blk.computed i f).seq i).serving = (s.blk.seq i).serving := by rw [hcomputes]
    have hexec := hstrand.exec (Strand.runsAs_tret hseq ht) (m := .tret i) rfl
    rw [Blk.choosesNext_tret s.env f.lcld hseq ht (Option.isSome_of_eq_some hshadow), Blk.tret_restores hkept, hserving] at hexec
    refine ⟨_, hexec, honly.trans (Blk.seqOnly_setSeq _ _ _), ?_⟩
    rw [Blk.setSeq_seq]
    exact ⟨rfl, rfl, rfl, rfl, rfl, rfl, rfl, rfl⟩
  · intro strand hup hst
    obtain ⟨hframe, hseq, hothers⟩ := s.blk.haltSeq_spec s.env i 2 strand
    have hrung := ((s.blk.haltSeq s.env i 2 strand).callRung_noted 3 0 0x0D).eq
    have hsame : ∀ j, ((s.blk.haltSeq s.env i 2 strand).callRung 3 0 0x0D).seq j = (s.blk.haltSeq s.env i 2 strand).seq j := fun j => by
      rw [hrung]
      rfl
    refine ⟨_, exec_storeEcc hup hst strand, ?_, (hsame i).trans hseq, fun j hj => (hsame j).trans (hothers j hj)⟩
    rw [hrung, hframe]
  · intro s i p d resp q half b v m hup harrive hfind
    obtain ⟨⟨hframe, hothers⟩, hseq⟩ := Blk.seqResponse_line (b := b.arrived m) (i := i) hfind s.env d resp
    refine ⟨_, exec_seqMemoryResponse hup harrive, hframe, hothers, fun h => ?_, fun h => ?_⟩
    · rw [hseq]
      exact Seq.answered_ok h
    · rw [hseq]
      exact Seq.answered_bad h

end Sys2Proof.Machine

/-! # Patch loads

Each function of the patch unit by its cases, then the statement: every step changes the patch unit alone. -/

namespace Sys2Proof.Machine

section
variable {p : Patch} {d : W64} {last warm : Bool}

/-! ### Beats (14 R374, R375) -/

/-- A beat is kept and counted. -/
def Patch.kept (d : W64) (p : Patch) : Patch := { p with st := .receiving, len := p.len + 8, bytes := p.bytes ++ toBytes 8 d.toNat }

/-- A failed check leaves nothing of the patch in force (14 R379). -/
theorem Patch.fail_clears (code : W8) (p : Patch) : let q := p.fail code
    q.st = .failed ∧ q.code = code ∧ q.key = [] ∧ q.plain = [] ∧ q.patStrand = [] ∧ q.patYarn = [] ∧ q.keepValid = false :=
  ⟨rfl, rfl, rfl, rfl, rfl, rfl, rfl⟩

theorem Patch.beat_null (hready : p.ready = true) (hst : p.st = .waiting) (hcut : p.cut = false) :
    p.beat 0 true = { p with st := .none, len := 8, ready := false, keepValid := false } := by
  simp [Patch.beat, hready, hst, hcut]

/-- The beat that ends the header shows the version. -/
def Patch.headed (p : Patch) : Patch := if p.len = 64 then { p with version := BitVec.ofNat 32 (p.at32 0xC) } else p
/-- What follows a beat: the checks at the end of the header, and the end of the patch. -/
def Patch.goesOn (last : Bool) (p : Patch) : Patch :=
  let code := if p.len = 64 then p.headerCode else 0
  if code ≠ 0 then p.fail code
  else if last then { p with st := .verifying, ready := p.ready && p.len != 65536 }
  else if p.len = 65536 then { p with st := .verifying, cut := true, ready := false } else p

section
variable (hready : p.ready = true) (hst : p.st = .waiting ∨ p.st = .receiving) (hcut : p.cut = false)
  (hnull : ¬ (p.st = .waiting ∧ last = true ∧ d = 0))
include hready hst hcut hnull

theorem Patch.beat_taken : p.beat d last = (p.kept d).headed.goesOn last := by
  have htaken : (!p.ready || !(p.st == .waiting || p.st == .receiving) || p.cut) = false := by
    obtain h | h := hst <;> simp [hready, hcut, h]
  rw [Patch.beat, htaken, if_neg Bool.false_ne_true, if_neg hnull]
  rfl
/-- A beat away from the end of the header brings no check. -/
theorem Patch.beat_kept (hlen : p.len + 8 ≠ 64) : p.beat d last =
    if last then { p.kept d with st := .verifying, ready := decide (p.len + 8 ≠ 65536) }
    else if p.len + 8 = 65536 then { p.kept d with st := .verifying, cut := true, ready := false } else p.kept d := by
  have hroom : ((p.kept d).ready && (p.kept d).len != 65536) = decide (p.len + 8 ≠ 65536) := by
    rw [show (p.kept d).ready = true from hready, Bool.true_and, Bool.eq_iff_iff, bne_iff_ne, decide_eq_true_eq]
    rfl
  have hbefore : (p.kept d).len ≠ 64 := hlen
  rw [Patch.beat_taken hready hst hcut hnull, Patch.headed, if_neg hbefore, Patch.goesOn, if_neg hbefore, hroom]
  rfl
/-- The beat that ends a header without the magic number (14 R375). -/
theorem Patch.beat_noMagic (hlen : p.len = 56) (hbytes : p.bytes.length = 56) (hmagic : p.at32 0 ≠ 0x4B535150) :
    p.beat d last = (p.kept d).headed.fail 1 := by
  have hend : (p.kept d).len = 64 := by simp only [Patch.kept, hlen]
  have hheaded : (p.kept d).headed.len = 64 ∧ (p.kept d).headed.bytes = p.bytes ++ toBytes 8 d.toNat := by
    rw [Patch.headed, if_pos hend]
    exact ⟨hend, rfl⟩
  obtain ⟨hlength, hall⟩ := hheaded
  have hfirst : (p.kept d).headed.at32 0 = p.at32 0 := by
    rw [Patch.at32, Patch.at32, hall, List.drop_zero, List.drop_zero, List.take_append_of_le_length (by omega)]
  have hcode : (p.kept d).headed.headerCode = 1 := by rw [Patch.headerCode, hfirst, if_pos (.inl hmagic)]
  rw [Patch.beat_taken hready hst hcut hnull, Patch.goesOn, if_pos hlength, hcode]
  rfl

end

/-! ### The digest (14 R376, R380) -/

/-- The digest is taken over every byte. -/
def Patch.digested (p : Patch) : Patch := { p with hashed := true, digest := digestReg (sha256 p.bytes) }

section
variable (hst : p.st = .verifying) (hhashed : p.hashed = false)
include hst hhashed

theorem Patch.digestDone_cases : p.digestDone warm =
    if p.cut ∨ p.len < 64 ∨ p.at32 8 ≠ p.len then p.digested.fail 4
    else if warm ∧ p.keepValid ∧ digestReg (sha256 p.bytes) = p.keepDigest then
      { p.digested with warmMatch := true, st := .decrypting, keyReq := true }
    else p.digested := by
  have hdue : ¬ (p.st ≠ .verifying ∨ p.hashed = true) := by simp [hst, hhashed]
  rw [Patch.digestDone, if_neg hdue, Patch.digested]
  generalize digestReg (sha256 p.bytes) = g
  rfl
theorem Patch.digestDone_digest : (p.digestDone warm).digest = digestReg (sha256 p.bytes) := by
  rw [Patch.digestDone_cases hst hhashed]
  split
  · rfl
  · split <;> rfl
theorem Patch.digestDone_short (hlen : p.at32 8 ≠ p.len) : p.digestDone warm = p.digested.fail 4 := by
  rw [Patch.digestDone_cases hst hhashed, if_pos (.inr (.inr hlen))]
theorem Patch.digestDone_whole (hcut : p.cut = false) (hheader : 64 ≤ p.len) (hlen : p.at32 8 = p.len) : p.digestDone warm =
    if warm ∧ p.keepValid ∧ digestReg (sha256 p.bytes) = p.keepDigest then
      { p.digested with warmMatch := true, st := .decrypting, keyReq := true }
    else p.digested := by
  have hwhole : ¬ (p.cut = true ∨ p.len < 64 ∨ p.at32 8 ≠ p.len) := by simp [hcut, hheader, hlen]
  rw [Patch.digestDone_cases hst hhashed, if_neg hwhole]

end

/-! ### The signature, the key and the records (14 R376, R377) -/

theorem Patch.verified_cases (hst : p.st = .verifying) (hhashed : p.hashed = true) (k : BitVec 256) : p.verified k =
    if p.keyBad k then p.fail 5 else if p.signed then { p with st := .decrypting, keyReq := true } else p.fail 6 := by
  have hdue : ¬ (p.st ≠ .verifying ∨ (!p.hashed) = true) := by simp [hst, hhashed]
  rw [Patch.verified, if_neg hdue]
  cases p.signed <;> rfl
theorem Patch.keyIn_asked (h : p.keyReq = true) (w : W32) :
    p.keyIn w = { p with key := p.key ++ [w], keyReq := decide (p.key.length + 1 < 8) } := by
  simp [Patch.keyIn, h]

/-- The text of the patch and whether its tag holds (14 R376). -/
def Patch.opened (p : Patch) : List W8 × Bool :=
  gcmOpen (p.key.flatMap fun w => toBytes 4 w.toNat) (p.cut' 0x10 12) (p.cut' 0 0x80) (p.cut' 0x80 p.ctLen) (p.cut' (0x80 + p.ctLen) 16)

theorem Patch.decrypted_cases (hst : p.st = .decrypting) (hreq : p.keyReq = false) (hkey : p.key.length = 8) : p.decrypted =
    if p.opened.2 then
      if (readRecords 8192 p.opened.1 ([], [])).isSome then { p with key := [], plain := p.opened.1, checked := true }
      else ({ p with key := [], plain := p.opened.1 } : Patch).fail 8
    else p.fail 7 := by
  have hdue : ¬ (p.st ≠ .decrypting ∨ p.keyReq = true ∨ p.key.length ≠ 8) := by simp [hst, hreq, hkey]
  have hcases : p.decrypted = if !p.opened.2 then p.fail 7
      else if (readRecords 8192 p.opened.1 ([], [])).isNone then ({ p with key := [], plain := p.opened.1 } : Patch).fail 8
      else { p with key := [], plain := p.opened.1, checked := true } := by
    rw [Patch.decrypted, if_neg hdue]
    rfl
  rw [hcases]
  cases p.opened.2
  · rfl
  · cases readRecords 8192 p.opened.1 ([], []) <;> rfl
theorem Patch.apply_checked {w : Words} (hst : p.st = .decrypting) (hchecked : p.checked = true) (hrom : p.romDone = true)
    (hrecords : p.records = some w) : p.apply = { p with
      patStrand := w.1, patYarn := w.2, strands := w.1.length, yarns := w.2.length, plain := [], bytes := [], checked := false
      st := .loaded, ready := false, keepDigest := p.digest, keepValid := true } := by
  have hdue : ¬ (p.st ≠ .decrypting ∨ (!p.checked) = true ∨ (!p.romDone) = true) := by simp [hst, hchecked, hrom]
  rw [Patch.apply, if_neg hdue, hrecords]

end

/-! ### The instructions of the patch unit -/

section
variable (s : State)

theorem exec_patchBeat (d : W64) (last : Bool) :
    exec (.patchBeat d last) s = .next { s with blk := { s.blk with patch := s.blk.patch.beat d last } } := rfl
theorem exec_patchDigestDone : exec .patchDigestDone s
    = .next { s with blk := { s.blk with patch := s.blk.patch.digestDone (s.blk.start.kind = 2) } } := rfl
theorem exec_signatureVerified : exec .signatureVerified s
    = .next { s with blk := { s.blk with patch := s.blk.patch.verified s.env.strap.keyHash } } := rfl
theorem exec_keyBeat (w : W32) : exec (.keyBeat w) s = .next { s with blk := { s.blk with patch := s.blk.patch.keyIn w } } := rfl
theorem exec_decryptDone : exec .decryptDone s = .next { s with blk := { s.blk with patch := s.blk.patch.decrypted } } := rfl
theorem exec_patchApplied : exec .patchApplied s = .next { s with blk := { s.blk with patch := s.blk.patch.apply } } := rfl
theorem exec_romLoadDone (harrays : s.blk.start.arrays = true) (hbegan : s.blk.start.began = true)
    (hfailed : s.blk.start.failed = false) (hdone : s.blk.start.done = false) :
    exec .romLoadDone s = .next { s with blk := { s.blk with patch := { s.blk.patch with romDone := true } } } := by
  simp only [exec, execRomLoadDone, State.onBlk, harrays, hbegan, hfailed, hdone]
  rfl

end

/-- Settles O46: each step's own case gives the patch unit it leaves. -/
theorem patchLoads : Obligations.PatchLoads := by
  unfold Obligations.PatchLoads
  refine ⟨fun s => ⟨?_, ?_, ?_, ?_, ?_⟩, fun s => ⟨?_, ?_, ?_, ?_, ?_⟩⟩
  · intro hready hst hcut
    rw [exec_patchBeat, Patch.beat_null hready hst hcut]
  · intro d hready hst hcut hheader hfull
    rw [exec_patchBeat, Patch.beat_kept hready hst hcut (by simp) hheader, if_neg Bool.false_ne_true, if_neg hfull]
    rfl
  · intro d hready hst hcut hheader
    rw [exec_patchBeat, Patch.beat_kept hready (.inr hst) hcut (by simp [hst]) hheader, if_pos rfl]
    rfl
  · intro d last hready hst hcut hlen hbytes hmagic
    refine ⟨_, exec_patchBeat s d last, ?_⟩
    rw [Patch.beat_noMagic hready (.inr hst) hcut (by simp [hst]) hlen hbytes hmagic]
    exact ⟨rfl, rfl, rfl, rfl⟩
  · intro hst hhashed
    refine ⟨_, exec_patchDigestDone s, Patch.digestDone_digest hst hhashed, fun hcut hheader hlen => ?_, fun hlen => ?_⟩
    · rw [Patch.digestDone_digest hst hhashed, Patch.digestDone_whole hst hhashed hcut hheader hlen]
      simp only [decide_eq_true_eq, Patch.digested]
      generalize digestReg (sha256 s.blk.patch.bytes) = g
      split
      · rfl
      · rfl
    · rw [Patch.digestDone_short hst hhashed hlen]
      exact ⟨rfl, rfl⟩
  · intro hst hhashed
    have hexec := exec_signatureVerified s
    rw [Patch.verified_cases hst hhashed] at hexec
    split
    next hbad =>
      rw [if_pos hbad] at hexec
      exact ⟨_, hexec, Patch.fail_clears 5 _⟩
    next hgood =>
      rw [if_neg hgood] at hexec
      split
      next hsigned => rwa [if_pos hsigned] at hexec
      next hunsigned =>
        rw [if_neg hunsigned] at hexec
        exact ⟨_, hexec, Patch.fail_clears 6 _⟩
  · intro w hreq
    rw [exec_keyBeat, Patch.keyIn_asked hreq]
  · intro hst hreq hkey
    have hexec := exec_decryptDone s
    rw [Patch.decrypted_cases hst hreq hkey] at hexec
    change if s.blk.patch.opened.2 then (if (readRecords 8192 s.blk.patch.opened.1 ([], [])).isSome then _ else _) else _
    split
    next htag =>
      rw [if_pos htag] at hexec
      split
      next hrecords => rwa [if_pos hrecords] at hexec
      next hnone =>
        rw [if_neg hnone] at hexec
        exact ⟨_, hexec, Patch.fail_clears 8 _⟩
    next htag =>
      rw [if_neg htag] at hexec
      exact ⟨_, hexec, Patch.fail_clears 7 _⟩
  · exact exec_romLoadDone s
  · intro w hst hchecked hrom hrecords
    rw [exec_patchApplied, Patch.apply_checked hst hchecked hrom hrecords]

end Sys2Proof.Machine
